-- ==== Sys2Proof/Word.lean ====
section
/-! DEFINITION. Words, bytes and the operand types of the commands: who sends a control-space access (R503, R505),
what the fabric answered to the fetches made inside one step, the commit regions (R518), the clock domains (R472)
and the charge of a fault event (R438). -/

namespace Sys2Proof

/-- A 64-bit register or memory word (R6). -/
abbrev Word := BitVec 64

/-- One byte (R4). -/
abbrev Byte := BitVec 8

/-- The requester of a control-space access: its fabric node and the VIEW byte of the header flit (R503, R505).
`view` 0 to 15 is a tenancy view and 16 the management view (R514). -/
structure CsReq where
  node : Nat
  view : Nat
  deriving DecidableEq, Repr

/-- What the fabric answered to one fetch that a step makes. `data` is `none` for an error response and for no
response within the bound of R510. A fetch that no item names had no response. -/
structure FetchItem where
  addr : Nat
  data : Option (List Byte)
  deriving DecidableEq, Repr

/-- The answers to all fetches made within one indivisible step. -/
abbrev Fetch := List FetchItem

/-- The commit regions of R518. -/
inductive Region where
  | page (t : Fin 16)
  | reservoir
  | platen
  | trim
  | delta
  | ptc
  deriving DecidableEq, Repr

/-- The six clock domains, in the bit order of CLK_WAKE_REQ (R494). -/
inductive Domain where
  | pclk | eclk | fclk | qclk | tclk | gclk
  deriving DecidableEq, Repr

/-- Bit number of a domain in CLK_WAKE_REQ and CLK_RUN (R494). -/
def Domain.bit : Domain → Nat
  | .pclk => 0 | .eclk => 1 | .fclk => 2 | .qclk => 3 | .tclk => 4 | .gclk => 5

/-- The scope to which a fault event is charged (R438). -/
inductive Charge where
  | instance_
  | tenancy (t : Fin 16)
  | flow (f : Nat)
  | task (id : Nat)
  deriving DecidableEq, Repr

/-- A fenceable unit (R456). -/
inductive FenceUnit where
  | lane (i : Nat)
  | engine (i : Nat)
  | search (i : Nat)
  | parser (i : Nat)
  | tokeniser (i : Nat)
  | port (i : Nat)
  deriving DecidableEq, Repr

/-- What a fault event reports beside its source: the failing access and master of R445, the syndrome, the fenceable
unit it comes from if any (R456), and its charge. -/
structure FaultInfo where
  charge  : Charge
  addr    : Nat
  access  : Nat
  station : Nat
  lane    : Option Nat
  thread  : Nat
  synd    : BitVec 32
  unit    : Option FenceUnit
  deriving DecidableEq, Repr

/-- Fabric response status codes (R503). -/
inductive RespStatus where
  | ok | addr | access | data | unsupported
  deriving DecidableEq, Repr

/-- The STATUS byte of R503. -/
def RespStatus.code : RespStatus → Nat
  | .ok => 0 | .addr => 1 | .access => 2 | .data => 3 | .unsupported => 4

end Sys2Proof
end

