-- ==== Sys2Proof/Syntax.lean ====
section
/-! DEFINITION. The commands of one Birfa instance: one constructor per row of spec/opcode_table.json, in the table's
order. A row that is a host register write carries its requester (CsReq) and, where the register has fields, the
value written; a row that reads package memory inside its step carries what the fabric answered (Fetch). -/

namespace Sys2Proof

/-- The commands, events and operations an instance takes (opcode_table.json). -/
inductive Instr where
  -- forme port and forme life (R56 to R76)
  | lockUp (r : CsReq) (f : Fetch)
  | amendment (r : CsReq) (f : Fetch)
  | cancel (r : CsReq)
  | quoin
  | quoinTimeout
  | amendQuoin
  | amendReservationsHeld
  | amendClaimTimeout
  | retainDone
  | commitGo (r : CsReq) (region : Region)
  | commitApply (region : Region)
  -- tenancies, rings and berths (R113 to R149)
  | tenancyReset (r : CsReq) (t : Fin 16)
  | ringEnableSq (r : CsReq) (t : Fin 16) (ring : BitVec 20) (f : Fetch)
  | ringDisableSq (r : CsReq) (t : Fin 16) (ring : BitVec 20)
  | ringEnableCq (r : CsReq) (t : Fin 16) (ring : BitVec 20) (f : Fetch)
  | ringDisableCq (r : CsReq) (t : Fin 16) (ring : BitVec 20)
  | tenSqTable (r : CsReq) (t : Fin 16) (v : Word)
  | tenCqTable (r : CsReq) (t : Fin 16) (v : Word)
  | tenLiveTable (r : CsReq) (t : Fin 16) (v : Word)
  | doorbell (r : CsReq) (t : Fin 16) (v : Word)
  | cqDoorbell (r : CsReq) (t : Fin 16) (v : Word)
  | pushDrain (f : Fetch)
  | sqEntryFetch (f : Fetch)
  | taskRelease
  | liveDoorbell (r : CsReq) (t : Fin 16) (v : Word) (f : Fetch)
  | livePush (node : Nat) (payload : BitVec 16) (f : Fetch)
  | livePostTake (port : Fin 512) (f : Fetch)
  | encodeStart (flow : BitVec 12) (f : Fetch)
  | pieceDispatch (server : Fin 41) (f : Fetch)
  | parkedUnitReady (flow : BitVec 12)
  | chunkWrite (flow : BitVec 12)
  | pktDoorbell (r : CsReq) (t : Fin 16) (v : Word)
  | taskEnd (id : Nat)
  | completionWrite (cq : BitVec 16)
  | irqDelayExpire (cq : BitVec 16)
  | berthEvict
  | swapComplete
  | poolWaitTimeout (pool : Fin 32)
  -- Galley (R361 to R371)
  | tenGalleyStep (r : CsReq) (t : Fin 16) (v : Word)
  | step (node : Nat) (payload : BitVec 16)
  | heldStepStart (group : Fin 64)
  | galleyLeave (r : CsReq) (t : Fin 16) (v : Word)
  | galleySkip (r : CsReq) (t : Fin 16) (v : Word)
  | galleyFlush (r : CsReq) (t : Fin 16) (v : Word)
  | holdUsExpire (flow : BitVec 12)
  | holdLimit (flow : BitVec 12)
  -- Delta (R395 to R401)
  | deltaAltSet (r : CsReq) (t : Fin 16) (v : Word)
  | deltaAltClear (r : CsReq) (t : Fin 16) (v : Word)
  | fallback (node : Nat) (payload : BitVec 24)
  | layerDone (node : Nat) (payload : BitVec 32)
  | tenDeltaDone (r : CsReq) (t : Fin 16) (v : Word)
  | drainTimeout (id : Nat)
  | staggerGroupStart (group : Fin 16)
  -- fabric (R504 to R510)
  | rdData (tag : BitVec 16) (status : RespStatus) (data : List Byte)
  | ack (tag : BitVec 16) (status : RespStatus)
  | fabricTimeout (tag : BitVec 16)
  | linkCrcFail (port : Fin 16)
  | creditViolation (port : Fin 16)
  -- faults (R437 to R461)
  | faultEvent (source : BitVec 8) (info : FaultInfo)
  | railFault (source : BitVec 8) (info : FaultInfo)
  | railFaultEnd (source : BitVec 8)
  | escalationDecay (source : BitVec 8)
  | collectorSelfCheck (pass : Bool)
  | watchdog (id : Nat)
  | grdTko (v : Word) (f : Fetch)
  | takeoverClaimTimeout
  -- guard port (R500 to R502)
  | guardRead (header : BitVec 32)
  | guardWrite (header : BitVec 32) (v : Word)
  | guardRepair (header : BitVec 32) (words : List (BitVec 32))
  | grdVtableCrc (v : Word)
  | forget
  | delivered (peerTook : Bool)
  | grdFltSrc (source : Fin 64) (v : Word)
  -- resets and starts (R480 to R489)
  | aonRstNLow
  | coldStart (lanesGood : Fin 145) (entropyGood : Fin 53) (credits : BitVec 16)
  | tmodeChange (level : Bool)
  | instRstNLow
  | warmStart (f : Fetch) (credits : BitVec 16)
  | glbResetWarm (r : CsReq) (v : Word)
  | perDomainReset (r : CsReq) (v : Word) (f : Fetch)
  | formeReload (r : CsReq) (v : Word) (f : Fetch)
  | flushTimeout
  -- clocks (R472 to R475)
  | clkRun (d : Domain)
  | clkIdle (d : Domain)
  | clkWakeTimeout (d : Domain)
  | clockLoss (d : Domain)
  -- power (R412 to R433)
  | vrAlertNFall
  | vrAlertNRise
  | alertHoldExpire
  | barrierHint
  | barrierRelease
  | rampStep
  | hintMaxExpire
  | timeSync (time : Word)
  | syncLoss
  | peerAliveEdge
  | peerSeenExpire
  | aliveToggle
  | share (v : BitVec 28)
  | meas (v : BitVec 28)
  | measStale
  | agreeExpire
  | vack (v : BitVec 28)
  | vreqTimeout
  | vreqRetry
  | stepUp
  | capEvaluate
  | tempSample (tj : BitVec 16)
  | tjMaxStep
  | currentEstimate
  | edcTimerExpire
  | droop
  | droopEnd
  | boostBudgetEnd
  | boostBinRoll
  | boostBinsSave
  | offloadWindow
  -- Riffle known answers, test injection, registers, boundary
  | katGo (r : CsReq) (v : Word)
  | katDone
  | tstInj (r : CsReq) (v : Word)
  | registerWrite (r : CsReq) (off : Nat) (len : Nat) (v : Word)
  | registerRead (r : CsReq) (off : Nat) (len : Nat)
  | badMsg (node : Nat) (type : BitVec 16) (payload : List Byte)
  | guardTransactionGap
  | weirBucketRefill
  | staggerHoldLimit
  | staggerWindowClose
  | instanceSupplyLoss
  | alwaysOnSupplyLoss
  deriving DecidableEq, Repr

end Sys2Proof
end

