-- ==== Sys2Proof/Machine/Bytes.lean ====
section
/-! DEFINITION. Byte strings: little-endian fields (R4), CRC-32C (R45), and what a step's fetches brought. -/

namespace Sys2Proof.Machine

/-- The little-endian value of a byte string (R4). -/
def leNat : List Byte → Nat
  | [] => 0
  | b :: rest => b.toNat + 256 * leNat rest

/-- The `n` little-endian bytes of a number (R4). -/
def leBytes : Nat → Nat → List Byte
  | 0, _ => []
  | n + 1, v => BitVec.ofNat 8 v :: leBytes n (v / 256)

/-- The `n`-byte little-endian field at offset `off`; bytes past the end read 0. -/
def fieldAt (d : List Byte) (off n : Nat) : Nat := leNat ((d.drop off).take n)

/-- The byte at an offset; a byte past the end reads 0. -/
def byteAt (d : List Byte) (off : Nat) : Nat := ((d.drop off).headD 0).toNat

/-- `n` bytes from an offset. -/
def sliceAt (d : List Byte) (off n : Nat) : List Byte := (d.drop off).take n

/-- Every byte is zero. -/
def allZero (d : List Byte) : Bool := d.all (· == 0)

/-- Bits [hi:lo] of a number. -/
def bits (v hi lo : Nat) : Nat := v / 2 ^ lo % 2 ^ (hi - lo + 1)

/-- Bit i of a number. -/
def bit (v i : Nat) : Bool := v / 2 ^ i % 2 = 1

/-- 1 or 0. -/
def b2n (b : Bool) : Nat := if b then 1 else 0

/-- Quotient rounded up. -/
def ceilDiv (a b : Nat) : Nat := (a + b - 1) / b

/-- Round up to a multiple. -/
def roundUp (a m : Nat) : Nat := ceilDiv a m * m

/-- One bit of the reflected CRC-32C register (R45). -/
def crcBit (c : Nat) : Nat := if c % 2 = 1 then (c / 2) ^^^ 0x82F63B78 else c / 2

/-- One byte of CRC-32C. -/
def crcByte (c : Nat) (b : Byte) : Nat :=
  crcBit (crcBit (crcBit (crcBit (crcBit (crcBit (crcBit (crcBit (c ^^^ b.toNat))))))))

/-- CRC-32C of a byte string (R45). -/
def crc32c (d : List Byte) : Nat := d.foldl crcByte 0xFFFFFFFF ^^^ 0xFFFFFFFF

/-- Two address ranges [a, a + n) and [b, b + m) share a byte. -/
def overlaps (a n b m : Nat) : Bool := decide (a < b + m) && decide (b < a + n) && decide (0 < n) && decide (0 < m)

/-- The first item that brought the byte at an address, with the bytes from there on. -/
def fetchFrom : Fetch → Nat → Option (List Byte)
  | [], _ => none
  | x :: rest, a =>
    match x.data with
    | some d => if x.addr ≤ a ∧ a < x.addr + d.length then some (d.drop (a - x.addr)) else fetchFrom rest a
    | none => fetchFrom rest a

/-- Gather `n` bytes from an address out of the items; none when one is missing. -/
def fetchGo : Nat → Fetch → Nat → Nat → Option (List Byte)
  | _, _, _, 0 => some []
  | 0, _, _, _ => none
  | k + 1, f, a, n =>
    match fetchFrom f a with
    | none => none
    | some d =>
      let got := d.take n
      (fetchGo k f (a + got.length) (n - got.length)).map (fun r => got ++ r)

/-- The `n` bytes at an address as the step's fetches brought them; none for an error response or no response. -/
def fetchBytes (f : Fetch) (a n : Nat) : Option (List Byte) := fetchGo (f.length + n) f a n

/-- Did a fetch have no response at all, neither data nor an error (R510)? -/
def noAnswer (f : Fetch) (a n : Nat) : Bool :=
  (fetchBytes f a n).isNone && f.all (fun x => x.data.isSome || !(decide (a ≤ x.addr) && decide (x.addr < a + n)))

end Sys2Proof.Machine
end

