-- ==== Sys2Proof/Machine/Ecdsa.lean ====
section
/-! DEFINITION. ECDSA over P-384 (R46), as FIPS 186-5 and SP 800-186 define it: verification only. -/

namespace Sys2Proof.Machine

/-- The prime of P-384. -/
def p384P : Nat := 2 ^ 384 - 2 ^ 128 - 2 ^ 96 + 2 ^ 32 - 1

/-- The group order of P-384. -/
def p384N : Nat :=
  0xFFFFFFFFFFFFFFFFFFFFFFFFFFFFFFFFFFFFFFFFFFFFFFFFC7634D81F4372DDF581A0DB248B0A77AECEC196ACCC52973

/-- The coefficient b of P-384. -/
def p384B : Nat :=
  0xB3312FA7E23EE7E4988E056BE3F82D19181D9C6EFE8141120314088F5013875AC656398D8A2ED19D2A85C8EDD3EC2AEF

/-- The x coordinate of the base point. -/
def p384Gx : Nat :=
  0xAA87CA22BE8B05378EB1C71EF320AD746E1D3B628BA79B9859F741E082542A385502F25DBF55296C3A545E3872760AB7

/-- The y coordinate of the base point. -/
def p384Gy : Nat :=
  0x3617DE4A96262C6F5D9E98BF9292DC29F8F41DBD289A147CE9DA3113B5F0B8C00A60B1CE1D7E819D7A431D7C90EA0E5F

/-- The low `n` bits of a number, least significant first. -/
def bitsLsb : Nat → Nat → List Bool
  | 0, _ => []
  | n + 1, v => (v % 2 == 1) :: bitsLsb n (v / 2)

/-- b to the power e modulo m, over the 384 bits of e. -/
def powMod (b e m : Nat) : Nat :=
  ((bitsLsb 384 e).foldl (fun (a : Nat × Nat) bt => (if bt then a.1 * a.2 % m else a.1, a.2 * a.2 % m)) (1, b % m)).1

/-- The inverse modulo a prime. -/
def invMod (a m : Nat) : Nat := powMod a (m - 2) m

/-- A Jacobian point; Z = 0 is the point at infinity. -/
structure Jac where
  x : Nat
  y : Nat
  z : Nat
  deriving DecidableEq, Repr

/-- a − b modulo the prime. -/
def subP (a b : Nat) : Nat := (a + p384P - b % p384P) % p384P

/-- Double a point (a = −3). -/
def Jac.dbl (q : Jac) : Jac :=
  if q.z = 0 ∨ q.y = 0 then ⟨1, 1, 0⟩ else
  let p := p384P
  let z2 := q.z * q.z % p
  let m := 3 * subP q.x z2 * (q.x + z2) % p
  let y2 := q.y * q.y % p
  let s := 4 * q.x * y2 % p
  let x' := subP (m * m % p) (2 * s)
  ⟨x', subP (m * subP s x' % p) (8 * y2 * y2), 2 * q.y * q.z % p⟩

/-- Add two points. -/
def Jac.add (a b : Jac) : Jac :=
  if a.z = 0 then b else if b.z = 0 then a else
  let p := p384P
  let za := a.z * a.z % p
  let zb := b.z * b.z % p
  let u1 := a.x * zb % p
  let u2 := b.x * za % p
  let s1 := a.y * b.z * zb % p
  let s2 := b.y * a.z * za % p
  if u1 = u2 then (if s1 = s2 then a.dbl else ⟨1, 1, 0⟩) else
  let h := subP u2 u1
  let r := subP s2 s1
  let h2 := h * h % p
  let h3 := h2 * h % p
  let v := u1 * h2 % p
  let x' := subP (subP (r * r % p) h3) (2 * v)
  ⟨x', subP (r * subP v x' % p) (s1 * h3), h * a.z * b.z % p⟩

/-- k times a point. -/
def Jac.mul (k : Nat) (q : Jac) : Jac :=
  (bitsLsb 384 k).reverse.foldl (fun acc bt => if bt then acc.dbl.add q else acc.dbl) ⟨1, 1, 0⟩

/-- The point lies on the curve and its coordinates are reduced. -/
def onP384 (x y : Nat) : Bool :=
  decide (x < p384P) && decide (y < p384P) &&
    y * y % p384P == (x * x * x + p384P * 3 - 3 * x % (p384P * 3) + p384B) % p384P

/-- Verify (r, s) over a message hash under the public key (x, y). -/
def ecdsaVerify (hash r s x y : Nat) : Bool :=
  if r = 0 ∨ s = 0 ∨ p384N ≤ r ∨ p384N ≤ s then false
  else if !onP384 x y then false
  else
    let w := invMod s p384N
    let q := (Jac.mul (hash * w % p384N) ⟨p384Gx, p384Gy, 1⟩).add (Jac.mul (r * w % p384N) ⟨x, y, 1⟩)
    if q.z = 0 then false
    else
      let zi := invMod q.z p384P
      q.x * zi * zi % p384P % p384N == r

end Sys2Proof.Machine
end

