-- ==== Sys2Proof/Machine/Formats.lean ====
section
/-! DEFINITION. Element format and layout codes (R12 to R14), and the sizes of tensors in memory (R313, R352). -/

namespace Sys2Proof.Machine

/-- Element width in bits of a format code; none for a reserved code (R12, R13). -/
def fmtWidth (c : Nat) : Option Nat :=
  if c = 0x01 ∨ c = 0x07 ∨ c = 0x08 ∨ c = 0x09 ∨ c = 0x0A ∨ c = 0x0C ∨ c = 0x0D then some 8
  else if c = 0x02 ∨ c = 0x03 ∨ c = 0x04 ∨ c = 0x05 then some 16
  else if c = 0x06 then some 32
  else if c = 0x0B then some 6
  else if c = 0x0E then some 10
  else if c = 0x0F then some 12
  else none

/-- Formats with one shared scale per 32 elements (R12). -/
def fmtBlock (c : Nat) : Bool := decide (0x09 ≤ c ∧ c ≤ 0x0C)

/-- The largest defined layout code is 0x4 (R14). -/
def layoutOk (c : Nat) : Bool := decide (c ≤ 4)

/-- PAYLOAD of a tile (R39). -/
def tilePayload (w h ch fmt : Nat) : Nat :=
  let n := w * h * ch
  ceilDiv (n * (fmtWidth fmt).getD 8) 8 + (if fmtBlock fmt then ceilDiv n 32 else 0)

/-- Row bytes, scale bytes and group bytes of layouts 0x3 and 0x4 (R313). -/
def skewRow (outW fmt : Nat) : Nat := ceilDiv ((outW + 8) * (fmtWidth fmt).getD 8) 8

/-- Scale bytes of a group of 8 rows (R313). -/
def skewScales (outW layout : Nat) : Nat := if layout = 4 then 8 * outW / 32 else 0

/-- Bytes of a group of 8 rows (R313). -/
def skewGroup (outW fmt layout : Nat) : Nat := roundUp (8 * skewRow outW fmt + skewScales outW layout) 64

/-- Bytes of one sample's tensor in memory (R313; R352 for layout 0x2). -/
def tensorBytes (fmt layout outC outH outW : Nat) : Nat :=
  if layout = 3 ∨ layout = 4 then outC * ceilDiv outH 8 * skewGroup outW fmt layout
  else ceilDiv (outC * outH * outW * (fmtWidth fmt).getD 8) 8

end Sys2Proof.Machine
end

