-- ==== Sys2Proof/Machine/FormeTypes.lean ====
section
/-! DEFINITION. A forme as the parse phase of lock-up leaves it (R43 to R52): its sections, with every parameter
sub-block of a flow decoded into fields. -/

namespace Sys2Proof.Machine

/-- A station graph entry (R48). -/
structure Segment where
  src   : Nat
  dst   : Nat
  width : Nat
  deriving DecidableEq, Repr

/-- A logical lane entry of the imposition (R49). -/
structure LaneEntry where
  role  : Nat
  group : Nat
  deriving DecidableEq, Repr

/-- A tenancy table entry (R113). -/
structure TenEntry where
  enabled     : Bool
  cxl         : Bool
  hostFn      : Nat
  sqFirst     : Nat
  sqCount     : Nat
  cqFirst     : Nat
  cqCount     : Nat
  msiVectors  : Nat
  maxFlows    : Nat
  maxDeadline : Nat
  maxBerths   : Nat
  maxCodec    : Nat
  maxTasks    : Nat
  maxReserve  : Nat
  weirShare   : Nat
  deriving DecidableEq, Repr

/-- The class declaration (R88). -/
structure ClassDecl where
  pixels     : Nat
  bytesIn    : Nat
  bytesOut   : Nat
  bins       : Nat
  entropyPar : Nat
  textBytes  : Nat
  deltaBytes : Nat
  deriving DecidableEq, Repr

/-- A live port binding (R184). -/
structure LiveBinding where
  port      : Nat
  qdepth    : Nat
  supersede : Bool
  diePost   : Bool
  freshNs   : Nat
  cq        : Nat
  deriving DecidableEq, Repr

/-- One field entry of the record settings (R197). -/
structure RecField where
  key      : List Byte
  role     : Nat
  required : Bool
  fieldMax : Nat
  deriving DecidableEq, Repr

/-- Record settings (R197). -/
structure RecordSettings where
  container : Nat
  resync    : Bool
  pxPerByte : Nat
  fields    : List RecField
  deriving DecidableEq, Repr

/-- One filter bank of the Trim settings (R291): MAX_RATIO and 64 phases of TAPS coefficients, phase-major. -/
structure Bank where
  maxRatio : Nat
  coefs    : List Int
  deriving DecidableEq, Repr

/-- Trim settings (R291). fp32 fields are binary32 patterns. -/
structure TrimSettings where
  cropMode : Nat
  filter   : Nat
  taps     : Nat
  padMode  : Nat
  matrix   : Nat
  range    : Nat
  siting   : Nat
  outCh    : Nat
  round    : Nat
  rotSet   : Nat
  flags    : Nat
  cropA    : Nat
  cropB    : Nat
  cropC    : Nat
  cropD    : Nat
  /-- P_FLIP_H, P_FLIP_V, P_ROT, P_JITTER, P_NOISE, P_ERASE -/
  probs    : List Nat
  /-- B_LO, B_HI, C_LO, C_HI, S_LO, S_HI -/
  jitter   : List (BitVec 32)
  sigma    : BitVec 32
  eraseVal : BitVec 32
  /-- E_SMIN, E_SMAX, E_AMIN, E_AMAX -/
  erase    : List Nat
  mean     : List (BitVec 32)
  invStd   : List (BitVec 32)
  outScale : BitVec 32
  padValue : List Nat
  banks    : List Bank
  deriving DecidableEq, Repr

/-- Text settings (R346). -/
structure TextSettings where
  kind      : Nat
  unkMode   : Nat
  addBos    : Bool
  addEos    : Bool
  textPart  : Nat
  preMax    : Nat
  bosId     : Nat
  eosId     : Nat
  unkId     : Nat
  imageAddr : Nat
  imageSize : Nat
  imageCrc  : BitVec 32
  deriving DecidableEq, Repr

/-- Patch settings (R351). -/
structure PatchSettings where
  ph : Nat
  pw : Nat
  deriving DecidableEq, Repr

/-- Galley settings (R353). -/
structure GalleySettings where
  mode          : Nat
  kind          : Nat
  group         : Nat
  oversetRandom : Bool
  tokenDrop     : Bool
  rows          : Nat
  oversetDepth  : Nat
  slugTokens    : Nat
  align         : Nat
  maxSegs       : Nat
  padId         : Nat
  maskId        : Nat
  vocabLimit    : Nat
  pDrop         : Nat
  auxBytes      : Nat
  sideBytes     : Nat
  holdUs        : Nat
  batchCq       : Nat
  deriving DecidableEq, Repr

/-- Delta settings (R379). -/
structure DeltaSettings where
  kind       : Nat
  notify     : Bool
  stageKib   : Nat
  consumeNs  : Nat
  dieMask    : Nat
  slots      : Nat
  dstBase    : Nat
  slotStride : Nat
  auxBase    : Nat
  auxStride  : Nat
  deriving DecidableEq, Repr

/-- A flow table entry (R50) with its parameter block (R87) decoded. `entryOff` is the entry's offset in the forme
and `clsOff` to `dltOff` those of its sub-blocks, which FRM_REFUSAL.OFFSET names. -/
structure FlowEntry where
  flow       : Nat
  ten        : Nat
  deadline   : Bool
  protected_ : Bool
  stateful   : Bool
  remove     : Bool
  partitions : Nat
  path       : List Nat
  entryMask  : Nat
  policy     : Nat
  outFormat  : Nat
  outLayout  : Nat
  groupMask  : Nat
  periodNs   : Nat
  deadlineNs : Nat
  outC       : Nat
  outH       : Nat
  outW       : Nat
  maxW       : Nat
  maxH       : Nat
  depth      : Nat
  paramLen   : Nat
  entryOff   : Nat
  cls        : ClassDecl
  live       : Option LiveBinding
  record     : Option RecordSettings
  trim       : Option TrimSettings
  text       : Option TextSettings
  patch      : Option PatchSettings
  galley     : Option GalleySettings
  delta      : Option DeltaSettings
  /-- offsets in the forme of the flow's sub-blocks by type (R87) -/
  subOffs    : List (Nat × Nat)
  deriving DecidableEq, Repr

/-- A pool definition (R155). -/
structure PoolDef where
  cls      : Nat
  place    : Nat
  hyst     : Nat
  blocks   : Nat
  base     : Nat
  warn     : Nat
  throttle : Nat
  stop     : Nat
  off      : Nat
  deriving DecidableEq, Repr

/-- A pool claim (R156). -/
structure PoolClaim where
  pool    : Nat
  flow    : Nat
  ten     : Nat
  reserve : Nat
  off     : Nat
  deriving DecidableEq, Repr

/-- A decode entry of the codec settings (R219). -/
structure DecEntry where
  codec      : Nat
  profiles   : Nat
  maxLevel   : Nat
  maxDepth   : Nat
  chroma     : Nat
  mode       : Nat
  lead       : Nat
  sideMask   : Nat
  flags      : Nat
  refSlots   : Nat
  outDepth   : Nat
  clipFrames : Nat
  clipStride : Nat
  maxAu      : Nat
  stripeBins : Nat
  deriving DecidableEq, Repr

/-- An encode entry of the codec settings (R257). -/
structure EncEntry where
  codec       : Nat
  profile     : Nat
  level       : Nat
  depth       : Nat
  rcMode      : Nat
  picW        : Nat
  picH        : Nat
  tileCols    : Nat
  tileRows    : Nat
  grid        : Nat
  flags       : Nat
  refFrames   : Nat
  goldenInt   : Nat
  searchRange : Nat
  hintMin     : Nat
  hintTrust   : Nat
  trail       : Nat
  qpMin       : Nat
  qpMax       : Nat
  qInit       : Nat
  qKey        : Nat
  qInter      : Nat
  keyBoost    : Nat
  keyInterval : Nat
  rateKbps    : Nat
  bufKbits    : Nat
  initFull    : Nat
  latBytes    : Nat
  keyLatBytes : Nat
  aInit       : Nat
  stripeBins  : Nat
  startOff    : Nat
  pktBase     : Nat
  pktSize     : Nat
  deriving DecidableEq, Repr

/-- The two directions of a codec settings entry. -/
inductive CodecBody where
  | dec (e : DecEntry)
  | enc (e : EncEntry)
  deriving DecidableEq, Repr

/-- A codec settings entry (R219, R257). -/
structure CodecEntry where
  flow : Nat
  ten  : Nat
  body : CodecBody
  off  : Nat
  deriving DecidableEq, Repr

/-- A Riffle entry (R320). -/
structure RiffleEntry where
  flow      : Nat
  ten       : Nat
  mode      : Nat
  normal    : Nat
  epoch     : Nat
  seed      : Word
  tableAddr : Nat
  tableCrc  : BitVec 32
  off       : Nat
  deriving DecidableEq, Repr

/-- A microcode entry (R52). -/
structure MicroEntry where
  station  : Nat
  uversion : Nat
  length   : Nat
  deriving DecidableEq, Repr

/-- A merge entry of a tokeniser image (R343). -/
structure MergeEntry where
  left   : Nat
  right  : Nat
  result : Nat
  rank   : Nat
  deriving DecidableEq, Repr

/-- A string entry of a tokeniser image (R343), with its bytes. -/
structure StrEntry where
  id    : Nat
  bytes : List Byte
  cont  : Bool
  deriving DecidableEq, Repr

/-- A tokeniser image in one of the 8 image slots (R343, R344). -/
structure TokImage where
  addr    : Nat
  size    : Nat
  crc     : BitVec 32
  kind    : Nat
  vocab   : Nat
  classes : List Byte
  byteIds : List Nat
  merges  : List MergeEntry
  strings : List StrEntry
  deriving DecidableEq, Repr

/-- An inverse-CDF table in one of Riffle's 16 table slots (R320). -/
structure RflTable where
  addr   : Nat
  crc    : BitVec 32
  values : List (BitVec 32)
  deriving DecidableEq, Repr

/-- A parsed forme. -/
structure Forme where
  id       : Word
  size     : Nat
  segs     : List Segment
  lanes    : List LaneEntry
  engines  : List Nat
  /-- mover entries: the assigned tenancy, or none -/
  movers   : List (Option Nat)
  tens     : List TenEntry
  flows    : List FlowEntry
  defs     : List PoolDef
  claims   : List PoolClaim
  codecs   : List CodecEntry
  riffles  : List RiffleEntry
  micro    : List MicroEntry
  images   : List TokImage
  tables   : List RflTable
  /-- fill order of the image and table slots: (slot, address, CRC) (R340) -/
  imgSlots : List (Nat × Nat × BitVec 32)
  tabSlots : List (Nat × Nat × BitVec 32)
  deriving DecidableEq, Repr

/-- A tenancy entry with nothing enabled (R74). -/
def TenEntry.blank : TenEntry := ⟨false, false, 0, 0, 0, 0, 0, 0, 0, 0, 0, 0, 0, 0, 0⟩

/-- The blank forme (R74). -/
def Forme.blank : Forme :=
  { id := 0, size := 0, segs := [], lanes := [], engines := [], movers := [],
    tens := List.replicate 16 TenEntry.blank, flows := [], defs := [], claims := [], codecs := [], riffles := [],
    micro := [], images := [], tables := [], imgSlots := [], tabSlots := [] }

end Sys2Proof.Machine
end

