-- ==== Sys2Proof/Machine/FormeParse.lean ====
section
/-! DEFINITION. The parse phase of a lock-up or amendment (R43 to R53, R56, R59, R66): header, section table, then each
section in ascending type with its CRC first, then the format rules of its entries in entry order. Pairing rules are
in Machine/FormePair.lean. -/

namespace Sys2Proof.Machine

/-- A parse failure: refusal code, section, offset, and the fetch that failed, if one did (R59). -/
structure PErr where
  code    : Nat
  sec     : Nat
  off     : Nat
  fetch   : Option (Nat × Nat)
  station : Option Nat
  flow    : Option (Nat × Nat)
  /-- the byte that is not zero is reserved: the first such byte of the forme is named (R44) -/
  rsv     : Bool
  deriving DecidableEq, Repr

/-- A FORMAT refusal at an offset of a section. -/
def fmtErr (sec off : Nat) : PErr := ⟨0x08, sec, off, none, none, none, false⟩

/-- A reserved byte that is not zero (R44). -/
def rsvErr (sec off : Nat) : PErr := { fmtErr sec off with rsv := true }

/-- A PAIR_MISMATCH refusal at an offset of a section. -/
def pairErr (sec off : Nat) : PErr := ⟨0x0A, sec, off, none, none, none, false⟩

/-- A refusal because a fetch failed (R59). -/
def fetchErr (sec off a n : Nat) : PErr := ⟨0x08, sec, off, some (a, n), none, none, false⟩

/-- Go on when the condition holds, else end with the refusal. -/
def need (ok : Bool) (e : PErr) : Except PErr Unit := if ok then .ok () else .error e

/-- The bytes of a fetch, or the failure of R59. -/
def got (f : Fetch) (a n sec off : Nat) : Except PErr (List Byte) :=
  match fetchBytes f a n with
  | some b => .ok b
  | none => .error (fetchErr sec off a n)

/-- Offset of the first byte that is not zero. -/
def firstNz (base : Nat) : List Byte → Option Nat
  | [] => none
  | b :: rest => if b = 0 then firstNz (base + 1) rest else some base

/-- Reserved bytes are zero (R44). -/
def zeros (d : List Byte) (sec base : Nat) : Except PErr Unit :=
  match firstNz base d with
  | none => .ok ()
  | some o => .error (rsvErr sec o)

/-- Bytes that a rule asks to be zero and does not call reserved. -/
def blank (d : List Byte) (sec base : Nat) : Except PErr Unit :=
  match firstNz base d with
  | none => .ok ()
  | some o => .error (fmtErr sec o)

/-- The reserved bits of a value of `n` bytes, from bit `lo` up, are zero (R44). -/
def highZero (v lo n sec base : Nat) : Except PErr Unit :=
  match (List.range n).find? (fun k => v / 2 ^ max lo (8 * k) % 2 ^ (8 * (k + 1) - max lo (8 * k)) != 0) with
  | none => .ok ()
  | some k => .error (rsvErr sec (base + k))

/-- A failure that concerns a flow names it (R83). -/
def naming {α : Type} (fl tn : Nat) (r : Except PErr α) : Except PErr α :=
  r.mapError (fun e => { e with flow := some (e.flow.getD (fl, tn)) })

/-- Run a check over a list in order. -/
def eachOf {α : Type} (l : List α) (f : α → Except PErr Unit) : Except PErr Unit :=
  l.foldl (fun r x => match r with | .ok () => f x | .error e => .error e) (.ok ())

/-- Map over a list in order, stopping at the first failure. -/
def mapOf {α β : Type} (f : α → Except PErr β) : List α → Except PErr (List β)
  | [] => .ok []
  | x :: rest => match f x with
    | .error e => .error e
    | .ok y => match mapOf f rest with
      | .error e => .error e
      | .ok ys => .ok (y :: ys)

/-- What the parse knows besides the section: the live forme for an amendment, and the fetch answers. -/
structure PCtx where
  amend : Bool
  /-- are both checkpoint areas enabled (R450) -/
  areas : Bool
  live  : Forme
  count : Nat
  fetch : Fetch
  src   : Nat
  deriving DecidableEq, Repr

/-! ### Header and section table -/

/-- The checks of R59 and R81 on the header, before any further fetch. -/
def precheck (c : PCtx) (h : List Byte) (size : Nat) : Except PErr Unit := do
  need (c.src % 64 == 0) (fmtErr 0 0)
  need (fieldAt h 8 4 == size && fieldAt h 8 4 ≤ 16515072) (fmtErr 0 8)
  need (bit (fieldAt h 12 4) 0 == c.amend) (fmtErr 0 12)

/-- The header (R43, R66, R74). A KEY_INDEX above 3 is FORMAT: R43 gives the range and no refusal. DESIGN CHOICE, log entry
78. -/
def parseHeader (c : PCtx) (h table : List Byte) : Except PErr Unit := do
  let n := fieldAt h 6 2
  need (fieldAt h 0 4 == 0x4846524D) (fmtErr 0 0)
  need (byteAt h 5 == 1) (fmtErr 0 4)
  need (if c.amend then decide (1 ≤ n ∧ n ≤ 4) else n == 8) (fmtErr 0 6)
  need (decide (64 + 16 * n + 128 ≤ fieldAt h 8 4)) (fmtErr 0 8)
  highZero (fieldAt h 12 4) 1 4 0 12
  need (c.amend || fieldAt h 16 8 != 0) (fmtErr 0 16)
  need (if c.amend then fieldAt h 24 8 != 0 && fieldAt h 24 8 == c.live.id.toNat else fieldAt h 24 8 == 0) (fmtErr 0 24)
  need (fieldAt h 32 4 == fieldAt h 8 4 - 128) (fmtErr 0 32)
  need (byteAt h 36 ≤ 3) (fmtErr 0 36)
  need (byteAt h 37 == 0) (rsvErr 0 37)
  need (if c.amend then c.count < 65535 && fieldAt h 38 2 == c.count + 1 else fieldAt h 38 2 == 0) (fmtErr 0 38)
  need (crc32c (h.take 40 ++ table) == fieldAt h 40 4) (fmtErr 0 40)
  zeros (sliceAt h 44 20) 0 44

/-- A section table entry: type, offset, length, CRC (R44). -/
structure SecEnt where
  type : Nat
  off  : Nat
  len  : Nat
  crc  : Nat
  deriving DecidableEq, Repr

/-- Entry i of the section table (R44, R47, R66), with the entries before it. -/
def parseSecEnt (c : PCtx) (sig tend : Nat) (table : List Byte) (prev : List SecEnt) (i : Nat) :
    Except PErr SecEnt := do
  let d := sliceAt table (16 * i) 16
  let at_ := 64 + 16 * i
  let e : SecEnt := ⟨byteAt d 0, fieldAt d 4 4, fieldAt d 8 4, fieldAt d 12 4⟩
  zeros (sliceAt d 1 3) 0 (at_ + 1)
  need (decide (1 ≤ e.type ∧ e.type ≤ 8)) (fmtErr 0 at_)
  need (prev.all (fun p => p.type < e.type)) (fmtErr 0 at_)
  need (!c.amend || e.type == 3 || e.type == 5 || e.type == 6 || e.type == 7) (fmtErr 0 at_)
  need (e.off % 64 == 0 && tend ≤ e.off && 16 ≤ e.len && e.off + e.len ≤ sig) (fmtErr 0 at_)
  need (prev.all (fun p => !overlaps p.off p.len e.off e.len)) (fmtErr 0 at_)
  .ok e

/-- The section table, entry by entry. -/
def parseTable (c : PCtx) (sig : Nat) (table : List Byte) (n : Nat) : Except PErr (List SecEnt) := do
  let es ← (List.range n).foldl (fun r i => match r with
    | .error e => .error e
    | .ok es => match parseSecEnt c sig (64 + 16 * n) table es i with
      | .error e => .error e
      | .ok x => .ok (es ++ [x])) (.ok [])
  need (es.any (fun e => e.type == 3)) (fmtErr 0 64)
  .ok es

/-- Put a section in order of offset. -/
def insSec (e : SecEnt) : List SecEnt → List SecEnt
  | [] => [e]
  | x :: rest => if e.off < x.off then e :: x :: rest else x :: insSec e rest

/-- The gaps between sections, each as (first byte, length). -/
def gapsOf (sig : Nat) : Nat → List SecEnt → List (Nat × Nat)
  | pos, [] => [(pos, sig - pos)]
  | pos, e :: rest => (pos, e.off - pos) :: gapsOf sig (e.off + e.len) rest

/-- The bytes between sections are zero (R44). They are checked after the section table and before the sections: R56 does not
place them. DESIGN CHOICE, log entry 78. -/
def parseGaps (c : PCtx) (sig n : Nat) (es : List SecEnt) : Except PErr Unit :=
  eachOf (gapsOf sig (64 + 16 * n) (es.foldr insSec [])) (fun g => do
    let d ← got c.fetch (c.src + g.1) g.2 0 g.1
    zeros d 0 g.1)

/-- Entry size, count limit, whether the count is exact, and whether a trailing area follows (R44, R47). -/
def secRule (t : Nat) : Nat × Nat × Bool × Bool :=
  if t = 1 then (8, 128, false, false) else if t = 2 then (336, 1, true, false)
  else if t = 3 then (64, 4096, false, true) else if t = 4 then (128, 16, true, false)
  else if t = 5 then (32, 1024, false, false) else if t = 6 then (256, 512, false, false)
  else if t = 7 then (32, 4096, false, false) else (16, 10, false, true)

/-- The section's CRC and header (R44, R47); answers its bytes and entry count. -/
def parseSection (c : PCtx) (e : SecEnt) : Except PErr (List Byte × Nat) := do
  let d ← got c.fetch (c.src + e.off) e.len e.type e.off
  need (crc32c d == e.crc) (fmtErr e.type e.off)
  zeros (sliceAt d 2 2) e.type (e.off + 2)
  zeros (sliceAt d 12 4) e.type (e.off + 12)
  let n := fieldAt d 4 4
  let (size, limit, exact, _) := secRule e.type
  need (byteAt d 0 == e.type && byteAt d 1 == 1 && fieldAt d 8 4 == size && n ≤ limit && (!exact || n == limit) &&
    16 + n * size ≤ e.len) (fmtErr e.type e.off)
  .ok (d, n)

/-- The bytes after the last entry of a section without a trailing area are reserved (R44). -/
def parseTail (e : SecEnt) (d : List Byte) (n : Nat) : Except PErr Unit :=
  let (size, _, _, trailing) := secRule e.type
  if trailing then .ok () else zeros (d.drop (16 + n * size)) e.type (e.off + 16 + n * size)

/-- Entries of `size` bytes with their offsets in the forme. -/
def entriesOf (d : List Byte) (n size base : Nat) : List (Nat × List Byte) :=
  (List.range n).map (fun i => (base + 16 + i * size, sliceAt d (16 + i * size) size))

/-! ### Sections 0x01 and 0x02 -/

/-- Is this a station code that a path or segment may name (R36)? -/
def stationOk (c : Nat) : Bool := decide (1 ≤ c ∧ c ≤ 0x0A)

/-- Section 0x01 (R36, R48). -/
def parseGraph (ents : List (Nat × List Byte)) : Except PErr (List Segment) :=
  ents.foldl (fun r x => match r with
    | .error e => .error e
    | .ok segs => do
      let (o, d) := x
      let a := byteAt d 0
      let b := byteAt d 1
      need (stationOk a) (fmtErr 1 o)
      need (stationOk b) (fmtErr 1 o)
      need (a != b && segs.all (fun s => !(s.src == a && s.dst == b))) (fmtErr 1 o)
      need (byteAt d 2 ≤ 2) (fmtErr 1 o)
      zeros (sliceAt d 3 5) 1 (o + 3)
      .ok (segs ++ [⟨a, b, byteAt d 2⟩])) (.ok [])

/-- The imposition (R49). -/
def parseImpose (o : Nat) (d : List Byte) : Except PErr (List LaneEntry × List Nat × List (Option Nat)) := do
  let lanes ← (List.range 128).foldl (fun r i => match r with
    | .error e => .error e
    | .ok ls => do
      let role := byteAt d (2 * i)
      let grp := byteAt d (2 * i + 1)
      need (role ≤ 3) (fmtErr 2 (o + 2 * i))
      need (role == 0 || grp ≤ 31) (fmtErr 2 (o + 2 * i + 1))
      need (role == 0 || ls.all (fun (l : LaneEntry) => l.role == 0 || l.group != grp || l.role == role))
        (fmtErr 2 (o + 2 * i))
      .ok (ls ++ [(⟨role, grp⟩ : LaneEntry)])) (.ok [])
  let engines ← mapOf (fun i => do
    let v := byteAt d (256 + i)
    need (v ≤ 2) (fmtErr 2 (o + 256 + i))
    .ok v) (List.range 48)
  let movers ← mapOf (fun i => do
    let v := byteAt d (304 + i)
    need (bits v 6 4 == 0) (rsvErr 2 (o + 304 + i))
    .ok (if bit v 7 then some (v % 16) else none)) (List.range 32)
  .ok (lanes, engines, movers)

/-! ### Parameter sub-blocks (R87) -/

/-- Split a parameter block into sub-blocks: (type, offset in the forme, bytes). -/
def subBlocks : Nat → Nat → List Byte → Except PErr (List (Nat × Nat × List Byte))
  | 0, _, _ => .ok []
  | _ + 1, _, [] => .ok []
  | k + 1, o, d => do
    need (4 ≤ d.length) (fmtErr 3 o)
    let ln := fieldAt d 2 2
    need (ln % 8 == 0 && 8 ≤ ln && ln ≤ d.length) (fmtErr 3 o)
    need (decide (1 ≤ byteAt d 0 ∧ byteAt d 0 ≤ 8)) (fmtErr 3 o)
    need (byteAt d 1 == 0) (rsvErr 3 (o + 1))
    let rest ← subBlocks k (o + ln) (d.drop ln)
    .ok ((byteAt d 0, o, d.take ln) :: rest)

/-- The sub-blocks of one type. -/
def subsOf (t : Nat) (subs : List (Nat × Nat × List Byte)) : List (Nat × List Byte) :=
  (subs.filter (fun s => s.1 == t)).map (fun s => (s.2.1, s.2.2))

/-- At most one sub-block of a type; none when absent. A second one is refused at its offset. -/
def atMostOne (t : Nat) (subs : List (Nat × Nat × List Byte)) : Except PErr (Option (Nat × List Byte)) :=
  match subsOf t subs with
  | [] => .ok none
  | [x] => .ok (some x)
  | _ :: y :: _ => .error (fmtErr 3 y.1)

/-- What the flow table entry says before its parameter block is read. -/
def FlowEntry.has (f : FlowEntry) (st : Nat) : Bool := f.path.contains st

/-- The class declaration (R88, R526). DELTA_BYTES of 2^48 or more is FORMAT whatever the path: R88 bounds the field, and R526
does not say that a flow without Delta escapes the bound. DESIGN CHOICE, log entry 78. -/
def parseClass (f : FlowEntry) (hasText : Bool) (o : Nat) (d : List Byte) : Except PErr ClassDecl := do
  need (d.length == 48) (fmtErr 3 o)
  zeros (sliceAt d 21 3) 3 (o + 21)
  zeros (sliceAt d 28 4) 3 (o + 28)
  zeros (sliceAt d 40 8) 3 (o + 40)
  let c : ClassDecl := ⟨fieldAt d 4 4, fieldAt d 8 4, fieldAt d 12 4, fieldAt d 16 4, byteAt d 20, fieldAt d 24 4,
    fieldAt d 32 8⟩
  need (!(f.has 5 || f.has 6) || c.pixels != 0) (fmtErr 3 o)
  need (c.bytesIn != 0) (fmtErr 3 o)
  need (!f.has 0x0A || c.bytesOut != 0) (fmtErr 3 o)
  need (!f.has 3 || c.bins != 0) (fmtErr 3 o)
  need (!f.has 3 || decide (1 ≤ c.entropyPar ∧ c.entropyPar ≤ 64)) (fmtErr 3 o)
  need (!hasText || c.textBytes != 0) (fmtErr 3 o)
  need (c.deltaBytes < 2 ^ 48 && (!f.has 9 || c.deltaBytes != 0)) (fmtErr 3 o)
  .ok c

/-- A live port binding (R184). -/
def parseLive (o : Nat) (d : List Byte) : Except PErr LiveBinding := do
  need (d.length == 32) (fmtErr 3 o)
  highZero (fieldAt d 4 2) 9 2 3 (o + 4)
  need (decide (1 ≤ byteAt d 6 ∧ byteAt d 6 ≤ 8)) (fmtErr 3 o)
  need (byteAt d 7 < 4) (rsvErr 3 (o + 7))
  zeros (sliceAt d 14 18) 3 (o + 14)
  .ok ⟨fieldAt d 4 2, byteAt d 6, bit (byteAt d 7) 0, bit (byteAt d 7) 1, fieldAt d 8 4, fieldAt d 12 2⟩

/-- Drop the zero padding of a key. -/
def unpad (d : List Byte) : List Byte := (d.reverse.dropWhile (· == 0)).reverse

/-- Record settings (R197). -/
def parseRecord (o : Nat) (d : List Byte) : Except PErr RecordSettings := do
  need (d.length == 208) (fmtErr 3 o)
  let n := byteAt d 5
  need (byteAt d 4 ≤ 1) (fmtErr 3 o)
  need (decide (1 ≤ n ∧ n ≤ 8)) (fmtErr 3 o)
  need (byteAt d 6 ≤ 1) (rsvErr 3 (o + 6))
  need (byteAt d 7 == 0) (rsvErr 3 (o + 7))
  zeros (sliceAt d 12 4) 3 (o + 12)
  let fs ← mapOf (fun i => do
    let e := sliceAt d (16 + 24 * i) 24
    let eo := o + 16 + 24 * i
    need (byteAt e 16 ≤ 3) (fmtErr 3 o)
    need (byteAt e 17 ≤ 1) (rsvErr 3 (eo + 17))
    zeros (sliceAt e 18 2) 3 (eo + 18)
    .ok ({ key := unpad (e.take 16), role := byteAt e 16, required := byteAt e 17 == 1, fieldMax := fieldAt e 20 4 } :
      RecField)) (List.range n)
  blank (d.drop (16 + 24 * n)) 3 (o + 16 + 24 * n)
  need ((fs.filter (fun f => f.role == 1)).length ≤ 1 && (fs.filter (fun f => f.role == 2)).length ≤ 1) (fmtErr 3 o)
  .ok ⟨byteAt d 4, byteAt d 6 == 1, fieldAt d 8 4, fs⟩

/-- Infinite or NaN (R292). -/
def f32Bad (v : Nat) : Bool := v / 2 ^ 23 % 256 == 255

/-- Below zero; −0 is not. -/
def f32Neg (v : Nat) : Bool := decide (2 ^ 31 < v)

/-- Order of two finite fp32 patterns: a ≤ b. -/
def f32Le (a b : Nat) : Bool :=
  let key := fun (v : Nat) => if v < 2 ^ 31 then (v : Int) else -((v - 2 ^ 31 : Nat) : Int)
  decide (key a ≤ key b)

/-- Two's complement of an `n`-bit value. -/
def sext (n v : Nat) : Int := if v < 2 ^ (n - 1) then (v : Int) else (v : Int) - (2 ^ n : Nat)

/-- One filter bank (R291, R292). -/
def parseBank (taps o : Nat) (d : List Byte) : Except PErr Bank := do
  zeros (sliceAt d 4 4) 3 (o + 4)
  let cs := (List.range (64 * taps)).map (fun i => sext 16 (fieldAt d (8 + 2 * i) 2))
  eachOf (List.range 64) (fun p =>
    let ph := (cs.drop (p * taps)).take taps
    need (ph.foldl (· + ·) 0 == 16384 && decide ((ph.map Int.natAbs).foldl (· + ·) 0 ≤ 32768))
      (fmtErr 3 (o + 8 + 2 * p * taps)))
  .ok ⟨fieldAt d 0 4, cs⟩

/-- MAX_RATIO of bank i. -/
def nthRatio (l : List Bank) (i : Nat) : Nat := ((l[i]?).map (·.maxRatio)).getD 0

/-- Trim settings (R291, R292). -/
def parseTrim (o : Nat) (d : List Byte) : Except PErr TrimSettings := do
  let b := byteAt d
  let w := fun i => fieldAt d i 4
  let table := b 5 == 2
  need (b 4 ≤ 3) (fmtErr 3 (o + 4))
  need (b 5 ≤ 2) (fmtErr 3 (o + 5))
  need (if table then b 6 == 2 || b 6 == 4 || b 6 == 6 || b 6 == 8 else b 6 == 0) (fmtErr 3 (o + 6))
  need (if table then decide (1 ≤ b 7 ∧ b 7 ≤ 8) else b 7 == 0) (fmtErr 3 (o + 7))
  need (d.length == 152 + b 7 * (8 + 128 * b 6)) (fmtErr 3 (o + 2))
  need (b 8 ≤ 2) (fmtErr 3 (o + 8))
  need (b 9 ≤ 3) (fmtErr 3 (o + 9))
  need (b 10 ≤ 1) (fmtErr 3 (o + 10))
  need (b 11 ≤ 3) (rsvErr 3 (o + 11))
  need (b 12 == 1 || b 12 == 3 || b 12 == 4) (fmtErr 3 (o + 12))
  need (b 13 ≤ 1) (fmtErr 3 (o + 13))
  need (b 14 ≤ 7) (rsvErr 3 (o + 14))
  need (b 15 ≤ 31) (rsvErr 3 (o + 15))
  let m := b 4
  need (if m == 2 then decide (1 ≤ w 16 ∧ w 16 ≤ 65536) else m != 3 || w 16 != 0)
    (fmtErr 3 (o + 16))
  need (if m == 2 then w 20 ≤ 1048576 else m != 3 || w 20 ≤ 65536) (fmtErr 3 (o + 20))
  need (if m == 1 then w 24 != 0 else if m == 3 then decide (1 ≤ w 24 ∧ w 24 ≤ 1048576) else w 24 == 0)
    (fmtErr 3 (o + 24))
  need (if m == 1 then w 28 != 0 else if m == 3 then decide (1 ≤ w 28 ∧ w 28 ≤ 1048576) else w 28 == 0)
    (fmtErr 3 (o + 28))
  eachOf (List.range 6) (fun i => need (w (32 + 4 * i) ≤ 65536) (fmtErr 3 (o + 32 + 4 * i)))
  eachOf (List.range 8) (fun i => need (!f32Bad (w (56 + 4 * i)) &&
    !((i == 0 || i == 2 || i == 4 || i == 6) && f32Neg (w (56 + 4 * i)))) (fmtErr 3 (o + 56 + 4 * i)))
  need (w 88 != 0) (fmtErr 3 (o + 88))
  need (w 92 ≤ 65536) (fmtErr 3 (o + 92))
  eachOf [96, 100] (fun i => need (decide (1 ≤ w i ∧ w i ≤ 1048576)) (fmtErr 3 (o + i)))
  eachOf (List.range 9) (fun i => need (!f32Bad (w (104 + 4 * i))) (fmtErr 3 (o + 104 + 4 * i)))
  zeros (sliceAt d 148 4) 3 (o + 148)
  let bs := 8 + 128 * b 6
  let banks ← mapOf (fun i => parseBank (b 6) (o + 152 + i * bs) (sliceAt d (152 + i * bs) bs)) (List.range (b 7))
  eachOf (List.range banks.length) (fun i => need (i == 0 || decide (nthRatio banks (i - 1) < nthRatio banks i)) (fmtErr 3 (o + 152 + i * bs)))
  let f := fun i => BitVec.ofNat 32 (w i)
  .ok { cropMode := b 4, filter := b 5, taps := b 6, padMode := b 8, matrix := b 9, range := b 10, siting := b 11,
        outCh := b 12, round := b 13, rotSet := b 14, flags := b 15, cropA := w 16, cropB := w 20, cropC := w 24,
        cropD := w 28, probs := (List.range 6).map (fun i => w (32 + 4 * i)),
        jitter := (List.range 6).map (fun i => f (56 + 4 * i)), sigma := f 80, eraseVal := f 84,
        erase := (List.range 4).map (fun i => w (88 + 4 * i)), mean := (List.range 4).map (fun i => f (104 + 4 * i)),
        invStd := (List.range 4).map (fun i => f (120 + 4 * i)), outScale := f 136,
        padValue := (List.range 4).map (fun i => fieldAt d (140 + 2 * i) 2), banks := banks }

/-! ### Tokeniser images (R343, R344) -/

/-- Flags of a class agree over its bytes (R344). -/
def classesOk (cl : List Byte) : Bool :=
  cl.all (fun a => a.toNat < 128 && cl.all (fun b => a.toNat % 16 != b.toNat % 16 || a == b))

/-- Merge entries in strictly ascending order of (LEFT, RIGHT). -/
def mergesOk : List MergeEntry → Bool
  | a :: b :: rest => (decide (a.left < b.left) || (a.left == b.left && decide (a.right < b.right))) && mergesOk (b :: rest)
  | _ => true

/-- No two strings with equal bytes and equal CONT. -/
def stringsOk : List StrEntry → Bool
  | [] => true
  | a :: rest => rest.all (fun b => !(a.bytes == b.bytes && a.cont == b.cont)) && stringsOk rest

/-- No two of the tables overlap. -/
def rangesOk : List (Nat × Nat) → Bool
  | [] => true
  | a :: rest => rest.all (fun b => !overlaps a.1 a.2 b.1 b.2) && rangesOk rest

/-- Check an image (R343, R344). `e` is the refusal that every failure gives. -/
def parseImage (addr size crc : Nat) (d : List Byte) (e : PErr) : Except PErr TokImage := do
  need (crc32c d == crc) e
  need (64 ≤ size && size ≤ 50331648 && fieldAt d 44 4 == size) e
  let kind := byteAt d 6
  let vocab := fieldAt d 8 4
  let nm := fieldAt d 12 4
  let ns := fieldAt d 16 4
  need (fieldAt d 0 4 == 0x314B5448 && fieldAt d 4 2 == 1 && kind ≤ 1 && byteAt d 7 == 0 &&
    decide (1 ≤ vocab ∧ vocab ≤ 262144)) e
  need (if kind == 0 then decide (1 ≤ nm ∧ nm ≤ 1048576) && ns == 0 else nm == 0 && decide (1 ≤ ns ∧ ns ≤ 262144)) e
  need (allZero (sliceAt d 48 16)) e
  let oC := fieldAt d 20 4
  let oB := fieldAt d 24 4
  let oM := fieldAt d 28 4
  let oS := fieldAt d 32 4
  let oP := fieldAt d 36 4
  let nP := fieldAt d 40 4
  let rs := [(0, 64), (oC, 256), (oB, 1024), (oM, 16 * nm), (oS, 16 * ns), (oP, nP)]
  need (rs.all (fun r => r.1 % 16 == 0 && r.1 + r.2 ≤ size)) e
  need (rangesOk rs) e
  let cl := sliceAt d oC 256
  need (classesOk cl) e
  let ids := (List.range 256).map (fun i => fieldAt d (oB + 4 * i) 4)
  need (ids.all (· < vocab)) e
  let ms := (List.range nm).map (fun i => (⟨fieldAt d (oM + 16 * i) 4, fieldAt d (oM + 16 * i + 4) 4,
    fieldAt d (oM + 16 * i + 8) 4, fieldAt d (oM + 16 * i + 12) 4⟩ : MergeEntry))
  need (ms.all (fun m => m.left < vocab && m.right < vocab && m.result < vocab) && mergesOk ms) e
  let ss ← mapOf (fun i => do
    let s := sliceAt d (oS + 16 * i) 16
    let ln := byteAt s 8
    let po := fieldAt s 4 4
    need (fieldAt s 0 4 < vocab && decide (1 ≤ ln ∧ ln ≤ 64) && byteAt s 9 ≤ 1 && allZero (s.drop 10) && po + ln ≤ nP) e
    .ok (⟨fieldAt s 0 4, sliceAt d (oP + po) ln, byteAt s 9 == 1⟩ : StrEntry)) (List.range ns)
  need (stringsOk ss) e
  .ok { addr := addr, size := size, crc := BitVec.ofNat 32 crc, kind := kind, vocab := vocab, classes := cl,
        byteIds := ids, merges := ms, strings := ss }

/-- Text settings (R346), with the image they name. -/
def parseText (c : PCtx) (live : Bool) (o : Nat) (d : List Byte) : Except PErr (TextSettings × TokImage) := do
  need (d.length == 48) (fmtErr 3 o)
  need (byteAt d 4 ≤ 1) (fmtErr 3 o)
  need (if byteAt d 4 == 1 then byteAt d 5 ≤ 1 else byteAt d 5 == 0) (fmtErr 3 o)
  need (byteAt d 6 ≤ 3) (rsvErr 3 (o + 6))
  need (if live then byteAt d 7 ≤ 3 else byteAt d 7 == 0) (fmtErr 3 o)
  need (decide (16 ≤ fieldAt d 8 2 ∧ fieldAt d 8 2 ≤ 4096)) (fmtErr 3 o)
  zeros (sliceAt d 10 2) 3 (o + 10)
  zeros (sliceAt d 40 8) 3 (o + 40)
  let addr := fieldAt d 24 8
  let size := fieldAt d 32 4
  let crc := fieldAt d 36 4
  need (addr % 64 == 0 && addr < 2 ^ 52) (fmtErr 3 o)
  need (64 ≤ size && size ≤ 50331648) (fmtErr 3 o)
  let img ← got c.fetch addr size 3 o
  let t ← parseImage addr size crc img (fmtErr 3 o)
  eachOf [12, 16, 20] (fun i => need (fieldAt d i 4 < t.vocab) (fmtErr 3 o))
  .ok (⟨byteAt d 4, byteAt d 5, bit (byteAt d 6) 0, bit (byteAt d 6) 1, byteAt d 7, fieldAt d 8 2, fieldAt d 12 4,
    fieldAt d 16 4, fieldAt d 20 4, addr, size, BitVec.ofNat 32 crc⟩, t)

/-- Patch settings (R351). -/
def parsePatch (o : Nat) (d : List Byte) : Except PErr PatchSettings := do
  need (d.length == 8) (fmtErr 3 o)
  need (decide (1 ≤ byteAt d 4 ∧ byteAt d 4 ≤ 64)) (fmtErr 3 o)
  need (decide (1 ≤ byteAt d 5 ∧ byteAt d 5 ≤ 64)) (fmtErr 3 o)
  zeros (sliceAt d 6 2) 3 (o + 6)
  .ok ⟨byteAt d 4, byteAt d 5⟩

/-- Galley settings (R353). -/
def parseGalley (o : Nat) (d : List Byte) : Except PErr GalleySettings := do
  let b := byteAt d
  let h := fun i => fieldAt d i 2
  let w := fun i => fieldAt d i 4
  let al := h 16
  need (d.length == 64) (fmtErr 3 o)
  need (b 4 ≤ 1) (fmtErr 3 o)
  need (b 5 ≤ 1) (fmtErr 3 o)
  need (if b 4 == 1 then b 6 ≤ 63 else b 6 == 0) (fmtErr 3 o)
  need (b 7 ≤ 3) (rsvErr 3 (o + 7))
  need (decide (1 ≤ h 8 ∧ h 8 ≤ 1024)) (fmtErr 3 o)
  need (h 10 ≤ 64) (fmtErr 3 o)
  need (w 12 ≤ 65536) (fmtErr 3 o)
  need (if b 5 == 1 then al == 1 || al == 2 || al == 4 || al == 8 || al == 16 || al == 32 || al == 64 else al == 1)
    (fmtErr 3 o)
  need (if b 5 == 1 then decide (1 ≤ h 18 ∧ h 18 ≤ 256) else h 18 == 1) (fmtErr 3 o)
  need (decide (1 ≤ w 28 ∧ w 28 ≤ 262144)) (fmtErr 3 o)
  need (w 32 ≤ 65536) (fmtErr 3 o)
  need (h 36 ≤ 4096) (fmtErr 3 o)
  zeros (sliceAt d 38 2) 3 (o + 38)
  need (w 40 % 64 == 0) (fmtErr 3 o)
  need (decide (1 ≤ w 44 ∧ w 44 ≤ 1000000)) (fmtErr 3 o)
  zeros (sliceAt d 50 14) 3 (o + 50)
  .ok ⟨b 4, b 5, b 6, bit (b 7) 0, bit (b 7) 1, h 8, h 10, w 12, al, h 18, w 20, w 24, w 28, w 32, h 36, w 40, w 44,
    h 48⟩

/-- Delta settings (R379, R380). -/
def parseDelta (deadline : Bool) (hasGalley : Bool) (o : Nat) (d : List Byte) : Except PErr DeltaSettings := do
  let b := byteAt d
  let w := fun i => fieldAt d i 4
  let q := fun i => fieldAt d i 8
  let dl := b 4 == 1
  need (d.length == 64) (fmtErr 3 o)
  need (b 4 ≤ 1) (fmtErr 3 o)
  highZero (b 5) 1 1 3 (o + 5)
  need (dl || b 5 == 0) (fmtErr 3 o)
  zeros (sliceAt d 6 2) 3 (o + 6)
  need (w 8 % 64 == 0 && (!dl || w 8 == 0)) (fmtErr 3 o)
  need (!deadline || w 12 == 0) (fmtErr 3 o)
  need (dl || w 16 == 0) (fmtErr 3 o)
  need (if dl then decide (1 ≤ fieldAt d 20 2 ∧ fieldAt d 20 2 ≤ 1024) else fieldAt d 20 2 == 0) (fmtErr 3 o)
  zeros (sliceAt d 22 2) 3 (o + 22)
  highZero (q 24) 36 8 3 (o + 24)
  need (q 24 % 64 == 0 && (dl || q 24 == 0)) (fmtErr 3 o)
  need (q 32 % 64 == 0 && (dl || q 32 == 0)) (fmtErr 3 o)
  highZero (q 40) 36 8 3 (o + 40)
  need (q 40 % 64 == 0 && ((dl && !hasGalley) || q 40 == 0)) (fmtErr 3 o)
  need (w 48 % 64 == 0 && (q 40 != 0 || w 48 == 0)) (fmtErr 3 o)
  zeros (sliceAt d 52 12) 3 (o + 52)
  .ok ⟨b 4, bit (b 5) 0, w 8, w 12, w 16, fieldAt d 20 2, q 24, q 32, q 40, w 48⟩

/-! ### Section 0x03 -/

/-- Number of one bits. -/
def popCount (n v : Nat) : Nat := ((List.range n).filter (fun i => bit v i)).length

/-- Consecutive pairs of a path. -/
def pathPairs : List Nat → List (Nat × Nat)
  | a :: b :: rest => (a, b) :: pathPairs (b :: rest)
  | _ => []

/-- The lane role of a lane station (R49). -/
def laneRole (st : Nat) : Nat := if st = 5 then 1 else if st = 6 then 2 else if st = 7 then 3 else 0

/-- Lane groups of a mask that are imposed on a role. -/
def groupsOf (lanes : List LaneEntry) (mask role : Nat) : List Nat :=
  (List.range 32).filter (fun g => bit mask g && lanes.any (fun l => l.role == role && l.group == g))

/-- No station appears twice. -/
def noDup : List Nat → Bool
  | [] => true
  | a :: rest => !rest.contains a && noDup rest

/-- The path rules of R37. -/
def pathOk (segs : List Segment) (lanes : List LaneEntry) (mask : Nat) (p : List Nat) : Bool :=
  p.all stationOk && p.headD 0 == 1 && (p.getLastD 0 == 9 || p.getLastD 0 == 0x0A) && noDup p &&
  (pathPairs p).all (fun ab => segs.any (fun s => s.src == ab.1 && s.dst == ab.2) &&
    !(ab == (3, 5)) && !(ab == (5, 3))) &&
  (!(p.contains 3 && p.contains 5) ||
    (pathPairs p).contains (3, 4) && (pathPairs p).contains (4, 5) ||
    (pathPairs p).contains (5, 4) && (pathPairs p).contains (4, 3)) &&
  [5, 6, 7].all (fun st => !p.contains st || !(groupsOf lanes mask (laneRole st)).isEmpty)

/-- The entry points that a path can serve (R182). -/
def entryOk (p : List Nat) (mask : Nat) : Bool :=
  (!bit mask 0 || p.contains 2) &&
  (!bit mask 1 || (p.contains 2 && p.contains 3) || p.contains 7) &&
  (!bit mask 2 || p.contains 6 || p.contains 7 || p.contains 8 || p.contains 9) &&
  (!bit mask 3 || p.contains 8 || p.contains 9)

/-- A removal entry of an amendment: flow and tenancy (R66). -/
structure Removal where
  flow : Nat
  ten  : Nat
  off  : Nat
  deriving DecidableEq, Repr

/-- What parsing the flow table gathers: flows, removals, images, parameter blocks placed so far. -/
structure FlowAcc where
  flows  : List FlowEntry
  rems   : List Removal
  images : List TokImage
  blocks : List (Nat × Nat)
  deriving DecidableEq, Repr

/-- The removals of an amendment's flow table, wherever they stand in it: they come before its additions (R67). -/
def removals (c : PCtx) (ents : List (Nat × List Byte)) : List Removal :=
  if c.amend then (ents.filter (fun x => bit (byteAt x.2 2) 7)).map (fun x =>
    (⟨fieldAt x.2 0 2 % 4096, fieldAt x.2 0 2 / 4096, x.1⟩ : Removal))
  else []

/-- The flows of the live forme that an amendment leaves. -/
def remaining (c : PCtx) (rems : List Removal) : List FlowEntry :=
  if c.amend then c.live.flows.filter (fun f => rems.all (fun r => r.flow != f.flow)) else []

/-- The fixed fields of a flow entry (R13, R14, R27, R36, R37, R50, R51, R182). -/
def parseFlowFixed (segs : List Segment) (lanes : List LaneEntry) (o : Nat) (d : List Byte) :
    Except PErr FlowEntry := do
  let e := fun k => fmtErr 3 (o + k)
  let cls := byteAt d 2
  let dl := bit cls 0
  let plen := byteAt d 4
  need (bits cls 6 3 == 0) (rsvErr 3 (o + 2))
  need (!(bit cls 1 && bit cls 2)) (e 2)
  need (decide (1 ≤ byteAt d 3 ∧ byteAt d 3 ≤ 64)) (e 3)
  need (decide (1 ≤ plen ∧ plen ≤ 10)) (e 4)
  need (byteAt d 5 < 16) (rsvErr 3 (o + 5))
  need (byteAt d 6 ≤ 3) (e 6)
  need (byteAt d 7 == 0) (rsvErr 3 (o + 7))
  need (allZero (sliceAt d (8 + plen) (10 - plen))) (e 8)
  let path := (List.range plen).map (fun i => byteAt d (8 + i))
  need (pathOk segs lanes (fieldAt d 20 4) path) (e 8)
  need (fmtWidth (byteAt d 18)).isSome (e 18)
  need (byteAt d 19 < 16) (rsvErr 3 (o + 19))
  need (layoutOk (byteAt d 19)) (e 19)
  need (!bit cls 2 || popCount 32 (fieldAt d 20 4) ≤ 1) (e 20)
  let per := fieldAt d 24 4
  let dln := fieldAt d 28 4
  need (if dl then per != 0 else per == 0) (e 24)
  need (if dl then decide (1 ≤ dln ∧ dln ≤ per) else dln == 0) (e 28)
  need (fieldAt d 32 2 != 0) (e 32)
  need (decide (1 ≤ fieldAt d 34 2 ∧ fieldAt d 34 2 ≤ 16384)) (e 34)
  need (decide (1 ≤ fieldAt d 36 2 ∧ fieldAt d 36 2 ≤ 16384)) (e 36)
  zeros (sliceAt d 38 2) 3 (o + 38)
  need (fieldAt d 52 4 != 0) (e 52)
  zeros (sliceAt d 56 8) 3 (o + 56)
  need (entryOk path (byteAt d 5)) (e 0)
  .ok { flow := fieldAt d 0 2 % 4096, ten := fieldAt d 0 2 / 4096, deadline := dl, protected_ := bit cls 1,
        stateful := bit cls 2, remove := bit cls 7, partitions := byteAt d 3, path := path, entryMask := byteAt d 5,
        policy := byteAt d 6, outFormat := byteAt d 18, outLayout := byteAt d 19, groupMask := fieldAt d 20 4,
        periodNs := per, deadlineNs := dln, outC := fieldAt d 32 2, outH := fieldAt d 34 2, outW := fieldAt d 36 2,
        maxW := fieldAt d 40 2, maxH := fieldAt d 42 2, depth := fieldAt d 52 4, paramLen := fieldAt d 48 4,
        entryOff := o, cls := ⟨0, 0, 0, 0, 0, 0, 0⟩, live := none, record := none, trim := none, text := none,
        patch := none, galley := none, delta := none, subOffs := [] }

/-- Read an optional sub-block with its parser. -/
def optSub {α : Type} (x : Option (Nat × List Byte)) (p : Nat → List Byte → Except PErr α) : Except PErr (Option α) :=
  match x with
  | none => .ok none
  | some (o, d) => match p o d with
    | .ok v => .ok (some v)
    | .error e => .error e

/-- A sub-block that a flow has exactly when it must (R197, R292, R353, R380). -/
def exactlyWhen (must : Bool) (x : Option (Nat × List Byte)) (o : Nat) : Except PErr Unit :=
  match x with
  | some (so, _) => need must (fmtErr 3 so)
  | none => need (!must) (fmtErr 3 o)

/-- Does the flow declare a record field of a role? -/
def FlowEntry.recRole (f : FlowEntry) (role : Nat) : Bool :=
  match f.record with
  | some r => r.fields.any (fun x => x.role == role)
  | none => false

/-- The parameter block of a flow (R87, and each chapter's sub-block rules). -/
def parseParams (c : PCtx) (others : List FlowEntry) (f : FlowEntry) (po : Nat) (d : List Byte) :
    Except PErr (FlowEntry × Option TokImage) := do
  let o := f.entryOff
  let subs ← subBlocks d.length po d
  let cls ← atMostOne 1 subs
  let live ← atMostOne 2 subs
  let record ← atMostOne 3 subs
  let trim ← atMostOne 4 subs
  let text ← atMostOne 5 subs
  let patch ← atMostOne 6 subs
  let galley ← atMostOne 7 subs
  let delta ← atMostOne 8 subs
  need cls.isSome (fmtErr 3 po)
  let clsD ← match cls with
    | some (co, cd) => parseClass f text.isSome co cd
    | none => .error (fmtErr 3 po)
  let liveB ← optSub live parseLive
  need (match liveB with
    | some b => others.all (fun g => match g.live with | some x => x.port != b.port | none => true)
    | none => true) (fmtErr 3 ((live.map Prod.fst).getD o))
  need (if liveB.isSome then f.entryMask == 0 else f.entryMask != 0) (fmtErr 3 o)
  need (liveB.isSome || !f.deadline || popCount 4 f.entryMask == 1) (fmtErr 3 o)
  exactlyWhen (bit f.entryMask 0 || bit f.entryMask 1) record po
  let rec_ ← optSub record parseRecord
  exactlyWhen (f.has 6) trim po
  let trimS ← optSub trim parseTrim
  need (text.isNone || f.has 7) (fmtErr 3 ((text.map Prod.fst).getD o))
  let textS ← optSub text (parseText c liveB.isSome)
  let patchS ← optSub patch parsePatch
  exactlyWhen (f.has 8) galley po
  let galS ← optSub galley parseGalley
  exactlyWhen (f.has 9) delta po
  let dltS ← optSub delta (parseDelta f.deadline (f.has 8))
  let g := { f with cls := clsD, live := liveB, record := rec_, trim := trimS, text := textS.map Prod.fst,
                    patch := patchS, galley := galS, delta := dltS, subOffs := subs.map (fun s => (s.1, s.2.1)) }
  need (!g.recRole 2 || (g.has 7 && g.text.isSome)) (fmtErr 3 ((record.map Prod.fst).getD o))
  need (!g.recRole 3 || g.has 8) (fmtErr 3 ((record.map Prod.fst).getD o))
  .ok (g, textS.map Prod.snd)

/-- Same image: equal address and CRC (R344). -/
def TokImage.same (a b : TokImage) : Bool := a.addr == b.addr && a.crc == b.crc

/-- Add an image unless it is already there. -/
def addImage (l : List TokImage) (t : TokImage) : List TokImage := if l.any (TokImage.same t) then l else l ++ [t]

/-- Images that a list of flows names, out of the images known. -/
def imagesUsed (known : List TokImage) (fs : List FlowEntry) : List TokImage :=
  known.filter (fun t => fs.any (fun f => match f.text with
    | some x => x.imageAddr == t.addr && x.imageCrc == t.crc
    | none => false))

/-- One entry of the flow table; `rems`: what the amendment removes. -/
def parseFlow (c : PCtx) (rems : List Removal) (segs : List Segment) (lanes : List LaneEntry) (area : Nat) (sec : List Byte) (secOff : Nat)
    (acc : FlowAcc) (o : Nat) (d : List Byte) : Except PErr FlowAcc := do
  if c.amend && bit (byteAt d 2) 7 then
    need (byteAt d 2 == 0x80) (fmtErr 3 (o + 2))
    blank (d.drop 3) 3 (o + 3)
    let r : Removal := ⟨fieldAt d 0 2 % 4096, fieldAt d 0 2 / 4096, o⟩
    need (c.live.flows.any (fun f => f.flow == r.flow && f.ten == r.ten)) (fmtErr 3 o)
    need (acc.rems.all (fun x => x.flow != r.flow)) (fmtErr 3 o)
    .ok { acc with rems := acc.rems ++ [r] }
  else
    need (!bit (byteAt d 2) 7) (fmtErr 3 (o + 2))
    let f ← parseFlowFixed segs lanes o d
    need (!f.protected_ || c.areas) (fmtErr 3 o)
    need (acc.flows.all (fun g => g.flow != f.flow)) (fmtErr 3 o)
    let po := fieldAt d 44 4
    need (f.paramLen == 0 || (area ≤ po && po + f.paramLen ≤ sec.length)) (fmtErr 3 o)
    need (acc.blocks.all (fun b => !overlaps b.1 b.2 po f.paramLen)) (fmtErr 3 o)
    let (g, img) ← parseParams c (remaining c rems ++ acc.flows) f (secOff + po) (sliceAt sec po f.paramLen)
    let imgs := match img with | some t => addImage acc.images t | none => acc.images
    need ((imagesUsed c.live.images (remaining c rems)).foldl addImage imgs |>.length |> (· ≤ 8))
      (fmtErr 3 (((g.subOffs.find? (fun s => s.1 == 5)).map Prod.snd).getD o))
    .ok { acc with flows := acc.flows ++ [g], images := imgs, blocks := acc.blocks ++ [(po, f.paramLen)] }

/-- A byte of the parameter area that no block covers is zero (R50); the first that is not is named. -/
def uncovered (blocks : List (Nat × Nat)) (base : Nat) : Nat → List Byte → Except PErr Unit
  | _, [] => .ok ()
  | p, b :: rest =>
    if b = 0 ∨ blocks.any (fun x => x.1 ≤ p && p < x.1 + x.2) then uncovered blocks base (p + 1) rest
    else .error (rsvErr 3 (base + p))

/-- The flow table (R50, R66). -/
def parseFlows (c : PCtx) (segs : List Segment) (lanes : List LaneEntry) (sec : List Byte) (n secOff : Nat) :
    Except PErr FlowAcc := do
  let area := 16 + 64 * n
  let ents := entriesOf sec n 64 secOff
  let acc ← ents.foldl (fun r x => match r with
    | .error e => .error e
    | .ok a => naming (fieldAt x.2 0 2 % 4096) (fieldAt x.2 0 2 / 4096)
        (parseFlow c (removals c ents) segs lanes area sec secOff a x.1 x.2)) (.ok ⟨[], [], [], []⟩)
  uncovered acc.blocks secOff area (sec.drop area)
  eachOf acc.flows (fun f => naming f.flow f.ten
    (need ((remaining c acc.rems).all (fun g => g.flow != f.flow)) (fmtErr 3 f.entryOff)))
  need ((remaining c acc.rems).length + acc.flows.length ≤ 4096) (fmtErr 3 secOff)
  .ok acc

/-! ### Section 0x04 -/

/-- A tenancy entry (R113); the fields of a disabled entry are ignored. -/
def parseTen (d : List Byte) : TenEntry :=
  ⟨bit (byteAt d 0) 0, bit (byteAt d 0) 1, fieldAt d 2 2, fieldAt d 4 4, fieldAt d 8 4, fieldAt d 12 2, fieldAt d 16 4,
    fieldAt d 20 2, fieldAt d 22 2, fieldAt d 24 2, fieldAt d 26 2, fieldAt d 28 2, fieldAt d 30 2, fieldAt d 32 4,
    fieldAt d 36 2⟩

/-- The tenancy table (R113, R114). -/
def parseTens (movers : List (Option Nat)) (ents : List (Nat × List Byte)) : Except PErr (List TenEntry) := do
  let acc ← ents.foldl (fun r x => match r with
    | .error e => .error e
    | .ok (ts : List TenEntry) => do
      let (o, d) := x
      let t := parseTen d
      need (byteAt d 1 == ts.length) (fmtErr 4 (o + 1))
      if t.enabled then
        need (byteAt d 0 < 4) (rsvErr 4 o)
        highZero t.hostFn 13 2 4 (o + 2)
        highZero t.sqFirst 20 4 4 (o + 4)
        need (t.sqFirst + t.sqCount ≤ 2 ^ 20) (fmtErr 4 o)
        zeros (sliceAt d 14 2) 4 (o + 14)
        need (t.cqFirst + t.cqCount ≤ 2 ^ 16) (fmtErr 4 o)
        need (decide (1 ≤ t.msiVectors ∧ t.msiVectors ≤ 2048)) (fmtErr 4 o)
        zeros (sliceAt d 38 90) 4 (o + 38)
        need (ts.all (fun u => !u.enabled || !overlaps u.sqFirst u.sqCount t.sqFirst t.sqCount)) (fmtErr 4 o)
        need (ts.all (fun u => !u.enabled || !overlaps u.cqFirst u.cqCount t.cqFirst t.cqCount)) (fmtErr 4 o)
        need (ts.all (fun u => !u.enabled || u.hostFn != t.hostFn)) (fmtErr 4 o)
        need (((ts.filter (·.enabled)).map (·.maxTasks)).foldl (· + ·) t.maxTasks ≤ 4096) (fmtErr 4 o)
        .ok (ts ++ [t])
      else .ok (ts ++ [{ t with enabled := false }])) (.ok [])
  eachOf movers (fun m => match m with
    | some t => need (acc.getD t TenEntry.blank).enabled (fmtErr 4 ((ents.getD t (0, [])).1))
    | none => .ok ())
  .ok acc

/-! ### Section 0x05 -/

/-- Pool index of a definition (R154). -/
def PoolDef.index (p : PoolDef) : Nat := 16 * p.place + p.cls

/-- Bytes of a block of class k (R153). -/
def blockBytes (k : Nat) : Nat := 4096 * 2 ^ (k % 16)

/-- The pool section (R155 to R159). `flows` are the flows whose claims it may hold. -/
def parsePools (c : PCtx) (flows : List FlowEntry) (ents : List (Nat × List Byte)) :
    Except PErr (List PoolDef × List PoolClaim) :=
  ents.foldl (fun r x => match r with
    | .error e => .error e
    | .ok (acc : List PoolDef × List PoolClaim) => do
      let (o, d) := x
      let e := fmtErr 5 o
      need (byteAt d 0 ≤ 1) e
      if byteAt d 0 == 0 then
        need (!c.amend) e
        need acc.2.isEmpty e
        let p : PoolDef := ⟨byteAt d 1, byteAt d 2, byteAt d 3, fieldAt d 4 4, fieldAt d 8 8, fieldAt d 16 2,
          fieldAt d 18 2, fieldAt d 20 2, o⟩
        need (p.cls ≤ 15 && p.place ≤ 1 && (p.place == 1 || p.cls ≤ 8)) e
        need (acc.1.all (fun q => q.index < p.index)) e
        need (decide (1 ≤ p.blocks ∧ p.blocks ≤ 16777215)) e
        need ([p.warn, p.throttle, p.stop].all (fun t => decide (1 ≤ t ∧ t ≤ 256)) && decide (p.hyst < p.warn)) e
        need (if p.place == 0 then p.base == 0 else p.base % 4096 == 0 &&
          decide (p.base + p.blocks * blockBytes p.cls ≤ 2 ^ 52) &&
          acc.1.all (fun q => q.place == 0 || !overlaps q.base (q.blocks * blockBytes q.cls) p.base
            (p.blocks * blockBytes p.cls))) e
        zeros (sliceAt d 22 10) 5 (o + 22)
        .ok (acc.1 ++ [p], acc.2)
      else
        let k : PoolClaim := ⟨byteAt d 1, fieldAt d 2 2 % 4096, fieldAt d 2 2 / 4096, fieldAt d 4 4, o⟩
        naming k.flow k.ten do
         need (acc.2.all (fun q => decide (q.flow < k.flow) || (q.flow == k.flow && decide (q.pool < k.pool)))) e
         need ((if c.amend then c.live.defs else acc.1).any (fun p => p.index == k.pool)) e
         need (flows.any (fun f => f.flow == k.flow && f.ten == k.ten && (f.deadline || k.reserve == 0))) e
         zeros (sliceAt d 8 24) 5 (o + 8)
         .ok (acc.1, acc.2 ++ [k])) (.ok ([], []))

/-! ### Section 0x06 -/

/-- A decode entry (R219, R220). -/
def parseDec (o : Nat) (d : List Byte) : Except PErr DecEntry := do
  let b := byteAt d
  let e := fmtErr 6 o
  need (decide (1 ≤ b 3 ∧ b 3 ≤ 5)) e
  need (b 7 < 16) (rsvErr 6 (o + 7))
  need (b 8 ≤ 1) e
  need (b 9 ≤ 2) e
  need (b 10 < 16) (rsvErr 6 (o + 10))
  need (b 11 < 16) (rsvErr 6 (o + 11))
  need (if b 3 == 1 then b 12 == 8 else if b 3 ≤ 3 then decide (1 ≤ b 12 ∧ b 12 ≤ 16) else b 12 == 0) e
  need (b 13 ≤ 8) e
  need (decide (1 ≤ b 14 ∧ b 14 ≤ 64)) e
  need (b 15 != 0 && (b 3 ≤ 3 || b 15 == 1)) e
  need (fieldAt d 16 2 != 0) e
  zeros (sliceAt d 18 2) 6 (o + 18)
  need (fieldAt d 20 4 != 0) e
  zeros (sliceAt d 24 232) 6 (o + 24)
  .ok ⟨b 3, b 4, b 5, b 6, b 7, b 8, b 9, b 10, b 11, b 12, b 13, b 14, b 15, fieldAt d 16 2, fieldAt d 20 4⟩

/-- An encode entry (R257, R258). -/
def parseEnc (period o : Nat) (d : List Byte) : Except PErr EncEntry := do
  let b := byteAt d
  let h := fun i => fieldAt d i 2
  let w := fun i => fieldAt d i 4
  let e := fmtErr 6 o
  need (b 3 == 1 || b 3 == 2) e
  need (b 6 == 8 || b 6 == 10) e
  need (b 7 ≤ 3) e
  need (h 8 % 2 == 0 && h 8 != 0) e
  need (h 10 % 2 == 0 && h 10 != 0) e
  need (decide (1 ≤ b 12 ∧ b 12 ≤ 16)) e
  need (decide (1 ≤ b 13 ∧ b 13 ≤ 16)) e
  need (b 14 == 64 || b 14 == 32) e
  need (b 15 < 16) (rsvErr 6 (o + 15))
  need (b 16 == 1 || b 16 == 2) e
  need (2 ≤ b 17) e
  need (b 18 == 4 || b 18 == 8 || b 18 == 16 || b 18 == 32) e
  need (b 19 != 0) e
  need (b 19 ≤ b 20) e
  need (b 21 ≤ 1) e
  need (b 22 ≤ 51) e
  need (decide (b 22 ≤ b 23 ∧ b 23 ≤ 51)) e
  need (decide (16 ≤ b 27 ∧ b 27 ≤ 64)) e
  need (b 40 != 0) e
  zeros (sliceAt d 41 3) 6 (o + 41)
  need (w 60 < period || period == 0 && w 60 == 0) e
  need (fieldAt d 64 8 % 4096 == 0 && fieldAt d 64 8 < 2 ^ 52) e
  need (w 72 % 4096 == 0 && decide (65536 ≤ w 72 ∧ w 72 ≤ 2 ^ 30)) e
  zeros (sliceAt d 76 4) 6 (o + 76)
  zeros (sliceAt d 80 176) 6 (o + 80)
  .ok { codec := b 3, profile := b 4, level := b 5, depth := b 6, rcMode := b 7, picW := h 8, picH := h 10,
        tileCols := b 12, tileRows := b 13, grid := b 14, flags := b 15, refFrames := b 16, goldenInt := b 17,
        searchRange := b 18, hintMin := b 19, hintTrust := b 20, trail := b 21, qpMin := b 22, qpMax := b 23,
        qInit := b 24, qKey := b 25, qInter := b 26, keyBoost := b 27, keyInterval := w 28, rateKbps := w 32,
        bufKbits := w 36, initFull := b 40, latBytes := w 44, keyLatBytes := w 48, aInit := w 52, stripeBins := w 56,
        startOff := w 60, pktBase := fieldAt d 64 8, pktSize := w 72 }

/-- The codec settings section (R219, R220, R257). -/
def parseCodecs (flows : List FlowEntry) (ents : List (Nat × List Byte)) : Except PErr (List CodecEntry) :=
  ents.foldl (fun r x => match r with
    | .error e => .error e
    | .ok (acc : List CodecEntry) => do
      let (o, d) := x
      let fl := fieldAt d 0 2 % 4096
      let tn := fieldAt d 0 2 / 4096
      naming fl tn do
       need (byteAt d 2 ≤ 1) (fmtErr 6 o)
       need (acc.all (fun k => k.flow != fl)) (fmtErr 6 o)
       match flows.find? (fun f => f.flow == fl && f.ten == tn) with
       | none => .error (fmtErr 6 o)
       | some f =>
         let body ← if byteAt d 2 == 0 then (parseDec o d).map CodecBody.dec
           else (parseEnc f.periodNs o d).map CodecBody.enc
         .ok (acc ++ [⟨fl, tn, body, o⟩])) (.ok [])

/-! ### Section 0x07 -/

/-- Magnitude above 2^64, infinite or NaN (R321). -/
def f32TooBig (v : Nat) : Bool := f32Bad v || decide (0x5F800000 < v % 2 ^ 31)

/-- Same table: equal address and CRC (R320). -/
def RflTable.same (a b : RflTable) : Bool := a.addr == b.addr && a.crc == b.crc

/-- Add a table unless it is already there. -/
def addTable (l : List RflTable) (t : RflTable) : List RflTable := if l.any (RflTable.same t) then l else l ++ [t]

/-- Tables that the Riffle entries of a list of flows name, out of the tables known. -/
def tablesUsed (known : List RflTable) (rs : List RiffleEntry) : List RflTable :=
  known.filter (fun t => rs.any (fun r => r.normal == 1 && r.tableAddr == t.addr && r.tableCrc == t.crc))

/-- The 4,096 values of a table. -/
def tableValues (d : List Byte) : List (BitVec 32) :=
  (List.range 4096).map (fun i => BitVec.ofNat 32 (fieldAt d (4 * i) 4))

/-- The Riffle section (R320, R321). -/
def parseRiffles (c : PCtx) (flows : List FlowEntry) (rems : List Removal) (ents : List (Nat × List Byte)) :
    Except PErr (List RiffleEntry × List RflTable) :=
  ents.foldl (fun r x => match r with
    | .error e => .error e
    | .ok (acc : List RiffleEntry × List RflTable) => do
      let (o, d) := x
      let e := fmtErr 7 o
      let k : RiffleEntry := ⟨fieldAt d 0 2 % 4096, fieldAt d 0 2 / 4096, byteAt d 2, byteAt d 3, fieldAt d 4 2,
        BitVec.ofNat 64 (fieldAt d 8 8), fieldAt d 16 8, BitVec.ofNat 32 (fieldAt d 24 4), o⟩
      naming k.flow k.ten do
       need (acc.1.all (fun q => q.flow < k.flow)) e
       need (flows.any (fun f => f.flow == k.flow && f.ten == k.ten)) e
       need (k.mode ≤ 1 && k.normal ≤ 1) e
       zeros (sliceAt d 6 2) 7 (o + 6)
       zeros (sliceAt d 28 4) 7 (o + 28)
       if k.normal == 1 && k.tableAddr != 0 then
         need (k.tableAddr % 64 == 0 && k.tableAddr + 16384 ≤ 2 ^ 52) e
         let tb ← got c.fetch k.tableAddr 16384 7 o
         need (crc32c tb == k.tableCrc.toNat) e
         let t : RflTable := ⟨k.tableAddr, k.tableCrc, tableValues tb⟩
         need (t.values.all (fun v => !f32TooBig v.toNat)) e
         let ts := addTable acc.2 t
         let kept := tablesUsed c.live.tables (c.live.riffles.filter (fun q => c.amend && rems.all (fun m => m.flow != q.flow)))
         need ((kept.foldl addTable ts).length ≤ 16) e
         .ok (acc.1 ++ [k], ts)
       else .ok (acc.1 ++ [k], acc.2)) (.ok ([], []))

/-! ### Section 0x08 -/

/-- The microcode section (R52). Two images that overlap, and a byte of the trailing area that no image covers and that is
not zero, are FORMAT: R44 and R52 list neither. DESIGN CHOICE, log entry 78. -/
def parseMicro (segs : List Segment) (secOff : Nat) (sec : List Byte) (ents : List (Nat × List Byte)) :
    Except PErr (List MicroEntry) := do
  let r ← ents.foldl (fun r x => match r with
    | .error e => .error e
    | .ok (acc : List (MicroEntry × Nat)) => do
      let (o, d) := x
      let st := byteAt d 0
      let io := fieldAt d 4 4
      let ln := fieldAt d 8 4
      need (stationOk st) (fmtErr 8 o)
      let e : Nat → PErr := fun k => { fmtErr 8 (o + k) with station := some st }
      need (byteAt d 1 == 0) { e 1 with rsv := true }
      need (segs.any (fun s => s.src == st || s.dst == st)) (e 0)
      need (acc.all (fun m => m.1.station != st)) (e 0)
      need (io % 64 == 0 && 16 + 16 * ents.length ≤ io && io + ln ≤ sec.length) (e 0)
      need (ln ≤ 131072) (e 0)
      need (acc.all (fun m => !overlaps m.2 m.1.length io ln)) (e 0)
      need (crc32c (sliceAt sec io ln) == fieldAt d 12 4) (e 0)
      .ok (acc ++ [(⟨st, fieldAt d 2 2, ln⟩, io)])) (.ok [])
  let area := 16 + 16 * ents.length
  match uncovered (r.map (fun m => (m.2, m.1.length))) secOff area (sec.drop area) with
  | .ok () => .ok (r.map Prod.fst)
  | .error e => .error { e with sec := 8, rsv := false }

end Sys2Proof.Machine
end

