-- ==== Sys2Proof/Machine/FormeReserved.lean ====
section
/-! DEFINITION. Where a forme's reserved bytes are, and the first of them that is not zero: FRM_REFUSAL names that byte
(R44). A place is (offset, mask of its reserved bits). -/

namespace Sys2Proof.Machine

/-- `n` reserved bytes from an offset. -/
def wholeBytes (o n : Nat) : List (Nat × Nat) := (List.range n).map (fun i => (o + i, 255))

/-- Places moved by an offset. -/
def shiftBy (o : Nat) (l : List (Nat × Nat)) : List (Nat × Nat) := l.map (fun x => (o + x.1, x.2))

/-- Reserved places of a parameter sub-block of type t (R87, R88, R184, R197, R291, R346, R351, R353, R379). -/
def subReserved (t : Nat) (d : List Byte) : List (Nat × Nat) :=
  (1, 255) ::
  (if t = 1 then wholeBytes 21 3 ++ wholeBytes 28 4 ++ wholeBytes 40 8
   else if t = 2 then [(5, 254), (7, 252)] ++ wholeBytes 14 18
   else if t = 3 then [(6, 254), (7, 255)] ++ wholeBytes 12 4 ++
     (List.range (min 8 (byteAt d 5))).flatMap (fun i => (33 + 24 * i, 254) :: wholeBytes (34 + 24 * i) 2)
   else if t = 4 then [(11, 252), (14, 248), (15, 224)] ++ wholeBytes 148 4 ++
     (List.range (byteAt d 7)).flatMap (fun i => wholeBytes (156 + i * (8 + 128 * byteAt d 6)) 4)
   else if t = 5 then (6, 252) :: wholeBytes 10 2 ++ wholeBytes 40 8
   else if t = 6 then wholeBytes 6 2
   else if t = 7 then (7, 252) :: wholeBytes 38 2 ++ wholeBytes 50 14
   else if t = 8 then (5, 254) :: wholeBytes 6 2 ++ wholeBytes 22 2 ++ (28, 240) :: wholeBytes 29 3 ++
     (44, 240) :: wholeBytes 45 3 ++ wholeBytes 52 12
   else [])

/-- Reserved places of the sub-blocks of a parameter block at an offset; a broken block ends the walk. -/
def blockReserved : Nat → Nat → List Byte → List (Nat × Nat)
  | 0, _, _ => []
  | k + 1, o, d =>
    let ln := fieldAt d 2 2
    if d.length < 4 ∨ ln < 8 ∨ d.length < ln then []
    else shiftBy o ((subReserved (byteAt d 0) (d.take ln)).filter (fun x => decide (x.1 < ln))) ++
      blockReserved k (o + ln) (d.drop ln)

/-- Reserved places of a section entry of type t (R48, R49, R50, R52, R113, R155, R156, R219, R257, R320). A disabled
tenancy's fields are ignored. -/
def entryReserved (t : Nat) (d : List Byte) : List (Nat × Nat) :=
  if t = 1 then wholeBytes 3 5
  else if t = 2 then (List.range 32).map (fun i => (304 + i, 112))
  else if t = 3 then [(2, 120), (5, 240), (7, 255), (19, 240)] ++ wholeBytes 38 2 ++ wholeBytes 56 8
  else if t = 4 then
    (if bit (byteAt d 0) 0 then [(0, 252), (3, 224), (6, 240), (7, 255)] ++ wholeBytes 14 2 ++ wholeBytes 38 90 else [])
  else if t = 5 then (if byteAt d 0 = 0 then wholeBytes 22 10 else wholeBytes 8 24)
  else if t = 6 then
    (if byteAt d 2 = 0 then [(7, 240), (10, 240), (11, 240)] ++ wholeBytes 18 2 ++ wholeBytes 24 232
     else (15, 240) :: wholeBytes 41 3 ++ wholeBytes 76 4 ++ wholeBytes 80 176)
  else if t = 7 then wholeBytes 6 2 ++ wholeBytes 28 4
  else [(1, 255)]

/-- Parameter blocks of the flow table's entries, as (offset in the section, length). -/
def rawBlocks (ents : List (List Byte)) : List (Nat × Nat) :=
  (ents.map (fun d => (fieldAt d 44 4, fieldAt d 48 4))).filter (fun b => b.2 != 0)

/-- Reserved places of a section, as offsets in it. -/
def sectionReserved (t : Nat) (d : List Byte) : List (Nat × Nat) :=
  let (size, limit, _, trailing) := secRule t
  let n := min (min (fieldAt d 4 4) limit) ((d.length - 16) / size)
  let ents := (List.range n).map (fun i => sliceAt d (16 + i * size) size)
  let last := 16 + n * size
  [(2, 255), (3, 255)] ++ wholeBytes 12 4 ++
  (List.range n).flatMap (fun i => shiftBy (16 + i * size) (entryReserved t (ents.getD i []))) ++
  (if !trailing then wholeBytes last (d.length - last)
   else if t = 3 then
     let bs := rawBlocks ents
     bs.flatMap (fun b => blockReserved b.2 b.1 (sliceAt d b.1 b.2)) ++
     (wholeBytes last (d.length - last)).filter (fun x => !bs.any (fun b => b.1 ≤ x.1 && x.1 < b.1 + b.2))
   else [])

/-- The first place by offset whose reserved bits are not all zero. -/
def firstSet (d : List Byte) (l : List (Nat × Nat)) : Option Nat :=
  ((l.filter (fun x => byteAt d x.1 &&& x.2 != 0)).map Prod.fst).min?

/-- The section table as it stands, the entries that lie within the image. -/
def rawTable (table : List Byte) (n sig : Nat) : List SecEnt :=
  ((List.range n).map (fun i =>
    let d := sliceAt table (16 * i) 16
    (⟨byteAt d 0, fieldAt d 4 4, fieldAt d 8 4, fieldAt d 12 4⟩ : SecEnt))).filter (fun e => decide (e.off + e.len ≤ sig))

/-- The first reserved byte of the forme that is not zero: its section, 0 for a byte outside every section, and its offset
(R44). -/
def firstReserved (c : PCtx) (size : Nat) : Option (Nat × Nat) :=
  let raw := fun (o n : Nat) => (fetchBytes c.fetch (c.src + o) n).getD []
  let h := raw 0 64
  let n := min 8 (fieldAt h 6 2)
  let table := raw 64 (16 * n)
  let sig := size - 128
  let es := rawTable table n sig
  let head := [(12, 254), (13, 255), (14, 255), (15, 255), (37, 255)] ++ wholeBytes 44 20
  let outside := (firstSet h head).toList ++
    ((firstSet table ((List.range n).flatMap (fun i => wholeBytes (16 * i + 1) 3))).map (64 + ·)).toList ++
    (gapsOf sig (64 + 16 * n) (es.foldr insSec [])).filterMap (fun g => firstNz g.1 (raw g.1 g.2))
  let inside := es.filterMap (fun e =>
    (firstSet (raw e.off e.len) (sectionReserved e.type (raw e.off e.len))).map (fun o => (e.off + o, e.type)))
  let all := outside.map (fun o => (o, 0)) ++ inside
  (all.find? (fun x => all.all (fun y => decide (x.1 ≤ y.1)))).map (fun x => (x.2, x.1))

/-- A failure at a reserved byte names the first reserved byte of the forme that is not zero (R44). -/
def PErr.atFirst (c : PCtx) (size : Nat) (e : PErr) : PErr :=
  if e.rsv then
    match firstReserved c size with
    | some (s, o) => if s = e.sec ∧ o = e.off then e else { e with sec := s, off := o, flow := none, station := none }
    | none => e
  else e

end Sys2Proof.Machine
end

