-- ==== Sys2Proof/Machine/FormePair.lean ====
section
/-! DEFINITION. The pairing rules of a forme (R53, R88, R158, R184, R221, R258, R293, R322, R346, R351, R355, R380), in
the order of R56, and the whole parse phase. -/

namespace Sys2Proof.Machine

/-- The offset of a flow's sub-block of a type, or of its entry. -/
def FlowEntry.subOff (f : FlowEntry) (t : Nat) : Nat :=
  ((f.subOffs.find? (fun s => s.1 == t)).map Prod.snd).getD f.entryOff

/-- The decode entry that names a flow. -/
def decOf (cs : List CodecEntry) (fl : Nat) : Option DecEntry :=
  match cs.find? (fun k => k.flow == fl) with
  | some ⟨_, _, .dec e, _⟩ => some e
  | _ => none

/-- The encode entry that names a flow. -/
def encOf (cs : List CodecEntry) (fl : Nat) : Option EncEntry :=
  match cs.find? (fun k => k.flow == fl) with
  | some ⟨_, _, .enc e, _⟩ => some e
  | _ => none

/-- Random operations of Trim (R293). -/
def TrimSettings.random (t : TrimSettings) : Bool :=
  t.cropMode == 3 || t.round == 1 || t.rotSet != 0 || t.flags != 0

/-- Random operations of Galley (R355). -/
def GalleySettings.random (g : GalleySettings) : Bool := g.oversetRandom || g.tokenDrop

/-- A flow with a random operation of Trim or Galley enabled (R53). -/
def FlowEntry.random (f : FlowEntry) : Bool :=
  (match f.trim with | some t => t.random | none => false) ||
  (match f.galley with | some g => g.random | none => false)

/-- Frames per sample (R293). -/
def clipFrames (cs : List CodecEntry) (fl : Nat) : Nat := ((decOf cs fl).map DecEntry.clipFrames).getD 1

/-- Round up to a multiple of 64 (R354). -/
def r64 (n : Nat) : Nat := roundUp n 64

/-- Tensor bytes of one sample of a flow (R354). -/
def FlowEntry.tensorLen (f : FlowEntry) : Nat := tensorBytes f.outFormat f.outLayout f.outC f.outH f.outW

/-- The slug size SB (R354). -/
def slugSize (f : FlowEntry) (g : GalleySettings) : Nat :=
  if g.kind == 0 then r64 f.tensorLen + r64 (4 * g.slugTokens) + r64 g.auxBytes + g.sideBytes
  else r64 (4 * g.slugTokens) + r64 (2 * g.slugTokens) + 16 * g.maxSegs

/-- SLUG_OFFSET of a batch image (R354). -/
def slugOffset (g : GalleySettings) : Nat := r64 (64 + 32 * g.rows + 8 * ceilDiv g.rows 64)

/-- The batch image size (R354). -/
def imageSize (f : FlowEntry) (g : GalleySettings) : Nat := slugOffset g + g.rows * slugSize f g

/-- Slot bytes of a delivery flow (R382). -/
def slotBytes (f : FlowEntry) : Nat :=
  match f.galley with
  | some g => imageSize f g
  | none => f.tensorLen

/-- Largest picture of a codec in px: width, height, area (R216). -/
def maxPicture (codec : Nat) : Nat × Nat × Nat :=
  if codec == 1 then (16384, 8704, 35651584) else if codec == 2 then (16888, 16888, 35651584)
  else if codec == 3 then (8688, 8688, 9437184) else (16384, 16384, 268435456)

/-- Values that R216 lists for a codec: PROFILES mask, highest level, depths, CHROMA mask. -/
def codecCaps (codec : Nat) : Nat × Nat × List Nat × Nat :=
  if codec == 1 then (3, 19, [8, 10], 0b1011) else if codec == 2 then (7, 186, [8, 10], 0b1111)
  else if codec == 3 then (7, 52, [8], 0b0011) else if codec == 4 then (7, 0, [8, 12], 0b1111)
  else (1, 0, [8, 16], 0)

/-- The pairing rules of a decode entry, in order (R221). -/
def decPairs (f : FlowEntry) (engines : List Nat) (e : DecEntry) : List Bool :=
  let (pm, lv, ds, cm) := codecCaps e.codec
  let (mw, mh, ma) := maxPicture e.codec
  [ (pathPairs f.path).contains (3, 4) && (pathPairs f.path).contains (4, 5) && engines.contains 1,
    e.profiles != 0 && e.profiles &&& pm == e.profiles && e.maxLevel ≤ lv && ds.contains e.maxDepth &&
      e.chroma &&& cm == e.chroma,
    f.maxW ≤ mw && f.maxH ≤ mh && f.maxW * f.maxH ≤ ma,
    e.mode == 1 || (e.codec ≤ 3 && 1 ≤ e.outDepth && e.maxAu == 1 && e.clipFrames == 1 && e.clipStride == 1),
    e.mode == 0 || e.outDepth == 0,
    e.codec ≤ 3 || (e.mode == 1 && e.maxLevel == 0 && e.refSlots == 0 && e.sideMask == 0 && e.clipFrames == 1 &&
      e.maxAu == 1 && (e.codec == 4 || f.cls.entropyPar == 1)),
    !f.deadline || e.lead == 1 || e.lead == 2,
    decide (e.stripeBins ≤ f.cls.bins) ]

/-- Grid units of a picture, and grid rows (R257). -/
def EncEntry.gridCols (e : EncEntry) : Nat := ceilDiv e.picW e.grid

/-- Grid rows N. -/
def EncEntry.gridRows (e : EncEntry) : Nat := ceilDiv e.picH e.grid

/-- Grid units U. -/
def EncEntry.units (e : EncEntry) : Nat := e.gridCols * e.gridRows

/-- Rmin(key) and Rmin(inter) in bytes (R257). -/
def EncEntry.rmin (e : EncEntry) (key : Bool) : Nat := 1024 + (if key then 24 else 8) * e.units

/-- Bytes of one posted frame (R260). -/
def EncEntry.frameBytes (e : EncEntry) : Nat := e.picW * e.picH * 3 / 2 * (if e.depth == 10 then 2 else 1)

/-- Bytes of the hint plane (R261). -/
def EncEntry.hintBytes (e : EncEntry) : Nat :=
  if bit e.flags 0 then 8 * (ceilDiv e.picW 16 * ceilDiv e.picH 16) else 0

/-- B of the HRD model in bits (R271). -/
def EncEntry.hrdB (e : EncEntry) : Nat := 1000 * e.bufKbits

/-- The frame bound of R275 in bytes. -/
def EncEntry.frameBound (e : EncEntry) : Nat :=
  if e.rcMode == 3 then max e.latBytes e.keyLatBytes else e.hrdB / 8

/-- Largest luma picture size of a level, and largest width and height, as the standards give them: AV1 by
seq_level_idx, HEVC by general_level_idc. PRESUMED: AV1 Annex A.3 and HEVC Annex A.4 (log entry 20). -/
def levelLimits (codec level : Nat) : Option (Nat × Nat × Nat) :=
  if codec == 1 then
    if level == 0 then some (147456, 2048, 1152) else if level == 1 then some (278784, 2816, 1584)
    else if level == 4 then some (665856, 4352, 2448) else if level == 5 then some (1065024, 5504, 3096)
    else if level == 8 ∨ level == 9 then some (2359296, 6144, 3456)
    else if 12 ≤ level ∧ level ≤ 15 then some (8912896, 8192, 4352)
    else if level == 16 ∨ level == 17 then some (35651584, 16384, 8704)
    else none
  else
    let lum := if level == 30 then 36864 else if level == 60 then 122880 else if level == 63 then 245760
      else if level == 90 then 552960 else if level == 93 then 983040 else if level == 120 ∨ level == 123 then 2228224
      else if level == 150 ∨ level == 153 ∨ level == 156 then 8912896
      else if level == 180 ∨ level == 183 then 35651584 else 0
    if lum == 0 then none else some (lum, Nat.sqrt (8 * lum), Nat.sqrt (8 * lum))

/-- Width of tile column i of a uniform split of the picture's grid columns (R258 rule 5). -/
def EncEntry.tileWidths (e : EncEntry) : List Nat :=
  (List.range e.tileCols).map (fun i =>
    let c := e.gridCols
    min e.picW ((i + 1) * c / e.tileCols * e.grid) - min e.picW (i * c / e.tileCols * e.grid))

/-- inc at the entry's own rate with nothing carried over (R271). -/
def EncEntry.inc0 (e : EncEntry) (period : Nat) : Nat := 1000 * e.rateKbps * period / 10 ^ 9

/-- The pairing rules of an encode entry, in order (R258). -/
def encPairs (f : FlowEntry) (engines : List Nat) (e : EncEntry) : List Bool :=
  [ f.path == [1, 5, 4, 3, 0x0A] && engines.contains 2,
    f.live.isSome && (f.depth == 1 || f.depth == 2),
    (if e.codec == 1 then e.profile == 0 && e.grid == 64
      else (e.profile == 1 && e.depth == 8) || e.profile == 2) && (levelLimits e.codec e.level).isSome,
    (match levelLimits e.codec e.level with
      | some (a, w, h) => e.picW * e.picH ≤ a && e.picW ≤ w && e.picH ≤ h
      | none => false) && e.picW ≤ 8192 && e.picH ≤ 4352 && f.maxW == e.picW && f.maxH == e.picH &&
      f.cls.pixels == e.picW * e.picH,
    f.cls.entropyPar == e.tileCols * e.tileRows && e.tileRows ≤ e.gridRows &&
      e.tileWidths.all (fun w => if e.codec == 1 then decide (0 < w ∧ w ≤ 4096) else decide (256 ≤ w)),
    e.trail == 0 || (e.rcMode == 2 && !f.deadline),
    e.qpMin ≤ e.qInit && e.qpMin ≤ e.qKey && e.qpMin ≤ e.qInter && e.qInit ≤ e.qpMax && e.qKey ≤ e.qpMax &&
      e.qInter ≤ e.qpMax && (e.codec != 1 || 1 ≤ e.qpMin),
    e.inc0 f.periodNs ≤ e.hrdB && 8 * e.rmin false ≤ e.inc0 f.periodNs,
    if e.rcMode == 3 then e.rmin false ≤ e.latBytes && e.rmin true ≤ e.keyLatBytes
      else e.latBytes == 0 && e.keyLatBytes == 0,
    e.frameBytes + e.hintBytes ≤ f.cls.bytesIn,
    e.frameBound + 32 * e.tileRows ≤ f.cls.bytesOut && 64 * e.units ≤ f.cls.bins && e.stripeBins ≤ f.cls.bins ]

/-- The pairing rules of Trim settings, in order (R293). -/
def trimPairs (cs : List CodecEntry) (f : FlowEntry) (t : TrimSettings) : List Bool :=
  let j := fun i => (t.jitter.getD i 0).toNat
  let dec := decOf cs f.flow
  [ f.outC == t.outCh * clipFrames cs f.flow,
    !fmtBlock f.outFormat || f.outW % 32 == 0,
    (t.cropMode != 3 || (t.cropA ≤ t.cropB && t.cropC ≤ t.cropD)) && f32Le (j 0) (j 1) && f32Le (j 2) (j 3) &&
      f32Le (j 4) (j 5) && t.erase.getD 0 0 ≤ t.erase.getD 1 0 && t.erase.getD 2 0 ≤ t.erase.getD 3 0,
    t.matrix == 0 || (match dec with | some d => d.codec ≤ 4 | none => false),
    !bit t.flags 2 || t.matrix != 0 || (match dec with | some d => d.codec == 5 | none => true) ]

/-- Trim comes directly or later before the Compositor on the path. -/
def trimThenCmp (p : List Nat) : Bool := (p.dropWhile (· != 6)).contains 7

/-- The pairing rules of patch settings (R351); they hold with the sub-block absent too. -/
def patchOk (f : FlowEntry) : Bool :=
  match f.patch with
  | none => f.outLayout != 2
  | some p => f.outLayout == 2 && trimThenCmp f.path && f.outH % p.ph == 0 && f.outW % p.pw == 0 &&
      f.outC * p.ph * p.pw ≤ 16384

/-- Members of a running group among a list of flows. -/
def groupMembers (fs : List FlowEntry) (g : Nat) : List (FlowEntry × GalleySettings) :=
  fs.filterMap (fun f => match f.galley with
    | some x => if x.mode == 1 && x.group == g then some (f, x) else none
    | none => none)

/-- A completion ring lies in the tenancy's range. -/
def cqIn (tens : List TenEntry) (ten cq : Nat) : Bool :=
  let t := tens.getD ten TenEntry.blank
  t.cqFirst ≤ cq && cq < t.cqFirst + t.cqCount

/-- The pairing rules of Galley settings, in order (R355). -/
def galleyPairs (all : List FlowEntry) (tens : List TenEntry) (imgs : List TokImage) (f : FlowEntry)
    (g : GalleySettings) : List Bool :=
  [ imageSize f g ≤ 134217728,
    !(f.deadline && g.mode == 0) || g.rows == 1,
    g.kind == 0 || (g.mode == 0 && 1 ≤ g.slugTokens && !f.has 5 && !f.has 6),
    g.mode == 0 || (g.kind == 0 && !(bit f.entryMask 0 && (f.recRole 1 || f.recRole 2)) &&
      (groupMembers all g.group).length ≤ g.rows &&
      (groupMembers all g.group).all (fun m => m.1.ten == f.ten && m.2.rows == g.rows &&
        slugSize m.1 m.2 == slugSize f g && m.1.outFormat == f.outFormat && m.1.outLayout == f.outLayout &&
        m.1.outC == f.outC && m.1.outH == f.outH && m.1.outW == f.outW && m.2.batchCq == g.batchCq)),
    (match f.text with
      | some t => (match imgs.find? (fun i => i.addr == t.imageAddr && i.crc == t.imageCrc) with
        | some i => g.vocabLimit == i.vocab
        | none => true)
      | none => true) && g.padId < g.vocabLimit && g.maskId < g.vocabLimit,
    !g.tokenDrop || 1 ≤ g.slugTokens,
    cqIn tens f.ten g.batchCq ]

/-- Does the path carry token or AUX streams (R341)? -/
def FlowEntry.carriesStreams (f : FlowEntry) : Bool := f.text.isSome || f.recRole 3

/-- The pairing rules of Delta settings, in order (R380). -/
def deltaPairs (cs : List CodecEntry) (claims : List PoolClaim) (movers : List (Option Nat)) (f : FlowEntry)
    (d : DeltaSettings) : List Bool :=
  [ d.kind == 1 || (f.path == [1, 9] && (f.entryMask == 8 || f.live.isSome) && f.cls.bytesIn % 128 == 0 &&
      decide (128 ≤ f.cls.bytesIn ∧ f.cls.bytesIn ≤ 32640)),
    d.kind == 0 || (2 < f.path.length && d.dieMask != 0 && d.stageKib == 0),
    d.kind == 0 || (slotBytes f ≤ d.slotStride && slotBytes f + d.auxStride ≤ f.cls.deltaBytes),
    (!f.carriesStreams || f.has 8) &&
      (f.has 8 || (match decOf cs f.flow with | some e => e.sideMask == 0 | none => true) ||
        (d.auxBase != 0 && d.auxStride != 0)),
    f.deadline || movers.any (fun m => m == some f.ten),
    !(f.deadline && d.kind == 0 && d.stageKib != 0) ||
      decide (d.stageKib / 64 ≤ ((claims.filter (fun k => k.flow == f.flow && 4 ≤ k.pool && k.pool ≤ 8)).map
        (·.reserve)).foldl (· + ·) 0) ]

/-- The first rule that does not hold is refused at an offset. -/
def pairs (l : List Bool) (sec off : Nat) : Except PErr Unit := need (l.all id) (pairErr sec off)

/-- What a parsed forme or amendment holds, before it is merged. -/
structure Parsed where
  forme  : Forme
  rems   : List Removal
  key    : Nat
  sig    : Nat
  hash   : Nat
  rs     : Nat × Nat
  deriving DecidableEq, Repr

/-- Pairing rules of one flow's entry: R53, R88, R184, then its sub-blocks in ascending type. -/
def flowPairs (p : Forme) (all : List FlowEntry) (tens : List TenEntry) (imgs : List TokImage) (f : FlowEntry) :
    Except PErr Unit := do
  let o := f.entryOff
  need (!fmtBlock f.outFormat || f.outLayout == 4) (pairErr 3 (o + 18))
  need (f.outLayout != 4 || fmtBlock f.outFormat) (pairErr 3 (o + 18))
  need (!f.has 3 || (p.codecs.filter (fun k => k.flow == f.flow)).length == 1) (pairErr 3 o)
  need (!f.random || (p.riffles.filter (fun k => k.flow == f.flow)).length == 1) (pairErr 3 o)
  need (f.cls.pixels ≤ f.maxW * f.maxH) (pairErr 3 (f.subOff 1))
  (match f.live with
    | some b => need (cqIn tens f.ten b.cq) (pairErr 3 (f.subOff 2))
    | none => .ok ())
  (match f.trim with
    | some t => pairs (trimPairs p.codecs f t) 3 (f.subOff 4)
    | none => .ok ())
  (match f.text with
    | some t => need (imgs.all (fun i => !(i.addr == t.imageAddr && i.crc == t.imageCrc) || i.kind == t.kind))
        (pairErr 3 (f.subOff 5))
    | none => .ok ())
  need (patchOk f) (pairErr 3 (f.subOff 6))
  (match f.galley with
    | some g => pairs (galleyPairs all tens imgs f g) 3 (f.subOff 7)
    | none => .ok ())
  (match f.delta with
    | some d => pairs (deltaPairs p.codecs p.claims p.movers f d) 3 (f.subOff 8)
    | none => .ok ())

/-- All pairing rules, section by section in ascending type, entry by entry (R56). -/
def formePairs (p : Forme) (all : List FlowEntry) : Except PErr Unit := do
  eachOf p.flows (fun f => naming f.flow f.ten (flowPairs p all p.tens p.images f))
  eachOf p.defs (fun d => need (decide (d.warn ≤ d.throttle ∧ d.throttle ≤ d.stop)) (pairErr 5 d.off))
  eachOf p.codecs (fun k => match p.flows.find? (fun f => f.flow == k.flow) with
    | none => .ok ()
    | some f => naming f.flow f.ten (match k.body with
      | .dec e => pairs (decPairs f p.engines e) 6 k.off
      | .enc e => pairs (encPairs f p.engines e) 6 k.off))
  eachOf p.riffles (fun k => match p.flows.find? (fun f => f.flow == k.flow) with
    | none => .ok ()
    | some f => naming f.flow f.ten <| pairs [decide (k.mode = b2n f.stateful),
        (if k.normal == 0 then k.tableAddr == 0 && k.tableCrc == 0 else k.tableAddr != 0),
        f.has 6 || f.has 8] 7 k.off)

/-- The section of a type. -/
def secOf (es : List SecEnt) (t : Nat) : Option SecEnt := es.find? (fun e => e.type == t)

/-- The parse phase on the fetched image (R56), each failure where it is found. Bytes 96 to 127 of the signature block are
checked last: R56 does not place them. DESIGN CHOICE, log entry 78. -/
def parseImageOf (c : PCtx) (size : Nat) : Except PErr Parsed := do
  let h ← got c.fetch c.src 64 0 0
  precheck c h size
  let n := fieldAt h 6 2
  let table ← got c.fetch (c.src + 64) (16 * n) 0 64
  parseHeader c h table
  let sig := fieldAt h 32 4
  let es ← parseTable c sig table n
  parseGaps c sig n es
  let b : Forme := if c.amend then c.live else Forme.blank
  let segs ← match secOf es 1 with
    | none => .ok b.segs
    | some e => do
      let (d, k) ← parseSection c e
      let g ← parseGraph (entriesOf d k 8 e.off)
      parseTail e d k
      .ok g
  let imp ← match secOf es 2 with
    | none => .ok (b.lanes, b.engines, b.movers)
    | some e => do
      let (d, k) ← parseSection c e
      let g ← parseImpose (e.off + 16) (sliceAt d 16 336)
      parseTail e d k
      .ok g
  let acc ← match secOf es 3 with
    | none => .error (fmtErr 0 64)
    | some e => do
      let (d, k) ← parseSection c e
      parseFlows c segs imp.1 d k e.off
  let tens ← match secOf es 4 with
    | none => .ok b.tens
    | some e => do
      let (d, k) ← parseSection c e
      let g ← parseTens imp.2.2 (entriesOf d k 128 e.off)
      parseTail e d k
      .ok g
  let pools ← match secOf es 5 with
    | none => .ok ([], [])
    | some e => do
      let (d, k) ← parseSection c e
      let g ← parsePools c acc.flows (entriesOf d k 32 e.off)
      parseTail e d k
      .ok g
  let codecs ← match secOf es 6 with
    | none => .ok []
    | some e => do
      let (d, k) ← parseSection c e
      let g ← parseCodecs acc.flows (entriesOf d k 256 e.off)
      parseTail e d k
      .ok g
  let rfl_ ← match secOf es 7 with
    | none => .ok ([], [])
    | some e => do
      let (d, k) ← parseSection c e
      let g ← parseRiffles c acc.flows acc.rems (entriesOf d k 32 e.off)
      parseTail e d k
      .ok g
  let micro ← match secOf es 8 with
    | none => .ok b.micro
    | some e => do
      let (d, k) ← parseSection c e
      parseMicro segs e.off d (entriesOf d k 16 e.off)
  let f : Forme :=
    { id := BitVec.ofNat 64 (fieldAt h 16 8), size := size, segs := segs, lanes := imp.1, engines := imp.2.1,
      movers := imp.2.2, tens := tens, flows := acc.flows, defs := if c.amend then c.live.defs else pools.1,
      claims := pools.2, codecs := codecs, riffles := rfl_.1, micro := micro, images := acc.images, tables := rfl_.2,
      imgSlots := [], tabSlots := [] }
  formePairs f (remaining c acc.rems ++ acc.flows)
  let body ← got c.fetch c.src sig 0 0
  let sb ← got c.fetch (c.src + sig) 128 0 sig
  zeros (sb.drop 96) 0 (sig + 96)
  .ok ⟨f, acc.rems, byteAt h 36, sig, sha384 body, (fieldAt sb 0 48, fieldAt sb 48 48)⟩

/-- The parse phase (R56): answers the parsed forme with what the verify phase needs, or the first failure. Where that is a
reserved byte that is not zero, the first such byte of the forme is named (R44). -/
def parseForme (c : PCtx) (size : Nat) : Except PErr Parsed := (parseImageOf c size).mapError (PErr.atFirst c size)

end Sys2Proof.Machine
end

