-- ==== Sys2Proof/Config.lean ====
section
/-! DEFINITION. What an implementation fixes and the spec leaves open: free values. Each is an opaque constant; no
proof can see a value of it. What the video standards say of a coded bit stream is free too: the spec names the
standards and does not hold them. -/

namespace Sys2Proof.Machine

/-- What a codec's standard says of one frame of an access unit: size, bit depth, chroma format (0 to 3 for 4:0:0 to
4:4:4), the slot it shows again if it codes nothing, the slots it uses, refreshes and empties, whether it is output and
its place in output order, how many waiting frames are released after it, whether it counts as unreferenced by R239's
syntax, whether it uses a tool that forbids cut decode, its grid unit and tiles, its frame type (R242), whether it is progressive or
Adam7 and so needs a scratch, the bytes of a pixel of its raw image (R223), the bins of its independently coded units in order (R227),
and the most bins in one grid row of one unit. -/
structure FrameDesc where
  w       : Nat
  h       : Nat
  depth   : Nat
  chroma  : Nat
  again   : Option Nat
  uses    : List Nat
  refresh : List Nat
  drops   : List Nat
  out     : Bool
  order   : Nat
  release : Nat
  unref   : Bool
  uncut   : Bool
  grid    : Nat
  tiles   : List (Nat × Nat × Nat × Nat)
  ftype   : Nat
  scratch : Bool
  rawBpp  : Nat
  units   : List Nat
  maxRow  : Nat
  deriving DecidableEq, Repr, Inhabited

/-- A fault that Millrace meets in an access unit (R245): its class (R226), the unit within the frame and the byte offset (R252), the
frames of the unit before the failing one, and the bins of that one that Millrace has read. -/
structure StreamFault where
  cls   : Nat
  unit  : Nat
  off   : Nat
  frame : Nat
  bins  : Nat
  deriving DecidableEq, Repr, Inhabited

/-- What a codec's standard says of the first access unit of a byte string: its length, the fault in its syntax that Millrace
meets, where in it a fault of each other class shows, as (class, unit, offset), profile, level, the dimensions of a sequence header
it brings, whether it is a random-access point, whether it is discarded (RASL), the frame buffers it asks for, and its frames. -/
structure AccessUnit where
  bytes   : Nat
  fault   : Option StreamFault
  spots   : List (Nat × Nat × Nat)
  profile : Nat
  level   : Nat
  header  : Option (Nat × Nat)
  rap     : Bool
  skip    : Bool
  dpb     : Nat
  frames  : List FrameDesc
  deriving DecidableEq, Repr, Inhabited

/-- An 8 × 8 luma block of a decoded picture: whether it is intra or skipped, the vectors of the lists that it uses, in the
standard's precision, the sum of its squared luma residuals, and its QP (R242). -/
structure BlockInfo where
  intra : Bool
  skip  : Bool
  list0 : Option (Int × Int)
  list1 : Option (Int × Int)
  resid : Nat
  qp    : Nat
  deriving DecidableEq, Repr, Inhabited

/-- A motion vector, in 1/4 luma px (R261). -/
structure Vec where
  x : Int
  y : Int
  deriving DecidableEq, Repr, Inhabited

/-- How a repeat frame shows the most recent coded frame again (R267): AV1 show_existing_frame, an AV1 inter frame of skips after
a key frame, an HEVC TRAIL_N picture of merge skips. -/
inductive RepeatForm where
  | showExisting | skipInter | trailN
  deriving DecidableEq, Repr

end Sys2Proof.Machine

namespace Sys2Proof.Config

open Sys2Proof.Machine

/-- A byte of a memory or bus value that the spec does not state, by index. -/
opaque freeByte : Nat → Byte

/-- Byte `i` of the 4,096-byte context that checkpoint `n` writes: the spec gives a context no layout (R452). -/
opaque contextByte (n i : Nat) : Byte

/-- Byte `i` of the `n`-th takeover image: the live merged forme, which the spec gives no byte order of its own for
(R76, R451). -/
opaque imageByte (n i : Nat) : Byte

/-- Work units that the data of a sample need at a lane, entropy or search server: the spec bounds them by the class and
does not state them for given data (R90, R101). -/
opaque sampleWork (n server : Nat) : Nat

/-- The first access unit of `d` for a codec (R219) whose context has taken the access units `hist` since its last
random-access point: what the codec's standard says of it (R216). -/
opaque accessUnit (codec : Nat) (hist : List (List Byte)) (d : List Byte) : AccessUnit

/-- Sample (plane, y, x) of frame `k` of the last access unit of `hist`, as the standard decodes it (R216, R217); `grain`: with
AV1 film grain applied (R219). -/
opaque pixel (codec : Nat) (hist : List (List Byte)) (grain : Bool) (k plane y x : Nat) : Nat

/-- What the standard says of an 8 × 8 luma block of frame `k` of the last access unit of `hist` (R242). -/
opaque blockInfo (codec : Nat) (hist : List (List Byte)) (k bx by_ : Nat) : BlockInfo

/-- Luma sample (x, y) of the frame that the encoder reconstructs from the inputs `hist` since the last key frame: the
prediction, transforms and filters are the standard's and the encoder's (R256, R259). -/
opaque encRecon (e : EncEntry) (hist : List (List Byte)) (x y : Int) : Nat

/-- The full-pel place of a vector's component: R270 costs candidates at full-pel and states no rounding. -/
opaque fullPel (v : Int) : Int

/-- A vector in the codec's precision and range (R269): the standards give both. -/
opaque codecVec (codec : Nat) (v : Vec) : Vec

/-- The cost of a vector at the frame's λ (R270): the spec gives neither. -/
opaque vectorCost (e : EncEntry) (hist : List (List Byte)) (block : Nat) (v : Vec) : Nat

/-- A candidate after the diamond of radius `r` and the half- and quarter-pel steps (R270): the spec gives no search pattern and the
standards the interpolation. -/
opaque refined (e : EncEntry) (hist : List (List Byte)) (block r : Nat) (v : Vec) (golden : Bool) : Vec

/-- What Platen chooses for a block among inter, skip, merge and intra (R270), from the vectors it refined, each with whether it
refers to GOLDEN: its final vector, none for an intra block, and its residual SATD. -/
opaque blockChoice (e : EncEntry) (hist : List (List Byte)) (key : Bool) (block : Nat) (tried : List (Vec × Bool)) : Option Vec × Nat

/-- Bytes and bins of a coded grid row, from the quantisers of the rows up to it (R273). -/
opaque encRow (e : EncEntry) (hist : List (List Byte)) (key : Bool) (qs : List Nat) : Nat × Nat

/-- Bytes and bins of a minimal grid row (R274), before the limits of that rule. -/
opaque encMinimal (e : EncEntry) (hist : List (List Byte)) (key : Bool) (row : Nat) : Nat × Nat

/-- Header bytes of a coded frame (R274), before the limit of that rule. -/
opaque encHeader (e : EncEntry) (hist : List (List Byte)) (key : Bool) : Nat

/-- Bytes of a repeat frame (R267), before the limits of R272 and R275. -/
opaque encRepeat (e : EncEntry) (hist : List (List Byte)) (form : RepeatForm) : Nat

/-- Byte `i` of a coded frame (R255), given its rows' quantisers and the first minimal row. -/
opaque encByte (e : EncEntry) (hist : List (List Byte)) (qs : List Nat) (minFrom i : Nat) : Byte

/-- Byte `i` of a repeat frame of a form (R267). -/
opaque repeatByte (e : EncEntry) (hist : List (List Byte)) (form : RepeatForm) (i : Nat) : Byte

/-- Hot-cache misses of a text (R345), by index: the spec gives the cache no replacement rule. -/
opaque cacheMisses (n : Nat) : Nat

/-- What fp32 arithmetic of Trim gives for an infinity times 0 (`op` 0), the sum of opposite infinities (1) and 0 / 0 (2): R304 says
only that it is no NaN. -/
opaque f32Invalid (op a b : Nat) : Nat

/-- The working sample of an E2 floating element that is not a number: R299 states no result for it. -/
opaque nanSample : Nat

/-- PTC's estimate of the power of a class (0 compute, 1 memory, 2 links) in 1/8 W, at state p and the activity of the
moment (R425, R427): the spec gives no power model. -/
opaque classPower (n cls p : Nat) : Nat

/-- Duration in µs of a procedure that the spec only bounds (R457). -/
opaque duration (n : Nat) : Nat

/-- The unit whose source an injection drives: TST_INJ names the source and not the unit (R467). -/
opaque injectedUnit (n : Nat) : Nat

/-- Galley memory offset that the instance chooses for a Galley-placed pool of a forme (R179). -/
opaque galleyBase (formeId pool : Nat) : Nat

end Sys2Proof.Config
end

