-- ==== Sys2Proof/Machine/State.lean ====
section
/-! DEFINITION. The state of one Birfa instance as plain data: the software-visible register file (live and shadow
copies), the live forme and what admission derived from it, every queue, ring, port, pool, context and counter the
spec gives the block, the fabric transactions in flight, the pins, and the queue of waiting commands. -/

namespace Sys2Proof.Machine

/-! ### Registers and transactions -/

/-- A register file: (offset, word) pairs in one canonical form, offsets strictly rising and no entry equal to the
register's reset word (RegFile.wf in Machine/RegFile.lean). -/
abbrev RegFile := List (Nat × Word)

/-- What a fabric transaction of the instance is for (R504). -/
inductive Purpose where
  /-- a descriptor fetch of a task: chain index, and whether it is the alternate (R381, R400) -/
  | descriptor (task : Nat) (index : Nat) (alt : Bool)
  /-- source data of a task: the read's number for Delta, 0 otherwise -/
  | source (task : Nat) (read : Nat)
  /-- an output write of a task: transfer number for Delta, 0 otherwise -/
  | dest (task : Nat) (transfer : Nat)
  /-- a write of a delivery unit (R382) -/
  | delivery (key : Nat)
  /-- a completion entry (R138), and the journal slot of its task (R455) -/
  | cqe (cq : Nat) (index : Nat) (slot : Option Nat)
  /-- a packet chunk of a flow (R280) -/
  | packet (flow : Nat)
  /-- a submission or completion ring record write (R124, R134, R135) -/
  | ringRecord (ring : Nat)
  /-- a context checkpoint: flow, slot, and whether area B (R452) -/
  | checkpoint (flow : Nat) (slot : Nat) (areaB : Bool) (task : Nat)
  /-- a journal record of a task (R455) -/
  | journal (task : Nat)
  /-- a DELTA_DONE message of a task (R392) -/
  | deltaDone (task : Nat)
  /-- a piece of the takeover image, and then the header, of checkpoint area A or B (R76, R451) -/
  | image (areaB : Bool)
  | imageHead (areaB : Bool)
  /-- a message-signalled interrupt (R142, R448) -/
  | interrupt (ten : Nat) (vector : Nat)
  /-- the fetch of the record that a ring command enables: completion ring or not, tenancy, ring (R128) -/
  | ringEnable (cq : Bool) (ten : Nat) (ring : Nat)
  deriving DecidableEq, Repr

/-- The operation of a transaction (R503). -/
inductive TxnOp where
  | rd | wr | wrMc | msg
  deriving DecidableEq, Repr

/-- One fabric transaction the instance has issued and whose response it awaits (R504, R509). -/
structure Txn where
  tag     : Nat
  op      : TxnOp
  addr    : Nat
  len     : Nat
  dies    : Nat
  msgType : Nat
  dst     : Nat
  data    : List Byte
  purpose : Purpose
  issued  : Nat
  port    : Nat
  deriving DecidableEq, Repr

/-- The response to the last control-space access or MSG (R6, R503): status code and data. -/
structure CsResp where
  status : Nat
  data   : Word
  deriving DecidableEq, Repr

/-! ### Forme port and admission -/

/-- Work at one server: LKP_WORK slot of R112, with the admitted wall time. -/
structure WorkSlot where
  work   : Nat
  server : Nat
  p      : Nat
  multi  : Bool
  station : Nat
  deriving DecidableEq, Repr

/-- What admission derives for one live flow (R91, R92, R95). -/
structure FlowAdm where
  flow    : Nat
  works   : List WorkSlot
  /-- (station, W, d) for each timed station in path order -/
  locals  : List (Nat × Nat × Nat)
  sumW    : Nat
  berths  : Nat
  deriving DecidableEq, Repr

/-- What admission derives for one server (R93, R110). -/
structure ServerAdm where
  index  : Nat
  units  : Nat
  station : Nat
  util   : Nat
  block  : Nat
  dFlows : Nat
  deriving DecidableEq, Repr

/-- A refusal as FRM_REFUSAL and LKP_REFUSAL record it (R83, R94, R107). -/
structure RefusalRec where
  code    : Nat
  flow    : Option (Nat × Nat)
  station : Option Nat
  section_ : Nat
  offset  : Nat
  server  : Option (Nat × Nat)
  deriving DecidableEq, Repr

/-- The attempt in progress between its first step and its quoin point (R56 to R69, R459). -/
inductive JobKind where
  | full | amend | takeover | reload
  deriving DecidableEq, Repr

/-- A lock-up, amendment, takeover or forme reload that has not reached its quoin point. -/
structure Job where
  kind     : JobKind
  phase    : Nat
  forme    : Forme
  adm      : List FlowAdm
  servers  : List ServerAdm
  removed  : List Nat
  added    : List Nat
  pstate   : Nat
  /-- unreserved blocks already claimed, per (flow, pool) (R68) -/
  claimed  : List (Nat × Nat × Nat)
  /-- LANES_GOOD and ENTROPY_GOOD when admission ran (R64) -/
  good     : Nat × Nat
  started  : Nat
  /-- the answers to the fetches of a forme reload, or of a takeover, which its quoin uses (R459, R487) -/
  fetch    : Fetch
  /-- CANCEL was written during step 7: the attempt ends with that step (R62) -/
  cancelled : Bool
  deriving DecidableEq, Repr

/-! ### Tenancies, rings, ports -/

/-- An address window as it was when a task started (R120, R122). -/
structure Window where
  read  : Bool
  write : Bool
  base  : Nat
  limit : Nat
  deriving DecidableEq, Repr

/-- A write in a tenancy's push queue, or stalled behind it: requester, control-space offset, value, arrival time (R132); and
whether it is a live push that came as a MSG from a compute die (R187). -/
structure Push where
  req  : CsReq
  off  : Nat
  v    : Word
  tArr : Nat
  die  : Bool
  deriving DecidableEq, Repr

/-- Push queue of a tenancy, at most 256 deep, and the writes stalled behind it (R132). -/
structure TenRun where
  pushes  : List Push
  stalled : List Push
  deriving DecidableEq, Repr

/-- A submission ring that is enabled (1) or draining (2); a ring not listed is disabled (R124, R128, R129). -/
structure SqRing where
  ring  : Nat
  ten   : Nat
  base  : Nat
  log2  : Nat
  cq    : Nat
  flow  : Nat
  head  : Nat
  tail  : Nat
  state : Nat
  bit   : Bool
  deriving DecidableEq, Repr

/-- An enabled completion ring (R135). -/
structure CqRing where
  cq       : Nat
  ten      : Nat
  base     : Nat
  log2     : Nat
  vector   : Nat
  irqCount : Nat
  irqDelay : Nat
  head     : Nat
  tail     : Nat
  seq      : BitVec 32
  phase    : Bool
  /-- unannounced entries, and when the oldest was written (R142) -/
  unann    : Nat
  oldest   : Option Nat
  /-- an interrupt waits for the acknowledgement of these entry indices (R138) -/
  irqDue   : Bool
  /-- an entry is held because the ring is full, and CQ_FULL has been raised for it (R140) -/
  holding  : Bool
  deriving DecidableEq, Repr

/-- A pending live post (R187). -/
structure Post where
  slot : Nat
  tArr : Nat
  deriving DecidableEq, Repr

/-- Pending control of an encode port (R264). -/
structure PendCtl where
  forceKey : Bool
  repeat_  : Bool
  newRate  : Option Nat
  deriving DecidableEq, Repr, Inhabited

/-- A live port at run time (R184 to R193). -/
structure PortRun where
  port    : Nat
  busy    : List Nat
  pending : List Post
  carry   : List (List Byte)
  lastAge : Nat
  deriving DecidableEq, Repr

/-- A completion entry that is due (R136, R138), with the order keys of R138. -/
structure DueEntry where
  cq         : Nat
  ten        : Nat
  tag        : Word
  ring       : Nat
  flow       : Nat
  sqHead     : Nat
  status     : Nat
  outInvalid : Bool
  live       : Bool
  detail     : BitVec 32
  irqNow     : Bool
  sample     : Nat
  /-- when it fell due: entries of one moment go by flow, sample and ring (R138) -/
  at_        : Nat
  task       : Option Nat
  /-- the live slot to release when the entry is written (R188) -/
  slot       : Option (Nat × Nat)
  deriving DecidableEq, Repr

/-! ### Tasks and samples -/

/-- One plane of working or coded samples. -/
structure Plane where
  w    : Nat
  h    : Nat
  data : List Nat
  deriving DecidableEq, Repr

/-- A picture: bit depth, colour kind (0 YCbCr, 1 RGB), subsampling of planes 1 and 2, planes in order. -/
structure Picture where
  w      : Nat
  h      : Nat
  depth  : Nat
  rgb    : Bool
  alpha  : Bool
  subX   : Nat
  subY   : Nat
  planes : List Plane
  deriving DecidableEq, Repr

/-- A side-output group (R242, R358). -/
structure SideOut where
  channelBase : Nat
  format      : Nat
  channels    : Nat
  w           : Nat
  h           : Nat
  data        : List Byte
  deriving DecidableEq, Repr

/-- A tile header (R38): WIDTH, HEIGHT and the channels of a position as they count, not minus 1. -/
structure TileHdr where
  flow      : Nat
  ten       : Nat
  format    : Nat
  layout    : Nat
  channels  : Nat
  index     : Nat
  part      : Nat
  last      : Bool
  first     : Bool
  status    : Nat
  x         : Nat
  y         : Nat
  base      : Nat
  w         : Nat
  h         : Nat
  payload   : Nat
  masked    : Bool
  subst     : Bool
  overclass : Bool
  time      : Nat
  deriving DecidableEq, Repr

/-- A tile: its header and its payload (R312). -/
structure Tile where
  hdr  : TileHdr
  data : List Byte
  deriving DecidableEq, Repr

/-- One sample on its way through the stations: the logical index, the status and OVERCLASS of its tile headers
(R38, R40), its capture time, its streams, and, of a sample that a station stopped, the tiles that it had emitted and the place of the
next (R249, R314). -/
structure Sample where
  index    : Nat
  recordId : Nat
  status   : Nat
  overcls  : Bool
  time     : Nat
  coded    : List Byte
  frames   : List Picture
  text     : Option (List Byte)
  tokens   : Option (List Nat)
  aux      : List Byte
  side     : List SideOut
  /-- the sample's tensor in OUT_FORMAT and OUT_LAYOUT, dense under R313 or R352 -/
  tensor   : Option (List Byte)
  /-- for each picture, the rectangle to which it was cut (R238) -/
  cuts     : List (Option (Nat × Nat × Nat × Nat))
  /-- the Compositor's patch lanes have rearranged the tensor (R352) -/
  patched  : Bool
  stand    : List Tile
  stopAt   : Option (Nat × Nat × Nat)
  deriving DecidableEq, Repr

/-- A parsed descriptor (R383). -/
structure Desc where
  flow    : Nat
  ten     : Nat
  stream  : Nat
  dir     : Nat
  order   : Bool
  fence   : Bool
  doneWait : Bool
  notify  : Bool
  deadline : Bool
  fmtIn   : Nat
  fmtOut  : Nat
  layer   : Nat
  dieMask : Nat
  sdims   : Nat
  ddims   : Nat
  src     : Nat
  dst     : Nat
  next    : Nat
  alt     : Nat
  scount  : List Nat
  dcount  : List Nat
  sstride : List Nat
  dstride : List Nat
  bytes   : Nat
  deriving DecidableEq, Repr

/-- State of a transfer (R388): waiting, reading, staged, held by the stagger, writing, done. -/
inductive XferState where
  | idle | reading | staged | held | writing | done
  deriving DecidableEq, Repr

/-- One transfer of a streaming task (R388): the elements it covers as (descriptor, first, count), the reads whose data
it needs, the mover engine of its thread (R390), the address it writes (die-local for DIR 0), its converted bytes, its writes awaiting acknowledgement, and the
pool of its staging block (R397). -/
structure Xfer where
  key    : Nat
  segs   : List (Nat × Nat × Nat)
  state  : XferState
  src    : Nat
  slen   : Nat
  need   : List Nat
  engine : Nat
  dst    : Nat
  out    : List Byte
  writes : Nat
  pool   : Option Nat
  deriving DecidableEq, Repr

/-- A source read of a streaming task, shared by the transfers whose sources it covers (R389). -/
structure SrcRead where
  key    : Nat
  desc   : Nat
  addr   : Nat
  len    : Nat
  data   : Option (List Byte)
  deriving DecidableEq, Repr

/-- The Delta side of a streaming task: its chain as fetched and as it runs (R381, R400), the elements not yet in a
transfer, its transfers and reads, its layer wait (R395), and the DETAIL bits of R393. -/
structure DeltaTask where
  prim      : List Desc
  descs     : List Desc
  nextAddr  : Nat
  fetched   : Nat
  alts      : List Nat
  altFetch  : List Nat
  todo      : List (Nat × Nat × Nat)
  xfers     : List Xfer
  reads     : List SrcRead
  nextKey   : Nat
  started   : Bool
  layerWait : Bool
  noStage   : Bool
  waitFrom  : Option Nat
  drainNs   : Nat
  staged    : Bool
  staggered : Bool
  altUsed   : Bool
  wrote     : List Nat
  used      : Nat
  faultIdx  : Option Nat
  deriving DecidableEq, Repr

/-- A reconstructed frame: its handle, its picture, the rectangle to which it was cut (R238), and what its side outputs are built
from (R242): the access units of its context up to its own, its number in that unit, its description, and whether it is shown again. -/
structure FrameBuf where
  handle : Nat
  pic    : Picture
  cut    : Option (Nat × Nat × Nat × Nat)
  hist   : List (List Byte)
  k      : Nat
  desc   : FrameDesc
  again  : Bool
  deriving DecidableEq, Repr

/-- What Millrace found in a decode task's data and how far Millrace and Platen have taken it: its access units, the units of
its context before them, the fault in them (R245), how many of its frames come before that, whether its parse has ended, status and
error class as far as they are found (R226), whether the sample stands
alone (MODE 1), whether its access unit is discarded (R247), its frames with the number of their access unit and the units that Millrace
reads of them (R227), the output frame that each becomes (R225), how many of them Millrace has parsed and whether it parses one now,
the units that are parked (R231), the next frame that Platen reads and whether it reads one now (R230), and, for a sample that stands
alone, its slots and its selected frames by output number; the crop rectangle of the frame that Platen reads, the last rectangle of a
cut picture, and the frames that the task made join the output queue. -/
structure DecPlan where
  aus     : List (List Byte × AccessUnit)
  hist    : List (List Byte)
  fault   : Option StreamFault
  good    : Nat
  closed  : Bool
  status  : Nat
  cls     : Nat
  alone   : Bool
  skip    : Bool
  frames  : List (Nat × FrameDesc)
  pick    : List (Option Nat)
  parsed  : Nat
  parsing : Bool
  parked  : Nat
  next    : Nat
  reading : Bool
  slots   : List (Option FrameBuf)
  sel     : List (Nat × FrameBuf)
  cutNow  : Option (Nat × Nat × Nat × Nat)
  cut     : Option (Nat × Nat × Nat × Nat)
  joined  : Nat
  deriving DecidableEq, Repr

/-- The frame of an encode task: its tick, what its control asks for (R262 to R266), its frame and its hint plane (R260, R261),
and, once Platen has started it, what it codes: the inputs that its bytes depend on, whether it is a repeat, key, the final
vectors of its blocks and the blocks refined at radius 2 (R269, R270), q0, the rows' quantisers, complexities, bytes and bins,
the first minimal row, header bytes, bins in all, rows discarded, CAPPED, inc (R271 to R276), the chunks sent (R277), the form of a
repeat (R267), and filler bytes. -/
structure EncPlan where
  tick    : Nat
  synth   : Bool
  again   : Bool
  force   : Bool
  newRate : Option Nat
  input   : List Byte
  hints   : List Byte
  hist    : List (List Byte)
  started : Bool
  key     : Bool
  vecs    : List (Option Vec)
  narrow  : Nat
  q0      : Nat
  qs      : List Nat
  cplx    : List Nat
  rows    : List Nat
  rowBins : List Nat
  minFrom : Nat
  hdr     : Nat
  bins    : Nat
  gone    : Nat
  capped  : Bool
  inc     : Nat
  sent    : Nat
  form    : RepeatForm
  filler  : Nat
  deriving DecidableEq, Repr

/-- Where a task comes from (R116). -/
inductive Origin where
  | ring (r : Nat)
  | port (p : Nat) (slot : Nat)
  /-- a repeat that the frame clock of an encode flow synthesises (R265) -/
  | synth (port : Nat)
  /-- a sample that travels on after its record range's task has completed at Case (R196); it is no task in flight -/
  | carrier
  deriving DecidableEq, Repr

/-- Life of a task: its source or chain is being fetched, it waits for release (R97), it has ready pieces, its
outputs await acknowledgement, it waits for its batch (R368) or its chunks (R280), it has ended and awaits its task
boundary and completion entry (R452). -/
inductive TaskPhase where
  | fetching | waiting | ready | writing | batched | chunking | ended
  deriving DecidableEq, Repr

/-- A task in flight (R116). -/
structure Task where
  id       : Nat
  ten      : Nat
  flow     : Nat
  origin   : Origin
  opcode   : Nat
  tag      : Word
  irqNow   : Bool
  entry    : Nat
  srcAddr  : Nat
  srcLen   : Nat
  dstAddr  : Nat
  dstLen   : Nat
  args     : List Byte
  sqHead   : Nat
  cq       : Nat
  sample   : Nat
  epoch    : Nat
  accept   : Nat
  release  : Nat
  capture  : Nat
  phase    : TaskPhase
  stage    : Nat
  /-- (server, work units left, work units used) at the present station -/
  work     : List (Nat × Nat × Nat)
  /-- work units that the task has used at each server in all (R101) -/
  spent    : List (Nat × Nat)
  /-- the live configuration word of the present station when the task entered it (R71) -/
  cfg      : Word
  status   : Nat
  invalid  : Bool
  stopping : Bool
  detail   : BitVec 32
  blocks   : List Nat
  waitPool : Option Nat
  /-- block requests of the present station still to be made: (bytes, Galley placement) (R162) -/
  want     : List (Nat × Bool)
  /-- has the task entered its present station -/
  entered  : Bool
  windows  : List Window
  inBytes  : List (Nat × List Byte)
  readsOut : Nat
  writesOut : Nat
  samples  : List Sample
  /-- the tiles that crossed the task's last segment, in their order (R41) -/
  tiles    : List Tile
  delta    : Option DeltaTask
  /-- moment at which the last output was in place (R98, R102) -/
  inPlace  : Option Nat
  readyBy  : Option Nat
  /-- counted late (R102), and held for a full completion ring (R140) -/
  late     : Bool
  heldFull : Bool
  /-- the decode or encode work of the task's sample -/
  dec      : Option DecPlan
  enc      : Option EncPlan
  /-- parts of a live post, the parts carried ahead of them, its KEEP parts, and what the fabric answered to their reads at
  taking (R185, R189) -/
  parts    : List (Nat × Nat)
  carried  : List (List Byte)
  keep     : List (Nat × Nat)
  keepData : Fetch
  /-- the handles whose metadata blocks the task reads: HOLD is set in their marks (R235, R259) -/
  holds    : List Nat
  /-- its live slot belongs to the port's binding of now: no quoin has unbound the port since (R193) -/
  bound    : Bool
  /-- context copies whose checkpoint of this boundary has not been answered (R452) -/
  ckptOut  : Nat
  /-- slots of which a copy was acknowledged, and slots of which one failed, at this boundary (R454) -/
  ckptOk   : List Nat
  ckptBad  : List Nat
  deriving DecidableEq, Repr

/-! ### Flow contexts -/

/-- Decode context of a flow (R224, R228, R230, R235, R246, R247): whether it awaits a random-access point, its broken
slots and its filled slots as Millrace sees them, whether its reconstruction awaits one, the frames of its slots, the frames that
the standard has not yet released (by output order), the output queue, the access units since the last random-access point, and whether
a sequence header has been seen (R248). -/
structure DecCtx where
  awaitRap : Bool
  reconAwait : Bool
  broken   : Nat
  filled   : Nat
  slots    : List (Option FrameBuf)
  wait     : List (Nat × FrameBuf)
  outQ     : List FrameBuf
  hist     : List (List Byte)
  header   : Bool
  deriving DecidableEq, Repr, Inhabited

/-- A chunk waiting for packet ring space (R277, R279). -/
structure Chunk where
  frame : Nat
  num   : Nat
  flags : Nat
  bytes : List Byte
  task  : Nat
  deriving DecidableEq, Repr

/-- Encode context of a flow (R265 to R284), with the pending control of its port (R264), and its packet ring (R277 to R280). -/
structure EncCtx where
  t0        : Option Nat
  tick      : Nat
  full      : Int
  rem       : Nat
  rate      : Nat
  gain      : List Nat
  prev      : List (Option (List Nat))
  sinceKey  : Nat
  sinceGold : Nat
  keyDue    : Bool
  coded     : Bool
  lastInter : Bool
  lastQ0    : Nat
  ctl       : PendCtl
  wrOff     : Nat
  rdOff     : Nat
  chunks    : List Chunk
  chunkOut  : Nat
  /-- handles of LAST and GOLDEN (R267, R269), the inputs coded since the last key frame, how many of them GOLDEN has, and the
  vectors of LAST's metadata block -/
  refs      : List (Option Nat)
  hist      : List (List Byte)
  goldAt    : Nat
  lastVecs  : List (Option Vec)
  deriving DecidableEq, Repr, Inhabited

/-- A resolved row or segment of an open Galley batch (R357). -/
structure RowRun where
  flow     : Nat
  ten      : Nat
  status   : Nat
  flags    : Nat
  logical  : Nat
  tokens   : Nat
  auxLen   : Nat
  recordId : Nat
  subIndex : Nat
  slug     : List Byte
  task     : Option Nat
  /-- the Riffle epoch of the row's sample (R325) -/
  epoch    : Nat
  /-- the pool of the block that a reserve copy holds (R364) -/
  pool     : Option Nat
  deriving DecidableEq, Repr

/-- A segment of a PACKED slug (R359): row, position, length, and its row data. -/
structure SegRun where
  row : Nat
  pos : Nat
  len : Nat
  run : RowRun
  toks : List Nat
  deriving DecidableEq, Repr

/-- A sample that reached Galley and has no row yet: itself, its task, its epoch, when it arrived (R361), and up to when
HOLD keeps its place open for a replacement (R363). -/
structure HeldSample where
  sample : Sample
  task   : Option Nat
  epoch  : Nat
  at_    : Nat
  limit  : Nat
  deriving DecidableEq, Repr

/-- MODE 0 Galley context of a flow (R356 to R364): e_next, the batch count, the rows of the open batch by row number
(TENSOR) or its segments (PACKED), the placement position, samples held, indices declared absent, a flush that waits,
and the overset reserve, newest first. -/
structure GalCtx where
  eNext   : Nat
  batch   : Nat
  rows    : List (Nat × RowRun)
  segs    : List SegRun
  segPos  : Nat × Nat × Nat
  held    : List HeldSample
  lastIn  : Option Nat
  absent  : Nat
  flushTo : Option Nat
  reserve : List RowRun
  deriving DecidableEq, Repr, Inhabited

/-- Stream occupancy of a streaming flow (R394). -/
structure StreamRun where
  stream : Nat
  active : Nat
  pend   : Option Nat
  deriving DecidableEq, Repr

/-- Delta context of a flow (R395 to R400, R405). -/
structure DltCtx where
  present   : Option Nat
  drained   : Bool
  needDone  : Nat
  gotDone   : Nat
  alt       : Bool
  streams   : List StreamRun
  staged    : Nat
  firstAt   : Option Nat
  delivered : Nat
  /-- next-layer tasks waiting for the present layer, in order of acceptance -/
  layerQ    : List Nat
  deriving DecidableEq, Repr, Inhabited

/-- Saved stateful Riffle state of one partition (R334). -/
structure RflPart where
  part  : Nat
  epoch : Nat
  k     : Nat
  x0    : Word
  x1    : Word
  deriving DecidableEq, Repr

/-- Run-time context of one live flow (R50, R97, R145, R190, R452, R458). -/
structure FlowRun where
  flow      : Nat
  sampleNext : Nat
  lastRel   : Option Nat
  suspended : Bool
  ckptSeq   : Nat
  /-- context slots whose last checkpoint failed in some copy, and in every copy (R454) -/
  degraded  : List Nat
  older     : List Nat
  dec       : DecCtx
  enc       : EncCtx
  gal       : GalCtx
  dlt       : DltCtx
  rfl       : List RflPart
  deriving DecidableEq, Repr, Inhabited

/-- Membership state of a running batch (R370). -/
inductive Membership where
  | out | joining | in_
  deriving DecidableEq, Repr

/-- A member of a running batch group (R369 to R371). -/
structure Member where
  flow   : Nat
  state  : Membership
  /-- the staged slug, whether its sample had text, and its task -/
  staged : Option (RowRun × Bool)
  prev   : Option RowRun
  row    : Nat
  leave  : Bool
  /-- the pool of the two blocks a joined member holds (R371) -/
  pool   : Option Nat
  deriving DecidableEq, Repr

/-- A running batch group (R369). -/
structure GroupRun where
  group     : Nat
  ten       : Nat
  step      : Nat
  assembling : Bool
  held      : Bool
  members   : List Member
  deriving DecidableEq, Repr

/-- A delivery unit (R382): a batch of a flow or group, or a sample of a flow without Galley. `asm`: bytes of Galley work
still to do; `left`: what is still to be written, as (die-local address, bytes); `held`: writes that the stagger holds;
`head`: the flow of its header, which its entry names (R367), while `flow` is the one whose settings it goes on under; `rows`: (task, status of its own sample, row); `holder`: the block that holds the image; `engine`: the mover engine of the
pieces in hand (R390). -/
structure BatchOut where
  key     : Nat
  flow    : Nat
  head    : Nat
  ten     : Nat
  batch   : Bool
  group   : Option Nat
  index   : Nat
  asm     : Nat
  left    : List (Nat × List Byte)
  held    : List (Nat × List Byte)
  writes  : Nat
  rows    : List (Nat × Nat × Nat)
  subst   : Nat
  masked  : Nat
  status  : Nat
  aborted : Bool
  started : Bool
  staggered : Bool
  holder  : Option Nat
  engine  : Nat
  release : Nat
  windows : List Window
  deriving DecidableEq, Repr

/-! ### Pools and frame buffers -/

/-- A bulk request waiting for a shared block (R167). -/
structure Waiter where
  task   : Nat
  flow   : Nat
  sample : Nat
  part   : Nat
  since  : Nat
  deriving DecidableEq, Repr

/-- A pool at run time: blocks held per flow, waiters, conditions in force (R165 to R171). -/
structure PoolRun where
  pool     : Nat
  held     : List (Nat × Nat)
  waiters  : List Waiter
  atWarn   : Bool
  atThrottle : Bool
  atStop   : Bool
  deriving DecidableEq, Repr

/-- A frame buffer handle in use, with its mark (R174, R175). -/
structure Handle where
  id     : Nat
  flow   : Nat
  blocks : List Nat
  ref    : Nat
  out    : Bool
  hold   : Bool
  deriving DecidableEq, Repr

/-- A bulk context (R145, R146): resident or out, blocked with an expected wake time (none = unknown), since when. -/
structure BerthCtx where
  flow     : Nat
  part     : Nat
  resident : Bool
  runnable : Bool
  wake     : Option Nat
  since    : Nat
  deriving DecidableEq, Repr

/-! ### Faults, clocks, power, guard -/

/-- Collector state of one fault source (R439, R441, R444). -/
structure SrcRun where
  source   : Nat
  level    : Nat
  window   : List Nat
  changed  : Nat
  since    : Nat
  rail     : Bool
  deriving DecidableEq, Repr

/-- What a start or a reset is doing (R480 to R487). -/
inductive Life where
  /-- AON_RST_N is low -/
  | cold
  /-- a cold start waits at step 6 for DELIVERED (R483) -/
  | coldWait
  /-- a start holds at step 8 while TMODE is asserted (R483) -/
  | testHold
  /-- INST_RST_N is low, or a warm reset has run its steps 1 to 3 (R484) -/
  | warmLow
  /-- a warm start waits for DELIVERED (R484 step 6) -/
  | warmWait
  /-- a start ended; READY says whether every condition of R18 held -/
  | up
  /-- halted (R442) -/
  | halted
  /-- the instance supplies are lost (R466) -/
  | noSupply
  deriving DecidableEq, Repr

/-- Retained memory (R488): part 1 the live merged forme with FRM_AMEND_COUNT and what admission derived from it,
part 2 the Kept settings, part 3 the boost bins. `none`: that part has no valid CRC. -/
structure Retained where
  part1 : Option (Forme × Nat × Nat)
  part2 : Option RegFile
  part3 : Option (List Nat)
  deriving DecidableEq, Repr

/-- Local time unit (R478, R479, R497): local time, how far TIME_BUS lies behind it, and the time since the last strobe,
if there was one since the last reset. -/
structure TimeRun where
  now      : Nat
  behind   : Nat
  since    : Option Nat
  deriving DecidableEq, Repr

/-- Clocks of the six domains (R472 to R475): wake requests, CLK_RUN, when the oldest unanswered request rose,
and the idle time. -/
structure ClkRun where
  wakeReq : List Bool
  running : List Bool
  askedAt : List (Option Nat)
  deriving DecidableEq, Repr

/-- A ceiling of a throttle reason: is it held, the fastest state it allows, and since when the reason is in force
(R413, R430). -/
structure Ceiling where
  held  : Bool
  state : Nat
  on    : Option Nat
  deriving DecidableEq, Repr

/-- A complement ramp: its start, RAMP_NS and G as they were then, and the next time point (R433). -/
structure Ramp where
  tr     : Nat
  ns     : Nat
  groups : Nat
  next   : Nat
  deriving DecidableEq, Repr

/-- PTC state (R412 to R433). -/
structure PtcRun where
  pstate    : Nat
  /-- THERM, EDC, CAP, ALERT, DROOP, EST in the order of R435 -/
  reasons   : List Ceiling
  fallback  : Bool
  /-- the voltage table in force (R415): V[p] words and the X word; none for the built-in table (R417) -/
  table     : Option (List Word × Word)
  /-- since when every ceiling allows state k (R414) -/
  allowedAt : List (Option Nat)
  vreq      : Option Nat
  vreqAt    : Nat
  stepTo    : Option Nat
  retryAt   : Option Nat
  voltage   : Nat
  band      : Nat
  tj        : Int
  /-- THERM: the TJ_BOOST ceiling, the TJ_MAX ceiling with the time of its last step, the TJ_CRIT ceiling (R419) -/
  thermBoost : Bool
  thermMax  : Option Nat
  tjMaxAt   : Option Nat
  thermCrit : Bool
  /-- VR_ALERT_N is low; the end of the hold after its last rise (R421) -/
  alertLow  : Bool
  alertEnd  : Option Nat
  droopAt   : Option Nat
  /-- EDC: timer in ns, the two ceilings, and since when the current is below TDC_A (R419, R420) -/
  edcTimer  : Nat
  edcPeak   : Option Nat
  edcLong   : Option Nat
  belowTdc  : Option Nat
  current   : Nat
  share     : Nat
  alloc     : List Nat
  rate      : Option Nat
  /-- since when state k fits the compute allocation with 5 % margin (R427) -/
  capFit    : List (Option Nat)
  capShort  : Bool
  capFloor  : Bool
  overCap   : Bool
  /-- bytes of deadline traffic since the last cap evaluation (R426) -/
  dlMoved   : Nat
  estWin    : List Nat
  measWin   : List Nat
  measAt    : Nat
  stale     : Bool
  agreeFrom : Option Nat
  scale     : Nat × Nat
  bins      : List Nat
  binAt     : Nat
  budgetOut : Bool
  /-- GRD_PWR_LIMITS, GRD_PWR_CLASS and GRD_PWR_ALERT as the last 10 µs evaluation took them (R436) -/
  limits    : List Word
  p0Since   : Option Nat
  p0Start   : Nat
  /-- complement: running, ramp, activity floor, and the last hint (R432, R433) -/
  comp      : Bool
  ramp      : Option Ramp
  floor     : Nat
  hintAt    : Nat
  /-- PTC_BOOST.LAST_MS and END -/
  lastMs    : Nat
  endWhy    : Nat
  deriving DecidableEq, Repr

/-- A bulk transaction that waits for tokens (R406). -/
structure WeirTxn where
  ten     : Nat
  op      : TxnOp
  addr    : Nat
  len     : Nat
  dies    : Nat
  data    : List Byte
  purpose : Purpose
  deriving DecidableEq, Repr

/-- Weir (R406): per-tenancy buckets, debt, deadline bytes of the cycle, rotation, and the bulk transactions that wait,
in order; and the bulk work each server has done per tenancy, (server, tenancy, units), for the shares of R100. -/
structure WeirRun where
  bucket  : List Nat
  debt    : Nat
  dlBytes : Nat
  rot     : Nat
  queue   : List WeirTxn
  served  : List (Nat × Nat × Nat)
  deriving DecidableEq, Repr

/-- An open stagger window (R401): t_r, RAMP_NS, GROUPS and the group words captured at its opening. -/
structure StagWin where
  tr    : Nat
  ramp  : Nat
  groups : Nat
  a     : Word
  b     : Word
  deriving DecidableEq, Repr

/-- A takeover in progress (R459): its start, the peer's area it reads, and the outcomes in re-admission order, as (flow,
tenancy, RESULT, CODE). -/
structure TkoRun where
  started : Nat
  area    : Nat
  entries : List (Nat × Nat × Nat × Nat)
  deriving DecidableEq, Repr

/-- A captured commit that has not been applied (R71). -/
structure Capture where
  region : Region
  regs   : RegFile
  deriving DecidableEq, Repr

/-- A control-space access that waits at its crossing: while QCLK is held in reset (R516), while the domain of its register is
stopped (R474), or behind such an access (R517). `v`, `fetch`: what a write brings. -/
structure HeldAccess where
  req   : CsReq
  off   : Nat
  len   : Nat
  write : Bool
  v     : Word
  fetch : Fetch
  deriving DecidableEq, Repr

/-- The response words of the last guard port transaction (R501): status and, for a READ, data. -/
structure GuardResp where
  status : Nat
  data   : Option Word
  deriving DecidableEq, Repr

/-- The state of one instance. -/
structure State where
  /-- waiting commands, first in first out -/
  pending  : List Instr
  /-- live copies of every register -/
  regs     : RegFile
  /-- shadow copies of the RWS registers (R8, R10) -/
  shadow   : RegFile
  captures : List Capture
  resp     : CsResp
  /-- accesses that wait for the release of QCLK -/
  heldCs   : List HeldAccess
  life     : Life
  ready    : Bool
  lastStart : Nat
  retainedOk : Bool
  testMode : Bool
  credits  : Nat
  forme    : Forme
  amends   : Nat
  adm      : List FlowAdm
  servers  : List ServerAdm
  job      : Option Job
  retaining : Bool
  retained : Retained
  tens     : List TenRun
  pushRot  : Nat
  sqs      : List SqRing
  cqs      : List CqRing
  scanRot  : Nat
  ports    : List PortRun
  due      : List DueEntry
  tasks    : List Task
  nextTask : Nat
  flows    : List FlowRun
  groups   : List GroupRun
  batches  : List BatchOut
  nextBatch : Nat
  pools    : List PoolRun
  handles  : List Handle
  berths   : List BerthCtx
  /-- the context that is being swapped in, and since when (R148) -/
  swapBusy : Option (Nat × Nat × Nat)
  /-- swaps decided meanwhile, in order: (flow, partition) out and in (R148) -/
  swapQueue : List ((Nat × Nat) × (Nat × Nat))
  txns     : List Txn
  nextTag  : Nat
  /-- link CRC failures of the flit that a port is replaying (R508) -/
  crcFails : List (Nat × Nat)
  srcs     : List SrcRun
  /-- fault events raised in this step and not yet acted on (R441) -/
  raised   : List (Nat × FaultInfo)
  /-- logical lanes and engines of the live forme that are fenced without a replacement, and other fenced units (R456, R458) -/
  fencedLanes   : List Nat
  fencedEngines : List Nat
  fencedUnits   : List FenceUnit
  lanesGood     : Nat
  entropyGood   : Nat
  selfFail : Bool
  time     : TimeRun
  clk      : ClkRun
  ptc      : PtcRun
  weir     : WeirRun
  /-- reads and writes that a mover engine has in flight, and those that wait for its limits, in order (R390) -/
  dltOut   : List (Nat × Purpose)
  dltQueue : List (Nat × Bool × WeirTxn)
  stagger  : Option StagWin
  tko      : Option TkoRun
  /-- live flows that were taken over from the peer (R30) -/
  taken    : List Nat
  peerSeen : Bool
  peerAt   : Nat
  aliveOn  : Bool
  alive    : Bool
  aliveAt  : Nat
  instLow  : Bool
  /-- the fabric's answers to the fetches of the start that runs -/
  startFetch : Fetch
  tmode    : Bool
  repair   : List (BitVec 32)
  guardResp : GuardResp
  /-- last VREQ sent on PM_OUT, and the newest SHARE, MEAS and VACK that wait for the release of QCLK (R499) -/
  pmOut    : Option Nat
  pmHeld   : Option Nat × Option Nat × Option Nat
  /-- what the home copies in package memory hold: (SEQ, context), newest first (R452) -/
  saved    : List (Nat × FlowRun)
  /-- checkpoint areas in force since the last quoin point (R450, R471) -/
  ckptAreas : Option Nat × Option Nat
  /-- SEQ of the last takeover image written (R451) -/
  imageSeq : Nat
  katDue   : Option (Nat × Nat × Nat × Nat × Nat × Nat)
  /-- bulk work of the 1 ms window by station: served, and dropped while it waited (R105) -/
  window1ms : List (Nat × Nat × Nat)
  /-- what counters in larger units have not yet counted, by field: (offset, lowest bit, remainder) -/
  frac     : List (Nat × Nat × Nat)
  /-- the model's own counter of free values (Config) -/
  free     : Nat
  deriving DecidableEq, Repr

/-- Why a step can stop with a fault. -/
inductive Fault where
  /-- Raised by no command: the spec gives an effect to every command on every state. The host's interface asks for
  the type. Safe. -/
  | none_
  deriving DecidableEq, Repr

/-- Why a command can be refused. -/
inductive Refusal where
  /-- Raised by exec for a command that has no meaning in the model yet. Safe: the machine stops. -/
  | notModelled (mnemonic : String)
  deriving DecidableEq, Repr

/-- A ceiling not in force. -/
def Ceiling.off : Ceiling := ⟨false, 0, none⟩

/-- PTC right after a cold reset (R412, R424, R434). -/
def PtcRun.reset : PtcRun :=
  { pstate := 4, reasons := List.replicate 6 Ceiling.off, fallback := false, table := none,
    allowedAt := List.replicate 5 none, vreq := none, vreqAt := 0, stepTo := none, retryAt := none,
    voltage := 0, band := 0, tj := 0, thermBoost := false, thermMax := none, tjMaxAt := none, thermCrit := false,
    alertLow := false, alertEnd := none, droopAt := none, edcTimer := 0, edcPeak := none, edcLong := none,
    belowTdc := none, current := 0, share := 1920, alloc := [0, 0, 0], rate := none, capFit := List.replicate 5 (some 0),
    capShort := false, capFloor := false, overCap := false, dlMoved := 0, estWin := [], measWin := [], measAt := 0,
    stale := false, agreeFrom := none, scale := (1, 1), bins := List.replicate 60 0, binAt := 0, budgetOut := false,
    limits := [], p0Since := none, p0Start := 0, comp := false, ramp := none, floor := 0, hintAt := 0, lastMs := 0, endWhy := 0 }

/-- Weir with empty buckets (R406). -/
def WeirRun.reset : WeirRun :=
  { bucket := List.replicate 16 0, debt := 0, dlBytes := 0, rot := 0, queue := [], served := [] }

/-- The machine right after reset: AON_RST_N is low (R480), every register holds its Reset value (R11), the pins are
in their reset state (R494), the blank forme stands (R74, R78), nothing is queued. -/
def State.reset : State :=
  { pending := [], regs := [], shadow := [], captures := [], resp := ⟨0, 0⟩, heldCs := [], life := .cold, ready := false,
    lastStart := 0, retainedOk := false, testMode := false, credits := 0, forme := Forme.blank, amends := 0, adm := [],
    servers := [], job := none, retaining := false, retained := ⟨none, none, none⟩,
    tens := List.replicate 16 ⟨[], []⟩, pushRot := 0, sqs := [], cqs := [], scanRot := 0, ports := [], due := [],
    tasks := [], nextTask := 0, flows := [], groups := [], batches := [], nextBatch := 0, pools := [], handles := [],
    berths := [], swapBusy := none, swapQueue := [], txns := [], nextTag := 0, crcFails := [], srcs := [], raised := [], fencedLanes := [], fencedEngines := [],
    fencedUnits := [], lanesGood := 0, entropyGood := 0, selfFail := false,
    time := ⟨0, 0, none⟩,
    clk := ⟨[false, false, false, false, false, true], List.replicate 6 false, List.replicate 6 none⟩,
    ptc := PtcRun.reset, weir := WeirRun.reset, dltOut := [], dltQueue := [], stagger := none, tko := none, taken := [], peerSeen := false,
    peerAt := 0, aliveOn := false, alive := false, aliveAt := 0, instLow := false, startFetch := [], tmode := false, repair := [],
    guardResp := ⟨0, none⟩, pmOut := none, pmHeld := (none, none, none), saved := [], ckptAreas := (none, none), imageSeq := 0, katDue := none, window1ms := [], frac := [], free := 0 }

end Sys2Proof.Machine
end

