-- ==== Sys2Proof/Machine/Admission.lean ====
section
/-! DEFINITION. The admission phase (R85 to R96, R115, R160, R161): work units and costs of each flow, the server test,
quotas, berths, Galley memory, lane SRAM and pool reservations. -/

namespace Sys2Proof.Machine

/-- A value of a table by index, 0 past its end. -/
def nth (l : List Nat) (i : Nat) : Nat := l.getD i 0

/-- Sum of a list. -/
def sumL (l : List Nat) : Nat := l.foldl (· + ·) 0

/-- Largest of a list, 0 when empty. -/
def maxL (l : List Nat) : Nat := l.foldl max 0

/-- PCLK in MHz by P-state (R412). -/
def pclkMhz (p : Nat) : Nat := nth [2700, 2400, 1900, 1400, 800] p

/-- ECLK in MHz by P-state (R412). -/
def eclkMhz (p : Nat) : Nat := nth [1800, 1600, 1270, 930, 530] p

/-- Frequency of a station's domain in MHz at a P-state (R21, R36). -/
def stationMhz (st p : Nat) : Nat :=
  if st = 3 then eclkMhz p else if 4 ≤ st ∧ st ≤ 8 then pclkMhz p else 2000

/-- A kind of the station cost table: rate per µs, fixed ns, section ns (0 where derived), station, unit code,
whether it scales (R90, R109). -/
structure Kind where
  rate    : Nat
  fixed   : Nat
  sect    : Nat
  station : Nat
  unit    : Nat
  scales  : Bool
  deriving DecidableEq, Repr

/-- The station cost table (R90). -/
def costTable : List Kind := [
  ⟨512000, 100, 129, 1, 1, false⟩, ⟨8000, 200, 8192, 2, 1, false⟩, ⟨3200, 2000, 0, 3, 2, true⟩,
  ⟨3200, 2000, 0, 3, 2, true⟩, ⟨2400, 500, 0, 5, 3, true⟩, ⟨2400, 0, 0, 5, 4, true⟩, ⟨2400, 200, 0, 6, 3, true⟩,
  ⟨2400, 200, 0, 7, 3, true⟩, ⟨19200, 200, 3414, 7, 1, true⟩, ⟨614400, 300, 107, 8, 1, true⟩,
  ⟨6400000, 1000, 11, 9, 1, false⟩, ⟨512000, 100, 129, 10, 1, false⟩]

/-- Kind of the cost table by number. -/
def kindAt (k : Nat) : Kind := costTable.getD k ⟨1, 0, 0, 0, 0, false⟩

/-- Lanes of a logical group, with any role (R49). -/
def laneCount (f : Forme) (g : Nat) : Nat := (f.lanes.filter (fun l => l.role != 0 && l.group == g)).length

/-- Role of a lane group: 0 when nothing is imposed. -/
def groupRole (f : Forme) (g : Nat) : Nat :=
  match f.lanes.find? (fun l => l.role != 0 && l.group == g) with | some l => l.role | none => 0

/-- Engines assigned to a direction: 1 decode, 2 encode (R49). -/
def engineCount (f : Forme) (dir : Nat) : Nat := (f.engines.filter (· == dir)).length

/-- Kind of a server (R89, R90). -/
def serverKind (f : Forme) (v : Nat) : Nat :=
  if v < 0x20 then nth [0, 4, 6, 7] (groupRole f v)
  else if v = 0x20 then 0 else if v = 0x21 then 1 else if v = 0x22 then 2 else if v = 0x23 then 3
  else if v = 0x24 then 5 else if v = 0x25 then 8 else if v = 0x26 then 9 else if v = 0x27 then 10 else 11

/-- Station of a server; 0 for a lane group that is not imposed. -/
def serverStation (f : Forme) (v : Nat) : Nat :=
  if v < 0x20 ∧ groupRole f v = 0 then 0 else (kindAt (serverKind f v)).station

/-- Units n of a server under the imposition (R89). -/
def serverUnits (f : Forme) (v : Nat) : Nat :=
  if v < 0x20 then laneCount f v
  else if v = 0x21 then 16 else if v = 0x22 then engineCount f 1 else if v = 0x23 then engineCount f 2
  else if v = 0x24 then 32 else if v = 0x25 then 4 else 1

/-! ### Work of a flow -/

/-- Lane cycles per position of a decode flow (R250). -/
def decCost (e : DecEntry) : Nat :=
  let best := fun (a b c d : Nat) => max (max (if bit e.chroma 0 then a else 0) (if bit e.chroma 1 then b else 0))
    (max (if bit e.chroma 2 then c else 0) (if bit e.chroma 3 then d else 0))
  let side := if e.sideMask == 0 then 0 else 1
  if e.codec == 1 then best 8 12 0 20 + (if bit e.flags 1 then 2 else 0) + side
  else if e.codec == 2 then best 8 12 16 20 + side
  else if e.codec == 3 then best 7 10 0 0 + side
  else if e.codec == 4 then best 2 3 4 5 + (if bit e.flags 2 then 2 else 0)
  else 2 + (if bit e.flags 2 then 1 else 0)

/-- Trim's source is YCbCr (R318): a decode entry of CODEC 1 to 4. -/
def ycbcrSource (d : Option DecEntry) : Bool := match d with | some e => decide (e.codec ≤ 4) | none => false

/-- Trim's source has alpha: a PNG entry with ALPHA. -/
def alphaSource (d : Option DecEntry) : Bool := match d with | some e => e.codec == 5 && bit e.flags 3 | none => false

/-- Planes that Trim resizes (R318). -/
def trimPlanes (d : Option DecEntry) (t : TrimSettings) : Nat :=
  (if t.outCh == 1 && ycbcrSource d then 1 else 3) + (if alphaSource d || t.outCh == 4 then 1 else 0)

/-- Rotation by 90° or 270° may be drawn. -/
def TrimSettings.turns (t : TrimSettings) : Bool := bit t.rotSet 0 || bit t.rotSet 2

/-- Lane cycles of a flow at Trim (R318). -/
def trimWork (cs : List CodecEntry) (f : FlowEntry) (t : TrimSettings) : Nat :=
  let d := decOf cs f.flow
  let fr := clipFrames cs f.flow
  let tw := if t.turns then max f.outW f.outH else f.outW
  let th := if t.turns then max f.outW f.outH else f.outH
  let taps := if t.filter == 2 then t.taps else 2
  let k := 2 + (if bit t.flags 2 then 2 else 0) + (if bit t.flags 3 then 3 else 0) + (if t.round == 1 then 1 else 0) +
    (if fmtBlock f.outFormat then 1 else 0)
  ceilDiv (fr * trimPlanes d t * taps * (tw * (f.maxH + 8) + tw * th)) 128 +
    ceilDiv (fr * t.outCh * f.outW * f.outH * k) 16

/-- Work of a flow at one server (R89 to R91): the server, its station, the work x, width p, units n, server time c,
wall time w, section; `slot` marks the server that LKP_WORK lists for the station (R112). -/
structure Cost where
  server  : Nat
  station : Nat
  kind    : Nat
  x       : Nat
  p       : Nat
  n       : Nat
  c       : Nat
  w       : Nat
  sect    : Nat
  slot    : Bool
  multi   : Bool
  deriving DecidableEq, Repr

/-- R91 for work x of width p at a server of kind k with n units, at P-state ps. The section of a lane server takes the x of
that server, also where a flow's work is shared among groups, as R91 writes it; R250 writes 4,096 × c. DEDUCED, log entry 78. -/
def mkCost (f : Forme) (fl : FlowEntry) (ps v x p n : Nat) (slot multi : Bool) : Cost :=
  let k := serverKind f v
  let kd := kindAt k
  let f1 := if kd.scales then stationMhz kd.station 1 else 1
  let fp := if kd.scales then stationMhz kd.station ps else 1
  let num := f1 * (p * kd.fixed * kd.rate + 1000 * x)
  let sect :=
    if k = 2 ∨ k = 3 then
      ceilDiv (f1 * (kd.fixed * kd.rate + 1000 * ceilDiv fl.cls.bins (max 1 fl.cls.entropyPar))) (kd.rate * fp)
    else if 4 ≤ k ∧ k ≤ 7 then ceilDiv (4096 * x * 1000 * f1) (max 1 fl.cls.pixels * kd.rate * fp)
    else ceilDiv (kd.sect * f1) fp
  ⟨v, kd.station, k, x, p, n, ceilDiv num (kd.rate * fp * max 1 n), ceilDiv num (max 1 p * kd.rate * fp), sect, slot,
    multi⟩

/-- The lane groups of a flow at a lane station, with the work divided evenly, each share rounded up to a whole unit (R89).
The rounding is DEDUCED, log entry 78. -/
def laneCosts (f : Forme) (units : Nat → Nat) (fl : FlowEntry) (ps st x : Nat) : List Cost :=
  let gs := groupsOf f.lanes fl.groupMask (laneRole st)
  let k := gs.length
  (List.range k).map (fun i =>
    let g := nth gs i
    let n := units g
    mkCost f fl ps g (ceilDiv x (max 1 k)) (min (ceilDiv fl.partitions (max 1 k)) n) n (i == 0) (decide (1 < k)))

/-- One server of a station that is not a lane group. -/
def oneCost (f : Forme) (units : Nat → Nat) (fl : FlowEntry) (ps v x p : Nat) : List Cost :=
  [mkCost f fl ps v x p (units v) true false]

/-- Work of a flow at one station of its path (R212, R250, R251, R286, R318, R374, R408), with `units` in each server. -/
def stationCosts (f : Forme) (units : Nat → Nat) (fl : FlowEntry) (ps st : Nat) : List Cost :=
  let dec := decOf f.codecs fl.flow
  let enc := encOf f.codecs fl.flow
  let ep := fl.cls.entropyPar
  if st = 1 then oneCost f units fl ps 0x20 fl.cls.bytesIn 1
  else if st = 2 then
    (if bit fl.entryMask 0 then oneCost f units fl ps 0x21 fl.cls.bytesIn 1
     else if bit fl.entryMask 1 then oneCost f units fl ps 0x21 (min fl.cls.bytesIn 262144) 1 else [])
  else if st = 3 then
    (match dec with
      | some e => oneCost f units fl ps 0x22 (fl.cls.bins + (e.maxAu - 1) * ep * 6400) (min ep (units 0x22))
      | none => []) ++
    (match enc with
      | some _ => oneCost f units fl ps 0x23 fl.cls.bins (min ep (units 0x23))
      | none => [])
  else if st = 5 then
    (match dec with
      | some e => laneCosts f units fl ps 5 (fl.cls.pixels * decCost e)
      | none => []) ++
    (match enc with
      | some e => laneCosts f units fl ps 5 (fl.cls.pixels * (if e.depth == 8 then 10 else 12)) ++
          oneCost f units fl ps 0x24 (fl.cls.pixels * (2 + e.searchRange / 4)) (min fl.partitions 32)
      | none => [])
  else if st = 6 then
    (match fl.trim with
      | some t => laneCosts f units fl ps 6 (trimWork f.codecs fl t)
      | none => [])
  else if st = 7 then
    (match fl.patch with
      | some _ => laneCosts f units fl ps 7 (ceilDiv (fl.outC * fl.outH * fl.outW) 16)
      | none => []) ++
    (match fl.text with
      | some t => oneCost f units fl ps 0x25 (fl.cls.textBytes * (if t.kind == 1 then 2 else 2 + ceilDiv t.preMax 32)) 1
      | none => [])
  else if st = 8 then
    (match fl.galley with
      | some g => oneCost f units fl ps 0x26 ((if g.mode == 0 then 2 else g.rows + 1) * slugSize fl g + 256) 1
      | none => [])
  else if st = 9 then oneCost f units fl ps 0x27 fl.cls.deltaBytes 1
  else if st = 0x0A then oneCost f units fl ps 0x28 fl.cls.bytesOut 1
  else []

/-- Every server of a flow in path order. -/
def flowCosts (f : Forme) (units : Nat → Nat) (fl : FlowEntry) (ps : Nat) : List Cost :=
  (fl.path.map (fun st => stationCosts f units fl ps st)).flatten

/-- Timed stations of a path: every station but Millpond (R92). -/
def timedOf (fl : FlowEntry) : List Nat := fl.path.filter (· != 4)

/-- Wall time of a station: the sum over its servers (R91). -/
def wallOf (cs : List Cost) (st : Nat) : Nat := sumL ((cs.filter (fun c => c.station == st)).map (·.w))

/-- Local deadlines (R92): (station, W, d), the last timed station taking the remainder of the slack. -/
def localsOf (fl : FlowEntry) (cs : List Cost) : List (Nat × Nat × Nat) :=
  let ts := timedOf fl
  let k := ts.length
  let sw := sumL (ts.map (wallOf cs))
  let slack := fl.deadlineNs - sw
  (List.range k).map (fun i =>
    let st := nth ts i
    let w := wallOf cs st
    (st, w, w + slack / max 1 k + (if i + 1 == k then slack % max 1 k else 0)))

/-- Local deadline of a flow at a station. -/
def localAt (ls : List (Nat × Nat × Nat)) (st : Nat) : Nat :=
  match ls.find? (fun l => l.1 == st) with | some l => l.2.2 | none => 0

/-- seg() of an incoming segment (R91). -/
def segTime (f : Forme) (a b ps : Nat) : Nat :=
  let width := match f.segs.find? (fun s => s.src == a && s.dst == b) with | some s => 64 * 2 ^ s.width | none => 64
  ceilDiv (ceilDiv 65568 width * 1000) (stationMhz a ps)

/-! ### The server test -/

/-- A flow taken by the admission phase. -/
structure Taken where
  fl     : FlowEntry
  costs  : List Cost
  locals : List (Nat × Nat × Nat)
  deriving DecidableEq, Repr

/-- Cost of a taken flow at a server. -/
def Taken.at (t : Taken) (v : Nat) : Option Cost := t.costs.find? (fun c => c.server == v)

/-- Left-hand side of R93 as (Σ c/T, B / D_min), each quotient rounded up to a multiple of 2^−32; none for a server
with no deadline flow. -/
def serverSum (f : Forme) (ps : Nat) (ts : List Taken) (v : Nat) : Option (Nat × Nat) :=
  let on := ts.filterMap (fun t => (t.at v).map (fun c => (t, c)))
  let dl := on.filter (fun x => x.1.fl.deadline)
  if dl.isEmpty then none else
  let st := serverStation f v
  let d := fun (x : Taken × Cost) => localAt x.1.locals st
  let sumQ := sumL (dl.map (fun x => ceilDiv (x.2.c * 2 ^ 32) (max 1 (min x.1.fl.periodNs (d x)))))
  let dmin := (dl.map d).foldl min (match dl with | x :: _ => d x | [] => 0)
  let sect := maxL (on.map (fun x => x.2.sect))
  let segs := maxL ((ts.filter (fun t => t.fl.deadline)).map (fun t =>
    match (pathPairs t.fl.path).find? (fun ab => ab.2 == st) with
    | some ab => segTime f ab.1 ab.2 ps
    | none => 0))
  some (sumQ, ceilDiv ((sect + segs) * 2 ^ 32) (max 1 dmin))

/-- The test of R93, compared exactly with 0.95. -/
def serverPasses (s : Option (Nat × Nat)) : Bool :=
  match s with
  | none => true
  | some (q, b) => decide (20 * (q + b) ≤ 19 * 2 ^ 32)

/-- Servers in the order in which a failure is looked for: the added flow's path order, then the rest. -/
def serverOrder (cs : List Cost) : List Nat :=
  let mine := cs.map (·.server)
  mine ++ (List.range 0x29).filter (fun v => !mine.contains v)

/-! ### Berths, Galley memory, lane SRAM, pools -/

/-- Pinned berths of a flow (R95). -/
def pinnedOf (cs : List CodecEntry) (fl : FlowEntry) : Nat :=
  if fl.deadline then fl.partitions + (cs.filter (fun k => k.flow == fl.flow)).length else 0

/-- Codec settings entries that name a flow. -/
def codecsOf (cs : List CodecEntry) (fl : FlowEntry) : Nat := (cs.filter (fun k => k.flow == fl.flow)).length

/-- Millpond bytes (R229): width, height, grid unit, mode bytes, Q, engines E, stripe bins, bins, frames ahead. -/
def millpondBytes (w h g mode q e stripe bins lead : Nat) : Nat :=
  let s := mode * ceilDiv w 8 * (g / 8) + q * stripe
  let fr := mode * ceilDiv w 8 * ceilDiv h 8 + q * bins
  roundUp (2 * e * s + lead * fr) 65536

/-- Millpond of a flow (R229, R282). -/
def millpondOf (f : Forme) (fl : FlowEntry) : Nat :=
  let ep := fl.cls.entropyPar
  (match decOf f.codecs fl.flow with
    | some e =>
      let g := nth [0, 128, 64, 16, 16, 64] e.codec
      let q := if e.codec == 4 then 16 else 1
      let mode := if e.codec ≤ 3 then 16 else 0
      millpondBytes fl.maxW fl.maxH g mode q (min ep (engineCount f 1)) e.stripeBins fl.cls.bins e.lead
    | none => 0) +
  (match encOf f.codecs fl.flow with
    | some e => millpondBytes e.picW e.picH e.grid 16 1 (min ep (engineCount f 2)) e.stripeBins fl.cls.bins e.trail
    | none => 0)

/-- Galley memory of the Galley-placed pools (R160). -/
def galleyPools (f : Forme) : Nat :=
  sumL ((f.defs.filter (fun d => d.place == 0)).map (fun d => d.blocks * blockBytes d.cls))

/-- Galley memory. -/
def galleyBytes : Nat := 268435456

/-- Microcode bytes of a station in the forme. -/
def microBytes (f : Forme) (st : Nat) : Nat := sumL ((f.micro.filter (fun m => m.station == st)).map (·.length))

/-- Bank bytes of a flow's Trim settings (R291). -/
def bankBytes (fl : FlowEntry) : Nat :=
  match fl.trim with | some t => t.banks.length * (8 + 128 * t.taps) | none => 0

/-- SRAM of a lane of group g: microcode and, at Trim, 256 KiB and the banks of the flows it serves (R316). -/
def laneSram (f : Forme) (fls : List FlowEntry) (g : Nat) : Nat :=
  let st := nth [0, 5, 6, 7] (groupRole f g)
  microBytes f st + (if st = 6 then
    262144 + sumL ((fls.filter (fun fl => fl.has 6 && bit fl.groupMask g)).map bankBytes) else 0)

/-- The pool that serves a request of a flow (R162): smallest class that holds the bytes, in Galley memory when
`galley` asks for it and such a pool is claimed and holds the bytes, else in package memory. -/
def poolFor (claims : List PoolClaim) (fl bytes : Nat) (galley : Bool) : Option Nat :=
  let mine := (claims.filter (fun k => k.flow == fl)).map (·.pool)
  let fits := fun (base : Nat) =>
    (List.range 16).find? (fun k => mine.contains (base + k) && decide (bytes ≤ blockBytes k))
  match (if galley && decide (bytes ≤ 1048576) then fits 0 else none) with
  | some k => some k
  | none => (fits 16).map (· + 16)

/-- A plane in parts of at most 128 MiB (R234, R316). -/
def partsOf (bytes : Nat) : List Nat :=
  let full := bytes / 134217728
  List.replicate full 134217728 ++ (if bytes % 134217728 = 0 then [] else [bytes % 134217728])

/-- Blocks of a video frame buffer (R234): chroma in halves of luma: 0, 1, 2 or 4 halves. -/
def frameBlocks (w h : Nat) (deep : Bool) (chromaHalves : Nat) : List Nat :=
  let luma := w * h * (if deep then 2 else 1)
  partsOf luma ++ partsOf (ceilDiv (luma * chromaHalves) 2) ++ [16 * ceilDiv w 8 * ceilDiv h 8 + 65536]

/-- Chroma halves of the highest chroma format that a mask accepts (R234). -/
def chromaHalves (mask : Nat) : Nat := if bit mask 3 then 4 else if bit mask 2 then 2 else if bit mask 1 then 1 else 0

/-- Coefficients of every component of a JPEG picture, whole MCUs, by chroma format 0 to 3 (R223). -/
def jpegCoefs (w h chroma : Nat) : Nat :=
  let mw := if chroma = 1 ∨ chroma = 2 then 16 else 8
  let mh := if chroma = 1 then 16 else 8
  ceilDiv w mw * ceilDiv h mh * nth [64, 384, 256, 192] chroma

/-- Highest chroma format that a mask accepts. -/
def topChroma (mask : Nat) : Nat := if bit mask 3 then 3 else if bit mask 2 then 2 else if bit mask 1 then 1 else 0

/-- Scratch of the largest progressive picture of an entry: JPEG 2 bytes per coefficient, PNG the raw image (R223). -/
def scratchBytes (e : DecEntry) (w h : Nat) : Nat :=
  if e.codec == 4 then 2 * jpegCoefs w h (topChroma e.chroma)
  else w * h * (if e.maxDepth == 16 then 2 else 1) * 4

/-- Trim's blocks for one sample: a band block, or the whole target plane (R316). -/
def trimBlocks (cs : List CodecEntry) (fl : FlowEntry) (t : TrimSettings) (whole : Bool) : List Nat :=
  let tw := if t.turns then max fl.outW fl.outH else fl.outW
  let th := if t.turns then max fl.outW fl.outH else fl.outH
  let one := if whole then partsOf (tw * th * 2) else [tw * 80 * 2]
  (List.replicate (trimPlanes (decOf cs fl.flow) t) one).flatten

/-- The blocks that a deadline flow's reservations must cover (R236, R259, R316, R375): size, and whether Galley memory is
asked for. Platen and Trim ask for package memory, Galley for Galley memory. -/
def neededBlocks (f : Forme) (all : List FlowEntry) (fl : FlowEntry) : List (Nat × Bool) :=
  let rep := fun (n : Nat) (l : List Nat) => (List.replicate n l).flatten
  let lanes :=
  (match decOf f.codecs fl.flow with
    | some e =>
      if e.codec ≤ 3 then
        rep (if e.mode == 0 then e.refSlots + e.outDepth + 1 else e.refSlots + e.clipFrames + 1)
          (frameBlocks fl.maxW fl.maxH (decide (8 < e.maxDepth)) (chromaHalves e.chroma))
      else if bit e.flags 2 then partsOf (scratchBytes e fl.maxW fl.maxH) else []
    | none => []) ++
  (match encOf f.codecs fl.flow with
    | some e => rep (e.refFrames + 2) (frameBlocks e.picW e.picH (decide (8 < e.depth)) 1)
    | none => []) ++
  (match fl.trim with
    | some t =>
      let band := trimBlocks f.codecs fl t false
      let whole := trimBlocks f.codecs fl t true
      let useWhole := (t.rotSet != 0 || bit t.flags 1) && decide (sumL band ≤ sumL whole)
      rep fl.depth (if useWhole then whole else band)
    | none => [])
  lanes.map (fun b => (b, false)) ++
  (match fl.galley with
    | some g =>
      let sb := slugSize fl g
      (if g.mode == 0 then rep fl.depth [imageSize fl g] ++ rep g.oversetDepth [sb]
      else [sb, sb] ++ (if (groupMembers all g.group).all (fun m => fl.flow ≤ m.1.flow) then
        [imageSize fl g, imageSize fl g] else [])).map (fun b => (b, true))
    | none => [])

/-- The flow's reservations cover the blocks that its stations require (R161). -/
def reservesOk (f : Forme) (all : List FlowEntry) (fl : FlowEntry) : Bool :=
  let need := (neededBlocks f all fl).map (fun b => poolFor f.claims fl.flow b.1 b.2)
  need.all Option.isSome &&
  (List.range 32).all (fun p => decide ((need.filter (· == some p)).length ≤
    sumL ((f.claims.filter (fun k => k.flow == fl.flow && k.pool == p)).map (·.reserve))))

/-! ### The checks in order (R94) -/

/-- A (active lanes) and E (assigned engines) of a forme. -/
def activeLanes (f : Forme) : Nat := (f.lanes.filter (fun l => l.role != 0)).length

/-- E of a forme. -/
def assignedEngines (f : Forme) : Nat := (f.engines.filter (· != 0)).length

/-- Spare lanes S (R54). -/
def spareLanes (a : Nat) : Nat := if a ≤ 64 then ceilDiv a 16 else if a ≤ 96 then ceilDiv a 12 else ceilDiv a 8

/-- Spare engines (R54). -/
def spareEngines (e : Nat) : Nat := if 1 ≤ e then 4 else 0

/-- The spare rule (R54, R55). -/
def spareOk (f : Forme) (lanes engines : Nat) : Bool :=
  decide (activeLanes f + spareLanes (activeLanes f) ≤ lanes) &&
  (assignedEngines f == 0 || decide (assignedEngines f + 4 ≤ engines))

/-- A refusal of the admission phase. -/
def refusal (code : Nat) (fl : Option (Nat × Nat)) (st : Option Nat) (sec : Nat) : RefusalRec :=
  ⟨code, fl, st, sec, 0, none⟩

/-- Tenancy quotas of the flow being added (R115). -/
def quotaOk (f : Forme) (taken : List FlowEntry) (ten : Nat) : Bool :=
  let t := f.tens.getD ten TenEntry.blank
  let mine := taken.filter (fun x => x.ten == ten)
  t.enabled && mine.length ≤ t.maxFlows && (mine.filter (·.deadline)).length ≤ t.maxDeadline &&
  sumL (mine.map (pinnedOf f.codecs)) ≤ t.maxBerths && sumL (mine.map (codecsOf f.codecs)) ≤ t.maxCodec &&
  sumL ((mine.filter (·.deadline)).map (·.depth)) ≤ t.maxTasks &&
  sumL ((f.claims.filter (fun k => mine.any (fun x => x.flow == k.flow))).map
    (fun k => k.reserve * blockBytes (k.pool % 16))) ≤ t.maxReserve * 4096

/-- The station with the largest W, the first on the path on a tie. -/
def worstStation (ls : List (Nat × Nat × Nat)) : Nat :=
  (ls.foldl (fun (b : Nat × Nat) l => if b.2 < l.2.1 then (l.1, l.2.1) else b) (0, 0)).1

/-- Galley memory of the flows taken (R94 step 6): Millponds and image caches, and for a full forme its pools (R160). -/
def galleyUse (f : Forme) (full : Bool) (taken : List FlowEntry) : Nat :=
  (if full then galleyPools f else 0) + sumL (taken.map (millpondOf f)) + 2097152 * (imagesUsed f.images taken).length

/-- Steps 2 to 7 of R94 for one added flow. A Galley memory failure of step 6 names the Millpond when the flow has one and
Galley otherwise: R94 offers both. DESIGN CHOICE, log entry 78. -/
def admitOne (f : Forme) (full : Bool) (ps : Nat) (all : List FlowEntry) (ts : List Taken) (fl : FlowEntry) :
    Except RefusalRec (List Taken) :=
  let cs := flowCosts f (serverUnits f) fl ps
  let ls := if fl.deadline then localsOf fl cs else []
  let ts' := ts ++ [⟨fl, cs, ls⟩]
  let taken := ts'.map (·.fl)
  let who := some (fl.flow, fl.ten)
  let sw := sumL ((timedOf fl).map (wallOf cs))
  if !quotaOk f taken fl.ten then .error (refusal 0x09 who none 3)
  else if fl.deadline && decide (fl.deadlineNs < sw) then .error (refusal 0x04 who (some (worstStation ls)) 3)
  else match (serverOrder cs).find? (fun v => !serverPasses (serverSum f ps ts' v)) with
  | some v =>
    let (q, b) := (serverSum f ps ts' v).getD (0, 0)
    .error { refusal 0x01 who (some (serverStation f v)) 3 with
      server := some (v, min 0xFFFFFF (ceilDiv (q + b) 65536)) }
  | none =>
    if 7168 < sumL (taken.map (pinnedOf f.codecs)) ∨ 512 < sumL (taken.map (codecsOf f.codecs)) then
      .error (refusal 0x03 who none 3)
    else if galleyBytes < galleyUse f full taken then
      .error (refusal 0x02 who (some (if millpondOf f fl = 0 then 8 else 4)) 3)
    else match (List.range 32).find? (fun g => decide (1048576 < laneSram f taken g)) with
    | some g => .error (refusal 0x02 who (some (nth [0, 5, 6, 7] (groupRole f g))) 3)
    | none =>
      if (f.claims.filter (fun k => k.flow == fl.flow)).all (fun k =>
          decide (sumL ((f.claims.filter (fun q => q.pool == k.pool && taken.any (fun x => x.flow == q.flow))).map
            (·.reserve)) ≤ sumL ((f.defs.filter (fun d => d.index == k.pool)).map (·.blocks)))) &&
          (!fl.deadline || reservesOk f all fl) then .ok ts'
      else .error (refusal 0x06 who none 3)

/-- Take flows one at a time. -/
def admitAll (f : Forme) (full : Bool) (ps : Nat) (all : List FlowEntry) : List Taken → List FlowEntry → Except RefusalRec (List Taken)
  | ts, [] => .ok ts
  | ts, fl :: rest => match admitOne f full ps all ts fl with
    | .error e => .error e
    | .ok ts' => admitAll f full ps all ts' rest

/-- LKP_WORK slots of a flow (R112). -/
def slotsOf (cs : List Cost) : List WorkSlot :=
  (cs.filter (·.slot)).map (fun c => ⟨c.x, c.server, c.p, c.multi, c.station⟩)

/-- What admission derives for the live flows (R91, R92, R95). -/
def flowAdms (f : Forme) (ts : List Taken) : List FlowAdm :=
  ts.map (fun t => ⟨t.fl.flow, slotsOf t.costs, t.locals, sumL ((timedOf t.fl).map (wallOf t.costs)),
    pinnedOf f.codecs t.fl⟩)

/-- Does the forme impose a server: a lane group or an engine set by its units, another by its station in the graph (R110)? -/
def Forme.imposes (f : Forme) (v : Nat) : Bool :=
  if v < 0x20 ∨ v = 0x22 ∨ v = 0x23 then serverUnits f v != 0
  else f.segs.any (fun g => g.src == serverStation f v || g.dst == serverStation f v)

/-- What admission derives for the servers (R110). -/
def serverAdms (f : Forme) (ps : Nat) (ts : List Taken) : List ServerAdm :=
  (List.range 0x29).map (fun v =>
    let (q, b) := (serverSum f ps ts v).getD (0, 0)
    let on := f.imposes v
    ⟨v, if on then serverUnits f v else 0, if on then serverStation f v else 0, min 65535 (ceilDiv q 65536), min 65535 (ceilDiv b 65536),
      (ts.filter (fun t => t.fl.deadline && (t.at v).isSome)).length⟩)

/-- The admission phase (R94). `full`: step 6 runs once before the first flow. A failure of the spare rule lies in section 0x02,
whose lanes and engines it counts (R54, R83). DEDUCED, log entry 10. -/
def admission (f : Forme) (ps lanes engines : Nat) (full : Bool) : Except RefusalRec (List Taken) :=
  if !spareOk f lanes engines then .error (refusal 0x05 none none 2)
  else if full && decide (galleyBytes < galleyPools f) then .error (refusal 0x02 none (some 8) 5)
  else admitAll f full ps f.flows [] f.flows

/-- The flows of a forme as the admission phase has taken them, with the local deadlines already published (R96) and the
units that the servers have now (R104). -/
def takenNow (f : Forme) (units : Nat → Nat) (ps : Nat) (adm : List FlowAdm) : List Taken :=
  f.flows.map (fun fl => ⟨fl, flowCosts f units fl ps,
    match adm.find? (fun a => a.flow == fl.flow) with | some a => a.locals | none => []⟩)

/-! ### Merging an amendment (R66 to R70) -/

/-- Bytes of the merged image: each section at the next multiple of 64, parameter blocks and images packed. DEDUCED
from the worked example of the forme chapter (log entry 21). -/
def formeBytes (f : Forme) : Nat :=
  let put := fun (pos len : Nat) => r64 (pos + len)
  let p1 := put 192 (16 + 8 * f.segs.length)
  let p2 := put p1 352
  let p3 := put p2 (16 + 64 * f.flows.length + sumL (f.flows.map (·.paramLen)))
  let p4 := put p3 (16 + 16 * 128)
  let p5 := put p4 (16 + 32 * (f.defs.length + f.claims.length))
  let p6 := put p5 (16 + 256 * f.codecs.length)
  let p7 := put p6 (16 + 32 * f.riffles.length)
  put p7 (r64 (16 + 16 * f.micro.length) + sumL (f.micro.map (fun m => r64 m.length))) + 128

/-- The lowest slot below `n` that no entry uses. -/
def freeSlot (n : Nat) (used : List (Nat × Nat × BitVec 32)) : Option Nat :=
  (List.range n).find? (fun i => !used.any (fun u => u.1 == i))

/-- Keep the slots still named, then fill the lowest free slots in order (R340, R344). -/
def fillSlots (n : Nat) (old : List (Nat × Nat × BitVec 32)) (want : List (Nat × BitVec 32)) :
    List (Nat × Nat × BitVec 32) :=
  let kept := old.filter (fun u => want.any (fun w => w.1 == u.2.1 && w.2 == u.2.2))
  want.foldl (fun acc w =>
    if acc.any (fun u => u.2.1 == w.1 && u.2.2 == w.2) then acc
    else match freeSlot n acc with
      | some i => acc ++ [(i, w.1, w.2)]
      | none => acc) kept

/-- Images and tables in use, with their slots. -/
def Forme.withSlots (f : Forme) (old : Forme) : Forme :=
  let imgs := imagesUsed f.images f.flows
  let tabs := tablesUsed f.tables f.riffles
  { f with images := imgs, tables := tabs,
           imgSlots := fillSlots 8 old.imgSlots (imgs.map (fun t => (t.addr, t.crc))),
           tabSlots := fillSlots 16 old.tabSlots (tabs.map (fun t => (t.addr, t.crc))) }

/-- The live forme with an amendment merged into it (R67, R70). -/
def mergeForme (live : Forme) (p : Forme) (rems : List Removal) : Forme :=
  let stays := fun (fl : Nat) => rems.all (fun r => r.flow != fl)
  let m : Forme := { live with
    flows := live.flows.filter (fun f => stays f.flow) ++ p.flows,
    claims := live.claims.filter (fun k => stays k.flow) ++ p.claims,
    codecs := live.codecs.filter (fun k => stays k.flow) ++ p.codecs,
    riffles := live.riffles.filter (fun k => stays k.flow) ++ p.riffles,
    images := p.images.foldl addImage live.images,
    tables := p.tables.foldl addTable live.tables }
  let m := m.withSlots live
  { m with size := formeBytes m }

end Sys2Proof.Machine
end

