-- ==== Sys2Proof/Machine/RegTypes.lean ====
section
/-! DEFINITION. The types of the register map: access codes (R8), field and register rows, and the name of a field. -/

namespace Sys2Proof.Machine

/-- The access codes of R8. -/
inductive Access where
  | ro | rw | rws | w1c | wo | rc | gw
  deriving DecidableEq, Repr

/-- One field of a register: its bits [hi:lo], access code, reset value, Kept (R11), and, where the chapter says a
written value is stored as the nearest limit, those limits. -/
structure FieldRow where
  name  : String
  hi    : Nat
  lo    : Nat
  acc   : Access
  reset : Nat
  kept  : Bool
  limit : Option (Nat × Nat)
  deriving DecidableEq, Repr

/-- One register, or one array of registers: first offset, (count, stride) of each index, and its fields. -/
structure RegRow where
  name   : String
  base   : Nat
  dims   : List (Nat × Nat)
  fields : List FieldRow
  deriving DecidableEq, Repr

/-- The name of one field of one register: offset in the control space, lowest bit, width. -/
structure Field where
  off   : Nat
  lo    : Nat
  width : Nat
  deriving DecidableEq, Repr

end Sys2Proof.Machine
end

