-- ==== Sys2Proof/Machine/RegFields.lean ====
section
/-! DEFINITION. One name for each register field of R521 to R525 (offset, low bit, width). An index argument is the
register's position in its array; for a tenancy page the first index is the tenancy. -/

namespace Sys2Proof.Machine.F

/-- GLB_ID.STEPPING (R31). -/
def GLB_ID_STEPPING : Field := ⟨0x0, 0, 8⟩
/-- GLB_ID.INSTANCE (R31). -/
def GLB_ID_INSTANCE : Field := ⟨0x0, 8, 1⟩
/-- GLB_ID.BLOCK (R31). -/
def GLB_ID_BLOCK : Field := ⟨0x0, 16, 16⟩
/-- GLB_ID.DIE_SERIAL (R31). -/
def GLB_ID_DIE_SERIAL : Field := ⟨0x0, 32, 32⟩
/-- GLB_CAPS.LANES_PHYS (R32). -/
def GLB_CAPS_LANES_PHYS : Field := ⟨0x8, 0, 8⟩
/-- GLB_CAPS.LANES_ACTIVE_MAX (R32). -/
def GLB_CAPS_LANES_ACTIVE_MAX : Field := ⟨0x8, 8, 8⟩
/-- GLB_CAPS.ENTROPY_PHYS (R32). -/
def GLB_CAPS_ENTROPY_PHYS : Field := ⟨0x8, 16, 8⟩
/-- GLB_CAPS.ENTROPY_USABLE (R32). -/
def GLB_CAPS_ENTROPY_USABLE : Field := ⟨0x8, 24, 8⟩
/-- GLB_CAPS.SEARCH_UNITS (R32). -/
def GLB_CAPS_SEARCH_UNITS : Field := ⟨0x8, 32, 8⟩
/-- GLB_CAPS.PARSERS (R32). -/
def GLB_CAPS_PARSERS : Field := ⟨0x8, 40, 5⟩
/-- GLB_CAPS.TOKENISERS (R32). -/
def GLB_CAPS_TOKENISERS : Field := ⟨0x8, 48, 4⟩
/-- GLB_CAPS.MOVERS (R32). -/
def GLB_CAPS_MOVERS : Field := ⟨0x8, 52, 6⟩
/-- GLB_CAPS.FABRIC_PORTS (R32). -/
def GLB_CAPS_FABRIC_PORTS : Field := ⟨0x8, 58, 5⟩
/-- GLB_CAPS.PEER (R32). -/
def GLB_CAPS_PEER : Field := ⟨0x8, 63, 1⟩
/-- GLB_STATUS.READY (R33). -/
def GLB_STATUS_READY : Field := ⟨0x10, 0, 1⟩
/-- GLB_STATUS.FORME_LIVE (R33). -/
def GLB_STATUS_FORME_LIVE : Field := ⟨0x10, 1, 1⟩
/-- GLB_STATUS.BLANK (R33). -/
def GLB_STATUS_BLANK : Field := ⟨0x10, 2, 1⟩
/-- GLB_STATUS.RETAINED_OK (R33). -/
def GLB_STATUS_RETAINED_OK : Field := ⟨0x10, 3, 1⟩
/-- GLB_STATUS.PEER_SEEN (R33). -/
def GLB_STATUS_PEER_SEEN : Field := ⟨0x10, 4, 1⟩
/-- GLB_STATUS.TAKEOVER (R33). -/
def GLB_STATUS_TAKEOVER : Field := ⟨0x10, 5, 1⟩
/-- GLB_STATUS.VTABLE_FALLBACK (R33). -/
def GLB_STATUS_VTABLE_FALLBACK : Field := ⟨0x10, 6, 1⟩
/-- GLB_STATUS.TEST (R33). -/
def GLB_STATUS_TEST : Field := ⟨0x10, 7, 1⟩
/-- GLB_STATUS.FAULT_SUMMARY (R33). -/
def GLB_STATUS_FAULT_SUMMARY : Field := ⟨0x10, 8, 3⟩
/-- GLB_STATUS.LOCKUP_BUSY (R33). -/
def GLB_STATUS_LOCKUP_BUSY : Field := ⟨0x10, 11, 1⟩
/-- GLB_STATUS.LANES_GOOD (R33). -/
def GLB_STATUS_LANES_GOOD : Field := ⟨0x10, 16, 8⟩
/-- GLB_STATUS.ENTROPY_GOOD (R33). -/
def GLB_STATUS_ENTROPY_GOOD : Field := ⟨0x10, 24, 8⟩
/-- GLB_STATUS.PSTATE (R33). -/
def GLB_STATUS_PSTATE : Field := ⟨0x10, 32, 3⟩
/-- GLB_STATUS.LAST_START (R33). -/
def GLB_STATUS_LAST_START : Field := ⟨0x10, 36, 2⟩
/-- GLB_RESET.KIND (R491). -/
def GLB_RESET_KIND : Field := ⟨0x18, 0, 2⟩
/-- GLB_RESET.DOMAINS (R491). -/
def GLB_RESET_DOMAINS : Field := ⟨0x18, 4, 5⟩
/-- GLB_RESET.CONFIRM (R491). -/
def GLB_RESET_CONFIRM : Field := ⟨0x18, 16, 16⟩
/-- GLB_RESET.BUSY (R491). -/
def GLB_RESET_BUSY : Field := ⟨0x18, 32, 1⟩
/-- GLB_RESET.LAST_KIND (R491). -/
def GLB_RESET_LAST_KIND : Field := ⟨0x18, 33, 2⟩
/-- GLB_RESET.REJECTED (R491). -/
def GLB_RESET_REJECTED : Field := ⟨0x18, 35, 1⟩
/-- GLB_CLK.PCLK_RUN (R491). -/
def GLB_CLK_PCLK_RUN : Field := ⟨0x20, 0, 1⟩
/-- GLB_CLK.ECLK_RUN (R491). -/
def GLB_CLK_ECLK_RUN : Field := ⟨0x20, 1, 1⟩
/-- GLB_CLK.FCLK_RUN (R491). -/
def GLB_CLK_FCLK_RUN : Field := ⟨0x20, 2, 1⟩
/-- GLB_CLK.WAKES (R491). -/
def GLB_CLK_WAKES : Field := ⟨0x20, 16, 32⟩
/-- GLB_CLK.WAKE_MAX_NS (R491). -/
def GLB_CLK_WAKE_MAX_NS : Field := ⟨0x20, 48, 16⟩
/-- GLB_FABRIC.BAD_MSG (R512). -/
def GLB_FABRIC_BAD_MSG : Field := ⟨0x28, 0, 16⟩
/-- GLB_FABRIC.TIMEOUTS (R512). -/
def GLB_FABRIC_TIMEOUTS : Field := ⟨0x28, 16, 16⟩
/-- GLB_FABRIC.REPLAYS (R512). -/
def GLB_FABRIC_REPLAYS : Field := ⟨0x28, 32, 16⟩
/-- GLB_FABRIC.PORTS_FENCED (R512). -/
def GLB_FABRIC_PORTS_FENCED : Field := ⟨0x28, 48, 16⟩
/-- FRM_SRC_ADDR.ADDR (R79). -/
def FRM_SRC_ADDR_ADDR : Field := ⟨0x100000, 0, 52⟩
/-- FRM_SRC_SIZE.SIZE (R80). -/
def FRM_SRC_SIZE_SIZE : Field := ⟨0x100008, 0, 25⟩
/-- FRM_CTRL.OP (R81). -/
def FRM_CTRL_OP : Field := ⟨0x100010, 0, 2⟩
/-- FRM_CTRL.CANCEL (R81). -/
def FRM_CTRL_CANCEL : Field := ⟨0x100010, 4, 1⟩
/-- FRM_STATUS.PHASE (R82). -/
def FRM_STATUS_PHASE : Field := ⟨0x100018, 0, 3⟩
/-- FRM_STATUS.RESULT (R82). -/
def FRM_STATUS_RESULT : Field := ⟨0x100018, 4, 3⟩
/-- FRM_STATUS.BUSY_REJECT (R82). -/
def FRM_STATUS_BUSY_REJECT : Field := ⟨0x100018, 8, 1⟩
/-- FRM_STATUS.RESTORE_FAIL (R82). -/
def FRM_STATUS_RESTORE_FAIL : Field := ⟨0x100018, 9, 1⟩
/-- FRM_STATUS.RETAIN_DONE (R82). -/
def FRM_STATUS_RETAIN_DONE : Field := ⟨0x100018, 10, 1⟩
/-- FRM_STATUS.SEQ (R82). -/
def FRM_STATUS_SEQ : Field := ⟨0x100018, 16, 16⟩
/-- FRM_REFUSAL.CODE (R83). -/
def FRM_REFUSAL_CODE : Field := ⟨0x100020, 0, 8⟩
/-- FRM_REFUSAL.FLOW (R83). -/
def FRM_REFUSAL_FLOW : Field := ⟨0x100020, 8, 12⟩
/-- FRM_REFUSAL.TENANCY (R83). -/
def FRM_REFUSAL_TENANCY : Field := ⟨0x100020, 20, 4⟩
/-- FRM_REFUSAL.STATION (R83). -/
def FRM_REFUSAL_STATION : Field := ⟨0x100020, 24, 8⟩
/-- FRM_REFUSAL.SECTION (R83). -/
def FRM_REFUSAL_SECTION : Field := ⟨0x100020, 32, 4⟩
/-- FRM_REFUSAL.FLOW_VALID (R83). -/
def FRM_REFUSAL_FLOW_VALID : Field := ⟨0x100020, 36, 1⟩
/-- FRM_REFUSAL.STATION_VALID (R83). -/
def FRM_REFUSAL_STATION_VALID : Field := ⟨0x100020, 37, 1⟩
/-- FRM_REFUSAL.OFFSET (R83). -/
def FRM_REFUSAL_OFFSET : Field := ⟨0x100020, 40, 24⟩
/-- FRM_LIVE_ID.ID (R84). -/
def FRM_LIVE_ID_ID : Field := ⟨0x100028, 0, 64⟩
/-- FRM_AMEND_COUNT.COUNT (R84). -/
def FRM_AMEND_COUNT_COUNT : Field := ⟨0x100030, 0, 16⟩
/-- FRM_QUOIN_TIMEOUT.US (R84). -/
def FRM_QUOIN_TIMEOUT_US : Field := ⟨0x100038, 0, 24⟩
/-- FRM_QUOIN_TIME.TIME (R84). -/
def FRM_QUOIN_TIME_TIME : Field := ⟨0x100040, 0, 64⟩
/-- FRM_SPARES.LANES_ACTIVE (R84). -/
def FRM_SPARES_LANES_ACTIVE : Field := ⟨0x100048, 0, 8⟩
/-- FRM_SPARES.LANE_SPARES (R84). -/
def FRM_SPARES_LANE_SPARES : Field := ⟨0x100048, 8, 8⟩
/-- FRM_SPARES.ENTROPY_ASSIGNED (R84). -/
def FRM_SPARES_ENTROPY_ASSIGNED : Field := ⟨0x100048, 16, 8⟩
/-- FRM_SPARES.ENTROPY_SPARES (R84). -/
def FRM_SPARES_ENTROPY_SPARES : Field := ⟨0x100048, 24, 8⟩
/-- LKP_ADMIT_CFG.PSTATE (R106). -/
def LKP_ADMIT_CFG_PSTATE : Field := ⟨0x200000, 0, 3⟩
/-- LKP_ADMIT_CFG.PSTATE_LIVE (R106). -/
def LKP_ADMIT_CFG_PSTATE_LIVE : Field := ⟨0x200000, 8, 3⟩
/-- LKP_STATUS.FLOWS (R107). -/
def LKP_STATUS_FLOWS : Field := ⟨0x200008, 0, 13⟩
/-- LKP_STATUS.DEADLINE_FLOWS (R107). -/
def LKP_STATUS_DEADLINE_FLOWS : Field := ⟨0x200008, 13, 13⟩
/-- LKP_STATUS.BERTHS_PINNED (R107). -/
def LKP_STATUS_BERTHS_PINNED : Field := ⟨0x200008, 26, 13⟩
/-- LKP_STATUS.CODEC_CONTEXTS (R107). -/
def LKP_STATUS_CODEC_CONTEXTS : Field := ⟨0x200008, 39, 10⟩
/-- LKP_LATE_TOTAL.COUNT (R107). -/
def LKP_LATE_TOTAL_COUNT : Field := ⟨0x200010, 0, 64⟩
/-- LKP_REFUSAL.SERVER (R107). -/
def LKP_REFUSAL_SERVER : Field := ⟨0x200018, 0, 6⟩
/-- LKP_REFUSAL.TOTAL (R107). -/
def LKP_REFUSAL_TOTAL : Field := ⟨0x200018, 16, 24⟩
/-- LKP_BERTH_CFG.SLICE_US (R152). -/
def LKP_BERTH_CFG_SLICE_US : Field := ⟨0x200020, 0, 14⟩
/-- LKP_BERTH_STATUS.PINNED (R152). -/
def LKP_BERTH_STATUS_PINNED : Field := ⟨0x200028, 0, 13⟩
/-- LKP_BERTH_STATUS.SHARED (R152). -/
def LKP_BERTH_STATUS_SHARED : Field := ⟨0x200028, 13, 13⟩
/-- LKP_BERTH_STATUS.RUNNABLE_OUT (R152). -/
def LKP_BERTH_STATUS_RUNNABLE_OUT : Field := ⟨0x200028, 26, 19⟩
/-- LKP_BERTH_STATUS.BLOCKED_RESIDENT (R152). -/
def LKP_BERTH_STATUS_BLOCKED_RESIDENT : Field := ⟨0x200028, 45, 13⟩
/-- LKP_BERTH_STATUS.SWAP_BUSY (R152). -/
def LKP_BERTH_STATUS_SWAP_BUSY : Field := ⟨0x200028, 58, 1⟩
/-- LKP_SWAP_COUNT.SWAPS (R152). -/
def LKP_SWAP_COUNT_SWAPS : Field := ⟨0x200030, 0, 32⟩
/-- LKP_SWAP_COUNT.MAX_NS (R152). -/
def LKP_SWAP_COUNT_MAX_NS : Field := ⟨0x200030, 32, 32⟩
/-- LKP_OFFLOAD_ADVICE.ADVICE (R108). -/
def LKP_OFFLOAD_ADVICE_ADVICE (i0 : Nat) : Field := ⟨0x200108 + 0x8 * i0, 0, 9⟩
/-- LKP_COST_A.RATE (R109). -/
def LKP_COST_A_RATE (i0 : Nat) : Field := ⟨0x201000 + 0x10 * i0, 0, 32⟩
/-- LKP_COST_A.FIXED_NS (R109). -/
def LKP_COST_A_FIXED_NS (i0 : Nat) : Field := ⟨0x201000 + 0x10 * i0, 32, 16⟩
/-- LKP_COST_A.UNIT (R109). -/
def LKP_COST_A_UNIT (i0 : Nat) : Field := ⟨0x201000 + 0x10 * i0, 48, 8⟩
/-- LKP_COST_A.SCALES (R109). -/
def LKP_COST_A_SCALES (i0 : Nat) : Field := ⟨0x201000 + 0x10 * i0, 56, 1⟩
/-- LKP_COST_B.SECTION_NS (R109). -/
def LKP_COST_B_SECTION_NS (i0 : Nat) : Field := ⟨0x201008 + 0x10 * i0, 0, 16⟩
/-- LKP_COST_B.STATION (R109). -/
def LKP_COST_B_STATION (i0 : Nat) : Field := ⟨0x201008 + 0x10 * i0, 16, 8⟩
/-- LKP_SERVER.UTIL (R110). -/
def LKP_SERVER_UTIL (i0 : Nat) : Field := ⟨0x202000 + 0x8 * i0, 0, 16⟩
/-- LKP_SERVER.BLOCK (R110). -/
def LKP_SERVER_BLOCK (i0 : Nat) : Field := ⟨0x202000 + 0x8 * i0, 16, 16⟩
/-- LKP_SERVER.UNITS (R110). -/
def LKP_SERVER_UNITS (i0 : Nat) : Field := ⟨0x202000 + 0x8 * i0, 32, 8⟩
/-- LKP_SERVER.STATION (R110). -/
def LKP_SERVER_STATION (i0 : Nat) : Field := ⟨0x202000 + 0x8 * i0, 40, 8⟩
/-- LKP_SERVER.DEADLINE_FLOWS (R110). -/
def LKP_SERVER_DEADLINE_FLOWS (i0 : Nat) : Field := ⟨0x202000 + 0x8 * i0, 48, 13⟩
/-- LKP_FLOW_A.READY_BY_NS (R111). -/
def LKP_FLOW_A_READY_BY_NS (i0 : Nat) : Field := ⟨0x208000 + 0x10 * i0, 0, 32⟩
/-- LKP_FLOW_A.SUM_W_NS (R111). -/
def LKP_FLOW_A_SUM_W_NS (i0 : Nat) : Field := ⟨0x208000 + 0x10 * i0, 32, 32⟩
/-- LKP_FLOW_B.LATE (R111). -/
def LKP_FLOW_B_LATE (i0 : Nat) : Field := ⟨0x208008 + 0x10 * i0, 0, 16⟩
/-- LKP_FLOW_B.OVERCLASS (R111). -/
def LKP_FLOW_B_OVERCLASS (i0 : Nat) : Field := ⟨0x208008 + 0x10 * i0, 16, 16⟩
/-- LKP_FLOW_B.BERTHS (R111). -/
def LKP_FLOW_B_BERTHS (i0 : Nat) : Field := ⟨0x208008 + 0x10 * i0, 32, 13⟩
/-- LKP_FLOW_B.ADMITTED (R111). -/
def LKP_FLOW_B_ADMITTED (i0 : Nat) : Field := ⟨0x208008 + 0x10 * i0, 48, 1⟩
/-- LKP_FLOW_B.DEADLINE (R111). -/
def LKP_FLOW_B_DEADLINE (i0 : Nat) : Field := ⟨0x208008 + 0x10 * i0, 49, 1⟩
/-- LKP_WORK.WORK (R112). -/
def LKP_WORK_WORK (i0 : Nat) (i1 : Nat) : Field := ⟨0x220000 + 0x80 * i0 + 0x8 * i1, 0, 48⟩
/-- LKP_WORK.SERVER (R112). -/
def LKP_WORK_SERVER (i0 : Nat) (i1 : Nat) : Field := ⟨0x220000 + 0x80 * i0 + 0x8 * i1, 48, 6⟩
/-- LKP_WORK.P (R112). -/
def LKP_WORK_P (i0 : Nat) (i1 : Nat) : Field := ⟨0x220000 + 0x80 * i0 + 0x8 * i1, 54, 7⟩
/-- LKP_WORK.VALID (R112). -/
def LKP_WORK_VALID (i0 : Nat) (i1 : Nat) : Field := ⟨0x220000 + 0x80 * i0 + 0x8 * i1, 61, 1⟩
/-- LKP_WORK.MULTI (R112). -/
def LKP_WORK_MULTI (i0 : Nat) (i1 : Nat) : Field := ⟨0x220000 + 0x80 * i0 + 0x8 * i1, 62, 1⟩
/-- RSV_CFG.WAIT_MS (R178). -/
def RSV_CFG_WAIT_MS : Field := ⟨0x300000, 0, 10⟩
/-- RSV_STATUS.POOLS (R178). -/
def RSV_STATUS_POOLS : Field := ⟨0x300008, 0, 5⟩
/-- RSV_STATUS.HANDLES (R178). -/
def RSV_STATUS_HANDLES : Field := ⟨0x300008, 8, 15⟩
/-- RSV_STATUS.GALLEY_4K (R178). -/
def RSV_STATUS_GALLEY_4K : Field := ⟨0x300008, 32, 17⟩
/-- RSV_COMMIT.GO (R73). -/
def RSV_COMMIT_GO : Field := ⟨0x300010, 0, 1⟩
/-- RSV_COMMIT_STATUS.PENDING (R73). -/
def RSV_COMMIT_STATUS_PENDING : Field := ⟨0x300018, 0, 1⟩
/-- RSV_COMMIT_STATUS.RESULT (R73). -/
def RSV_COMMIT_STATUS_RESULT : Field := ⟨0x300018, 1, 2⟩
/-- RSV_COMMIT_STATUS.OVERRUN (R73). -/
def RSV_COMMIT_STATUS_OVERRUN : Field := ⟨0x300018, 3, 1⟩
/-- RSV_COMMIT_STATUS.RULE (R73). -/
def RSV_COMMIT_STATUS_RULE : Field := ⟨0x300018, 8, 8⟩
/-- RSV_COMMIT_STATUS.SEQ (R73). -/
def RSV_COMMIT_STATUS_SEQ : Field := ⟨0x300018, 16, 16⟩
/-- RSV_POOL_THR.WARN (R179). -/
def RSV_POOL_THR_WARN (i0 : Nat) : Field := ⟨0x301000 + 0x40 * i0, 0, 9⟩
/-- RSV_POOL_THR.THROTTLE (R179). -/
def RSV_POOL_THR_THROTTLE (i0 : Nat) : Field := ⟨0x301000 + 0x40 * i0, 16, 9⟩
/-- RSV_POOL_THR.STOP (R179). -/
def RSV_POOL_THR_STOP (i0 : Nat) : Field := ⟨0x301000 + 0x40 * i0, 32, 9⟩
/-- RSV_POOL_THR.HYST (R179). -/
def RSV_POOL_THR_HYST (i0 : Nat) : Field := ⟨0x301000 + 0x40 * i0, 48, 8⟩
/-- RSV_POOL_SIZE.BLOCKS (R179). -/
def RSV_POOL_SIZE_BLOCKS (i0 : Nat) : Field := ⟨0x301008 + 0x40 * i0, 0, 24⟩
/-- RSV_POOL_SIZE.RESERVED (R179). -/
def RSV_POOL_SIZE_RESERVED (i0 : Nat) : Field := ⟨0x301008 + 0x40 * i0, 32, 24⟩
/-- RSV_POOL_LEVEL.IN_USE (R179). -/
def RSV_POOL_LEVEL_IN_USE (i0 : Nat) : Field := ⟨0x301010 + 0x40 * i0, 0, 24⟩
/-- RSV_POOL_LEVEL.SHARED_USE (R179). -/
def RSV_POOL_LEVEL_SHARED_USE (i0 : Nat) : Field := ⟨0x301010 + 0x40 * i0, 32, 24⟩
/-- RSV_POOL_STATE.DEFINED (R179). -/
def RSV_POOL_STATE_DEFINED (i0 : Nat) : Field := ⟨0x301018 + 0x40 * i0, 0, 1⟩
/-- RSV_POOL_STATE.PACKAGE (R179). -/
def RSV_POOL_STATE_PACKAGE (i0 : Nat) : Field := ⟨0x301018 + 0x40 * i0, 1, 1⟩
/-- RSV_POOL_STATE.AT_WARN (R179). -/
def RSV_POOL_STATE_AT_WARN (i0 : Nat) : Field := ⟨0x301018 + 0x40 * i0, 2, 1⟩
/-- RSV_POOL_STATE.AT_THROTTLE (R179). -/
def RSV_POOL_STATE_AT_THROTTLE (i0 : Nat) : Field := ⟨0x301018 + 0x40 * i0, 3, 1⟩
/-- RSV_POOL_STATE.AT_STOP (R179). -/
def RSV_POOL_STATE_AT_STOP (i0 : Nat) : Field := ⟨0x301018 + 0x40 * i0, 4, 1⟩
/-- RSV_POOL_STATE.WARN_SEEN (R179). -/
def RSV_POOL_STATE_WARN_SEEN (i0 : Nat) : Field := ⟨0x301018 + 0x40 * i0, 8, 1⟩
/-- RSV_POOL_STATE.THROTTLE_SEEN (R179). -/
def RSV_POOL_STATE_THROTTLE_SEEN (i0 : Nat) : Field := ⟨0x301018 + 0x40 * i0, 9, 1⟩
/-- RSV_POOL_STATE.STOP_SEEN (R179). -/
def RSV_POOL_STATE_STOP_SEEN (i0 : Nat) : Field := ⟨0x301018 + 0x40 * i0, 10, 1⟩
/-- RSV_POOL_STATE.CLASS (R179). -/
def RSV_POOL_STATE_CLASS (i0 : Nat) : Field := ⟨0x301018 + 0x40 * i0, 12, 4⟩
/-- RSV_POOL_STATE.WAITERS (R179). -/
def RSV_POOL_STATE_WAITERS (i0 : Nat) : Field := ⟨0x301018 + 0x40 * i0, 16, 16⟩
/-- RSV_POOL_COUNT.EXHAUSTED (R179). -/
def RSV_POOL_COUNT_EXHAUSTED (i0 : Nat) : Field := ⟨0x301020 + 0x40 * i0, 0, 32⟩
/-- RSV_POOL_COUNT.PEAK_SHARED (R179). -/
def RSV_POOL_COUNT_PEAK_SHARED (i0 : Nat) : Field := ⟨0x301020 + 0x40 * i0, 32, 32⟩
/-- RSV_POOL_BASE.ADDR (R179). -/
def RSV_POOL_BASE_ADDR (i0 : Nat) : Field := ⟨0x301028 + 0x40 * i0, 0, 52⟩
/-- STN_CHASE_STATUS.SEGMENTS (R520). -/
def STN_CHASE_STATUS_SEGMENTS : Field := ⟨0x400000, 0, 8⟩
/-- STN_CHASE_STATUS.PARITY (R520). -/
def STN_CHASE_STATUS_PARITY : Field := ⟨0x400000, 32, 16⟩
/-- STN_CHASE_SEG.FROM (R520). -/
def STN_CHASE_SEG_FROM (i0 : Nat) : Field := ⟨0x401000 + 0x8 * i0, 0, 8⟩
/-- STN_CHASE_SEG.TO (R520). -/
def STN_CHASE_SEG_TO (i0 : Nat) : Field := ⟨0x401000 + 0x8 * i0, 8, 8⟩
/-- STN_CHASE_SEG.WIDTH (R520). -/
def STN_CHASE_SEG_WIDTH (i0 : Nat) : Field := ⟨0x401000 + 0x8 * i0, 16, 2⟩
/-- STN_CHASE_SEG.CROSSING (R520). -/
def STN_CHASE_SEG_CROSSING (i0 : Nat) : Field := ⟨0x401000 + 0x8 * i0, 18, 1⟩
/-- STN_CHASE_SEG.VALID (R520). -/
def STN_CHASE_SEG_VALID (i0 : Nat) : Field := ⟨0x401000 + 0x8 * i0, 19, 1⟩
/-- STN_CHASE_SEG.TILES_K (R520). -/
def STN_CHASE_SEG_TILES_K (i0 : Nat) : Field := ⟨0x401000 + 0x8 * i0, 32, 32⟩
/-- STN_HW_STATUS.PORTS_BOUND (R213). -/
def STN_HW_STATUS_PORTS_BOUND : Field := ⟨0x410000, 0, 10⟩
/-- STN_HW_STATUS.PENDING (R213). -/
def STN_HW_STATUS_PENDING : Field := ⟨0x410000, 10, 13⟩
/-- STN_HW_COUNT_A.STALE (R213). -/
def STN_HW_COUNT_A_STALE : Field := ⟨0x410008, 0, 32⟩
/-- STN_HW_COUNT_A.SUPERSEDED (R213). -/
def STN_HW_COUNT_A_SUPERSEDED : Field := ⟨0x410008, 32, 32⟩
/-- STN_HW_COUNT_B.PORT_FULL (R213). -/
def STN_HW_COUNT_B_PORT_FULL : Field := ⟨0x410010, 0, 32⟩
/-- STN_HW_COUNT_B.STAMP_CLAMPED (R213). -/
def STN_HW_COUNT_B_STAMP_CLAMPED : Field := ⟨0x410010, 32, 32⟩
/-- STN_HW_PORT.FLOW (R213). -/
def STN_HW_PORT_FLOW (i0 : Nat) : Field := ⟨0x411000 + 0x8 * i0, 0, 12⟩
/-- STN_HW_PORT.TENANCY (R213). -/
def STN_HW_PORT_TENANCY (i0 : Nat) : Field := ⟨0x411000 + 0x8 * i0, 12, 4⟩
/-- STN_HW_PORT.BOUND (R213). -/
def STN_HW_PORT_BOUND (i0 : Nat) : Field := ⟨0x411000 + 0x8 * i0, 16, 1⟩
/-- STN_HW_PORT.PENDING (R213). -/
def STN_HW_PORT_PENDING (i0 : Nat) : Field := ⟨0x411000 + 0x8 * i0, 17, 4⟩
/-- STN_HW_PORT.CARRY (R213). -/
def STN_HW_PORT_CARRY (i0 : Nat) : Field := ⟨0x411000 + 0x8 * i0, 21, 13⟩
/-- STN_HW_PORT.LAST_AGE_US (R213). -/
def STN_HW_PORT_LAST_AGE_US (i0 : Nat) : Field := ⟨0x411000 + 0x8 * i0, 34, 24⟩
/-- STN_CASE_CFG.PX_PER_BYTE (R214). -/
def STN_CASE_CFG_PX_PER_BYTE : Field := ⟨0x420000, 0, 16⟩
/-- STN_CASE_COUNT_A.SAMPLES (R214). -/
def STN_CASE_COUNT_A_SAMPLES : Field := ⟨0x420008, 0, 32⟩
/-- STN_CASE_COUNT_A.GUARD (R214). -/
def STN_CASE_COUNT_A_GUARD : Field := ⟨0x420008, 32, 32⟩
/-- STN_CASE_COUNT_B.CORRUPT (R214). -/
def STN_CASE_COUNT_B_CORRUPT : Field := ⟨0x420010, 0, 32⟩
/-- STN_CASE_COUNT_B.OVERCLASS (R214). -/
def STN_CASE_COUNT_B_OVERCLASS : Field := ⟨0x420010, 32, 16⟩
/-- STN_CASE_COUNT_B.SKIPPED (R214). -/
def STN_CASE_COUNT_B_SKIPPED : Field := ⟨0x420010, 48, 16⟩
/-- STN_CASE_REASON.FRAMING (R214). -/
def STN_CASE_REASON_FRAMING : Field := ⟨0x420018, 0, 8⟩
/-- STN_CASE_REASON.TRUNCATED (R214). -/
def STN_CASE_REASON_TRUNCATED : Field := ⟨0x420018, 8, 8⟩
/-- STN_CASE_REASON.HSC_BODY (R214). -/
def STN_CASE_REASON_HSC_BODY : Field := ⟨0x420018, 16, 8⟩
/-- STN_CASE_REASON.CBOR (R214). -/
def STN_CASE_REASON_CBOR : Field := ⟨0x420018, 24, 8⟩
/-- STN_CASE_REASON.MISSING (R214). -/
def STN_CASE_REASON_MISSING : Field := ⟨0x420018, 32, 8⟩
/-- STN_CASE_REASON.DUP_FIELD (R214). -/
def STN_CASE_REASON_DUP_FIELD : Field := ⟨0x420018, 40, 8⟩
/-- STN_CASE_REASON.NO_DIMS (R214). -/
def STN_CASE_REASON_NO_DIMS : Field := ⟨0x420018, 48, 8⟩
/-- STN_CASE_LAST.FLOW (R214). -/
def STN_CASE_LAST_FLOW : Field := ⟨0x420020, 0, 12⟩
/-- STN_CASE_LAST.TENANCY (R214). -/
def STN_CASE_LAST_TENANCY : Field := ⟨0x420020, 12, 4⟩
/-- STN_CASE_LAST.REASON (R214). -/
def STN_CASE_LAST_REASON : Field := ⟨0x420020, 16, 4⟩
/-- STN_CASE_LAST.OFFSET (R214). -/
def STN_CASE_LAST_OFFSET : Field := ⟨0x420020, 20, 32⟩
/-- STN_MR_STATUS.DEC_ENGINES (R252). -/
def STN_MR_STATUS_DEC_ENGINES : Field := ⟨0x430000, 0, 6⟩
/-- STN_MR_STATUS.ENC_ENGINES (R252). -/
def STN_MR_STATUS_ENC_ENGINES : Field := ⟨0x430000, 6, 6⟩
/-- STN_MR_STATUS.DEC_BUSY (R252). -/
def STN_MR_STATUS_DEC_BUSY : Field := ⟨0x430000, 12, 6⟩
/-- STN_MR_STATUS.PARKED (R252). -/
def STN_MR_STATUS_PARKED : Field := ⟨0x430000, 18, 10⟩
/-- STN_MR_COUNT.UNITS (R252). -/
def STN_MR_COUNT_UNITS : Field := ⟨0x430008, 0, 32⟩
/-- STN_MR_COUNT.LOADS (R252). -/
def STN_MR_COUNT_LOADS : Field := ⟨0x430008, 32, 32⟩
/-- STN_MR_ERR.SYNTAX (R252). -/
def STN_MR_ERR_SYNTAX : Field := ⟨0x430010, 0, 8⟩
/-- STN_MR_ERR.TRUNCATED (R252). -/
def STN_MR_ERR_TRUNCATED : Field := ⟨0x430010, 8, 8⟩
/-- STN_MR_ERR.PARAM_SET (R252). -/
def STN_MR_ERR_PARAM_SET : Field := ⟨0x430010, 16, 8⟩
/-- STN_MR_ERR.TOOL (R252). -/
def STN_MR_ERR_TOOL : Field := ⟨0x430010, 24, 8⟩
/-- STN_MR_ERR.DIM (R252). -/
def STN_MR_ERR_DIM : Field := ⟨0x430010, 32, 8⟩
/-- STN_MR_ERR.REF (R252). -/
def STN_MR_ERR_REF : Field := ⟨0x430010, 40, 8⟩
/-- STN_MR_ERR.DPB (R252). -/
def STN_MR_ERR_DPB : Field := ⟨0x430010, 48, 8⟩
/-- STN_MR_ERR.OVERCLASS (R252). -/
def STN_MR_ERR_OVERCLASS : Field := ⟨0x430010, 56, 8⟩
/-- STN_MR_LAST.FLOW (R252). -/
def STN_MR_LAST_FLOW : Field := ⟨0x430018, 0, 12⟩
/-- STN_MR_LAST.TENANCY (R252). -/
def STN_MR_LAST_TENANCY : Field := ⟨0x430018, 12, 4⟩
/-- STN_MR_LAST.CLASS (R252). -/
def STN_MR_LAST_CLASS : Field := ⟨0x430018, 16, 4⟩
/-- STN_MR_LAST.UNIT (R252). -/
def STN_MR_LAST_UNIT : Field := ⟨0x430018, 20, 12⟩
/-- STN_MR_LAST.OFFSET (R252). -/
def STN_MR_LAST_OFFSET : Field := ⟨0x430018, 32, 32⟩
/-- STN_MR_ENC_STATUS.ENC_BUSY (R287). -/
def STN_MR_ENC_STATUS_ENC_BUSY : Field := ⟨0x430020, 0, 6⟩
/-- STN_MR_ENC_COUNT.ROWS (R287). -/
def STN_MR_ENC_COUNT_ROWS : Field := ⟨0x430028, 0, 32⟩
/-- STN_MR_ENC_COUNT.DISCARDED (R287). -/
def STN_MR_ENC_COUNT_DISCARDED : Field := ⟨0x430028, 32, 32⟩
/-- STN_MP_STATUS.TOTAL_64K (R253). -/
def STN_MP_STATUS_TOTAL_64K : Field := ⟨0x440000, 0, 13⟩
/-- STN_MP_STATUS.FLOWS (R253). -/
def STN_MP_STATUS_FLOWS : Field := ⟨0x440000, 13, 10⟩
/-- STN_MP_CTX_A.FLOW (R253). -/
def STN_MP_CTX_A_FLOW (i0 : Nat) : Field := ⟨0x441000 + 0x10 * i0, 0, 12⟩
/-- STN_MP_CTX_A.TENANCY (R253). -/
def STN_MP_CTX_A_TENANCY (i0 : Nat) : Field := ⟨0x441000 + 0x10 * i0, 12, 4⟩
/-- STN_MP_CTX_A.VALID (R253). -/
def STN_MP_CTX_A_VALID (i0 : Nat) : Field := ⟨0x441000 + 0x10 * i0, 16, 1⟩
/-- STN_MP_CTX_A.ENCODE (R253). -/
def STN_MP_CTX_A_ENCODE (i0 : Nat) : Field := ⟨0x441000 + 0x10 * i0, 17, 1⟩
/-- STN_MP_CTX_A.BYTES_64K (R253). -/
def STN_MP_CTX_A_BYTES_64K (i0 : Nat) : Field := ⟨0x441000 + 0x10 * i0, 18, 13⟩
/-- STN_MP_CTX_B.LEAD_NOW (R253). -/
def STN_MP_CTX_B_LEAD_NOW (i0 : Nat) : Field := ⟨0x441008 + 0x10 * i0, 0, 2⟩
/-- STN_MP_CTX_B.PEAK_64K (R253). -/
def STN_MP_CTX_B_PEAK_64K (i0 : Nat) : Field := ⟨0x441008 + 0x10 * i0, 2, 13⟩
/-- STN_MP_CTX_B.AWAIT_RAP (R253). -/
def STN_MP_CTX_B_AWAIT_RAP (i0 : Nat) : Field := ⟨0x441008 + 0x10 * i0, 15, 1⟩
/-- STN_MP_CTX_B.OUT_QUEUE (R253). -/
def STN_MP_CTX_B_OUT_QUEUE (i0 : Nat) : Field := ⟨0x441008 + 0x10 * i0, 16, 4⟩
/-- STN_MP_CTX_B.BROKEN (R253). -/
def STN_MP_CTX_B_BROKEN (i0 : Nat) : Field := ⟨0x441008 + 0x10 * i0, 20, 16⟩
/-- STN_PLT_CFG.CUT_DISABLE (R254). -/
def STN_PLT_CFG_CUT_DISABLE : Field := ⟨0x450000, 0, 1⟩
/-- STN_PLT_COUNT_A.FRAMES (R254). -/
def STN_PLT_COUNT_A_FRAMES : Field := ⟨0x450008, 0, 32⟩
/-- STN_PLT_COUNT_A.CUT_FRAMES (R254). -/
def STN_PLT_COUNT_A_CUT_FRAMES : Field := ⟨0x450008, 32, 32⟩
/-- STN_PLT_COUNT_B.UNITS_SKIPPED (R254). -/
def STN_PLT_COUNT_B_UNITS_SKIPPED : Field := ⟨0x450010, 0, 64⟩
/-- STN_PLT_ENC_COUNT.FRAMES (R288). -/
def STN_PLT_ENC_COUNT_FRAMES : Field := ⟨0x450018, 0, 32⟩
/-- STN_PLT_ENC_COUNT.REPEATS (R288). -/
def STN_PLT_ENC_COUNT_REPEATS : Field := ⟨0x450018, 32, 32⟩
/-- STN_PLT_SEARCH.HINT_NARROW (R288). -/
def STN_PLT_SEARCH_HINT_NARROW : Field := ⟨0x450020, 0, 32⟩
/-- STN_PLT_SEARCH.HINT_BAD (R288). -/
def STN_PLT_SEARCH_HINT_BAD : Field := ⟨0x450020, 32, 16⟩
/-- STN_PLT_ENC_A.FLOW (R288). -/
def STN_PLT_ENC_A_FLOW (i0 : Nat) : Field := ⟨0x452000 + 0x10 * i0, 0, 12⟩
/-- STN_PLT_ENC_A.TENANCY (R288). -/
def STN_PLT_ENC_A_TENANCY (i0 : Nat) : Field := ⟨0x452000 + 0x10 * i0, 12, 4⟩
/-- STN_PLT_ENC_A.VALID (R288). -/
def STN_PLT_ENC_A_VALID (i0 : Nat) : Field := ⟨0x452000 + 0x10 * i0, 16, 1⟩
/-- STN_PLT_ENC_A.KEY_PENDING (R288). -/
def STN_PLT_ENC_A_KEY_PENDING (i0 : Nat) : Field := ⟨0x452000 + 0x10 * i0, 17, 1⟩
/-- STN_PLT_ENC_A.SKIPPED (R288). -/
def STN_PLT_ENC_A_SKIPPED (i0 : Nat) : Field := ⟨0x452000 + 0x10 * i0, 18, 16⟩
/-- STN_PLT_ENC_A.CAPPED (R288). -/
def STN_PLT_ENC_A_CAPPED (i0 : Nat) : Field := ⟨0x452000 + 0x10 * i0, 34, 16⟩
/-- STN_PLT_ENC_A.LAST_Q0 (R288). -/
def STN_PLT_ENC_A_LAST_Q0 (i0 : Nat) : Field := ⟨0x452000 + 0x10 * i0, 50, 6⟩
/-- STN_PLT_ENC_B.HRD_FULL (R288). -/
def STN_PLT_ENC_B_HRD_FULL (i0 : Nat) : Field := ⟨0x452008 + 0x10 * i0, 0, 40⟩
/-- STN_PLT_ENC_B.HRD_OVER (R288). -/
def STN_PLT_ENC_B_HRD_OVER (i0 : Nat) : Field := ⟨0x452008 + 0x10 * i0, 40, 16⟩
/-- STN_PLT_COMMIT.GO (R73). -/
def STN_PLT_COMMIT_GO : Field := ⟨0x45ff00, 0, 1⟩
/-- STN_PLT_COMMIT_STATUS.PENDING (R73). -/
def STN_PLT_COMMIT_STATUS_PENDING : Field := ⟨0x45ff08, 0, 1⟩
/-- STN_PLT_COMMIT_STATUS.RESULT (R73). -/
def STN_PLT_COMMIT_STATUS_RESULT : Field := ⟨0x45ff08, 1, 2⟩
/-- STN_PLT_COMMIT_STATUS.OVERRUN (R73). -/
def STN_PLT_COMMIT_STATUS_OVERRUN : Field := ⟨0x45ff08, 3, 1⟩
/-- STN_PLT_COMMIT_STATUS.RULE (R73). -/
def STN_PLT_COMMIT_STATUS_RULE : Field := ⟨0x45ff08, 8, 8⟩
/-- STN_PLT_COMMIT_STATUS.SEQ (R73). -/
def STN_PLT_COMMIT_STATUS_SEQ : Field := ⟨0x45ff08, 16, 16⟩
/-- STN_TRIM_CFG.SR_OFF (R319). -/
def STN_TRIM_CFG_SR_OFF : Field := ⟨0x460000, 0, 1⟩
/-- STN_TRIM_CFG.AUG_OFF (R319). -/
def STN_TRIM_CFG_AUG_OFF : Field := ⟨0x460000, 1, 1⟩
/-- STN_TRIM_STATUS.LANES (R319). -/
def STN_TRIM_STATUS_LANES : Field := ⟨0x460008, 0, 8⟩
/-- STN_TRIM_STATUS.GROUPS (R319). -/
def STN_TRIM_STATUS_GROUPS : Field := ⟨0x460008, 8, 6⟩
/-- STN_TRIM_STATUS.ACTIVE (R319). -/
def STN_TRIM_STATUS_ACTIVE : Field := ⟨0x460008, 16, 16⟩
/-- STN_TRIM_COUNT_A.SAMPLES (R319). -/
def STN_TRIM_COUNT_A_SAMPLES : Field := ⟨0x460010, 0, 32⟩
/-- STN_TRIM_COUNT_A.FALLBACK (R319). -/
def STN_TRIM_COUNT_A_FALLBACK : Field := ⟨0x460010, 32, 32⟩
/-- STN_TRIM_COUNT_B.SATURATED (R319). -/
def STN_TRIM_COUNT_B_SATURATED : Field := ⟨0x460018, 0, 32⟩
/-- STN_TRIM_COUNT_B.OVERCLASS (R319). -/
def STN_TRIM_COUNT_B_OVERCLASS : Field := ⟨0x460018, 32, 16⟩
/-- STN_TRIM_COUNT_B.CORRUPT (R319). -/
def STN_TRIM_COUNT_B_CORRUPT : Field := ⟨0x460018, 48, 16⟩
/-- STN_TRIM_LAST.FLOW (R319). -/
def STN_TRIM_LAST_FLOW : Field := ⟨0x460020, 0, 12⟩
/-- STN_TRIM_LAST.TENANCY (R319). -/
def STN_TRIM_LAST_TENANCY : Field := ⟨0x460020, 12, 4⟩
/-- STN_TRIM_LAST.REASON (R319). -/
def STN_TRIM_LAST_REASON : Field := ⟨0x460020, 16, 4⟩
/-- STN_TRIM_LAST.SAMPLE (R319). -/
def STN_TRIM_LAST_SAMPLE : Field := ⟨0x460020, 20, 44⟩
/-- STN_TRIM_COMMIT.GO (R73). -/
def STN_TRIM_COMMIT_GO : Field := ⟨0x46ff00, 0, 1⟩
/-- STN_TRIM_COMMIT_STATUS.PENDING (R73). -/
def STN_TRIM_COMMIT_STATUS_PENDING : Field := ⟨0x46ff08, 0, 1⟩
/-- STN_TRIM_COMMIT_STATUS.RESULT (R73). -/
def STN_TRIM_COMMIT_STATUS_RESULT : Field := ⟨0x46ff08, 1, 2⟩
/-- STN_TRIM_COMMIT_STATUS.OVERRUN (R73). -/
def STN_TRIM_COMMIT_STATUS_OVERRUN : Field := ⟨0x46ff08, 3, 1⟩
/-- STN_TRIM_COMMIT_STATUS.RULE (R73). -/
def STN_TRIM_COMMIT_STATUS_RULE : Field := ⟨0x46ff08, 8, 8⟩
/-- STN_TRIM_COMMIT_STATUS.SEQ (R73). -/
def STN_TRIM_COMMIT_STATUS_SEQ : Field := ⟨0x46ff08, 16, 16⟩
/-- STN_CMP_STATUS.TOK_BUSY (R376). -/
def STN_CMP_STATUS_TOK_BUSY : Field := ⟨0x470000, 0, 3⟩
/-- STN_CMP_STATUS.PATCH_LANES (R376). -/
def STN_CMP_STATUS_PATCH_LANES : Field := ⟨0x470000, 3, 8⟩
/-- STN_CMP_STATUS.IMAGES (R376). -/
def STN_CMP_STATUS_IMAGES : Field := ⟨0x470000, 11, 4⟩
/-- STN_CMP_COUNT_A.TEXT_SAMPLES (R376). -/
def STN_CMP_COUNT_A_TEXT_SAMPLES : Field := ⟨0x470008, 0, 32⟩
/-- STN_CMP_COUNT_A.TOKENS_K (R376). -/
def STN_CMP_COUNT_A_TOKENS_K : Field := ⟨0x470008, 32, 32⟩
/-- STN_CMP_COUNT_B.CACHE_MISSES (R376). -/
def STN_CMP_COUNT_B_CACHE_MISSES : Field := ⟨0x470010, 0, 32⟩
/-- STN_CMP_COUNT_B.OVERCLASS (R376). -/
def STN_CMP_COUNT_B_OVERCLASS : Field := ⟨0x470010, 32, 16⟩
/-- STN_CMP_COUNT_B.SPLITS (R376). -/
def STN_CMP_COUNT_B_SPLITS : Field := ⟨0x470010, 48, 16⟩
/-- STN_CMP_IMAGE_A.ADDR (R376). -/
def STN_CMP_IMAGE_A_ADDR (i0 : Nat) : Field := ⟨0x471000 + 0x10 * i0, 0, 52⟩
/-- STN_CMP_IMAGE_B.CRC (R376). -/
def STN_CMP_IMAGE_B_CRC (i0 : Nat) : Field := ⟨0x471008 + 0x10 * i0, 0, 32⟩
/-- STN_CMP_IMAGE_B.VOCAB (R376). -/
def STN_CMP_IMAGE_B_VOCAB (i0 : Nat) : Field := ⟨0x471008 + 0x10 * i0, 32, 19⟩
/-- STN_CMP_IMAGE_B.USERS (R376). -/
def STN_CMP_IMAGE_B_USERS (i0 : Nat) : Field := ⟨0x471008 + 0x10 * i0, 51, 13⟩
/-- STN_GAL_STATUS.OPEN_BATCHES (R377). -/
def STN_GAL_STATUS_OPEN_BATCHES : Field := ⟨0x480000, 0, 13⟩
/-- STN_GAL_STATUS.GROUPS (R377). -/
def STN_GAL_STATUS_GROUPS : Field := ⟨0x480000, 13, 7⟩
/-- STN_GAL_COUNT_A.BATCHES (R377). -/
def STN_GAL_COUNT_A_BATCHES : Field := ⟨0x480008, 0, 32⟩
/-- STN_GAL_COUNT_A.SUBSTITUTED (R377). -/
def STN_GAL_COUNT_A_SUBSTITUTED : Field := ⟨0x480008, 32, 32⟩
/-- STN_GAL_COUNT_B.MASKED (R377). -/
def STN_GAL_COUNT_B_MASKED : Field := ⟨0x480010, 0, 16⟩
/-- STN_GAL_COUNT_B.ABORTED (R377). -/
def STN_GAL_COUNT_B_ABORTED : Field := ⟨0x480010, 16, 16⟩
/-- STN_GAL_COUNT_B.ABSENT (R377). -/
def STN_GAL_COUNT_B_ABSENT : Field := ⟨0x480010, 32, 16⟩
/-- STN_GAL_COUNT_B.JOIN_DEFERRED (R377). -/
def STN_GAL_COUNT_B_JOIN_DEFERRED : Field := ⟨0x480010, 48, 16⟩
/-- STN_GAL_COUNT_C.STEP_OVERRUN (R377). -/
def STN_GAL_COUNT_C_STEP_OVERRUN : Field := ⟨0x480018, 0, 16⟩
/-- STN_GAL_COUNT_C.RESERVE_SKIPPED (R377). -/
def STN_GAL_COUNT_C_RESERVE_SKIPPED : Field := ⟨0x480018, 16, 16⟩
/-- STN_GAL_COUNT_C.TOKEN_RANGE (R377). -/
def STN_GAL_COUNT_C_TOKEN_RANGE : Field := ⟨0x480018, 32, 16⟩
/-- STN_GAL_GROUP.STEP (R377). -/
def STN_GAL_GROUP_STEP (i0 : Nat) : Field := ⟨0x481000 + 0x8 * i0, 0, 32⟩
/-- STN_GAL_GROUP.MEMBERS_IN (R377). -/
def STN_GAL_GROUP_MEMBERS_IN (i0 : Nat) : Field := ⟨0x481000 + 0x8 * i0, 32, 11⟩
/-- STN_GAL_GROUP.JOINING (R377). -/
def STN_GAL_GROUP_JOINING (i0 : Nat) : Field := ⟨0x481000 + 0x8 * i0, 43, 11⟩
/-- STN_GAL_GROUP.VALID (R377). -/
def STN_GAL_GROUP_VALID (i0 : Nat) : Field := ⟨0x481000 + 0x8 * i0, 54, 1⟩
/-- STN_DLT_CFG.DRAIN_TIMEOUT_US (R409). -/
def STN_DLT_CFG_DRAIN_TIMEOUT_US : Field := ⟨0x490000, 0, 20⟩
/-- STN_DLT_STAGGER.RAMP_NS (R409). -/
def STN_DLT_STAGGER_RAMP_NS : Field := ⟨0x490008, 0, 14⟩
/-- STN_DLT_STAGGER.GROUPS (R409). -/
def STN_DLT_STAGGER_GROUPS : Field := ⟨0x490008, 16, 4⟩
/-- STN_DLT_GROUP_A.DIES_0_15 (R409). -/
def STN_DLT_GROUP_A_DIES_0_15 : Field := ⟨0x490010, 0, 48⟩
/-- STN_DLT_GROUP_B.DIES_16_31 (R409). -/
def STN_DLT_GROUP_B_DIES_16_31 : Field := ⟨0x490018, 0, 48⟩
/-- STN_DLT_STATUS.THREADS_BUSY (R409). -/
def STN_DLT_STATUS_THREADS_BUSY : Field := ⟨0x490020, 0, 11⟩
/-- STN_DLT_STATUS.READS_OUT (R409). -/
def STN_DLT_STATUS_READS_OUT : Field := ⟨0x490020, 11, 11⟩
/-- STN_DLT_STATUS.STAGED_64K (R409). -/
def STN_DLT_STATUS_STAGED_64K : Field := ⟨0x490020, 22, 16⟩
/-- STN_DLT_STATUS.WINDOW_OPEN (R409). -/
def STN_DLT_STATUS_WINDOW_OPEN : Field := ⟨0x490020, 38, 1⟩
/-- STN_DLT_COUNT_A.MIB (R409). -/
def STN_DLT_COUNT_A_MIB : Field := ⟨0x490028, 0, 32⟩
/-- STN_DLT_COUNT_A.TRANSFERS_K (R409). -/
def STN_DLT_COUNT_A_TRANSFERS_K : Field := ⟨0x490028, 32, 32⟩
/-- STN_DLT_COUNT_B.ABORTS (R409). -/
def STN_DLT_COUNT_B_ABORTS : Field := ⟨0x490030, 0, 16⟩
/-- STN_DLT_COUNT_B.ALT_SWITCHES (R409). -/
def STN_DLT_COUNT_B_ALT_SWITCHES : Field := ⟨0x490030, 16, 16⟩
/-- STN_DLT_COUNT_B.REARM_BUSY (R409). -/
def STN_DLT_COUNT_B_REARM_BUSY : Field := ⟨0x490030, 32, 16⟩
/-- STN_DLT_COUNT_B.DRAIN_TIMEOUTS (R409). -/
def STN_DLT_COUNT_B_DRAIN_TIMEOUTS : Field := ⟨0x490030, 48, 16⟩
/-- STN_DLT_COUNT_C.STAGGER_HELD (R409). -/
def STN_DLT_COUNT_C_STAGGER_HELD : Field := ⟨0x490038, 0, 16⟩
/-- STN_DLT_COUNT_C.STRAY_DONE (R409). -/
def STN_DLT_COUNT_C_STRAY_DONE : Field := ⟨0x490038, 16, 16⟩
/-- STN_DLT_COUNT_C.LATE_READS (R409). -/
def STN_DLT_COUNT_C_LATE_READS : Field := ⟨0x490038, 32, 16⟩
/-- STN_DLT_COUNT_C.CONVERTED (R409). -/
def STN_DLT_COUNT_C_CONVERTED : Field := ⟨0x490038, 48, 16⟩
/-- STN_DLT_LAST.FLOW (R409). -/
def STN_DLT_LAST_FLOW : Field := ⟨0x490040, 0, 12⟩
/-- STN_DLT_LAST.TENANCY (R409). -/
def STN_DLT_LAST_TENANCY : Field := ⟨0x490040, 12, 4⟩
/-- STN_DLT_LAST.REASON (R409). -/
def STN_DLT_LAST_REASON : Field := ⟨0x490040, 16, 4⟩
/-- STN_DLT_LAST.INDEX (R409). -/
def STN_DLT_LAST_INDEX : Field := ⟨0x490040, 20, 8⟩
/-- STN_DLT_FLOW.PRESENT (R409). -/
def STN_DLT_FLOW_PRESENT (i0 : Nat) : Field := ⟨0x494000 + 0x8 * i0, 0, 16⟩
/-- STN_DLT_FLOW.HAS_LAYER (R409). -/
def STN_DLT_FLOW_HAS_LAYER (i0 : Nat) : Field := ⟨0x494000 + 0x8 * i0, 16, 1⟩
/-- STN_DLT_FLOW.DRAINED (R409). -/
def STN_DLT_FLOW_DRAINED (i0 : Nat) : Field := ⟨0x494000 + 0x8 * i0, 17, 1⟩
/-- STN_DLT_FLOW.ALT (R409). -/
def STN_DLT_FLOW_ALT (i0 : Nat) : Field := ⟨0x494000 + 0x8 * i0, 18, 1⟩
/-- STN_DLT_FLOW.KIND (R409). -/
def STN_DLT_FLOW_KIND (i0 : Nat) : Field := ⟨0x494000 + 0x8 * i0, 19, 1⟩
/-- STN_DLT_FLOW.STAGED_64K (R409). -/
def STN_DLT_FLOW_STAGED_64K (i0 : Nat) : Field := ⟨0x494000 + 0x8 * i0, 20, 16⟩
/-- STN_DLT_FLOW.DONE_PENDING (R409). -/
def STN_DLT_FLOW_DONE_PENDING (i0 : Nat) : Field := ⟨0x494000 + 0x8 * i0, 36, 6⟩
/-- STN_DLT_COMMIT.GO (R73). -/
def STN_DLT_COMMIT_GO : Field := ⟨0x49ff00, 0, 1⟩
/-- STN_DLT_COMMIT_STATUS.PENDING (R73). -/
def STN_DLT_COMMIT_STATUS_PENDING : Field := ⟨0x49ff08, 0, 1⟩
/-- STN_DLT_COMMIT_STATUS.RESULT (R73). -/
def STN_DLT_COMMIT_STATUS_RESULT : Field := ⟨0x49ff08, 1, 2⟩
/-- STN_DLT_COMMIT_STATUS.OVERRUN (R73). -/
def STN_DLT_COMMIT_STATUS_OVERRUN : Field := ⟨0x49ff08, 3, 1⟩
/-- STN_DLT_COMMIT_STATUS.RULE (R73). -/
def STN_DLT_COMMIT_STATUS_RULE : Field := ⟨0x49ff08, 8, 8⟩
/-- STN_DLT_COMMIT_STATUS.SEQ (R73). -/
def STN_DLT_COMMIT_STATUS_SEQ : Field := ⟨0x49ff08, 16, 16⟩
/-- RFL_STATUS.ENTRIES (R338). -/
def RFL_STATUS_ENTRIES : Field := ⟨0x800000, 0, 13⟩
/-- RFL_STATUS.STATEFUL_FLOWS (R338). -/
def RFL_STATUS_STATEFUL_FLOWS : Field := ⟨0x800000, 13, 13⟩
/-- RFL_STATUS.TABLES (R338). -/
def RFL_STATUS_TABLES : Field := ⟨0x800000, 26, 5⟩
/-- RFL_COUNT.DRAWS_M (R338). -/
def RFL_COUNT_DRAWS_M : Field := ⟨0x800008, 0, 32⟩
/-- RFL_COUNT.JUMPS (R338). -/
def RFL_COUNT_JUMPS : Field := ⟨0x800008, 32, 32⟩
/-- RFL_KAT_SEED.SEED (R338). -/
def RFL_KAT_SEED_SEED : Field := ⟨0x800010, 0, 64⟩
/-- RFL_KAT_CTR_LO.C_LO (R338). -/
def RFL_KAT_CTR_LO_C_LO : Field := ⟨0x800018, 0, 64⟩
/-- RFL_KAT_CTR_HI.C_HI (R338). -/
def RFL_KAT_CTR_HI_C_HI : Field := ⟨0x800020, 0, 64⟩
/-- RFL_KAT_CTRL.FLOW (R338). -/
def RFL_KAT_CTRL_FLOW : Field := ⟨0x800028, 0, 12⟩
/-- RFL_KAT_CTRL.GO (R338). -/
def RFL_KAT_CTRL_GO : Field := ⟨0x800028, 16, 1⟩
/-- RFL_KAT_CTRL.DONE (R338). -/
def RFL_KAT_CTRL_DONE : Field := ⟨0x800028, 17, 1⟩
/-- RFL_KAT_CTRL.KIND (R338). -/
def RFL_KAT_CTRL_KIND : Field := ⟨0x800028, 18, 2⟩
/-- RFL_KAT_CTRL.J (R338). -/
def RFL_KAT_CTRL_J : Field := ⟨0x800028, 20, 3⟩
/-- RFL_KAT_OUT_LO.OUT (R338). -/
def RFL_KAT_OUT_LO_OUT : Field := ⟨0x800030, 0, 64⟩
/-- RFL_KAT_OUT_HI.OUT (R338). -/
def RFL_KAT_OUT_HI_OUT : Field := ⟨0x800038, 0, 64⟩
/-- RFL_EPOCH.EPOCH (R339). -/
def RFL_EPOCH_EPOCH (i0 : Nat) : Field := ⟨0x801000 + 0x8 * i0, 0, 16⟩
/-- RFL_TABLE_A.ADDR (R340). -/
def RFL_TABLE_A_ADDR (i0 : Nat) : Field := ⟨0x809000 + 0x10 * i0, 0, 52⟩
/-- RFL_TABLE_B.CRC (R340). -/
def RFL_TABLE_B_CRC (i0 : Nat) : Field := ⟨0x809008 + 0x10 * i0, 0, 32⟩
/-- RFL_TABLE_B.USERS (R340). -/
def RFL_TABLE_B_USERS (i0 : Nat) : Field := ⟨0x809008 + 0x10 * i0, 32, 13⟩
/-- WEIR_CFG.RATE (R410). -/
def WEIR_CFG_RATE : Field := ⟨0x900000, 0, 14⟩
/-- WEIR_CFG.BURST_64K (R410). -/
def WEIR_CFG_BURST_64K : Field := ⟨0x900000, 16, 16⟩
/-- WEIR_STATUS.RATE_EFF (R410). -/
def WEIR_STATUS_RATE_EFF : Field := ⟨0x900008, 0, 14⟩
/-- WEIR_STATUS.PTC_RATE (R410). -/
def WEIR_STATUS_PTC_RATE : Field := ⟨0x900008, 16, 14⟩
/-- WEIR_STATUS.WAITING (R410). -/
def WEIR_STATUS_WAITING : Field := ⟨0x900008, 32, 16⟩
/-- WEIR_STATUS.DEBT_64K (R410). -/
def WEIR_STATUS_DEBT_64K : Field := ⟨0x900008, 48, 16⟩
/-- WEIR_TEN_A.BULK_MIB (R410). -/
def WEIR_TEN_A_BULK_MIB (i0 : Nat) : Field := ⟨0x901000 + 0x10 * i0, 0, 32⟩
/-- WEIR_TEN_A.DEADLINE_MIB (R410). -/
def WEIR_TEN_A_DEADLINE_MIB (i0 : Nat) : Field := ⟨0x901000 + 0x10 * i0, 32, 32⟩
/-- WEIR_TEN_B.SHARE (R410). -/
def WEIR_TEN_B_SHARE (i0 : Nat) : Field := ⟨0x901008 + 0x10 * i0, 0, 16⟩
/-- WEIR_TEN_B.HELD_US (R410). -/
def WEIR_TEN_B_HELD_US (i0 : Nat) : Field := ⟨0x901008 + 0x10 * i0, 16, 32⟩
/-- PTC_CTRL.REQ_PSTATE (R434). -/
def PTC_CTRL_REQ_PSTATE : Field := ⟨0xa00000, 0, 3⟩
/-- PTC_CTRL.STEADY (R434). -/
def PTC_CTRL_STEADY : Field := ⟨0xa00000, 3, 1⟩
/-- PTC_CTRL.STEADY_STATE (R434). -/
def PTC_CTRL_STEADY_STATE : Field := ⟨0xa00000, 4, 3⟩
/-- PTC_CTRL.UP_HOLD_US (R434). -/
def PTC_CTRL_UP_HOLD_US : Field := ⟨0xa00000, 8, 10⟩
/-- PTC_EST_CFG.PCT (R434). -/
def PTC_EST_CFG_PCT : Field := ⟨0xa00008, 0, 7⟩
/-- PTC_EST_CFG.WINDOW_US (R434). -/
def PTC_EST_CFG_WINDOW_US : Field := ⟨0xa00008, 8, 12⟩
/-- PTC_EST_CFG.AGREE_MS (R434). -/
def PTC_EST_CFG_AGREE_MS : Field := ⟨0xa00008, 20, 8⟩
/-- PTC_COMP_CFG.EN (R434). -/
def PTC_COMP_CFG_EN : Field := ⟨0xa00010, 0, 1⟩
/-- PTC_COMP_CFG.LEVEL (R434). -/
def PTC_COMP_CFG_LEVEL : Field := ⟨0xa00010, 1, 8⟩
/-- PTC_COMP_CFG.HINT_MAX_US (R434). -/
def PTC_COMP_CFG_HINT_MAX_US : Field := ⟨0xa00010, 9, 16⟩
/-- PTC_STATUS.PSTATE (R434). -/
def PTC_STATUS_PSTATE : Field := ⟨0xa00018, 0, 3⟩
/-- PTC_STATUS.REQUESTED (R434). -/
def PTC_STATUS_REQUESTED : Field := ⟨0xa00018, 3, 3⟩
/-- PTC_STATUS.IN_FORCE (R434). -/
def PTC_STATUS_IN_FORCE : Field := ⟨0xa00018, 6, 6⟩
/-- PTC_STATUS.BINDING (R434). -/
def PTC_STATUS_BINDING : Field := ⟨0xa00018, 12, 3⟩
/-- PTC_STATUS.BOOST_OK (R434). -/
def PTC_STATUS_BOOST_OK : Field := ⟨0xa00018, 15, 1⟩
/-- PTC_STATUS.CAP_SHORT (R434). -/
def PTC_STATUS_CAP_SHORT : Field := ⟨0xa00018, 16, 1⟩
/-- PTC_STATUS.STEADY_OVERCAP (R434). -/
def PTC_STATUS_STEADY_OVERCAP : Field := ⟨0xa00018, 17, 1⟩
/-- PTC_STATUS.MEAS_STALE (R434). -/
def PTC_STATUS_MEAS_STALE : Field := ⟨0xa00018, 18, 1⟩
/-- PTC_STATUS.COMPLEMENT (R434). -/
def PTC_STATUS_COMPLEMENT : Field := ⟨0xa00018, 19, 1⟩
/-- PTC_STATUS.BAND (R434). -/
def PTC_STATUS_BAND : Field := ⟨0xa00018, 20, 2⟩
/-- PTC_STATUS.VOLT_MV (R434). -/
def PTC_STATUS_VOLT_MV : Field := ⟨0xa00018, 22, 12⟩
/-- PTC_CAP.SHARE (R434). -/
def PTC_CAP_SHARE : Field := ⟨0xa00020, 0, 16⟩
/-- PTC_CAP.COMPUTE (R434). -/
def PTC_CAP_COMPUTE : Field := ⟨0xa00020, 16, 16⟩
/-- PTC_CAP.MEMORY (R434). -/
def PTC_CAP_MEMORY : Field := ⟨0xa00020, 32, 16⟩
/-- PTC_CAP.LINKS (R434). -/
def PTC_CAP_LINKS : Field := ⟨0xa00020, 48, 16⟩
/-- PTC_POWER.EST (R434). -/
def PTC_POWER_EST : Field := ⟨0xa00028, 0, 16⟩
/-- PTC_POWER.MEAS (R434). -/
def PTC_POWER_MEAS : Field := ⟨0xa00028, 16, 16⟩
/-- PTC_POWER.CURRENT (R434). -/
def PTC_POWER_CURRENT : Field := ⟨0xa00028, 32, 16⟩
/-- PTC_POWER.EDC_TIMER_4US (R434). -/
def PTC_POWER_EDC_TIMER_4US : Field := ⟨0xa00028, 48, 16⟩
/-- PTC_TEMP.TJ (R434). -/
def PTC_TEMP_TJ : Field := ⟨0xa00030, 0, 16⟩
/-- PTC_TEMP.TJ_PEAK (R434). -/
def PTC_TEMP_TJ_PEAK : Field := ⟨0xa00030, 16, 16⟩
/-- PTC_BOOST.USED_MS (R434). -/
def PTC_BOOST_USED_MS : Field := ⟨0xa00038, 0, 22⟩
/-- PTC_BOOST.LAST_MS (R434). -/
def PTC_BOOST_LAST_MS : Field := ⟨0xa00038, 22, 20⟩
/-- PTC_BOOST.END (R434). -/
def PTC_BOOST_END : Field := ⟨0xa00038, 42, 3⟩
/-- PTC_THR_DUR.NS (R435). -/
def PTC_THR_DUR_NS (i0 : Nat) : Field := ⟨0xa00100 + 0x20 * i0, 0, 64⟩
/-- PTC_THR_COUNT.EVENTS (R435). -/
def PTC_THR_COUNT_EVENTS (i0 : Nat) : Field := ⟨0xa00108 + 0x20 * i0, 0, 32⟩
/-- PTC_THR_LAST.TIME (R435). -/
def PTC_THR_LAST_TIME (i0 : Nat) : Field := ⟨0xa00110 + 0x20 * i0, 0, 64⟩
/-- PTC_COMMIT.GO (R73). -/
def PTC_COMMIT_GO : Field := ⟨0xa0ff00, 0, 1⟩
/-- PTC_COMMIT_STATUS.PENDING (R73). -/
def PTC_COMMIT_STATUS_PENDING : Field := ⟨0xa0ff08, 0, 1⟩
/-- PTC_COMMIT_STATUS.RESULT (R73). -/
def PTC_COMMIT_STATUS_RESULT : Field := ⟨0xa0ff08, 1, 2⟩
/-- PTC_COMMIT_STATUS.OVERRUN (R73). -/
def PTC_COMMIT_STATUS_OVERRUN : Field := ⟨0xa0ff08, 3, 1⟩
/-- PTC_COMMIT_STATUS.RULE (R73). -/
def PTC_COMMIT_STATUS_RULE : Field := ⟨0xa0ff08, 8, 8⟩
/-- PTC_COMMIT_STATUS.SEQ (R73). -/
def PTC_COMMIT_STATUS_SEQ : Field := ⟨0xa0ff08, 16, 16⟩
/-- FLT_STATUS.SUMMARY (R468). -/
def FLT_STATUS_SUMMARY : Field := ⟨0xb00000, 0, 3⟩
/-- FLT_STATUS.HALTED (R468). -/
def FLT_STATUS_HALTED : Field := ⟨0xb00000, 3, 1⟩
/-- FLT_STATUS.LANES_FENCED (R468). -/
def FLT_STATUS_LANES_FENCED : Field := ⟨0xb00000, 4, 8⟩
/-- FLT_STATUS.ENGINES_FENCED (R468). -/
def FLT_STATUS_ENGINES_FENCED : Field := ⟨0xb00000, 12, 6⟩
/-- FLT_STATUS.SPARE_LANES (R468). -/
def FLT_STATUS_SPARE_LANES : Field := ⟨0xb00000, 18, 8⟩
/-- FLT_STATUS.SPARE_ENGINES (R468). -/
def FLT_STATUS_SPARE_ENGINES : Field := ⟨0xb00000, 26, 6⟩
/-- FLT_STATUS.UNITS_FENCED (R468). -/
def FLT_STATUS_UNITS_FENCED : Field := ⟨0xb00000, 32, 7⟩
/-- FLT_STATUS.SUSPENDED (R468). -/
def FLT_STATUS_SUSPENDED : Field := ⟨0xb00000, 39, 13⟩
/-- FLT_STATUS.RAIL_FAULTS (R468). -/
def FLT_STATUS_RAIL_FAULTS : Field := ⟨0xb00000, 52, 12⟩
/-- FLT_IRQ.TENANCY (R468). -/
def FLT_IRQ_TENANCY : Field := ⟨0xb00008, 0, 4⟩
/-- FLT_IRQ.VECTOR (R468). -/
def FLT_IRQ_VECTOR : Field := ⟨0xb00008, 4, 11⟩
/-- FLT_IRQ.CLASS_MASK (R468). -/
def FLT_IRQ_CLASS_MASK : Field := ⟨0xb00008, 16, 5⟩
/-- FLT_IRQ.EN (R468). -/
def FLT_IRQ_EN : Field := ⟨0xb00008, 21, 1⟩
/-- FLT_FENCE.UNIT (R468). -/
def FLT_FENCE_UNIT : Field := ⟨0xb00010, 0, 8⟩
/-- FLT_FENCE.KIND (R468). -/
def FLT_FENCE_KIND : Field := ⟨0xb00010, 8, 2⟩
/-- FLT_FENCE.SPARE_TAKEN (R468). -/
def FLT_FENCE_SPARE_TAKEN : Field := ⟨0xb00010, 10, 1⟩
/-- FLT_FENCE.REIMPOSE_US (R468). -/
def FLT_FENCE_REIMPOSE_US : Field := ⟨0xb00010, 32, 20⟩
/-- FLT_CKPT.WRITE_FAILS (R468). -/
def FLT_CKPT_WRITE_FAILS : Field := ⟨0xb00018, 0, 32⟩
/-- FLT_CKPT.DEGRADED (R468). -/
def FLT_CKPT_DEGRADED : Field := ⟨0xb00018, 32, 16⟩
/-- FLT_CKPT.RESTORE_OLDER (R468). -/
def FLT_CKPT_RESTORE_OLDER : Field := ⟨0xb00018, 48, 16⟩
/-- FLT_TKO_STATUS.STATE (R468). -/
def FLT_TKO_STATUS_STATE : Field := ⟨0xb00020, 0, 2⟩
/-- FLT_TKO_STATUS.ADMITTED (R468). -/
def FLT_TKO_STATUS_ADMITTED : Field := ⟨0xb00020, 2, 13⟩
/-- FLT_TKO_STATUS.REFUSED (R468). -/
def FLT_TKO_STATUS_REFUSED : Field := ⟨0xb00020, 15, 13⟩
/-- FLT_TKO_STATUS.POSTED (R468). -/
def FLT_TKO_STATUS_POSTED : Field := ⟨0xb00020, 28, 13⟩
/-- FLT_TKO_STATUS.UNPOSTED (R468). -/
def FLT_TKO_STATUS_UNPOSTED : Field := ⟨0xb00020, 41, 13⟩
/-- FLT_TKO_TIME.ELAPSED_US (R468). -/
def FLT_TKO_TIME_ELAPSED_US : Field := ⟨0xb00028, 0, 32⟩
/-- FLT_SRC_STATE.COUNT (R469). -/
def FLT_SRC_STATE_COUNT (i0 : Nat) : Field := ⟨0xb00400 + 0x8 * i0, 0, 32⟩
/-- FLT_SRC_STATE.LEVEL (R469). -/
def FLT_SRC_STATE_LEVEL (i0 : Nat) : Field := ⟨0xb00400 + 0x8 * i0, 32, 3⟩
/-- FLT_SRC_STATE.ESCALATED (R469). -/
def FLT_SRC_STATE_ESCALATED (i0 : Nat) : Field := ⟨0xb00400 + 0x8 * i0, 35, 1⟩
/-- FLT_SRC_STATE.RAIL (R469). -/
def FLT_SRC_STATE_RAIL (i0 : Nat) : Field := ⟨0xb00400 + 0x8 * i0, 36, 1⟩
/-- FLT_CAP_ADDR.ADDR (R469). -/
def FLT_CAP_ADDR_ADDR (i0 : Nat) : Field := ⟨0xb01040 + 0x40 * i0, 0, 52⟩
/-- FLT_CAP_ADDR.ACCESS (R469). -/
def FLT_CAP_ADDR_ACCESS (i0 : Nat) : Field := ⟨0xb01040 + 0x40 * i0, 52, 4⟩
/-- FLT_CAP_ADDR.VALID (R469). -/
def FLT_CAP_ADDR_VALID (i0 : Nat) : Field := ⟨0xb01040 + 0x40 * i0, 63, 1⟩
/-- FLT_CAP_MASTER.TENANCY (R469). -/
def FLT_CAP_MASTER_TENANCY (i0 : Nat) : Field := ⟨0xb01048 + 0x40 * i0, 0, 4⟩
/-- FLT_CAP_MASTER.STATION (R469). -/
def FLT_CAP_MASTER_STATION (i0 : Nat) : Field := ⟨0xb01048 + 0x40 * i0, 4, 8⟩
/-- FLT_CAP_MASTER.LANE (R469). -/
def FLT_CAP_MASTER_LANE (i0 : Nat) : Field := ⟨0xb01048 + 0x40 * i0, 12, 8⟩
/-- FLT_CAP_MASTER.THREAD (R469). -/
def FLT_CAP_MASTER_THREAD (i0 : Nat) : Field := ⟨0xb01048 + 0x40 * i0, 20, 5⟩
/-- FLT_CAP_MASTER.TENANCY_VALID (R469). -/
def FLT_CAP_MASTER_TENANCY_VALID (i0 : Nat) : Field := ⟨0xb01048 + 0x40 * i0, 25, 1⟩
/-- FLT_CAP_MASTER.LANE_VALID (R469). -/
def FLT_CAP_MASTER_LANE_VALID (i0 : Nat) : Field := ⟨0xb01048 + 0x40 * i0, 26, 1⟩
/-- FLT_CAP_MASTER.SOURCE (R469). -/
def FLT_CAP_MASTER_SOURCE (i0 : Nat) : Field := ⟨0xb01048 + 0x40 * i0, 32, 8⟩
/-- FLT_CAP_MASTER.FOLLOWING (R469). -/
def FLT_CAP_MASTER_FOLLOWING (i0 : Nat) : Field := ⟨0xb01048 + 0x40 * i0, 40, 16⟩
/-- FLT_CAP_TIME.TIME (R469). -/
def FLT_CAP_TIME_TIME (i0 : Nat) : Field := ⟨0xb01050 + 0x40 * i0, 0, 64⟩
/-- FLT_CAP_SYND.SYNDROME (R469). -/
def FLT_CAP_SYND_SYNDROME (i0 : Nat) : Field := ⟨0xb01058 + 0x40 * i0, 0, 32⟩
/-- FLT_CAP_SYND.FLOW (R469). -/
def FLT_CAP_SYND_FLOW (i0 : Nat) : Field := ⟨0xb01058 + 0x40 * i0, 32, 12⟩
/-- FLT_CAP_SYND.FLOW_VALID (R469). -/
def FLT_CAP_SYND_FLOW_VALID (i0 : Nat) : Field := ⟨0xb01058 + 0x40 * i0, 44, 1⟩
/-- FLT_TKO_ENTRY.FLOW (R469). -/
def FLT_TKO_ENTRY_FLOW (i0 : Nat) : Field := ⟨0xb08000 + 0x8 * i0, 0, 12⟩
/-- FLT_TKO_ENTRY.TENANCY (R469). -/
def FLT_TKO_ENTRY_TENANCY (i0 : Nat) : Field := ⟨0xb08000 + 0x8 * i0, 12, 4⟩
/-- FLT_TKO_ENTRY.RESULT (R469). -/
def FLT_TKO_ENTRY_RESULT (i0 : Nat) : Field := ⟨0xb08000 + 0x8 * i0, 16, 3⟩
/-- FLT_TKO_ENTRY.CODE (R469). -/
def FLT_TKO_ENTRY_CODE (i0 : Nat) : Field := ⟨0xb08000 + 0x8 * i0, 19, 8⟩
/-- FLT_TKO_ENTRY.VALID (R469). -/
def FLT_TKO_ENTRY_VALID (i0 : Nat) : Field := ⟨0xb08000 + 0x8 * i0, 27, 1⟩
/-- TIM_NOW.TIME (R493). -/
def TIM_NOW_TIME : Field := ⟨0xc00000, 0, 64⟩
/-- TIM_STATUS.LOCKED (R493). -/
def TIM_STATUS_LOCKED : Field := ⟨0xc00008, 0, 1⟩
/-- TIM_STATUS.SLEWING (R493). -/
def TIM_STATUS_SLEWING : Field := ⟨0xc00008, 1, 1⟩
/-- TIM_STATUS.SYNCS (R493). -/
def TIM_STATUS_SYNCS : Field := ⟨0xc00008, 16, 16⟩
/-- TIM_STATUS.LAST_STEP_NS (R493). -/
def TIM_STATUS_LAST_STEP_NS : Field := ⟨0xc00008, 32, 32⟩
/-- TEN_ID.TENANCY (R150). -/
def TEN_ID_TENANCY (i0 : Nat) : Field := ⟨0x1000000 + 0x100000 * i0, 0, 4⟩
/-- TEN_ID.ENABLED (R150). -/
def TEN_ID_ENABLED (i0 : Nat) : Field := ⟨0x1000000 + 0x100000 * i0, 4, 1⟩
/-- TEN_ID.CXL (R150). -/
def TEN_ID_CXL (i0 : Nat) : Field := ⟨0x1000000 + 0x100000 * i0, 5, 1⟩
/-- TEN_ID.HOST_FUNCTION (R150). -/
def TEN_ID_HOST_FUNCTION (i0 : Nat) : Field := ⟨0x1000000 + 0x100000 * i0, 6, 13⟩
/-- TEN_SQ_RANGE.FIRST (R150). -/
def TEN_SQ_RANGE_FIRST (i0 : Nat) : Field := ⟨0x1000008 + 0x100000 * i0, 0, 20⟩
/-- TEN_SQ_RANGE.COUNT (R150). -/
def TEN_SQ_RANGE_COUNT (i0 : Nat) : Field := ⟨0x1000008 + 0x100000 * i0, 20, 21⟩
/-- TEN_CQ_RANGE.FIRST (R150). -/
def TEN_CQ_RANGE_FIRST (i0 : Nat) : Field := ⟨0x1000010 + 0x100000 * i0, 0, 16⟩
/-- TEN_CQ_RANGE.COUNT (R150). -/
def TEN_CQ_RANGE_COUNT (i0 : Nat) : Field := ⟨0x1000010 + 0x100000 * i0, 16, 17⟩
/-- TEN_CQ_RANGE.MSI_VECTORS (R150). -/
def TEN_CQ_RANGE_MSI_VECTORS (i0 : Nat) : Field := ⟨0x1000010 + 0x100000 * i0, 33, 12⟩
/-- TEN_QUOTA.MAX_TASKS (R150). -/
def TEN_QUOTA_MAX_TASKS (i0 : Nat) : Field := ⟨0x1000018 + 0x100000 * i0, 0, 13⟩
/-- TEN_QUOTA.TASKS_IN_FLIGHT (R150). -/
def TEN_QUOTA_TASKS_IN_FLIGHT (i0 : Nat) : Field := ⟨0x1000018 + 0x100000 * i0, 13, 13⟩
/-- TEN_QUOTA.DEADLINE_HELD (R150). -/
def TEN_QUOTA_DEADLINE_HELD (i0 : Nat) : Field := ⟨0x1000018 + 0x100000 * i0, 26, 13⟩
/-- TEN_CTRL.RESET (R150). -/
def TEN_CTRL_RESET (i0 : Nat) : Field := ⟨0x1000020 + 0x100000 * i0, 0, 1⟩
/-- TEN_STATUS.RESETTING (R150). -/
def TEN_STATUS_RESETTING (i0 : Nat) : Field := ⟨0x1000028 + 0x100000 * i0, 0, 1⟩
/-- TEN_STATUS.CQ_FULL (R150). -/
def TEN_STATUS_CQ_FULL (i0 : Nat) : Field := ⟨0x1000028 + 0x100000 * i0, 1, 1⟩
/-- TEN_STATUS.DB_ERROR (R150). -/
def TEN_STATUS_DB_ERROR (i0 : Nat) : Field := ⟨0x1000028 + 0x100000 * i0, 2, 1⟩
/-- TEN_STATUS.WINDOW_ERROR (R150). -/
def TEN_STATUS_WINDOW_ERROR (i0 : Nat) : Field := ⟨0x1000028 + 0x100000 * i0, 3, 1⟩
/-- TEN_STATUS.CQ_LOST (R150). -/
def TEN_STATUS_CQ_LOST (i0 : Nat) : Field := ⟨0x1000028 + 0x100000 * i0, 4, 1⟩
/-- TEN_STATUS.RESET_ABORTED (R150). -/
def TEN_STATUS_RESET_ABORTED (i0 : Nat) : Field := ⟨0x1000028 + 0x100000 * i0, 16, 13⟩
/-- TEN_DOORBELL.RING (R150). -/
def TEN_DOORBELL_RING (i0 : Nat) : Field := ⟨0x1000030 + 0x100000 * i0, 0, 20⟩
/-- TEN_DOORBELL.TAIL (R150). -/
def TEN_DOORBELL_TAIL (i0 : Nat) : Field := ⟨0x1000030 + 0x100000 * i0, 20, 16⟩
/-- TEN_CQ_DOORBELL.RING (R150). -/
def TEN_CQ_DOORBELL_RING (i0 : Nat) : Field := ⟨0x1000038 + 0x100000 * i0, 0, 16⟩
/-- TEN_CQ_DOORBELL.HEAD (R150). -/
def TEN_CQ_DOORBELL_HEAD (i0 : Nat) : Field := ⟨0x1000038 + 0x100000 * i0, 16, 16⟩
/-- TEN_SQ_TABLE.ADDR (R150). -/
def TEN_SQ_TABLE_ADDR (i0 : Nat) : Field := ⟨0x1000040 + 0x100000 * i0, 0, 52⟩
/-- TEN_CQ_TABLE.ADDR (R150). -/
def TEN_CQ_TABLE_ADDR (i0 : Nat) : Field := ⟨0x1000048 + 0x100000 * i0, 0, 52⟩
/-- TEN_RING_CMD.KIND (R150). -/
def TEN_RING_CMD_KIND (i0 : Nat) : Field := ⟨0x1000050 + 0x100000 * i0, 0, 1⟩
/-- TEN_RING_CMD.OP (R150). -/
def TEN_RING_CMD_OP (i0 : Nat) : Field := ⟨0x1000050 + 0x100000 * i0, 1, 2⟩
/-- TEN_RING_CMD.RING (R150). -/
def TEN_RING_CMD_RING (i0 : Nat) : Field := ⟨0x1000050 + 0x100000 * i0, 8, 20⟩
/-- TEN_RING_STATUS.BUSY (R150). -/
def TEN_RING_STATUS_BUSY (i0 : Nat) : Field := ⟨0x1000058 + 0x100000 * i0, 0, 1⟩
/-- TEN_RING_STATUS.RESULT (R150). -/
def TEN_RING_STATUS_RESULT (i0 : Nat) : Field := ⟨0x1000058 + 0x100000 * i0, 1, 3⟩
/-- TEN_RING_STATUS.OVERRUN (R150). -/
def TEN_RING_STATUS_OVERRUN (i0 : Nat) : Field := ⟨0x1000058 + 0x100000 * i0, 4, 1⟩
/-- TEN_RING_STATUS.RING (R150). -/
def TEN_RING_STATUS_RING (i0 : Nat) : Field := ⟨0x1000058 + 0x100000 * i0, 8, 20⟩
/-- TEN_DB_ERRORS.BAD_RING (R150). -/
def TEN_DB_ERRORS_BAD_RING (i0 : Nat) : Field := ⟨0x1000060 + 0x100000 * i0, 0, 16⟩
/-- TEN_DB_ERRORS.DISABLED_RING (R150). -/
def TEN_DB_ERRORS_DISABLED_RING (i0 : Nat) : Field := ⟨0x1000060 + 0x100000 * i0, 16, 16⟩
/-- TEN_DB_ERRORS.BAD_TAIL (R150). -/
def TEN_DB_ERRORS_BAD_TAIL (i0 : Nat) : Field := ⟨0x1000060 + 0x100000 * i0, 32, 16⟩
/-- TEN_DB_ERRORS.BAD_CQ_HEAD (R150). -/
def TEN_DB_ERRORS_BAD_CQ_HEAD (i0 : Nat) : Field := ⟨0x1000060 + 0x100000 * i0, 48, 16⟩
/-- TEN_COMMIT.GO (R73). -/
def TEN_COMMIT_GO (i0 : Nat) : Field := ⟨0x1000080 + 0x100000 * i0, 0, 1⟩
/-- TEN_COMMIT_STATUS.PENDING (R73). -/
def TEN_COMMIT_STATUS_PENDING (i0 : Nat) : Field := ⟨0x1000088 + 0x100000 * i0, 0, 1⟩
/-- TEN_COMMIT_STATUS.RESULT (R73). -/
def TEN_COMMIT_STATUS_RESULT (i0 : Nat) : Field := ⟨0x1000088 + 0x100000 * i0, 1, 2⟩
/-- TEN_COMMIT_STATUS.OVERRUN (R73). -/
def TEN_COMMIT_STATUS_OVERRUN (i0 : Nat) : Field := ⟨0x1000088 + 0x100000 * i0, 3, 1⟩
/-- TEN_COMMIT_STATUS.RULE (R73). -/
def TEN_COMMIT_STATUS_RULE (i0 : Nat) : Field := ⟨0x1000088 + 0x100000 * i0, 8, 8⟩
/-- TEN_COMMIT_STATUS.SEQ (R73). -/
def TEN_COMMIT_STATUS_SEQ (i0 : Nat) : Field := ⟨0x1000088 + 0x100000 * i0, 16, 16⟩
/-- TEN_WIN_BASE.ENABLE (R151). -/
def TEN_WIN_BASE_ENABLE (i0 : Nat) (i1 : Nat) : Field := ⟨0x1001000 + 0x100000 * i0 + 0x10 * i1, 0, 1⟩
/-- TEN_WIN_BASE.READ (R151). -/
def TEN_WIN_BASE_READ (i0 : Nat) (i1 : Nat) : Field := ⟨0x1001000 + 0x100000 * i0 + 0x10 * i1, 1, 1⟩
/-- TEN_WIN_BASE.WRITE (R151). -/
def TEN_WIN_BASE_WRITE (i0 : Nat) (i1 : Nat) : Field := ⟨0x1001000 + 0x100000 * i0 + 0x10 * i1, 2, 1⟩
/-- TEN_WIN_BASE.BASE (R151). -/
def TEN_WIN_BASE_BASE (i0 : Nat) (i1 : Nat) : Field := ⟨0x1001000 + 0x100000 * i0 + 0x10 * i1, 12, 40⟩
/-- TEN_WIN_LIMIT.LIMIT (R151). -/
def TEN_WIN_LIMIT_LIMIT (i0 : Nat) (i1 : Nat) : Field := ⟨0x1001008 + 0x100000 * i0 + 0x10 * i1, 12, 40⟩
/-- TEN_POOL_EVENTS.WARN (R181). -/
def TEN_POOL_EVENTS_WARN (i0 : Nat) : Field := ⟨0x1002000 + 0x100000 * i0, 0, 32⟩
/-- TEN_POOL_EVENTS.THROTTLE (R181). -/
def TEN_POOL_EVENTS_THROTTLE (i0 : Nat) : Field := ⟨0x1002000 + 0x100000 * i0, 32, 32⟩
/-- TEN_POOL_IRQ.STOP (R181). -/
def TEN_POOL_IRQ_STOP (i0 : Nat) : Field := ⟨0x1002008 + 0x100000 * i0, 0, 32⟩
/-- TEN_POOL_IRQ.VECTOR (R181). -/
def TEN_POOL_IRQ_VECTOR (i0 : Nat) : Field := ⟨0x1002008 + 0x100000 * i0, 32, 11⟩
/-- TEN_POOL_IRQ.EN (R181). -/
def TEN_POOL_IRQ_EN (i0 : Nat) : Field := ⟨0x1002008 + 0x100000 * i0, 48, 1⟩
/-- TEN_LIVE_TABLE.ADDR (R215). -/
def TEN_LIVE_TABLE_ADDR (i0 : Nat) : Field := ⟨0x1002100 + 0x100000 * i0, 0, 52⟩
/-- TEN_LIVE_DOORBELL.PORT (R215). -/
def TEN_LIVE_DOORBELL_PORT (i0 : Nat) : Field := ⟨0x1002108 + 0x100000 * i0, 0, 9⟩
/-- TEN_LIVE_DOORBELL.SLOT (R215). -/
def TEN_LIVE_DOORBELL_SLOT (i0 : Nat) : Field := ⟨0x1002108 + 0x100000 * i0, 9, 3⟩
/-- TEN_LIVE_STATUS.BAD_PORT (R215). -/
def TEN_LIVE_STATUS_BAD_PORT (i0 : Nat) : Field := ⟨0x1002110 + 0x100000 * i0, 0, 16⟩
/-- TEN_LIVE_STATUS.SLOT_BUSY (R215). -/
def TEN_LIVE_STATUS_SLOT_BUSY (i0 : Nat) : Field := ⟨0x1002110 + 0x100000 * i0, 16, 16⟩
/-- TEN_LIVE_STATUS.PORT_FULL (R215). -/
def TEN_LIVE_STATUS_PORT_FULL (i0 : Nat) : Field := ⟨0x1002110 + 0x100000 * i0, 32, 16⟩
/-- TEN_LIVE_STATUS.KEEP_LOST (R215). -/
def TEN_LIVE_STATUS_KEEP_LOST (i0 : Nat) : Field := ⟨0x1002110 + 0x100000 * i0, 48, 16⟩
/-- TEN_PKT_DOORBELL.FLOW (R289). -/
def TEN_PKT_DOORBELL_FLOW (i0 : Nat) : Field := ⟨0x1002200 + 0x100000 * i0, 0, 12⟩
/-- TEN_PKT_DOORBELL.READ (R289). -/
def TEN_PKT_DOORBELL_READ (i0 : Nat) : Field := ⟨0x1002200 + 0x100000 * i0, 12, 30⟩
/-- TEN_PKT_STATUS.FULL (R289). -/
def TEN_PKT_STATUS_FULL (i0 : Nat) : Field := ⟨0x1002208 + 0x100000 * i0, 0, 1⟩
/-- TEN_PKT_STATUS.BAD_PUSH (R289). -/
def TEN_PKT_STATUS_BAD_PUSH (i0 : Nat) : Field := ⟨0x1002208 + 0x100000 * i0, 16, 16⟩
/-- TEN_GALLEY_SEQ.FLOW (R378). -/
def TEN_GALLEY_SEQ_FLOW (i0 : Nat) : Field := ⟨0x1002300 + 0x100000 * i0, 0, 12⟩
/-- TEN_GALLEY_SEQ.OP (R378). -/
def TEN_GALLEY_SEQ_OP (i0 : Nat) : Field := ⟨0x1002300 + 0x100000 * i0, 12, 2⟩
/-- TEN_GALLEY_STEP.GROUP (R378). -/
def TEN_GALLEY_STEP_GROUP (i0 : Nat) : Field := ⟨0x1002308 + 0x100000 * i0, 0, 6⟩
/-- TEN_GALLEY_SKIP.FLOW (R378). -/
def TEN_GALLEY_SKIP_FLOW (i0 : Nat) : Field := ⟨0x1002310 + 0x100000 * i0, 0, 12⟩
/-- TEN_GALLEY_SKIP.UP_TO (R378). -/
def TEN_GALLEY_SKIP_UP_TO (i0 : Nat) : Field := ⟨0x1002310 + 0x100000 * i0, 12, 48⟩
/-- TEN_GALLEY_SKIP.FLUSH (R378). -/
def TEN_GALLEY_SKIP_FLUSH (i0 : Nat) : Field := ⟨0x1002310 + 0x100000 * i0, 60, 1⟩
/-- TEN_GALLEY_STATUS.BAD_WRITE (R378). -/
def TEN_GALLEY_STATUS_BAD_WRITE (i0 : Nat) : Field := ⟨0x1002318 + 0x100000 * i0, 0, 16⟩
/-- TEN_DELTA_ALT.FLOW (R411). -/
def TEN_DELTA_ALT_FLOW (i0 : Nat) : Field := ⟨0x1002400 + 0x100000 * i0, 0, 12⟩
/-- TEN_DELTA_ALT.OP (R411). -/
def TEN_DELTA_ALT_OP (i0 : Nat) : Field := ⟨0x1002400 + 0x100000 * i0, 12, 2⟩
/-- TEN_DELTA_DONE.FLOW (R411). -/
def TEN_DELTA_DONE_FLOW (i0 : Nat) : Field := ⟨0x1002408 + 0x100000 * i0, 0, 12⟩
/-- TEN_DELTA_DONE.DIE (R411). -/
def TEN_DELTA_DONE_DIE (i0 : Nat) : Field := ⟨0x1002408 + 0x100000 * i0, 12, 5⟩
/-- TEN_DELTA_DONE.LAYER (R411). -/
def TEN_DELTA_DONE_LAYER (i0 : Nat) : Field := ⟨0x1002408 + 0x100000 * i0, 32, 16⟩
/-- TEN_DELTA_STATUS.BAD_WRITE (R411). -/
def TEN_DELTA_STATUS_BAD_WRITE (i0 : Nat) : Field := ⟨0x1002410 + 0x100000 * i0, 0, 16⟩
/-- TEN_FLT.FAULTED (R470). -/
def TEN_FLT_FAULTED (i0 : Nat) : Field := ⟨0x1002500 + 0x100000 * i0, 0, 1⟩
/-- TEN_FLT.TAKEN (R470). -/
def TEN_FLT_TAKEN (i0 : Nat) : Field := ⟨0x1002500 + 0x100000 * i0, 1, 1⟩
/-- TEN_FLT.SUSPENDED (R470). -/
def TEN_FLT_SUSPENDED (i0 : Nat) : Field := ⟨0x1002500 + 0x100000 * i0, 2, 1⟩
/-- TEN_FLT.LAST_SOURCE (R470). -/
def TEN_FLT_LAST_SOURCE (i0 : Nat) : Field := ⟨0x1002500 + 0x100000 * i0, 3, 8⟩
/-- TEN_FLT.VECTOR (R470). -/
def TEN_FLT_VECTOR (i0 : Nat) : Field := ⟨0x1002500 + 0x100000 * i0, 11, 11⟩
/-- TEN_FLT.EN (R470). -/
def TEN_FLT_EN (i0 : Nat) : Field := ⟨0x1002500 + 0x100000 * i0, 22, 1⟩
/-- TEN_TKO_CQ.RING (R470). -/
def TEN_TKO_CQ_RING (i0 : Nat) : Field := ⟨0x1002508 + 0x100000 * i0, 0, 16⟩
/-- TEN_TKO_CQ.EN (R470). -/
def TEN_TKO_CQ_EN (i0 : Nat) : Field := ⟨0x1002508 + 0x100000 * i0, 16, 1⟩
/-- TEN_TKO_CQ.LOST (R470). -/
def TEN_TKO_CQ_LOST (i0 : Nat) : Field := ⟨0x1002508 + 0x100000 * i0, 32, 16⟩
/-- GRD_CTRL.DELIVERED (R492). -/
def GRD_CTRL_DELIVERED : Field := ⟨0x2000000, 0, 1⟩
/-- GRD_CTRL.FORGET (R492). -/
def GRD_CTRL_FORGET : Field := ⟨0x2000000, 1, 1⟩
/-- GRD_CTRL.PEER_TOOK (R492). -/
def GRD_CTRL_PEER_TOOK : Field := ⟨0x2000000, 2, 1⟩
/-- GRD_IDENT.INSTANCE (R492). -/
def GRD_IDENT_INSTANCE : Field := ⟨0x2000008, 0, 1⟩
/-- GRD_IDENT.DIE_SERIAL (R492). -/
def GRD_IDENT_DIE_SERIAL : Field := ⟨0x2000008, 32, 32⟩
/-- GRD_KEY.KEY (R471). -/
def GRD_KEY_KEY (i0 : Nat) (i1 : Nat) : Field := ⟨0x2000100 + 0x80 * i0 + 0x8 * i1, 0, 64⟩
/-- GRD_KEY_STATUS.VALID (R471). -/
def GRD_KEY_STATUS_VALID (i0 : Nat) : Field := ⟨0x2000160 + 0x80 * i0, 0, 1⟩
/-- GRD_PWR_LIMITS.TDC_A (R436). -/
def GRD_PWR_LIMITS_TDC_A : Field := ⟨0x2001000, 0, 10⟩
/-- GRD_PWR_LIMITS.EDC_A (R436). -/
def GRD_PWR_LIMITS_EDC_A : Field := ⟨0x2001000, 10, 10⟩
/-- GRD_PWR_LIMITS.EDC_MS (R436). -/
def GRD_PWR_LIMITS_EDC_MS : Field := ⟨0x2001000, 20, 8⟩
/-- GRD_PWR_LIMITS.TJ_BOOST (R436). -/
def GRD_PWR_LIMITS_TJ_BOOST : Field := ⟨0x2001000, 28, 8⟩
/-- GRD_PWR_LIMITS.TJ_MAX (R436). -/
def GRD_PWR_LIMITS_TJ_MAX : Field := ⟨0x2001000, 36, 8⟩
/-- GRD_PWR_LIMITS.TJ_CRIT (R436). -/
def GRD_PWR_LIMITS_TJ_CRIT : Field := ⟨0x2001000, 44, 8⟩
/-- GRD_PWR_LIMITS.BOOST_PCT (R436). -/
def GRD_PWR_LIMITS_BOOST_PCT : Field := ⟨0x2001000, 52, 7⟩
/-- GRD_PWR_CLASS.FLOOR_COMPUTE (R436). -/
def GRD_PWR_CLASS_FLOOR_COMPUTE : Field := ⟨0x2001008, 0, 16⟩
/-- GRD_PWR_CLASS.FLOOR_MEMORY (R436). -/
def GRD_PWR_CLASS_FLOOR_MEMORY : Field := ⟨0x2001008, 16, 16⟩
/-- GRD_PWR_CLASS.FLOOR_LINKS (R436). -/
def GRD_PWR_CLASS_FLOOR_LINKS : Field := ⟨0x2001008, 32, 16⟩
/-- GRD_PWR_CLASS.ORDER (R436). -/
def GRD_PWR_CLASS_ORDER : Field := ⟨0x2001008, 48, 6⟩
/-- GRD_PWR_ALERT.ALERT_HOLD_US (R436). -/
def GRD_PWR_ALERT_ALERT_HOLD_US : Field := ⟨0x2001010, 0, 14⟩
/-- GRD_PWR_ALERT.DROOP_MV (R436). -/
def GRD_PWR_ALERT_DROOP_MV : Field := ⟨0x2001010, 14, 12⟩
/-- GRD_VTABLE_P.V (R436). -/
def GRD_VTABLE_P_V (i0 : Nat) : Field := ⟨0x2001040 + 0x8 * i0, 0, 48⟩
/-- GRD_VTABLE_X.AGE_STEP_MV (R436). -/
def GRD_VTABLE_X_AGE_STEP_MV : Field := ⟨0x2001068, 0, 8⟩
/-- GRD_VTABLE_X.AGE_MAX (R436). -/
def GRD_VTABLE_X_AGE_MAX : Field := ⟨0x2001068, 8, 4⟩
/-- GRD_VTABLE_X.RUN_HOURS (R436). -/
def GRD_VTABLE_X_RUN_HOURS : Field := ⟨0x2001068, 16, 24⟩
/-- GRD_VTABLE_CRC.CRC (R436). -/
def GRD_VTABLE_CRC_CRC : Field := ⟨0x2001070, 0, 32⟩
/-- GRD_VTABLE_CRC.VALID (R436). -/
def GRD_VTABLE_CRC_VALID : Field := ⟨0x2001070, 32, 1⟩
/-- GRD_ALIVE.PERIOD_US (R471). -/
def GRD_ALIVE_PERIOD_US : Field := ⟨0x2002000, 0, 10⟩
/-- GRD_ALIVE.PEER_PERIOD_US (R471). -/
def GRD_ALIVE_PEER_PERIOD_US : Field := ⟨0x2002000, 10, 10⟩
/-- GRD_FLT_SRC.SEV (R471). -/
def GRD_FLT_SRC_SEV (i0 : Nat) : Field := ⟨0x2002100 + 0x8 * i0, 0, 3⟩
/-- GRD_FLT_SRC.ESC_N (R471). -/
def GRD_FLT_SRC_ESC_N (i0 : Nat) : Field := ⟨0x2002100 + 0x8 * i0, 8, 12⟩
/-- GRD_FLT_SRC.ESC_W_MS (R471). -/
def GRD_FLT_SRC_ESC_W_MS (i0 : Nat) : Field := ⟨0x2002100 + 0x8 * i0, 20, 16⟩
/-- GRD_CKPT_A.EN (R471). -/
def GRD_CKPT_A_EN : Field := ⟨0x2003000, 0, 1⟩
/-- GRD_CKPT_A.BASE (R471). -/
def GRD_CKPT_A_BASE : Field := ⟨0x2003000, 30, 22⟩
/-- GRD_CKPT_B.EN (R471). -/
def GRD_CKPT_B_EN : Field := ⟨0x2003008, 0, 1⟩
/-- GRD_CKPT_B.BASE (R471). -/
def GRD_CKPT_B_BASE : Field := ⟨0x2003008, 30, 22⟩
/-- GRD_PEER_CKPT_A.EN (R471). -/
def GRD_PEER_CKPT_A_EN : Field := ⟨0x2003010, 0, 1⟩
/-- GRD_PEER_CKPT_A.BASE (R471). -/
def GRD_PEER_CKPT_A_BASE : Field := ⟨0x2003010, 30, 22⟩
/-- GRD_PEER_CKPT_B.EN (R471). -/
def GRD_PEER_CKPT_B_EN : Field := ⟨0x2003018, 0, 1⟩
/-- GRD_PEER_CKPT_B.BASE (R471). -/
def GRD_PEER_CKPT_B_BASE : Field := ⟨0x2003018, 30, 22⟩
/-- GRD_TKO.GO (R471). -/
def GRD_TKO_GO : Field := ⟨0x2003020, 0, 1⟩
/-- GRD_TKO.CLAIM_MS (R471). -/
def GRD_TKO_CLAIM_MS : Field := ⟨0x2003020, 1, 10⟩
/-- TST_INJ.SOURCE (R467). -/
def TST_INJ_SOURCE : Field := ⟨0x3000000, 0, 8⟩
/-- TST_INJ.ARM (R467). -/
def TST_INJ_ARM : Field := ⟨0x3000000, 8, 1⟩
/-- TST_INJ.RAIL (R467). -/
def TST_INJ_RAIL : Field := ⟨0x3000000, 9, 1⟩
/-- TST_INJ.COUNT (R467). -/
def TST_INJ_COUNT : Field := ⟨0x3000000, 16, 10⟩

end Sys2Proof.Machine.F
end

