-- ==== Sys2Proof/Machine/RegMap.lean ====
section
/-! DEFINITION. The register map: every register of R521 to R525 with the fields that its chapter's table gives it
(bits, access code of R8, reset value, Kept of R11, and the limits to which a written value is brought). -/

namespace Sys2Proof.Machine.Row

/-- GLB_ID (R31). -/
def GLB_ID : RegRow := ⟨"GLB_ID", 0x0, [], [
    ⟨"STEPPING", 7, 0, .ro, 161, false, none⟩,
    ⟨"INSTANCE", 8, 8, .ro, 0, false, none⟩,
    ⟨"BLOCK", 31, 16, .ro, 45562, false, none⟩,
    ⟨"DIE_SERIAL", 63, 32, .ro, 0, false, none⟩]⟩

/-- GLB_CAPS (R32). -/
def GLB_CAPS : RegRow := ⟨"GLB_CAPS", 0x8, [], [
    ⟨"LANES_PHYS", 7, 0, .ro, 144, false, none⟩,
    ⟨"LANES_ACTIVE_MAX", 15, 8, .ro, 128, false, none⟩,
    ⟨"ENTROPY_PHYS", 23, 16, .ro, 52, false, none⟩,
    ⟨"ENTROPY_USABLE", 31, 24, .ro, 48, false, none⟩,
    ⟨"SEARCH_UNITS", 39, 32, .ro, 32, false, none⟩,
    ⟨"PARSERS", 44, 40, .ro, 16, false, none⟩,
    ⟨"TOKENISERS", 51, 48, .ro, 4, false, none⟩,
    ⟨"MOVERS", 57, 52, .ro, 32, false, none⟩,
    ⟨"FABRIC_PORTS", 62, 58, .ro, 16, false, none⟩,
    ⟨"PEER", 63, 63, .ro, 1, false, none⟩]⟩

/-- GLB_STATUS (R33). -/
def GLB_STATUS : RegRow := ⟨"GLB_STATUS", 0x10, [], [
    ⟨"READY", 0, 0, .ro, 0, false, none⟩,
    ⟨"FORME_LIVE", 1, 1, .ro, 0, false, none⟩,
    ⟨"BLANK", 2, 2, .ro, 1, false, none⟩,
    ⟨"RETAINED_OK", 3, 3, .ro, 0, false, none⟩,
    ⟨"PEER_SEEN", 4, 4, .ro, 0, false, none⟩,
    ⟨"TAKEOVER", 5, 5, .ro, 0, false, none⟩,
    ⟨"VTABLE_FALLBACK", 6, 6, .ro, 0, false, none⟩,
    ⟨"TEST", 7, 7, .ro, 0, false, none⟩,
    ⟨"FAULT_SUMMARY", 10, 8, .ro, 0, false, none⟩,
    ⟨"LOCKUP_BUSY", 11, 11, .ro, 0, false, none⟩,
    ⟨"LANES_GOOD", 23, 16, .ro, 0, true, none⟩,
    ⟨"ENTROPY_GOOD", 31, 24, .ro, 0, true, none⟩,
    ⟨"PSTATE", 34, 32, .ro, 4, false, none⟩,
    ⟨"LAST_START", 37, 36, .ro, 0, false, none⟩]⟩

/-- GLB_RESET (R491). -/
def GLB_RESET : RegRow := ⟨"GLB_RESET", 0x18, [], [
    ⟨"KIND", 1, 0, .wo, 0, false, none⟩,
    ⟨"DOMAINS", 8, 4, .wo, 0, false, none⟩,
    ⟨"CONFIRM", 31, 16, .wo, 0, false, none⟩,
    ⟨"BUSY", 32, 32, .ro, 0, false, none⟩,
    ⟨"LAST_KIND", 34, 33, .ro, 0, false, none⟩,
    ⟨"REJECTED", 35, 35, .w1c, 0, false, none⟩]⟩

/-- GLB_CLK (R491). -/
def GLB_CLK : RegRow := ⟨"GLB_CLK", 0x20, [], [
    ⟨"PCLK_RUN", 0, 0, .ro, 0, false, none⟩,
    ⟨"ECLK_RUN", 1, 1, .ro, 0, false, none⟩,
    ⟨"FCLK_RUN", 2, 2, .ro, 0, false, none⟩,
    ⟨"WAKES", 47, 16, .ro, 0, false, none⟩,
    ⟨"WAKE_MAX_NS", 63, 48, .ro, 0, false, none⟩]⟩

/-- GLB_FABRIC (R512). -/
def GLB_FABRIC : RegRow := ⟨"GLB_FABRIC", 0x28, [], [
    ⟨"BAD_MSG", 15, 0, .rc, 0, false, none⟩,
    ⟨"TIMEOUTS", 31, 16, .rc, 0, false, none⟩,
    ⟨"REPLAYS", 47, 32, .rc, 0, false, none⟩,
    ⟨"PORTS_FENCED", 63, 48, .ro, 0, false, none⟩]⟩

/-- FRM_SRC_ADDR (R79). -/
def FRM_SRC_ADDR : RegRow := ⟨"FRM_SRC_ADDR", 0x100000, [], [
    ⟨"ADDR", 51, 0, .rw, 0, false, none⟩]⟩

/-- FRM_SRC_SIZE (R80). -/
def FRM_SRC_SIZE : RegRow := ⟨"FRM_SRC_SIZE", 0x100008, [], [
    ⟨"SIZE", 24, 0, .rw, 0, false, none⟩]⟩

/-- FRM_CTRL (R81). -/
def FRM_CTRL : RegRow := ⟨"FRM_CTRL", 0x100010, [], [
    ⟨"OP", 1, 0, .wo, 0, false, none⟩,
    ⟨"CANCEL", 4, 4, .wo, 0, false, none⟩]⟩

/-- FRM_STATUS (R82). -/
def FRM_STATUS : RegRow := ⟨"FRM_STATUS", 0x100018, [], [
    ⟨"PHASE", 2, 0, .ro, 0, false, none⟩,
    ⟨"RESULT", 6, 4, .ro, 0, false, none⟩,
    ⟨"BUSY_REJECT", 8, 8, .w1c, 0, false, none⟩,
    ⟨"RESTORE_FAIL", 9, 9, .ro, 0, false, none⟩,
    ⟨"RETAIN_DONE", 10, 10, .ro, 0, false, none⟩,
    ⟨"SEQ", 31, 16, .ro, 0, false, none⟩]⟩

/-- FRM_REFUSAL (R83). -/
def FRM_REFUSAL : RegRow := ⟨"FRM_REFUSAL", 0x100020, [], [
    ⟨"CODE", 7, 0, .ro, 0, false, none⟩,
    ⟨"FLOW", 19, 8, .ro, 0, false, none⟩,
    ⟨"TENANCY", 23, 20, .ro, 0, false, none⟩,
    ⟨"STATION", 31, 24, .ro, 0, false, none⟩,
    ⟨"SECTION", 35, 32, .ro, 0, false, none⟩,
    ⟨"FLOW_VALID", 36, 36, .ro, 0, false, none⟩,
    ⟨"STATION_VALID", 37, 37, .ro, 0, false, none⟩,
    ⟨"OFFSET", 63, 40, .ro, 0, false, none⟩]⟩

/-- FRM_LIVE_ID (R84). -/
def FRM_LIVE_ID : RegRow := ⟨"FRM_LIVE_ID", 0x100028, [], [
    ⟨"ID", 63, 0, .ro, 0, true, none⟩]⟩

/-- FRM_AMEND_COUNT (R84). -/
def FRM_AMEND_COUNT : RegRow := ⟨"FRM_AMEND_COUNT", 0x100030, [], [
    ⟨"COUNT", 15, 0, .ro, 0, true, none⟩]⟩

/-- FRM_QUOIN_TIMEOUT (R84). -/
def FRM_QUOIN_TIMEOUT : RegRow := ⟨"FRM_QUOIN_TIMEOUT", 0x100038, [], [
    ⟨"US", 23, 0, .rw, 10000, true, some (100, 100000)⟩]⟩

/-- FRM_QUOIN_TIME (R84). -/
def FRM_QUOIN_TIME : RegRow := ⟨"FRM_QUOIN_TIME", 0x100040, [], [
    ⟨"TIME", 63, 0, .ro, 0, false, none⟩]⟩

/-- FRM_SPARES (R84). -/
def FRM_SPARES : RegRow := ⟨"FRM_SPARES", 0x100048, [], [
    ⟨"LANES_ACTIVE", 7, 0, .ro, 0, true, none⟩,
    ⟨"LANE_SPARES", 15, 8, .ro, 0, true, none⟩,
    ⟨"ENTROPY_ASSIGNED", 23, 16, .ro, 0, true, none⟩,
    ⟨"ENTROPY_SPARES", 31, 24, .ro, 0, true, none⟩]⟩

/-- LKP_ADMIT_CFG (R106). -/
def LKP_ADMIT_CFG : RegRow := ⟨"LKP_ADMIT_CFG", 0x200000, [], [
    ⟨"PSTATE", 2, 0, .rw, 1, true, some (1, 4)⟩,
    ⟨"PSTATE_LIVE", 10, 8, .ro, 1, true, none⟩]⟩

/-- LKP_STATUS (R107). -/
def LKP_STATUS : RegRow := ⟨"LKP_STATUS", 0x200008, [], [
    ⟨"FLOWS", 12, 0, .ro, 0, false, none⟩,
    ⟨"DEADLINE_FLOWS", 25, 13, .ro, 0, false, none⟩,
    ⟨"BERTHS_PINNED", 38, 26, .ro, 0, false, none⟩,
    ⟨"CODEC_CONTEXTS", 48, 39, .ro, 0, false, none⟩]⟩

/-- LKP_LATE_TOTAL (R107). -/
def LKP_LATE_TOTAL : RegRow := ⟨"LKP_LATE_TOTAL", 0x200010, [], [
    ⟨"COUNT", 63, 0, .rc, 0, false, none⟩]⟩

/-- LKP_REFUSAL (R107). -/
def LKP_REFUSAL : RegRow := ⟨"LKP_REFUSAL", 0x200018, [], [
    ⟨"SERVER", 5, 0, .ro, 0, false, none⟩,
    ⟨"TOTAL", 39, 16, .ro, 0, false, none⟩]⟩

/-- LKP_BERTH_CFG (R152). -/
def LKP_BERTH_CFG : RegRow := ⟨"LKP_BERTH_CFG", 0x200020, [], [
    ⟨"SLICE_US", 13, 0, .rw, 100, true, some (1, 10000)⟩]⟩

/-- LKP_BERTH_STATUS (R152). -/
def LKP_BERTH_STATUS : RegRow := ⟨"LKP_BERTH_STATUS", 0x200028, [], [
    ⟨"PINNED", 12, 0, .ro, 0, false, none⟩,
    ⟨"SHARED", 25, 13, .ro, 0, false, none⟩,
    ⟨"RUNNABLE_OUT", 44, 26, .ro, 0, false, none⟩,
    ⟨"BLOCKED_RESIDENT", 57, 45, .ro, 0, false, none⟩,
    ⟨"SWAP_BUSY", 58, 58, .ro, 0, false, none⟩]⟩

/-- LKP_SWAP_COUNT (R152). -/
def LKP_SWAP_COUNT : RegRow := ⟨"LKP_SWAP_COUNT", 0x200030, [], [
    ⟨"SWAPS", 31, 0, .rc, 0, false, none⟩,
    ⟨"MAX_NS", 63, 32, .rc, 0, false, none⟩]⟩

/-- LKP_OFFLOAD_ADVICE (R108). -/
def LKP_OFFLOAD_ADVICE : RegRow := ⟨"LKP_OFFLOAD_ADVICE", 0x200108, [(10, 0x8)], [
    ⟨"ADVICE", 8, 0, .ro, 0, false, none⟩]⟩

/-- LKP_COST_A (R109). -/
def LKP_COST_A : RegRow := ⟨"LKP_COST_A", 0x201000, [(12, 0x10)], [
    ⟨"RATE", 31, 0, .ro, 0, false, none⟩,
    ⟨"FIXED_NS", 47, 32, .ro, 0, false, none⟩,
    ⟨"UNIT", 55, 48, .ro, 0, false, none⟩,
    ⟨"SCALES", 56, 56, .ro, 0, false, none⟩]⟩

/-- LKP_COST_B (R109). -/
def LKP_COST_B : RegRow := ⟨"LKP_COST_B", 0x201008, [(12, 0x10)], [
    ⟨"SECTION_NS", 15, 0, .ro, 0, false, none⟩,
    ⟨"STATION", 23, 16, .ro, 0, false, none⟩]⟩

/-- LKP_SERVER (R110). -/
def LKP_SERVER : RegRow := ⟨"LKP_SERVER", 0x202000, [(41, 0x8)], [
    ⟨"UTIL", 15, 0, .ro, 0, false, none⟩,
    ⟨"BLOCK", 31, 16, .ro, 0, false, none⟩,
    ⟨"UNITS", 39, 32, .ro, 0, false, none⟩,
    ⟨"STATION", 47, 40, .ro, 0, false, none⟩,
    ⟨"DEADLINE_FLOWS", 60, 48, .ro, 0, false, none⟩]⟩

/-- LKP_FLOW_A (R111). -/
def LKP_FLOW_A : RegRow := ⟨"LKP_FLOW_A", 0x208000, [(4096, 0x10)], [
    ⟨"READY_BY_NS", 31, 0, .ro, 0, false, none⟩,
    ⟨"SUM_W_NS", 63, 32, .ro, 0, false, none⟩]⟩

/-- LKP_FLOW_B (R111). -/
def LKP_FLOW_B : RegRow := ⟨"LKP_FLOW_B", 0x208008, [(4096, 0x10)], [
    ⟨"LATE", 15, 0, .rc, 0, false, none⟩,
    ⟨"OVERCLASS", 31, 16, .rc, 0, false, none⟩,
    ⟨"BERTHS", 44, 32, .ro, 0, false, none⟩,
    ⟨"ADMITTED", 48, 48, .ro, 0, false, none⟩,
    ⟨"DEADLINE", 49, 49, .ro, 0, false, none⟩]⟩

/-- LKP_WORK (R112). -/
def LKP_WORK : RegRow := ⟨"LKP_WORK", 0x220000, [(4096, 0x80), (16, 0x8)], [
    ⟨"WORK", 47, 0, .ro, 0, false, none⟩,
    ⟨"SERVER", 53, 48, .ro, 0, false, none⟩,
    ⟨"P", 60, 54, .ro, 0, false, none⟩,
    ⟨"VALID", 61, 61, .ro, 0, false, none⟩,
    ⟨"MULTI", 62, 62, .ro, 0, false, none⟩]⟩

/-- RSV_CFG (R178). -/
def RSV_CFG : RegRow := ⟨"RSV_CFG", 0x300000, [], [
    ⟨"WAIT_MS", 9, 0, .rw, 10, true, some (1, 1000)⟩]⟩

/-- RSV_STATUS (R178). -/
def RSV_STATUS : RegRow := ⟨"RSV_STATUS", 0x300008, [], [
    ⟨"POOLS", 4, 0, .ro, 0, false, none⟩,
    ⟨"HANDLES", 22, 8, .ro, 0, false, none⟩,
    ⟨"GALLEY_4K", 48, 32, .ro, 0, false, none⟩]⟩

/-- RSV_COMMIT (R73). -/
def RSV_COMMIT : RegRow := ⟨"RSV_COMMIT", 0x300010, [], [
    ⟨"GO", 0, 0, .wo, 0, false, none⟩]⟩

/-- RSV_COMMIT_STATUS (R73). -/
def RSV_COMMIT_STATUS : RegRow := ⟨"RSV_COMMIT_STATUS", 0x300018, [], [
    ⟨"PENDING", 0, 0, .ro, 0, false, none⟩,
    ⟨"RESULT", 2, 1, .ro, 0, false, none⟩,
    ⟨"OVERRUN", 3, 3, .w1c, 0, false, none⟩,
    ⟨"RULE", 15, 8, .ro, 0, false, none⟩,
    ⟨"SEQ", 31, 16, .ro, 0, false, none⟩]⟩

/-- RSV_POOL_THR (R179). -/
def RSV_POOL_THR : RegRow := ⟨"RSV_POOL_THR", 0x301000, [(32, 0x40)], [
    ⟨"WARN", 8, 0, .rws, 0, true, some (1, 256)⟩,
    ⟨"THROTTLE", 24, 16, .rws, 0, true, some (1, 256)⟩,
    ⟨"STOP", 40, 32, .rws, 0, true, some (1, 256)⟩,
    ⟨"HYST", 55, 48, .rws, 0, true, none⟩]⟩

/-- RSV_POOL_SIZE (R179). -/
def RSV_POOL_SIZE : RegRow := ⟨"RSV_POOL_SIZE", 0x301008, [(32, 0x40)], [
    ⟨"BLOCKS", 23, 0, .ro, 0, true, none⟩,
    ⟨"RESERVED", 55, 32, .ro, 0, true, none⟩]⟩

/-- RSV_POOL_LEVEL (R179). -/
def RSV_POOL_LEVEL : RegRow := ⟨"RSV_POOL_LEVEL", 0x301010, [(32, 0x40)], [
    ⟨"IN_USE", 23, 0, .ro, 0, false, none⟩,
    ⟨"SHARED_USE", 55, 32, .ro, 0, false, none⟩]⟩

/-- RSV_POOL_STATE (R179). -/
def RSV_POOL_STATE : RegRow := ⟨"RSV_POOL_STATE", 0x301018, [(32, 0x40)], [
    ⟨"DEFINED", 0, 0, .ro, 0, true, none⟩,
    ⟨"PACKAGE", 1, 1, .ro, 0, true, none⟩,
    ⟨"AT_WARN", 2, 2, .ro, 0, false, none⟩,
    ⟨"AT_THROTTLE", 3, 3, .ro, 0, false, none⟩,
    ⟨"AT_STOP", 4, 4, .ro, 0, false, none⟩,
    ⟨"WARN_SEEN", 8, 8, .w1c, 0, false, none⟩,
    ⟨"THROTTLE_SEEN", 9, 9, .w1c, 0, false, none⟩,
    ⟨"STOP_SEEN", 10, 10, .w1c, 0, false, none⟩,
    ⟨"CLASS", 15, 12, .ro, 0, true, none⟩,
    ⟨"WAITERS", 31, 16, .ro, 0, false, none⟩]⟩

/-- RSV_POOL_COUNT (R179). -/
def RSV_POOL_COUNT : RegRow := ⟨"RSV_POOL_COUNT", 0x301020, [(32, 0x40)], [
    ⟨"EXHAUSTED", 31, 0, .rc, 0, false, none⟩,
    ⟨"PEAK_SHARED", 63, 32, .rc, 0, false, none⟩]⟩

/-- RSV_POOL_BASE (R179). -/
def RSV_POOL_BASE : RegRow := ⟨"RSV_POOL_BASE", 0x301028, [(32, 0x40)], [
    ⟨"ADDR", 51, 0, .ro, 0, true, none⟩]⟩

/-- STN_CHASE_STATUS (R520). -/
def STN_CHASE_STATUS : RegRow := ⟨"STN_CHASE_STATUS", 0x400000, [], [
    ⟨"SEGMENTS", 7, 0, .ro, 0, false, none⟩,
    ⟨"PARITY", 47, 32, .rc, 0, false, none⟩]⟩

/-- STN_CHASE_SEG (R520). -/
def STN_CHASE_SEG : RegRow := ⟨"STN_CHASE_SEG", 0x401000, [(128, 0x8)], [
    ⟨"FROM", 7, 0, .ro, 0, false, none⟩,
    ⟨"TO", 15, 8, .ro, 0, false, none⟩,
    ⟨"WIDTH", 17, 16, .ro, 0, false, none⟩,
    ⟨"CROSSING", 18, 18, .ro, 0, false, none⟩,
    ⟨"VALID", 19, 19, .ro, 0, false, none⟩,
    ⟨"TILES_K", 63, 32, .rc, 0, false, none⟩]⟩

/-- STN_HW_STATUS (R213). -/
def STN_HW_STATUS : RegRow := ⟨"STN_HW_STATUS", 0x410000, [], [
    ⟨"PORTS_BOUND", 9, 0, .ro, 0, false, none⟩,
    ⟨"PENDING", 22, 10, .ro, 0, false, none⟩]⟩

/-- STN_HW_COUNT_A (R213). -/
def STN_HW_COUNT_A : RegRow := ⟨"STN_HW_COUNT_A", 0x410008, [], [
    ⟨"STALE", 31, 0, .rc, 0, false, none⟩,
    ⟨"SUPERSEDED", 63, 32, .rc, 0, false, none⟩]⟩

/-- STN_HW_COUNT_B (R213). -/
def STN_HW_COUNT_B : RegRow := ⟨"STN_HW_COUNT_B", 0x410010, [], [
    ⟨"PORT_FULL", 31, 0, .rc, 0, false, none⟩,
    ⟨"STAMP_CLAMPED", 63, 32, .rc, 0, false, none⟩]⟩

/-- STN_HW_PORT (R213). -/
def STN_HW_PORT : RegRow := ⟨"STN_HW_PORT", 0x411000, [(512, 0x8)], [
    ⟨"FLOW", 11, 0, .ro, 0, false, none⟩,
    ⟨"TENANCY", 15, 12, .ro, 0, false, none⟩,
    ⟨"BOUND", 16, 16, .ro, 0, false, none⟩,
    ⟨"PENDING", 20, 17, .ro, 0, false, none⟩,
    ⟨"CARRY", 33, 21, .ro, 0, false, none⟩,
    ⟨"LAST_AGE_US", 57, 34, .ro, 0, false, none⟩]⟩

/-- STN_CASE_CFG (R214). -/
def STN_CASE_CFG : RegRow := ⟨"STN_CASE_CFG", 0x420000, [], [
    ⟨"PX_PER_BYTE", 15, 0, .rw, 2048, true, some (1, 65535)⟩]⟩

/-- STN_CASE_COUNT_A (R214). -/
def STN_CASE_COUNT_A : RegRow := ⟨"STN_CASE_COUNT_A", 0x420008, [], [
    ⟨"SAMPLES", 31, 0, .rc, 0, false, none⟩,
    ⟨"GUARD", 63, 32, .rc, 0, false, none⟩]⟩

/-- STN_CASE_COUNT_B (R214). -/
def STN_CASE_COUNT_B : RegRow := ⟨"STN_CASE_COUNT_B", 0x420010, [], [
    ⟨"CORRUPT", 31, 0, .rc, 0, false, none⟩,
    ⟨"OVERCLASS", 47, 32, .rc, 0, false, none⟩,
    ⟨"SKIPPED", 63, 48, .rc, 0, false, none⟩]⟩

/-- STN_CASE_REASON (R214). -/
def STN_CASE_REASON : RegRow := ⟨"STN_CASE_REASON", 0x420018, [], [
    ⟨"FRAMING", 7, 0, .rc, 0, false, none⟩,
    ⟨"TRUNCATED", 15, 8, .rc, 0, false, none⟩,
    ⟨"HSC_BODY", 23, 16, .rc, 0, false, none⟩,
    ⟨"CBOR", 31, 24, .rc, 0, false, none⟩,
    ⟨"MISSING", 39, 32, .rc, 0, false, none⟩,
    ⟨"DUP_FIELD", 47, 40, .rc, 0, false, none⟩,
    ⟨"NO_DIMS", 55, 48, .rc, 0, false, none⟩]⟩

/-- STN_CASE_LAST (R214). -/
def STN_CASE_LAST : RegRow := ⟨"STN_CASE_LAST", 0x420020, [], [
    ⟨"FLOW", 11, 0, .ro, 0, false, none⟩,
    ⟨"TENANCY", 15, 12, .ro, 0, false, none⟩,
    ⟨"REASON", 19, 16, .ro, 0, false, none⟩,
    ⟨"OFFSET", 51, 20, .ro, 0, false, none⟩]⟩

/-- STN_MR_STATUS (R252). -/
def STN_MR_STATUS : RegRow := ⟨"STN_MR_STATUS", 0x430000, [], [
    ⟨"DEC_ENGINES", 5, 0, .ro, 0, false, none⟩,
    ⟨"ENC_ENGINES", 11, 6, .ro, 0, false, none⟩,
    ⟨"DEC_BUSY", 17, 12, .ro, 0, false, none⟩,
    ⟨"PARKED", 27, 18, .ro, 0, false, none⟩]⟩

/-- STN_MR_COUNT (R252). -/
def STN_MR_COUNT : RegRow := ⟨"STN_MR_COUNT", 0x430008, [], [
    ⟨"UNITS", 31, 0, .rc, 0, false, none⟩,
    ⟨"LOADS", 63, 32, .rc, 0, false, none⟩]⟩

/-- STN_MR_ERR (R252). -/
def STN_MR_ERR : RegRow := ⟨"STN_MR_ERR", 0x430010, [], [
    ⟨"SYNTAX", 7, 0, .rc, 0, false, none⟩,
    ⟨"TRUNCATED", 15, 8, .rc, 0, false, none⟩,
    ⟨"PARAM_SET", 23, 16, .rc, 0, false, none⟩,
    ⟨"TOOL", 31, 24, .rc, 0, false, none⟩,
    ⟨"DIM", 39, 32, .rc, 0, false, none⟩,
    ⟨"REF", 47, 40, .rc, 0, false, none⟩,
    ⟨"DPB", 55, 48, .rc, 0, false, none⟩,
    ⟨"OVERCLASS", 63, 56, .rc, 0, false, none⟩]⟩

/-- STN_MR_LAST (R252). -/
def STN_MR_LAST : RegRow := ⟨"STN_MR_LAST", 0x430018, [], [
    ⟨"FLOW", 11, 0, .ro, 0, false, none⟩,
    ⟨"TENANCY", 15, 12, .ro, 0, false, none⟩,
    ⟨"CLASS", 19, 16, .ro, 0, false, none⟩,
    ⟨"UNIT", 31, 20, .ro, 0, false, none⟩,
    ⟨"OFFSET", 63, 32, .ro, 0, false, none⟩]⟩

/-- STN_MR_ENC_STATUS (R287). -/
def STN_MR_ENC_STATUS : RegRow := ⟨"STN_MR_ENC_STATUS", 0x430020, [], [
    ⟨"ENC_BUSY", 5, 0, .ro, 0, false, none⟩]⟩

/-- STN_MR_ENC_COUNT (R287). -/
def STN_MR_ENC_COUNT : RegRow := ⟨"STN_MR_ENC_COUNT", 0x430028, [], [
    ⟨"ROWS", 31, 0, .rc, 0, false, none⟩,
    ⟨"DISCARDED", 63, 32, .rc, 0, false, none⟩]⟩

/-- STN_MP_STATUS (R253). -/
def STN_MP_STATUS : RegRow := ⟨"STN_MP_STATUS", 0x440000, [], [
    ⟨"TOTAL_64K", 12, 0, .ro, 0, false, none⟩,
    ⟨"FLOWS", 22, 13, .ro, 0, false, none⟩]⟩

/-- STN_MP_CTX_A (R253). -/
def STN_MP_CTX_A : RegRow := ⟨"STN_MP_CTX_A", 0x441000, [(512, 0x10)], [
    ⟨"FLOW", 11, 0, .ro, 0, false, none⟩,
    ⟨"TENANCY", 15, 12, .ro, 0, false, none⟩,
    ⟨"VALID", 16, 16, .ro, 0, false, none⟩,
    ⟨"ENCODE", 17, 17, .ro, 0, false, none⟩,
    ⟨"BYTES_64K", 30, 18, .ro, 0, false, none⟩]⟩

/-- STN_MP_CTX_B (R253). -/
def STN_MP_CTX_B : RegRow := ⟨"STN_MP_CTX_B", 0x441008, [(512, 0x10)], [
    ⟨"LEAD_NOW", 1, 0, .ro, 0, false, none⟩,
    ⟨"PEAK_64K", 14, 2, .rc, 0, false, none⟩,
    ⟨"AWAIT_RAP", 15, 15, .ro, 0, false, none⟩,
    ⟨"OUT_QUEUE", 19, 16, .ro, 0, false, none⟩,
    ⟨"BROKEN", 35, 20, .ro, 0, false, none⟩]⟩

/-- STN_PLT_CFG (R254). -/
def STN_PLT_CFG : RegRow := ⟨"STN_PLT_CFG", 0x450000, [], [
    ⟨"CUT_DISABLE", 0, 0, .rws, 0, true, none⟩]⟩

/-- STN_PLT_COUNT_A (R254). -/
def STN_PLT_COUNT_A : RegRow := ⟨"STN_PLT_COUNT_A", 0x450008, [], [
    ⟨"FRAMES", 31, 0, .rc, 0, false, none⟩,
    ⟨"CUT_FRAMES", 63, 32, .rc, 0, false, none⟩]⟩

/-- STN_PLT_COUNT_B (R254). -/
def STN_PLT_COUNT_B : RegRow := ⟨"STN_PLT_COUNT_B", 0x450010, [], [
    ⟨"UNITS_SKIPPED", 63, 0, .rc, 0, false, none⟩]⟩

/-- STN_PLT_ENC_COUNT (R288). -/
def STN_PLT_ENC_COUNT : RegRow := ⟨"STN_PLT_ENC_COUNT", 0x450018, [], [
    ⟨"FRAMES", 31, 0, .rc, 0, false, none⟩,
    ⟨"REPEATS", 63, 32, .rc, 0, false, none⟩]⟩

/-- STN_PLT_SEARCH (R288). -/
def STN_PLT_SEARCH : RegRow := ⟨"STN_PLT_SEARCH", 0x450020, [], [
    ⟨"HINT_NARROW", 31, 0, .rc, 0, false, none⟩,
    ⟨"HINT_BAD", 47, 32, .rc, 0, false, none⟩]⟩

/-- STN_PLT_ENC_A (R288). -/
def STN_PLT_ENC_A : RegRow := ⟨"STN_PLT_ENC_A", 0x452000, [(512, 0x10)], [
    ⟨"FLOW", 11, 0, .ro, 0, false, none⟩,
    ⟨"TENANCY", 15, 12, .ro, 0, false, none⟩,
    ⟨"VALID", 16, 16, .ro, 0, false, none⟩,
    ⟨"KEY_PENDING", 17, 17, .ro, 0, false, none⟩,
    ⟨"SKIPPED", 33, 18, .rc, 0, false, none⟩,
    ⟨"CAPPED", 49, 34, .rc, 0, false, none⟩,
    ⟨"LAST_Q0", 55, 50, .ro, 0, false, none⟩]⟩

/-- STN_PLT_ENC_B (R288). -/
def STN_PLT_ENC_B : RegRow := ⟨"STN_PLT_ENC_B", 0x452008, [(512, 0x10)], [
    ⟨"HRD_FULL", 39, 0, .ro, 0, false, none⟩,
    ⟨"HRD_OVER", 55, 40, .rc, 0, false, none⟩]⟩

/-- STN_PLT_COMMIT (R73). -/
def STN_PLT_COMMIT : RegRow := ⟨"STN_PLT_COMMIT", 0x45ff00, [], [
    ⟨"GO", 0, 0, .wo, 0, false, none⟩]⟩

/-- STN_PLT_COMMIT_STATUS (R73). -/
def STN_PLT_COMMIT_STATUS : RegRow := ⟨"STN_PLT_COMMIT_STATUS", 0x45ff08, [], [
    ⟨"PENDING", 0, 0, .ro, 0, false, none⟩,
    ⟨"RESULT", 2, 1, .ro, 0, false, none⟩,
    ⟨"OVERRUN", 3, 3, .w1c, 0, false, none⟩,
    ⟨"RULE", 15, 8, .ro, 0, false, none⟩,
    ⟨"SEQ", 31, 16, .ro, 0, false, none⟩]⟩

/-- STN_TRIM_CFG (R319). -/
def STN_TRIM_CFG : RegRow := ⟨"STN_TRIM_CFG", 0x460000, [], [
    ⟨"SR_OFF", 0, 0, .rws, 0, true, none⟩,
    ⟨"AUG_OFF", 1, 1, .rws, 0, true, none⟩]⟩

/-- STN_TRIM_STATUS (R319). -/
def STN_TRIM_STATUS : RegRow := ⟨"STN_TRIM_STATUS", 0x460008, [], [
    ⟨"LANES", 7, 0, .ro, 0, false, none⟩,
    ⟨"GROUPS", 13, 8, .ro, 0, false, none⟩,
    ⟨"ACTIVE", 31, 16, .ro, 0, false, none⟩]⟩

/-- STN_TRIM_COUNT_A (R319). -/
def STN_TRIM_COUNT_A : RegRow := ⟨"STN_TRIM_COUNT_A", 0x460010, [], [
    ⟨"SAMPLES", 31, 0, .rc, 0, false, none⟩,
    ⟨"FALLBACK", 63, 32, .rc, 0, false, none⟩]⟩

/-- STN_TRIM_COUNT_B (R319). -/
def STN_TRIM_COUNT_B : RegRow := ⟨"STN_TRIM_COUNT_B", 0x460018, [], [
    ⟨"SATURATED", 31, 0, .rc, 0, false, none⟩,
    ⟨"OVERCLASS", 47, 32, .rc, 0, false, none⟩,
    ⟨"CORRUPT", 63, 48, .rc, 0, false, none⟩]⟩

/-- STN_TRIM_LAST (R319). -/
def STN_TRIM_LAST : RegRow := ⟨"STN_TRIM_LAST", 0x460020, [], [
    ⟨"FLOW", 11, 0, .ro, 0, false, none⟩,
    ⟨"TENANCY", 15, 12, .ro, 0, false, none⟩,
    ⟨"REASON", 19, 16, .ro, 0, false, none⟩,
    ⟨"SAMPLE", 63, 20, .ro, 0, false, none⟩]⟩

/-- STN_TRIM_COMMIT (R73). -/
def STN_TRIM_COMMIT : RegRow := ⟨"STN_TRIM_COMMIT", 0x46ff00, [], [
    ⟨"GO", 0, 0, .wo, 0, false, none⟩]⟩

/-- STN_TRIM_COMMIT_STATUS (R73). -/
def STN_TRIM_COMMIT_STATUS : RegRow := ⟨"STN_TRIM_COMMIT_STATUS", 0x46ff08, [], [
    ⟨"PENDING", 0, 0, .ro, 0, false, none⟩,
    ⟨"RESULT", 2, 1, .ro, 0, false, none⟩,
    ⟨"OVERRUN", 3, 3, .w1c, 0, false, none⟩,
    ⟨"RULE", 15, 8, .ro, 0, false, none⟩,
    ⟨"SEQ", 31, 16, .ro, 0, false, none⟩]⟩

/-- STN_CMP_STATUS (R376). -/
def STN_CMP_STATUS : RegRow := ⟨"STN_CMP_STATUS", 0x470000, [], [
    ⟨"TOK_BUSY", 2, 0, .ro, 0, false, none⟩,
    ⟨"PATCH_LANES", 10, 3, .ro, 0, false, none⟩,
    ⟨"IMAGES", 14, 11, .ro, 0, false, none⟩]⟩

/-- STN_CMP_COUNT_A (R376). -/
def STN_CMP_COUNT_A : RegRow := ⟨"STN_CMP_COUNT_A", 0x470008, [], [
    ⟨"TEXT_SAMPLES", 31, 0, .rc, 0, false, none⟩,
    ⟨"TOKENS_K", 63, 32, .rc, 0, false, none⟩]⟩

/-- STN_CMP_COUNT_B (R376). -/
def STN_CMP_COUNT_B : RegRow := ⟨"STN_CMP_COUNT_B", 0x470010, [], [
    ⟨"CACHE_MISSES", 31, 0, .rc, 0, false, none⟩,
    ⟨"OVERCLASS", 47, 32, .rc, 0, false, none⟩,
    ⟨"SPLITS", 63, 48, .rc, 0, false, none⟩]⟩

/-- STN_CMP_IMAGE_A (R376). -/
def STN_CMP_IMAGE_A : RegRow := ⟨"STN_CMP_IMAGE_A", 0x471000, [(8, 0x10)], [
    ⟨"ADDR", 51, 0, .ro, 0, true, none⟩]⟩

/-- STN_CMP_IMAGE_B (R376). -/
def STN_CMP_IMAGE_B : RegRow := ⟨"STN_CMP_IMAGE_B", 0x471008, [(8, 0x10)], [
    ⟨"CRC", 31, 0, .ro, 0, true, none⟩,
    ⟨"VOCAB", 50, 32, .ro, 0, true, none⟩,
    ⟨"USERS", 63, 51, .ro, 0, true, none⟩]⟩

/-- STN_GAL_STATUS (R377). -/
def STN_GAL_STATUS : RegRow := ⟨"STN_GAL_STATUS", 0x480000, [], [
    ⟨"OPEN_BATCHES", 12, 0, .ro, 0, false, none⟩,
    ⟨"GROUPS", 19, 13, .ro, 0, false, none⟩]⟩

/-- STN_GAL_COUNT_A (R377). -/
def STN_GAL_COUNT_A : RegRow := ⟨"STN_GAL_COUNT_A", 0x480008, [], [
    ⟨"BATCHES", 31, 0, .rc, 0, false, none⟩,
    ⟨"SUBSTITUTED", 63, 32, .rc, 0, false, none⟩]⟩

/-- STN_GAL_COUNT_B (R377). -/
def STN_GAL_COUNT_B : RegRow := ⟨"STN_GAL_COUNT_B", 0x480010, [], [
    ⟨"MASKED", 15, 0, .rc, 0, false, none⟩,
    ⟨"ABORTED", 31, 16, .rc, 0, false, none⟩,
    ⟨"ABSENT", 47, 32, .rc, 0, false, none⟩,
    ⟨"JOIN_DEFERRED", 63, 48, .rc, 0, false, none⟩]⟩

/-- STN_GAL_COUNT_C (R377). -/
def STN_GAL_COUNT_C : RegRow := ⟨"STN_GAL_COUNT_C", 0x480018, [], [
    ⟨"STEP_OVERRUN", 15, 0, .rc, 0, false, none⟩,
    ⟨"RESERVE_SKIPPED", 31, 16, .rc, 0, false, none⟩,
    ⟨"TOKEN_RANGE", 47, 32, .rc, 0, false, none⟩]⟩

/-- STN_GAL_GROUP (R377). -/
def STN_GAL_GROUP : RegRow := ⟨"STN_GAL_GROUP", 0x481000, [(64, 0x8)], [
    ⟨"STEP", 31, 0, .ro, 0, false, none⟩,
    ⟨"MEMBERS_IN", 42, 32, .ro, 0, false, none⟩,
    ⟨"JOINING", 53, 43, .ro, 0, false, none⟩,
    ⟨"VALID", 54, 54, .ro, 0, false, none⟩]⟩

/-- STN_DLT_CFG (R409). -/
def STN_DLT_CFG : RegRow := ⟨"STN_DLT_CFG", 0x490000, [], [
    ⟨"DRAIN_TIMEOUT_US", 19, 0, .rws, 10000, true, some (1, 1048575)⟩]⟩

/-- STN_DLT_STAGGER (R409). -/
def STN_DLT_STAGGER : RegRow := ⟨"STN_DLT_STAGGER", 0x490008, [], [
    ⟨"RAMP_NS", 13, 0, .rws, 2000, true, some (0, 10000)⟩,
    ⟨"GROUPS", 19, 16, .rws, 8, true, none⟩]⟩

/-- STN_DLT_GROUP_A (R409). -/
def STN_DLT_GROUP_A : RegRow := ⟨"STN_DLT_GROUP_A", 0x490010, [], [
    ⟨"DIES_0_15", 47, 0, .rws, 275730608604808, true, none⟩]⟩

/-- STN_DLT_GROUP_B (R409). -/
def STN_DLT_GROUP_B : RegRow := ⟨"STN_DLT_GROUP_B", 0x490018, [], [
    ⟨"DIES_16_31", 47, 0, .rws, 275730608604808, true, none⟩]⟩

/-- STN_DLT_STATUS (R409). -/
def STN_DLT_STATUS : RegRow := ⟨"STN_DLT_STATUS", 0x490020, [], [
    ⟨"THREADS_BUSY", 10, 0, .ro, 0, false, none⟩,
    ⟨"READS_OUT", 21, 11, .ro, 0, false, none⟩,
    ⟨"STAGED_64K", 37, 22, .ro, 0, false, none⟩,
    ⟨"WINDOW_OPEN", 38, 38, .ro, 0, false, none⟩]⟩

/-- STN_DLT_COUNT_A (R409). -/
def STN_DLT_COUNT_A : RegRow := ⟨"STN_DLT_COUNT_A", 0x490028, [], [
    ⟨"MIB", 31, 0, .rc, 0, false, none⟩,
    ⟨"TRANSFERS_K", 63, 32, .rc, 0, false, none⟩]⟩

/-- STN_DLT_COUNT_B (R409). -/
def STN_DLT_COUNT_B : RegRow := ⟨"STN_DLT_COUNT_B", 0x490030, [], [
    ⟨"ABORTS", 15, 0, .rc, 0, false, none⟩,
    ⟨"ALT_SWITCHES", 31, 16, .rc, 0, false, none⟩,
    ⟨"REARM_BUSY", 47, 32, .rc, 0, false, none⟩,
    ⟨"DRAIN_TIMEOUTS", 63, 48, .rc, 0, false, none⟩]⟩

/-- STN_DLT_COUNT_C (R409). -/
def STN_DLT_COUNT_C : RegRow := ⟨"STN_DLT_COUNT_C", 0x490038, [], [
    ⟨"STAGGER_HELD", 15, 0, .rc, 0, false, none⟩,
    ⟨"STRAY_DONE", 31, 16, .rc, 0, false, none⟩,
    ⟨"LATE_READS", 47, 32, .rc, 0, false, none⟩,
    ⟨"CONVERTED", 63, 48, .rc, 0, false, none⟩]⟩

/-- STN_DLT_LAST (R409). -/
def STN_DLT_LAST : RegRow := ⟨"STN_DLT_LAST", 0x490040, [], [
    ⟨"FLOW", 11, 0, .ro, 0, false, none⟩,
    ⟨"TENANCY", 15, 12, .ro, 0, false, none⟩,
    ⟨"REASON", 19, 16, .ro, 0, false, none⟩,
    ⟨"INDEX", 27, 20, .ro, 0, false, none⟩]⟩

/-- STN_DLT_FLOW (R409). -/
def STN_DLT_FLOW : RegRow := ⟨"STN_DLT_FLOW", 0x494000, [(4096, 0x8)], [
    ⟨"PRESENT", 15, 0, .ro, 0, false, none⟩,
    ⟨"HAS_LAYER", 16, 16, .ro, 0, false, none⟩,
    ⟨"DRAINED", 17, 17, .ro, 0, false, none⟩,
    ⟨"ALT", 18, 18, .ro, 0, false, none⟩,
    ⟨"KIND", 19, 19, .ro, 0, false, none⟩,
    ⟨"STAGED_64K", 35, 20, .ro, 0, false, none⟩,
    ⟨"DONE_PENDING", 41, 36, .ro, 0, false, none⟩]⟩

/-- STN_DLT_COMMIT (R73). -/
def STN_DLT_COMMIT : RegRow := ⟨"STN_DLT_COMMIT", 0x49ff00, [], [
    ⟨"GO", 0, 0, .wo, 0, false, none⟩]⟩

/-- STN_DLT_COMMIT_STATUS (R73). -/
def STN_DLT_COMMIT_STATUS : RegRow := ⟨"STN_DLT_COMMIT_STATUS", 0x49ff08, [], [
    ⟨"PENDING", 0, 0, .ro, 0, false, none⟩,
    ⟨"RESULT", 2, 1, .ro, 0, false, none⟩,
    ⟨"OVERRUN", 3, 3, .w1c, 0, false, none⟩,
    ⟨"RULE", 15, 8, .ro, 0, false, none⟩,
    ⟨"SEQ", 31, 16, .ro, 0, false, none⟩]⟩

/-- RFL_STATUS (R338). -/
def RFL_STATUS : RegRow := ⟨"RFL_STATUS", 0x800000, [], [
    ⟨"ENTRIES", 12, 0, .ro, 0, false, none⟩,
    ⟨"STATEFUL_FLOWS", 25, 13, .ro, 0, false, none⟩,
    ⟨"TABLES", 30, 26, .ro, 0, false, none⟩]⟩

/-- RFL_COUNT (R338). -/
def RFL_COUNT : RegRow := ⟨"RFL_COUNT", 0x800008, [], [
    ⟨"DRAWS_M", 31, 0, .rc, 0, false, none⟩,
    ⟨"JUMPS", 63, 32, .rc, 0, false, none⟩]⟩

/-- RFL_KAT_SEED (R338). -/
def RFL_KAT_SEED : RegRow := ⟨"RFL_KAT_SEED", 0x800010, [], [
    ⟨"SEED", 63, 0, .rw, 0, false, none⟩]⟩

/-- RFL_KAT_CTR_LO (R338). -/
def RFL_KAT_CTR_LO : RegRow := ⟨"RFL_KAT_CTR_LO", 0x800018, [], [
    ⟨"C_LO", 63, 0, .rw, 0, false, none⟩]⟩

/-- RFL_KAT_CTR_HI (R338). -/
def RFL_KAT_CTR_HI : RegRow := ⟨"RFL_KAT_CTR_HI", 0x800020, [], [
    ⟨"C_HI", 63, 0, .rw, 0, false, none⟩]⟩

/-- RFL_KAT_CTRL (R338). -/
def RFL_KAT_CTRL : RegRow := ⟨"RFL_KAT_CTRL", 0x800028, [], [
    ⟨"FLOW", 11, 0, .rw, 0, false, none⟩,
    ⟨"GO", 16, 16, .wo, 0, false, none⟩,
    ⟨"DONE", 17, 17, .ro, 0, false, none⟩,
    ⟨"KIND", 19, 18, .rw, 0, false, none⟩,
    ⟨"J", 22, 20, .rw, 0, false, none⟩]⟩

/-- RFL_KAT_OUT_LO (R338). -/
def RFL_KAT_OUT_LO : RegRow := ⟨"RFL_KAT_OUT_LO", 0x800030, [], [
    ⟨"OUT", 63, 0, .ro, 0, false, none⟩]⟩

/-- RFL_KAT_OUT_HI (R338). -/
def RFL_KAT_OUT_HI : RegRow := ⟨"RFL_KAT_OUT_HI", 0x800038, [], [
    ⟨"OUT", 63, 0, .ro, 0, false, none⟩]⟩

/-- RFL_EPOCH (R339). -/
def RFL_EPOCH : RegRow := ⟨"RFL_EPOCH", 0x801000, [(4096, 0x8)], [
    ⟨"EPOCH", 15, 0, .rw, 0, true, none⟩]⟩

/-- RFL_TABLE_A (R340). -/
def RFL_TABLE_A : RegRow := ⟨"RFL_TABLE_A", 0x809000, [(16, 0x10)], [
    ⟨"ADDR", 51, 0, .ro, 0, true, none⟩]⟩

/-- RFL_TABLE_B (R340). -/
def RFL_TABLE_B : RegRow := ⟨"RFL_TABLE_B", 0x809008, [(16, 0x10)], [
    ⟨"CRC", 31, 0, .ro, 0, true, none⟩,
    ⟨"USERS", 44, 32, .ro, 0, true, none⟩]⟩

/-- WEIR_CFG (R410). -/
def WEIR_CFG : RegRow := ⟨"WEIR_CFG", 0x900000, [], [
    ⟨"RATE", 13, 0, .rw, 6400, true, some (1, 8192)⟩,
    ⟨"BURST_64K", 31, 16, .rw, 16, true, some (1, 1024)⟩]⟩

/-- WEIR_STATUS (R410). -/
def WEIR_STATUS : RegRow := ⟨"WEIR_STATUS", 0x900008, [], [
    ⟨"RATE_EFF", 13, 0, .ro, 6400, false, none⟩,
    ⟨"PTC_RATE", 29, 16, .ro, 0, false, none⟩,
    ⟨"WAITING", 47, 32, .ro, 0, false, none⟩,
    ⟨"DEBT_64K", 63, 48, .ro, 0, false, none⟩]⟩

/-- WEIR_TEN_A (R410). -/
def WEIR_TEN_A : RegRow := ⟨"WEIR_TEN_A", 0x901000, [(16, 0x10)], [
    ⟨"BULK_MIB", 31, 0, .rc, 0, false, none⟩,
    ⟨"DEADLINE_MIB", 63, 32, .rc, 0, false, none⟩]⟩

/-- WEIR_TEN_B (R410). -/
def WEIR_TEN_B : RegRow := ⟨"WEIR_TEN_B", 0x901008, [(16, 0x10)], [
    ⟨"SHARE", 15, 0, .ro, 0, true, none⟩,
    ⟨"HELD_US", 47, 16, .rc, 0, false, none⟩]⟩

/-- PTC_CTRL (R434). -/
def PTC_CTRL : RegRow := ⟨"PTC_CTRL", 0xa00000, [], [
    ⟨"REQ_PSTATE", 2, 0, .rws, 0, true, some (0, 4)⟩,
    ⟨"STEADY", 3, 3, .rws, 0, true, none⟩,
    ⟨"STEADY_STATE", 6, 4, .rws, 1, true, none⟩,
    ⟨"UP_HOLD_US", 17, 8, .rws, 100, true, some (10, 1000)⟩]⟩

/-- PTC_EST_CFG (R434). -/
def PTC_EST_CFG : RegRow := ⟨"PTC_EST_CFG", 0xa00008, [], [
    ⟨"PCT", 6, 0, .rws, 15, true, some (1, 100)⟩,
    ⟨"WINDOW_US", 19, 8, .rws, 500, true, some (10, 4000)⟩,
    ⟨"AGREE_MS", 27, 20, .rws, 10, true, some (1, 255)⟩]⟩

/-- PTC_COMP_CFG (R434). -/
def PTC_COMP_CFG : RegRow := ⟨"PTC_COMP_CFG", 0xa00010, [], [
    ⟨"EN", 0, 0, .rws, 1, true, none⟩,
    ⟨"LEVEL", 8, 1, .rws, 192, true, none⟩,
    ⟨"HINT_MAX_US", 24, 9, .rws, 100, true, some (1, 65535)⟩]⟩

/-- PTC_STATUS (R434). -/
def PTC_STATUS : RegRow := ⟨"PTC_STATUS", 0xa00018, [], [
    ⟨"PSTATE", 2, 0, .ro, 4, false, none⟩,
    ⟨"REQUESTED", 5, 3, .ro, 0, false, none⟩,
    ⟨"IN_FORCE", 11, 6, .ro, 0, false, none⟩,
    ⟨"BINDING", 14, 12, .ro, 7, false, none⟩,
    ⟨"BOOST_OK", 15, 15, .ro, 0, false, none⟩,
    ⟨"CAP_SHORT", 16, 16, .ro, 0, false, none⟩,
    ⟨"STEADY_OVERCAP", 17, 17, .ro, 0, false, none⟩,
    ⟨"MEAS_STALE", 18, 18, .ro, 0, false, none⟩,
    ⟨"COMPLEMENT", 19, 19, .ro, 0, false, none⟩,
    ⟨"BAND", 21, 20, .ro, 0, false, none⟩,
    ⟨"VOLT_MV", 33, 22, .ro, 0, false, none⟩]⟩

/-- PTC_CAP (R434). -/
def PTC_CAP : RegRow := ⟨"PTC_CAP", 0xa00020, [], [
    ⟨"SHARE", 15, 0, .ro, 1920, false, none⟩,
    ⟨"COMPUTE", 31, 16, .ro, 0, false, none⟩,
    ⟨"MEMORY", 47, 32, .ro, 0, false, none⟩,
    ⟨"LINKS", 63, 48, .ro, 0, false, none⟩]⟩

/-- PTC_POWER (R434). -/
def PTC_POWER : RegRow := ⟨"PTC_POWER", 0xa00028, [], [
    ⟨"EST", 15, 0, .ro, 0, false, none⟩,
    ⟨"MEAS", 31, 16, .ro, 0, false, none⟩,
    ⟨"CURRENT", 47, 32, .ro, 0, false, none⟩,
    ⟨"EDC_TIMER_4US", 63, 48, .ro, 0, false, none⟩]⟩

/-- PTC_TEMP (R434). -/
def PTC_TEMP : RegRow := ⟨"PTC_TEMP", 0xa00030, [], [
    ⟨"TJ", 15, 0, .ro, 0, false, none⟩,
    ⟨"TJ_PEAK", 31, 16, .rc, 0, false, none⟩]⟩

/-- PTC_BOOST (R434). -/
def PTC_BOOST : RegRow := ⟨"PTC_BOOST", 0xa00038, [], [
    ⟨"USED_MS", 21, 0, .ro, 0, false, none⟩,
    ⟨"LAST_MS", 41, 22, .ro, 0, false, none⟩,
    ⟨"END", 44, 42, .ro, 0, false, none⟩]⟩

/-- PTC_THR_DUR (R435). -/
def PTC_THR_DUR : RegRow := ⟨"PTC_THR_DUR", 0xa00100, [(6, 0x20)], [
    ⟨"NS", 63, 0, .ro, 0, false, none⟩]⟩

/-- PTC_THR_COUNT (R435). -/
def PTC_THR_COUNT : RegRow := ⟨"PTC_THR_COUNT", 0xa00108, [(6, 0x20)], [
    ⟨"EVENTS", 31, 0, .ro, 0, false, none⟩]⟩

/-- PTC_THR_LAST (R435). -/
def PTC_THR_LAST : RegRow := ⟨"PTC_THR_LAST", 0xa00110, [(6, 0x20)], [
    ⟨"TIME", 63, 0, .ro, 0, false, none⟩]⟩

/-- PTC_COMMIT (R73). -/
def PTC_COMMIT : RegRow := ⟨"PTC_COMMIT", 0xa0ff00, [], [
    ⟨"GO", 0, 0, .wo, 0, false, none⟩]⟩

/-- PTC_COMMIT_STATUS (R73). -/
def PTC_COMMIT_STATUS : RegRow := ⟨"PTC_COMMIT_STATUS", 0xa0ff08, [], [
    ⟨"PENDING", 0, 0, .ro, 0, false, none⟩,
    ⟨"RESULT", 2, 1, .ro, 0, false, none⟩,
    ⟨"OVERRUN", 3, 3, .w1c, 0, false, none⟩,
    ⟨"RULE", 15, 8, .ro, 0, false, none⟩,
    ⟨"SEQ", 31, 16, .ro, 0, false, none⟩]⟩

/-- FLT_STATUS (R468). -/
def FLT_STATUS : RegRow := ⟨"FLT_STATUS", 0xb00000, [], [
    ⟨"SUMMARY", 2, 0, .ro, 0, false, none⟩,
    ⟨"HALTED", 3, 3, .ro, 0, false, none⟩,
    ⟨"LANES_FENCED", 11, 4, .ro, 0, false, none⟩,
    ⟨"ENGINES_FENCED", 17, 12, .ro, 0, false, none⟩,
    ⟨"SPARE_LANES", 25, 18, .ro, 0, false, none⟩,
    ⟨"SPARE_ENGINES", 31, 26, .ro, 0, false, none⟩,
    ⟨"UNITS_FENCED", 38, 32, .ro, 0, false, none⟩,
    ⟨"SUSPENDED", 51, 39, .ro, 0, false, none⟩,
    ⟨"RAIL_FAULTS", 63, 52, .rc, 0, false, none⟩]⟩

/-- FLT_IRQ (R468). -/
def FLT_IRQ : RegRow := ⟨"FLT_IRQ", 0xb00008, [], [
    ⟨"TENANCY", 3, 0, .rw, 0, true, none⟩,
    ⟨"VECTOR", 14, 4, .rw, 0, true, none⟩,
    ⟨"CLASS_MASK", 20, 16, .rw, 0, true, none⟩,
    ⟨"EN", 21, 21, .rw, 0, true, none⟩]⟩

/-- FLT_FENCE (R468). -/
def FLT_FENCE : RegRow := ⟨"FLT_FENCE", 0xb00010, [], [
    ⟨"UNIT", 7, 0, .ro, 0, false, none⟩,
    ⟨"KIND", 9, 8, .ro, 0, false, none⟩,
    ⟨"SPARE_TAKEN", 10, 10, .ro, 0, false, none⟩,
    ⟨"REIMPOSE_US", 51, 32, .ro, 0, false, none⟩]⟩

/-- FLT_CKPT (R468). -/
def FLT_CKPT : RegRow := ⟨"FLT_CKPT", 0xb00018, [], [
    ⟨"WRITE_FAILS", 31, 0, .rc, 0, false, none⟩,
    ⟨"DEGRADED", 47, 32, .ro, 0, false, none⟩,
    ⟨"RESTORE_OLDER", 63, 48, .rc, 0, false, none⟩]⟩

/-- FLT_TKO_STATUS (R468). -/
def FLT_TKO_STATUS : RegRow := ⟨"FLT_TKO_STATUS", 0xb00020, [], [
    ⟨"STATE", 1, 0, .ro, 0, false, none⟩,
    ⟨"ADMITTED", 14, 2, .ro, 0, false, none⟩,
    ⟨"REFUSED", 27, 15, .ro, 0, false, none⟩,
    ⟨"POSTED", 40, 28, .ro, 0, false, none⟩,
    ⟨"UNPOSTED", 53, 41, .ro, 0, false, none⟩]⟩

/-- FLT_TKO_TIME (R468). -/
def FLT_TKO_TIME : RegRow := ⟨"FLT_TKO_TIME", 0xb00028, [], [
    ⟨"ELAPSED_US", 31, 0, .ro, 0, false, none⟩]⟩

/-- FLT_SRC_STATE (R469). -/
def FLT_SRC_STATE : RegRow := ⟨"FLT_SRC_STATE", 0xb00400, [(64, 0x8)], [
    ⟨"COUNT", 31, 0, .rc, 0, false, none⟩,
    ⟨"LEVEL", 34, 32, .ro, 0, false, none⟩,
    ⟨"ESCALATED", 35, 35, .ro, 0, false, none⟩,
    ⟨"RAIL", 36, 36, .ro, 0, false, none⟩]⟩

/-- FLT_CAP_ADDR (R469). -/
def FLT_CAP_ADDR : RegRow := ⟨"FLT_CAP_ADDR", 0xb01040, [(5, 0x40)], [
    ⟨"ADDR", 51, 0, .ro, 0, true, none⟩,
    ⟨"ACCESS", 55, 52, .ro, 0, true, none⟩,
    ⟨"VALID", 63, 63, .w1c, 0, true, none⟩]⟩

/-- FLT_CAP_MASTER (R469). -/
def FLT_CAP_MASTER : RegRow := ⟨"FLT_CAP_MASTER", 0xb01048, [(5, 0x40)], [
    ⟨"TENANCY", 3, 0, .ro, 0, true, none⟩,
    ⟨"STATION", 11, 4, .ro, 0, true, none⟩,
    ⟨"LANE", 19, 12, .ro, 0, true, none⟩,
    ⟨"THREAD", 24, 20, .ro, 0, true, none⟩,
    ⟨"TENANCY_VALID", 25, 25, .ro, 0, true, none⟩,
    ⟨"LANE_VALID", 26, 26, .ro, 0, true, none⟩,
    ⟨"SOURCE", 39, 32, .ro, 0, true, none⟩,
    ⟨"FOLLOWING", 55, 40, .ro, 0, true, none⟩]⟩

/-- FLT_CAP_TIME (R469). -/
def FLT_CAP_TIME : RegRow := ⟨"FLT_CAP_TIME", 0xb01050, [(5, 0x40)], [
    ⟨"TIME", 63, 0, .ro, 0, true, none⟩]⟩

/-- FLT_CAP_SYND (R469). -/
def FLT_CAP_SYND : RegRow := ⟨"FLT_CAP_SYND", 0xb01058, [(5, 0x40)], [
    ⟨"SYNDROME", 31, 0, .ro, 0, true, none⟩,
    ⟨"FLOW", 43, 32, .ro, 0, true, none⟩,
    ⟨"FLOW_VALID", 44, 44, .ro, 0, true, none⟩]⟩

/-- FLT_TKO_ENTRY (R469). -/
def FLT_TKO_ENTRY : RegRow := ⟨"FLT_TKO_ENTRY", 0xb08000, [(4096, 0x8)], [
    ⟨"FLOW", 11, 0, .ro, 0, false, none⟩,
    ⟨"TENANCY", 15, 12, .ro, 0, false, none⟩,
    ⟨"RESULT", 18, 16, .ro, 0, false, none⟩,
    ⟨"CODE", 26, 19, .ro, 0, false, none⟩,
    ⟨"VALID", 27, 27, .ro, 0, false, none⟩]⟩

/-- TIM_NOW (R493). -/
def TIM_NOW : RegRow := ⟨"TIM_NOW", 0xc00000, [], [
    ⟨"TIME", 63, 0, .ro, 0, false, none⟩]⟩

/-- TIM_STATUS (R493). -/
def TIM_STATUS : RegRow := ⟨"TIM_STATUS", 0xc00008, [], [
    ⟨"LOCKED", 0, 0, .ro, 0, false, none⟩,
    ⟨"SLEWING", 1, 1, .ro, 0, false, none⟩,
    ⟨"SYNCS", 31, 16, .rc, 0, false, none⟩,
    ⟨"LAST_STEP_NS", 63, 32, .ro, 0, false, none⟩]⟩

/-- TEN_ID (R150). -/
def TEN_ID : RegRow := ⟨"TEN_ID", 0x1000000, [(16, 0x100000)], [
    ⟨"TENANCY", 3, 0, .ro, 0, false, none⟩,
    ⟨"ENABLED", 4, 4, .ro, 0, true, none⟩,
    ⟨"CXL", 5, 5, .ro, 0, true, none⟩,
    ⟨"HOST_FUNCTION", 18, 6, .ro, 0, true, none⟩]⟩

/-- TEN_SQ_RANGE (R150). -/
def TEN_SQ_RANGE : RegRow := ⟨"TEN_SQ_RANGE", 0x1000008, [(16, 0x100000)], [
    ⟨"FIRST", 19, 0, .ro, 0, true, none⟩,
    ⟨"COUNT", 40, 20, .ro, 0, true, none⟩]⟩

/-- TEN_CQ_RANGE (R150). -/
def TEN_CQ_RANGE : RegRow := ⟨"TEN_CQ_RANGE", 0x1000010, [(16, 0x100000)], [
    ⟨"FIRST", 15, 0, .ro, 0, true, none⟩,
    ⟨"COUNT", 32, 16, .ro, 0, true, none⟩,
    ⟨"MSI_VECTORS", 44, 33, .ro, 0, true, none⟩]⟩

/-- TEN_QUOTA (R150). -/
def TEN_QUOTA : RegRow := ⟨"TEN_QUOTA", 0x1000018, [(16, 0x100000)], [
    ⟨"MAX_TASKS", 12, 0, .ro, 0, true, none⟩,
    ⟨"TASKS_IN_FLIGHT", 25, 13, .ro, 0, false, none⟩,
    ⟨"DEADLINE_HELD", 38, 26, .ro, 0, true, none⟩]⟩

/-- TEN_CTRL (R150). -/
def TEN_CTRL : RegRow := ⟨"TEN_CTRL", 0x1000020, [(16, 0x100000)], [
    ⟨"RESET", 0, 0, .wo, 0, false, none⟩]⟩

/-- TEN_STATUS (R150). -/
def TEN_STATUS : RegRow := ⟨"TEN_STATUS", 0x1000028, [(16, 0x100000)], [
    ⟨"RESETTING", 0, 0, .ro, 0, false, none⟩,
    ⟨"CQ_FULL", 1, 1, .w1c, 0, false, none⟩,
    ⟨"DB_ERROR", 2, 2, .w1c, 0, false, none⟩,
    ⟨"WINDOW_ERROR", 3, 3, .w1c, 0, false, none⟩,
    ⟨"CQ_LOST", 4, 4, .w1c, 0, false, none⟩,
    ⟨"RESET_ABORTED", 28, 16, .ro, 0, false, none⟩]⟩

/-- TEN_DOORBELL (R150). -/
def TEN_DOORBELL : RegRow := ⟨"TEN_DOORBELL", 0x1000030, [(16, 0x100000)], [
    ⟨"RING", 19, 0, .wo, 0, false, none⟩,
    ⟨"TAIL", 35, 20, .wo, 0, false, none⟩]⟩

/-- TEN_CQ_DOORBELL (R150). -/
def TEN_CQ_DOORBELL : RegRow := ⟨"TEN_CQ_DOORBELL", 0x1000038, [(16, 0x100000)], [
    ⟨"RING", 15, 0, .wo, 0, false, none⟩,
    ⟨"HEAD", 31, 16, .wo, 0, false, none⟩]⟩

/-- TEN_SQ_TABLE (R150). -/
def TEN_SQ_TABLE : RegRow := ⟨"TEN_SQ_TABLE", 0x1000040, [(16, 0x100000)], [
    ⟨"ADDR", 51, 0, .rw, 0, false, none⟩]⟩

/-- TEN_CQ_TABLE (R150). -/
def TEN_CQ_TABLE : RegRow := ⟨"TEN_CQ_TABLE", 0x1000048, [(16, 0x100000)], [
    ⟨"ADDR", 51, 0, .rw, 0, false, none⟩]⟩

/-- TEN_RING_CMD (R150). -/
def TEN_RING_CMD : RegRow := ⟨"TEN_RING_CMD", 0x1000050, [(16, 0x100000)], [
    ⟨"KIND", 0, 0, .wo, 0, false, none⟩,
    ⟨"OP", 2, 1, .wo, 0, false, none⟩,
    ⟨"RING", 27, 8, .wo, 0, false, none⟩]⟩

/-- TEN_RING_STATUS (R150). -/
def TEN_RING_STATUS : RegRow := ⟨"TEN_RING_STATUS", 0x1000058, [(16, 0x100000)], [
    ⟨"BUSY", 0, 0, .ro, 0, false, none⟩,
    ⟨"RESULT", 3, 1, .ro, 0, false, none⟩,
    ⟨"OVERRUN", 4, 4, .w1c, 0, false, none⟩,
    ⟨"RING", 27, 8, .ro, 0, false, none⟩]⟩

/-- TEN_DB_ERRORS (R150). -/
def TEN_DB_ERRORS : RegRow := ⟨"TEN_DB_ERRORS", 0x1000060, [(16, 0x100000)], [
    ⟨"BAD_RING", 15, 0, .rc, 0, false, none⟩,
    ⟨"DISABLED_RING", 31, 16, .rc, 0, false, none⟩,
    ⟨"BAD_TAIL", 47, 32, .rc, 0, false, none⟩,
    ⟨"BAD_CQ_HEAD", 63, 48, .rc, 0, false, none⟩]⟩

/-- TEN_COMMIT (R73). -/
def TEN_COMMIT : RegRow := ⟨"TEN_COMMIT", 0x1000080, [(16, 0x100000)], [
    ⟨"GO", 0, 0, .wo, 0, false, none⟩]⟩

/-- TEN_COMMIT_STATUS (R73). -/
def TEN_COMMIT_STATUS : RegRow := ⟨"TEN_COMMIT_STATUS", 0x1000088, [(16, 0x100000)], [
    ⟨"PENDING", 0, 0, .ro, 0, false, none⟩,
    ⟨"RESULT", 2, 1, .ro, 0, false, none⟩,
    ⟨"OVERRUN", 3, 3, .w1c, 0, false, none⟩,
    ⟨"RULE", 15, 8, .ro, 0, false, none⟩,
    ⟨"SEQ", 31, 16, .ro, 0, false, none⟩]⟩

/-- TEN_WIN_BASE (R151). -/
def TEN_WIN_BASE : RegRow := ⟨"TEN_WIN_BASE", 0x1001000, [(16, 0x100000), (64, 0x10)], [
    ⟨"ENABLE", 0, 0, .rws, 0, false, none⟩,
    ⟨"READ", 1, 1, .rws, 0, false, none⟩,
    ⟨"WRITE", 2, 2, .rws, 0, false, none⟩,
    ⟨"BASE", 51, 12, .rws, 0, false, none⟩]⟩

/-- TEN_WIN_LIMIT (R151). -/
def TEN_WIN_LIMIT : RegRow := ⟨"TEN_WIN_LIMIT", 0x1001008, [(16, 0x100000), (64, 0x10)], [
    ⟨"LIMIT", 51, 12, .rws, 0, false, none⟩]⟩

/-- TEN_POOL_EVENTS (R181). -/
def TEN_POOL_EVENTS : RegRow := ⟨"TEN_POOL_EVENTS", 0x1002000, [(16, 0x100000)], [
    ⟨"WARN", 31, 0, .w1c, 0, false, none⟩,
    ⟨"THROTTLE", 63, 32, .w1c, 0, false, none⟩]⟩

/-- TEN_POOL_IRQ (R181). -/
def TEN_POOL_IRQ : RegRow := ⟨"TEN_POOL_IRQ", 0x1002008, [(16, 0x100000)], [
    ⟨"STOP", 31, 0, .w1c, 0, false, none⟩,
    ⟨"VECTOR", 42, 32, .rw, 0, false, none⟩,
    ⟨"EN", 48, 48, .rw, 0, false, none⟩]⟩

/-- TEN_LIVE_TABLE (R215). -/
def TEN_LIVE_TABLE : RegRow := ⟨"TEN_LIVE_TABLE", 0x1002100, [(16, 0x100000)], [
    ⟨"ADDR", 51, 0, .rw, 0, false, none⟩]⟩

/-- TEN_LIVE_DOORBELL (R215). -/
def TEN_LIVE_DOORBELL : RegRow := ⟨"TEN_LIVE_DOORBELL", 0x1002108, [(16, 0x100000)], [
    ⟨"PORT", 8, 0, .wo, 0, false, none⟩,
    ⟨"SLOT", 11, 9, .wo, 0, false, none⟩]⟩

/-- TEN_LIVE_STATUS (R215). -/
def TEN_LIVE_STATUS : RegRow := ⟨"TEN_LIVE_STATUS", 0x1002110, [(16, 0x100000)], [
    ⟨"BAD_PORT", 15, 0, .rc, 0, false, none⟩,
    ⟨"SLOT_BUSY", 31, 16, .rc, 0, false, none⟩,
    ⟨"PORT_FULL", 47, 32, .rc, 0, false, none⟩,
    ⟨"KEEP_LOST", 63, 48, .rc, 0, false, none⟩]⟩

/-- TEN_PKT_DOORBELL (R289). -/
def TEN_PKT_DOORBELL : RegRow := ⟨"TEN_PKT_DOORBELL", 0x1002200, [(16, 0x100000)], [
    ⟨"FLOW", 11, 0, .wo, 0, false, none⟩,
    ⟨"READ", 41, 12, .wo, 0, false, none⟩]⟩

/-- TEN_PKT_STATUS (R289). -/
def TEN_PKT_STATUS : RegRow := ⟨"TEN_PKT_STATUS", 0x1002208, [(16, 0x100000)], [
    ⟨"FULL", 0, 0, .w1c, 0, false, none⟩,
    ⟨"BAD_PUSH", 31, 16, .rc, 0, false, none⟩]⟩

/-- TEN_GALLEY_SEQ (R378). -/
def TEN_GALLEY_SEQ : RegRow := ⟨"TEN_GALLEY_SEQ", 0x1002300, [(16, 0x100000)], [
    ⟨"FLOW", 11, 0, .wo, 0, false, none⟩,
    ⟨"OP", 13, 12, .wo, 0, false, none⟩]⟩

/-- TEN_GALLEY_STEP (R378). -/
def TEN_GALLEY_STEP : RegRow := ⟨"TEN_GALLEY_STEP", 0x1002308, [(16, 0x100000)], [
    ⟨"GROUP", 5, 0, .wo, 0, false, none⟩]⟩

/-- TEN_GALLEY_SKIP (R378). -/
def TEN_GALLEY_SKIP : RegRow := ⟨"TEN_GALLEY_SKIP", 0x1002310, [(16, 0x100000)], [
    ⟨"FLOW", 11, 0, .wo, 0, false, none⟩,
    ⟨"UP_TO", 59, 12, .wo, 0, false, none⟩,
    ⟨"FLUSH", 60, 60, .wo, 0, false, none⟩]⟩

/-- TEN_GALLEY_STATUS (R378). -/
def TEN_GALLEY_STATUS : RegRow := ⟨"TEN_GALLEY_STATUS", 0x1002318, [(16, 0x100000)], [
    ⟨"BAD_WRITE", 15, 0, .rc, 0, false, none⟩]⟩

/-- TEN_DELTA_ALT (R411). -/
def TEN_DELTA_ALT : RegRow := ⟨"TEN_DELTA_ALT", 0x1002400, [(16, 0x100000)], [
    ⟨"FLOW", 11, 0, .wo, 0, false, none⟩,
    ⟨"OP", 13, 12, .wo, 0, false, none⟩]⟩

/-- TEN_DELTA_DONE (R411). -/
def TEN_DELTA_DONE : RegRow := ⟨"TEN_DELTA_DONE", 0x1002408, [(16, 0x100000)], [
    ⟨"FLOW", 11, 0, .wo, 0, false, none⟩,
    ⟨"DIE", 16, 12, .wo, 0, false, none⟩,
    ⟨"LAYER", 47, 32, .wo, 0, false, none⟩]⟩

/-- TEN_DELTA_STATUS (R411). -/
def TEN_DELTA_STATUS : RegRow := ⟨"TEN_DELTA_STATUS", 0x1002410, [(16, 0x100000)], [
    ⟨"BAD_WRITE", 15, 0, .rc, 0, false, none⟩]⟩

/-- TEN_FLT (R470). -/
def TEN_FLT : RegRow := ⟨"TEN_FLT", 0x1002500, [(16, 0x100000)], [
    ⟨"FAULTED", 0, 0, .w1c, 0, false, none⟩,
    ⟨"TAKEN", 1, 1, .w1c, 0, false, none⟩,
    ⟨"SUSPENDED", 2, 2, .w1c, 0, false, none⟩,
    ⟨"LAST_SOURCE", 10, 3, .ro, 0, false, none⟩,
    ⟨"VECTOR", 21, 11, .rw, 0, false, none⟩,
    ⟨"EN", 22, 22, .rw, 0, false, none⟩]⟩

/-- TEN_TKO_CQ (R470). -/
def TEN_TKO_CQ : RegRow := ⟨"TEN_TKO_CQ", 0x1002508, [(16, 0x100000)], [
    ⟨"RING", 15, 0, .rw, 0, false, none⟩,
    ⟨"EN", 16, 16, .rw, 0, false, none⟩,
    ⟨"LOST", 47, 32, .rc, 0, false, none⟩]⟩

/-- GRD_CTRL (R492). -/
def GRD_CTRL : RegRow := ⟨"GRD_CTRL", 0x2000000, [], [
    ⟨"DELIVERED", 0, 0, .gw, 0, false, none⟩,
    ⟨"FORGET", 1, 1, .gw, 0, false, none⟩,
    ⟨"PEER_TOOK", 2, 2, .gw, 0, true, none⟩]⟩

/-- GRD_IDENT (R492). -/
def GRD_IDENT : RegRow := ⟨"GRD_IDENT", 0x2000008, [], [
    ⟨"INSTANCE", 0, 0, .gw, 0, false, none⟩,
    ⟨"DIE_SERIAL", 63, 32, .gw, 0, false, none⟩]⟩

/-- GRD_KEY (R471). -/
def GRD_KEY : RegRow := ⟨"GRD_KEY", 0x2000100, [(4, 0x80), (12, 0x8)], [
    ⟨"KEY", 63, 0, .gw, 0, true, none⟩]⟩

/-- GRD_KEY_STATUS (R471). -/
def GRD_KEY_STATUS : RegRow := ⟨"GRD_KEY_STATUS", 0x2000160, [(4, 0x80)], [
    ⟨"VALID", 0, 0, .gw, 0, true, none⟩]⟩

/-- GRD_PWR_LIMITS (R436). -/
def GRD_PWR_LIMITS : RegRow := ⟨"GRD_PWR_LIMITS", 0x2001000, [], [
    ⟨"TDC_A", 9, 0, .gw, 340, true, none⟩,
    ⟨"EDC_A", 19, 10, .gw, 450, true, none⟩,
    ⟨"EDC_MS", 27, 20, .gw, 5, true, none⟩,
    ⟨"TJ_BOOST", 35, 28, .gw, 95, true, none⟩,
    ⟨"TJ_MAX", 43, 36, .gw, 105, true, none⟩,
    ⟨"TJ_CRIT", 51, 44, .gw, 115, true, none⟩,
    ⟨"BOOST_PCT", 58, 52, .gw, 10, true, none⟩]⟩

/-- GRD_PWR_CLASS (R436). -/
def GRD_PWR_CLASS : RegRow := ⟨"GRD_PWR_CLASS", 0x2001008, [], [
    ⟨"FLOOR_COMPUTE", 15, 0, .gw, 320, true, none⟩,
    ⟨"FLOOR_MEMORY", 31, 16, .gw, 120, true, none⟩,
    ⟨"FLOOR_LINKS", 47, 32, .gw, 80, true, none⟩,
    ⟨"ORDER", 53, 48, .gw, 36, true, none⟩]⟩

/-- GRD_PWR_ALERT (R436). -/
def GRD_PWR_ALERT : RegRow := ⟨"GRD_PWR_ALERT", 0x2001010, [], [
    ⟨"ALERT_HOLD_US", 13, 0, .gw, 50, true, none⟩,
    ⟨"DROOP_MV", 25, 14, .gw, 600, true, none⟩]⟩

/-- GRD_VTABLE_P (R436). -/
def GRD_VTABLE_P : RegRow := ⟨"GRD_VTABLE_P", 0x2001040, [(5, 0x8)], [
    ⟨"V", 47, 0, .gw, 0, true, none⟩]⟩

/-- GRD_VTABLE_X (R436). -/
def GRD_VTABLE_X : RegRow := ⟨"GRD_VTABLE_X", 0x2001068, [], [
    ⟨"AGE_STEP_MV", 7, 0, .gw, 0, true, none⟩,
    ⟨"AGE_MAX", 11, 8, .gw, 0, true, none⟩,
    ⟨"RUN_HOURS", 39, 16, .gw, 0, true, none⟩]⟩

/-- GRD_VTABLE_CRC (R436). -/
def GRD_VTABLE_CRC : RegRow := ⟨"GRD_VTABLE_CRC", 0x2001070, [], [
    ⟨"CRC", 31, 0, .gw, 0, true, none⟩,
    ⟨"VALID", 32, 32, .ro, 0, true, none⟩]⟩

/-- GRD_ALIVE (R471). -/
def GRD_ALIVE : RegRow := ⟨"GRD_ALIVE", 0x2002000, [], [
    ⟨"PERIOD_US", 9, 0, .gw, 10, true, some (1, 1000)⟩,
    ⟨"PEER_PERIOD_US", 19, 10, .gw, 10, true, none⟩]⟩

/-- GRD_FLT_SRC (R471). -/
def GRD_FLT_SRC : RegRow := ⟨"GRD_FLT_SRC", 0x2002100, [(64, 0x8)], [
    ⟨"SEV", 2, 0, .gw, 0, true, some (0, 5)⟩,
    ⟨"ESC_N", 19, 8, .gw, 0, true, none⟩,
    ⟨"ESC_W_MS", 35, 20, .gw, 0, true, none⟩]⟩

/-- GRD_CKPT_A (R471). -/
def GRD_CKPT_A : RegRow := ⟨"GRD_CKPT_A", 0x2003000, [], [
    ⟨"EN", 0, 0, .gw, 0, true, none⟩,
    ⟨"BASE", 51, 30, .gw, 0, true, none⟩]⟩

/-- GRD_CKPT_B (R471). -/
def GRD_CKPT_B : RegRow := ⟨"GRD_CKPT_B", 0x2003008, [], [
    ⟨"EN", 0, 0, .gw, 0, true, none⟩,
    ⟨"BASE", 51, 30, .gw, 0, true, none⟩]⟩

/-- GRD_PEER_CKPT_A (R471). -/
def GRD_PEER_CKPT_A : RegRow := ⟨"GRD_PEER_CKPT_A", 0x2003010, [], [
    ⟨"EN", 0, 0, .gw, 0, true, none⟩,
    ⟨"BASE", 51, 30, .gw, 0, true, none⟩]⟩

/-- GRD_PEER_CKPT_B (R471). -/
def GRD_PEER_CKPT_B : RegRow := ⟨"GRD_PEER_CKPT_B", 0x2003018, [], [
    ⟨"EN", 0, 0, .gw, 0, true, none⟩,
    ⟨"BASE", 51, 30, .gw, 0, true, none⟩]⟩

/-- GRD_TKO (R471). -/
def GRD_TKO : RegRow := ⟨"GRD_TKO", 0x2003020, [], [
    ⟨"GO", 0, 0, .gw, 0, false, none⟩,
    ⟨"CLAIM_MS", 10, 1, .gw, 1000, true, some (1, 1000)⟩]⟩

/-- TST_INJ (R467). -/
def TST_INJ : RegRow := ⟨"TST_INJ", 0x3000000, [], [
    ⟨"SOURCE", 7, 0, .rw, 0, false, none⟩,
    ⟨"ARM", 8, 8, .rw, 0, false, none⟩,
    ⟨"RAIL", 9, 9, .rw, 0, false, none⟩,
    ⟨"COUNT", 25, 16, .rw, 0, false, none⟩]⟩

end Sys2Proof.Machine.Row

namespace Sys2Proof.Machine

/-- Part 1 of the register map, in address order. -/
def regRows1 : List RegRow := [
  Row.GLB_ID, Row.GLB_CAPS, Row.GLB_STATUS, Row.GLB_RESET,
  Row.GLB_CLK, Row.GLB_FABRIC, Row.FRM_SRC_ADDR, Row.FRM_SRC_SIZE,
  Row.FRM_CTRL, Row.FRM_STATUS, Row.FRM_REFUSAL, Row.FRM_LIVE_ID,
  Row.FRM_AMEND_COUNT, Row.FRM_QUOIN_TIMEOUT, Row.FRM_QUOIN_TIME, Row.FRM_SPARES,
  Row.LKP_ADMIT_CFG, Row.LKP_STATUS, Row.LKP_LATE_TOTAL, Row.LKP_REFUSAL,
  Row.LKP_BERTH_CFG, Row.LKP_BERTH_STATUS, Row.LKP_SWAP_COUNT, Row.LKP_OFFLOAD_ADVICE,
  Row.LKP_COST_A, Row.LKP_COST_B, Row.LKP_SERVER, Row.LKP_FLOW_A,
  Row.LKP_FLOW_B, Row.LKP_WORK, Row.RSV_CFG, Row.RSV_STATUS,
  Row.RSV_COMMIT, Row.RSV_COMMIT_STATUS, Row.RSV_POOL_THR, Row.RSV_POOL_SIZE,
  Row.RSV_POOL_LEVEL, Row.RSV_POOL_STATE, Row.RSV_POOL_COUNT, Row.RSV_POOL_BASE]

/-- Part 2 of the register map, in address order. -/
def regRows2 : List RegRow := [
  Row.STN_CHASE_STATUS, Row.STN_CHASE_SEG, Row.STN_HW_STATUS, Row.STN_HW_COUNT_A,
  Row.STN_HW_COUNT_B, Row.STN_HW_PORT, Row.STN_CASE_CFG, Row.STN_CASE_COUNT_A,
  Row.STN_CASE_COUNT_B, Row.STN_CASE_REASON, Row.STN_CASE_LAST, Row.STN_MR_STATUS,
  Row.STN_MR_COUNT, Row.STN_MR_ERR, Row.STN_MR_LAST, Row.STN_MR_ENC_STATUS,
  Row.STN_MR_ENC_COUNT, Row.STN_MP_STATUS, Row.STN_MP_CTX_A, Row.STN_MP_CTX_B,
  Row.STN_PLT_CFG, Row.STN_PLT_COUNT_A, Row.STN_PLT_COUNT_B, Row.STN_PLT_ENC_COUNT,
  Row.STN_PLT_SEARCH, Row.STN_PLT_ENC_A, Row.STN_PLT_ENC_B, Row.STN_PLT_COMMIT,
  Row.STN_PLT_COMMIT_STATUS, Row.STN_TRIM_CFG, Row.STN_TRIM_STATUS, Row.STN_TRIM_COUNT_A,
  Row.STN_TRIM_COUNT_B, Row.STN_TRIM_LAST, Row.STN_TRIM_COMMIT, Row.STN_TRIM_COMMIT_STATUS,
  Row.STN_CMP_STATUS, Row.STN_CMP_COUNT_A, Row.STN_CMP_COUNT_B, Row.STN_CMP_IMAGE_A]

/-- Part 3 of the register map, in address order. -/
def regRows3 : List RegRow := [
  Row.STN_CMP_IMAGE_B, Row.STN_GAL_STATUS, Row.STN_GAL_COUNT_A, Row.STN_GAL_COUNT_B,
  Row.STN_GAL_COUNT_C, Row.STN_GAL_GROUP, Row.STN_DLT_CFG, Row.STN_DLT_STAGGER,
  Row.STN_DLT_GROUP_A, Row.STN_DLT_GROUP_B, Row.STN_DLT_STATUS, Row.STN_DLT_COUNT_A,
  Row.STN_DLT_COUNT_B, Row.STN_DLT_COUNT_C, Row.STN_DLT_LAST, Row.STN_DLT_FLOW,
  Row.STN_DLT_COMMIT, Row.STN_DLT_COMMIT_STATUS, Row.RFL_STATUS, Row.RFL_COUNT,
  Row.RFL_KAT_SEED, Row.RFL_KAT_CTR_LO, Row.RFL_KAT_CTR_HI, Row.RFL_KAT_CTRL,
  Row.RFL_KAT_OUT_LO, Row.RFL_KAT_OUT_HI, Row.RFL_EPOCH, Row.RFL_TABLE_A,
  Row.RFL_TABLE_B, Row.WEIR_CFG, Row.WEIR_STATUS, Row.WEIR_TEN_A,
  Row.WEIR_TEN_B, Row.PTC_CTRL, Row.PTC_EST_CFG, Row.PTC_COMP_CFG,
  Row.PTC_STATUS, Row.PTC_CAP, Row.PTC_POWER, Row.PTC_TEMP]

/-- Part 4 of the register map, in address order. -/
def regRows4 : List RegRow := [
  Row.PTC_BOOST, Row.PTC_THR_DUR, Row.PTC_THR_COUNT, Row.PTC_THR_LAST,
  Row.PTC_COMMIT, Row.PTC_COMMIT_STATUS, Row.FLT_STATUS, Row.FLT_IRQ,
  Row.FLT_FENCE, Row.FLT_CKPT, Row.FLT_TKO_STATUS, Row.FLT_TKO_TIME,
  Row.FLT_SRC_STATE, Row.FLT_CAP_ADDR, Row.FLT_CAP_MASTER, Row.FLT_CAP_TIME,
  Row.FLT_CAP_SYND, Row.FLT_TKO_ENTRY, Row.TIM_NOW, Row.TIM_STATUS,
  Row.TEN_ID, Row.TEN_SQ_RANGE, Row.TEN_CQ_RANGE, Row.TEN_QUOTA,
  Row.TEN_CTRL, Row.TEN_STATUS, Row.TEN_DOORBELL, Row.TEN_CQ_DOORBELL,
  Row.TEN_SQ_TABLE, Row.TEN_CQ_TABLE, Row.TEN_RING_CMD, Row.TEN_RING_STATUS,
  Row.TEN_DB_ERRORS, Row.TEN_COMMIT, Row.TEN_COMMIT_STATUS, Row.TEN_WIN_BASE,
  Row.TEN_WIN_LIMIT, Row.TEN_POOL_EVENTS, Row.TEN_POOL_IRQ, Row.TEN_LIVE_TABLE]

/-- Part 5 of the register map, in address order. -/
def regRows5 : List RegRow := [
  Row.TEN_LIVE_DOORBELL, Row.TEN_LIVE_STATUS, Row.TEN_PKT_DOORBELL, Row.TEN_PKT_STATUS,
  Row.TEN_GALLEY_SEQ, Row.TEN_GALLEY_STEP, Row.TEN_GALLEY_SKIP, Row.TEN_GALLEY_STATUS,
  Row.TEN_DELTA_ALT, Row.TEN_DELTA_DONE, Row.TEN_DELTA_STATUS, Row.TEN_FLT,
  Row.TEN_TKO_CQ, Row.GRD_CTRL, Row.GRD_IDENT, Row.GRD_KEY,
  Row.GRD_KEY_STATUS, Row.GRD_PWR_LIMITS, Row.GRD_PWR_CLASS, Row.GRD_PWR_ALERT,
  Row.GRD_VTABLE_P, Row.GRD_VTABLE_X, Row.GRD_VTABLE_CRC, Row.GRD_ALIVE,
  Row.GRD_FLT_SRC, Row.GRD_CKPT_A, Row.GRD_CKPT_B, Row.GRD_PEER_CKPT_A,
  Row.GRD_PEER_CKPT_B, Row.GRD_TKO, Row.TST_INJ]

/-- The register map of R521 to R525, in address order. -/
def regRows : List RegRow :=
  regRows1 ++ regRows2 ++ regRows3 ++ regRows4 ++ regRows5

end Sys2Proof.Machine
end

