-- ==== Sys2Proof/Machine/RegFile.lean ====
section
/-! DEFINITION. The register file: which register an offset holds (R513, R521 to R525), its reset word (R11), the
canonical form of the sparse file, and reading and writing one field. -/

namespace Sys2Proof.Machine

/-- Indices of an array element at distance `d` from the first, outermost first; none when `d` is no element. -/
def dimIndex : List (Nat × Nat) → Nat → Option (List Nat)
  | [], d => if d = 0 then some [] else none
  | (n, st) :: rest, d =>
    if d / st < n then (dimIndex rest (d % st)).map (fun l => d / st :: l) else none

/-- The indices of the row's register at an offset. -/
def RegRow.index? (r : RegRow) (off : Nat) : Option (List Nat) :=
  if r.base ≤ off then dimIndex r.dims (off - r.base) else none

/-- The register at an offset, with its indices (R513). -/
def findReg (off : Nat) : List RegRow → Option (RegRow × List Nat)
  | [] => none
  | r :: rest => match r.index? off with
    | some ix => some (r, ix)
    | none => findReg off rest

/-- The register that R521 to R525 place at an offset. -/
def regAt (off : Nat) : Option (RegRow × List Nat) := findReg off regRows

/-- `v` in the bits [lo + width - 1 : lo] of `w`. -/
def putBits (w : Word) (lo width v : Nat) : Word :=
  let m := (2 ^ width - 1) * 2 ^ lo
  BitVec.ofNat 64 (w.toNat - (w.toNat &&& m) + (v % 2 ^ width) * 2 ^ lo)

/-- The bits [lo + width - 1 : lo] of `w`. -/
def getBits (w : Word) (lo width : Nat) : Nat := w.toNat / 2 ^ lo % 2 ^ width

/-- The reset word that the field table gives. -/
def RegRow.resetWord (r : RegRow) : Word :=
  r.fields.foldl (fun w f => putBits w f.lo (f.hi - f.lo + 1) f.reset) 0

/-- Default severity, ESC_N and ESC_W_MS of a fault source (R437); none for an identifier that is not listed. -/
def fltDefaults (s : Nat) : Option (Nat × Nat × Nat) :=
  if s = 0x02 ∨ s = 0x08 ∨ s = 0x0B ∨ s = 0x0D ∨ s = 0x29 then some (2, 8, 1000)
  else if s = 0x03 ∨ s = 0x07 ∨ s = 0x0C ∨ s = 0x26 ∨ s = 0x2B then some (2, 0, 0)
  else if s = 0x12 ∨ s = 0x2F ∨ s = 0x32 then some (5, 0, 0)
  else if s = 0x15 then some (1, 16, 10000)
  else if s = 0x20 ∨ s = 0x25 ∨ s = 0x27 then some (1, 256, 1000)
  else if s = 0x28 then some (3, 0, 0)
  else if s = 0x30 then some (3, 4, 1000)
  else if s = 0x01 ∨ s = 0x04 ∨ s = 0x05 ∨ s = 0x06 ∨ s = 0x09 ∨ s = 0x0A ∨ s = 0x0E ∨ s = 0x10 ∨ s = 0x11 ∨
    s = 0x13 ∨ s = 0x14 ∨ s = 0x16 ∨ s = 0x21 ∨ s = 0x22 ∨ s = 0x23 ∨ s = 0x24 ∨ s = 0x2A ∨ s = 0x2C ∨ s = 0x2D ∨
    s = 0x2E ∨ s = 0x31 then some (1, 0, 0)
  else none

/-- The reset word of the register at an offset; GRD_FLT_SRC takes the defaults of R437 (R471). -/
def resetWord (off : Nat) : Word :=
  if 0x2002100 ≤ off ∧ off < 0x2002300 then
    match fltDefaults ((off - 0x2002100) / 8) with
    | some (sev, n, w) => BitVec.ofNat 64 (sev + n * 2 ^ 8 + w * 2 ^ 20)
    | none => 0
  else match regAt off with
    | some (r, _) => r.resetWord
    | none => 0

/-- The entry of an offset in a register file. -/
def RegFile.find : RegFile → Nat → Option Word
  | [], _ => none
  | (o, v) :: rest, off => if o = off then some v else RegFile.find rest off

/-- The word of a register: its entry, or its reset word. -/
def RegFile.get (r : RegFile) (off : Nat) : Word := (r.find off).getD (resetWord off)

/-- Remove the entry of an offset. -/
def RegFile.erase : RegFile → Nat → RegFile
  | [], _ => []
  | (o, v) :: rest, off =>
    if o < off then (o, v) :: RegFile.erase rest off else if o = off then rest else (o, v) :: rest

/-- Put an entry in its place. -/
def RegFile.insert : RegFile → Nat → Word → RegFile
  | [], off, w => [(off, w)]
  | (o, v) :: rest, off, w =>
    if o < off then (o, v) :: RegFile.insert rest off w
    else if o = off then (off, w) :: rest
    else (off, w) :: (o, v) :: rest

/-- Write a register; writing the reset word removes the entry, so that equal files are equal data. -/
def RegFile.set (r : RegFile) (off : Nat) (w : Word) : RegFile :=
  if w = resetWord off then r.erase off else r.insert off w

/-- Offsets strictly rising, each above `lo`, no entry equal to its reset word. -/
def RegFile.wfFrom : Option Nat → RegFile → Bool
  | _, [] => true
  | lo, (o, v) :: rest =>
    (match lo with | none => true | some l => decide (l < o)) && (v != resetWord o) && RegFile.wfFrom (some o) rest

/-- The canonical form of a register file. -/
def RegFile.wf (r : RegFile) : Bool := RegFile.wfFrom none r

/-- The value of a field in a word. -/
def Field.of (f : Field) (w : Word) : Nat := getBits w f.lo f.width

/-- The word with a field replaced. -/
def Field.into (f : Field) (w : Word) (v : Nat) : Word := putBits w f.lo f.width v

/-- The live value of a field. -/
def State.fld (s : State) (f : Field) : Nat := f.of (s.regs.get f.off)

/-- Is a one-bit field 1? -/
def State.flag (s : State) (f : Field) : Bool := s.fld f != 0

/-- Write the live value of a field. -/
def State.setFld (s : State) (f : Field) (v : Nat) : State :=
  { s with regs := s.regs.set f.off (f.into (s.regs.get f.off) v) }

/-- Write several fields, one after the other. -/
def State.setFlds (s : State) (l : List (Field × Nat)) : State := l.foldl (fun s p => s.setFld p.1 p.2) s

/-- Add to a counter that saturates at its width (R8's counters say "saturating"). -/
def State.addFld (s : State) (f : Field) (n : Nat) : State :=
  s.setFld f (min (2 ^ f.width - 1) (s.fld f + n))

/-- Count one event in a saturating counter. -/
def State.incFld (s : State) (f : Field) : State := s.addFld f 1

/-- The whole live word of a register. -/
def State.reg (s : State) (off : Nat) : Word := s.regs.get off

/-- Replace the whole live word of a register. -/
def State.setReg (s : State) (off : Nat) (w : Word) : State := { s with regs := s.regs.set off w }

end Sys2Proof.Machine
end

