-- ==== Sys2Proof/Machine/Ops.lean ====
section
/-! DEFINITION. Named operations over the state: finding and replacing flows, tasks, rings and ports, raising a fault
event, counting, issuing a fabric transaction, sending a message-signalled interrupt, and the address windows. -/

namespace Sys2Proof.Machine

/-! ### Time and lookups -/

/-- TIME_BUS as the instance holds it (R478). -/
def State.now (s : State) : Nat := s.time.now

/-- The moment of a timed event comes: local time is at least its due time. While a backward difference is absorbed, TIME_BUS
gains on local time what local time moves (R479). -/
def State.advance (s : State) (due : Nat) : State :=
  let d := due - s.time.now
  { s with time := { s.time with
      now := s.time.now + d, behind := s.time.behind - d,
      since := s.time.since.map (fun x => x + d + min d s.time.behind) } }

/-- The live flow with an ID. -/
def State.flow? (s : State) (f : Nat) : Option FlowEntry := s.forme.flows.find? (fun x => x.flow == f)

/-- Is the flow a streaming flow? -/
def FlowEntry.streaming (f : FlowEntry) : Bool := match f.delta with | some d => d.kind == 0 | none => false

/-- DETAIL of a task of the flow before its stations fill it: the slot of a live post (R192), and for a streaming flow that
no fault was found at a descriptor (R393). -/
def FlowEntry.newDetail (f : FlowEntry) (slot : Nat) : BitVec 32 :=
  BitVec.ofNat 32 (slot % 8 + (if f.streaming then 2 ^ 11 * 255 else 0))

/-- The tenancy table entry of a tenancy (R113). -/
def State.tenEntry (s : State) (t : Nat) : TenEntry := s.forme.tens.getD t TenEntry.blank

/-- A flow that is live and belongs to a tenancy. -/
def State.flowOf? (s : State) (t f : Nat) : Option FlowEntry := (s.flow? f).filter (fun x => x.ten == t)

/-- Replace the elements that satisfy a test. -/
def updateWhere {α : Type} (l : List α) (p : α → Bool) (f : α → α) : List α :=
  l.map (fun x => if p x then f x else x)

/-- Replace the first element with the same key, or add one at the end. -/
def putBy {α : Type} (same : α → Bool) (x : α) : List α → List α
  | [] => [x]
  | y :: rest => if same y then x :: rest else y :: putBy same x rest

/-- Sum of a function over a list. -/
def sumBy {α : Type} (f : α → Nat) (l : List α) : Nat := l.foldl (fun a x => a + f x) 0

/-- The element with the least key; the earliest of equals. -/
def leastBy {α : Type} (lt : α → α → Bool) : List α → Option α
  | [] => none
  | x :: rest => match leastBy lt rest with
    | none => some x
    | some y => if lt y x then some y else some x

/-- Lexicographic comparison of keys. -/
def lexLt : List Nat → List Nat → Bool
  | [], _ :: _ => true
  | _, [] => false
  | a :: as, b :: bs => if a < b then true else if b < a then false else lexLt as bs

/-- Insertion into a list sorted by a key. -/
def insertBy {α : Type} (key : α → List Nat) (x : α) : List α → List α
  | [] => [x]
  | y :: rest => if lexLt (key x) (key y) then x :: y :: rest else y :: insertBy key x rest

/-- Stable sort by a key. -/
def sortBy {α : Type} (key : α → List Nat) (l : List α) : List α := l.foldl (fun acc x => insertBy key x acc) []

/-- A context of a flow as it is at its quoin point (R60). -/
def FlowRun.fresh (f : Nat) : FlowRun :=
  { flow := f, sampleNext := 0, lastRel := none, suspended := false, ckptSeq := 0, degraded := [], older := [],
    dec := { awaitRap := true, reconAwait := true, broken := 0, filled := 0, slots := [], wait := [], outQ := [], hist := [],
             header := false },
    enc := { t0 := none, tick := 0, full := 0, rem := 0, rate := 0, gain := [], prev := [], sinceKey := 0,
             sinceGold := 0, keyDue := false, coded := false, lastInter := false, lastQ0 := 0, ctl := ⟨false, false, none⟩,
             wrOff := 0, rdOff := 0, chunks := [], chunkOut := 0, refs := [none, none], hist := [], goldAt := 0,
             lastVecs := [] },
    gal := { eNext := 0, batch := 0, rows := [], segs := [], segPos := (0, 0, 0), held := [], lastIn := none,
             absent := 0, flushTo := none, reserve := [] },
    dlt := { present := none, drained := false, needDone := 0, gotDone := 0, alt := false, streams := [], staged := 0,
             firstAt := none, delivered := 0, layerQ := [] },
    rfl := [] }

/-- The run-time context of a flow. -/
def State.run? (s : State) (f : Nat) : Option FlowRun := s.flows.find? (fun r => r.flow == f)

/-- The run-time context of a flow, fresh when it has none. -/
def State.run (s : State) (f : Nat) : FlowRun := (s.run? f).getD (FlowRun.fresh f)

/-- Replace the run-time context of a flow. -/
def State.setRun (s : State) (r : FlowRun) : State :=
  { s with flows := updateWhere s.flows (fun x => x.flow == r.flow) (fun _ => r) }

/-- Change the run-time context of a flow. -/
def State.modRun (s : State) (f : Nat) (g : FlowRun → FlowRun) : State :=
  { s with flows := updateWhere s.flows (fun x => x.flow == f) g }

/-- A task in flight. -/
def State.task? (s : State) (id : Nat) : Option Task := s.tasks.find? (fun t => t.id == id)

/-- Change a task. -/
def State.modTask (s : State) (id : Nat) (g : Task → Task) : State :=
  { s with tasks := updateWhere s.tasks (fun t => t.id == id) g }

/-- Replace a task. -/
def State.setTask (s : State) (t : Task) : State := s.modTask t.id (fun _ => t)

/-- Is it a task in flight, and not a sample travelling on by itself? -/
def Task.isTask (t : Task) : Bool := t.origin != .carrier

/-- The tasks of a flow, in the order in which they were accepted. -/
def State.tasksOf (s : State) (f : Nat) : List Task := s.tasks.filter (fun t => t.flow == f && t.isTask)

/-- A submission ring that is enabled or draining. -/
def State.sq? (s : State) (ring : Nat) : Option SqRing := s.sqs.find? (fun r => r.ring == ring)

/-- Change a submission ring. -/
def State.modSq (s : State) (ring : Nat) (g : SqRing → SqRing) : State :=
  { s with sqs := updateWhere s.sqs (fun r => r.ring == ring) g }

/-- An enabled completion ring. -/
def State.cq? (s : State) (cq : Nat) : Option CqRing := s.cqs.find? (fun r => r.cq == cq)

/-- Change a completion ring. -/
def State.modCq (s : State) (cq : Nat) (g : CqRing → CqRing) : State :=
  { s with cqs := updateWhere s.cqs (fun r => r.cq == cq) g }

/-- A live port at run time. -/
def State.port? (s : State) (p : Nat) : Option PortRun := s.ports.find? (fun x => x.port == p)

/-- Change a live port. -/
def State.modPort (s : State) (p : Nat) (g : PortRun → PortRun) : State :=
  { s with ports := updateWhere s.ports (fun x => x.port == p) g }

/-- The live flow that a port is bound to, with its binding (R184). -/
def State.portFlow? (s : State) (p : Nat) : Option (FlowEntry × LiveBinding) :=
  s.forme.flows.findSome? (fun f => match f.live with
    | some b => if b.port == p then some (f, b) else none
    | none => none)

/-- Is the instance running stations and issuing transactions? Not while it is held in reset, has no supply, or has
halted (R442). -/
def State.active (s : State) : Bool := s.ready

/-- The codec settings entry of a flow's decode direction. -/
def State.dec? (s : State) (f : Nat) : Option DecEntry := decOf s.forme.codecs f

/-- The codec settings entry of a flow's encode direction. -/
def State.enc? (s : State) (f : Nat) : Option EncEntry := encOf s.forme.codecs f

/-- The Riffle entry of a flow. -/
def State.riffle? (s : State) (f : Nat) : Option RiffleEntry := s.forme.riffles.find? (fun r => r.flow == f)

/-- What admission derived for a flow. -/
def State.adm? (s : State) (f : Nat) : Option FlowAdm := s.adm.find? (fun a => a.flow == f)

/-- Count n in a saturating counter whose unit is `unit`: the remainder is kept. -/
def State.addUnits (s : State) (f : Field) (unit n : Nat) : State :=
  let had := ((s.frac.find? (fun x => x.1 == f.off && x.2.1 == f.lo)).map (·.2.2)).getD 0
  let total := had + n
  { s with frac := putBy (fun x => x.1 == f.off && x.2.1 == f.lo) (f.off, f.lo, total % unit) s.frac }.addFld f
    (total / unit)

/-- Count bulk work of a station in the 1 ms window: served, and dropped while it waited (R105). -/
def State.countWindow (s : State) (st served dropped : Nat) : State :=
  let had := ((s.window1ms.find? (fun x => x.1 == st)).map (·.2)).getD (0, 0)
  { s with window1ms := putBy (fun x => x.1 == st) (st, had.1 + served, had.2 + dropped) s.window1ms }

/-- Take the next index of the model's free values. -/
def State.nextFree (s : State) : Nat × State := (s.free, { s with free := s.free + 1 })

/-! ### Fault events -/

/-- A fault event with nothing but its charge. -/
def FaultInfo.of (c : Charge) : FaultInfo :=
  { charge := c, addr := 0, access := 0, station := 0, lane := none, thread := 0, synd := 0, unit := none }

/-- Raise a fault event. It is counted, captured and acted on at the end of the step (R441 to R445). -/
def State.raise (s : State) (src : Nat) (i : FaultInfo) : State := { s with raised := s.raised ++ [(src, i)] }

/-- Raise a fault event charged to a scope. -/
def State.raiseOn (s : State) (src : Nat) (c : Charge) : State := s.raise src (FaultInfo.of c)

/-- Count a fetch that had no response in GLB_FABRIC.TIMEOUTS (R510). -/
def State.lackAnswer (s : State) (f : Fetch) (a n : Nat) : State :=
  if noAnswer f a n then s.incFld F.GLB_FABRIC_TIMEOUTS else s

/-- A fetch that failed raises FABRIC_RESP, charged to a scope and made by a station, 0 for none (R510). -/
def State.fetchFail (s : State) (f : Fetch) (a n : Nat) (c : Charge) (station : Nat) : State :=
  (s.lackAnswer f a n).raise 0x2B { FaultInfo.of c with addr := a, access := 1, station := station }

/-- The charge of an event that concerns tenancy t. -/
def Charge.ten (t : Nat) : Charge := .tenancy (Fin.ofNat 16 t)

/-! ### Fabric transactions -/

/-- The fenced fabric ports, as GLB_FABRIC.PORTS_FENCED shows them (R512). -/
def State.portFenced (s : State) (p : Nat) : Bool := s.fencedUnits.any (fun u => u == .port p)

/-- The lowest unfenced fabric port; the choice changes no result (R508). -/
def State.freePort? (s : State) : Option Nat := (List.range 16).find? (fun p => !s.portFenced p)

/-- A tag that no transaction in flight carries, from a rotating position (R503). -/
def freeTag (used : List Nat) : Nat → Nat → Nat
  | 0, t => t % 65536
  | n + 1, t => if used.contains (t % 65536) then freeTag used n (t + 1) else t % 65536

/-- Issue one transaction (R504). A halted instance issues none (R442). With every port fenced it is held at a fenced
port, and no response comes. -/
def State.issue (s : State) (op : TxnOp) (addr len dies msgType dst : Nat) (data : List Byte) (p : Purpose) : State :=
  match s.life with
  | .halted => s
  | _ =>
    let port := s.freePort?.getD 0
    let tag := freeTag (s.txns.map (·.tag)) s.txns.length s.nextTag
    { s with
      nextTag := (tag + 1) % 65536,
      txns := s.txns ++ [{ tag, op, addr, len, dies, msgType, dst, data, purpose := p, issued := s.now, port }] }

/-- The pieces of at most 4,096 bytes that a range is moved in, none crossing a 4,096-byte boundary (R503). -/
def piecesOf : Nat → Nat → Nat → List (Nat × Nat)
  | 0, _, _ => []
  | k + 1, a, n =>
    if n = 0 then [] else
      let m := min n (4096 - a % 4096)
      (a, m) :: piecesOf k (a + m) (n - m)

/-- The pieces of a range. -/
def pieces (a n : Nat) : List (Nat × Nat) := piecesOf (n / 4096 + 2) a n

/-- Read a range of package memory. -/
def State.issueRead (s : State) (a n : Nat) (p : Purpose) : State :=
  (pieces a n).foldl (fun s q => s.issue .rd q.1 q.2 0 0 0 [] p) s

/-- Write bytes to package memory. -/
def State.issueWrite (s : State) (a : Nat) (d : List Byte) (p : Purpose) : State :=
  (pieces a d.length).foldl (fun s q => s.issue .wr q.1 q.2 0 0 0 (sliceAt d (q.1 - a) q.2) p) s

/-- The fabric node of the host-interface die that a tenancy is reached through (R113, R503). -/
def State.hostNode (s : State) (t : Nat) : Nat := 0x28 + (s.tenEntry t).hostFn / 4096 % 2

/-- Send a tenancy's message-signalled interrupt (R142, R172, R448). A vector at or above MSI_VECTORS sends none. -/
def State.interrupt (s : State) (t vec : Nat) : State :=
  let e := s.tenEntry t
  if e.enabled && decide (vec < e.msiVectors) then
    s.issue .msg 0 0 0 0x0011 (s.hostNode t) (leBytes 2 (e.hostFn % 8192) ++ leBytes 2 vec) (.interrupt t vec)
  else s

/-! ### Address windows (R120) -/

/-- Window i of tenancy t as its live registers hold it. -/
def State.window (s : State) (t i : Nat) : Window :=
  { read := s.flag (F.TEN_WIN_BASE_ENABLE t i) && s.flag (F.TEN_WIN_BASE_READ t i),
    write := s.flag (F.TEN_WIN_BASE_ENABLE t i) && s.flag (F.TEN_WIN_BASE_WRITE t i),
    base := s.fld (F.TEN_WIN_BASE_BASE t i), limit := s.fld (F.TEN_WIN_LIMIT_LIMIT t i) }

/-- The windows of tenancy t in force now. -/
def State.windows (s : State) (t : Nat) : List Window := (List.range 64).map (s.window t)

/-- Does one enabled window with the needed permissions hold the whole range? An empty range is no access. -/
def inWindows (ws : List Window) (rd wr : Bool) (a n : Nat) : Bool :=
  n == 0 || ws.any (fun w => (!rd || w.read) && (!wr || w.write) && (w.read || w.write) &&
    decide (w.base * 4096 ≤ a) && decide (a + n ≤ w.limit * 4096 + 4096))

/-- A failed window check: WINDOW is raised and TEN_STATUS.WINDOW_ERROR set (R121). -/
def State.windowFail (s : State) (t a access : Nat) (c : Charge) : State :=
  (s.setFld (F.TEN_STATUS_WINDOW_ERROR t) 1).raise 0x03 { FaultInfo.of c with addr := a, access := access }

/-! ### Tasks in flight (R116) -/

/-- DEPTH of a flow's deadline entry, 0 for a bulk flow. -/
def FlowEntry.heldSlots (f : FlowEntry) : Nat := if f.deadline then f.depth else 0

/-- Slots of a tenancy held for its deadline flows. -/
def State.deadlineHeld (s : State) (t : Nat) : Nat := sumBy (fun f => if f.ten == t then f.heldSlots else 0) s.forme.flows

/-- Tasks of a tenancy in flight. -/
def State.tasksOfTen (s : State) (t : Nat) : Nat := (s.tasks.filter (fun k => k.ten == t && k.isTask)).length

/-- Tasks of a tenancy's bulk flows in flight, with the tasks that name no live flow. -/
def State.bulkTasks (s : State) (t : Nat) : Nat :=
  (s.tasks.filter (fun k => k.ten == t && k.isTask && (match s.flow? k.flow with | some f => !f.deadline | none => true))).length

/-- Task slots that a tenancy has in all: MAX_TASKS of its own, 4,096 of the instance (R116). -/
def State.tenSlots (s : State) (t : Nat) : Nat :=
  min ((s.tenEntry t).maxTasks - s.tasksOfTen t) (4096 - (s.tasks.filter Task.isTask).length)

/-- Task slots that a flow may still take: at most DEPTH of its tasks are in flight (R97), a bulk flow shares what the
deadline flows of its tenancy leave, and no flow passes the limits of its tenancy and of the instance (R116). -/
def State.freeSlots (s : State) (f : FlowEntry) : Nat :=
  let own := min (f.depth - (s.tasksOf f.flow).length) (s.tenSlots f.ten)
  if f.deadline then own else min own ((s.tenEntry f.ten).maxTasks - s.deadlineHeld f.ten - s.bulkTasks f.ten)

end Sys2Proof.Machine
end

