-- ==== Sys2Proof/Machine/Operands.lean ====
section
/-! DEFINITION. Control-space accesses: the clocks of the domains (R472, R474) and the domain of each register, which
accesses fail and with which status (R6, R34, R505, R513 to R516), which wait (R474, R516, R517), and the one operation through
which every host write acts. -/

namespace Sys2Proof.Machine

/-- The regions of R514 that matter to a view. -/
inductive RegRegion where
  | global | management | page (t : Nat) | mirror | test
  deriving DecidableEq, Repr

/-- The region of an offset (R514). -/
def regionOf (off : Nat) : RegRegion :=
  if off < 0x100000 then .global
  else if off < 0x1000000 then .management
  else if off < 0x2000000 then .page ((off - 0x1000000) / 0x100000)
  else if off < 0x3000000 then .mirror
  else .test

/-- Does the view refuse the access (R514)? -/
def viewRefuses (view : Nat) : RegRegion → Bool
  | .global => false
  | .management => view != 16
  | .page t => view != 16 && view != t
  | .mirror => false
  | .test => view != 16

/-- Does the state of the instance refuse the access (R34, R516)? -/
def State.stateRefuses (s : State) (view off : Nat) (write : Bool) : Bool :=
  let region := regionOf off
  let early := match region with
    | .global => write
    | .mirror => write
    | _ => true
  if s.ready then false
  else if s.testMode && region == .test && view == 16 then false
  else if s.life == .halted && view == 16 && !write && decide (0xB00000 ≤ off ∧ off < 0xC00000) then false
  else early

/-- The STATUS of a failing access, in the order of R505; none for one that succeeds. -/
def State.accessFails (s : State) (r : CsReq) (off len : Nat) (write : Bool) : Option Nat :=
  if len ≠ 8 ∨ off % 8 ≠ 0 ∨ 16 < r.view ∨ (r.node ≠ 0x28 ∧ r.node ≠ 0x29) then some 2
  else if (regAt off).isNone then some 1
  else if viewRefuses r.view (regionOf off) || s.stateRefuses r.view off write then some 2
  else none

/-- The scope to which a logged access is charged (R438). -/
def reqCharge (r : CsReq) : Charge := if r.view < 16 then Charge.ten r.view else .instance_

/-- Log REG_ACCESS for an access (R6). -/
def State.logAccess (s : State) (r : CsReq) (off : Nat) : State :=
  s.raise 0x01 { FaultInfo.of (reqCharge r) with addr := off, access := 6 }

/-- Is QCLK held in reset (R516)? -/
def State.qclkHeld (s : State) : Bool := s.life == .warmLow

/-- Is there no register space to answer, with the always-on reset low or the instance unpowered? -/
def State.dead (s : State) : Bool := s.life == .cold || s.life == .noSupply

/-! ### Domains and their clocks (R472, R474) -/

/-- Clock domain of a station (R36). -/
def domainOf (st : Nat) : Domain := if st = 3 then .eclk else if 4 ≤ st ∧ st ≤ 8 then .pclk else .fclk

/-- The domain whose reset clears a register: that of its station's slot (R477), QCLK for the rest of register space. -/
def regDomain (off : Nat) : Domain :=
  if 0x410000 ≤ off ∧ off < 0x4B0000 then domainOf (off / 0x10000 % 16)
  else if 0x800000 ≤ off ∧ off < 0x900000 then .pclk
  else if 0x900000 ≤ off ∧ off < 0xA00000 then .fclk
  else if 0xC00000 ≤ off ∧ off < 0xD00000 then .tclk
  else .qclk

/-- Is a domain one that can be stopped? -/
def canStop : Domain → Bool
  | .pclk | .eclk | .fclk => true
  | .qclk | .tclk | .gclk => false

/-- Does a domain's clock run? -/
def State.runs (s : State) (d : Domain) : Bool := s.clk.running.getD d.bit false

/-- Is a domain's wake request high? -/
def State.wanted (s : State) (d : Domain) : Bool := s.clk.wakeReq.getD d.bit false

/-- Change what is known of one domain's clock. -/
def State.setClk (s : State) (d : Domain) (req run : Bool) (asked : Option Nat) : State :=
  { s with clk := {
      wakeReq := s.clk.wakeReq.set d.bit req, running := s.clk.running.set d.bit run, askedAt := s.clk.askedAt.set d.bit asked } }

/-- A request into a stopped domain raises its wake request; the first request starts the wait. -/
def State.wake (s : State) (d : Domain) : State :=
  if s.runs d ∨ s.wanted d then s else s.setClk d true false (some s.now)

/-! ### Waiting accesses (R474, R516, R517) -/

/-- Is the domain of a register stopped? -/
def State.slotStopped (s : State) (off : Nat) : Bool := canStop (regDomain off) && !s.runs (regDomain off)

/-- Does an access wait for the domain of its register: one that no check stops, in a stopped domain (R474)? -/
def State.waitsFor (s : State) (r : CsReq) (off len : Nat) (write : Bool) : Bool :=
  (s.accessFails r off len write).isNone && s.slotStopped off

/-- Does every access wait: QCLK is held in reset, or an instance that serves holds one before it (R516, R517)? -/
def State.accessWaits (s : State) : Bool := s.qclkHeld || (s.ready && !s.heldCs.isEmpty)

/-- An access waits, behind those that wait. -/
def State.holdAccess (s : State) (h : HeldAccess) : State := { s with heldCs := s.heldCs ++ [h] }

/-- A host write whose turn it is: an error response when an access check fails (R505), else the write's own effect. -/
def State.csWriteNow (s : State) (r : CsReq) (off len : Nat) (op : State → State) : State :=
  match s.accessFails r off len true with
  | some code => { s with resp := ⟨code, 0⟩ }.logAccess r off
  | none =>
    let s := { s with resp := ⟨0, 0⟩ }
    if regionOf off = .global ∧ r.view < 16 then
      if off = Row.GLB_RESET.base then s.logAccess r off else s
    else op s

/-- One host write: no answer while the instance is dead; held while it must wait, and the stopped domain of its register is
woken; else it is performed. `op`: its effect. -/
def State.csWrite (s : State) (r : CsReq) (off len : Nat) (v : Word) (f : Fetch) (op : State → State) : State :=
  if s.dead then s
  else if s.accessWaits then s.holdAccess ⟨r, off, len, true, v, f⟩
  else if s.waitsFor r off len true then (s.holdAccess ⟨r, off, len, true, v, f⟩).wake (regDomain off)
  else s.csWriteNow r off len op

/-- A page register's offset. -/
def pageOff (t : Nat) (r : RegRow) : Nat := r.base + 0x100000 * t

end Sys2Proof.Machine
end

