-- ==== Sys2Proof/Machine/F32.lean ====
section
/-! DEFINITION. Binary32 arithmetic on bit patterns: each operator rounds once, to nearest even; subnormals are kept and
overflow gives infinity (R304). Also the correctly rounded ln, sqrt and cospi of R330, and the other floating formats
read as fp32. -/

namespace Sys2Proof.Machine

/-- Nearest integer to num / den, ties to even. -/
def divRne (num den : Nat) : Nat :=
  let q := num / den
  let r := num % den
  if 2 * r > den ∨ (2 * r = den ∧ q % 2 = 1) then q + 1 else q

/-- The binary32 pattern nearest ±num / den. -/
def roundQ (neg : Bool) (num den : Nat) : Nat :=
  let sign := if neg then 2 ^ 31 else 0
  if num = 0 then sign
  else
    let e0 : Int := (num.log2 : Int) - (den.log2 : Int)
    -- floor of log2 (num / den)
    let ge (e : Int) : Bool := if 0 ≤ e then decide (den * 2 ^ e.toNat ≤ num) else decide (den ≤ num * 2 ^ (-e).toNat)
    let e := if ge e0 then e0 else e0 - 1
    let q := max (e - 23) (-149)
    let n := if 0 ≤ q then divRne num (den * 2 ^ q.toNat) else divRne (num * 2 ^ (-q).toNat) den
    let p := (q + 149).toNat * 2 ^ 23 + n
    sign + min p 0x7F800000

/-- Sign bit of a pattern. -/
def f32Sign (a : Nat) : Bool := decide (2 ^ 31 ≤ a % 2 ^ 32)

/-- Is a pattern infinite? -/
def f32Inf (a : Nat) : Bool := a % 2 ^ 31 == 0x7F800000

/-- Is a pattern a NaN? -/
def f32Nan (a : Nat) : Bool := decide (0x7F800000 < a % 2 ^ 31)

/-- Magnitude of a finite pattern in units of 2^-149. -/
def f32Mag (a : Nat) : Nat :=
  let e := a / 2 ^ 23 % 256
  let m := a % 2 ^ 23
  if e = 0 then m else (m + 2 ^ 23) * 2 ^ (e - 1)

/-- The result of an invalid operation: a free value, never a NaN (R304). -/
def f32Invalid (op a b : Nat) : Nat :=
  let v := Config.f32Invalid op a b % 2 ^ 32
  if f32Nan v then v / 2 ^ 23 * 2 ^ 23 else v

/-- Change the sign. -/
def f32Negate (a : Nat) : Nat := if f32Sign a then a - 2 ^ 31 else a + 2 ^ 31

/-- Sum. -/
def f32Add (a b : Nat) : Nat :=
  if f32Nan a ∨ f32Nan b then f32Invalid 1 a b
  else if f32Inf a then (if f32Inf b ∧ f32Sign a ≠ f32Sign b then f32Invalid 1 a b else a)
  else if f32Inf b then b
  else
    let v (x : Nat) : Int := if f32Sign x then -(f32Mag x : Int) else (f32Mag x : Int)
    let t := v a + v b
    if t = 0 then (if f32Sign a ∧ f32Sign b then 2 ^ 31 else 0)
    else roundQ (decide (t < 0)) t.natAbs (2 ^ 149)

/-- Difference. -/
def f32Sub (a b : Nat) : Nat := f32Add a (if f32Nan b then b else f32Negate b)

/-- Product. -/
def f32Mul (a b : Nat) : Nat :=
  let neg := f32Sign a != f32Sign b
  let sign := if neg then 2 ^ 31 else 0
  if f32Nan a ∨ f32Nan b then f32Invalid 0 a b
  else if f32Inf a ∨ f32Inf b then
    if (f32Mag a = 0 ∧ !f32Inf a) ∨ (f32Mag b = 0 ∧ !f32Inf b) then f32Invalid 0 a b else sign + 0x7F800000
  else roundQ neg (f32Mag a * f32Mag b) (2 ^ 298)

/-- Quotient by a finite non-zero divisor. -/
def f32Div (a b : Nat) : Nat :=
  let neg := f32Sign a != f32Sign b
  if f32Nan a ∨ f32Nan b then f32Invalid 2 a b
  else if f32Inf a then (if neg then 2 ^ 31 else 0) + 0x7F800000
  else if f32Mag b = 0 then (if f32Mag a = 0 then f32Invalid 2 a b else (if neg then 2 ^ 31 else 0) + 0x7F800000)
  else roundQ neg (f32Mag a) (f32Mag b)

/-- The pattern of an integer. -/
def f32OfInt (n : Int) : Nat := roundQ (decide (n < 0)) n.natAbs 1

/-- The pattern of a natural number. -/
def f32OfNat (n : Nat) : Nat := roundQ false n 1

/-- a ≤ b for patterns that are no NaN. -/
def f32LeB (a b : Nat) : Bool :=
  let key (x : Nat) : Int := if f32Sign x then -((x % 2 ^ 31 : Nat) : Int) else ((x % 2 ^ 31 : Nat) : Int)
  decide (key a ≤ key b)

/-- Clamp to [lo, hi]. -/
def f32Clamp (x lo hi : Nat) : Nat := if f32LeB x lo then lo else if f32LeB hi x then hi else x

/-- 1.0 and 0.5 and −0.5. -/
def f32One : Nat := 0x3F800000

/-- 0.5. -/
def f32Half : Nat := 0x3F000000

/-- −0.5. -/
def f32NegHalf : Nat := 0xBF000000

/-! ### Elementary functions (R330) -/

/-- Fraction bits of the fixed-point work. -/
def fxBits : Nat := 200

/-- 2 × atanh (num / den) in fixed point: the series of odd powers. -/
def atanhGo : Nat → Nat → Nat → Nat → Nat → Nat
  | 0, _, _, _, acc => acc
  | n + 1, i, z2, pw, acc => atanhGo n (i + 2) z2 (pw * z2 / 2 ^ fxBits) (acc + pw / i)

/-- 2 × atanh (num / den). -/
def atanh2 (num den : Nat) : Nat :=
  let z := num * 2 ^ fxBits / den
  2 * atanhGo 70 1 (z * z / 2 ^ fxBits) z 0

/-- ln 2 in fixed point. -/
def fxLn2 : Nat := atanh2 1 3

/-- −ln (n / 2^24) for n from 1 to 2^24, in fixed point. -/
def fxNegLn (n : Nat) : Nat :=
  let k := n.log2
  (24 - k) * fxLn2 - atanh2 (n - 2 ^ k) (n + 2 ^ k)

/-- The fp32 nearest ln (n / 2^24). -/
def f32LnFrac (n : Nat) : Nat := if n = 2 ^ 24 then 0 else roundQ true (fxNegLn n) (2 ^ fxBits)

/-- The fp32 nearest the square root of a pattern that is not negative; −0 gives −0. -/
def f32Sqrt (a : Nat) : Nat :=
  let m := f32Mag a
  if m = 0 ∨ f32Inf a then a
  else
    let v := m * 2 ^ (149 + 128)
    let s := Nat.sqrt v
    if s * s = v then roundQ false s (2 ^ (149 + 64)) else roundQ false (2 * s + 1) (2 ^ (149 + 65))

/-- atan (1 / n) in fixed point. -/
def atanGo : Nat → Nat → Nat → Nat → Int → Int → Int
  | 0, _, _, _, _, acc => acc
  | k + 1, i, n2, pw, sgn, acc => atanGo k (i + 2) n2 (pw / n2) (-sgn) (acc + sgn * ((pw / i : Nat) : Int))

/-- atan (1 / n). -/
def fxAtan (n : Nat) : Int := atanGo 120 1 (n * n) (2 ^ fxBits / n) 1 0

/-- π in fixed point, by Machin's formula. -/
def fxPi : Nat := (16 * fxAtan 5 - 4 * fxAtan 239).toNat

/-- cos of a fixed-point angle in [0, π / 2]. -/
def cosGo : Nat → Nat → Nat → Nat → Int → Int → Int
  | 0, _, _, _, _, acc => acc
  | k + 1, i, x2, term, sgn, acc =>
    cosGo k (i + 2) x2 (term * x2 / 2 ^ fxBits / ((i + 1) * (i + 2))) (-sgn) (acc + sgn * (term : Int))

/-- The fp32 nearest cos (π × n / 2^23) for n below 2^24. -/
def f32CosPi (n : Nat) : Nat :=
  let h := 2 ^ 23
  let t := if h < n then 2 * h - n else n
  let neg := decide (h < 2 * t)
  let t := if neg then h - t else t
  if 2 * t = h then 0
  else if t = 0 then (if neg then 0xBF800000 else f32One)
  else
    let x := fxPi * t / h
    roundQ neg (cosGo 60 0 (x * x / 2 ^ fxBits) (2 ^ fxBits) 1 0).toNat (2 ^ fxBits)

/-! ### Other floating formats -/

/-- The fp32 pattern of a small float: eb exponent bits, mb mantissa bits, an IEEE bias, infinities as given. -/
def f32OfSmall (eb mb : Nat) (ieee : Bool) (v : Nat) : Nat :=
  let s := v / 2 ^ (eb + mb) % 2
  let e := v / 2 ^ mb % 2 ^ eb
  let m := v % 2 ^ mb
  let bias := 2 ^ (eb - 1) - 1
  if ieee ∧ e = 2 ^ eb - 1 then s * 2 ^ 31 + 0x7F800000 + m * 2 ^ (23 - mb)
  else
    let num := if e = 0 then m else m + 2 ^ mb
    let ex := (if e = 0 then 1 else e) + 149
    -- value = num * 2 ^ (ex - 149 - bias - mb)
    roundQ (s == 1) (num * 2 ^ ex) (2 ^ (149 + bias + mb))

end Sys2Proof.Machine
end

