-- ==== Sys2Proof/Machine/Riffle.lean ====
section
/-! DEFINITION. Riffle: the 128-bit draw, streams and shares, the stateful generator, and what a share becomes (R323 to
R333). -/

namespace Sys2Proof.Machine

/-- 64-bit value of a number. -/
def lo64 (n : Nat) : Nat := n % 2 ^ 64

/-- Rotate a 64-bit value left. -/
def rotl64 (x r : Nat) : Nat := lo64 (x * 2 ^ r) + x / 2 ^ (64 - r)

/-- Rotation of each round. -/
def rflRot : List Nat := [13, 29, 47, 7, 31, 53, 19, 41, 3, 59]

/-- One round of Riffle-128 (R326). -/
def rflRound (st : Nat × Nat × Nat × Nat) (rot : Nat) : Nat × Nat × Nat × Nat :=
  let (x0, x1, k0, k1) := st
  let p := 0xE3A59C1D4B2786F5 * x1
  let t := (p / 2 ^ 64) ^^^ x0 ^^^ k0
  (t, rotl64 (lo64 p) rot ^^^ k1, lo64 (k0 + 0x9E3779B97F4A7C15), lo64 (k1 + 0x6A09E667F3BCC909))

/-- Riffle-128 (R326): (x0, x1). -/
def riffle128 (seed flow cLo cHi : Nat) : Nat × Nat :=
  let k1 := rotl64 seed 32 ^^^ lo64 (flow * 0x6A09E667F3BCC909)
  let r := rflRot.foldl rflRound (cLo, cHi, seed, k1)
  (r.1, r.2.1)

/-- A draw as one 128-bit number. -/
def draw128 (seed flow cLo cHi : Nat) : Nat :=
  let r := riffle128 seed flow cLo cHi
  r.1 + 2 ^ 64 * r.2

/-- What a flow draws with: its entry's seed, the captured epoch, its partitions and its table. -/
structure RflSource where
  seed       : Nat
  flow       : Nat
  epoch      : Nat
  stateful   : Bool
  table      : Option (List (BitVec 32))
  partitions : Nat
  deriving DecidableEq, Repr

/-- The indexed draw of a stream at a block of a sample (R327). -/
def RflSource.draw (r : RflSource) (stream s b : Nat) : Nat :=
  draw128 r.seed r.flow (b ||| (stream * 2 ^ 44) ||| (r.flow * 2 ^ 48)) (s ||| (r.epoch * 2 ^ 48))

/-- The share of element j of a block (R328). -/
def shareOf (d j : Nat) : Nat :=
  let r := 16 * (j % 8)
  d / 2 ^ r + d % 2 ^ r * 2 ^ (128 - r)

/-- The indexed share of the element at offset e of a sample. -/
def RflSource.share (r : RflSource) (stream s e : Nat) : Nat := shareOf (r.draw stream s (e / 8)) (e % 8)

/-- Parameter word i of a sample (R324, R328). -/
def RflSource.word (r : RflSource) (s i : Nat) : Nat := r.draw 0 s (i / 4) / 2 ^ (32 * (i % 4)) % 2 ^ 32

/-! ### The stateful generator (R331, R332) -/

/-- The zero rule of R331. -/
def genSeed (g : Nat × Nat) : Nat × Nat := if g = (0, 0) then (1, 0) else g

/-- One step: output and next state. -/
def genStep (g : Nat × Nat) : Nat × (Nat × Nat) :=
  let x := g.1
  let y := g.2
  let x := x ^^^ lo64 (x * 2 ^ 23)
  let s1 := x ^^^ y ^^^ (x / 2 ^ 17) ^^^ (y / 2 ^ 26)
  (lo64 (s1 + y), (y, s1))

/-- Advance by n steps. -/
def genAdvance : Nat → Nat × Nat → Nat × Nat
  | 0, g => g
  | n + 1, g => genAdvance n (genStep g).2

/-- The state of a partition that serves k = 0 (R332). -/
def RflSource.partition0 (r : RflSource) (p : Nat) : Nat × Nat :=
  genSeed (riffle128 r.seed r.flow (15 * 2 ^ 44 ||| (r.flow * 2 ^ 48)) (p ||| (r.epoch * 2 ^ 48)))

/-- The sample generator at a partition state that serves the sample's k, and the state that serves the next (R332). -/
def sampleGen (x : Nat × Nat) : (Nat × Nat) × (Nat × Nat) :=
  let a := genStep x
  let b := genStep a.2
  (genSeed (a.1, b.1), b.2)

/-- One stateful draw: D, and the generator after it (R332). -/
def genDraw (g : Nat × Nat) : Nat × (Nat × Nat) :=
  let a := genStep g
  let b := genStep a.2
  (a.1 + 2 ^ 64 * b.1, b.2)

/-! ### What a share becomes (R329, R330) -/

/-- Uniform fp32. -/
def uniformF32 (a : Nat) : Nat := f32Mul (f32OfNat (a % 2 ^ 24)) 0x33800000

/-- Bernoulli of probability p in 1/65,536. -/
def bernoulli (a p : Nat) : Bool := decide (a % 2 ^ 16 < p)

/-- Normal variate by transform. -/
def normalTransform (a : Nat) : Nat :=
  let l := f32LnFrac (a % 2 ^ 24 + 1)
  let r := f32Sqrt (f32Mul 0xC0000000 l)
  f32Mul r (f32CosPi (a / 2 ^ 32 % 2 ^ 24))

/-- Normal variate by table. -/
def normalTable (t : List (BitVec 32)) (a : Nat) : Nat :=
  let i := a / 2 ^ 12 % 2 ^ 12
  let lo := (t.getD i 0).toNat
  let hi := (t.getD (min (i + 1) 4095) 0).toNat
  f32Add lo (f32Mul (f32Sub hi lo) (f32Mul (f32OfNat (a % 2 ^ 12)) 0x39800000))

/-- The normal variate of a flow's entry. -/
def RflSource.normal (r : RflSource) (a : Nat) : Nat :=
  match r.table with
  | some t => normalTable t a
  | none => normalTransform a

end Sys2Proof.Machine
end

