-- ==== Sys2Proof/Machine/TrimCalc.lean ====
section
/-! DEFINITION. What Trim computes for one sample: crop, target grid, resize, colour, augmentation and output formats
(R294 to R313). -/

namespace Sys2Proof.Machine

/-! ### Crop (R296, R297) -/

/-- A rectangle: x0, y0, width, height. -/
structure Rect where
  x : Nat
  y : Nat
  w : Nat
  h : Nat
  deriving DecidableEq, Repr

/-- dims of R296. -/
def cropDims (t a : Nat) : Nat × Nat := (Nat.sqrt (t * a / 65536), Nat.sqrt (t * 65536 / a))

/-- One RANDOM attempt. -/
def cropTry (ts : TrimSettings) (word : Nat → Nat) (w h i : Nat) : Option (Nat × Nat) :=
  let s := ts.cropA + (ts.cropB - ts.cropA) * (word (2 * i) / 65536) / 65536
  let a := ts.cropC + (ts.cropD - ts.cropC) * (word (2 * i + 1) / 65536) / 65536
  let (cw, ch) := cropDims (w * h * s / 65536) a
  if 1 ≤ cw ∧ cw ≤ w ∧ 1 ≤ ch ∧ ch ≤ h then some (cw, ch) else none

/-- The crop window of a W × H picture, and whether RANDOM fell back (R296). -/
def cropWindow (ts : TrimSettings) (word : Nat → Nat) (w h : Nat) : Rect × Bool :=
  match ts.cropMode with
  | 1 =>
    let x := min ts.cropA (w - 1)
    let y := min ts.cropB (h - 1)
    (⟨x, y, min ts.cropC (w - x), min ts.cropD (h - y)⟩, false)
  | 2 =>
    let a := if ts.cropB ≠ 0 then ts.cropB else w * 65536 / h
    let (cw, ch) := cropDims (w * h * ts.cropA / 65536) a
    let cw := max 1 (min cw w)
    let ch := max 1 (min ch h)
    (⟨(w - cw) / 2, (h - ch) / 2, cw, ch⟩, false)
  | 3 =>
    match (List.range 8).findSome? (cropTry ts word w h) with
    | some (cw, ch) => (⟨word 16 * (w - cw + 1) / 2 ^ 32, word 17 * (h - ch + 1) / 2 ^ 32, cw, ch⟩, false)
    | none => (⟨0, 0, w, h⟩, true)
  | _ => (⟨0, 0, w, h⟩, false)

/-- The rectangle of R297 that cut decode reconstructs: (x0, x1, y0, y1). -/
def cutRect (c : Rect) (w h : Nat) : Nat × Nat × Nat × Nat :=
  (c.x - 8, min w (c.x + c.w + 8), c.y - 8, min h (c.y + c.h + 8))

/-! ### Gates and the target grid (R295, R298) -/

/-- What the parameter words decide for a sample. -/
structure Geometry where
  rot   : Nat
  flipH : Bool
  flipV : Bool
  tw    : Nat
  th    : Nat
  deriving DecidableEq, Repr

/-- A gate passes. -/
def gate (on : Bool) (v p : Nat) : Bool := on && decide (v < p)

/-- Rotation and flips of a sample (R298). -/
def geometry (ts : TrimSettings) (word : Nat → Nat) (augOff : Bool) (outW outH : Nat) : Geometry :=
  let on := !augOff
  let angles := [90, 180, 270].filter (fun a => bit ts.rotSet (a / 90 - 1))
  let rot := if gate (on && ts.rotSet != 0) (word 19 % 65536) (nth ts.probs 2) then
    angles.getD (word 19 / 65536 * angles.length / 65536) 0 else 0
  let turn := rot = 90 ∨ rot = 270
  { rot := rot, flipH := gate (on && bit ts.flags 0) (word 18 % 65536) (nth ts.probs 0),
    flipV := gate (on && bit ts.flags 1) (word 18 / 65536) (nth ts.probs 1),
    tw := if turn then outH else outW, th := if turn then outW else outH }
where
  /-- Element of a list, 0 outside it. -/
  nth (l : List Nat) (i : Nat) : Nat := l.getD i 0

/-- Target position of an output position (R298). -/
def Geometry.target (g : Geometry) (x y : Nat) : Nat × Nat :=
  let (u, v) := if g.rot = 90 then (g.tw - 1 - y, x) else if g.rot = 180 then (g.tw - 1 - x, g.th - 1 - y)
    else if g.rot = 270 then (y, g.th - 1 - x) else (x, y)
  (if g.flipH then g.tw - 1 - u else u, if g.flipV then g.th - 1 - v else v)

/-! ### Resize (R299 to R301) -/

/-- The index that PAD_MODE reads for index i of a plane of n columns or rows; none for CONSTANT outside it. -/
def padIndex (mode n : Nat) (i : Int) : Option Nat :=
  if 0 ≤ i ∧ i < (n : Int) then some i.toNat
  else if mode = 2 then none
  else
    let i := if mode = 1 then (if i < 0 then -i else 2 * (n : Int) - 2 - i) else i
    some (max 0 (min i ((n : Int) - 1))).toNat

/-- Position of a target index on an axis in a plane, Q16 (R300). -/
def axisPos (c0 t rho sub : Nat) (cosited : Bool) : Int :=
  let p : Int := (c0 : Int) * 65536 + (((2 * t + 1) * rho / 2 : Nat) : Int) - 32768
  if sub = 1 then p else if cosited then p / 2 else (p - 32768) / 2

/-- Taps of a position: (index, coefficient) (R300). -/
def tapsAt (ts : TrimSettings) (ratio : Nat) (p : Int) : List (Int × Int) :=
  let ip := p / 65536
  let ph := (p / 1024 % 64).toNat
  if ts.filter = 0 then [((p + 32768) / 65536, 16384)]
  else if ts.filter = 1 then [(ip, (64 - ph : Nat) * 256), (ip + 1, ph * 256)]
  else
    let b := (ts.banks.find? (fun b => decide (ratio ≤ b.maxRatio))).orElse (fun _ => ts.banks.getLast?)
    let co := (b.map (·.coefs)).getD []
    (List.range ts.taps).map (fun (k : Nat) =>
      (ip - ((ts.taps / 2 : Nat) : Int) + 1 + (k : Int), co.getD (ph * ts.taps + k) 0))

/-- A plane with random access: width, height, samples as working samples. -/
structure WPlane where
  w    : Nat
  h    : Nat
  data : Array Nat
  deriving DecidableEq, Repr

/-- tap(i, j) (R301). -/
def WPlane.tap (p : WPlane) (mode pad : Nat) (i j : Int) : Nat :=
  match padIndex mode p.w i, padIndex mode p.h j with
  | some x, some y => p.data.getD (y * p.w + x) 0
  | _, _ => pad

/-- (sum + 8192) >> 14, clamped to 16 bits. -/
def round14 (x : Int) : Nat := (max 0 (min ((x + 8192) / 16384) 65535)).toNat

/-- The resized value of a plane at a target position (R300). -/
def resizeAt (ts : TrimSettings) (p : WPlane) (pad : Nat) (c : Rect) (g : Geometry) (subX subY u v : Nat) : Nat :=
  let rx := c.w * 65536 / g.tw
  let ry := c.h * 65536 / g.th
  let hx := tapsAt ts rx (axisPos c.x u rx subX (bit ts.siting 0))
  let vy := tapsAt ts ry (axisPos c.y v ry subY (bit ts.siting 1))
  let row (j : Int) : Nat := round14 ((hx.map (fun q => q.2 * (p.tap ts.padMode pad q.1 j : Int))).sum)
  round14 ((vy.map (fun q => q.2 * (row q.1 : Int))).sum)

/-! ### Colour (R302, R303) -/

/-- Matrix constants kRCr, kGCb, kGCr, kBCb as binary32 patterns. -/
def matrixK (m : Nat) : Nat × Nat × Nat × Nat :=
  let q (n : Nat) := roundQ false n 10000000
  if m = 1 then (q 14020000, q 3441360, q 7141360, q 17720000)
  else if m = 2 then (q 15748000, q 1873243, q 4681243, q 18556000)
  else (q 14746000, q 1645531, q 5713531, q 18814000)

/-- Grey of R303. -/
def grey (r g b : Nat) : Nat :=
  let q (n : Nat) := roundQ false n 1000
  f32Add (f32Add (f32Mul (q 299) r) (f32Mul (q 587) g)) (f32Mul (q 114) b)

/-- What a source picture is to Trim. -/
structure SourceKind where
  depth : Nat
  ycc   : Bool
  mono  : Bool
  alpha : Bool
  deriving DecidableEq, Repr

/-- fp32 channel values from working samples: three colour channels, alpha, and y of a YCbCr source (R302). Beside a matrix, y is
as the first table gives it: R302 clamps it under MATRIX 0 alone. -/
def colourOf (ts : TrimSettings) (k : SourceKind) (w : List Nat) : List Nat × Nat × Nat :=
  let sd := f32OfNat ((2 ^ k.depth - 1) * 2 ^ (16 - k.depth))
  let w0 := w.getD 0 0
  let w1 := w.getD 1 32768
  let w2 := w.getD 2 32768
  let a := if k.alpha then f32Div (f32OfNat (w.getD 3 0)) sd else f32One
  if k.ycc then
    let y := if ts.range = 0 then f32Div (f32OfInt ((w0 : Int) - 4096)) (f32OfNat 56064) else f32Div (f32OfNat w0) sd
    let ch (v : Nat) := f32Div (f32OfInt ((v : Int) - 32768)) (if ts.range = 0 then f32OfNat 57344 else sd)
    let cb := if k.mono then 0 else ch w1
    let cr := if k.mono then 0 else ch w2
    if ts.matrix = 0 then
      ([f32Clamp y 0 f32One, f32Clamp cb f32NegHalf f32Half, f32Clamp cr f32NegHalf f32Half], a, f32Clamp y 0 f32One)
    else
      let (kr, kgb, kgr, kb) := matrixK ts.matrix
      let cl (x : Nat) := f32Clamp x 0 f32One
      ([cl (f32Add y (f32Mul kr cr)), cl (f32Sub (f32Sub y (f32Mul kgb cb)) (f32Mul kgr cr)),
        cl (f32Add y (f32Mul kb cb))], a, y)
  else
    let v (x : Nat) := f32Clamp (f32Div (f32OfNat x) sd) 0 f32One
    (if k.mono then [v w0, v w0, v w0] else [v w0, v w1, v w2], a, 0)

/-- The jitter factors (R305), or none. -/
def jitterOf (ts : TrimSettings) (word : Nat → Nat) (augOff : Bool) : Option (Nat × Nat × Nat) :=
  let f (lo hi w : Nat) : Nat :=
    let l := (ts.jitter.getD lo 0).toNat
    let h := (ts.jitter.getD hi 0).toNat
    f32Add l (f32Mul (f32Sub h l) (f32Div (f32OfNat (word w / 256)) (f32OfNat 16777216)))
  if gate (!augOff && bit ts.flags 2) (word 23 % 65536) (ts.probs.getD 3 0) then
    some (f 0 1 20, f 2 3 21, f 4 5 22)
  else none

/-- Colour jitter on the colour channels that channel mapping has left, R, G and B or the one of OUT_CH 1 (R290, R305): of one channel, g
is the grey value of it three times (DESIGN CHOICE). -/
def applyJitter (j : Option (Nat × Nat × Nat)) (c : List Nat) : List Nat :=
  match j with
  | none => c
  | some (fb, fc, fs) =>
    let cl (x : Nat) := f32Clamp x 0 f32One
    let c1 := c.map (fun x => cl (f32Mul x fb))
    let c2 := c1.map (fun x => cl (f32Add (f32Mul (f32Sub x f32Half) fc) f32Half))
    let g := grey (c2.getD 0 0) (c2.getD 1 (c2.getD 0 0)) (c2.getD 2 (c2.getD 0 0))
    c2.map (fun x => cl (f32Add (f32Mul (f32Sub x g) fs) g))

/-- Output channels of one position, OUT_CH of them (R303). OUT_CH 1 takes y of a YCbCr source, else the grey value. -/
def outChannels (ts : TrimSettings) (k : SourceKind) (y : Nat) (c : List Nat) (a : Nat) : List Nat :=
  if ts.outCh = 1 then [if k.ycc then y else grey (c.getD 0 0) (c.getD 1 0) (c.getD 2 0)]
  else if ts.outCh = 3 then c.take 3
  else c.take 3 ++ [a]

/-- The erase rectangle (R307). -/
def eraseRect (ts : TrimSettings) (word : Nat → Nat) (augOff : Bool) (outW outH : Nat) : Option Rect :=
  if gate (!augOff && bit ts.flags 4) (word 24 / 65536) (ts.probs.getD 5 0) then
    let s := ts.erase.getD 0 0 + (ts.erase.getD 1 0 - ts.erase.getD 0 0) * (word 25 / 65536) / 65536
    let a := ts.erase.getD 2 0 + (ts.erase.getD 3 0 - ts.erase.getD 2 0) * (word 26 / 65536) / 65536
    let (ew, eh) := cropDims (outW * outH * s / 65536) a
    if 1 ≤ ew ∧ ew ≤ outW ∧ 1 ≤ eh ∧ eh ≤ outH then
      some ⟨word 27 * (outW - ew + 1) / 2 ^ 32, word 28 * (outH - eh + 1) / 2 ^ 32, ew, eh⟩
    else none
  else none

/-! ### Output formats (R308 to R310) -/

/-- Result of quantise: the count n and eq (R308). `rb`: the rounding bits, or none for nearest even. -/
def quantise (b : Nat) (x : Int) (fl : Bool) (m : Nat) (emin eqf : Int) (rb : Option Nat) : Int × Int :=
  let ex : Nat := b / 2 ^ 23 % 256
  let sig : Nat := if ex ≠ 0 then b % 2 ^ 23 + 2 ^ 23 else b % 2 ^ 23
  if sig = 0 then (0, emin - m)
  else
    let e : Int := (if ex ≠ 0 then (ex : Int) else 1) - 127 - x
    let eq : Int := if fl then max e emin - m else eqf
    let k := eq - (e - 23)
    let n : Nat :=
      if k < -39 then 2 ^ 62
      else if k ≤ 0 then sig * 2 ^ (-k).toNat
      else if 63 < k then 0
      else
        let k := k.toNat
        match rb with
        | none => divRne sig (2 ^ k)
        | some r => (sig + (if 16 ≤ k then r * 2 ^ (k - 16) else r / 2 ^ (16 - k))) / 2 ^ k
    (if f32Sign b then -(n : Int) else (n : Int), eq)

/-- Halve n while it reaches 2^(m+1). -/
def halveGo (m : Nat) : Nat → Nat → Int → Nat × Int
  | 0, n, eq => (n, eq)
  | k + 1, n, eq => if 2 ^ (m + 1) ≤ n then halveGo m k (n / 2) (eq + 1) else (n, eq)

/-- A floating code from n and eq, with whether it saturated (R309). `top`: the largest finite encoding. -/
def floatCode (neg : Bool) (n : Nat) (eq : Int) (m : Nat) (bias : Int) (eb top : Nat) : Nat × Bool :=
  let (n, eq) := halveGo m 64 n eq
  let mag : Nat := if n < 2 ^ m then n else ((eq + m + bias).toNat) * 2 ^ m + (n - 2 ^ m)
  let sign := if neg then 2 ^ (eb + m) else 0
  if top < mag then (sign + top, true) else (sign + mag, false)

/-- An integer code of w bits from n, with whether it was clamped (R309). -/
def intCode (n lo hi : Int) (w : Nat) : Nat × Bool :=
  let c : Int := max lo (min n hi)
  ((c % ((2 : Int) ^ w)).toNat, decide (c ≠ n))

/-- The code of one element, with whether it saturated (R308, R309). `x`: the block exponent. -/
def encodeElem (fmt : Nat) (y : Nat) (x : Int) (rb : Option Nat) : Nat × Bool :=
  let neg := f32Sign y
  let fl (m : Nat) (emin : Int) (bias : Int) (eb top : Nat) : Nat × Bool :=
    let q := quantise y x true m emin 0 rb
    floatCode neg q.1.natAbs q.2 m bias eb top
  let it (eqf lo hi : Int) (w : Nat) : Nat × Bool := intCode (quantise y x false 0 0 eqf rb).1 lo hi w
  match fmt with
  | 0x01 => it 0 0 255 8
  | 0x02 => it 0 0 65535 16
  | 0x03 => it 0 (-32768) 32767 16
  | 0x04 => fl 10 (-14) 15 5 0x7BFF
  | 0x05 => fl 7 (-126) 127 8 0x7F7F
  | 0x06 => if f32Inf y then ((if neg then 2 ^ 31 else 0) + 0x7F7FFFFF, true) else (y, false)
  | 0x07 => fl 3 (-6) 7 4 0x7E
  | 0x09 => fl 3 (-6) 7 4 0x7E
  | 0x08 => fl 2 (-14) 15 5 0x7B
  | 0x0A => fl 2 (-14) 15 5 0x7B
  | 0x0B => fl 2 (-2) 3 3 0x1F
  | 0x0C => it (-6) (-127) 127 8
  | 0x0D => it 0 (-128) 127 8
  | 0x0E => it 0 0 1023 10
  | 0x0F => it 0 0 4095 12
  | _ => (0, false)

/-- The block exponent of 32 values (R310). -/
def blockExp (fmt : Nat) (ys : List Nat) : Int :=
  let amax : Nat := (ys.map (fun y => y % 2 ^ 31)).foldl max 0
  if amax = 0 then -127
  else
    let e : Nat := amax / 2 ^ 23
    let ea : Int := if e ≠ 0 then (e : Int) - 127 else (amax.log2 : Int) - 149
    let emax : Int := if fmt = 0x09 then 8 else if fmt = 0x0A then 15 else if fmt = 0x0B then 4 else 0
    max (-127) (min (ea - emax) 127)

/-! ### Tensors in memory (R313) -/

/-- Bytes of a little-endian bit stream of codes of w bits (R312). -/
def packBits (w : Nat) (codes : List Nat) : List Byte :=
  let n := (codes.foldr (fun c acc => acc * 2 ^ w + c % 2 ^ w) 0)
  leBytes (ceilDiv (w * codes.length) 8) n

/-- The codes of w bits of a bit stream. -/
def unpackBits (w n : Nat) (d : List Byte) : List Nat :=
  let v := leNat d
  (List.range n).map (fun i => v / 2 ^ (w * i) % 2 ^ w)

/-- A dense or skewed tensor of codes given by (channel, row, column), with block exponents by (channel, row, block)
(R313). -/
def tensorOf (fmt layout oc oh ow : Nat) (code : Nat → Nat → Nat → Nat) (scale : Nat → Nat → Nat → Nat) : List Byte :=
  let w := (fmtWidth fmt).getD 8
  let cs := List.range oc
  let hs := List.range oh
  let ws := List.range ow
  if layout = 1 then packBits w (hs.flatMap (fun y => ws.flatMap (fun x => cs.map (fun c => code c y x))))
  else if layout = 3 ∨ layout = 4 then
    let rb := skewRow ow fmt
    let gb := skewGroup ow fmt layout
    cs.flatMap (fun c => (List.range (ceilDiv oh 8)).flatMap (fun g =>
      let rows := (List.range 8).flatMap (fun r =>
        let y := 8 * g + r
        let codes := if y < oh then List.replicate r 0 ++ ws.map (fun x => code c y x) else []
        let b := packBits w codes
        b ++ List.replicate (rb - b.length) 0)
      let sc := if layout = 4 then (List.range 8).flatMap (fun r =>
        (List.range (ow / 32)).map (fun k => if 8 * g + r < oh then BitVec.ofNat 8 (scale c (8 * g + r) k) else 0)) else []
      let b := rows ++ sc
      b ++ List.replicate (gb - b.length) 0))
  else packBits w (cs.flatMap (fun c => hs.flatMap (fun y => ws.map (fun x => code c y x))))

/-! ### One sample -/

/-- What Trim gives for a sample. -/
structure TrimOut where
  tensor    : List Byte
  fallback  : Bool
  saturated : Nat
  draws     : Nat
  deriving DecidableEq, Repr

/-- Positions of a sample in the tile order of R41: (channel, row, column). `tc`: channels per tile. -/
def tileOrder (oc oh ow tc : Nat) : List (Nat × Nat × Nat) :=
  (List.range (ceilDiv oh 64)).flatMap (fun ty => (List.range (ceilDiv ow 64)).flatMap (fun tx =>
    (List.range (ceilDiv oc tc)).flatMap (fun tb =>
      (List.range (min tc (oc - tb * tc))).flatMap (fun c => (List.range (min 64 (oh - ty * 64))).flatMap (fun y =>
        (List.range (min 64 (ow - tx * 64))).map (fun x => (tb * tc + c, ty * 64 + y, tx * 64 + x)))))))

/-- Channels per output tile (R311). -/
def tileChannels (fmt : Nat) : Nat :=
  if fmt = 0x0B ∨ fmt = 0x01 ∨ fmt = 0x07 ∨ fmt = 0x08 ∨ fmt = 0x0D then 16
  else if fmt = 0x09 ∨ fmt = 0x0A ∨ fmt = 0x0C then 15
  else if fmt = 0x0E then 12 else if fmt = 0x0F then 10 else if fmt = 0x06 then 4 else 8

/-- The noise and rounding shares of every element, by element offset. Indexed flows draw by position; stateful flows
take the partition generator in tile order, noise before rounding (R294, R328, R333). -/
def elementShares (r : RflSource) (s : Nat) (gen : Nat × Nat) (oc oh ow tc : Nat) (noise : Nat → Bool) (round : Bool) :
    Array (Nat × Nat) :=
  let off (p : Nat × Nat × Nat) : Nat := (p.1 * oh + p.2.1) * ow + p.2.2
  if r.stateful then
    let step (acc : (Nat × Nat) × Array (Nat × Nat)) (p : Nat × Nat × Nat) : (Nat × Nat) × Array (Nat × Nat) :=
      let (a, g) := if noise p.1 then genDraw acc.1 else (0, acc.1)
      let (b, g) := if round then genDraw g else (0, g)
      (g, acc.2.setIfInBounds (off p) (a, b))
    ((tileOrder oc oh ow tc).foldl step (gen, Array.replicate (oc * oh * ow) (0, 0))).2
  else
    Array.ofFn (fun e : Fin (oc * oh * ow) =>
      (if noise (e.val / (oh * ow)) then r.share 2 s e.val else 0, if round then r.share 1 s e.val else 0))

/-- Draws that n elements of one stream take: of an indexed flow one serves 8 elements, of a stateful flow each takes its own (R328,
R332). -/
def RflSource.drawsOf (r : RflSource) (n : Nat) : Nat := if r.stateful then n else ceilDiv n 8

/-- Working samples of a plane (R299). -/
def workingPlane (depth : Nat) (p : Plane) : WPlane := ⟨p.w, p.h, (p.data.map (fun v => v * 2 ^ (16 - depth))).toArray⟩

/-- Trim's tensor of a sample of F pictures, all of one size (R290). `gen`: the sample generator of a stateful flow. -/
def trimSample (fe : FlowEntry) (ts : TrimSettings) (r : RflSource) (s : Nat) (gen : Nat × Nat) (srOff augOff : Bool)
    (pics : List Picture) : TrimOut :=
  let word := r.word s
  let p0 := pics.head?.map (fun p => (p.w, p.h))
  let (w, h) := p0.getD (1, 1)
  let (crop, fb) := cropWindow ts word w h
  let g := geometry ts word augOff fe.outW fe.outH
  let jit := jitterOf ts word augOff
  let noiseOn := gate (!augOff && bit ts.flags 3) (word 24 % 65536) (ts.probs.getD 4 0)
  let er := eraseRect ts word augOff fe.outW fe.outH
  let oc := ts.outCh * pics.length
  let fmt := fe.outFormat
  let stoch := decide (ts.round = 1) && !srOff && fmt != 0x06
  let noise (c : Nat) : Bool := noiseOn && !(ts.outCh == 4 && c % 4 == 3)
  let shares := elementShares r s gen oc fe.outH fe.outW (tileChannels fmt) noise stoch
  let n := oc * fe.outH * fe.outW
  -- y of every element before rounding (steps 3 to 9 and OUT_SCALE)
  let frames : List (Array (List Nat)) := pics.map (fun pic =>
    let k : SourceKind := ⟨pic.depth, !pic.rgb, pic.planes.length == 1 || (pic.alpha && pic.planes.length == 2), pic.alpha⟩
    let planes := pic.planes.map (workingPlane pic.depth)
    let at_ (x y : Nat) : List Nat :=
      let (u, v) := g.target x y
      planes.mapIdx (fun i p =>
        let sub := !pic.rgb && (i == 1 || i == 2)
        resizeAt ts p (ts.padValue.getD i 0) crop g (if sub then pic.subX else 1) (if sub then pic.subY else 1) u v)
    Array.ofFn (fun q : Fin (fe.outW * fe.outH) =>
      let ws := at_ (q.val % fe.outW) (q.val / fe.outW)
      let ws := if pic.alpha && pic.planes.length == 2 then [ws.getD 0 0, ws.getD 0 0, ws.getD 0 0, ws.getD 1 0] else ws
      let (c, a, y) := colourOf ts k ws
      let o := outChannels ts k y c a
      applyJitter jit (o.take 3) ++ o.drop 3))
  let ys : Array Nat := Array.ofFn (fun e : Fin n =>
    let c := e.val / (fe.outH * fe.outW)
    let q := e.val % (fe.outH * fe.outW)
    let ch := c % ts.outCh
    let x := ((frames.getD (c / ts.outCh) #[]).getD q []).getD ch 0
    let z := f32Mul (f32Sub x (ts.mean.getD ch 0).toNat) (ts.invStd.getD ch 0).toNat
    let z := if noise c then f32Add z (f32Mul ts.sigma.toNat (r.normal (shares.getD e.val (0, 0)).1)) else z
    let inErase := match er with
      | some b => decide (b.x ≤ q % fe.outW ∧ q % fe.outW < b.x + b.w ∧ b.y ≤ q / fe.outW ∧ q / fe.outW < b.y + b.h)
      | none => false
    f32Mul (if inErase then ts.eraseVal.toNat else z) ts.outScale.toNat)
  let at3 (c y x : Nat) : Nat := (c * fe.outH + y) * fe.outW + x
  let exps (c y k : Nat) : Int := if fmtBlock fmt then
    blockExp fmt ((List.range 32).map (fun i => ys.getD (at3 c y (32 * k + i)) 0)) else 0
  let codes : Array (Nat × Bool) := Array.ofFn (fun e : Fin n =>
    let x := e.val % fe.outW
    let row := e.val / fe.outW
    encodeElem fmt (ys.getD e.val 0) (exps (row / fe.outH) (row % fe.outH) (x / 32))
      (if stoch then some ((shares.getD e.val (0, 0)).2 % 65536) else none))
  let layout := if fe.outLayout = 2 then 0 else fe.outLayout
  { tensor := tensorOf fmt layout oc fe.outH fe.outW (fun c y x => (codes.getD (at3 c y x) (0, false)).1)
      (fun c y k => (exps c y k + 127).toNat),
    fallback := fb, saturated := (codes.toList.filter (fun q => q.2)).length,
    draws := 8 + r.drawsOf (fe.outH * fe.outW * ((List.range oc).filter noise).length) + (if stoch then r.drawsOf n else 0) }

/-- Can the channels of an E2 picture be mapped (R303)? One, three and four channels can. -/
def channelsOk (pic : Picture) : Bool := pic.planes.length == 1 || pic.planes.length == 3 || pic.planes.length == 4

end Sys2Proof.Machine
end

