-- ==== Sys2Proof/Machine/DeltaDesc.lean ====
section
/-! DEFINITION. Delta descriptors: layout, checks, element addresses, ranges, conversion and the cutting of transfers
(R383 to R388). -/

namespace Sys2Proof.Machine

/-- Element size in bytes of a format that Delta accepts, 0 of any other (R385). -/
def elemSize (f : Nat) : Nat :=
  if f = 0x01 ∨ f = 0x07 ∨ f = 0x08 ∨ f = 0x0D then 1
  else if 0x02 ≤ f ∧ f ≤ 0x05 then 2
  else if f = 0x06 then 4
  else 0

/-- The fields of the 128 bytes of a descriptor (R383). -/
def parseDesc (b : List Byte) : Desc :=
  let fl := byteAt b 3
  { flow := fieldAt b 0 2 % 4096, ten := fieldAt b 0 2 / 4096, stream := byteAt b 2 % 64, dir := fl % 2, order := bit fl 1,
    fence := bit fl 2, doneWait := bit fl 3, notify := bit fl 4, deadline := bit fl 5, fmtIn := byteAt b 4,
    fmtOut := byteAt b 5, layer := fieldAt b 6 2, dieMask := fieldAt b 8 4, sdims := byteAt b 12, ddims := byteAt b 13,
    src := fieldAt b 16 8, dst := fieldAt b 24 8, next := fieldAt b 32 8, alt := fieldAt b 40 8,
    scount := (List.range 6).map (fun k => fieldAt b (48 + 2 * k) 2),
    dcount := (List.range 6).map (fun k => fieldAt b (60 + 2 * k) 2),
    sstride := (List.range 6).map (fun k => fieldAt b (72 + 4 * k) 4),
    dstride := (List.range 6).map (fun k => fieldAt b (96 + 4 * k) 4), bytes := fieldAt b 120 4 }

/-- Product of (count + 1) over the dimensions in use. -/
def dimProd (counts : List Nat) (dims : Nat) : Nat := (counts.take dims).foldl (fun a c => a * (c + 1)) 1

/-- N: the elements a descriptor moves (R384). -/
def Desc.count (d : Desc) : Nat := dimProd d.scount d.sdims

/-- Bytes of one side's range (R387). -/
def spanOf (counts strides : List Nat) (dims size : Nat) : Nat :=
  sumL (((counts.take dims).zip (strides.take dims)).map (fun p => p.1 * p.2)) + size

/-- Bytes of the source range. -/
def Desc.srcLen (d : Desc) : Nat := spanOf d.scount d.sstride d.sdims (elemSize d.fmtIn)

/-- Bytes of the destination range. -/
def Desc.dstLen (d : Desc) : Nat := spanOf d.dcount d.dstride d.ddims (elemSize d.fmtOut)

/-- Fabric address of compute die d's die-local address 0 (R387). -/
def dieBase (d : Nat) : Nat := 0xE000000000000 + d * 2 ^ 36

/-- Compute dies of a mask. -/
def diesOf (mask : Nat) : List Nat := (List.range 32).filter (fun d => bit mask d)

/-- Does a descriptor pass R385? `first`: the STREAM of the chain's first descriptor; `idx`: its place in the chain. An
alternate's NEXT_ADDR and ALT_ADDR are ignored (R400). -/
def descOk (fe : FlowEntry) (first : Option Nat) (idx : Nat) (isAlt : Bool) (b : List Byte) : Bool :=
  let d := parseDesc b
  let si := elemSize d.fmtIn
  let so := elemSize d.fmtOut
  let unused (l : List Nat) (n : Nat) : Bool := (l.drop n).all (· == 0)
  d.flow == fe.flow && d.ten == fe.ten && (match first with | some st => d.stream == st | none => true) &&
  d.deadline == fe.deadline && decide (byteAt b 2 < 64) && decide (byteAt b 3 < 64) && fieldAt b 14 2 == 0 &&
  fieldAt b 124 4 == 0 && decide (1 ≤ d.sdims ∧ d.sdims ≤ 6 ∧ 1 ≤ d.ddims ∧ d.ddims ≤ 6) &&
  unused d.scount d.sdims && unused d.sstride d.sdims && unused d.dcount d.ddims && unused d.dstride d.ddims &&
  decide (0 < si ∧ 0 < so) && d.count == dimProd d.dcount d.ddims && d.bytes == d.count * so &&
  d.src % si == 0 && d.dst % so == 0 && (d.sstride.take d.sdims).all (· % si == 0) &&
  (d.dstride.take d.ddims).all (· % so == 0) && d.dieMask != 0 && (d.dir == 0 || (diesOf d.dieMask).length == 1) &&
  decide (d.src + d.srcLen ≤ (if d.dir = 0 then 2 ^ 52 else 2 ^ 36)) &&
  decide (d.dst + d.dstLen ≤ (if d.dir = 0 then 2 ^ 36 else 2 ^ 52)) && (!d.fence || idx == 0) &&
  (isAlt || (d.next % 64 == 0 && decide (d.next < 2 ^ 52) && d.alt % 64 == 0 && decide (d.alt < 2 ^ 52)))

/-- The fabric ranges of a descriptor, with whether each is written (R387). -/
def Desc.ranges (d : Desc) : List (Nat × Nat × Bool) :=
  if d.dir = 0 then (d.src, d.srcLen, false) :: (diesOf d.dieMask).map (fun k => (dieBase k + d.dst, d.dstLen, true))
  else (diesOf d.dieMask).map (fun k => (dieBase k + d.src, d.srcLen, false)) ++ [(d.dst, d.dstLen, true)]

/-- The first range of a descriptor that no window allows, with the access code 1 read, 2 write. -/
def Desc.outside (d : Desc) (ws : List Window) : Option (Nat × Nat) :=
  (d.ranges.find? (fun r => !inWindows ws (!r.2.2) r.2.2 r.1 r.2.1)).map (fun r => (r.1, if r.2.2 then 2 else 1))

/-! ### Elements (R384) -/

/-- Offset of element i: digits of i in the counts, times the strides. -/
def elemOff : List Nat → List Nat → Nat → Nat
  | c :: cs, st :: ss, i => i % (c + 1) * st + elemOff cs ss (i / (c + 1))
  | _, _, _ => 0

/-- Source address of element i, on its own side. -/
def Desc.srcAt (d : Desc) (i : Nat) : Nat := d.src + elemOff (d.scount.take d.sdims) (d.sstride.take d.sdims) i

/-- Destination address of element i, on its own side. -/
def Desc.dstAt (d : Desc) (i : Nat) : Nat := d.dst + elemOff (d.dcount.take d.ddims) (d.dstride.take d.ddims) i

/-- Fabric address of a source address. -/
def Desc.srcFabric (d : Desc) (a : Nat) : Nat :=
  if d.dir = 0 then a else match diesOf d.dieMask with | k :: _ => dieBase k + a | [] => a

/-- Elements that follow element e with both sides contiguous, at most k (R388). -/
def runMore (d : Desc) : Nat → Nat → Nat → Nat
  | 0, _, acc => acc
  | k + 1, e, acc =>
    if e + 1 < d.count ∧ d.srcAt (e + 1) = d.srcAt e + elemSize d.fmtIn ∧ d.dstAt (e + 1) = d.dstAt e + elemSize d.fmtOut then
      runMore d k (e + 1) (acc + 1)
    else acc

/-- Elements that follow element e with a contiguous source, at most k. -/
def srcMore (d : Desc) : Nat → Nat → Nat → Nat
  | 0, _, acc => acc
  | k + 1, e, acc =>
    if e + 1 < d.count ∧ d.srcAt (e + 1) = d.srcAt e + elemSize d.fmtIn then srcMore d k (e + 1) (acc + 1) else acc

/-! ### Conversion (R386) -/

/-- The exact fp32 value of an element, none for a NaN. -/
def elemValue (fmt v : Nat) : Option Nat :=
  let small (eb mb : Nat) (ieee : Bool) : Option Nat :=
    let x := f32OfSmall eb mb ieee v
    if f32Nan x then none else some x
  match fmt with
  | 0x01 => some (f32OfNat v)
  | 0x02 => some (f32OfNat v)
  | 0x03 => some (f32OfInt (if v < 32768 then (v : Int) else (v : Int) - 65536))
  | 0x04 => small 5 10 true
  | 0x05 => small 8 7 true
  | 0x06 => if f32Nan v then none else some v
  | 0x07 => if v % 128 = 127 then none else small 4 3 false
  | 0x08 => small 5 2 true
  | 0x0D => some (f32OfInt (if v < 128 then (v : Int) else (v : Int) - 256))
  | _ => some 0

/-- One converted element and whether it counts in CONVERTED. -/
def convertElem (fi fo v : Nat) : Nat × Bool :=
  match elemValue fi v with
  | none => ((encodeElem fo 0 0 none).1, true)
  | some y => encodeElem fo y 0 none

/-- Convert n elements, with the count of NaN inputs, saturations and clamps. -/
def convertGo (fi fo : Nat) : Nat → List Byte → List (List Byte) → Nat → List Byte × Nat
  | 0, _, acc, c => (acc.reverse.flatten, c)
  | n + 1, d, acc, c =>
    let si := elemSize fi
    let r := convertElem fi fo (leNat (d.take si))
    convertGo fi fo n (d.drop si) (leBytes (elemSize fo) r.1 :: acc) (c + b2n r.2)

/-- The destination bytes of n elements. -/
def convertBytes (fi fo n : Nat) (d : List Byte) : List Byte × Nat :=
  if fi = fo then (d, 0) else convertGo fi fo n d [] 0

/-- Bytes that a streaming task has in no transfer yet, counted as R408 does. A transfer that a thread has taken is served. -/
def DeltaTask.bytesLeft (d : DeltaTask) : Nat :=
  sumBy (fun r => match d.descs[r.1]? with | some x => r.2.2 * max (elemSize x.fmtIn) (elemSize x.fmtOut) | none => 0) d.todo

end Sys2Proof.Machine
end

