-- ==== Sys2Proof/Machine/Pools.lean ====
section
/-! DEFINITION. The Reservoir: smallest fit, reserved and shared blocks, waiters, thresholds and notifications, and
frame buffer handles with their marks (R162 to R176). -/

namespace Sys2Proof.Machine

/-- The definition of a live pool. -/
def State.pool? (s : State) (p : Nat) : Option PoolDef := s.forme.defs.find? (fun d => d.index == p)

/-- The run-time state of a pool. -/
def State.poolRun (s : State) (p : Nat) : PoolRun :=
  (s.pools.find? (fun r => r.pool == p)).getD ⟨p, [], [], false, false, false⟩

/-- Change the run-time state of a pool. -/
def State.modPool (s : State) (p : Nat) (g : PoolRun → PoolRun) : State :=
  { s with pools := updateWhere s.pools (fun r => r.pool == p) g }

/-- RESERVE of a flow in a pool, 0 where it has no claim (R156). -/
def State.reserveOf (s : State) (f p : Nat) : Nat :=
  ((s.forme.claims.find? (fun c => c.flow == f && c.pool == p)).map (·.reserve)).getD 0

/-- Rsv, the blocks of a pool that its claims reserve (R161). -/
def State.reserved (s : State) (p : Nat) : Nat := sumBy (fun c => if c.pool == p then c.reserve else 0) s.forme.claims

/-- BLOCKS of a pool. -/
def State.poolBlocks (s : State) (p : Nat) : Nat := ((s.pool? p).map (·.blocks)).getD 0

/-- The shared capacity S of a pool (R161). -/
def State.sharedCap (s : State) (p : Nat) : Nat := s.poolBlocks p - s.reserved p

/-- Blocks of a pool that a flow holds. -/
def PoolRun.heldBy (r : PoolRun) (f : Nat) : Nat := ((r.held.find? (fun h => h.1 == f)).map (·.2)).getD 0

/-- The shared use U of a pool (R165). -/
def State.sharedUse (s : State) (p : Nat) : Nat := sumBy (fun h => h.2 - s.reserveOf h.1 p) (s.poolRun p).held

/-- Unreserved blocks of a pool that an amendment or takeover has claimed so far (R68). -/
def State.claimedIn (s : State) (p : Nat) : Nat :=
  match s.job with
  | some j => sumBy (fun c => if c.2.1 == p then c.2.2 else 0) j.claimed
  | none => 0

/-- Is a shared block free? -/
def State.sharedFree (s : State) (p : Nat) : Bool := decide (s.sharedUse p + s.claimedIn p < s.sharedCap p)

/-- The entry level of a threshold (R170). -/
def enterLevel (cap t : Nat) : Nat := ceilDiv (cap * t) 256

/-- Does a condition hold after a change (R170)? -/
def condition (was : Bool) (cap t hyst u : Nat) : Bool :=
  decide (enterLevel cap t ≤ u) || (was && !decide (u < enterLevel cap t - cap * hyst / 256))

/-- The tenancies that have a live flow claiming a pool (R172). -/
def State.claimants (s : State) (p : Nat) : List Nat :=
  (List.range 16).filter (fun t => s.forme.claims.any (fun c => c.pool == p && c.ten == t))

/-- Notify a tenancy of the entry into a condition: its bit in the mask, and the interrupt (R172, R181). -/
def State.notifyPool (s : State) (p : Nat) (mask : Nat → Field) (t : Nat) : State :=
  let s := s.setFld (mask t) (s.fld (mask t) ||| 2 ^ p)
  if s.flag (F.TEN_POOL_IRQ_EN t) then s.interrupt t (s.fld (F.TEN_POOL_IRQ_VECTOR t)) else s

/-- Entry into a condition (R172). -/
def State.enterCondition (s : State) (p : Nat) (seen : Field) (mask : Nat → Field) : State :=
  (s.claimants p).foldl (fun s t => s.notifyPool p mask t) (s.setFld seen 1)

/-- Keep the highest U of a pool (R179). -/
def State.notePeak (s : State) (p : Nat) : State :=
  if (s.pool? p).isNone then s
  else s.setFld (F.RSV_POOL_COUNT_PEAK_SHARED p) (max (s.fld (F.RSV_POOL_COUNT_PEAK_SHARED p)) (s.sharedUse p))

/-- Re-evaluate the three conditions of a pool, lowest first (R170 to R172). -/
def State.recheckPool (s : State) (p : Nat) : State :=
  if (s.pool? p).isNone then s else
  let r := s.poolRun p
  let u := s.sharedUse p
  let cap := s.sharedCap p
  let hy := s.fld (F.RSV_POOL_THR_HYST p)
  let w := condition r.atWarn cap (s.fld (F.RSV_POOL_THR_WARN p)) hy u
  let t := condition r.atThrottle cap (s.fld (F.RSV_POOL_THR_THROTTLE p)) hy u
  let x := condition r.atStop cap (s.fld (F.RSV_POOL_THR_STOP p)) hy u
  let s := s.modPool p (fun r => { r with atWarn := w, atThrottle := t, atStop := x })
  let s := if w && !r.atWarn then s.enterCondition p (F.RSV_POOL_STATE_WARN_SEEN p) F.TEN_POOL_EVENTS_WARN else s
  let s := if t && !r.atThrottle then
    s.enterCondition p (F.RSV_POOL_STATE_THROTTLE_SEEN p) F.TEN_POOL_EVENTS_THROTTLE else s
  if x && !r.atStop then s.enterCondition p (F.RSV_POOL_STATE_STOP_SEEN p) F.TEN_POOL_IRQ_STOP else s

/-- The conditions of every pool, after the last grant of a step (R169). -/
def State.recheckPools (s : State) : State := s.forme.defs.foldl (fun (s : State) d => s.recheckPool d.index) s

/-- Change the number of blocks of a pool that a flow holds. -/
def PoolRun.charge (r : PoolRun) (f : Nat) (g : Nat → Nat) : PoolRun :=
  let n := g (r.heldBy f)
  let rest := r.held.filter (fun h => h.1 != f)
  { r with held := if n = 0 then rest else rest ++ [(f, n)] }

/-- A flow takes n blocks of a pool. A block has no contents in State: what a station forwards or writes comes from the data
of its own task, never from a block (R164). -/
def State.chargeBlocks (s : State) (p flow n : Nat) : State := (s.modPool p (fun r => r.charge flow (· + n))).notePeak p

/-- Give a task one block of a pool. -/
def State.giveBlock (s : State) (p flow task : Nat) : State :=
  (s.chargeBlocks p flow 1).modTask task (fun t => { t with blocks := t.blocks ++ [p], waitPool := none })

/-- Claim free unreserved blocks of a pool for the flows that an amendment adds (R68, R167). -/
def State.claimGo (s : State) (p : Nat) : List (Nat × Nat × Nat) → State
  | [] => s
  | c :: rest =>
    match s.job with
    | none => s
    | some j =>
      let want := ((j.forme.claims.find? (fun q => q.flow == c.1 && q.pool == p)).map (·.reserve)).getD 0
      let free := s.sharedCap p - s.sharedUse p - s.claimedIn p
      let n := min free (want - c.2.2)
      let cl := updateWhere j.claimed (fun x => x.1 == c.1 && x.2.1 == p) (fun x => (x.1, x.2.1, x.2.2 + n))
      State.claimGo { s with job := some { j with claimed := cl } } p rest

/-- Claim what is free in a pool. -/
def State.claimFree (s : State) (p : Nat) : State :=
  match s.job with
  | some j => if j.phase = 4 then s.claimGo p (j.claimed.filter (fun c => c.2.1 == p)) else s
  | none => s

/-- Serve the queue of a pool while a shared block is free (R167). -/
def State.serveWaiters : Nat → State → Nat → State
  | 0, s, _ => s
  | n + 1, s, p =>
    match (s.poolRun p).waiters with
    | [] => s
    | w :: rest =>
      if s.sharedFree p then
        let s := s.modPool p (fun r => { r with waiters := rest })
        State.serveWaiters n (s.giveBlock p w.flow w.task) p
      else s

/-- After a change of a pool: freed blocks go to a claiming amendment, then to the queue (R167). The thresholds are evaluated
when the step ends (R169). -/
def State.settlePool (s : State) (p : Nat) : State :=
  let s := s.claimFree p
  State.serveWaiters (s.poolRun p).waiters.length s p

/-- Return blocks, one pool index each, that a flow held. -/
def State.freeBlocks (s : State) (flow : Nat) (ps : List Nat) : State :=
  let s := ps.foldl (fun s p => s.modPool p (fun r => r.charge flow (· - 1))) s
  (ps.eraseDups).foldl (fun s p => s.settlePool p) s

/-- Take a task out of every queue. -/
def State.dropWaiter (s : State) (task : Nat) : State :=
  { s with pools := s.pools.map (fun r => { r with waiters := r.waiters.filter (fun w => w.task != task) }) }

/-- Return every block that a task holds and end its wait. -/
def State.freeTask (s : State) (task : Nat) : State :=
  match s.task? task with
  | none => s
  | some t =>
    (((s.dropWaiter task).modTask task (fun t => { t with blocks := [], waitPool := none, want := [] })).freeBlocks
      t.flow t.blocks)

/-- The answer to a request for one block. -/
inductive Grant where
  | granted
  | waits
  /-- STATUS 0x42 in the sample's tiles (R162, R166, R174) -/
  | refused
  /-- RSV_REQ: the task completes with ABORTED_FAULT (R163) -/
  | badSize
  deriving DecidableEq, Repr

/-- A request that fits no pool that the flow claims counts in the first pool that it claims (R162, R179). -/
def State.countUnfit (s : State) (flow : Nat) : State :=
  match s.forme.claims.find? (fun c => c.flow == flow) with
  | some c => s.incFld (F.RSV_POOL_COUNT_EXHAUSTED c.pool)
  | none => s

/-- Position of a new waiter: order of first attempt, ties by flow, sample and partition (R167). -/
def waiterKey (w : Waiter) : List Nat := [w.since, w.flow, w.sample, w.part]

/-- One request for one block by a task of a flow (R162 to R166). -/
def State.requestBlock (s : State) (fe : FlowEntry) (t : Task) (bytes : Nat) (galley : Bool) : State × Grant :=
  if bytes = 0 ∨ 134217728 < bytes then (s.raiseOn 0x07 (.task t.id), .badSize)
  else match poolFor s.forme.claims fe.flow bytes galley with
    | none => (s.countUnfit fe.flow, .refused)
    | some p =>
      let r := s.poolRun p
      if fe.deadline && decide (r.heldBy fe.flow < s.reserveOf fe.flow p) then
        (s.giveBlock p fe.flow t.id, .granted)
      else if fe.deadline then
        if s.sharedFree p && !r.atStop then (s.giveBlock p fe.flow t.id, .granted)
        else ((s.incFld (F.RSV_POOL_COUNT_EXHAUSTED p)).raiseOn 0x09 (.task t.id), .refused)
      else if s.sharedFree p && r.waiters.isEmpty then (s.giveBlock p fe.flow t.id, .granted)
      else
        let w : Waiter := ⟨t.id, fe.flow, t.sample, 0, s.now⟩
        ((s.modPool p (fun r => { r with waiters := insertBy waiterKey w r.waiters })).modTask t.id
          (fun t => { t with waitPool := some p }), .waits)

/-- A request that never waits, charged to a flow and to no task: the pool of the block, or none (R364). A refusal of a
deadline flow raises POOL_EXHAUST (R166). -/
def State.tryBlock (s : State) (fe : FlowEntry) (bytes : Nat) (galley : Bool) : State × Option Nat :=
  match poolFor s.forme.claims fe.flow bytes galley with
  | none => (s.countUnfit fe.flow, none)
  | some p =>
    let r := s.poolRun p
    let free := if fe.deadline then decide (r.heldBy fe.flow < s.reserveOf fe.flow p) || (s.sharedFree p && !r.atStop)
      else s.sharedFree p && !r.atStop && r.waiters.isEmpty
    if free then (s.chargeBlocks p fe.flow 1, some p)
    else
      let s := s.incFld (F.RSV_POOL_COUNT_EXHAUSTED p)
      (if fe.deadline then s.raiseOn 0x09 (.flow fe.flow) else s, none)

/-- Is a pool that the flow claims at THROTTLE, for a bulk flow, or at STOP beyond the flow's reservation, for a
deadline flow (R171)? Headwater then takes no new task of the flow. -/
def State.poolHolds (s : State) (fe : FlowEntry) : Bool :=
  s.forme.claims.any (fun c => c.flow == fe.flow &&
    (let r := s.poolRun c.pool
     if fe.deadline then r.atStop && decide (c.reserve < r.heldBy fe.flow) else r.atThrottle || r.atStop))

/-- Is some pool that the flow claims at STOP (R371)? -/
def State.poolStop (s : State) (fe : FlowEntry) : Bool :=
  s.forme.claims.any (fun c => c.flow == fe.flow && (s.poolRun c.pool).atStop)

/-! ### Frame buffers and marks (R174 to R176) -/

/-- The lowest free handle. -/
def State.freeHandle? (s : State) : Option Nat :=
  (List.range 16384).find? (fun i => !(s.handles.any (fun h => h.id == i)))

/-- Tie blocks that a task holds to a new handle with OUT pending. A request refused for want of a handle counts in the pool
of the first of its blocks (R174, R179). -/
def State.takeHandle (s : State) (t : Task) (ps : List Nat) : State × Option Nat :=
  match s.freeHandle? with
  | none =>
    ((match ps with
      | p :: _ => s.incFld (F.RSV_POOL_COUNT_EXHAUSTED p)
      | [] => s.countUnfit t.flow).raiseOn 0x09 (.task t.id), none)
  | some i =>
    let s := { s with handles := s.handles ++ [(⟨i, t.flow, ps, 0, true, false⟩ : Handle)] }
    (s.modTask t.id (fun t => { t with blocks := t.blocks.filter (fun p => !(ps.contains p)) }), some i)

/-- Release a handle: its blocks return to their pools. -/
def State.releaseHandle (s : State) (i : Nat) : State :=
  match s.handles.find? (fun h => h.id == i) with
  | none => s
  | some h => { s with handles := s.handles.filter (fun x => x.id != i) }.freeBlocks h.flow h.blocks

/-- All updates of one mark in one step: REF by a difference, OUT and HOLD to new values, then the test for 0. An
update that takes REF outside 0 to 63 raises RSV_MARK and changes nothing (R175, R176). -/
def State.updateMark (s : State) (i : Nat) (dRef : Int) (out hold : Option Bool) (task : Nat) : State :=
  match s.handles.find? (fun h => h.id == i) with
  | none => s
  | some h =>
    let ref : Int := (h.ref : Int) + dRef
    if ref < 0 ∨ 63 < ref then s.raiseOn 0x08 (.task task)
    else
      let h' := { h with ref := ref.toNat, out := out.getD h.out, hold := hold.getD h.hold }
      if h'.ref = 0 ∧ h'.out = false ∧ h'.hold = false then s.releaseHandle i
      else { s with handles := updateWhere s.handles (fun x => x.id == i) (fun _ => h') }

/-- Release every handle of a flow. -/
def State.releaseHandles (s : State) (flow : Nat) : State :=
  ((s.handles.filter (fun h => h.flow == flow)).map (·.id)).foldl (fun s i => s.releaseHandle i) s

/-- Pools rebuilt from the live forme, every block and handle free (R177). The conditions of a pool whose shared part is
empty hold at once (R170). -/
def State.rebuildPools (s : State) : State :=
  let fresh : List PoolRun := s.forme.defs.map (fun d => ⟨d.index, [], [], false, false, false⟩)
  { s with handles := [], pools := fresh }.recheckPools

/-- The thresholds that the definitions of a forme supply, in both copies (R65). -/
def State.supplyThresholds (s : State) : State :=
  s.forme.defs.foldl (fun s d =>
    let off := (F.RSV_POOL_THR_WARN d.index).off
    let w := putBits (putBits (putBits (putBits 0 0 9 d.warn) 16 9 d.throttle) 32 9 d.stop) 48 8 d.hyst
    { s with regs := s.regs.set off w, shadow := s.shadow.set off w }) s

/-- The bulk request at the head of a pool's queue, and the moment at which it has waited WAIT_MS (R168). -/
def State.waitDue (s : State) (p : Nat) : Option (Waiter × Nat) :=
  match (s.poolRun p).waiters with
  | [] => none
  | w :: _ => some (w, w.since + s.fld F.RSV_CFG_WAIT_MS * 1000000)

end Sys2Proof.Machine
end

