-- ==== Sys2Proof/Machine/Tasks.lean ====
section
/-! DEFINITION. The life of a task: acceptance, release, stop, the task boundary with its checkpoints, the completion
entry and the end (R97, R116, R126, R136 to R142, R451 to R455). -/

namespace Sys2Proof.Machine

/-- Is OUT_INVALID set with this status (R144, R366)? WINDOW_VIOLATION found during the task sets it besides (R121). -/
def statusInvalid (code : Nat) : Bool :=
  code = 0x14 ∨ code = 0x20 ∨ code = 0x21 ∨ code = 0x23 ∨ code = 0x30 ∨ code = 0x31 ∨ code = 0x32 ∨ code = 0x42

/-! ### Journal (R451, R455) -/

/-- The checkpoint areas in force, A then B (R450, R471). -/
def State.areas (s : State) : List Nat := s.ckptAreas.1.toList ++ s.ckptAreas.2.toList

/-- The areas that the guard partition names, which the next quoin point puts in force (R471). -/
def State.namedAreas (s : State) : Option Nat × Option Nat :=
  (if s.flag F.GRD_CKPT_A_EN then some (s.fld F.GRD_CKPT_A_BASE * 2 ^ 30) else none,
   if s.flag F.GRD_CKPT_B_EN then some (s.fld F.GRD_CKPT_B_BASE * 2 ^ 30) else none)

/-- The 64 bytes of the journal record of a task in flight (R455). -/
def journalRecord (t : Task) : List Byte :=
  let (live, ring) := match t.origin with
    | .ring r => (false, r)
    | .port p _ => (true, p)
    | .synth p => (true, p)
    | .carrier => (false, 0)
  let d := leBytes 1 1 ++ leBytes 1 (b2n live) ++ leBytes 2 (t.flow + 4096 * t.ten) ++ leBytes 4 ring ++
    leBytes 8 t.tag.toNat ++ leBytes 6 t.sample ++ List.replicate 38 0
  d ++ leBytes 4 (crc32c d)

/-- The 64 bytes of a free record. -/
def freeRecord : List Byte :=
  let d : List Byte := List.replicate 60 0
  d ++ leBytes 4 (crc32c d)

/-- Write the journal record of a task slot into both areas. -/
def State.writeRecord (s : State) (slot : Nat) (d : List Byte) : State :=
  s.areas.foldl (fun s a => s.issueWrite (a + 4096 + 64 * slot) d (.journal slot)) s

/-- Headwater accepts a task: its record is in flight. Record i is that of task slot i. -/
def State.journal (s : State) (t : Task) : State :=
  if t.isTask then s.writeRecord (t.id % 4096) (journalRecord t) else s

/-- Does a completion entry of the task of a slot await its acknowledgement? -/
def State.entryOut (s : State) (slot : Nat) : Bool :=
  s.txns.any (fun x => match x.purpose with | .cqe _ _ k => k == some slot | _ => false)

/-- The completion entry of a task is acknowledged, or the task ended without one: its record is free. -/
def State.freeSlotRecord (s : State) (slot : Option Nat) : State :=
  match slot with
  | some k => s.writeRecord k freeRecord
  | none => s

/-! ### The takeover image (R76, R451) -/

/-- The bytes of the n-th takeover image: that of the live merged forme. -/
def imageBytes (n size : Nat) : List Byte := (List.range size).map (Config.imageByte n)

/-- Write the takeover image into an area. -/
def State.writeImage (s : State) (a : Nat) (areaB : Bool) : State :=
  s.issueWrite (a + 0x1000000) (imageBytes s.imageSeq s.forme.size) (.image areaB)

/-- The header of an area (R451). -/
def State.imageHeader (s : State) : List Byte :=
  let d := leBytes 4 0x314B4348 ++ leBytes 1 (s.fld F.GRD_IDENT_INSTANCE) ++ leBytes 3 0 ++ leBytes 8 s.forme.id.toNat ++
    leBytes 2 s.amends ++ leBytes 2 0 ++ leBytes 4 s.forme.size ++ leBytes 4 (crc32c (imageBytes s.imageSeq s.forme.size)) ++
    leBytes 4 0 ++ leBytes 8 s.imageSeq ++ leBytes 8 s.now ++ leBytes 12 0
  d ++ leBytes 4 (crc32c d)

/-- One write of the image is answered: with the last of them, the header follows. -/
def State.imageAnswered (s : State) (areaB : Bool) : State :=
  if s.txns.any (fun x => x.purpose == .image areaB) then s
  else match (if areaB then s.ckptAreas.2 else s.ckptAreas.1) with
    | some a => s.issueWrite a s.imageHeader (.imageHead areaB)
    | none => s

/-- Write the image of the live forme into both areas, the header last. The blank forme has no bytes. -/
def State.writeImages (s : State) : State :=
  let s := { s with imageSeq := s.imageSeq + 1 }
  let put (s : State) (a : Option Nat) (b : Bool) : State := match a with
    | some a => if s.forme.size = 0 then s.imageAnswered b else s.writeImage a b
    | none => s
  put (put s s.ckptAreas.1 false) s.ckptAreas.2 true

/-! ### Acceptance and release -/

/-- A task ID whose slot (ID mod 4,096) is free. -/
def freeTaskId (used : List Nat) : Nat → Nat → Nat
  | 0, i => i
  | n + 1, i => if used.contains (i % 4096) then freeTaskId used n (i + 1) else i

/-- A task with every field at its start value. -/
def Task.blank : Task :=
  { id := 0, ten := 0, flow := 0, origin := .synth 0, opcode := 1, tag := 0, irqNow := false, entry := 0, srcAddr := 0,
    srcLen := 0, dstAddr := 0, dstLen := 0, args := [], sqHead := 0, cq := 0, sample := 0, epoch := 0, accept := 0, release := 0, capture := 0,
    phase := .waiting, stage := 0, work := [], spent := [], cfg := 0, status := 0, invalid := false, stopping := false, detail := 0,
    blocks := [], waitPool := none, want := [], entered := false, windows := [], inBytes := [], readsOut := 0,
    writesOut := 0, samples := [], tiles := [], delta := none, inPlace := none, readyBy := none, late := false, heldFull := false,
    dec := none, enc := none, parts := [], carried := [], keep := [], keepData := [], holds := [], bound := true, ckptOut := 0, ckptOk := [], ckptBad := [] }

/-- Accept a task: it takes its slot, the windows in force now are its windows (R122), Headwater journals it (R455), and
a_j is now (R97). Answers its ID. -/
def State.accept (s : State) (t : Task) : State × Nat :=
  let out := s.txns.filterMap (fun x => match x.purpose with | .cqe _ _ k => k | _ => none)
  let id := freeTaskId ((s.tasks.filter Task.isTask).map (fun x => x.id % 4096) ++ out) 4096 s.nextTask
  let t := { t with id := id, accept := s.now, release := s.now, windows := s.windows t.ten }
  ({ s with tasks := s.tasks ++ [t], nextTask := id + 1 }.journal t, id)

/-- Start a sample, or a batch, that travels by itself: it is no task in flight. -/
def State.spawn (s : State) (t : Task) : State × Nat :=
  let id := s.nextTask
  ({ s with tasks := s.tasks ++ [{ t with id := id, origin := .carrier }], nextTask := id + 1 }, id)

/-- Release time of a new task of a deadline flow: max(a_j, r_(j-1) + PERIOD_NS) (R97). -/
def releaseTime (fe : FlowEntry) (last : Option Nat) (a : Nat) : Nat :=
  match last with
  | none => a
  | some r => max a (r + fe.periodNs)

/-- The earliest moment at which a waiting task may be released, from the flow's last release. -/
def State.dueRelease (s : State) (fe : FlowEntry) (t : Task) : Nat :=
  releaseTime fe (s.run fe.flow).lastRel t.accept

/-! ### Checkpoints -/

/-- The bytes of a context record: the 4,096-byte context and its trailer (R452). -/
def contextRecord (n seq time flowTen slot : Nat) : List Byte :=
  let d := (List.range 4096).map (Config.contextByte n) ++ leBytes 8 seq ++ leBytes 8 time ++ leBytes 2 flowTen ++
    leBytes 1 slot ++ List.replicate 105 0
  d ++ leBytes 4 (crc32c d)

/-- Address of a context slot in an area (R451). -/
def ctxAddr (area k : Nat) : Nat := area + 0x2000000 + 4224 * k

/-- The context slots of a flow: one per partition, and slot 64 for a codec context (R451). -/
def State.ctxSlots (s : State) (fe : FlowEntry) : List Nat :=
  List.range fe.partitions ++ (if (s.forme.codecs.any (fun c => c.flow == fe.flow)) then [64] else [])

/-- The areas that hold the contexts of a flow: A every context, B those of protected flows (R450). -/
def State.ctxAreas (s : State) (fe : FlowEntry) : List (Nat × Bool) :=
  s.ckptAreas.1.toList.map (fun a => (a, false)) ++ (if fe.protected_ then s.ckptAreas.2.toList.map (fun a => (a, true)) else [])

/-- The context copies of the flow that a boundary writes: (slot, area base, whether area B). -/
def State.ctxCopies (s : State) (fe : FlowEntry) : List (Nat × Nat × Bool) :=
  (s.ctxSlots fe).flatMap (fun k => (s.ctxAreas fe).map (fun a => (k, a.1, a.2)))

/-- Write one copy of one context. -/
def State.writeCtx (s : State) (fe : FlowEntry) (task seq : Nat) (c : Nat × Nat × Bool) : State :=
  let (n, s) := s.nextFree
  s.issueWrite (ctxAddr c.2.1 (65 * fe.flow + c.1))
    (contextRecord n seq s.now (fe.flow + 4096 * fe.ten) c.1) (.checkpoint fe.flow c.1 c.2.2 task)

/-- The checkpoints of a task boundary of a flow (R452): SEQ rises, and the record goes into every area that holds the
context. The saved list keeps what the home copies will hold. -/
def State.checkpoint (s : State) (fe : FlowEntry) (task : Nat) : State :=
  let r := s.run fe.flow
  let seq := r.ckptSeq + 1
  let copies := s.ctxCopies fe
  if copies.isEmpty then s
  else
    let s := s.modRun fe.flow (fun r => { r with ckptSeq := seq })
    let before := s.txns.length
    let s := copies.foldl (fun s c => s.writeCtx fe task seq c) s
    let (mine, others) := s.saved.partition (fun x => x.2.flow == fe.flow)
    let s := { s with saved := (seq, { r with ckptSeq := seq }) :: mine.take 3 ++ others }
    s.modTask task (fun t => { t with ckptOut := s.txns.length - before, ckptOk := [], ckptBad := [] })

/-- One write of a checkpoint has been answered; with the last of the boundary, the contexts whose copies failed are
known (R454). A boundary that left some context without a whole copy is forgotten: a restore takes the one before.
`copy`: the slot, plus 128 for area B. -/
def State.ckptAnswered (s : State) (task flow copy : Nat) (ok : Bool) : State :=
  let s := s.modTask task (fun t => { t with
    ckptOut := t.ckptOut - 1, ckptOk := if ok then copy :: t.ckptOk else t.ckptOk,
    ckptBad := if ok then t.ckptBad else copy :: t.ckptBad })
  match s.task? task with
  | none => s
  | some t =>
    if t.ckptOut ≠ 0 then s
    else
      let good := t.ckptOk.filter (fun k => !t.ckptBad.contains k)
      let bad := (t.ckptBad.map (· % 128)).eraseDups
      let lost := bad.filter (fun k => !good.any (fun c => c % 128 == k))
      let s := s.modRun flow (fun r => { r with degraded := bad, older := lost })
      if lost.isEmpty then s
      else
        let seq := (s.run flow).ckptSeq
        { s with saved := s.saved.filter (fun x => !(x.2.flow == flow && x.1 == seq)) }

/-! ### The end of a task -/

/-- Remove a task's transactions that are still reads: their data are discarded. -/
def Purpose.taskOf : Purpose → Option Nat
  | .descriptor t _ _ => some t
  | .source t _ => some t
  | .dest t _ => some t
  | _ => none

/-- Drop a draining ring whose last task is gone: its record's STATE becomes 0 (R129). -/
def State.ringRecordAddr (s : State) (r : SqRing) : Nat :=
  (s.fld (F.TEN_SQ_TABLE_ADDR r.ten)) / 32 * 32 + 32 * (r.ring - (s.tenEntry r.ten).sqFirst)

/-- Record address of a completion ring (R124). -/
def State.cqRecordAddr (s : State) (r : CqRing) : Nat :=
  (s.fld (F.TEN_CQ_TABLE_ADDR r.ten)) / 32 * 32 + 32 * (r.cq - (s.tenEntry r.ten).cqFirst)

/-- Does a task belong to a submission ring? -/
def Task.ofRing (t : Task) (ring : Nat) : Bool := t.origin == .ring ring

/-- A FENCE completes once every earlier entry of its ring has its completion written (R126). -/
def State.openFences (s : State) (ring : Nat) : State :=
  match s.tasks.filter (fun t => t.ofRing ring) with
  | t :: _ => if t.opcode = 2 ∧ t.phase = .waiting then s.modTask t.id (fun t => { t with phase := .ended }) else s
  | [] => s

/-- End the disabling of a draining ring once its last task is gone (R129). -/
def State.closeRing (s : State) (ring : Nat) : State :=
  match s.sq? ring with
  | some r =>
    if r.state = 2 ∧ !(s.tasks.any (fun t => t.ofRing ring)) then
      { s with sqs := s.sqs.filter (fun x => x.ring != ring) }.issueWrite (s.ringRecordAddr r + 24) (leBytes 4 0)
        (.ringRecord ring)
    else s
  | none => s

/-- A task of a stream has completed: the pending task becomes active (R394). -/
def State.releaseStream (s : State) (t : Task) : State :=
  s.modRun t.flow (fun r => { r with dlt := { r.dlt with streams := r.dlt.streams.filterMap (fun x =>
    if x.active = t.id then x.pend.map (fun p => ⟨x.stream, p, none⟩)
    else if x.pend = some t.id then some ⟨x.stream, x.active, none⟩ else some x) } })

/-- A task begins to read the metadata block of a frame buffer: HOLD is set (R235, R259). -/
def State.holdMark (s : State) (id h : Nat) : State :=
  (s.modTask id (fun t => { t with holds := t.holds ++ [h] })).updateMark h 0 none (some true) id

/-- A task no longer reads the metadata blocks that it held. -/
def State.unhold (s : State) (id : Nat) : State :=
  match s.task? id with
  | some t => t.holds.foldl (fun s h => s.updateMark h 0 none (some false) id) (s.modTask id (fun t => { t with holds := [] }))
  | none => s

/-- What a bulk task leaves undone at its station, in the station's work units, counts as offered in the window in which it is
dropped (R105). -/
def State.dropWork (s : State) (t : Task) : State :=
  match s.flow? t.flow with
  | some fe =>
    if fe.deadline ∨ t.stopping then s
    else
      let s := t.work.foldl (fun (s : State) w => s.countWindow (serverStation s.forme w.1) 0 w.2.1) s
      match t.delta with
      | some d => if t.phase = .ready ∧ fe.path.getD t.stage 0 = 9 then s.countWindow 9 0 d.bytesLeft else s
      | none => s
  | none => s

/-- Take a task out of the instance: its blocks return, its journal record is written free unless its entry
awaits its acknowledgement (R455), its ring may end
draining, and a FENCE behind it may complete. -/
def State.retire (s : State) (id : Nat) : State :=
  match s.task? id with
  | none => s
  | some t =>
    let s := (((s.dropWork t).unhold id).freeTask id).releaseStream t
    let s := { s with tasks := s.tasks.filter (fun x => x.id != id), due := s.due.filter (fun d => d.task != some id) }
    let slot := t.id % 4096
    let s := if t.isTask && !s.entryOut slot then s.freeSlotRecord (some slot) else s
    match t.origin with
    | .ring r => (s.openFences r).closeRing r
    | _ => s

/-- Stop a task with a status: its blocks return to their pools, and it awaits its boundary. A task that is already
stopping keeps the status it has (R443). A sample that travels by itself is dropped. -/
def State.stopTask (s : State) (id status : Nat) (invalid : Bool) : State :=
  match s.task? id with
  | none => s
  | some t =>
    if t.stopping then s
    else if t.isTask then
      (((s.dropWork t).unhold id).modTask id (fun t => { t with status := status, invalid := invalid, stopping := true, phase := .ended })).freeTask id
    else s.retire id

/-- A task whose outputs are done: it awaits its boundary, and its stream is free (R394). -/
def State.finishTask (s : State) (id : Nat) : State :=
  match s.task? id with
  | none => s
  | some t =>
    if t.isTask then
      (s.modTask id (fun t => { t with phase := .ended, inPlace := t.inPlace.orElse (fun _ => some s.now) })).releaseStream t
    else s.retire id

/-- Count a late deadline task (R102). -/
def State.countLate (s : State) (t : Task) : State :=
  if t.late then s else
  let s := s.modTask t.id (fun t => { t with late := true })
  let s := (s.incFld (F.LKP_FLOW_B_LATE t.flow)).incFld F.LKP_LATE_TOTAL_COUNT
  s.raiseOn 0x06 (.task t.id)

/-- The last output of a task is in place now; a deadline task past its ready-by time is late (R102). -/
def State.placeOutputs (s : State) (id : Nat) : State :=
  match s.task? id with
  | none => s
  | some t =>
    let s := s.modTask id (fun t => { t with inPlace := some s.now })
    match t.readyBy with
    | some rb => if rb < s.now ∧ t.stopping = false then s.countLate t else s
    | none => s

/-- Count an over-class task (R103). -/
def State.countOverclass (s : State) (flow : Nat) : State := s.incFld (F.LKP_FLOW_B_OVERCLASS flow)

/-- A task has reached its boundary with nothing outstanding. -/
def Task.atBoundary (t : Task) : Bool :=
  t.phase == .ended && t.writesOut == 0 && (t.readsOut == 0 || t.stopping)

/-- The flow ID field of a completion entry's RING word, and the ring or port number (R136). -/
def entryRing (o : Origin) : Nat × Bool × Option (Nat × Nat) :=
  match o with
  | .ring r => (r, false, none)
  | .port p sl => (p, true, some (p, sl))
  | .synth p => (p, true, none)
  | .carrier => (0, true, none)

/-- Descriptors of a streaming task that are finished. -/
def DeltaTask.finished (d : DeltaTask) : Nat :=
  if d.started then
    ((List.range d.descs.length).filter (fun k => !(d.altFetch.contains k) && d.todo.all (fun r => r.1 != k) &&
      d.xfers.all (fun x => x.segs.all (fun r => r.1 != k)))).length
  else 0

/-- DETAIL of a streaming task (R393). -/
def Task.deltaDetail (t : Task) (d : DeltaTask) : BitVec 32 :=
  let slot := match t.origin with | .port _ sl => sl | _ => 0
  BitVec.ofNat 32 (slot % 8 + 2 ^ 3 * min d.finished 255 + 2 ^ 11 * ((d.faultIdx.getD 255) % 256) +
    2 ^ 19 * b2n d.altUsed + 2 ^ 20 * b2n d.staged + 2 ^ 21 * b2n d.staggered)

/-- The due entry of a task (R136). -/
def Task.dueEntry (t : Task) (now : Nat) : DueEntry :=
  let (ring, live, slot) := entryRing t.origin
  { cq := t.cq, ten := t.ten, tag := if live then 0 else t.tag, ring := ring, flow := t.flow,
    sqHead := if live then 0 else t.sqHead, status := t.status, outInvalid := t.invalid, live := live,
    detail := match t.delta with | some d => t.deltaDetail d | none => t.detail, irqNow := t.irqNow, sample := t.sample,
    at_ := now, task := some t.id, slot := if t.bound then slot else none }

/-- The task boundary (R452): its blocks return, its flow's contexts are checkpointed, and its entry is due once every
copy is answered. A repeat that the frame clock synthesised has its entry on its port (R265). -/
def State.taskEnd (s : State) (id : Nat) : State :=
  match s.task? id with
  | none => s
  | some t =>
    if t.atBoundary && !(s.due.any (fun d => d.task == some id)) then
      let s := (s.freeTask id).releaseStream t
      let s := match s.flow? t.flow with
        | some fe => if t.opcode = 1 then s.checkpoint fe id else s
        | none => s
      { s with due := s.due ++ [t.dueEntry s.now] }
    else s

/-! ### Completion entries (R136 to R142) -/

/-- The 32 bytes of a completion entry (R136). -/
def DueEntry.bytes (d : DueEntry) (phase : Bool) (seq : BitVec 32) (time : Nat) : List Byte :=
  let b := leBytes 8 d.tag.toNat ++ leBytes 4 (d.ring % 2 ^ 20 + 2 ^ 20 * d.flow) ++ leBytes 2 d.sqHead ++
    leBytes 1 d.status ++ leBytes 1 (b2n phase + 2 * b2n d.outInvalid + 4 * b2n d.live) ++ leBytes 4 d.detail.toNat ++
    leBytes 4 seq.toNat ++ leBytes 4 (time % 2 ^ 32)
  b ++ leBytes 4 (crc32c b)

/-- Is a completion ring full (R140)? -/
def CqRing.full (c : CqRing) : Bool := (c.tail + 1) % 2 ^ c.log2 == c.head

/-- Send the interrupt of a completion ring once every entry it covers is acknowledged (R138, R142). -/
def State.cqInterrupt (s : State) (cq : Nat) : State :=
  match s.cq? cq with
  | some c =>
    let open_ := s.txns.any (fun t => match t.purpose with | .cqe q _ _ => q == cq | _ => false)
    if c.irqDue && !open_ then
      (s.modCq cq (fun c => { c with irqDue := false, unann := 0, oldest := none })).interrupt c.ten c.vector
    else s
  | none => s

/-- Is the entry ready to be written: are the checkpoints of its task's boundary answered (R452)? -/
def State.entryReady (s : State) (d : DueEntry) : Bool :=
  match d.task with
  | some id => match s.task? id with
    | some t => t.ckptOut == 0
    | none => true
  | none => true

/-- The order of entries: by the moment at which they fell due, and of one moment by flow ID, SAMPLE_INDEX and ring (R138). -/
def DueEntry.key (d : DueEntry) : List Nat := [d.at_, d.flow, d.sample, d.ring]

/-- The next entry for a completion ring, of those ready (R138). -/
def State.nextEntry (s : State) (cq : Nat) : Option DueEntry :=
  leastBy (fun a b : DueEntry => lexLt a.key b.key) (s.due.filter (fun d => d.cq == cq && s.entryReady d))

/-- Is an entry that of a batch (R367)? No live port exceeds 511. -/
def DueEntry.isBatch (d : DueEntry) : Bool := d.task.isNone && decide (0xFF000 ≤ d.ring)

/-- Release a live slot whose entry is written (R188). An entry of a binding that is no more names no slot (R193). -/
def State.releaseSlot (s : State) (x : Option (Nat × Nat)) : State :=
  match x with
  | some (p, sl) => s.modPort p (fun r => { r with busy := r.busy.erase sl })
  | none => s

/-- Write an entry at the tail of its ring. -/
def State.writeEntry (s : State) (c : CqRing) (d : DueEntry) : State :=
  let s := s.issueWrite (c.base + 32 * c.tail) (d.bytes c.phase c.seq s.now) (.cqe c.cq c.tail (d.task.map (· % 4096)))
  let tail := (c.tail + 1) % 2 ^ c.log2
  let s := s.modCq c.cq (fun c =>
    let n := c.unann + 1
    { c with tail := tail, seq := c.seq + 1, holding := false, phase := if tail = 0 then !c.phase else c.phase, unann := n,
             oldest := c.oldest.orElse (fun _ => some s.now),
             irqDue := c.irqDue || d.irqNow || (c.irqCount != 0 && decide (c.irqCount ≤ n)) })
  let s := s.issueWrite (s.cqRecordAddr c + 20) (leBytes 4 tail ++ leBytes 4 (c.seq + 1).toNat) (.ringRecord c.cq)
  (s.cqInterrupt c.cq).releaseSlot d.slot

/-- Remove one due entry. -/
def State.dropDue (s : State) (d : DueEntry) : State := { s with due := s.due.erase d }

/-- Count a deadline task that a full ring held past its ready-by time (R140). -/
def State.lateIfHeld (s : State) (d : DueEntry) : State :=
  match d.task with
  | some id => match s.task? id with
    | some t => match t.readyBy with
      | some rb => if t.heldFull && decide (rb < s.now) then s.countLate t else s
      | none => s
    | none => s
  | none => s

/-- End the task of an entry that has been written or cannot be. -/
def State.endEntry (s : State) (d : DueEntry) : State :=
  match d.task with
  | some id => (s.dropDue d).retire id
  | none => s.dropDue d

/-- A full ring holds the entries that are due on it. CQ_FULL is raised when the holding begins (R140). -/
def State.holdEntries (s : State) (c : CqRing) : State :=
  let s := (s.due.filter (fun d => d.cq == c.cq)).foldl (fun (s : State) d => match d.task with
    | some id => s.modTask id (fun t => { t with heldFull := true })
    | none => s) s
  if c.holding then s
  else ((s.modCq c.cq (fun c => { c with holding := true })).setFld (F.TEN_STATUS_CQ_FULL c.ten) 1).raiseOn 0x05 (Charge.ten c.ten)

/-- Outfall's next completion entry of a ring (R138, R140). On a full ring it is held; on a disabled ring it is not
written, and a batch entry lost so sets CQ_LOST (R135). -/
def State.completionWrite (s : State) (cq : Nat) : State :=
  match s.nextEntry cq with
  | none => s
  | some d =>
    match s.cq? cq with
    | none =>
      let s := if d.isBatch then s.setFld (F.TEN_STATUS_CQ_LOST d.ten) 1 else s
      (s.releaseSlot d.slot).endEntry d
    | some c =>
      if c.full then s.holdEntries c
      else ((s.lateIfHeld d).writeEntry c d).endEntry d

/-- An entry that is due without a task: a live post that did not become one, or a batch (R188, R367). -/
def State.postEntry (s : State) (d : DueEntry) : State := { s with due := s.due ++ [{ d with at_ := s.now }] }

end Sys2Proof.Machine
end

