-- ==== Sys2Proof/Machine/Rings.lean ====
section
/-! DEFINITION. Submission and completion rings, their commands, the record tables and the doorbells (R124 to R142). -/

namespace Sys2Proof.Machine

/-- RESULT of TEN_RING_STATUS (R150). -/
inductive RingResult where
  | done | range | record | window | state | bound | fetch
  deriving DecidableEq, Repr

/-- The code of a result. -/
def RingResult.code : RingResult → Nat
  | .done => 1 | .range => 2 | .record => 3 | .window => 4 | .state => 5 | .bound => 6 | .fetch => 7

/-- Is a ring ID inside the tenancy's submission range? -/
def TenEntry.sqIn (e : TenEntry) (ring : Nat) : Bool := decide (e.sqFirst ≤ ring ∧ ring < e.sqFirst + e.sqCount)

/-- Is a ring ID inside the tenancy's completion range? -/
def TenEntry.cqIn (e : TenEntry) (cq : Nat) : Bool := decide (e.cqFirst ≤ cq ∧ cq < e.cqFirst + e.cqCount)

/-- Record address of a submission ring ID (R124). -/
def State.sqRecord (s : State) (t ring : Nat) : Nat :=
  (s.fld (F.TEN_SQ_TABLE_ADDR t)) / 32 * 32 + 32 * (ring - (s.tenEntry t).sqFirst)

/-- Record address of a completion ring ID (R124). -/
def State.cqRecord (s : State) (t cq : Nat) : Nat :=
  (s.fld (F.TEN_CQ_TABLE_ADDR t)) / 32 * 32 + 32 * (cq - (s.tenEntry t).cqFirst)

/-- Report the result of a ring command. -/
def State.ringResult (s : State) (t ring : Nat) (r : RingResult) : State :=
  s.setFlds [(F.TEN_RING_STATUS_RESULT t, r.code), (F.TEN_RING_STATUS_RING t, ring), (F.TEN_RING_STATUS_BUSY t, 0)]

/-- Are the fields of a ring record's first half well formed (R124, R128)? -/
def recordOk (d : List Byte) : Bool :=
  let log2 := byteAt d 8
  decide (4 ≤ log2 ∧ log2 ≤ 16) && fieldAt d 0 8 % 4096 == 0 && decide (fieldAt d 0 8 < 2 ^ 52) && byteAt d 9 == 0

/-- The record of a submission ring that is being enabled has come: the causes from RECORD on (R128). -/
def State.sqRecordCame (s : State) (t ring : Nat) (d : List Byte) : State :=
  let base := fieldAt d 0 8
  let log2 := byteAt d 8
  let cq := fieldAt d 10 2
  let flow := fieldAt d 12 2
  if !(recordOk d && decide (flow < 4096) && fieldAt d 14 2 == 0 && fieldAt d 28 4 == 0) then s.ringResult t ring .record
  else if !inWindows (s.windows t) true false base (64 * 2 ^ log2) then
    s.ringResult t ring .window
  else if (s.flowOf? t flow).isNone || !(s.cqs.any (fun c => c.cq == cq && c.ten == t)) then
    s.ringResult t ring .bound
  else
    let r : SqRing := { ring := ring, ten := t, base := base, log2 := log2, cq := cq, flow := flow, head := 0,
                        tail := 0, state := 1, bit := false }
    let a := s.sqRecord t ring
    let s := { s with sqs := s.sqs ++ [r] }
    (s.issueWrite (a + 16) (leBytes 4 0 ++ leBytes 4 0 ++ leBytes 4 1) (.ringRecord ring)).ringResult t ring .done

/-- The fetch of a ring record whose answer does not come with the command: a command runs until RD_DATA, or FABRIC_TIMEOUT,
answers it (R128, R510). -/
def State.fetchRecord (s : State) (cq : Bool) (t ring a : Nat) : State :=
  (s.setFlds [(F.TEN_RING_STATUS_BUSY t, 1), (F.TEN_RING_STATUS_RING t, ring)]).issueRead a 32 (.ringEnable cq t ring)

/-- Enabling a submission ring tests its causes in order (R128). -/
def State.sqEnable (s : State) (t ring : Nat) (f : Fetch) : State :=
  let e := s.tenEntry t
  if !e.sqIn ring then s.ringResult t ring .range
  else if (s.sq? ring).isSome then s.ringResult t ring .state
  else
    let a := s.sqRecord t ring
    if !inWindows (s.windows t) true true a 32 then
      s.ringResult t ring .window
    else match fetchBytes f a 32 with
      | none => if noAnswer f a 32 then s.fetchRecord false t ring a
          else (s.fetchFail f a 32 (Charge.ten t) 0).ringResult t ring .fetch
      | some d => s.sqRecordCame t ring d

/-- Disabling a submission ring sets it draining; with no task in flight it is disabled at once (R129). -/
def State.sqDisable (s : State) (t ring : Nat) : State :=
  if !(s.tenEntry t).sqIn ring then s.ringResult t ring .range
  else match s.sq? ring with
    | none => s.ringResult t ring .state
    | some r =>
      if r.state = 2 then s.ringResult t ring .state
      else
        let s := s.modSq ring (fun r => { r with state := 2, bit := false })
        let s := s.issueWrite (s.sqRecord t ring + 24) (leBytes 4 2) (.ringRecord ring)
        (s.closeRing ring).ringResult t ring .done

/-- The record of a completion ring that is being enabled has come: the causes from RECORD on (R128, R135). -/
def State.cqRecordCame (s : State) (t ring : Nat) (d : List Byte) : State :=
  let base := fieldAt d 0 8
  let log2 := byteAt d 8
  if !(recordOk d && decide (fieldAt d 10 2 < (s.tenEntry t).msiVectors)) then s.ringResult t ring .record
  else if !inWindows (s.windows t) false true base (32 * 2 ^ log2) then
    s.ringResult t ring .window
  else
    let c : CqRing := { cq := ring, ten := t, base := base, log2 := log2, vector := fieldAt d 10 2,
                        irqCount := fieldAt d 12 2, irqDelay := fieldAt d 14 2, head := 0, tail := 0, seq := 0,
                        phase := true, unann := 0, oldest := none, irqDue := false, holding := false }
    let a := s.cqRecord t ring
    let s := { s with cqs := s.cqs ++ [c] }
    (s.issueWrite (a + 16) (leBytes 12 0 ++ leBytes 4 1) (.ringRecord ring)).ringResult t ring .done

/-- Enabling a completion ring tests its causes in order (R128, R135). -/
def State.cqEnable (s : State) (t ring : Nat) (f : Fetch) : State :=
  let e := s.tenEntry t
  if !e.cqIn ring then s.ringResult t ring .range
  else if (s.cq? ring).isSome then s.ringResult t ring .state
  else
    let a := s.cqRecord t ring
    if !inWindows (s.windows t) true true a 32 then
      s.ringResult t ring .window
    else match fetchBytes f a 32 with
      | none => if noAnswer f a 32 then s.fetchRecord true t ring a
          else (s.fetchFail f a 32 (Charge.ten t) 0).ringResult t ring .fetch
      | some d => s.cqRecordCame t ring d

/-- The record of a ring that is being enabled has come by RD_DATA (R128). A quoin point meanwhile can have moved the tenancy's
range. -/
def State.gotRecord (s : State) (cq : Bool) (t ring : Nat) (d : List Byte) : State :=
  if cq then (if (s.tenEntry t).cqIn ring then s.cqRecordCame t ring d else s.ringResult t ring .range)
  else if (s.tenEntry t).sqIn ring then s.sqRecordCame t ring d else s.ringResult t ring .range

/-- The fetch of a ring record failed: RESULT FETCH, and FABRIC_RESP charged to the tenancy (R128). -/
def State.lostRecord (s : State) (t ring a : Nat) : State :=
  (s.raise 0x2B { FaultInfo.of (Charge.ten t) with addr := a, access := 1 }).ringResult t ring .fetch

/-- Does a task in flight, other than a sample of its own, have its entry due on a completion ring? -/
def State.entryDueOn (s : State) (cq : Nat) : Bool :=
  s.tasks.any (fun t => t.isTask && t.cq == cq) || s.due.any (fun d => d.cq == cq && d.task.isSome)

/-- Does a live port whose binding names the ring have a post pending or a slot busy (R135)? -/
def State.portUses (s : State) (cq : Nat) : Bool :=
  s.ports.any (fun p => (!p.pending.isEmpty || !p.busy.isEmpty) &&
    (match s.portFlow? p.port with | some (_, b) => b.cq == cq | none => false))

/-- Is an entry held for a completion ring, because the ring is full (R140)? -/
def State.cqHolds (s : State) (cq : Nat) : Bool :=
  (match s.cq? cq with | some c => c.full | none => false) && s.due.any (fun d => d.cq == cq)

/-- Is anything still using a completion ring (R135)? -/
def State.cqBound (s : State) (cq : Nat) : Bool :=
  s.sqs.any (fun r => r.cq == cq) || s.due.any (fun d => d.cq == cq && (d.task.isSome || d.slot.isSome)) ||
    s.portUses cq || s.entryDueOn cq || s.cqHolds cq

/-- Disabling a completion ring (R135). -/
def State.cqDisable (s : State) (t ring : Nat) : State :=
  if !(s.tenEntry t).cqIn ring then s.ringResult t ring .range
  else if (s.cq? ring).isNone then s.ringResult t ring .state
  else if s.cqBound ring then s.ringResult t ring .bound
  else
    let s := { s with cqs := s.cqs.filter (fun c => c.cq != ring) }
    (s.issueWrite (s.cqRecord t ring + 28) (leBytes 4 0) (.ringRecord ring)).ringResult t ring .done

/-- A write of TEN_RING_CMD (R128, R129, R135). -/
def State.ringCommand (s : State) (t : Nat) (v : Word) (f : Fetch) : State :=
  let ring := getBits v 8 20
  let op := getBits v 1 2
  if op = 0 ∨ op = 3 then s
  else if s.flag (F.TEN_RING_STATUS_BUSY t) then s.setFld (F.TEN_RING_STATUS_OVERRUN t) 1
  else if getBits v 0 1 = 0 then (if op = 1 then s.sqEnable t ring f else s.sqDisable t ring)
  else if op = 1 then s.cqEnable t ring f else s.cqDisable t ring

/-- The word of TEN_RING_CMD for a command (R150). -/
def ringCmdWord (kind op ring : Nat) : Word := putBits (putBits (putBits 0 0 1 kind) 1 2 op) 8 20 ring

/-- A write of TEN_SQ_TABLE while no submission ring of the tenancy is enabled or draining (R129); bits [4:0] read 0. -/
def State.sqTable (s : State) (r : CsReq) (t : Nat) (v : Word) : State :=
  if s.sqs.any (fun x => x.ten == t) then s.logAccess r (pageOff t Row.TEN_SQ_TABLE)
  else s.setFld (F.TEN_SQ_TABLE_ADDR t) (getBits v 0 52 / 32 * 32)

/-- A write of TEN_CQ_TABLE while no completion ring of the tenancy is enabled (R129). -/
def State.cqTable (s : State) (r : CsReq) (t : Nat) (v : Word) : State :=
  if s.cqs.any (fun x => x.ten == t) then s.logAccess r (pageOff t Row.TEN_CQ_TABLE)
  else s.setFld (F.TEN_CQ_TABLE_ADDR t) (getBits v 0 52 / 32 * 32)

/-- A doorbell push that fails: its counter rises, DB_ERROR is set and DOORBELL is logged (R130). -/
def State.badPush (s : State) (t : Nat) (counter : Field) : State :=
  ((s.incFld counter).setFld (F.TEN_STATUS_DB_ERROR t) 1).raiseOn 0x04 (Charge.ten t)

/-- Handle a push of (ring, tail) (R130). -/
def State.doorbellPush (s : State) (t : Nat) (v : Word) : State :=
  let ring := getBits v 0 20
  let tail := getBits v 20 16
  if !(s.tenEntry t).sqIn ring then s.badPush t (F.TEN_DB_ERRORS_BAD_RING t)
  else match s.sq? ring with
    | none => s.badPush t (F.TEN_DB_ERRORS_DISABLED_RING t)
    | some r =>
      if r.state ≠ 1 then s.badPush t (F.TEN_DB_ERRORS_DISABLED_RING t)
      else if 2 ^ r.log2 ≤ tail then s.badPush t (F.TEN_DB_ERRORS_BAD_TAIL t)
      else
        let s := s.modSq ring (fun r => { r with tail := tail, bit := true })
        s.issueWrite (s.sqRecord t ring + 20) (leBytes 4 tail) (.ringRecord ring)

/-- A push of (completion ring, head) (R141): it returns entries, and held entries can be written again (R140). -/
def State.cqDoorbellPush (s : State) (t : Nat) (v : Word) : State :=
  let ring := getBits v 0 16
  let head := getBits v 16 16
  if !(s.tenEntry t).cqIn ring then s.badPush t (F.TEN_DB_ERRORS_BAD_CQ_HEAD t)
  else match s.cq? ring with
    | none => s.badPush t (F.TEN_DB_ERRORS_BAD_CQ_HEAD t)
    | some c =>
      if 2 ^ c.log2 ≤ head then s.badPush t (F.TEN_DB_ERRORS_BAD_CQ_HEAD t)
      else
        let s := s.modCq ring (fun c => { c with head := head })
        s.issueWrite (s.cqRecord t ring + 16) (leBytes 4 head) (.ringRecord ring)

/-! ### The push queues (R132) -/

/-- The push queue of a tenancy. -/
def State.tenRun (s : State) (t : Nat) : TenRun := s.tens.getD t ⟨[], []⟩

/-- Change the push queue of a tenancy. -/
def State.modTen (s : State) (t : Nat) (g : TenRun → TenRun) : State :=
  { s with tens := s.tens.mapIdx (fun i x => if i = t then g x else x) }

/-- Is the tenancy's push queue full, so that its writes to its own page stall? -/
def State.stalls (s : State) (t : Nat) : Bool := decide (256 ≤ (s.tenRun t).pushes.length)

/-- Enter a push at the end of the queue. -/
def State.enqueue (s : State) (r : CsReq) (t off : Nat) (v : Word) (die : Bool) : State :=
  s.modTen t (fun x => { x with pushes := x.pushes ++ [⟨r, off, v, s.now, die⟩] })

/-- The tenancy whose push is drained next, from the rotating position. -/
def State.nextPusher (s : State) : Option Nat :=
  ((List.range 16).map (fun i => (s.pushRot + i) % 16)).find? (fun t => !(s.tenRun t).pushes.isEmpty)

/-- The oldest unannounced entry of a completion ring has waited IRQ_DELAY_US (R142). With nothing unannounced, no
moment is due. -/
def State.irqDelayExpire (s : State) (cq : Nat) : State :=
  match s.cq? cq with
  | some c => match c.oldest with
    | some t0 =>
      if c.irqDelay ≠ 0 ∧ c.irqCount ≠ 0 then
        ((s.advance (t0 + c.irqDelay * 1000)).modCq cq (fun c => { c with irqDue := true })).cqInterrupt cq
      else s
    | none => s
  | none => s

end Sys2Proof.Machine
end

