-- ==== Sys2Proof/Machine/Live.lean ====
section
/-! DEFINITION. Live ports: pushes, kept parts, the slot of a post, and the freshness check (R184 to R193, R215). -/

namespace Sys2Proof.Machine

/-- A live slot whose fields pass R186: its flags byte, CAPTURE_NS, parts as (address, length), and KEEP by part. -/
structure SlotRec where
  flags   : Nat
  capture : Nat
  parts   : List (Nat × Nat)
  keep    : Nat
  deriving DecidableEq, Repr

/-- Address of a slot in the tenancy's live table (R185). -/
def State.slotAddr (s : State) (t p sl : Nat) : Nat :=
  s.fld (F.TEN_LIVE_TABLE_ADDR t) / 512 * 512 + 512 * p + 64 * sl

/-- The parts that a slot names. -/
def slotParts (d : List Byte) : List (Nat × Nat) :=
  (List.range (byteAt d 5 % 8)).map (fun i => (fieldAt d (16 + 8 * i) 8, fieldAt d (48 + 4 * i) 4))

/-- Check a slot under R186 against windows. -/
def parseSlot (ws : List Window) (d : List Byte) : Option SlotRec :=
  let n := byteAt d 5 % 8
  let parts := slotParts d
  let unused := (List.range 4).filter (fun i => decide (n ≤ i))
  let ok := decide (1 ≤ n ∧ n ≤ 4) && decide (byteAt d 4 < 2) && bit (byteAt d 5) 3 == false &&
    fieldAt d 6 2 == 0 && parts.all (fun p => decide (1 ≤ p.2 ∧ p.2 ≤ 16777216 ∧ p.1 < 2 ^ 52)) &&
    unused.all (fun i => decide (fieldAt d (16 + 8 * i) 8 < 2 ^ 52)) &&
    parts.all (fun p => inWindows ws true false p.1 p.2)
  if ok then some ⟨byteAt d 4, fieldAt d 8 8, parts, byteAt d 5 / 16⟩ else none

/-- An entry of a port for a post that did not become a task (R188). -/
def liveEntry (fe : FlowEntry) (b : LiveBinding) (sl status : Nat) : DueEntry :=
  { cq := b.cq, ten := fe.ten, tag := 0, ring := b.port, flow := fe.flow, sqHead := 0, status := status,
    outInvalid := statusInvalid status, live := true, detail := BitVec.ofNat 32 (sl % 8), irqNow := false, sample := 0,
    at_ := 0, task := none, slot := some (b.port, sl) }

/-- Bytes in a carry buffer. -/
def carryBytes (l : List (List Byte)) : Nat := sumBy List.length l

/-- Discard whole carried parts, oldest first, until n more bytes fit; answers what is left and how many were lost
(R189). -/
def trimCarry (n : Nat) : List (List Byte) → List (List Byte) × Nat
  | [] => ([], 0)
  | x :: rest =>
    if carryBytes (x :: rest) + n ≤ 4096 then (x :: rest, 0)
    else let r := trimCarry n rest; (r.1, r.2 + 1)

/-- Copy one KEEP part into the carry buffer of a port (R189). -/
def State.carryPart (s : State) (t p : Nat) (d : List Byte) : State :=
  if 4096 < d.length then s.incFld (F.TEN_LIVE_STATUS_KEEP_LOST t)
  else
    let old := ((s.port? p).map (·.carry)).getD []
    let (kept, lost) := trimCarry d.length old
    (s.modPort p (fun r => { r with carry := kept ++ [d] })).addFld (F.TEN_LIVE_STATUS_KEEP_LOST t) lost

/-- The KEEP parts of a slot, as (address, length). A part above 4,096 bytes is never read for the carry buffer. -/
def SlotRec.keepParts (r : SlotRec) : List (Nat × Nat) :=
  (r.parts.mapIdx (fun i p => (i, p))).filterMap (fun q => if bit r.keep q.1 then some q.2 else none)

/-- Read KEEP parts and carry them (R189). An error response raises FABRIC_RESP, and the part is not carried (R510). -/
def State.carryParts (s : State) (t p : Nat) (f : Fetch) (parts : List (Nat × Nat)) : State :=
  parts.foldl (fun s q =>
    if 4096 < q.2 then s.incFld (F.TEN_LIVE_STATUS_KEEP_LOST t)
    else match fetchBytes f q.1 q.2 with
      | some d => s.carryPart t p d
      | none => s.fetchFail f q.1 q.2 (Charge.ten t) 1) s

/-- Does Headwater ignore the KEEP bits of a flow's posts (R189, R263)? -/
def State.keepIgnored (s : State) (fe : FlowEntry) : Bool :=
  (s.enc? fe.flow).isSome || fe.streaming

/-- The place of the control part of an encode post (R262): after the hint plane when HINTS is set. -/
def EncEntry.ctlIndex (e : EncEntry) : Nat := if bit e.flags 0 then 2 else 1

/-- A control part: its flags and new rate, when it has 64 bytes, no reserved bit set, and a rate that keeps rule 8 of
R258 (R262, R263). -/
def parseControl (e : EncEntry) (period : Nat) (d : List Byte) : Option PendCtl :=
  let fl := fieldAt d 0 4
  let rate := fieldAt d 4 4
  let inc := 1000 * rate * period / 10 ^ 9
  if d.length ≠ 64 ∨ 8 ≤ fl ∨ !allZero (d.drop 8) then none
  else if bit fl 2 && !(decide (inc ≤ 1000 * e.bufKbits) && decide (8 * e.rmin false ≤ inc)) then none
  else some ⟨bit fl 0, bit fl 1, if bit fl 2 then some rate else none⟩

/-- Flags of a later control added to earlier ones (R264). -/
def PendCtl.add (a b : PendCtl) : PendCtl := ⟨a.forceKey || b.forceKey, a.repeat_ || b.repeat_, b.newRate.orElse (fun _ => a.newRate)⟩

/-- Add the control of an encode post that never becomes a frame to the port's pending control (R264). A post without a
readable, well-formed control part adds nothing. -/
def State.carryControl (s : State) (fe : FlowEntry) (e : EncEntry) (p sl : Nat) (f : Fetch) : State :=
  match fetchBytes f (s.slotAddr fe.ten p sl) 64 with
  | none => s.fetchFail f (s.slotAddr fe.ten p sl) 64 (Charge.ten fe.ten) 1
  | some d => match parseSlot (s.windows fe.ten) d with
    | none => s
    | some r => match r.parts[e.ctlIndex]? with
      | none => s
      | some q => match fetchBytes f q.1 q.2 with
        | none => s.fetchFail f q.1 q.2 (Charge.ten fe.ten) 1
        | some c => match parseControl e fe.periodNs c with
          | none => s
          | some k => s.modRun fe.flow (fun r => { r with enc := { r.enc with ctl := r.enc.ctl.add k } })

/-- The first push to an encode flow's port after the quoin point sets the clock origin T0 (R265). -/
def State.setClock (s : State) (fe : FlowEntry) (tArr : Nat) : State :=
  match s.enc? fe.flow with
  | some e => s.modRun fe.flow (fun r => { r with enc := { r.enc with t0 := r.enc.t0.orElse (fun _ => some (tArr + e.startOff)) } })
  | none => s

/-- Carry the KEEP parts of a pending post that is superseded: its slot is read and checked first (R189). -/
def State.carryKeep (s : State) (fe : FlowEntry) (p sl : Nat) (f : Fetch) : State :=
  match s.enc? fe.flow with
  | some e => s.carryControl fe e p sl f
  | none =>
  if s.keepIgnored fe then s
  else match fetchBytes f (s.slotAddr fe.ten p sl) 64 with
    | none => s.fetchFail f (s.slotAddr fe.ten p sl) 64 (Charge.ten fe.ten) 1
    | some d => match parseSlot (s.windows fe.ten) d with
      | none => s
      | some r => s.carryParts fe.ten p f r.keepParts

/-- Handle a push of (port, slot) (R187). -/
def State.livePushed (s : State) (t p sl tArr : Nat) (die : Bool) (f : Fetch) : State :=
  match s.portFlow? p, s.port? p with
  | some (fe, b), some r =>
    if fe.ten ≠ t ∨ (s.cq? b.cq).isNone ∨ (die ∧ !b.diePost) then s.incFld (F.TEN_LIVE_STATUS_BAD_PORT t)
    else if r.busy.contains sl then s.incFld (F.TEN_LIVE_STATUS_SLOT_BUSY t)
    else
      let s := (s.modPort p (fun r => { r with busy := r.busy ++ [sl] })).setClock fe tArr
      if r.pending.length = b.qdepth then
        if b.supersede then
          match r.pending with
          | [] => s
          | old :: rest =>
            let s := s.modPort p (fun r => { r with pending := rest })
            let s := (s.carryKeep fe p old.slot f).incFld F.STN_HW_COUNT_A_SUPERSEDED
            let s := s.postEntry (liveEntry fe b old.slot 0x11)
            s.modPort p (fun r => { r with pending := r.pending ++ [⟨sl, tArr⟩] })
        else
          ((s.incFld F.STN_HW_COUNT_B_PORT_FULL).incFld (F.TEN_LIVE_STATUS_PORT_FULL t)).postEntry
            (liveEntry fe b sl 0x13)
      else s.modPort p (fun r => { r with pending := r.pending ++ [⟨sl, tArr⟩] })
  | _, _ => s.incFld (F.TEN_LIVE_STATUS_BAD_PORT t)

/-- A write of TEN_LIVE_TABLE while no port of the tenancy has a post pending or a busy slot (R215); bits [8:0] read
0. -/
def State.liveTable (s : State) (r : CsReq) (t : Nat) (v : Word) : State :=
  let used := s.ports.any (fun p => (!p.pending.isEmpty || !p.busy.isEmpty) &&
    (match s.portFlow? p.port with | some (fe, _) => fe.ten == t | none => false))
  if used then s.logAccess r (pageOff t Row.TEN_LIVE_TABLE)
  else s.setFld (F.TEN_LIVE_TABLE_ADDR t) (getBits v 0 52 / 512 * 512)

/-- An entry for a post that an event of R193 discards: its slot is no longer busy. -/
def discardedEntry (fe : FlowEntry) (b : LiveBinding) (sl : Nat) : DueEntry := { liveEntry fe b sl 0x31 with slot := none }

/-- A port's binding ends: no entry still to be written names a slot of it (R193). -/
def State.unbindPort (s : State) (p : Nat) : State :=
  { s with
    due := s.due.map (fun d => if d.slot.any (fun x => x.1 == p) then { d with slot := none } else d),
    tasks := s.tasks.map (fun t => match t.origin with
      | .port q _ => if q = p then { t with bound := false } else t
      | _ => t) }

/-- A live port with nothing pending. -/
def PortRun.fresh (p : Nat) : PortRun :=
  { port := p, busy := [], pending := [], carry := [], lastAge := 0 }

/-- Pending posts and carry buffers at a full lock-up's quoin (R193): kept where the new forme binds the port to the same
flow and tenancy, else each post completes with ABORTED_HOST. Answers the ports of the new forme; `old` is the forme
before. Slots whose entries are not yet written stay busy. -/
def State.quoinPorts (s : State) (old : Forme) : State :=
  let bound (f : Forme) (p : Nat) : Option (FlowEntry × LiveBinding) :=
    f.flows.findSome? (fun x => match x.live with | some b => if b.port == p then some (x, b) else none | none => none)
  let same (p : Nat) : Bool := match bound old p, bound s.forme p with
    | some (a, _), some (b, _) => a.flow == b.flow && a.ten == b.ten
    | _, _ => false
  let s := s.ports.foldl (fun s r =>
    if same r.port then s
    else match bound old r.port with
      | some (fe, b) => r.pending.foldl (fun (s : State) (q : Post) => s.postEntry (discardedEntry fe b q.slot)) (s.unbindPort r.port)
      | none => s) s
  let fresh := s.forme.flows.filterMap (fun x => x.live.map (fun b =>
    match s.ports.find? (fun r => r.port == b.port && same r.port) with
    | some r => r
    | none => PortRun.fresh b.port))
  { s with ports := fresh }

/-- The posts of a removed flow complete with ABORTED_HOST, and its port is unbound (R193). -/
def State.dropPort (s : State) (fe : FlowEntry) : State :=
  match fe.live with
  | none => s
  | some b =>
    let s : State := match s.port? b.port with
      | some r => r.pending.foldl (fun (s : State) (q : Post) => s.postEntry (discardedEntry fe b q.slot)) (s.unbindPort b.port)
      | none => s
    { s with ports := s.ports.filter (fun r => r.port != b.port) }

end Sys2Proof.Machine
end

