-- ==== Sys2Proof/Machine/GalleyCalc.lean ====
section
/-! DEFINITION. What Galley computes: slugs, token drop, row status entries, batch images, next-fit placement and the
choice of a substitute (R354 to R360, R364). -/

namespace Sys2Proof.Machine

/-- The RFL_EPOCH value of a flow (R325). -/
def State.epochOf (s : State) (f : Nat) : Nat := s.fld (F.RFL_EPOCH_EPOCH f)

/-- The Riffle source of a flow's draws in an epoch (R320, R327). -/
def State.rflSource (s : State) (fe : FlowEntry) (epoch : Nat) : RflSource :=
  match s.riffle? fe.flow with
  | some r =>
    { seed := r.seed.toNat, flow := fe.flow, epoch := epoch, stateful := r.mode == 1,
      table := if r.normal = 1 then
          (s.forme.tables.find? (fun t => t.addr == r.tableAddr && t.crc == r.tableCrc)).map (·.values) else none,
      partitions := fe.partitions }
  | none => { seed := 0, flow := fe.flow, epoch := epoch, stateful := false, table := none, partitions := fe.partitions }

/-- Bytes padded with zeros, or cut, to a length. -/
def padTo (n : Nat) (d : List Byte) : List Byte := (d ++ List.replicate (n - d.length) 0).take n

/-- u32 tokens as bytes. -/
def tokenBytes (l : List Nat) : List Byte := l.flatMap (leBytes 4)

/-- The data of one side-output group in a slug: head and padded data (R358). -/
def sideBytesOf (o : SideOut) : List Byte :=
  leBytes 2 o.channelBase ++ leBytes 1 o.format ++ leBytes 1 o.channels ++ leBytes 2 o.w ++ leBytes 2 o.h ++ leBytes 8 0 ++
    padTo (roundUp o.data.length 16) o.data

/-- Side outputs of a sample in ascending CHANNEL_BASE. -/
def sideImage (l : List SideOut) : List Byte := (sortBy (fun o => [o.channelBase]) l).flatMap sideBytesOf

/-- TOKEN_DROP on a sample's tokens (R360). -/
def dropTokens (fe : FlowEntry) (g : GalleySettings) (src : RflSource) (sample : Nat) (toks : List Nat) : List Nat :=
  if g.tokenDrop then
    toks.mapIdx (fun t x =>
      let fixed := match fe.text with | some ts => x == ts.bosId || x == ts.eosId | none => false
      if !fixed && bernoulli (src.share 3 sample t) g.pDrop then g.maskId else x)
  else toks

/-- A TENSOR slug (R358). -/
def tensorSlug (fe : FlowEntry) (g : GalleySettings) (x : Sample) (toks : List Nat) : List Byte :=
  padTo (r64 fe.tensorLen) (x.tensor.getD []) ++
    padTo (r64 (4 * g.slugTokens)) (tokenBytes (toks ++ List.replicate (g.slugTokens - toks.length) g.padId)) ++
    padTo (r64 g.auxBytes) x.aux ++ padTo g.sideBytes (sideImage x.side)

/-- Status of a sample as Galley finds it, and whether an ID failed the check of R358. -/
def galleyStatus (g : GalleySettings) (x : Sample) : Nat × Bool :=
  if x.status ≠ 0 then (x.status, false)
  else if x.overcls then (0x21, false)
  else if (x.tokens.getD []).any (fun t => decide (g.vocabLimit ≤ t)) then (0x20, true)
  else if g.auxBytes < x.aux.length ∨ g.sideBytes < (sideImage x.side).length then (0x20, false)
  else (0, false)

/-- The row of a sample: its status entry, its slug for TENSOR, and its tokens (R357 to R360). -/
def rowOf (fe : FlowEntry) (g : GalleySettings) (src : RflSource) (x : Sample) (task : Option Nat) : RowRun × List Nat :=
  let (st, _) := galleyStatus g x
  let all := x.tokens.getD []
  let toks := if st = 0 then dropTokens fe g src x.index (all.take g.slugTokens) else []
  let flags := if st = 0 ∧ g.slugTokens < all.length then 0x10 else 0
  ({ flow := fe.flow, ten := fe.ten, status := st, flags := flags, logical := x.index, tokens := toks.length,
     auxLen := if st = 0 ∧ g.kind = 0 then x.aux.length else 0, recordId := x.recordId, subIndex := 0,
     slug := if st = 0 ∧ g.kind = 0 then tensorSlug fe g x toks else [], task := task, epoch := src.epoch, pool := none },
   toks)

/-- A vacant row (R362). -/
def RowRun.vacant : RowRun :=
  { flow := 0, ten := 0, status := 0x15, flags := 0x06, logical := 0, tokens := 0, auxLen := 0, recordId := 0,
    subIndex := 0, slug := [], task := none, epoch := 0, pool := none }

/-- Is a row masked? -/
def RowRun.masked (r : RowRun) : Bool := bit r.flags 1

/-- Is a row substituted? -/
def RowRun.subst (r : RowRun) : Bool := bit r.flags 0

/-- Bytes of a row status entry (R357). -/
def rowBytes (r : RowRun) (segs : Nat) : List Byte :=
  leBytes 2 (r.flow + 4096 * r.ten) ++ leBytes 1 r.status ++ leBytes 1 r.flags ++ leBytes 6 r.logical ++
    leBytes 2 r.tokens ++ leBytes 2 r.auxLen ++ leBytes 2 segs ++ leBytes 8 r.recordId ++ leBytes 6 r.subIndex ++
    leBytes 1 (r.tokens / 65536 % 2) ++ leBytes 1 0

/-- What the header of a batch image says besides its rows (R356). -/
structure BatchHead where
  flow    : Nat
  ten     : Nat
  batch   : Nat
  policy  : Nat
  group   : Option Nat
  joins   : Nat
  deferred : Nat
  time    : Nat
  deriving DecidableEq, Repr

/-- The batch image (R356) of rows with their segment counts and slugs. -/
def batchImage (fe : FlowEntry) (g : GalleySettings) (h : BatchHead) (rows : List (RowRun × Nat × List Byte)) : List Byte :=
  let sb := slugSize fe g
  let maskOff := 64 + 32 * g.rows
  let count (p : RowRun → Bool) : Nat := (rows.filter (fun r => p r.1)).length
  let head := leBytes 4 0x31424748 ++ leBytes 2 (h.flow + 4096 * h.ten) ++ leBytes 2 g.rows ++ leBytes 8 h.batch ++
    leBytes 2 (count RowRun.subst) ++ leBytes 2 (count RowRun.masked) ++ leBytes 1 h.policy ++
    leBytes 1 (b2n h.group.isSome + 2 * g.kind) ++ leBytes 2 (h.group.getD 0) ++ leBytes 4 (slugOffset g) ++
    leBytes 4 sb ++ leBytes 4 maskOff ++ leBytes 2 h.joins ++ leBytes 2 h.deferred ++ leBytes 8 h.time ++ leBytes 12 0
  let masks := (List.range (ceilDiv g.rows 64)).flatMap (fun w =>
    leBytes 8 (((rows.drop (64 * w)).take 64).foldr (fun r a => 2 * a + b2n r.1.masked) 0))
  padTo (slugOffset g) (head ++ leBytes 4 (crc32c head) ++ rows.flatMap (fun r => rowBytes r.1 r.2.1) ++ masks) ++
    rows.flatMap (fun r => padTo sb r.2.2)

/-- A PACKED slug (R359) from the segments of one row. -/
def packedSlug (g : GalleySettings) (segs : List SegRun) : List Byte :=
  let n := segs.length
  let tokAt (t : Nat) : Nat := match segs.find? (fun x => decide (x.pos ≤ t ∧ t < x.pos + x.len)) with
    | some x => x.toks.getD (t - x.pos) g.padId
    | none => g.padId
  let idAt (t : Nat) : Nat := match (List.range n).find? (fun k => match segs[k]? with
      | some x => decide (x.pos ≤ t ∧ t < x.pos + x.len) | none => false) with
    | some k => k + 1
    | none => 0
  padTo (r64 (4 * g.slugTokens)) ((List.range g.slugTokens).flatMap (fun t => leBytes 4 (tokAt t))) ++
    padTo (r64 (2 * g.slugTokens)) ((List.range g.slugTokens).flatMap (fun t => leBytes 2 (idAt t))) ++
    padTo (16 * g.maxSegs) (segs.flatMap (fun x =>
      leBytes 6 x.run.logical ++ leBytes 1 x.run.status ++ leBytes 1 x.run.flags ++ leBytes 8 x.run.recordId))

/-- Next fit of L tokens (R359): the new place (row, pos, segs before it), and whether the batch closes first. -/
def nextFit (g : GalleySettings) (at_ : Nat × Nat × Nat) (len : Nat) : Nat × Nat × Nat × Bool :=
  let (row, pos, segs) := at_
  let p := roundUp pos (max 1 g.align)
  if segs = 0 ∨ g.slugTokens < p + len ∨ segs = g.maxSegs then
    let row' := if segs = 0 then row else row + 1
    if row' = g.rows then (0, 0, 0, true) else (row', 0, 0, false)
  else (row, p, segs, false)

/-- The reserve entry that a batch's k-th substitution takes (R364). -/
def pickReserve (g : GalleySettings) (src : RflSource) (reserve : List RowRun) (k logical : Nat) : Option RowRun :=
  let n := reserve.length
  if n = 0 then none
  else if g.oversetRandom then reserve[src.draw 4 logical 0 % 2 ^ 32 * n / 2 ^ 32]?
  else reserve[k % n]?

/-- Put a reserve entry into a corrupt row (R363). -/
def RowRun.substitute (r e : RowRun) (extra : Nat) : RowRun :=
  { r with flags := r.flags ||| 1 ||| extra, subIndex := e.logical, recordId := e.recordId, tokens := e.tokens,
           auxLen := e.auxLen, slug := e.slug }

/-- Zero-fill and mask a row. -/
def RowRun.mask (r : RowRun) (extra : Nat) : RowRun :=
  { r with flags := r.flags ||| 2 ||| extra, tokens := 0, auxLen := 0, slug := [] }

/-- Apply the flow's policy to the TENSOR rows of a closing batch, in row order (R363, R364); `k` counts substitutions. -/
def applyPolicy (g : GalleySettings) (policy : Nat) (src : Nat → RflSource) (reserve : List RowRun) :
    Nat → List RowRun → List RowRun
  | _, [] => []
  | k, r :: rest =>
    if r.status = 0 ∨ bit r.flags 2 then r :: applyPolicy g policy src reserve k rest
    else if policy = 0 ∨ policy = 2 then
      match pickReserve g (src r.epoch) reserve k r.logical with
      | some e => r.substitute e 0 :: applyPolicy g policy src reserve (k + 1) rest
      | none => r.mask 0x40 :: applyPolicy g policy src reserve (k + 1) rest
    else r.mask 0 :: applyPolicy g policy src reserve k rest

/-- Was some row masked by a policy, and not because it is vacant? -/
def policyMasked (rows : List RowRun) : Nat := (rows.filter (fun r => r.masked && !bit r.flags 2)).length

/-- STATUS of a batch entry (R367). -/
def batchStatus (rows : List RowRun) : Nat :=
  if rows.any RowRun.subst then 0x01 else if policyMasked rows ≠ 0 then 0x02 else 0x00

end Sys2Proof.Machine
end

