-- ==== Sys2Proof/Machine/Millrace.lean ====
section
/-! DEFINITION. Millrace for decode flows: cutting a sample into access units, the faults of the stream, the clip's output order, the
parse state of a context, and what a task's parse finds (R218, R222 to R231, R244 to R248). -/

namespace Sys2Proof.Machine

/-- Change the decode context of a flow. -/
def State.modDec (s : State) (f : Nat) (g : DecCtx → DecCtx) : State := s.modRun f (fun r => { r with dec := g r.dec })

/-- Change a task's plan. -/
def State.modPlan (s : State) (id : Nat) (g : DecPlan → DecPlan) : State :=
  s.modTask id (fun t => { t with dec := t.dec.map g })

/-! ### Error classes (R226, R245) -/

/-- Data end early. -/
def clsTruncated : Nat := 2
/-- A tool outside R218. -/
def clsTool : Nat := 4
/-- A later header that fails the guard. -/
def clsDim : Nat := 5
/-- A broken or empty slot, or an awaited random-access point. -/
def clsRef : Nat := 6
/-- Buffers or output queue beyond the settings. -/
def clsDpb : Nat := 7
/-- Over-class. -/
def clsOver : Nat := 8
/-- A refused buffer. -/
def clsPool : Nat := 9

/-- Status of an error class (R245). -/
def clsStatus (c : Nat) : Nat := nth [0, 0x20, 0x20, 0x20, 0x23, 0x22, 0x24, 0x25, 0x21, 0x42] c

/-- Does a fault of a class send its context to the await state (R246)? -/
def clsAwaits (c : Nat) : Bool := c == clsDim || c == clsTool || c == clsDpb

/-! ### What an access unit asks for -/

/-- Bins of a frame. -/
def FrameDesc.bins (f : FrameDesc) : Nat := sumL f.units

/-- Bins of an access unit. -/
def AccessUnit.bins (a : AccessUnit) : Nat := sumBy (fun f : FrameDesc => f.bins) a.frames

/-- A random-access point: an image always is one (R247). -/
def AccessUnit.entry (a : AccessUnit) (e : DecEntry) : Bool := a.rap || decide (3 < e.codec)

/-- Scratch of a progressive JPEG or an Adam7 PNG (R223). -/
def FrameDesc.scratchBytes (f : FrameDesc) (e : DecEntry) : Nat :=
  if e.codec = 4 then 2 * jpegCoefs f.w f.h f.chroma else f.w * f.h * f.rawBpp

/-- Does the entry accept what an access unit declares (R218, R219, R223)? PNG has no chroma format. -/
def accepts (e : DecEntry) (a : AccessUnit) : Bool :=
  bit e.profiles a.profile && (3 < e.codec || decide (a.level ≤ e.maxLevel)) &&
    a.frames.all (fun f => f.again.isSome || (decide (f.depth ≤ e.maxDepth) && (e.codec == 5 || bit e.chroma f.chroma) &&
      (!f.scratch || (bit e.flags 2 && decide (f.scratchBytes e ≤ 2 ^ 30)))))

/-- Bit set of a list of slot numbers. -/
def slotBits (l : List Nat) : Nat := l.foldl (fun m k => m ||| 2 ^ k) 0

/-- Slots that an access unit refreshes. -/
def AccessUnit.refreshed (a : AccessUnit) : List Nat := a.frames.flatMap (·.refresh)

/-- Slots that an access unit empties without filling. -/
def AccessUnit.dropped (a : AccessUnit) : List Nat := a.frames.flatMap (·.drops)

/-- Slots that an access unit uses which none of its own earlier frames refreshed. -/
def usesGo : List Nat → List FrameDesc → List Nat
  | _, [] => []
  | done, f :: rest =>
    (f.uses ++ f.again.toList).filter (fun k => !done.contains k) ++ usesGo (done ++ f.refresh) rest

/-- Slots that an access unit needs. -/
def AccessUnit.needs (a : AccessUnit) : List Nat := usesGo [] a.frames

/-- The parse state that an access unit meets: awaiting, broken slots, filled slots, header seen. -/
structure ParseState where
  await  : Bool
  broken : Nat
  filled : Nat
  header : Bool
  deriving DecidableEq, Repr

/-- A random-access point starts with every slot empty (R247). -/
def ParseState.enter (p : ParseState) (rap : Bool) : ParseState := if rap then { p with broken := 0, filled := 0 } else p

/-- The parse state after an access unit that decodes. -/
def ParseState.after (p : ParseState) (rap : Bool) (a : AccessUnit) : ParseState :=
  let base := p.enter rap
  let ref := slotBits a.refreshed
  let drop := slotBits (a.dropped.filter (fun k => !a.refreshed.contains k))
  { await := false, broken := base.broken - (base.broken &&& (ref ||| drop)),
    filled := (base.filled - (base.filled &&& drop)) ||| ref, header := p.header || a.header.isSome }

/-! ### Faults (R245) -/

/-- A fault of a class, where the standard shows it. -/
def AccessUnit.at_ (a : AccessUnit) (cls frame bins : Nat) : StreamFault :=
  let x := (a.spots.find? (fun x => x.1 == cls)).getD (cls, 0, 0)
  ⟨cls, x.2.1, x.2.2, frame, bins⟩

/-- The first frame with which the bins go over what the class declares: its number, and the bins read of it. `left`: bins still
allowed to the task (R245, R251). -/
def overGo (fe : FlowEntry) (e : DecEntry) : Nat → Nat → List FrameDesc → Option (Nat × Nat)
  | _, _, [] => none
  | left, i, f :: rest =>
    let bound := ceilDiv fe.cls.bins (max 1 fe.cls.entropyPar)
    if f.units.any (fun u => decide (bound < u)) then
      some (i, min left (sumL (f.units.takeWhile (fun u => decide (u ≤ bound))) + bound))
    else if left < f.bins then some (i, left)
    else if e.stripeBins < f.maxRow then some (i, f.bins)
    else overGo fe e (left - f.bins) (i + 1) rest

/-- What Millrace finds wrong with one access unit (R245). The order follows the reading order of the unit: the awaited point,
syntax, settings, header guard, buffers, references, bins. A unit that the standard discards is not read (R247). `n`: its bytes;
`left`: bins still allowed. The guard on later headers is that of STREAM mode (R248). -/
def unitFault (fe : FlowEntry) (e : DecEntry) (k : Nat) (p : ParseState) (n left : Nat) (a : AccessUnit) : Option StreamFault :=
  let rap := a.entry e
  let q := p.enter rap
  if p.await && !rap then some (a.at_ clsRef 0 0)
  else if a.skip then none
  else match a.fault with
  | some x => some x
  | none =>
    if !accepts e a then some (a.at_ clsTool 0 0)
    else if e.mode == 0 && p.header && (match a.header with
        | some (w, h) => !(decide (1 ≤ w ∧ 1 ≤ h ∧ w ≤ fe.maxW ∧ h ≤ fe.maxH ∧ w * h ≤ k * n))
        | none => false) then some (a.at_ clsDim 0 0)
    else if e.codec ≤ 3 ∧ e.refSlots + 1 < a.dpb then some (a.at_ clsDpb 0 0)
    else if a.needs.any (fun s => bit q.broken s || !bit q.filled s) then some (a.at_ clsRef 0 0)
    else (overGo fe e left 0 a.frames).map (fun x => a.at_ clsOver x.1 x.2)

/-- K of the declared-size guard for a flow (R197, R207). -/
def State.guardK (s : State) (fe : FlowEntry) : Nat :=
  let k := (fe.record.map (·.pxPerByte)).getD 0
  if k = 0 then s.fld F.STN_CASE_CFG_PX_PER_BYTE else k

/-! ### Clips (R225) -/

/-- Frames that the standard has released, and frames that wait, after more frames in decode order. -/
def shownAfter (c : Nat × Nat) (l : List FrameDesc) : Nat × Nat :=
  l.foldl (fun c f =>
    if f.again.isSome then (c.1 + 1, c.2)
    else
      let w := c.2 + b2n f.out
      let r := min f.release w
      (c.1 + r, w - r)) c

/-- Shown frames that a clip needs: up to its last selected frame. -/
def DecEntry.clipNeed (e : DecEntry) : Nat := (e.clipFrames - 1) * e.clipStride + 1

/-- Cut a clip or image into access units and check each (R222, R225): the units read and the fault that ended the parse. It ends after
the access unit with which the last selected frame is released; at the end of the field every waiting frame is. `n`: units still
allowed, `at_`: bytes before, `c`: frames released and waiting, `left`: bins still allowed. -/
def clipGo (fe : FlowEntry) (e : DecEntry) (k : Nat) : Nat → ParseState → List (List Byte) → Nat → Nat × Nat → Nat → List Byte →
    List (List Byte × AccessUnit) × Option StreamFault
  | 0, _, _, at_, _, _, _ => ([], some ⟨clsOver, 0, at_, 0, 0⟩)
  | n + 1, p, hist, at_, c, left, d =>
    if d.isEmpty then ([], if e.clipNeed ≤ c.1 + c.2 then none else some ⟨clsTruncated, 0, at_, 0, 0⟩)
    else
      let a := Config.accessUnit e.codec hist d
      let len := max 1 (min a.bytes d.length)
      let au := d.take len
      match unitFault fe e k p len left a with
      | some x => ([(au, a)], some { x with off := at_ + x.off })
      | none =>
        let c := if a.skip then c else shownAfter c a.frames
        if 3 < e.codec ∨ e.clipNeed ≤ c.1 then ([(au, a)], none)
        else
          let q := if a.skip then p else p.after (a.entry e) a
          let r := clipGo fe e k n q (if a.skip then hist else hist ++ [au]) (at_ + len) c
            (if a.skip then left else left - a.bins) (d.drop len)
          ((au, a) :: r.1, r.2)

/-- The least elements of a list of keyed elements, in order, and the rest. -/
def releaseLeast {α : Type} [BEq α] : Nat → List (Nat × α) → List α × List (Nat × α)
  | 0, w => ([], w)
  | n + 1, w => match leastBy (fun a b : Nat × α => decide (a.1 < b.1)) w with
    | none => ([], w)
    | some x => let r := releaseLeast n (w.erase x); (x.2 :: r.1, r.2)

/-- The numbers of the shown frames of a clip in output order (R225). `i`: the number of the first, `w`: frames that wait. -/
def outputGo : List FrameDesc → Nat → List (Nat × Nat) → List Nat
  | [], _, w => (releaseLeast w.length w).1
  | f :: rest, i, w =>
    if f.again.isSome then i :: outputGo rest (i + 1) w
    else
      let (r, w) := releaseLeast f.release (if f.out then w ++ [(f.order, i)] else w)
      r ++ outputGo rest (i + 1) w

/-- The output frame that each frame of a clip becomes, when it is selected (R225). -/
def picksOf (e : DecEntry) (l : List FrameDesc) : List (Option Nat) :=
  let order := outputGo l 0 []
  (List.range l.length).map (fun i =>
    if 3 < e.codec then some 0
    else match order.findIdx? (· == i) with
      | some s => if s % max 1 e.clipStride = 0 ∧ s / max 1 e.clipStride < e.clipFrames then some (s / max 1 e.clipStride) else none
      | none => none)

/-! ### Plans -/

/-- Units of a frame up to a number of bins. -/
def cutUnits : Nat → List Nat → List Nat
  | _, [] => []
  | n, u :: rest => if n = 0 then [] else min n u :: cutUnits (n - u) rest

/-- The frames of access units that Millrace reads, each with the number of its unit: of the one with the fault, those before it and
what it has read of the failing one. -/
def planFrames (aus : List AccessUnit) (fault : Option StreamFault) : List (Nat × FrameDesc) :=
  (aus.mapIdx (fun (i : Nat) (a : AccessUnit) =>
    let l := match fault with
      | some x => if i + 1 = aus.length then
          a.frames.take x.frame ++ ((a.frames.drop x.frame).take 1).map (fun (f : FrameDesc) => { f with units := cutUnits x.bins f.units })
        else if a.skip then [] else a.frames
      | none => if a.skip then [] else a.frames
    l.map (fun f => (i, f)))).flatten

/-- A plan with what the parse is going to find. -/
def mkPlan (e : DecEntry) (alone : Bool) (hist : List (List Byte)) (aus : List (List Byte × AccessUnit)) (fault : Option StreamFault) :
    DecPlan :=
  let frames := planFrames (aus.map (·.2)) fault
  let good := (match fault with
    | some x => (frames.filter (fun f => f.1 + 1 != aus.length)).length +
        min x.frame (frames.filter (fun f => f.1 + 1 == aus.length)).length
    | none => frames.length)
  { aus := aus, hist := hist, fault := fault, good := good, closed := false, status := 0, cls := 0, alone := alone,
    skip := !alone && aus.any (fun a => a.2.skip) && fault.isNone, frames := frames,
    pick := if alone then picksOf e (frames.map (·.2)) else frames.map (fun _ => none),
    parsed := 0, parsing := false, parked := 0, next := 0, reading := false, slots := List.replicate 16 none, sel := [], cutNow := none,
    cut := none, joined := 0 }

/-- Parse a task's data under the flow's entry (R222, R225). -/
def State.parseTask (s : State) (fe : FlowEntry) (e : DecEntry) (d : List Byte) : DecPlan :=
  let k := s.guardK fe
  if e.mode = 1 then
    let (aus, x) := clipGo fe e k e.maxAu ⟨true, 0, 0, false⟩ [] 0 (0, 0) fe.cls.bins d
    mkPlan e true [] aus x
  else
    let c := (s.run fe.flow).dec
    let a := Config.accessUnit e.codec c.hist d
    let x := unitFault fe e k ⟨c.awaitRap, c.broken, c.filled, c.header⟩ d.length fe.cls.bins a
    mkPlan e false (if a.entry e then [] else c.hist) [(d, a)] x

/-- Count a decode fault of a class (R245, R252). -/
def State.countFault (s : State) (fe : FlowEntry) (x : StreamFault) : State :=
  let field := match x.cls with
    | 1 => some F.STN_MR_ERR_SYNTAX | 2 => some F.STN_MR_ERR_TRUNCATED | 3 => some F.STN_MR_ERR_PARAM_SET
    | 4 => some F.STN_MR_ERR_TOOL | 5 => some F.STN_MR_ERR_DIM | 6 => some F.STN_MR_ERR_REF
    | 7 => some F.STN_MR_ERR_DPB | 8 => some F.STN_MR_ERR_OVERCLASS | _ => none
  let s := match field with | some f => s.incFld f | none => s
  let s := if x.cls = clsOver then s.countOverclass fe.flow else s
  s.setFlds [(F.STN_MR_LAST_FLOW, fe.flow), (F.STN_MR_LAST_TENANCY, fe.ten), (F.STN_MR_LAST_CLASS, x.cls),
    (F.STN_MR_LAST_UNIT, min 4095 x.unit), (F.STN_MR_LAST_OFFSET, x.off)]

/-- The parse state of a STREAM context after an access unit that ended with a class, 0 for a good one (R228, R246 to R248). -/
def DecCtx.parsed (c : DecCtx) (rap : Bool) (p : DecPlan) (cls : Nat) (d : List Byte) (a : AccessUnit) : DecCtx :=
  let header := c.header || a.header.isSome
  if p.skip then c
  else if cls = 0 then
    let q := ParseState.after ⟨c.awaitRap, c.broken, c.filled, c.header⟩ rap a
    { c with awaitRap := false, broken := q.broken, filled := q.filled, header := header, hist := p.hist ++ [d] }
  else if clsAwaits cls then { c with awaitRap := true, broken := 0, filled := 0, header := header, hist := c.hist ++ [d] }
  else if c.awaitRap then { c with header := header }
  else { c with broken := c.broken ||| slotBits a.refreshed, header := header, hist := c.hist ++ [d] }

/-- DETAIL of a decode task so far (R226). -/
def decDetail (t : Task) (hidden cut : Bool) (frames cls : Nat) : BitVec 32 :=
  BitVec.ofNat 32 (t.detail.toNat % 8 + 8 * b2n hidden + 16 * b2n cut + 32 * (frames % 128) + 4096 * (cls % 16) +
    t.detail.toNat / 65536 * 65536)

/-! ### Frames at Millrace (R227 to R231) -/

/-- Does a frame begin an access unit after the first of its task? -/
def DecPlan.furtherUnit (p : DecPlan) (i : Nat) : Bool :=
  match p.frames[i]? with
  | some (k, _) => k != 0 && (match p.frames[i - 1]? with | some (j, _) => j != k | none => false)
  | none => false

/-- Work of the units of frame i at the decode server: their bins, at least one, with the context load of a further access unit on the
first (R251). -/
def DecPlan.unitWork (p : DecPlan) (ep i : Nat) : List Nat :=
  match p.frames[i]? with
  | some (_, f) => f.units.mapIdx (fun j u => max 1 u + (if j = 0 ∧ p.furtherUnit i then 6400 * ep else 0))
  | none => []

/-- Ends of the units of a frame in its work. -/
def ends (l : List Nat) : List Nat := (List.range l.length).map (fun i => sumL (l.take (i + 1)))

/-- Frames of a flow that are parsed and not yet fully read by Platen (R230, R253). -/
def State.leadNow (s : State) (f : Nat) : Nat :=
  sumBy (fun t => match t.dec with | some p => p.parsed - p.next | none => 0) (s.tasks.filter (fun t => t.flow == f))

/-- May Millrace start a frame (R230)? The frames parsed and not fully read number fewer than LEAD; as each claims F, F bytes are then
free. With LEAD 0 Platen has read every frame before it (R231). -/
def State.mayParse (s : State) (fe : FlowEntry) (e : DecEntry) : Bool := decide (s.leadNow fe.flow < max 1 e.lead)

/-- F of R229: the Millpond bytes of one frame. -/
def millFrame (fe : FlowEntry) (e : DecEntry) : Nat :=
  (if e.codec ≤ 3 then 16 else 0) * ceilDiv fe.maxW 8 * ceilDiv fe.maxH 8 + (if e.codec = 4 then 16 else 1) * fe.cls.bins

/-- S of R229: the Millpond bytes of one stripe. -/
def millStripe (fe : FlowEntry) (e : DecEntry) : Nat :=
  (if e.codec ≤ 3 then 16 else 0) * ceilDiv fe.maxW 8 * (nth [0, 128, 64, 16, 16, 64] e.codec / 8) +
    (if e.codec = 4 then 16 else 1) * e.stripeBins

/-- Work done and work in all of a list of servers. -/
def workSum (l : List (Nat × Nat × Nat)) : Nat × Nat := (sumL (l.map (fun w => w.2.2)), sumL (l.map (fun w => w.2.1 + w.2.2)))

/-- Grid rows of a frame that a share of its work covers. -/
def rowsDone (f : FrameDesc) (w : Nat × Nat) : Nat :=
  let rows := ceilDiv f.h (max 1 f.grid)
  if w.2 = 0 then rows else w.1 * rows / w.2

/-- Stripes of its present frame that Millrace has parsed and that Platen has read, for a LEAD 0 task (R231). A frame that Platen does
not read waits for nothing. -/
def Task.stripes (t : Task) : Nat × Nat :=
  match t.dec with
  | some p => match p.frames[p.next]? with
    | some (_, f) =>
      let a := if p.next < p.parsed then ceilDiv f.h (max 1 f.grid) else if !p.parsing then 0 else rowsDone f (workSum (t.work.filter (fun w => w.1 == 0x22)))
      (a, if p.reading then min a (rowsDone f (workSum (t.work.filter (fun w => w.1 != 0x22)))) else a)
    | none => (0, 0)
  | none => (0, 0)

/-- Engines over which a flow's units spread (R227). -/
def State.spread (s : State) (fe : FlowEntry) : Nat := min fe.cls.entropyPar (serverUnits s.forme 0x22)

/-- Has the Millpond room for the next stripe of a LEAD 0 task (R229, R231)? -/
def State.millRoom (s : State) (fe : FlowEntry) (t : Task) : Bool := decide (t.stripes.1 < t.stripes.2 + 2 * s.spread fe)

/-- Units of the present frame of a task that Millrace has not finished. -/
def Task.unitsLeft (t : Task) (ep : Nat) : Nat :=
  match t.dec with
  | some p =>
    let (d, _) := workSum (t.work.filter (fun w => w.1 == 0x22))
    if p.parsing then ((ends (p.unitWork ep p.parsed)).filter (fun x => decide (d < x))).length else 0
  | none => 0

/-- Units of a flow that engines can take or hold now: those of its frame in hand that are not parked (R227, R231). -/
def State.unitsRunning (s : State) (fe : FlowEntry) (t : Task) : Nat :=
  min (s.spread fe) (t.unitsLeft fe.cls.entropyPar) - (match t.dec with | some p => p.parked | none => 0)

/-- Millpond bytes that a flow holds (R229 to R231): a frame for each that is parsed or being parsed and not fully read, less what
Platen has read of it; with LEAD 0 the stripes between the two. -/
def State.millHeld (s : State) (fe : FlowEntry) (e : DecEntry) : Nat :=
  sumBy (fun t => match t.dec with
    | some p =>
      if e.lead = 0 then (t.stripes.1 - t.stripes.2) * millStripe fe e
      else
        let whole := (p.parsed - p.next + b2n p.parsing) * millFrame fe e
        match p.frames[p.next]? with
        | some (_, f) => if p.reading then
            whole - millFrame fe e * rowsDone f (workSum (t.work.filter (fun w => w.1 != 0x22))) / max 1 (ceilDiv f.h (max 1 f.grid))
          else whole
        | none => whole
    | none => 0) (s.tasks.filter (fun t => t.flow == fe.flow))

/-- Position of a flow's entry in the codec settings: the index of its registers (R253, R288). -/
def State.codecIndex (s : State) (f : Nat) : Nat := (s.forme.codecs.findIdx? (fun c => c.flow == f)).getD 0

/-- Keep the highest Millpond occupancy of a flow (R253). -/
def State.millPeak (s : State) (fe : FlowEntry) (e : DecEntry) : State :=
  let k := s.codecIndex fe.flow
  s.setFld (F.STN_MP_CTX_B_PEAK_64K k) (max (s.fld (F.STN_MP_CTX_B_PEAK_64K k)) (min 8191 (ceilDiv (s.millHeld fe e) 65536)))

/-- Has a task of a flow still to leave the station at place k of the path? -/
def Task.before (t : Task) (k : Nat) : Bool :=
  match t.phase with
  | .fetching => !t.stopping
  | .waiting => !t.stopping
  | .ready => !t.stopping && decide (t.stage ≤ k)
  | _ => false

/-- Is an earlier task of the flow not yet past the station at place k of the path? -/
def State.earlierBefore (s : State) (t : Task) (k : Nat) : Bool :=
  (s.tasks.takeWhile (fun x => x.id != t.id)).any (fun x => x.flow == t.flow && x.before k)

/-- Has Millrace still to parse an earlier task of the flow (R228)? -/
def State.earlierParse (s : State) (t : Task) : Bool :=
  (s.tasks.takeWhile (fun x => x.id != t.id)).any (fun x => x.flow == t.flow && x.before t.stage && (match x.dec with
    | some p => !p.closed
    | none => true))

end Sys2Proof.Machine
end

