-- ==== Sys2Proof/Machine/Tiles.lean ====
section
/-! DEFINITION. Tiles: their headers as bytes, the check of a header, and the tiles in which a sample's content leaves a station
(R38, R39, R41, R223, R241, R242, R249, R311, R312, R314, R341, R352). -/

namespace Sys2Proof.Machine

/-! ### Headers (R38, R39) -/

/-- The 32 bytes of a header (R38). -/
def TileHdr.bytes (h : TileHdr) : List Byte :=
  leBytes 2 (h.flow % 4096 + 4096 * (h.ten % 16)) ++ leBytes 1 h.format ++ leBytes 1 (h.layout % 16 + 16 * ((h.channels - 1) % 16)) ++
    leBytes 6 h.index ++ leBytes 1 (h.part % 64 + 64 * b2n h.last + 128 * b2n h.first) ++ leBytes 1 h.status ++
    leBytes 2 h.x ++ leBytes 2 h.y ++ leBytes 2 h.base ++ leBytes 1 ((h.w - 1) % 64) ++ leBytes 1 ((h.h - 1) % 64) ++
    leBytes 4 (h.payload % 2 ^ 17 + 2 ^ 17 * b2n h.masked + 2 ^ 18 * b2n h.subst + 2 ^ 19 * b2n h.overclass) ++ leBytes 8 h.time

/-- Is a tile one of a byte stream, whose PAYLOAD is what its stream has left (R341)? -/
def TileHdr.isStream (h : TileHdr) : Bool := h.channels == 16 && h.format == 0x01 && h.w == 64 && h.h == 64

/-- May a station produce the header (R39)? -/
def TileHdr.ok (h : TileHdr) : Bool :=
  decide (h.payload ≤ 65536) && (h.isStream || h.payload == tilePayload h.w h.h h.channels h.format)

/-- The order key of a tile: (TILE_Y, TILE_X, CHANNEL_BASE) (R41), or (patch, TILE_X) for the tiles of patches (R352). -/
def Tile.key (t : Tile) : List Nat :=
  if t.hdr.layout = 2 then [t.hdr.y + 65536 * t.hdr.base, t.hdr.x] else [t.hdr.y, t.hdr.x, t.hdr.base]

/-- Tiles in their order, the first and the last marked. -/
def orderTiles (l : List Tile) : List Tile :=
  let l := sortBy Tile.key l
  l.mapIdx (fun i t => { t with hdr := { t.hdr with first := i == 0, last := i + 1 == l.length } })

/-! ### The tiles of a sample -/

/-- The partition of a sample (R38). -/
def FlowEntry.partOf (fe : FlowEntry) (index : Nat) : Nat := index % max 1 fe.partitions

/-- A tile of a sample whose payload is `d`. -/
def Sample.tile (x : Sample) (fe : FlowEntry) (format layout channels px py base w h : Nat) (d : List Byte) : Tile :=
  { hdr := { flow := fe.flow, ten := fe.ten, format := format, layout := layout, channels := channels, index := x.index,
             part := fe.partOf x.index, last := false, first := false, status := x.status, x := px, y := py, base := base,
             w := w, h := h, payload := d.length, masked := false, subst := false, overclass := x.overcls, time := x.time },
    data := d }

/-- Origin and size of the 64 × 64 tiles of a grid, in raster order. -/
def gridCells (w h : Nat) : List (Nat × Nat × Nat × Nat) :=
  (List.range (ceilDiv h 64)).flatMap (fun j => (List.range (ceilDiv w 64)).map (fun i =>
    (64 * i, 64 * j, min 64 (w - 64 * i), min 64 (h - 64 * j))))

/-- The tiles of a byte stream (R341). An empty stream has none. -/
def Sample.streamTiles (x : Sample) (fe : FlowEntry) (base : Nat) (d : List Byte) : List Tile :=
  (List.range (ceilDiv d.length 65536)).map (fun n =>
    x.tile fe 0x01 0 16 0 (64 * n % 65536) base 64 64 ((d.drop (65536 * n)).take 65536))

/-- The tiles of planes of one size that share the positions (R223): their elements dense in (channel, row, column) order (R312). `keep`:
whether a tile is emitted (R241). -/
def Sample.planeTiles (x : Sample) (fe : FlowEntry) (format base : Nat) (ps : List Plane) (keep : Nat × Nat × Nat × Nat → Bool) : List Tile :=
  match ps with
  | [] => []
  | p :: _ => ((gridCells p.w p.h).filter keep).map (fun c =>
      let (px, py, w, h) := c
      x.tile fe format 0 ps.length px py base w h (packBits ((fmtWidth format).getD 8) (ps.flatMap (fun q =>
        (List.range h).flatMap (fun j => (List.range w).map (fun i => nth q.data ((py + j) * q.w + px + i)))))))

/-- Does a tile of a plane with subsampling (sx, sy) cover a part of a rectangle of the picture (R241)? -/
def coversRect (r : Option (Nat × Nat × Nat × Nat)) (sx sy : Nat) (c : Nat × Nat × Nat × Nat) : Bool :=
  match r with
  | none => true
  | some (x0, x1, y0, y1) =>
    decide (c.1 < ceilDiv x1 sx ∧ x0 / sx < c.1 + c.2.2.1 ∧ c.2.1 < ceilDiv y1 sy ∧ y0 / sy < c.2.1 + c.2.2.2)

/-- The tiles of picture f of a sample (R223): luma at CHANNEL_BASE 3 f and chroma at 3 f + 1, or every channel of an RGB picture at 0. -/
def Sample.pictureTiles (x : Sample) (fe : FlowEntry) (f : Nat) (pic : Picture) (cut : Option (Nat × Nat × Nat × Nat)) : List Tile :=
  let format := if pic.depth = 8 then 0x01 else 0x02
  if pic.rgb then x.planeTiles fe format 0 pic.planes (coversRect cut 1 1)
  else x.planeTiles fe format (3 * f) (pic.planes.take 1) (coversRect cut 1 1) ++
    x.planeTiles fe format (3 * f + 1) (pic.planes.drop 1) (coversRect cut pic.subX pic.subY)

/-- The tiles of a side output (R242). -/
def Sample.sideTiles (x : Sample) (fe : FlowEntry) (o : SideOut) : List Tile :=
  let n := ceilDiv ((fmtWidth o.format).getD 8) 8
  (gridCells o.w o.h).map (fun c =>
    let (px, py, w, h) := c
    x.tile fe o.format 0 o.channels px py o.channelBase w h ((List.range o.channels).flatMap (fun k =>
      (List.range h).flatMap (fun j => (o.data.drop (n * ((k * o.h + py + j) * o.w + px))).take (n * w)))))

/-- The w bits of a byte string from a bit on. -/
def bitsOf (d : List Byte) (at_ w : Nat) : Nat := leNat ((d.drop (at_ / 8)).take (ceilDiv (at_ % 8 + w) 8)) / 2 ^ (at_ % 8) % 2 ^ w

/-- The element (c, y, x) of a tensor in memory (R313). -/
def tensorElem (fe : FlowEntry) (d : List Byte) (c y x : Nat) : Nat :=
  let w := (fmtWidth fe.outFormat).getD 8
  if fe.outLayout = 1 then bitsOf d (w * ((y * fe.outW + x) * fe.outC + c)) w
  else if fe.outLayout = 3 ∨ fe.outLayout = 4 then
    let at_ := (c * ceilDiv fe.outH 8 + y / 8) * skewGroup fe.outW fe.outFormat fe.outLayout + y % 8 * skewRow fe.outW fe.outFormat
    bitsOf d (8 * at_ + (y % 8 + x) * w) w
  else bitsOf d (w * ((c * fe.outH + y) * fe.outW + x)) w

/-- The scale of block k of row y of channel c of a tensor in memory (R313). -/
def tensorScale (fe : FlowEntry) (d : List Byte) (c y k : Nat) : Byte :=
  d.getD ((c * ceilDiv fe.outH 8 + y / 8) * skewGroup fe.outW fe.outFormat fe.outLayout + 8 * skewRow fe.outW fe.outFormat +
    y % 8 * (fe.outW / 32) + k) 0

/-- The tiles of a sample's tensor as Trim emits it (R311, R312). -/
def Sample.tensorTiles (x : Sample) (fe : FlowEntry) (d : List Byte) : List Tile :=
  let tc := tileChannels fe.outFormat
  let bits := (fmtWidth fe.outFormat).getD 8
  let layout := if fe.outLayout = 2 then 0 else fe.outLayout
  (gridCells fe.outW fe.outH).flatMap (fun cell =>
    let (px, py, w, h) := cell
    (List.range (ceilDiv fe.outC tc)).map (fun b =>
      let cs := (List.range (min tc (fe.outC - b * tc))).map (b * tc + ·)
      let ys := (List.range h).map (py + ·)
      let xs := (List.range w).map (px + ·)
      let codes := if layout = 1 then ys.flatMap (fun j => xs.flatMap (fun i => cs.map (fun c => tensorElem fe d c j i)))
        else cs.flatMap (fun c => ys.flatMap (fun j => xs.map (fun i => tensorElem fe d c j i)))
      let scales := if fmtBlock fe.outFormat then
        cs.flatMap (fun c => ys.flatMap (fun j => (List.range (ceilDiv w 32)).map (fun k => tensorScale fe d c j (px / 32 + k)))) else []
      x.tile fe fe.outFormat layout cs.length px py (b * tc) w h (packBits bits codes ++ scales)))

/-- The tiles of a patch-major tensor (R352): 64 patches by 64 positions, one channel. -/
def Sample.patchTiles (x : Sample) (fe : FlowEntry) (p : PatchSettings) (d : List Byte) : List Tile :=
  let bits := (fmtWidth fe.outFormat).getD 8
  let n := fe.outC * p.ph * p.pw
  let count := (fe.outH / max 1 p.ph) * (fe.outW / max 1 p.pw)
  (gridCells n count).map (fun cell =>
    let (px, py, w, h) := cell
    x.tile fe fe.outFormat 2 1 px (py % 65536) (py / 65536) w h (packBits bits ((List.range h).flatMap (fun j =>
      (List.range w).map (fun i => bitsOf d (bits * ((py + j) * n + px + i)) bits)))))

/-- The tiles of a good sample, in their order. -/
def Sample.goodTiles (x : Sample) (fe : FlowEntry) : List Tile :=
  orderTiles (
    x.streamTiles fe 0 x.coded ++
    (x.frames.mapIdx (fun f pic => x.pictureTiles fe f pic (x.cuts.getD f none))).flatten ++
    (match x.text with | some d => x.streamTiles fe 0xE000 d | none => []) ++
    (match x.tokens with | some l => x.streamTiles fe 0xE400 (l.flatMap (leBytes 4)) | none => []) ++
    x.streamTiles fe 0xE800 x.aux ++ x.side.flatMap (x.sideTiles fe) ++
    (match x.tensor, fe.patch with
      | some d, some p => if x.patched then x.patchTiles fe p d else x.tensorTiles fe d
      | some d, none => x.tensorTiles fe d
      | none, _ => []))

/-- The terminal tile of a stopped sample: 1 × 1, LAST, with the status and a payload of zeros (R249, R314). -/
def Sample.terminalTile (x : Sample) (fe : FlowEntry) : Tile :=
  let (y, px, base) := x.stopAt.getD (0, 0, 0)
  let t := x.tile fe 0x01 0 1 px y base 1 1 [0]
  { t with hdr := { t.hdr with last := true, first := x.stand.isEmpty } }

/-- The tiles in which a sample leaves a station (R41): those of a stopped sample that stand, and its terminal tile. -/
def Sample.tiles (x : Sample) (fe : FlowEntry) : List Tile :=
  if x.status ≠ 0 then x.stand ++ [x.terminalTile fe] else x.goodTiles fe

/-- Set a sample's status when it has none. -/
def Sample.fail (x : Sample) (status : Nat) : Sample :=
  if x.status = 0 then { x with status := status, overcls := status == 0x21, coded := [], frames := [], text := none,
                                tokens := none, tensor := none } else x

/-- Stop a sample after its first n tiles of a list: they stand with STATUS 0, and the next place is the terminal tile's (R249, R314). -/
def Sample.stopAfter (x : Sample) (l : List Tile) (n : Nat) : Sample :=
  { x with
    stand := (l.take n).map (fun t => { t with hdr := { t.hdr with last := false } }),
    stopAt := (match l[min n (l.length - 1)]? with | some t => some (t.hdr.y, t.hdr.x, t.hdr.base) | none => none) }

end Sys2Proof.Machine
end

