-- ==== Sys2Proof/Machine/Platen.lean ====
section
/-! DEFINITION. Platen for decode flows: the frames that a task reconstructs, their buffers and marks, cut decode, side
outputs, the output queue, and what a fault leaves behind (R222 to R225, R232 to R249). -/

namespace Sys2Proof.Machine

/-- Chroma halves of a chroma format: 4:0:0, 4:2:0, 4:2:2, 4:4:4 (R234). -/
def FrameDesc.halves (f : FrameDesc) : Nat := nth [0, 1, 2, 4] f.chroma

/-- Grid units of a frame. -/
def FrameDesc.gridUnits (f : FrameDesc) : Nat := ceilDiv f.w (max 1 f.grid) * ceilDiv f.h (max 1 f.grid)

/-- Planes of a decoded picture: (width, height, horizontal and vertical subsampling) in order (R223). -/
def FrameDesc.planes (f : FrameDesc) (e : DecEntry) : List (Nat × Nat × Nat × Nat) :=
  if e.codec = 5 then List.replicate (if bit e.flags 3 then 4 else 3) (f.w, f.h, 1, 1)
  else
    let sx := if f.chroma = 1 ∨ f.chroma = 2 then 2 else 1
    let sy := if f.chroma = 1 then 2 else 1
    let c := (ceilDiv f.w sx, ceilDiv f.h sy, sx, sy)
    if f.chroma = 0 then [(f.w, f.h, 1, 1)] else [(f.w, f.h, 1, 1), c, c]

/-- The picture of frame `k` of the last access unit of a history (R216, R219, R223). Of a cut picture, what lies outside the tiles that
cover the rectangle is not decoded: nothing reads it, and here it is 0 (R164, R241). -/
def decodedPicture (e : DecEntry) (hist : List (List Byte)) (f : FrameDesc) (k : Nat) (cut : Option (Nat × Nat × Nat × Nat)) : Picture :=
  { w := f.w, h := f.h, depth := f.depth, rgb := e.codec == 5, alpha := e.codec == 5 && bit e.flags 3,
    subX := if f.chroma = 1 ∨ f.chroma = 2 then 2 else 1, subY := if f.chroma = 1 then 2 else 1,
    planes := (f.planes e).mapIdx (fun i p =>
      let (w, h, sx, sy) := p
      ⟨w, h, (List.range (w * h)).map (fun q =>
        let y := q / max 1 w
        let x := q % max 1 w
        if coversRect cut sx sy (x / 64 * 64, y / 64 * 64, 64, 64) then
          Config.pixel e.codec hist (bit e.flags 1) k i y x % 2 ^ f.depth
        else 0)⟩) }

/-- The blocks that a frame needs (R223, R234). -/
def FrameDesc.blocks (f : FrameDesc) (e : DecEntry) : List Nat :=
  if f.again.isSome then []
  else if e.codec ≤ 3 then frameBlocks f.w f.h (decide (8 < f.depth)) f.halves
  else if f.scratch then partsOf (f.scratchBytes e)
  else []

/-! ### Clips (R225) -/

/-- The output frame that frame i of a sample becomes, when it is selected. -/
def DecPlan.chosen (p : DecPlan) (i : Nat) : Option Nat := p.pick.getD i none

/-- Is frame i parsed and not reconstructed: not selected, and refreshing no slot? -/
def DecPlan.passes (p : DecPlan) (i : Nat) : Bool :=
  p.alone && (p.chosen i).isNone && (match p.frames[i]? with
    | some (_, f) => f.refresh.isEmpty && f.again.isNone | none => false)

/-- Positions that a task reconstructs, over its frames (R250). -/
def DecPlan.positions (p : DecPlan) : Nat :=
  sumL ((List.range p.good).map (fun i => match p.frames[i]? with
    | some (_, f) => if p.passes i || f.again.isSome then 0 else f.w * f.h
    | none => 0))

/-! ### Cut decode (R238 to R241) -/

/-- The filter margin M (R240). -/
def cutMargin (codec : Nat) : Nat := nth [0, 16, 8, 4, 0, 0] codec

/-- Grid units that a cut decode keeps in one tile (R240). -/
def tileKept (gx0 gx1 gy0 gy1 : Nat) (t : Nat × Nat × Nat × Nat) : Nat :=
  let (c0, c1, r0, r1) := t
  if r1 < gy0 ∨ gy1 < r0 ∨ c1 < gx0 ∨ gx1 < c0 then 0
  else
    let ry := min r1 gy1
    sumL ((List.range (ry + 1 - r0)).map (fun i => let r := r0 + i; min c1 (gx1 + (ry - r)) + 1 - c0))

/-- Grid units that a cut decode of a rectangle [x0, x1) × [y0, y1) keeps (R240). -/
def cutKept (codec : Nat) (f : FrameDesc) (r : Nat × Nat × Nat × Nat) : Nat :=
  let (x0, x1, y0, y1) := r
  let g := max 1 f.grid
  let m := cutMargin codec
  if codec = 5 then y1
  else if codec = 4 then
    ((x1 - 1) / g + 1 - x0 / g) * ((y1 - 1) / g + 1 - y0 / g)
  else
    let whole := (0, ceilDiv f.w g - 1, 0, ceilDiv f.h g - 1)
    let tiles := if codec = 3 ∨ f.tiles.isEmpty then [whole] else f.tiles
    sumL (tiles.map (tileKept ((x0 - m) / g) ((min (x1 + m) f.w - 1) / g) ((y0 - m) / g) ((min (y1 + m) f.h - 1) / g)))

/-- All grid units of a frame, in the unit of R240. -/
def cutTotal (codec : Nat) (f : FrameDesc) : Nat := if codec = 5 then f.h else f.gridUnits

/-- The crop rectangle of a sample's picture under Trim's settings, when it is smaller than the picture (R240). -/
def State.cropOf (s : State) (fe : FlowEntry) (t : Task) (w h : Nat) : Option (Nat × Nat × Nat × Nat) :=
  match fe.trim with
  | none => none
  | some ts =>
    let (c, _) := cropWindow ts ((s.rflSource fe t.epoch).word t.sample) w h
    let r := cutRect c w h
    if r = (0, w, 0, h) then none else some r

/-- Does Platen cut-decode frame i of a plan, and to which rectangle (R238, R239)? An image, an AV1 frame that refreshes no slot, a
frame whose syntax says so and the last selected frame of a clip count as unreferenced. -/
def State.cutOf (s : State) (fe : FlowEntry) (e : DecEntry) (t : Task) (p : DecPlan) (i : Nat) :
    Option (Nat × Nat × Nat × Nat) :=
  match p.frames[i]? with
  | none => none
  | some (_, f) =>
    let last := p.alone && p.chosen i == some (e.clipFrames - 1)
    let unref := decide (3 < e.codec) || (if e.codec = 1 then f.refresh.isEmpty else f.unref) || last
    if bit e.flags 0 && s.fld F.STN_PLT_CFG_CUT_DISABLE == 0 && !f.uncut && unref then s.cropOf fe t f.w f.h
    else none

/-! ### Slots and marks (R235) -/

/-- The slots of a task's context. -/
def State.slotsOf (s : State) (t : Task) (p : DecPlan) : List (Option FrameBuf) :=
  if p.alone then p.slots else (s.run t.flow).dec.slots

/-- Replace the slots of a task's context. -/
def State.setSlots (s : State) (t : Task) (alone : Bool) (l : List (Option FrameBuf)) : State :=
  if alone then s.modPlan t.id (fun p => { p with slots := l })
  else s.modDec t.flow (fun c => { c with slots := l })

/-- Take one reference of each handle in a list off its mark, all of one handle in one update (R176). -/
def State.dropRefs (s : State) (task : Nat) (l : List Nat) : State :=
  l.eraseDups.foldl (fun s h => s.updateMark h (-(l.count h : Nat) : Int) none none task) s

/-- Slots as a list of 16. -/
def padSlots (l : List (Option FrameBuf)) : List (Option FrameBuf) := (l ++ List.replicate 16 none).take 16

/-- Empty slots of a context: each frame that loses a slot takes REF − 1. -/
def State.emptySlots (s : State) (t : Task) (p : DecPlan) (which : List Nat) : State :=
  let l := padSlots (s.slotsOf t p)
  let lost := which.eraseDups.filterMap (fun k => (l.getD k none).map (·.handle))
  (s.setSlots t p.alone (l.mapIdx (fun i x => if which.contains i then none else x))).dropRefs t.id lost

/-- Put a frame into slots: REF + k for it, REF − 1 for each frame that loses one. -/
def State.fillSlots (s : State) (t : Task) (p : DecPlan) (b : FrameBuf) (out : Bool) (which : List Nat) : State :=
  let which := which.eraseDups
  let l := padSlots (s.slotsOf t p)
  let lost := which.filterMap (fun k => (l.getD k none).map (·.handle))
  let s := s.updateMark b.handle (which.length : Int) (some out) none t.id
  (s.setSlots t p.alone (l.mapIdx (fun i x => if which.contains i then some b else x))).dropRefs t.id lost

/-- Frames that would have been output lose OUT. -/
def State.dropOut (s : State) (task : Nat) (l : List FrameBuf) : State :=
  l.foldl (fun s b => s.updateMark b.handle 0 (some false) none task) s

/-- The reconstruction state of a context enters the await state: the reference of every slot ends, and so do the frames that the
standard had not released (R235). -/
def State.clearRecon (s : State) (flow task : Nat) : State :=
  let c := (s.run flow).dec
  let s := s.modDec flow (fun c => { c with slots := [], wait := [], reconAwait := true })
  (s.dropRefs task (c.slots.filterMap (fun x => x.map (·.handle)))).dropOut task (c.wait.map (·.2))

/-! ### Failed access units (R233, R246, R249) -/

/-- Access units after a task's that Millrace has parsed and found good. -/
def State.parsedAfter (s : State) (t : Task) : List AccessUnit :=
  (((s.tasks.dropWhile (fun x => x.id != t.id)).drop 1).filterMap (fun x => if x.flow == t.flow then x.dec else none)).flatMap (fun p =>
    if p.closed && p.fault.isNone && p.status == 0 then p.aus.map (·.2) else [])

/-- What a failed access unit of a STREAM leaves, at its turn at Platen: its context awaits, or the slots that it would have refreshed
are lost and broken, but those that a later unit, parsed meanwhile, refreshes (R235, R246). -/
def State.failedTurn (s : State) (fe : FlowEntry) (e : DecEntry) (t : Task) (p : DecPlan) (cls : Nat) : State :=
  if p.alone then s
  else
    let later := s.parsedAfter t
    let entered := later.any (fun a => a.entry e)
    if clsAwaits cls then
      let s := s.clearRecon fe.flow t.id
      if entered ∨ p.fault.isSome then s else s.modDec fe.flow (fun c => { c with awaitRap := true, broken := 0, filled := 0 })
    else
      let l := p.aus.flatMap (fun a => a.2.refreshed)
      let s := s.emptySlots t p l
      if entered ∨ !p.closed ∨ p.fault.isSome then s
      else
        let again := later.flatMap (fun a => a.refreshed)
        s.modDec fe.flow (fun c => if c.awaitRap then c else
          { c with broken := c.broken ||| slotBits (l.filter (fun k => !again.contains k)) })

/-- The slots and the selected frames of a sample that stands alone are released. -/
def State.releaseAlone (s : State) (t : Task) (p : DecPlan) : State :=
  if p.alone then (s.emptySlots t p (List.range 16)).dropOut t.id ((p.sel.map (·.2)).filter (fun b => decide (b.handle < 16384)))
  else s

/-- Blocks that a decode task still holds return, and those that it waits for. -/
def State.freeScratch (s : State) (id : Nat) : State := s.freeTask id

/-- Does Platen emit the tiles of the frame that it reconstructs as its rows complete: an image, or the head of the output queue
(R224, R225)? -/
def State.emitsRows (s : State) (e : DecEntry) (t : Task) (p : DecPlan) (f : FrameDesc) : Bool :=
  if p.alone then decide (3 < e.codec)
  else
    let c := (s.run t.flow).dec
    c.outQ.isEmpty && f.out && decide (0 < f.release) && c.wait.all (fun w => decide (f.order < w.1))

/-- The tiles of the frame in hand that Platen has emitted: those of the rows that it has read. They stand when its sample stops (R249). -/
def State.standing (s : State) (fe : FlowEntry) (e : DecEntry) (t : Task) (x : Sample) : Sample :=
  match t.dec with
  | some p => match p.frames[p.next]? with
    | some (k, f) =>
      if p.reading && s.emitsRows e t p f then
        let rows := rowsDone f (workSum (t.work.filter (fun w => w.1 != 0x22))) * max 1 f.grid
        let j := ((p.frames.take p.next).filter (fun y => y.1 == k)).length
        let pic := decodedPicture e (p.hist ++ (p.aus.take (k + 1)).map (·.1)) f j p.cutNow
        let l := orderTiles (x.pictureTiles fe 0 pic p.cutNow)
        let n := (l.takeWhile (fun q => decide ((q.hdr.y + q.hdr.h) * (if q.hdr.base = 0 then 1 else pic.subY) ≤ rows))).length
        x.stopAfter l n
      else x
    | none => x
  | none => x

/-- Platen stops the frame in hand. -/
def State.stopRead (s : State) (id : Nat) : State :=
  ((s.modPlan id (fun p => { p with reading := false })).modTask id (fun t => { t with
    work := t.work.filter (fun w => w.1 == 0x22) })).freeScratch id

/-- A decode task's sample fails: what Platen emitted of it stands (R249). -/
def State.failDecode (s : State) (fe : FlowEntry) (e : DecEntry) (id cls : Nat) : State :=
  match s.task? id with
  | none => s
  | some t => (s.modTask id (fun t' => { t' with
      detail := decDetail t' false ((t.dec.bind (·.cut)).isSome) 0 cls,
      samples := t.samples.map (fun x => if x.status = 0 then (s.standing fe e t x).fail (clsStatus cls) else x) })).modPlan id (fun p =>
        { p with status := clsStatus cls, cls := cls })

/-- A decode task fails at Platen (R246); one that has failed already only stops the frame in hand. Millrace still parses a STREAM unit to its end, as the next unit needs its parse state (R228). -/
def State.platenFail (s : State) (fe : FlowEntry) (e : DecEntry) (id cls : Nat) : State :=
  match s.task? id with
  | none => s
  | some t => match t.dec with
    | none => s
    | some p =>
      if p.status ≠ 0 then s.stopRead id
      else
      let x := match (p.frames[p.next]?).bind (fun f => p.aus[f.1]?) with | some a => a.2.at_ cls 0 0 | none => ⟨cls, 0, 0, 0, 0⟩
      let s := (((s.countFault fe x).failDecode fe e id cls).stopRead id).failedTurn fe e t p cls
      if p.alone then (s.modPlan id (fun p => { p with
          frames := p.frames.take p.next, good := p.next, parsed := p.next, parsing := false, closed := true })).modTask id (fun t =>
            { t with work := [] })
      else s.modPlan id (fun p => { p with next := p.frames.length })

/-- Millrace has parsed a task to its end, or to its fault: the parse state of its context moves on, a fault counts and fails the sample,
and Platen reads no further frame, but ends the good one that it reads (R228, R233, R245). -/
def State.closeParse (s : State) (fe : FlowEntry) (e : DecEntry) (id : Nat) : State :=
  match s.task? id with
  | none => s
  | some t => match t.dec with
    | none => s
    | some p =>
      let cls := match p.fault with | some x => x.cls | none => p.cls
      let s := if p.alone then s else match p.aus with
        | [(d, a)] => s.modDec fe.flow (fun c => c.parsed (a.entry e) p cls d a)
        | _ => s.modDec fe.flow (fun c => { c with awaitRap := true, broken := 0, filled := 0 })
      let s := s.modPlan id (fun p => { p with closed := true })
      match p.fault with
      | none => s
      | some x =>
        if p.status ≠ 0 then s
        else
          let keep := p.reading && decide (p.next < p.good)
          let s := (s.countFault fe x).failDecode fe e id x.cls
          let s := if keep then s else s.stopRead id
          s.modPlan id (fun p =>
            let n := if keep then p.next + 1 else p.next
            { p with frames := p.frames.take n, good := min p.good n, parsed := min p.parsed n })

/-! ### Frames (R232, R235) -/

/-- A lane-independent view of a frame for its side outputs and its output (R242). -/
def DecPlan.buf (p : DecPlan) (i : Nat) (f : FrameDesc) (k handle : Nat) (pic : Picture) (cut : Option (Nat × Nat × Nat × Nat)) : FrameBuf :=
  { handle := handle, pic := pic, cut := cut, hist := p.hist ++ (p.aus.take (k + 1)).map (·.1),
    k := ((p.frames.take i).filter (fun x => x.1 == k)).length, desc := f, again := false }

/-- The frame of a task that Platen finishes now joins what its context holds: in STREAM mode the frames that await
output and those released, in SAMPLE mode the selected frames. -/
def State.outputFrame (s : State) (t : Task) (p : DecPlan) (i : Nat) (f : FrameDesc) (b : FrameBuf) : State :=
  if p.alone then
    match p.chosen i with
    | some k => s.modPlan t.id (fun p => { p with sel := p.sel ++ [(k, b)] })
    | none => s
  else
    let c := (s.run t.flow).dec
    let queue := if f.again.isSome then c.outQ ++ [b] else c.outQ
    let (r, w) := releaseLeast f.release (if f.again.isNone && f.out then c.wait ++ [(f.order, b)] else c.wait)
    (s.modDec t.flow (fun c => { c with wait := w, outQ := queue ++ r })).modPlan t.id (fun p => { p with
      joined := p.joined + (queue ++ r).length - c.outQ.length })

/-- Platen has read frame `next` of a task, whose blocks it holds: the frame gets its buffer, fills its slots and joins what is output
(R232, R235). -/
def State.finishFrame (s : State) (fe : FlowEntry) (e : DecEntry) (id : Nat) : State :=
  match s.task? id with
  | none => s
  | some t => match t.dec with
    | none => s
    | some p => match p.frames[p.next]? with
      | none => s
      | some (k, f) =>
        let i := p.next
        let done (s : State) : State := s.modPlan id (fun p => { p with next := i + 1, reading := false, cutNow := none })
        match f.again with
        | some q => match (padSlots (s.slotsOf t p)).getD q none with
          | none => s.platenFail fe e id clsRef
          | some b =>
            let b := { b with again := true }
            let out := !p.alone || (p.chosen i).isSome
            let s := if out then s.updateMark b.handle 0 (some true) none id else s
            let s := if f.refresh.isEmpty then s else s.fillSlots t p b out f.refresh
            done (s.outputFrame t p i f b)
        | none =>
          let pic := decodedPicture e (p.hist ++ (p.aus.take (k + 1)).map (·.1)) f
            ((p.frames.take i).filter (fun x => x.1 == k)).length p.cutNow
          let b := p.buf i f k 16384 pic p.cutNow
          let count (s : State) : State :=
            let s := s.incFld F.STN_PLT_COUNT_A_FRAMES
            match p.cutNow with
            | some r => ((s.incFld F.STN_PLT_COUNT_A_CUT_FRAMES).addFld F.STN_PLT_COUNT_B_UNITS_SKIPPED
                (cutTotal e.codec f - cutKept e.codec f r)).modPlan id (fun p => { p with cut := some r })
            | none => s
          if 3 < e.codec then done ((count s).outputFrame t p i f b)
          else match s.takeHandle t t.blocks with
          | (s, none) => s.platenFail fe e id clsPool
          | (s, some h) =>
            let b := { b with handle := h }
            let s := (count s).fillSlots t p b (if p.alone then (p.chosen i).isSome else f.out) f.refresh
            let s := s.emptySlots t p (f.drops.filter (fun q => !f.refresh.contains q))
            done (s.outputFrame t p i f b)

/-- A random-access point empties the slots of its context as Platen starts it (R235, R247). -/
def State.enterPoint (s : State) (e : DecEntry) (t : Task) (p : DecPlan) : State :=
  let i := p.next
  match p.frames[i]? with
  | some (k, _) =>
    let first := i = 0 || (match p.frames[i - 1]? with | some (j, _) => j != k | none => true)
    let rap := match p.aus[k]? with | some a => a.2.entry e | none => false
    if rap && first then
      let s := s.emptySlots t p (List.range 16)
      if p.alone then s else s.modDec t.flow (fun c => { c with reconAwait := false })
    else s
  | none => s

/-- Why Platen cannot start frame `next` of a task (R235, R245, R246): its context awaits, the positions go over the class, or it names
an empty slot. -/
def State.startFault (s : State) (fe : FlowEntry) (t : Task) (p : DecPlan) : Option Nat :=
  if !p.alone && (s.run t.flow).dec.reconAwait then some clsRef
  else if p.next = 0 ∧ fe.cls.pixels < p.positions then some clsOver
  else match p.frames[p.next]? with
    | some (_, f) =>
      let l := padSlots (s.slotsOf t p)
      if (f.uses ++ f.again.toList).any (fun q => (l.getD q none).isNone) then some clsRef else none
    | none => none

/-! ### The end at Platen (R224, R225, R242) -/

/-- Value of a side output's vector component (R242). -/
def sideVec (codec : Nat) (b : BlockInfo) (v : Option (Int × Int)) (y : Bool) : Byte × Byte :=
  let n : Int := match v with
    | some (p, q) => if b.intra then -32768 else (if y then q else p) * (if codec = 1 then 1 else 2)
    | none => -32768
  let u := (BitVec.ofInt 16 n).toNat
  (BitVec.ofNat 8 u, BitVec.ofNat 8 (u / 256))

/-- Side outputs of output frame `f` of a sample (R242), over the 8 × 8 blocks that a rectangle overlaps, in (channel, row, column)
order. -/
def sideOuts (e : DecEntry) (f : Nat) (b : FrameBuf) (r : Nat × Nat × Nat × Nat) : List SideOut :=
  let (x0, x1, y0, y1) := r
  let bw := ceilDiv x1 8 - x0 / 8
  let bh := ceilDiv y1 8 - y0 / 8
  let each (g : BlockInfo → List Byte) : List Byte := (List.range bh).flatMap (fun j => (List.range bw).flatMap (fun i =>
    g (Config.blockInfo e.codec b.hist b.k (x0 / 8 + i) (y0 / 8 + j))))
  let vec (y : Bool) (v : BlockInfo → Option (Int × Int)) : List Byte := each (fun q => let p := sideVec e.codec q (v q) y; [p.1, p.2])
  (if bit e.sideMask 0 then [(⟨0xF000 + 8 * f, 0x03, 4, bw, bh,
    vec false (·.list0) ++ vec true (·.list0) ++ vec false (·.list1) ++ vec true (·.list1)⟩ : SideOut)] else []) ++
  (if bit e.sideMask 1 then [(⟨0xF000 + 8 * f + 4, 0x06, 1, bw, bh,
    each (fun q => leBytes 4 (f32OfNat (if q.skip then 0 else q.resid)))⟩ : SideOut)] else []) ++
  (if bit e.sideMask 2 then [(⟨0xF000 + 8 * f + 5, 0x01, 1, bw, bh, each (fun q => leBytes 1 q.qp)⟩ : SideOut)] else []) ++
  (if bit e.sideMask 3 then [(⟨0xF000 + 8 * f + 6, 0x01, 1, 1, 1,
    [BitVec.ofNat 8 (if b.again && e.codec == 1 then 5 else b.desc.ftype)]⟩ : SideOut)] else [])

/-- The frames that a task emits at its end: the selected ones, or the head of the output queue (R224, R225). -/
def State.emitted (s : State) (t : Task) (p : DecPlan) : List (Nat × FrameBuf) :=
  if p.alone then sortBy (fun x => [x.1]) p.sel
  else if p.skip then [] else ((s.run t.flow).dec.outQ.take 1).map (fun b => (0, b))

/-- The side outputs of the frames that a task emits begin extraction: HOLD is set in their marks (R235). -/
def State.holdFrames (s : State) (t : Task) (p : DecPlan) : State :=
  (s.emitted t p).foldl (fun s x => if x.2.handle < 16384 then s.holdMark t.id x.2.handle else s) s

/-- A task would make the output queue longer than OUT_DEPTH (R224): the frames that it made join leave the queue. -/
def State.queueFull (s : State) (fe : FlowEntry) (e : DecEntry) (t : Task) (p : DecPlan) : State :=
  let q := (s.run fe.flow).dec.outQ
  let n := q.length - p.joined
  ((s.modDec fe.flow (fun c => { c with outQ := q.take n })).dropOut t.id (q.drop n)).platenFail fe e t.id clsDpb

/-- Platen emits the frames of a task with their side outputs, and lets them go (R224, R225, R235, R242). -/
def State.emitFrames (s : State) (fe : FlowEntry) (e : DecEntry) (t : Task) (p : DecPlan) : State :=
  let l := s.emitted t p
  let side := l.flatMap (fun x =>
    sideOuts e x.1 x.2 ((s.cropOf fe t x.2.desc.w x.2.desc.h).getD (0, x.2.desc.w, 0, x.2.desc.h)))
  let s := (s.unhold t.id).dropOut t.id ((l.map (·.2)).filter (fun b => decide (b.handle < 16384)))
  let s := if p.alone then s.emptySlots t p (List.range 16) else s.modDec fe.flow (fun c => { c with outQ := c.outQ.drop 1 })
  (s.modTask t.id (fun t => { t with
    dec := none, detail := decDetail t false p.cut.isSome l.length 0,
    samples := t.samples.map (fun x => { x with
      coded := [], frames := l.map (·.2.pic), side := x.side ++ side, cuts := l.map (·.2.cut) }) })).freeScratch t.id

/-- A failed decode task leaves Platen: what it held is released. -/
def State.dropPlan (s : State) (id : Nat) : State :=
  match s.task? id with
  | none => s
  | some t => match t.dec with
    | some p => ((((s.unhold id).releaseAlone t p).modTask id (fun t => { t with dec := none })).freeScratch id)
    | none => s

/-- A decode task stops where it is: its access unit is lost to its context (R246), and what it held is released. -/
def State.abandonDec (s : State) (fe : FlowEntry) (e : DecEntry) (id : Nat) : State :=
  match s.task? id with
  | none => s
  | some t => match t.dec with
    | none => s
    | some p =>
      let cls := if p.cls = 0 then 1 else p.cls
      let s := s.failedTurn fe e t p cls
      let s := if p.alone || p.closed then s else match p.aus with
        | [(d, a)] => s.modDec fe.flow (fun c => c.parsed (a.entry e) { p with skip := false } cls d a)
        | _ => s
      s.dropPlan id

/-- Every handle of a flow's decode context is released, and it awaits a random-access point (R247). -/
def State.resetDec (s : State) (f : Nat) : State :=
  (s.modDec f (fun _ => (FlowRun.fresh f).dec)).releaseHandles f

end Sys2Proof.Machine
end

