-- ==== Sys2Proof/Machine/Search.lean ====
section
/-! DEFINITION. The input of an encode frame and its motion search: planes, hint plane, candidates, their costs, and what each
16 × 16 block ends with (R260, R261, R269, R270). The refinement pattern, λ, the modes and the reconstruction are free (Config). -/

namespace Sys2Proof.Machine

/-! ### The posted frame (R260) -/

/-- Bytes of a sample of a posted frame. -/
def EncEntry.sampleBytes (e : EncEntry) : Nat := if e.depth = 8 then 1 else 2

/-- The planes of part 0: Y, Cb, Cr, row-major with no padding. -/
def framePicture (e : EncEntry) (d : List Byte) : Picture :=
  let n := e.sampleBytes
  let cw := e.picW / 2
  let ch := e.picH / 2
  let plane (w h at_ : Nat) : Plane :=
    ⟨w, h, (List.range (w * h)).map (fun i => fieldAt d (at_ + n * i) n % 2 ^ e.depth)⟩
  { w := e.picW, h := e.picH, depth := e.depth, rgb := false, alpha := false, subX := 2, subY := 2,
    planes := [plane e.picW e.picH 0, plane cw ch (n * (e.picW * e.picH)), plane cw ch (n * (e.picW * e.picH + cw * ch))] }

/-! ### The hint plane (R261) -/

/-- The hint of one block. -/
structure Hint where
  mv0   : Vec
  mv1   : Vec
  conf  : Nat
  valid : Bool
  deriving DecidableEq, Repr

/-- A signed value of 12 bits. -/
def s12 (n : Nat) : Int := if n % 4096 < 2048 then ((n % 4096 : Nat) : Int) else ((n % 4096 : Nat) : Int) - 4096

/-- A vector of three bytes. -/
def hintVec (n : Nat) : Vec := ⟨s12 n, s12 (n / 4096)⟩

/-- The hint of block i of a hint plane. -/
def hintAt (d : List Byte) (i : Nat) : Hint :=
  { mv0 := hintVec (fieldAt d (8 * i) 3), mv1 := hintVec (fieldAt d (8 * i + 3) 3), conf := byteAt d (8 * i + 6),
    valid := bit (byteAt d (8 * i + 7)) 0 }

/-- 16 × 16 blocks of a row, and rows of them. -/
def EncEntry.blockCols (e : EncEntry) : Nat := ceilDiv e.picW 16
/-- Rows of 16 × 16 blocks. -/
def EncEntry.blockRows (e : EncEntry) : Nat := ceilDiv e.picH 16

/-! ### Candidates (R269) -/

/-- A candidate: its vector, whether it refers to GOLDEN, and the confidence of the hint that it is. -/
structure Candidate where
  vec    : Vec
  golden : Bool
  hint   : Option Nat
  deriving DecidableEq, Repr

/-- Order integers by value. -/
def sortInts (l : List Int) : List Int :=
  l.foldl (fun acc x => acc.takeWhile (fun y => decide (y ≤ x)) ++ x :: acc.dropWhile (fun y => decide (y ≤ x))) []

/-- The median of a list, rounded towards zero; zero of an empty list. -/
def median (l : List Int) : Int :=
  let s := sortInts l
  let n := s.length
  (s.getD ((n - 1) / 2) 0 + s.getD (n / 2) 0).tdiv 2

/-- The global candidate of a frame: the component-wise median of MV0 over the blocks with CONF ≥ HINT_MIN. -/
def globalVec (e : EncEntry) (hints : List Hint) : Vec :=
  let l := (hints.filter (fun h => decide (e.hintMin ≤ h.conf))).map (·.mv0)
  ⟨median (l.map (·.x)), median (l.map (·.y))⟩

/-- Drop later candidates that repeat the vector and the reference of an earlier one. -/
def dropRepeats (l : List Candidate) : List Candidate :=
  l.foldl (fun acc c => if acc.any (fun x => x.vec == c.vec && x.golden == c.golden) then acc else acc ++ [c]) []

/-- The candidate list of a block: hints, the global candidate, the final vectors of the left, above and above-right blocks, that
of the co-located block of LAST, and zero; with REF_FRAMES 2 the last three kinds also against GOLDEN (DESIGN CHOICE: those after
all others). Each in the codec's precision and range. -/
def candidates (e : EncEntry) (hint : Option Hint) (global : Vec) (near : List (Option Vec)) (coloc : Option Vec) : List Candidate :=
  let hinted : List Candidate := match hint with
    | some h => if e.hintMin ≤ h.conf then
        (⟨h.mv0, false, some h.conf⟩ : Candidate) :: (if h.valid then [⟨h.mv1, false, some h.conf⟩] else []) else []
    | none => []
  let own : List Vec := near.filterMap id ++ coloc.toList ++ [(⟨0, 0⟩ : Vec)]
  let l : List Candidate := hinted ++ [(⟨global, false, none⟩ : Candidate)] ++ own.map (fun v => ⟨v, false, none⟩) ++
    (if e.refFrames = 2 then own.map (fun v => ⟨v, true, none⟩) else [])
  dropRepeats (l.map (fun c => { c with vec := Config.codecVec e.codec c.vec }))

/-! ### Costs (R270) -/

/-- One pass of the 8-point Hadamard transform. -/
def hadamard8 (v : List Int) : List Int :=
  let step (d : Nat) (v : List Int) : List Int := (List.range 8).map (fun i =>
    if i / d % 2 = 0 then v.getD i 0 + v.getD (i + d) 0 else v.getD (i - d) 0 - v.getD i 0)
  step 4 (step 2 (step 1 v))

/-- Sum of the absolute values of the 8 × 8 Hadamard transform of a block of differences, in rows. -/
def satd8 (rows : List (List Int)) : Nat :=
  let h := rows.map hadamard8
  let cols := (List.range 8).map (fun c => hadamard8 (h.map (fun r => r.getD c 0)))
  sumL (cols.map (fun c => sumL (c.map Int.natAbs)))

/-- What the search of a frame knows: its settings, its luma plane, the inputs of LAST and of GOLDEN, and its own. -/
structure SearchCtx where
  e      : EncEntry
  luma   : Plane
  last   : List (List Byte)
  golden : List (List Byte)
  hist   : List (List Byte)

/-- A luma sample of the frame; outside it the nearest one. -/
def SearchCtx.at_ (x : SearchCtx) (px py : Nat) : Nat :=
  x.luma.data.getD (min py (x.luma.h - 1) * x.luma.w + min px (x.luma.w - 1)) 0

/-- The cost of a candidate of a block at full-pel: the 8 × 8 SATD over the block plus the vector's cost. -/
def SearchCtx.cost (x : SearchCtx) (block : Nat) (c : Candidate) : Nat :=
  let bx := 16 * (block % max 1 x.e.blockCols)
  let by_ := 16 * (block / max 1 x.e.blockCols)
  let ref := if c.golden then x.golden else x.last
  let diff (px py : Nat) : Int := ((x.at_ px py : Nat) : Int) -
    ((Config.encRecon x.e ref (((px : Nat) : Int) + Config.fullPel c.vec.x) (((py : Nat) : Int) + Config.fullPel c.vec.y) : Nat) : Int)
  let part (ox oy : Nat) : Nat := satd8 ((List.range 8).map (fun j => (List.range 8).map (fun i => diff (bx + ox + i) (by_ + oy + j))))
  part 0 0 + part 8 0 + part 0 8 + part 8 8 + Config.vectorCost x.e x.hist block c.vec

/-- What the search of a block ends with: its final vector, its residual SATD, and whether it was refined at radius 2. -/
structure BlockOut where
  vec    : Option Vec
  satd   : Nat
  narrow : Bool
  deriving DecidableEq, Repr

/-- Search one block of an inter frame: the two cheapest candidates are refined, at radius 2 when the cheapest is a hint with
CONF ≥ HINT_TRUST, else at SEARCH_RANGE. Of equal costs the earlier candidate is the cheaper one (DESIGN CHOICE). -/
def SearchCtx.block (x : SearchCtx) (block : Nat) (l : List Candidate) : BlockOut :=
  let ranked := sortBy (fun q : Nat × Candidate => [q.1]) (l.map (fun c => (x.cost block c, c)))
  let narrow := match ranked with
    | (_, c) :: _ => (match c.hint with | some k => decide (x.e.hintTrust ≤ k) | none => false)
    | [] => false
  let r := if narrow then 2 else x.e.searchRange
  let tried := (ranked.take 2).map (fun q => (Config.refined x.e x.hist block r q.2.vec q.2.golden, q.2.golden))
  let (v, n) := Config.blockChoice x.e x.hist false block tried
  ⟨v, n, narrow⟩

/-- The blocks of an inter frame from block i on; `done`: those before it. -/
def SearchCtx.blocks (x : SearchCtx) (hints : List Hint) (global : Vec) (coloc : List (Option Vec)) :
    Nat → Nat → List BlockOut → List BlockOut
  | 0, _, done => done
  | n + 1, i, done =>
    let cols := x.e.blockCols
    let left := if i % max 1 cols = 0 then none else (done[i - 1]?).bind (·.vec)
    let above := if i < cols then none else (done[i - cols]?).bind (·.vec)
    let right := if i < cols ∨ (i + 1) % max 1 cols = 0 then none else (done[i + 1 - cols]?).bind (·.vec)
    let l := candidates x.e hints[i]? global [left, above, right] (coloc.getD i none)
    SearchCtx.blocks x hints global coloc n (i + 1) (done ++ [x.block i l])

/-- The search of a frame: every block in raster order. A key frame has no vectors. `hist`: the inputs since the last key frame
with its own, `goldAt`: how many of them GOLDEN has, `coloc`: LAST's vectors. -/
def searchFrame (e : EncEntry) (hist : List (List Byte)) (goldAt : Nat) (coloc : List (Option Vec)) (key : Bool)
    (frame plane : List Byte) : List BlockOut :=
  let n := e.blockCols * e.blockRows
  if key then (List.range n).map (fun i => ⟨none, (Config.blockChoice e hist true i []).2, false⟩)
  else
    let hints := if plane.isEmpty then [] else (List.range n).map (hintAt plane)
    let x : SearchCtx := { e := e, luma := ((framePicture e frame).planes.headD ⟨0, 0, []⟩), last := hist.dropLast,
                           golden := hist.take goldAt, hist := hist }
    x.blocks hints (globalVec e hints) coloc n 0 []

/-- cplx of a grid row: the residual SATD of its blocks (R270). -/
def rowCplx (e : EncEntry) (l : List BlockOut) (r : Nat) : Nat :=
  let per := max 1 e.blockCols * (max 16 e.grid / 16)
  sumL (((l.drop (per * r)).take per).map (·.satd))

end Sys2Proof.Machine
end

