-- ==== Sys2Proof/Machine/Weir.lean ====
section
/-! DEFINITION. Weir: metered issue of station transactions, and the refill of the buckets (R406, R410). -/

namespace Sys2Proof.Machine

/-- rate_eff: the lower of WEIR_CFG.RATE and the rate PTC sets (R406). -/
def State.weirRate (s : State) : Nat :=
  match s.ptc.rate with
  | some p => min (s.fld F.WEIR_CFG_RATE) p
  | none => s.fld F.WEIR_CFG_RATE

/-- BURST in bytes. -/
def State.weirBurst (s : State) : Nat := s.fld F.WEIR_CFG_BURST_64K * 65536

/-- WEIR_SHARE of a tenancy. -/
def State.weirShare (s : State) (t : Nat) : Nat := (s.tenEntry t).weirShare

/-- Bytes in a tenancy's bucket. -/
def State.bucket (s : State) (t : Nat) : Nat := s.weir.bucket.getD t 0

/-- Change a tenancy's bucket. -/
def State.modBucket (s : State) (t : Nat) (g : Nat → Nat) : State :=
  { s with weir := { s.weir with bucket := s.weir.bucket.mapIdx (fun i b => if i = t then g b else b) } }

/-- Does a transaction of the tenancy wait for tokens? -/
def State.weirWaits (s : State) (t : Nat) : Bool := s.weir.queue.any (fun x => x.ten == t)

/-- Send one bulk transaction, paid from its tenancy's bucket. -/
def State.weirSend (s : State) (x : WeirTxn) : State :=
  ((s.modBucket x.ten (· - x.len)).addUnits (F.WEIR_TEN_A_BULK_MIB x.ten) 1048576 x.len).issue x.op x.addr x.len x.dies
    0 0 x.data x.purpose

/-- Issue a station transaction. A deadline transaction is never held: it builds debt. A bulk transaction is issued when
its tenancy's bucket holds its bytes and none of the tenancy waits before it, else it waits (R406). -/
def State.issueFor (s : State) (deadline : Bool) (x : WeirTxn) : State :=
  if deadline then
    ({ s with
      weir := { s.weir with dlBytes := s.weir.dlBytes + x.len },
      ptc := { s.ptc with dlMoved := s.ptc.dlMoved + x.len } }.addUnits
      (F.WEIR_TEN_A_DEADLINE_MIB x.ten) 1048576 x.len).issue x.op x.addr x.len x.dies 0 0 x.data x.purpose
  else if !s.weirWaits x.ten && decide (x.len ≤ s.bucket x.ten) then s.weirSend x
  else { s with weir := { s.weir with queue := s.weir.queue ++ [x] } }

/-! ### The limits of a mover engine (R390) -/

/-- Does a purpose of Delta await data, rather than an acknowledgement? -/
def Purpose.awaitsData : Purpose → Bool
  | .source _ _ => true
  | _ => false

/-- May a mover engine issue one more read, or one more write: it holds fewer than 32 reads awaiting data, or 64 writes awaiting
acknowledgement, and none of the kind waits before? What waits for tokens at Weir counts as issued (DESIGN CHOICE). -/
def State.moverRoom (s : State) (e : Nat) (read : Bool) : Bool :=
  !s.dltQueue.any (fun q => q.1 == e && q.2.2.purpose.awaitsData == read) &&
    decide ((s.dltOut.filter (fun q => q.1 == e && q.2.awaitsData == read)).length < if read then 32 else 64)

/-- Issue a transaction of a mover engine, or let its thread wait. -/
def State.issueMover (s : State) (e : Nat) (deadline : Bool) (x : WeirTxn) : State :=
  if s.moverRoom e x.purpose.awaitsData then
    { s with dltOut := s.dltOut ++ [(e, x.purpose)] }.issueFor deadline x
  else { s with dltQueue := s.dltQueue ++ [(e, deadline, x)] }

/-- Issue what waits at the mover engines as far as their limits go, in order. -/
def State.pumpMovers (s : State) : State :=
  s.dltQueue.foldl (fun s q => s.issueMover q.1 q.2.1 q.2.2) { s with dltQueue := [] }

/-- A transaction has its answer: its engine may issue another. -/
def State.freeMover (s : State) (p : Purpose) : State := { s with dltOut := s.dltOut.eraseP (fun q => q.2 == p) }

/-- Transactions of a purpose that are decided and not issued. -/
def State.unissued (s : State) (p : Purpose → Bool) : Nat :=
  (s.weir.queue.filter (fun x => p x.purpose)).length + (s.dltQueue.filter (fun q => p q.2.2.purpose)).length

/-- Write the bytes of a transfer through a mover engine: one WR_MC stream to the compute dies of a mask, or WR when the mask
is 0. -/
def State.writeMover (s : State) (e : Nat) (deadline : Bool) (ten a dies : Nat) (d : List Byte) (p : Purpose) : State :=
  (pieces a d.length).foldl (fun s q =>
    s.issueMover e deadline ⟨ten, if dies = 0 then .wr else .wrMc, q.1, q.2, dies, sliceAt d (q.1 - a) q.2, p⟩) s

/-- Read a range for a station. -/
def State.readFor (s : State) (deadline : Bool) (ten a n : Nat) (p : Purpose) : State :=
  (pieces a n).foldl (fun s q => s.issueFor deadline ⟨ten, .rd, q.1, q.2, 0, [], p⟩) s

/-- Write bytes for a station: one WR_MC stream to the compute dies of a mask, or WR when the mask is 0. -/
def State.writeFor (s : State) (deadline : Bool) (ten a dies : Nat) (d : List Byte) (p : Purpose) : State :=
  (pieces a d.length).foldl (fun s q =>
    s.issueFor deadline ⟨ten, if dies = 0 then .wr else .wrMc, q.1, q.2, dies, sliceAt d (q.1 - a) q.2, p⟩) s

/-- Forget the transactions of a purpose that still wait for tokens or for a mover engine. -/
def State.weirDrop (s : State) (p : Purpose → Bool) : State :=
  let gone := s.weir.queue.filter (fun x => p x.purpose)
  let s := { s with
    weir := { s.weir with queue := s.weir.queue.filter (fun x => !p x.purpose) },
    dltQueue := s.dltQueue.filter (fun q => !p q.2.2.purpose) }
  gone.foldl (fun s x => s.freeMover x.purpose) s

/-- Send what the buckets now pay for, in order within each tenancy. `blocked`: tenancies whose first waiting
transaction does not fit. -/
def weirFlush : List WeirTxn → List Nat → State → State
  | [], _, s => s
  | x :: rest, blocked, s =>
    if !blocked.contains x.ten && decide (x.len ≤ s.bucket x.ten) then
      weirFlush rest blocked ({ s with weir := { s.weir with queue := s.weir.queue.erase x } }.weirSend x)
    else weirFlush rest (x.ten :: blocked) s

/-- Tenancies of a list in rotation from a position. -/
def rotated (from_ : Nat) (l : List Nat) : List Nat := l.filter (fun t => decide (from_ ≤ t)) ++ l.filter (fun t => decide (t < from_))

/-- One QCLK cycle of Weir (R406). `piece t`: a bulk piece of tenancy t waits at Delta for tokens. -/
def State.weirRefill (s : State) (piece : Nat → Bool) : State :=
  let rate := s.weirRate
  let burst := s.weirBurst
  let pay := min s.weir.debt rate
  let r := rate - pay
  let waiting := (List.range 16).filter (fun t => s.weirWaits t || piece t)
  let w := if waiting.any (fun t => decide (0 < s.weirShare t)) then
    waiting.filter (fun t => decide (0 < s.weirShare t)) else waiting
  let total := sumBy (fun t => max (s.weirShare t) 1) w
  let part (t : Nat) : Nat := r * max (s.weirShare t) 1 / total
  let rest := if w.isEmpty then 0 else r - sumBy part w
  let extra := (rotated s.weir.rot w).take rest
  let bucket := s.weir.bucket.mapIdx (fun t b =>
    if w.contains t then min (min (b + part t) burst + (if extra.contains t then 1 else 0)) burst else b)
  let rot := match extra.getLast? with | some t => (t + 1) % 16 | none => s.weir.rot
  let s := { s with weir := { s.weir with
    bucket := bucket, rot := rot, debt := min (s.weir.debt - pay + s.weir.dlBytes) (4 * burst), dlBytes := 0 } }
  let s := waiting.foldl (fun s t => s.addUnits (F.WEIR_TEN_B_HELD_US t) 1000 1) s
  weirFlush s.weir.queue [] s

end Sys2Proof.Machine
end

