-- ==== Sys2Proof/Machine/Encode.lean ====
section
/-! DEFINITION. Encoding: the frame clock's state, rate control, the HRD model, reference frames, repeat frames, chunks
and the packet ring (R260 to R289). -/

namespace Sys2Proof.Machine

/-- Change the encode context of a flow. -/
def State.modEnc (s : State) (f : Nat) (g : EncCtx → EncCtx) : State := s.modRun f (fun r => { r with enc := g r.enc })

/-- The encode context of a flow at its quoin point (R268, R271). -/
def EncCtx.start (e : EncEntry) : EncCtx :=
  { (FlowRun.fresh 0).enc with full := ((e.hrdB * e.initFull / 256 : Nat) : Int), rate := e.rateKbps, gain := [e.aInit, e.aInit],
                               prev := [none, none] }

/-- The run-time context of a flow at its quoin point. -/
def FlowRun.start (cs : List CodecEntry) (f : Nat) : FlowRun :=
  match encOf cs f with
  | some e => { FlowRun.fresh f with enc := EncCtx.start e }
  | none => FlowRun.fresh f

/-! ### Rate control (R271 to R276) -/

/-- 65,536 × 2^(−k/6) (R273). -/
def rateStep (k : Nat) : Nat := nth [65536, 58386, 52016, 46341, 41285, 36781] k

/-- A number as the u64 arithmetic of R273 and R276 holds it. -/
def u64 (n : Nat) : Nat := n % 2 ^ 64

/-- est(c, q) in bits, for gain a, in u64 arithmetic (R273). -/
def est (a c q : Nat) : Nat := u64 (c * a * rateStep (q % 6)) / 2 ^ (q / 6 + 24)

/-- Sum of est over rows. -/
def estSum (a : Nat) (cs : List Nat) (q : Nat) : Nat := u64 (sumL (cs.map (fun c => est a c q)))

/-- The least q in [lo, hi] at which the rows' estimate is within T, or hi (R273). -/
def leastQ (a : Nat) (cs : List Nat) (t : Int) (lo hi : Nat) : Nat :=
  ((List.range (hi + 1 - lo)).map (· + lo)).find? (fun q => decide (((estSum a cs q : Nat) : Int) ≤ t)) |>.getD hi

/-- The frame cap in bytes (R272); none below 0. -/
def capOf (e : EncEntry) (full : Int) (key : Bool) : Int :=
  let c := full / 8
  if e.rcMode = 3 then min c ((if key then e.keyLatBytes else e.latBytes : Nat) : Int) else c

/-- The target T of a frame (R273). The upper limit wins where the two limits cross. -/
def targetOf (e : EncEntry) (inc : Nat) (full cap : Int) (key : Bool) : Int :=
  let t := ((inc : Nat) : Int) + (full - ((e.hrdB / 2 : Nat) : Int)).tdiv 8
  let t := if key then (t * ((e.keyBoost : Nat) : Int)).tdiv 16 else t
  min (max t ((inc / 4 : Nat) : Int)) (8 * cap)

/-- q0 of a frame (R273). `prev`: the rows' complexities of the last coded frame of its type. -/
def startQ (e : EncEntry) (a : Nat) (prev : Option (List Nat)) (t : Int) (key : Bool) : Nat :=
  let base := if key then e.qKey else e.qInter
  if e.rcMode = 2 then base
  else if e.rcMode = 1 then
    match prev with
    | some cs => if t < ((estSum a cs base : Nat) : Int) then leastQ a cs t base e.qpMax else base
    | none => base
  else match prev with
    | some cs => leastQ a cs t e.qpMin e.qpMax
    | none => e.qInit

/-- The steps up of q_row. -/
def qUp (a c share hi : Nat) : Nat → Nat → Nat
  | 0, q => q
  | n + 1, q => if q < hi ∧ share < est a c q then qUp a c share hi n (q + 1) else q

/-- The steps down of q_row. -/
def qDown (a c share lo : Nat) : Nat → Nat → Nat
  | 0, q => q
  | n + 1, q => if lo < q ∧ est a c (q - 1) ≤ share then qDown a c share lo n (q - 1) else q

/-- What the row decisions know of a frame. -/
structure RowCtx where
  e     : EncEntry
  hist  : List (List Byte)
  key   : Bool
  a     : Nat
  t     : Int
  q0    : Nat
  cap   : Int
  hdr   : Nat
  bins  : Nat
  prev  : List Nat
  cplxs : List Nat

/-- Complexity of row r of the frame. -/
def RowCtx.cplx (x : RowCtx) (r : Nat) : Nat := nth x.cplxs r

/-- q_row(r) with the quantisers of the rows before it and the bytes of the rows that Millrace has finished (R273). -/
def RowCtx.qRow (x : RowCtx) (r : Nat) (qs rows : List Nat) : Nat :=
  if r = 0 ∨ x.e.rcMode = 2 then x.q0
  else
    let q' := qs.getD (r - 1) x.q0
    let spent := u64 (8 * (x.hdr + sumL rows) + est x.a (x.cplx (r - 1)) q')
    let left := if ((spent : Nat) : Int) < x.t then (x.t - spent).toNat else 0
    let rest := sumL (x.prev.drop (r + 1))
    let c := x.cplx r
    let share := if u64 (c + rest) = 0 then left else u64 (left * c) / u64 (c + rest)
    let lo := max x.e.qpMin (q' - 6)
    let hi := min x.e.qpMax (q' + 6)
    let lo := if x.e.rcMode = 1 then max lo x.q0 else lo
    qDown x.a c share lo 52 (qUp x.a c share hi 52 (min hi (max lo q')))

/-- rmin_after(r) in bytes. -/
def RowCtx.rminAfter (x : RowCtx) (r : Nat) : Nat := (if x.key then 24 else 8) * x.e.gridCols * (x.e.gridRows - 1 - r)

/-- Does the byte guard fire when Millrace finishes row r (R273)? `rows`: bytes of rows 0 to r. -/
def RowCtx.byteGuard (x : RowCtx) (r : Nat) (rows : List Nat) : Bool :=
  x.e.trail == 0 && decide (x.cap < ((x.hdr + sumL rows + x.rminAfter r : Nat) : Int))

/-- The rows of a frame: Platen decides row r while Millrace has finished the rows before r − 1, then Millrace finishes
row r − 1 and takes row r (R273). Answers the quantisers, the bytes of the rows coded as decided, the first minimal row,
the bins of the rows before it, and how many rows were discarded. -/
def RowCtx.run (x : RowCtx) : Nat → Nat → List Nat → List Nat → List Nat → List Nat × List Nat × Nat × List Nat × Nat
  | 0, r, qs, rows, bins => (qs, rows, r, bins, 0)
  | fuel + 1, r, qs, rows, bins =>
    let n := x.e.gridRows
    if r = n then
      let rows' := rows ++ [(Config.encRow x.e x.hist x.key qs).1]
      if x.byteGuard (n - 1) rows' then
        (qs.take (n - 1), rows, n - 1, bins.take (n - 1), 1)
      else (qs, rows', n, bins, 0)
    else
      let q := x.qRow r qs rows
      let prevRow := Config.encRow x.e x.hist x.key qs
      let rows' := if r = 0 then rows else rows ++ [prevRow.1]
      if r ≠ 0 && x.byteGuard (r - 1) rows' then (qs.take (r - 1), rows, r - 1, bins.take (r - 1), 2)
      else
        let b := (Config.encRow x.e x.hist x.key (qs ++ [q])).2
        if x.bins < sumL bins + b + 64 * x.e.gridCols * (n - 1 - r) then (qs, rows', r, bins, 0)
        else RowCtx.run x fuel (r + 1) (qs ++ [q]) rows' (bins ++ [b])

/-- Bytes and bins of a minimal row, within R274's limits. -/
def RowCtx.minimal (x : RowCtx) (r : Nat) : Nat × Nat :=
  let m := Config.encMinimal x.e x.hist x.key r
  (min m.1 ((if x.key then 24 else 8) * x.e.gridCols), min m.2 (64 * x.e.gridCols))

/-- inc and rem of the tick that yields a frame (R271). -/
def incOf (rate period rem : Nat) : Nat × Nat :=
  let v := 1000 * rate * period + rem
  (v / 10 ^ 9, v % 10 ^ 9)

/-- Is a key frame due (R268)? -/
def EncCtx.keyWanted (c : EncCtx) (e : EncEntry) (force : Bool) : Bool :=
  !c.coded || c.keyDue || force || (e.keyInterval != 0 && decide (e.keyInterval ≤ c.sinceKey))

/-- Row boundaries of the tile rows: the tile row of a grid row (R277). PRESUMED: the uniform split of each codec. -/
def EncEntry.tileRowOf (e : EncEntry) (r : Nat) : Nat :=
  if e.codec = 1 then r / max 1 (ceilDiv e.gridRows e.tileRows)
  else ((List.range e.tileRows).filter (fun j => decide ((j + 1) * e.gridRows / e.tileRows ≤ r))).length

/-- The form of a repeat frame after the last coded one (R267). -/
def EncCtx.repeatForm (c : EncCtx) (e : EncEntry) : RepeatForm :=
  if e.codec = 2 then .trailN else if c.lastInter then .showExisting else .skipInter

/-- Bytes of a repeat: within the cap of an inter frame with TRAIL 0, and with TRAIL 1 fewer bits than the tick brings, so that F
recovers (R272, R275). -/
def EncCtx.repeatBytes (c : EncCtx) (e : EncEntry) (inc : Nat) : Nat :=
  min (Config.encRepeat e c.hist (c.repeatForm e)) (if e.trail = 0 then (capOf e c.full false).toNat else (inc - 1) / 8)

/-- Start the frame of a task at Platen: repeat, postponed key or coded frame, its search and its rows (R266 to R276). -/
def EncPlan.begin (p : EncPlan) (fe : FlowEntry) (e : EncEntry) (c : EncCtx) : EncPlan :=
  let rate := p.newRate.getD c.rate
  let (inc, _) := incOf rate fe.periodNs c.rem
  let want := c.keyWanted e p.force
  let postponed := want && decide (capOf e c.full true < ((e.rmin true : Nat) : Int))
  if p.again || p.synth || postponed then
    { p with started := true, again := true, key := false, inc := inc, capped := postponed && !p.again && !p.synth,
             hist := c.hist, hdr := c.repeatBytes e inc, form := c.repeatForm e }
  else
    let key := want
    let hist := (if key then [] else c.hist) ++ [p.input]
    let cap := capOf e c.full key
    let i := if key then 0 else 1
    let a := nth c.gain i
    let t := targetOf e inc c.full cap key
    let prev := c.prev.getD i none
    let n := e.gridRows
    let found := searchFrame e hist c.goldAt c.lastVecs key p.input p.hints
    let x : RowCtx := { e := e, hist := hist, key := key, a := a, t := t, q0 := startQ e a prev t key, cap := cap,
                        hdr := min 1024 (Config.encHeader e hist key), bins := fe.cls.bins, prev := prev.getD [],
                        cplxs := (List.range n).map (rowCplx e found) }
    let (qs, rows, minFrom, bins, gone) := x.run (n + 1) 0 [] [] []
    let small := (List.range (n - minFrom)).map (fun j => x.minimal (minFrom + j))
    let rowBins := bins.take minFrom ++ small.map (·.2)
    { p with started := true, again := false, key := key, inc := inc, hist := hist, vecs := found.map (·.vec),
             narrow := (found.filter (·.narrow)).length, q0 := x.q0, qs := qs, cplx := x.cplxs,
             rows := rows.take minFrom ++ small.map (·.1), rowBins := rowBins, minFrom := minFrom, hdr := x.hdr,
             bins := sumL rowBins, gone := gone, capped := decide (minFrom < n) }

/-- Bytes of a frame before filler: a repeat has no rows. -/
def EncPlan.bytes (p : EncPlan) : Nat := p.hdr + sumL p.rows

/-- The HRD model after a frame of `bytes` bytes (R271): filler bytes, and the new F. -/
def hrdAfter (e : EncEntry) (full : Int) (inc bytes : Nat) : Nat × Int :=
  let f := full - ((8 * bytes : Nat) : Int) + ((inc : Nat) : Int)
  let b := ((e.hrdB : Nat) : Int)
  if e.rcMode = 0 ∧ b < f then (ceilDiv (f - b).toNat 8, b) else (0, min b f)

/-- A[t] after a coded frame (R276). -/
def gainAfter (a : Nat) (p : EncPlan) : Nat :=
  let rows := (List.range p.minFrom)
  let act := 8 * sumL (p.rows.take p.minFrom)
  let es := u64 (sumL (rows.map (fun r => est a (nth p.cplx r) (nth p.qs r))))
  if es = 0 then a else u64 (3 * a + u64 (a * act) / es) / 4

/-- Grid rows of the chunks of a frame (R277): those of each tile row when CHUNKED is set, else all. -/
def EncPlan.chunkRows (p : EncPlan) (e : EncEntry) : List (List Nat) :=
  let all := List.range p.rows.length
  if p.again ∨ !bit e.flags 2 then [all]
  else ((List.range e.tileRows).map (fun j => all.filter (fun r => e.tileRowOf r == j))).filter (fun l => !l.isEmpty)

/-- The chunks of a frame (R277): the header leads and filler ends it. -/
def frameChunks (e : EncEntry) (p : EncPlan) (filler task : Nat) : List Chunk :=
  let sizes := (p.chunkRows e).mapIdx (fun i l => sumL (l.map (nth p.rows)) + (if i = 0 then p.hdr else 0))
  let n := sizes.length
  let starts := (List.range n).map (fun i => sumL (sizes.take i))
  let at_ (k : Nat) : Byte := if p.again then Config.repeatByte e p.hist p.form k else Config.encByte e p.hist p.qs p.minFrom k
  (List.range n).map (fun i =>
    let size := nth sizes i + (if i + 1 = n then filler else 0)
    { frame := p.tick % 2 ^ 32, num := i,
      flags := b2n (i == 0) + 2 * b2n (i + 1 == n) + 4 * b2n p.key + 8 * b2n p.again,
      bytes := (List.range size).map (fun j => at_ (nth starts i + j)), task := task })

/-- Chunks of a frame that are complete when `done` bins are coded: those of whole tile rows, but not the last, which ends with
the frame (R277). -/
def EncPlan.chunksDone (p : EncPlan) (e : EncEntry) (done : Nat) : Nat :=
  let l := p.chunkRows e
  min (l.length - 1) ((List.range l.length).filter (fun i => decide (sumL (((l.take (i + 1)).flatten).map (nth p.rowBins)) ≤ done))).length

/-! ### A task's frame at the stations -/

/-- Change a task's frame. -/
def State.modFrame (s : State) (id : Nat) (g : EncPlan → EncPlan) : State :=
  s.modTask id (fun t => { t with enc := t.enc.map g })

/-- Platen starts the frame of a task (R272): its inc leaves rem and the rate for the next (R271), an inter frame reads the metadata
block of LAST (R259), and a repeat that a due key frame met leaves that frame due. -/
def State.startFrame (s : State) (fe : FlowEntry) (e : EncEntry) (id : Nat) : State :=
  match s.task? id with
  | none => s
  | some t => match t.enc with
    | none => s
    | some p =>
      let c := (s.run fe.flow).enc
      let p' := p.begin fe e c
      let due := c.keyWanted e p.force && c.coded
      let s := s.modFrame id (fun _ => p')
      let s := s.addFld F.STN_PLT_SEARCH_HINT_NARROW p'.narrow
      let s := match (if p'.again ∨ p'.key then none else c.refs.getD 0 none) with | some h => s.holdMark id h | none => s
      s.modEnc fe.flow (fun c => { c with
        keyDue := if p'.again then c.keyDue || due else if p'.key then false else c.keyDue,
        rate := p.newRate.getD c.rate, rem := (incOf (p.newRate.getD c.rate) fe.periodNs c.rem).2 })

/-- Blocks of an encoded frame's buffer (R259). -/
def encBlocks (e : EncEntry) : List Nat := frameBlocks e.picW e.picH (decide (8 < e.depth)) 1

/-- Platen has reconstructed the frame of a task: its buffer takes the place of LAST, and of GOLDEN at a key frame and
every GOLDEN_INTERVAL frames (R235, R267, R269). PRESUMED: which frames refresh GOLDEN. -/
def State.platenFrame (s : State) (fe : FlowEntry) (e : EncEntry) (id : Nat) : State :=
  match s.task? id with
  | none => s
  | some t => match t.enc with
    | none => s
    | some p =>
      if p.again then (s.incFld F.STN_PLT_ENC_COUNT_FRAMES).incFld F.STN_PLT_ENC_COUNT_REPEATS
      else match (s.unhold id).takeHandle t t.blocks with
      | (s, none) => (s.modEnc fe.flow (fun c => { c with keyDue := true })).stopTask id 0x42 true
      | (s, some h) =>
        let s := s.incFld F.STN_PLT_ENC_COUNT_FRAMES
        let c := (s.run fe.flow).enc
        let golden := e.refFrames == 2 && (p.key || decide (e.goldenInt ≤ c.sinceGold + 1))
        let old := (if golden then c.refs else c.refs.take 1).filterMap (fun x => x)
        let s := s.updateMark h (if golden then 2 else 1) (some false) none id
        let s := s.modEnc fe.flow (fun c => { c with
          refs := [some h, if golden then some h else c.refs.getD 1 none],
          hist := (if p.key then [] else c.hist) ++ [p.input ++ (p.minFrom :: p.qs).map (BitVec.ofNat 8)],
          goldAt := if golden then (if p.key then 1 else c.hist.length + 1) else c.goldAt, lastVecs := p.vecs,
          coded := true, lastInter := !p.key, lastQ0 := p.q0,
          sinceKey := if p.key then 0 else c.sinceKey + 1, sinceGold := if golden then 0 else c.sinceGold + 1 })
        s.dropRefs id old

/-- DETAIL of an encode task (R281). -/
def encDetail (t : Task) (p : EncPlan) (bytes : Nat) : BitVec 32 :=
  BitVec.ofNat 32 (t.detail.toNat % 8 + 8 * b2n p.key + 16 * b2n p.capped + 32 * b2n p.synth + 64 * (p.q0 % 64) +
    4096 * (ceilDiv bytes 16 % 2 ^ 20))

/-- Millrace has finished the frame of a task: the HRD model and the rate model move on, and its chunks are made (R271,
R275 to R278). -/
def State.millraceFrame (s : State) (fe : FlowEntry) (e : EncEntry) (id : Nat) : State :=
  match s.task? id with
  | none => s
  | some t => match t.enc with
    | none => s
    | some p =>
      let c := (s.run fe.flow).enc
      let bytes := p.bytes
      let (filler, full) := hrdAfter e c.full p.inc bytes
      let total := bytes + filler
      let i := if p.key then 0 else 1
      let ix := s.codecIndex fe.flow
      let s := if p.capped then s.incFld (F.STN_PLT_ENC_A_CAPPED ix) else s
      let s := if full < 0 then s.incFld (F.STN_PLT_ENC_B_HRD_OVER ix) else s
      let s := if p.again then s else
        (s.addFld F.STN_MR_ENC_COUNT_ROWS (p.rows.length * e.tileCols)).addFld F.STN_MR_ENC_COUNT_DISCARDED p.gone
      let s := s.modEnc fe.flow (fun c =>
        { c with full := full,
                 gain := if p.again then c.gain else c.gain.set i (gainAfter (nth c.gain i) p),
                 prev := if p.again then c.prev else c.prev.set i (some p.cplx),
                 chunks := c.chunks ++ (frameChunks e p filler id).drop p.sent })
      (s.modFrame id (fun p => { p with filler := filler })).modTask id (fun t => { t with
        detail := encDetail t p total, status := if p.again then 0x03 else 0x00 })

/-- Millrace has coded so many bins of a frame: the chunks of its whole tile rows can go (R277). -/
def State.codedRows (s : State) (fe : FlowEntry) (e : EncEntry) (id coded : Nat) : State :=
  match (s.task? id).bind (·.enc) with
  | none => s
  | some p =>
    let n := p.chunksDone e coded
    let new := ((frameChunks e p 0 id).take n).drop p.sent
    (s.modFrame id (fun p => { p with sent := max p.sent n })).modEnc fe.flow (fun c => { c with chunks := c.chunks ++ new })

/-! ### The packet ring (R277 to R280, R289) -/

/-- The 16-byte chunk header (R278). -/
def chunkHeader (len frame num flags crc : Nat) : List Byte :=
  leBytes 4 len ++ leBytes 4 frame ++ leBytes 2 num ++ leBytes 1 flags ++ leBytes 1 0 ++ leBytes 4 crc

/-- A chunk as it lies in the ring. -/
def Chunk.image (c : Chunk) : List Byte :=
  chunkHeader c.bytes.length c.frame c.num c.flags (crc32c c.bytes) ++
    padTo (roundUp c.bytes.length 16) c.bytes

/-- Bytes of the ring in use. -/
def EncCtx.usedBytes (c : EncCtx) (size : Nat) : Nat := (c.wrOff + size - c.rdOff) % max 1 size

/-- Where a chunk of n bytes goes: PAD bytes before it, or none when it does not fit (R278, R279). -/
def EncCtx.place (c : EncCtx) (size n : Nat) : Option Nat :=
  let pad := if size - c.wrOff < n then size - c.wrOff else 0
  if c.usedBytes size + pad + n ≤ size - 16 then some pad else none

/-- Write the packet chunk `img`, after a PAD header when the end of the ring is too near. -/
def State.putChunk (s : State) (fe : FlowEntry) (e : EncEntry) (c : Chunk) (pad : Nat) : State :=
  let r := (s.run fe.flow).enc
  let img := c.image
  let head := if pad = 0 then [] else chunkHeader (pad - 16) c.frame c.num 16 0
  let a := e.pktBase + r.wrOff
  let at_ := if pad = 0 then r.wrOff else 0
  let n := (pieces a head.length).length + (pieces (e.pktBase + at_) img.length).length
  let s := s.writeFor fe.deadline fe.ten a 0 head (.packet fe.flow)
  let s := s.writeFor fe.deadline fe.ten (e.pktBase + at_) 0 img (.packet fe.flow)
  s.modEnc fe.flow (fun r => { r with
    chunks := r.chunks.drop 1, chunkOut := n, wrOff := (at_ + img.length) % max 1 e.pktSize })

/-- Outfall's next chunk of a flow (R277 to R280): one of a frame's earlier tile rows while Millrace still codes it, the last once
the frame has reached Outfall. A chunk of a task that has ended is dropped. -/
def State.chunkWrite (s : State) (flow : Nat) : State :=
  match s.flow? flow, s.enc? flow with
  | some fe, some e =>
    let r := (s.run flow).enc
    if r.chunkOut ≠ 0 then s
    else match r.chunks with
    | [] => s
    | c :: rest => match s.task? c.task with
      | none => s.modEnc flow (fun r => { r with chunks := rest })
      | some t =>
        if t.stopping then s.modEnc flow (fun r => { r with chunks := rest })
        else if t.phase ≠ .chunking ∧ bit c.flags 1 then s
        else if !inWindows t.windows false true e.pktBase e.pktSize then
          (((s.windowFail fe.ten e.pktBase 2 (.task t.id)).modEnc flow (fun r => { r with
            chunks := r.chunks.filter (fun x => x.task != t.id) }))).stopTask t.id 0x41 (c.num != 0)
        else match r.place e.pktSize c.image.length with
        | none => (s.setFld (F.TEN_PKT_STATUS_FULL fe.ten) 1).raiseOn 0x05 (.flow flow)
        | some pad =>
          let s := s.putChunk fe e c pad
          let s := s.modTask t.id (fun t => { t with writesOut := t.writesOut + 1 })
          if bit c.flags 1 then s.placeOutputs t.id else s
  | _, _ => s

/-- A packet write of a flow is acknowledged: with the last of a chunk, the next may go; with the last chunk of a frame,
its task ends (R280). -/
def State.ackedChunk (s : State) (flow : Nat) : State :=
  let r := (s.run flow).enc
  let s := s.modEnc flow (fun r => { r with chunkOut := r.chunkOut - 1 })
  if r.chunkOut ≤ 1 then
    match s.tasks.find? (fun t => t.flow == flow && t.writesOut != 0 && t.enc.isSome) with
    | none => s
    | some t =>
      let s := s.modTask t.id (fun t => { t with writesOut := t.writesOut - 1 })
      if t.phase = .chunking ∧ !(r.chunks.any (fun c => c.task == t.id)) then s.finishTask t.id else s
  else s

/-- A push to TEN_PKT_DOORBELL (R279, R289). -/
def State.pktPush (s : State) (t : Nat) (v : Word) : State :=
  let flow := getBits v 0 12
  let rd := getBits v 12 30
  match s.flowOf? t flow, s.enc? flow with
  | some _, some e =>
    let r := (s.run flow).enc
    if rd % 16 = 0 ∧ rd < e.pktSize ∧ (rd + e.pktSize - r.rdOff) % max 1 e.pktSize ≤ r.usedBytes e.pktSize then
      s.modEnc flow (fun r => { r with rdOff := rd })
    else s.incFld (F.TEN_PKT_STATUS_BAD_PUSH t)
  | _, _ => s.incFld (F.TEN_PKT_STATUS_BAD_PUSH t)

end Sys2Proof.Machine
end

