-- ==== Sys2Proof/Machine/Delta.lean ====
section
/-! DEFINITION. Delta for streaming flows: chains, streams, layers, staging, alternates, transfers, the stagger, aborts
and the end of a task (R381 to R408). -/

namespace Sys2Proof.Machine

/-! ### Kinds and lookups -/

/-- A live streaming flow of a tenancy. -/
def State.streamingOf? (s : State) (t f : Nat) : Option FlowEntry := (s.flowOf? t f).filter (·.streaming)

/-- A streaming task with nothing of its chain fetched (R381). -/
def DeltaTask.blank : DeltaTask :=
  { prim := [], descs := [], nextAddr := 0, fetched := 0, alts := [], altFetch := [], todo := [], xfers := [], reads := [],
    nextKey := 0, started := false, layerWait := false, noStage := false, waitFrom := none, drainNs := 0, staged := false,
    staggered := false, altUsed := false, wrote := [], used := 0, faultIdx := none }

/-- Change the Delta side of a task. -/
def State.modDelta (s : State) (id : Nat) (g : DeltaTask → DeltaTask) : State :=
  s.modTask id (fun t => { t with delta := t.delta.map g })

/-- Change the Delta context of a flow. -/
def State.modDlt (s : State) (f : Nat) (g : DltCtx → DltCtx) : State :=
  s.modRun f (fun r => { r with dlt := g r.dlt })

/-- Station code of a task's present stage; 0 past the end of its path. -/
def State.stationOf (s : State) (t : Task) : Nat := match s.flow? t.flow with
  | some fe => fe.path.getD t.stage 0
  | none => 0

/-- Is the task a streaming task whose chain is complete and which has reached Delta? -/
def State.atDelta (s : State) (t : Task) : Bool := t.delta.isSome && t.phase == .ready && s.stationOf t == 9

/-- Is a task the active one of its stream, or on stream 0 (R394)? -/
def State.streamActive (s : State) (t : Task) : Bool :=
  match t.delta with
  | some d => match d.prim with
    | x :: _ => x.stream == 0 || (s.run t.flow).dlt.streams.any (fun r => r.active == t.id)
    | [] => true
  | none => true

/-- Layer of a streaming task: LAYER of its first descriptor. -/
def DeltaTask.layer (d : DeltaTask) : Nat := match d.prim with | x :: _ => x.layer | [] => 0

/-- Does the first descriptor set LAYER_FENCE? -/
def DeltaTask.fence (d : DeltaTask) : Bool := match d.prim with | x :: _ => x.fence | [] => false

/-- Dies whose LAYER_DONE the task asks for: the union of the DIR 0 masks of its DONE_WAIT descriptors (R396). -/
def DeltaTask.doneMask (d : DeltaTask) : Nat :=
  d.descs.foldl (fun m x => if x.doneWait && x.dir == 0 then m ||| x.dieMask else m) 0

/-- Record the last task that Delta aborted or refused (R409). -/
def State.dltLast (s : State) (t : Task) (reason idx : Nat) : State :=
  s.setFlds [(F.STN_DLT_LAST_FLOW, t.flow), (F.STN_DLT_LAST_TENANCY, t.ten), (F.STN_DLT_LAST_REASON, reason),
    (F.STN_DLT_LAST_INDEX, idx)]

/-- Give back one block that a task holds in a pool. -/
def State.dropBlock (s : State) (id p : Nat) : State :=
  match s.task? id with
  | some t => if t.blocks.contains p then
      (s.modTask id (fun t => { t with blocks := t.blocks.erase p })).freeBlocks t.flow [p] else s
  | none => s

/-- Bytes of staging that a flow holds: the staging blocks of its transfers (R397). -/
def State.stagedBytes (s : State) (f : Nat) : Nat :=
  sumBy (fun t => match t.delta with
    | some d => sumBy (fun x => match x.pool with | some p => blockBytes (p % 16) | none => 0) d.xfers
    | none => 0) (s.tasksOf f)

/-! ### Aborts (R402) -/

/-- Put element ranges back in order. -/
def backTodo (l : List (Nat × Nat × Nat)) (r : List (Nat × Nat × Nat)) : List (Nat × Nat × Nat) :=
  r.foldl (fun acc x => insertBy (fun q => [q.1, q.2.1]) x acc) l

/-- Discard the transfers that a test names and that have written nothing: their elements are to be moved again, and
their staging blocks return. Answers the state; work counted for reads never issued is taken off. -/
def State.discard (s : State) (id : Nat) (p : Xfer → Bool) : State :=
  match s.task? id with
  | some t => match t.delta with
    | some d =>
      let gone := d.xfers.filter (fun x => x.state != .writing && p x)
      let s := s.modDelta id (fun d => { d with
        xfers := d.xfers.filter (fun x => x.state == .writing || !p x),
        todo := gone.foldl (fun l x => backTodo l x.segs) d.todo })
      gone.foldl (fun s x => match x.pool with | some q => s.dropBlock id q | none => s) s
    | none => s
  | none => s

/-- Is a purpose a Delta transaction of a task? -/
def Purpose.deltaOf (id : Nat) : Purpose → Bool
  | .source t _ => t == id
  | .dest t _ => t == id
  | .descriptor t _ _ => t == id
  | _ => false

/-- Stop the Delta work of a task: no further read or write is issued, awaited data are discarded, staging returns; the
writes already issued are awaited (R402). -/
def State.haltDelta (s : State) (id : Nat) : State :=
  let waiting := s.unissued (fun p => match p with | .dest t _ => t == id | _ => false)
  let s := (s.weirDrop (Purpose.deltaOf id)).discard id (fun _ => true)
  s.modTask id (fun t => { t with readsOut := 0, writesOut := t.writesOut - waiting })

/-- Abort a task at Delta under R402: OUT_INVALID is set and DETAIL names the descriptor. -/
def State.deltaAbort (s : State) (id status reason idx : Nat) : State :=
  match s.task? id with
  | some t =>
    if t.stopping then s else
    let s := ((s.modDelta id (fun d => { d with faultIdx := some idx })).haltDelta id).stopTask id status true
    (s.incFld F.STN_DLT_COUNT_B_ABORTS).dltLast t reason idx
  | none => s

/-- Refuse a task before it has written: nothing of it is written (R385, R387). -/
def State.chainRefuse (s : State) (id status idx : Nat) : State :=
  match s.task? id with
  | some t =>
    if t.stopping then s else
    ((s.modDelta id (fun d => { d with faultIdx := some idx })).haltDelta id).stopTask id status (statusInvalid status)
  | none => s

/-- Delta refuses a task that has not written, at an alternate; what Headwater refuses is not Delta's (R400, R409). -/
def State.deltaRefuse (s : State) (id status reason idx : Nat) : State :=
  match s.task? id with
  | some t => if t.stopping then s else (s.chainRefuse id status idx).dltLast t reason idx
  | none => s

/-! ### The chain (R381, R385, R387, R394) -/

/-- Fetch one descriptor. -/
def State.fetchDesc (s : State) (t : Task) (idx a : Nat) (isAlt : Bool) : State :=
  match s.flow? t.flow with
  | some fe => (s.modTask t.id (fun t => { t with readsOut := t.readsOut + 1 })).issueFor fe.deadline
      ⟨t.ten, .rd, a, 128, 0, [], .descriptor t.id idx isAlt⟩
  | none => s

/-- Headwater acts on the stream of a task it takes (R394): false when one is already pending. -/
def State.takeStream (s : State) (t : Task) (stream : Nat) : State × Bool :=
  if stream = 0 then (s, true)
  else match (s.run t.flow).dlt.streams.find? (fun x => x.stream == stream) with
    | none => (s.modDlt t.flow (fun c => { c with streams := c.streams ++ [⟨stream, t.id, none⟩] }), true)
    | some x => match x.pend with
      | none => (s.modDlt t.flow (fun c => { c with
          streams := updateWhere c.streams (fun y => y.stream == stream) (fun y => { y with pend := some t.id }) }), true)
      | some _ => (s, false)

/-- A window failure of a task at one of its descriptors (R387). -/
def State.descWindow (s : State) (t : Task) (a access idx : Nat) : State :=
  (s.windowFail t.ten a access (.task t.id)).chainRefuse t.id 0x41 idx

/-- A streaming task's own descriptor has arrived (R381, R385, R387): its checks, its stream, then the next one. -/
def State.gotDesc (s : State) (fe : FlowEntry) (t : Task) (d : DeltaTask) (idx : Nat) (b : List Byte) : State :=
  let x := parseDesc b
  if !descOk fe (d.prim.head?.map (·.stream)) idx false b then s.chainRefuse t.id 0x43 idx
  else match x.outside t.windows with
    | some (a, acc) => s.descWindow t a acc idx
    | none =>
      let s := s.modDelta t.id (fun d => { d with prim := d.prim ++ [x], descs := d.descs ++ [x] })
      let (s, ok) := if idx = 0 then s.takeStream t x.stream else (s, true)
      if !ok then (s.incFld F.STN_DLT_COUNT_B_REARM_BUSY).stopTask t.id 0x40 false
      else if x.next = 0 then
        s.modTask t.id (fun t => { t with phase := if fe.deadline && t.readyBy.isNone then .waiting else .ready })
      else if fe.cls.bytesIn < d.fetched + 128 then
        ((s.countOverclass fe.flow).modDelta t.id (fun d => { d with faultIdx := some (idx + 1) })).stopTask t.id 0x21 true
      else if !inWindows t.windows true false x.next 128 then s.descWindow t x.next 1 (idx + 1)
      else (s.modDelta t.id (fun d => { d with fetched := d.fetched + 128, nextAddr := x.next })).fetchDesc t (idx + 1)
        x.next false

/-! ### Transfers (R388, R389, R397) -/

/-- Do two descriptors agree in what R388 asks for a merge? -/
def sameAttrs (a b : Desc) : Bool :=
  a.dir == b.dir && a.dieMask == b.dieMask && a.fmtIn == b.fmtIn && a.fmtOut == b.fmtOut && a.layer == b.layer &&
  a.order == b.order && a.fence == b.fence && a.doneWait == b.doneWait && a.notify == b.notify

/-- May a transfer of descriptor k start: its alternate is not awaited, and ORDER is satisfied (R391)? -/
def DeltaTask.mayStart (d : DeltaTask) (k : Nat) : Bool :=
  !(d.altFetch.contains k) && (match d.descs[k]? with
    | some x => !x.order || (d.todo.all (fun r => decide (k ≤ r.1)) &&
        d.xfers.all (fun y => y.segs.all (fun r => decide (k ≤ r.1))) && d.altFetch.all (fun j => decide (k ≤ j)))
    | none => false)

/-- Extend a transfer over following descriptors (R388). Answers the segments, newest first, and the elements taken. -/
def mergeGo (ds : List Desc) (d0 : Desc) (cap : Nat) (fetching : List Nat) :
    Nat → List (Nat × Nat × Nat) → List (Nat × Nat × Nat) → Nat → List (Nat × Nat × Nat) × Nat
  | 0, _, segs, n => (segs, n)
  | fuel + 1, todo, segs, n =>
    match segs, todo with
    | (k, i, c) :: _, (k', 0, c') :: rest =>
      match ds[k]?, ds[k']? with
      | some x, some y =>
        if k' = k + 1 ∧ i + c = x.count ∧ n < cap ∧ sameAttrs d0 y ∧ y.order = false ∧ !(fetching.contains k') ∧
            y.srcAt 0 = x.srcAt (i + c - 1) + elemSize x.fmtIn ∧ y.dstAt 0 = x.dstAt (i + c - 1) + elemSize x.fmtOut then
          let m := runMore y (min c' (cap - n) - 1) 0 1
          mergeGo ds d0 cap fetching fuel rest ((k', 0, m) :: segs) (n + m)
        else (segs, n)
      | _, _ => (segs, n)
    | _, _ => (segs, n)

/-- Take element ranges out of the list of what is still to be moved. -/
def takeTodo (todo segs : List (Nat × Nat × Nat)) : List (Nat × Nat × Nat) :=
  segs.foldl (fun l x => l.filterMap (fun r =>
    if r.1 = x.1 ∧ r.2.1 = x.2.1 then (if r.2.2 = x.2.2 then none else some (r.1, r.2.1 + x.2.2, r.2.2 - x.2.2))
    else some r)) todo

/-- The next transfer of a task: its segments in order, and its element count. -/
def DeltaTask.nextCut (d : DeltaTask) : Option (List (Nat × Nat × Nat) × Nat) :=
  match d.todo.find? (fun r => d.mayStart r.1) with
  | none => none
  | some (k, i, c) => match d.descs[k]? with
    | none => none
    | some x =>
      let cap := 65536 / elemSize x.fmtOut
      let m := runMore x (min c cap - 1) i 1
      let after := (d.todo.dropWhile (fun r => !(r.1 == k && r.2.1 == i))).drop 1
      let (segs, n) := mergeGo d.descs x cap d.altFetch d.descs.length after [(k, i, m)] m
      some (segs.reverse, n)

/-- Reads that cover [a, b) of a source, from the reads there are; new ones run on to `far` as far as a 4 KiB boundary
(R389). Answers the keys needed and the new reads. -/
def readsGo (k : Nat) : Nat → List SrcRead → Nat → Nat → Nat → Nat → List Nat → List SrcRead → List Nat × List SrcRead
  | 0, _, _, _, _, _, need, new => (need, new)
  | fuel + 1, have_, a, b, far, key, need, new =>
    if b ≤ a then (need, new)
    else match (have_ ++ new).find? (fun r => r.desc == k && decide (r.addr ≤ a ∧ a < r.addr + r.len)) with
      | some r => readsGo k fuel have_ (r.addr + r.len) b far key (need ++ [r.key]) new
      | none =>
        let n := min (far - a) (4096 - a % 4096)
        readsGo k fuel have_ (a + n) b far (key + 1) (need ++ [key]) (new ++ [⟨key, k, a, n, none⟩])

/-- Is a transfer one that a mover thread works on: its data are awaited, or its writes are held or wait for the engine (R390)? -/
def State.onThread (s : State) (id : Nat) (x : Xfer) : Bool :=
  match x.state with
  | .reading => true
  | .held => true
  | .writing => s.unissued (fun p => p == .dest id x.key) != 0
  | _ => false

/-- Threads of a mover engine that work on transfers, those of delivery units among them (R390). -/
def State.threadsOf (s : State) (e : Nat) : Nat :=
  sumBy (fun t => match t.delta with
    | some d => (d.xfers.filter (fun x => x.engine == e && s.onThread t.id x)).length
    | none => 0) s.tasks +
  sumBy (fun u => if u.engine == e then u.held.length + b2n (s.unissued (fun p => p == .delivery u.key) != 0) else 0) s.batches

/-- Threads working on transfers, of all engines. -/
def State.threads (s : State) : Nat := sumL ((List.range s.forme.movers.length).map s.threadsOf)

/-- The mover engine that takes the next transfer of a flow: any engine for a deadline flow, one of its tenancy's for a bulk flow
(R49, R390). Of those with a free thread, the one with the fewest at work (DESIGN CHOICE). -/
def State.moverFor (s : State) (fe : FlowEntry) : Option Nat :=
  (leastBy (fun a b : Nat × Nat => decide (a.2 < b.2))
    (((List.range s.forme.movers.length).filter (fun e => fe.deadline || s.forme.movers[e]? == some (some fe.ten))).map
      (fun e => (e, s.threadsOf e)))).bind (fun x => if x.2 < 32 then some x.1 else none)

/-- Start one transfer (R388): its elements leave the list, its reads are issued. `pool`: its staging block. -/
def State.startXfer (s : State) (t : Task) (d : DeltaTask) (fe : FlowEntry) (segs : List (Nat × Nat × Nat)) (n : Nat)
    (pool : Option Nat) : State :=
  match segs with
  | [] => s
  | (k, i, _) :: _ => match d.descs[k]? with
    | none => s
    | some x =>
      let src := x.srcFabric (x.srcAt i)
      let slen := n * elemSize x.fmtIn
      let more := match segs.getLast? with
        | some (k', i', c') => (match d.descs[k']? with
          | some y => srcMore y 4096 (i' + c' - 1) 0 * elemSize y.fmtIn
          | none => 0)
        | none => 0
      let lo := src / 64 * 64
      let hi := roundUp (src + slen) 64
      let (need, new) := readsGo k (slen / 64 + 2) d.reads lo hi (roundUp (src + slen + more) 64) (d.nextKey + 1) [] []
      let key := d.nextKey
      let engine := (s.moverFor fe).getD 0
      let xf : Xfer := { key := key, segs := segs, state := .reading, src := src, slen := slen, need := need, engine := engine,
                         dst := x.dstAt i, out := [], writes := 0, pool := pool }
      let s := s.modDelta t.id (fun d => { d with
        todo := takeTodo d.todo segs, xfers := d.xfers ++ [xf], reads := d.reads ++ new,
        nextKey := key + 1 + new.length, used := d.used + n * max (elemSize x.fmtIn) (elemSize x.fmtOut) })
      let s := s.modTask t.id (fun t => { t with readsOut := t.readsOut + new.length })
      new.foldl (fun s r => s.issueMover engine fe.deadline ⟨t.ten, .rd, r.addr, r.len, 0, [], .source t.id r.key⟩) s

/-- Bytes [a, a + n) out of reads whose data have come. -/
def gather (rs : List SrcRead) : Nat → Nat → Nat → Option (List Byte)
  | _, _, 0 => some []
  | 0, _, _ => none
  | k + 1, a, n =>
    match rs.find? (fun r => decide (r.addr ≤ a ∧ a < r.addr + r.len)) with
    | some r => match r.data with
      | some b =>
        let got := (b.drop (a - r.addr)).take n
        if got.isEmpty then none else (gather rs k (a + got.length) (n - got.length)).map (fun x => got ++ x)
      | none => none
    | none => none

/-- d[f, s] of a flow at a station (R92). -/
def State.localOf (s : State) (f st : Nat) : Nat := match s.adm? f with | some a => localAt a.locals st | none => 0

/-- W[f, s] of a flow at a station (R91). -/
def State.wallAt (s : State) (f st : Nat) : Nat :=
  match s.adm? f with
  | some a => match a.locals.find? (fun l => l.1 == st) with | some l => l.2.1 | none => 0
  | none => 0

/-- Sum of the local deadlines of the timed stations up to and including one (R99). -/
def State.localUpTo (s : State) (f st : Nat) : Nat :=
  match s.adm? f with
  | some a => match a.locals.findIdx? (fun l => l.1 == st) with
    | some i => sumBy (fun l => l.2.2) (a.locals.take (i + 1))
    | none => sumBy (fun l => l.2.2) a.locals
  | none => 0

/-- The release group of a compute die under captured group words (R401). -/
def StagWin.group (w : StagWin) (d : Nat) : Nat :=
  if d < 16 then getBits w.a (3 * d) 3 else getBits w.b (3 * (d - 16)) 3

/-- When the latest group of a mask starts in a window. -/
def StagWin.start (w : StagWin) (mask : Nat) : Nat :=
  w.tr + maxL ((diesOf mask).map (fun d => w.group d * w.ramp / max 1 w.groups))

/-- Is a write to a mask held now (R401)? `limit`: a_D − w of a deadline task. -/
def State.staggers (s : State) (mask : Nat) (limit : Option Nat) : Bool :=
  match s.stagger with
  | some w => decide (s.now < w.start mask) && (match limit with | some l => decide (s.now < l) | none => true)
  | none => false

/-- The moment past which no write of the task is held (R401). -/
def State.holdLimit (s : State) (fe : FlowEntry) (release : Nat) : Option Nat :=
  if fe.deadline then some (release + s.localUpTo fe.flow 9 - s.wallAt fe.flow 9) else none

/-- Issue the writes of one transfer (R389). -/
def State.writeXfer (s : State) (t : Task) (fe : FlowEntry) (x : Xfer) (desc : Desc) : State :=
  let dies := diesOf desc.dieMask
  let (a, mask) := if desc.dir = 1 then (x.dst, 0) else match dies with
    | [d] => (dieBase d + x.dst, 0)
    | _ => (x.dst, desc.dieMask)
  let n := (pieces a x.out.length).length
  let s := s.modDelta t.id (fun d => { d with
    xfers := updateWhere d.xfers (fun y => y.key == x.key) (fun y => { y with state := .writing, writes := n }),
    wrote := (x.segs.map (·.1)).foldl (fun l k => if l.contains k then l else l ++ [k]) d.wrote })
  let s := s.modTask t.id (fun t => { t with writesOut := t.writesOut + n })
  let s := (s.addUnits F.STN_DLT_COUNT_A_MIB 1048576 x.out.length).addUnits F.STN_DLT_COUNT_A_TRANSFERS_K 1024 1
  s.writeMover x.engine fe.deadline t.ten a mask x.out (.dest t.id x.key)

/-- Write a transfer whose data are ready, or hold it for its release group (R401). -/
def State.offerXfer (s : State) (id : Nat) (x : Xfer) : State :=
  match s.task? id with
  | none => s
  | some t => match t.delta, s.flow? t.flow with
    | some d, some fe => match (x.segs.head?.bind (fun r => d.descs[r.1]?)) with
      | none => s
      | some desc =>
        if desc.dir = 0 && s.staggers desc.dieMask (s.holdLimit fe t.release) then
          let s := if d.staggered then s else s.incFld F.STN_DLT_COUNT_C_STAGGER_HELD
          s.modDelta id (fun d => { d with
            staggered := true,
            xfers := updateWhere d.xfers (fun y => y.key == x.key) (fun y => { y with state := .held }) })
        else s.writeXfer t fe x desc
    | _, _ => s

/-- The data of a transfer are complete: convert them, then stage or write (R386, R397). -/
def State.convertXfer (s : State) (id : Nat) (d : DeltaTask) (x : Xfer) : State :=
  match (x.segs.head?.bind (fun r => d.descs[r.1]?)), gather (d.reads.filter (fun r => x.need.contains r.key)) (x.slen + 1)
      x.src x.slen with
  | some desc, some b =>
    let (out, c) := convertBytes desc.fmtIn desc.fmtOut (x.slen / elemSize desc.fmtIn) b
    let s := s.addFld F.STN_DLT_COUNT_C_CONVERTED c
    let x := { x with out := out, state := XferState.staged }
    let s := s.modDelta id (fun d => { d with
      staged := d.staged || x.pool.isSome,
      xfers := updateWhere d.xfers (fun y => y.key == x.key) (fun _ => x) })
    if d.layerWait then s else s.offerXfer id x
  | _, _ => s

/-- Forget reads that no unconverted transfer needs, but the last of them. -/
def DeltaTask.trimReads (d : DeltaTask) : DeltaTask :=
  let last := (d.reads.getLast?.map (·.key)).getD 0
  { d with reads := d.reads.filter (fun r => r.key == last ||
      d.xfers.any (fun x => x.state == .reading && x.need.contains r.key)) }

/-- A task's counter of reads in flight after one answer. -/
def State.oneRead (s : State) (id : Nat) : State := s.modTask id (fun t => { t with readsOut := t.readsOut - 1 })

/-- Data of a source read have come: each transfer that now has all its data goes on. -/
def State.gotSource (s : State) (id key : Nat) (b : List Byte) : State :=
  match s.task? id with
  | none => s
  | some t => match t.delta with
    | none => s
    | some d => match d.reads.find? (fun r => r.key == key) with
      | none => s.oneRead id
      | some _ =>
        let d := { d with reads := updateWhere d.reads (fun r => r.key == key) (fun r => { r with data := some b }) }
        let s := s.modTask id (fun t => { t with delta := some d, readsOut := t.readsOut - 1 })
        let full := d.xfers.filter (fun x => x.state == .reading && x.need.contains key &&
          x.need.all (fun k => d.reads.any (fun r => r.key == k && r.data.isSome)))
        (full.foldl (fun s x => s.convertXfer id d x) s).modDelta id DeltaTask.trimReads

/-! ### Layers (R395 to R399) -/

/-- A started task of layer P whose writes are not all acknowledged. -/
def Task.busyIn (t : Task) (p : Nat) : Bool :=
  match t.delta with
  | some d => d.started && !d.layerWait && d.layer == p && (t.phase == .ready || t.writesOut != 0)
  | none => false

/-- Start a task at Delta: its layer decides whether its writes proceed (R395). A task keeps the drain limit it starts
with (R71). -/
def State.startDelta (s : State) (t : Task) (d : DeltaTask) : State :=
  let ctx := (s.run t.flow).dlt
  let l := d.layer
  let go (s : State) (wait : Bool) : State :=
    s.modDelta t.id (fun d => { d with
      started := true, layerWait := wait,
      drainNs := max 1 (s.fld F.STN_DLT_CFG_DRAIN_TIMEOUT_US) * 1000,
      todo := d.descs.mapIdx (fun k x => (k, 0, x.count)) })
  if d.fence = false ∨ ctx.present = some l ∨ ctx.present = none then
    let s := go s false
    let s := if d.fence && ctx.present.isNone then
      s.modDlt t.flow (fun c => { c with present := some l, drained := false, needDone := 0, gotDone := 0 }) else s
    s.modDlt t.flow (fun c =>
      if c.present = some l then { c with drained := false, needDone := c.needDone ||| d.doneMask } else c)
  else (go s true).modDlt t.flow (fun c => { c with layerQ := c.layerQ ++ [t.id] })

/-- Let a task that waited for the drain write: what it staged is written, what it could not stage runs directly. A
deadline task's ready-by moves (R397, R399). -/
def State.runLayer (s : State) (id : Nat) : State :=
  match s.task? id with
  | none => s
  | some t => match t.delta, s.flow? t.flow with
    | some d, some fe =>
      let s := (s.dropWaiter id).modTask id (fun t => { t with
        waitPool := none, delta := some { d with layerWait := false, noStage := false, waitFrom := none },
        readyBy := t.readyBy.map (fun r => max r (s.now + s.localOf fe.flow 9)) })
      let s := s.modDlt t.flow (fun c => { c with needDone := c.needDone ||| d.doneMask, layerQ := c.layerQ.erase id })
      (d.xfers.filter (fun x => x.state == .staged)).foldl (fun s x => s.offerXfer id x) s
    | _, _ => s

/-- The layer of a waiting task. -/
def State.layerOf (s : State) (id : Nat) : Nat :=
  match s.task? id with | some t => (match t.delta with | some d => d.layer | none => 0) | none => 0

/-- The drain test of a flow (R396), and the next layer when it passes (R395). -/
def State.drainCheck (s : State) (f : Nat) : State :=
  let ctx := (s.run f).dlt
  match ctx.present with
  | none => s
  | some p =>
    let busy := s.tasks.any (fun t => t.flow == f && t.busyIn p)
    let drained := !busy && (ctx.needDone &&& (0xFFFFFFFF - ctx.gotDone % 2 ^ 32)) == 0
    let s := s.modDlt f (fun c => { c with drained := drained })
    match drained, ctx.layerQ with
    | true, id :: _ =>
      let l := s.layerOf id
      let s := s.modDlt f (fun c => { c with present := some l, drained := false, needDone := 0, gotDone := 0 })
      let same := ctx.layerQ.filter (fun j => s.layerOf j == l)
      let s := same.foldl (fun s j => s.runLayer j) s
      -- tasks of the layer that run without LAYER_FENCE count as its tasks
      let m := (s.tasks.filter (fun t => t.flow == f && t.busyIn l)).foldl
        (fun m t => match t.delta with | some d => m ||| d.doneMask | none => m) 0
      s.modDlt f (fun c => { c with needDone := c.needDone ||| m })
    | _, _ => s

/-- Is the task one of the next layer: the layer of the first task that waits (R395)? -/
def State.isNextLayer (s : State) (t : Task) : Bool :=
  match (s.run t.flow).dlt.layerQ with
  | id :: _ => s.layerOf id == s.layerOf t.id
  | [] => false

/-- The tasks of the next layer count their wait from now (R398). -/
def State.stampWaits (s : State) (f : Nat) : State :=
  let stamp (d : DeltaTask) : DeltaTask :=
    if d.layerWait && d.waitFrom.isNone then { d with waitFrom := some s.now } else d
  let on (t : Task) : Bool := t.flow == f && s.isNextLayer t
  { s with tasks := updateWhere s.tasks on (fun t => { t with delta := t.delta.map stamp }) }

/-- A LAYER_DONE for layer l of a flow from a die (R396). -/
def State.layerDone (s : State) (ten f l die : Nat) : State :=
  match s.streamingOf? ten f with
  | some _ =>
    if (s.run f).dlt.present = some l then
      s.modDlt f (fun c => { c with gotDone := c.gotDone ||| 2 ^ die })
    else s.incFld F.STN_DLT_COUNT_C_STRAY_DONE
  | none => s.incFld F.STN_DLT_COUNT_C_STRAY_DONE

/-- A next-layer task has waited its limit (R398). -/
def State.drainTimeout (s : State) (id : Nat) : State :=
  match s.task? id with
  | none => s
  | some t => match t.delta with
    | none => s
    | some d => match d.waitFrom with
      | some t0 =>
        if d.layerWait && !t.stopping then
          let s := (s.advance (t0 + d.drainNs)).modDlt t.flow (fun c => { c with layerQ := c.layerQ.erase id })
          let s := (s.haltDelta id).stopTask id 0x44 false
          ((s.incFld F.STN_DLT_COUNT_B_DRAIN_TIMEOUTS).dltLast t 5 0).raiseOn 0x0E (.task id)
        else s
      | none => s

/-! ### Alternates (R400) -/

/-- Start again on a descriptor: its transfers that have written nothing are discarded. -/
def State.resetDesc (s : State) (id k : Nat) (x : Desc) : State :=
  let s := s.discard id (fun y => y.segs.any (fun r => r.1 == k))
  s.modDelta id (fun d => { d with
    descs := d.descs.set k x, reads := d.reads.filter (fun r => r.desc != k),
    todo := backTodo (d.todo.filter (fun r => r.1 != k)) [(k, 0, x.count)] })

/-- An alternate of a task, or a range that it names, lies outside the windows: an abort under R402, with OUT_INVALID once the
task has written (R400). -/
def State.altWindow (s : State) (t : Task) (d : DeltaTask) (a access k : Nat) : State :=
  let s := s.windowFail t.ten a access (.task t.id)
  if d.wrote.isEmpty then (s.incFld F.STN_DLT_COUNT_B_ABORTS).deltaRefuse t.id 0x41 3 k else s.deltaAbort t.id 0x41 3 k

/-- Bring one descriptor of a task in line with the flow's ALT state while it has issued no write. An alternate's own place
is checked before it is fetched (R121). -/
def State.alignDesc (s : State) (alt : Bool) (id k : Nat) : State :=
  match s.task? id with
  | none => s
  | some t => match t.delta with
    | none => s
    | some d => match d.prim[k]? with
      | none => s
      | some x =>
        if x.alt = 0 ∨ d.wrote.contains k then s
        else if alt then
          if t.stopping ∨ d.alts.contains k ∨ d.altFetch.contains k then s
          else if !inWindows t.windows true false x.alt 128 then s.altWindow t d x.alt 1 k
          else ((s.resetDesc id k x).modDelta id (fun d => { d with altFetch := d.altFetch ++ [k] })).fetchDesc t k x.alt true
        else if d.alts.contains k then (s.resetDesc id k x).modDelta id (fun d => { d with alts := d.alts.erase k })
        else if d.altFetch.contains k then
          let drop (p : Purpose) : Bool := p == .descriptor id k true
          let s := if s.unissued drop ≠ 0 then (s.oneRead id).weirDrop drop else s
          s.modDelta id (fun d => { d with altFetch := d.altFetch.erase k })
        else s

/-- Bring a task in line with its flow's ALT state. A task that may read nothing yet is left alone. -/
def State.alignTask (s : State) (t : Task) : State :=
  match t.delta with
  | none => s
  | some d =>
    if d.started && t.phase == .ready && (!d.layerWait || s.isNextLayer t) then
      (List.range d.prim.length).foldl (fun s k => s.alignDesc (s.run t.flow).dlt.alt t.id k) s
    else s

/-- An alternate descriptor has arrived (R400). -/
def State.gotAlt (s : State) (fe : FlowEntry) (t : Task) (d : DeltaTask) (k : Nat) (b : List Byte) : State :=
  if !(d.altFetch.contains k) then s else
  let x := parseDesc b
  let s := s.modDelta t.id (fun d => { d with altFetch := d.altFetch.erase k })
  if !descOk fe (d.prim.head?.map (·.stream)) k true b then
    if d.wrote.isEmpty then s.deltaRefuse t.id 0x43 6 k else s.deltaAbort t.id 0x30 6 k
  else match x.outside t.windows with
    | some (a, acc) => s.altWindow t d a acc k
    | none =>
      let s := (s.resetDesc t.id k x).modDelta t.id (fun d => { d with alts := d.alts ++ [k], altUsed := true })
      let s := s.incFld F.STN_DLT_COUNT_B_ALT_SWITCHES
      if d.layerWait || !x.doneWait || x.dir == 1 then s
      else s.modDlt t.flow (fun c =>
        if c.present = some d.layer then { c with needDone := c.needDone ||| x.dieMask } else c)

/-- Set or clear the ALT state of a flow. -/
def State.setAlt (s : State) (f : Nat) (on : Bool) : State := s.modDlt f (fun c => { c with alt := on })

/-! ### The end of a streaming task (R392) -/

/-- The DELTA_DONE message of a task or unit to a die (R392, R506). -/
def State.deltaDone (s : State) (flow ten layer index key die : Nat) : State :=
  s.issue .msg 0 0 0 0x0010 die (leBytes 2 (flow + 4096 * ten) ++ leBytes 2 layer ++ leBytes 2 index) (.deltaDone key)

/-- Count an output delivered, for the dry time of R405. -/
def State.countDelivered (s : State) (f : Nat) : State :=
  s.modDlt f (fun c => { c with firstAt := c.firstAt.orElse (fun _ => some s.now), delivered := c.delivered + 1 })

/-- End a streaming task whose every write is acknowledged (R392). -/
def State.endDelta (s : State) (t : Task) (d : DeltaTask) : State :=
  let mask := d.descs.foldl (fun m x => if x.dir = 0 then m ||| x.dieMask else m) 0
  let s := if d.descs.any (·.notify) then
    (diesOf mask).foldl (fun s die => s.deltaDone t.flow t.ten d.layer t.sample t.id die) s else s
  (((s.countDelivered t.flow).placeOutputs t.id).finishTask t.id)

/-- End a streaming task when nothing of it is left to do. -/
def State.endIfDone (s : State) (id : Nat) : State :=
  match s.task? id with
  | none => s
  | some t => match t.delta with
    | none => s
    | some d =>
      if d.started && t.phase == .ready && d.todo.isEmpty && d.xfers.isEmpty && d.altFetch.isEmpty && !d.descs.isEmpty then
        s.endDelta t d else s

/-- A destination write of a task is acknowledged: a transfer with no write left frees its staging block (R397). -/
def State.ackedXfer (s : State) (id key : Nat) : State :=
  match s.task? id with
  | none => s
  | some t =>
    let s := s.modTask id (fun t => { t with writesOut := t.writesOut - 1 })
    match t.delta with
    | none => s
    | some d => match d.xfers.find? (fun x => x.key == key) with
      | none => s
      | some x =>
        if x.writes ≤ 1 then
          let s := s.modDelta id (fun d => { d with xfers := d.xfers.filter (fun y => y.key != key) })
          let s := match x.pool with | some p => s.dropBlock id p | none => s
          s.endIfDone id
        else s.modDelta id (fun d => { d with
          xfers := updateWhere d.xfers (fun y => y.key == key) (fun y => { y with writes := y.writes - 1 }) })

/-! ### Dispatch of one transfer (R390, R397, R405, R408) -/

/-- Bytes that the next transfer of a task would move, counted as R408 does. -/
def DeltaTask.cutBytes (d : DeltaTask) : Option Nat :=
  match d.nextCut with
  | some ((k, _, _) :: _, n) => (d.descs[k]?).map (fun x => n * max (elemSize x.fmtIn) (elemSize x.fmtOut))
  | _ => none

/-- Destination bytes of the next transfer of a task (R388). -/
def DeltaTask.cutOut (d : DeltaTask) : Nat :=
  match d.nextCut with
  | some ((k, _, _) :: _, n) => n * (match d.descs[k]? with | some x => elemSize x.fmtOut | none => 0)
  | _ => 0

/-- Has a streaming task a ready piece (R388, R395, R397)? -/
def State.deltaReady (s : State) (t : Task) : Bool :=
  match t.delta, s.flow? t.flow with
  | some d, some fe =>
    s.atDelta t && d.started && t.waitPool.isNone && (s.moverFor fe).isSome && d.nextCut.isSome &&
      (!d.layerWait || (s.isNextLayer t && !d.noStage && (match fe.delta with | some x => x.stageKib != 0 | none => false)))
  | _, _ => false

/-- Ask for the staging block of a transfer of `bytes` destination bytes (R397): the block's pool, or none, when the
transfer waits for the drain or the request waits. -/
def State.stageBlock (s : State) (t : Task) (fe : FlowEntry) (bytes : Nat) : State × Option Nat :=
  let stall (s : State) : State := s.modDelta t.id (fun d => { d with noStage := true })
  let bound := match fe.delta with | some x => x.stageKib * 1024 | none => 0
  match poolFor s.forme.claims fe.flow bytes true with
  | none => (stall s, none)
  | some p =>
    if 16 ≤ p ∨ bound < s.stagedBytes fe.flow + blockBytes (p % 16) then (stall s, none)
    else match s.requestBlock fe t bytes true with
      | (s, .granted) => (s, some p)
      | (s, .waits) => (s, none)
      | (s, _) => (stall s, none)

/-- Dispatch the next transfer of a streaming task: DELTA_BYTES is checked (R408), a next-layer task stages (R397), and
the reads are issued. A block that a waiting request was granted meanwhile is used. -/
def State.dispatchXfer (s : State) (t : Task) : State :=
  match t.delta, s.flow? t.flow with
  | some d, some fe => match d.nextCut, d.cutBytes with
    | some (segs, n), some bytes =>
      let k := (segs.head?.map (·.1)).getD 0
      let out := n * (match d.descs[k]? with | some x => elemSize x.fmtOut | none => 0)
      if fe.cls.deltaBytes < d.used + bytes then (s.countOverclass fe.flow).deltaAbort t.id 0x21 4 k
      else if d.layerWait then
        let used := d.xfers.filterMap (·.pool)
        match t.blocks.find? (fun p => decide (used.count p < t.blocks.count p)) with
        | some p => s.startXfer t d fe segs n (some p)
        | none => match s.stageBlock t fe out with
          | (s, some p) => s.startXfer t d fe segs n (some p)
          | (s, none) => s
      else s.startXfer t d fe segs n none
    | _, _ => s
  | _, _ => s

/-! ### The stagger (R401) -/

/-- Issue the held transfers of streaming tasks that a test lets go. -/
def State.releaseHeld (s : State) (p : State → Task → FlowEntry → Nat → Bool) : State :=
  s.tasks.foldl (fun s t => match t.delta, s.flow? t.flow with
    | some d, some fe => (d.xfers.filter (fun x => x.state == .held)).foldl (fun s x =>
        match x.segs.head?.bind (fun r => d.descs[r.1]?) with
        | some desc => if p s t fe desc.dieMask then s.writeXfer t fe x desc else s
        | none => s) s
    | _, _ => s) s

/-- The dry time of a bulk flow (R405). -/
def State.dryTime (s : State) (fe : FlowEntry) : Nat :=
  let c := (s.run fe.flow).dlt
  match fe.delta, c.firstAt with
  | some d, some t1 => if d.consumeNs ≠ 0 ∧ 0 < c.delivered then t1 + c.delivered * d.consumeNs else oldest
  | _, _ => oldest
where
  /-- Acceptance time of the flow's oldest waiting task. -/
  oldest : Nat := match s.tasks.filter (fun t => t.flow == fe.flow) with | t :: _ => t.accept | [] => s.now

/-! ### Settling -/

/-- Start each task that has reached Delta and is active on its stream, in order of acceptance (R394, R395). -/
def State.startReady (s : State) : State :=
  s.tasks.foldl (fun s t => match t.delta with
    | some d => if s.atDelta t && !d.started && s.streamActive t then s.startDelta t d else s
    | none => s) s

/-- One pass over the streaming flows: starts, drains, waits and alternates. -/
def State.deltaPass (s : State) : State :=
  let s := s.startReady
  let fs := (s.forme.flows.filter (·.streaming)).map (·.flow)
  let s := fs.foldl (fun s f => (s.drainCheck f).stampWaits f) s
  s.tasks.foldl (fun s t => s.alignTask t) s

/-- Passes until every layer that can take its place has taken it: one per task suffices. -/
def State.deltaSettleGo : Nat → State → State
  | 0, s => s
  | n + 1, s => State.deltaSettleGo n s.deltaPass

/-- Bring streams, layers and alternates up to date at the end of a step. -/
def State.deltaSettle (s : State) : State :=
  if s.tasks.any (fun t => t.delta.isSome) then State.deltaSettleGo (s.tasks.length + 1) s
  else (s.forme.flows.filter (·.streaming)).foldl (fun s f => s.drainCheck f.flow) s

/-- A flow's Delta state as it is at its quoin point (R407). -/
def State.resetDlt (s : State) (f : Nat) : State := s.modDlt f (fun _ => (FlowRun.fresh f).dlt)

end Sys2Proof.Machine
end

