-- ==== Sys2Proof/Machine/Galley.lean ====
section
/-! DEFINITION. Galley: placement of samples, closing of batches, flushes, holds, the overset reserve, and the running
batch (R361 to R373); and the delivery units it makes (R367, R368, R382). -/

namespace Sys2Proof.Machine

/-- Change the Galley context of a flow. -/
def State.modGal (s : State) (f : Nat) (g : GalCtx → GalCtx) : State := s.modRun f (fun r => { r with gal := g r.gal })

/-- The Galley context of a flow. -/
def State.gal (s : State) (f : Nat) : GalCtx := (s.run f).gal

/-! ### Units and their ends -/

/-- The batch entry of R367. -/
def batchEntry (g : GalleySettings) (u : BatchOut) (status : Nat) : DueEntry :=
  { cq := g.batchCq, ten := u.ten, tag := BitVec.ofNat 64 u.index,
    ring := match u.group with | some x => 0xFF100 + x | none => 0xFF000, flow := u.head, sqHead := 0, status := status,
    outInvalid := statusInvalid status, live := true, detail := BitVec.ofNat 32 (u.subst % 65536 + 65536 * (u.masked % 65536)),
    irqNow := false, sample := u.index, at_ := 0, task := none, slot := none }

/-- A single-sample task whose row is done: its status, and DETAIL's row and batch index (R368). -/
def State.endRow (s : State) (id status row index : Nat) : State :=
  match s.task? id with
  | none => s
  | some t =>
    let s := s.modTask id (fun t => { t with
      detail := BitVec.ofNat 32 (t.detail.toNat % 8 + 65536 * (row % 1024) + 2 ^ 26 * (index % 64)) })
    if status = 0 then (s.placeOutputs id).finishTask id else (s.stopTask t.id status true)

/-- Complete the tasks of a batch that is not delivered: a corrupt sample's task with its own code, the others with
`code` (R365). -/
def State.abortRows (s : State) (u : BatchOut) (code : Nat) : State :=
  u.rows.foldl (fun s r => s.endRow r.1 (if r.2.1 ≠ 0 then r.2.1 else code) r.2.2 u.index) s

/-- Take a unit and its block out of the instance. -/
def State.dropUnit (s : State) (u : BatchOut) : State :=
  let s := { s with batches := s.batches.filter (fun x => x.key != u.key) }
  match u.holder with | some h => s.retire h | none => s

/-- A batch that ends without its image being handed to Delta (R365). -/
def State.abortBatch (s : State) (g : GalleySettings) (u : BatchOut) (code : Nat) : State :=
  let s := (s.incFld F.STN_GAL_COUNT_B_ABORTED).postEntry (batchEntry g u 0x14)
  (s.abortRows u code).dropUnit u

/-- Change a unit. -/
def State.modUnit (s : State) (key : Nat) (f : BatchOut → BatchOut) : State :=
  { s with batches := updateWhere s.batches (fun u => u.key == key) f }

/-- Bytes cut into pieces of at most 65,536, with their addresses (R388). -/
def unitPieces : Nat → Nat → List Byte → List (Nat × List Byte)
  | 0, _, _ => []
  | k + 1, a, d => if d.isEmpty then [] else (a, d.take 65536) :: unitPieces k (a + 65536) (d.drop 65536)

/-- Slot address of unit j of a delivery flow (R382). -/
def DeltaSettings.slotAt (d : DeltaSettings) (j : Nat) : Nat := d.dstBase + j % max 1 d.slots * d.slotStride

/-- Side-output slot address of unit j. -/
def DeltaSettings.auxAt (d : DeltaSettings) (j : Nat) : Nat := d.auxBase + j % max 1 d.slots * d.auxStride

/-- Make a unit of a batch image: a carrier asks for the block that holds the image (R356, R365). -/
def State.newBatch (s : State) (fe : FlowEntry) (g : GalleySettings) (u : BatchOut) (image : List Byte) : State :=
  let (s, h) := s.spawn { Task.blank with ten := fe.ten, flow := fe.flow, sample := u.index, accept := s.now,
                                          release := u.release, phase := .batched }
  let addr := match fe.delta with | some d => d.slotAt u.index | none => 0
  let u := { u with key := s.nextBatch, holder := some h, left := unitPieces (image.length / 65536 + 1) addr image }
  let s := { s with batches := s.batches ++ [u], nextBatch := s.nextBatch + 1 }
  match s.task? h with
  | none => s
  | some t => match s.requestBlock fe t image.length true with
    | (s, .granted) => s
    | (s, .waits) => s
    | (s, .refused) => s.abortBatch g u 0x42
    | (s, .badSize) => s.abortBatch g u 0x30

/-! ### MODE 0 (R359 to R364) -/

/-- Give the blocks of reserve entries back. -/
def State.freeReserve (s : State) (f : Nat) (l : List RowRun) : State :=
  l.foldl (fun s r => match r.pool with | some p => s.freeBlocks f [p] | none => s) s

/-- Enter the good, unsubstituted rows of a closed batch into the reserve, in ascending row order (R364). -/
def State.updateReserve (s : State) (fe : FlowEntry) (g : GalleySettings) (rows : List RowRun) : State :=
  if g.oversetDepth = 0 then s else
  (rows.filter (fun r => r.status == 0 && !r.subst && !r.masked)).foldl (fun s r =>
    match s.tryBlock fe (slugSize fe g) true with
    | (s, none) => s.incFld F.STN_GAL_COUNT_C_RESERVE_SKIPPED
    | (s, some p) =>
      let now := { r with task := none, pool := some p } :: (s.gal fe.flow).reserve
      (s.modGal fe.flow (fun c => { c with reserve := now.take g.oversetDepth })).freeReserve fe.flow
        (now.drop g.oversetDepth)) s

/-- The rows of the open batch as they close: (final row, segments, slug), and the rows as the reserve sees them. -/
def State.closingRows (s : State) (fe : FlowEntry) (g : GalleySettings) : List (RowRun × Nat × List Byte) :=
  let c := s.gal fe.flow
  if g.kind = 0 then
    let rows := (List.range g.rows).map (fun r =>
      match c.rows.find? (fun x => x.1 == r) with | some x => x.2 | none => RowRun.vacant)
    (applyPolicy g fe.policy (s.rflSource fe) c.reserve 0 rows).map (fun r => (r, if bit r.flags 2 then 0 else 1, r.slug))
  else
    (List.range g.rows).map (fun r =>
      let segs := c.segs.filter (fun x => x.row == r)
      match segs with
      | [] => (RowRun.vacant, 0, [])
      | x :: _ => (x.run, segs.length, packedSlug g segs))

/-- What the reserve takes from a PACKED row: its first segment, when every segment is good (R364). -/
def packedReserve (segs : List SegRun) : List RowRun :=
  match segs with
  | [] => []
  | x :: _ => if segs.all (fun y => y.run.status == 0 && !y.run.subst) then [{ x.run with slug := tokenBytes x.toks }] else []

/-- Close the open batch of a flow (R359, R361, R362). -/
def State.closeBatch (s : State) (fe : FlowEntry) (g : GalleySettings) : State :=
  let c := s.gal fe.flow
  let rows := s.closingRows fe g
  let runs := rows.map (·.1)
  let seen : List (RowRun × Nat) := if g.kind = 0 then c.rows.map (fun x => (x.2, x.1)) else c.segs.map (fun x => (x.run, x.row))
  let tasks := seen.filterMap (fun x => x.1.task.map (fun id => (id, x.1.status, x.2)))
  let abort := decide (fe.policy = 3) && seen.any (fun x => x.1.status != 0)
  let head : BatchHead := ⟨fe.flow, fe.ten, c.batch, fe.policy, none, 0, 0, s.now⟩
  let u : BatchOut :=
    { key := 0, flow := fe.flow, head := fe.flow, ten := fe.ten, batch := true, group := none, index := c.batch, asm := 0, left := [],
      held := [], writes := 0, rows := tasks, subst := (runs.filter RowRun.subst).length,
      masked := (runs.filter RowRun.masked).length, status := batchStatus runs, aborted := false, started := false,
      staggered := false, holder := none, engine := 0, release := s.now, windows := [] }
  let s := s.modGal fe.flow (fun c => { c with batch := c.batch + 1, rows := [], segs := [], segPos := (0, 0, 0) })
  if abort then s.abortBatch g u 0x14
  else
    let s := (s.addFld F.STN_GAL_COUNT_A_SUBSTITUTED u.subst).addFld F.STN_GAL_COUNT_B_MASKED (policyMasked runs)
    let s := s.newBatch fe g u (batchImage fe g head rows)
    s.updateReserve fe g (if g.kind = 0 then runs
      else (List.range g.rows).flatMap (fun r => packedReserve (c.segs.filter (fun x => x.row == r))))

/-- Is a batch of the flow open? -/
def GalCtx.isOpen (c : GalCtx) : Bool := !c.rows.isEmpty || !c.segs.isEmpty

/-- Place a TENSOR sample in its row; the batch closes when its last row is resolved (R361). -/
def State.placeTensor (s : State) (fe : FlowEntry) (g : GalleySettings) (h : HeldSample) : State :=
  let row := h.sample.index % max 1 g.rows
  let (r, _) := rowOf fe g (s.rflSource fe h.epoch) h.sample h.task
  let s := s.modGal fe.flow (fun c => { c with rows := c.rows ++ [(row, r)] })
  if row + 1 = g.rows then s.closeBatch fe g else s

/-- Tokens of a u32 stream. -/
def tokensOf (d : List Byte) : List Nat := (List.range (d.length / 4)).map (fun i => fieldAt d (4 * i) 4)

/-- What a PACKED segment holds in the open batch: the sample's own tokens, those of a reserve entry, or none (R363, R364). -/
def packedChoice (fe : FlowEntry) (g : GalleySettings) (src : RflSource) (c : GalCtx) (own : RowRun × List Nat) : RowRun × List Nat :=
  let (r, toks) := own
  if r.status = 0 then (r, toks)
  else if fe.policy = 0 ∨ fe.policy = 2 then
    match pickReserve g src c.reserve (c.segs.filter (fun x => x.run.subst)).length r.logical with
    | some e => (r.substitute e 0, (tokensOf e.slug).take g.slugTokens)
    | none => (r.mask 0x40, [])
  else (r.mask 0, [])

/-- Place a PACKED sample in its segment; the batch closes first when every slug is full (R359). The
substitute of a sample that opens a batch is chosen in that batch, from the reserve as the closed one leaves it (R363, R364). -/
def State.placePacked (s : State) (fe : FlowEntry) (g : GalleySettings) (h : HeldSample) : State :=
  let src := s.rflSource fe h.epoch
  let own := rowOf fe g src h.sample h.task
  let choose (c : GalCtx) : RowRun × List Nat := packedChoice fe g src c own
  let (row, pos, segs, close) := nextFit g (s.gal fe.flow).segPos (choose (s.gal fe.flow)).2.length
  let s := if close then s.closeBatch fe g else s
  let (r, toks) := choose (s.gal fe.flow)
  let seg : SegRun := { row := row, pos := pos, len := toks.length, run := { r with slug := [] }, toks := toks }
  s.modGal fe.flow (fun c => { c with segs := c.segs ++ [seg], segPos := (row, pos + toks.length, segs + 1) })

/-- The limit up to which HOLD keeps a corrupt sample's place (R363). -/
def State.holdTill (s : State) (fe : FlowEntry) (g : GalleySettings) (release : Nat) : Nat :=
  if fe.deadline then release + s.localUpTo fe.flow 8 - s.wallAt fe.flow 8 else s.now + g.holdUs * 1000

/-- An absent index (R361). -/
def absentSample (index status time : Nat) : Sample :=
  { index := index, recordId := 0, status := status, overcls := false, time := time, coded := [], frames := [],
    text := none, tokens := none, aux := [], side := [], tensor := none, cuts := [], patched := false, stand := [], stopAt := none }

/-- An index without a sample, with the status that resolves it. -/
def State.absentAt (s : State) (fe : FlowEntry) (g : GalleySettings) (index status : Nat) : HeldSample :=
  ⟨absentSample index status s.now, none, s.epochOf fe.flow, s.now, s.holdTill fe g s.now⟩

/-- Is the sample at e_next kept open for a replacement (R363)? -/
def State.keptOpen (s : State) (fe : FlowEntry) (g : GalleySettings) (h : HeldSample) : Bool :=
  decide (fe.policy = 2) && decide ((galleyStatus g h.sample).1 ≠ 0) && decide (s.now < h.limit)

/-- Resolve indices in ascending order as far as they go (R361, R362). -/
def State.galAdvance (fe : FlowEntry) (g : GalleySettings) : Nat → State → State
  | 0, s => s
  | n + 1, s =>
    let c := s.gal fe.flow
    let flushNow := match c.flushTo with | some u => decide (u ≤ c.eNext) | none => false
    if flushNow then
      let s := s.modGal fe.flow (fun c => { c with flushTo := none })
      State.galAdvance fe g n (if c.isOpen then s.closeBatch fe g else s)
    else match c.held.find? (fun h => h.sample.index == c.eNext) with
    | some h =>
      if s.keptOpen fe g h then s
      else
        let s := s.modGal fe.flow (fun c => { c with
          held := c.held.filter (fun x => x.sample.index != c.eNext), eNext := c.eNext + 1 })
        State.galAdvance fe g n (if g.kind = 0 then s.placeTensor fe g h else s.placePacked fe g h)
    | none =>
      if c.eNext < c.absent then
        State.galAdvance fe g n (s.modGal fe.flow (fun c => { c with held := c.held ++ [s.absentAt fe g c.eNext 0x15] }))
      else s

/-- Steps that resolving can take now. -/
def GalCtx.fuel (c : GalCtx) : Nat := 2 * (c.absent - c.eNext) + 2 * c.held.length + 3

/-- Resolve what can be resolved. -/
def State.galRun (s : State) (fe : FlowEntry) (g : GalleySettings) : State :=
  State.galAdvance fe g (s.gal fe.flow).fuel s

/-- Put a sample among those that wait for their place. A good replacement takes the place of a corrupt sample that HOLD
keeps open (R363). -/
def State.galHold (s : State) (fe : FlowEntry) (g : GalleySettings) (h : HeldSample) : State :=
  let c := s.gal fe.flow
  let late (s : State) : State := match h.task with | some id => s.stopTask id 0x20 true | none => s
  if h.sample.index < c.eNext then late s
  else match c.held.find? (fun x => x.sample.index == h.sample.index) with
    | some old =>
      if s.keptOpen fe g old ∧ (galleyStatus g h.sample).1 = 0 then
        let s := match old.task with | some id => s.stopTask id (galleyStatus g old.sample).1 true | none => s
        s.modGal fe.flow (fun c => { c with held := c.held.map (fun x => if x.sample.index = h.sample.index then h else x) })
      else late s
    | none => s.modGal fe.flow (fun c => { c with held := c.held ++ [h] })

/-- A sample of a MODE 0 flow reaches Galley. -/
def State.galArrive (s : State) (fe : FlowEntry) (g : GalleySettings) (x : Sample) (t : Task) : State :=
  let s := if (galleyStatus g x).2 then s.incFld F.STN_GAL_COUNT_C_TOKEN_RANGE else s
  let h : HeldSample := ⟨x, if t.isTask then some t.id else none, t.epoch, s.now, s.holdTill fe g t.release⟩
  let s := s.modGal fe.flow (fun c => { c with lastIn := some s.now })
  let s := if t.isTask then s.modTask t.id (fun t => { t with phase := .batched, samples := [] }) else s.retire t.id
  (s.galHold fe g h).galRun fe g

/-- Headwater reports an index dropped stale (R361). -/
def State.galStale (s : State) (fe : FlowEntry) (index : Nat) : State :=
  match fe.galley with
  | some g => if g.mode = 0 then (s.galHold fe g (s.absentAt fe g index 0x10)).galRun fe g else s
  | none => s

/-- A write of TEN_GALLEY_SKIP (R361, R362, R378). -/
def State.galSkip (s : State) (t flow upTo : Nat) (flush : Bool) : State :=
  match s.flowOf? t flow with
  | some fe => match fe.galley with
    | some g =>
      if g.mode = 0 then
        let s := s.modGal flow (fun c => { c with
          absent := max c.absent upTo, flushTo := if flush then some (max upTo c.eNext) else c.flushTo })
        s.galRun fe g
      else s.incFld (F.TEN_GALLEY_STATUS_BAD_WRITE t)
    | none => s.incFld (F.TEN_GALLEY_STATUS_BAD_WRITE t)
  | none => s.incFld (F.TEN_GALLEY_STATUS_BAD_WRITE t)

/-- Make e_next absent while a higher index has been held for HOLD_US (R361). -/
def State.holdGap (fe : FlowEntry) (g : GalleySettings) : Nat → State → State
  | 0, s => s
  | n + 1, s =>
    let c := s.gal fe.flow
    let missing := !(c.held.any (fun h => h.sample.index == c.eNext))
    let gap := c.held.any (fun h => decide (c.eNext < h.sample.index ∧ h.at_ + g.holdUs * 1000 ≤ s.now))
    if missing && gap then
      let s := (s.incFld F.STN_GAL_COUNT_B_ABSENT).modGal fe.flow (fun c => { c with
        held := c.held ++ [s.absentAt fe g c.eNext 0x15] })
      State.holdGap fe g n (s.galRun fe g)
    else s

/-- The moment at which HOLD_US makes e_next absent, when it is missing and a higher index is held. -/
def GalCtx.gapDue (c : GalCtx) (hold : Nat) : Option Nat :=
  if c.held.any (fun h => h.sample.index == c.eNext) then none
  else (leastBy (fun a b : HeldSample => decide (a.at_ < b.at_)) (c.held.filter (fun h => decide (c.eNext < h.sample.index)))).map
    (fun h => h.at_ + hold)

/-- The moment at which HOLD_US without a sample closes the open batch (R362). -/
def GalCtx.idleDue (c : GalCtx) (hold : Nat) : Option Nat := if c.isOpen then c.lastIn.map (· + hold) else none

/-- HOLD_US passes at a flow (R361, R362). -/
def State.holdUsExpire (s : State) (flow : Nat) : State :=
  match s.flow? flow with
  | some fe => match fe.galley with
    | some g =>
      if g.mode ≠ 0 then s else
      let hold := g.holdUs * 1000
      let c := s.gal flow
      let close (s : State) (d : Nat) : State :=
        ((s.advance d).modGal flow (fun c => { c with flushTo := some c.eNext })).galRun fe g
      let gap (s : State) (d : Nat) : State :=
        State.holdGap fe g (sumBy (fun h => h.sample.index - c.eNext) c.held) (s.advance d)
      match c.gapDue hold, c.idleDue hold with
      | some a, some b => if a ≤ b then gap s a else close s b
      | some a, none => gap s a
      | none, some b => close s b
      | none, none => s
    | none => s
  | none => s

/-- The HOLD policy's limit passes for the sample at e_next (R363). -/
def State.holdLimitExpire (s : State) (flow : Nat) : State :=
  match s.flow? flow with
  | some fe => match fe.galley with
    | some g =>
      let c := s.gal flow
      (match c.held.find? (fun h => h.sample.index == c.eNext) with
        | some h => if s.keptOpen fe g h then (s.advance h.limit).galRun fe g else s
        | none => s)
    | none => s
  | none => s

/-! ### MODE 1 (R369 to R372) -/

/-- Change a group. -/
def State.modGroup (s : State) (g : Nat) (f : GroupRun → GroupRun) : State :=
  { s with groups := updateWhere s.groups (fun x => x.group == g) f }

/-- Change a member of a group. -/
def State.modMember (s : State) (g flow : Nat) (f : Member → Member) : State :=
  s.modGroup g (fun x => { x with members := updateWhere x.members (fun m => m.flow == flow) f })

/-- Members of a group in ascending flow ID. -/
def GroupRun.sorted (x : GroupRun) : List Member := sortBy (fun m => [m.flow]) x.members

/-- A sample of a MODE 1 member reaches Galley: it becomes the member's staged sample (R370). -/
def State.memberArrive (s : State) (fe : FlowEntry) (g : GalleySettings) (x : Sample) (t : Task) : State :=
  let s := if (galleyStatus g x).2 then s.incFld F.STN_GAL_COUNT_C_TOKEN_RANGE else s
  let (r, _) := rowOf fe g (s.rflSource fe t.epoch) x (if t.isTask then some t.id else none)
  let s := if t.isTask then s.modTask t.id (fun t => { t with phase := .batched, samples := [] }) else s.retire t.id
  match s.groups.find? (fun y => y.group == g.group) with
  | none => s
  | some y => match y.members.find? (fun m => m.flow == fe.flow) with
    | none => s
    | some m =>
      let s := match m.staged with
        | some (old, _) => (match old.task with | some id => s.stopTask id 0x11 false | none => s)
        | none => s
      s.modMember g.group fe.flow (fun m => { m with
        staged := some (r, x.text.isSome || x.tokens.isSome), state := if m.state = .out then .joining else m.state })

/-- A LEAVE written to TEN_GALLEY_SEQ (R370, R378): it cancels a pending join. -/
def State.memberLeave (s : State) (t flow op : Nat) : State :=
  match s.flowOf? t flow with
  | some fe => match fe.galley with
    | some g =>
      if g.mode = 1 then (if op = 1 then s.modMember g.group flow (fun m => { m with leave := true }) else s)
      else s.incFld (F.TEN_GALLEY_STATUS_BAD_WRITE t)
    | none => s.incFld (F.TEN_GALLEY_STATUS_BAD_WRITE t)
  | none => s.incFld (F.TEN_GALLEY_STATUS_BAD_WRITE t)

/-- Give back the two blocks of a member. -/
def State.freeMember (s : State) (m : Member) : State :=
  match m.pool with | some p => s.freeBlocks m.flow [p, p] | none => s

/-- Step 1 of R371 for one member. -/
def State.applyLeave (s : State) (g : Nat) (m : Member) : State :=
  if m.leave then
    let s := match m.staged with
      | some (r, _) => (match r.task with | some id => s.stopTask id 0x31 true | none => s)
      | none => s
    (s.freeMember m).modMember g m.flow (fun m => { m with
      leave := false, state := .out, staged := none, prev := none, pool := none, row := 0 })
  else s

/-- The lowest row of a group that no IN member holds. -/
def freeRow (ms : List Member) (rows : Nat) : Option Nat :=
  (List.range rows).find? (fun r => !(ms.any (fun m => m.state == .in_ && m.row == r)))

/-- Would a join's σ blocks bring the pool to STOP or past S (R371)? -/
def State.joinFits (s : State) (fe : FlowEntry) (p : Nat) : Bool :=
  let held := (s.poolRun p).heldBy fe.flow
  let r := s.reserveOf fe.flow p
  let sigma := (held + 2 - r) - (held - r)
  let u := s.sharedUse p + sigma
  let cap := s.sharedCap p
  sigma == 0 || (decide (u < enterLevel cap (s.fld (F.RSV_POOL_THR_STOP p))) && decide (u + s.claimedIn p ≤ cap))

/-- Step 2 of R371 for one joining member; answers whether it joined, or none when it is not joining. -/
def State.applyJoin (s : State) (g : GalleySettings) (m : Member) : State × Option Bool :=
  match m.state, m.staged, s.flow? m.flow with
  | .joining, some (r, _), some fe =>
    let defer (s : State) : State × Option Bool :=
      let s := s.incFld F.STN_GAL_COUNT_B_JOIN_DEFERRED
      let s := match r.task with | some id => s.stopTask id 0x12 false | none => s
      (s.modMember g.group m.flow (fun m => { m with staged := none }), some false)
    let members := ((s.groups.find? (fun y => y.group == g.group)).map (·.members)).getD []
    match poolFor s.forme.claims fe.flow (slugSize fe g) true, freeRow members g.rows with
    | some p, some row =>
      if s.joinFits fe p then
        let s := s.chargeBlocks p fe.flow 2
        (s.modMember g.group m.flow (fun m => { m with
          state := .in_, row := row, pool := some p, prev := none,
          staged := m.staged.map (fun q => ({ q.1 with flags := q.1.flags ||| 0x80 }, q.2)) }), some true)
      else defer s
    | _, _ => defer s
  | _, _, _ => (s, none)

/-- The token part of a slug and the rest of it (R354, R358). -/
def keepTokens (fe : FlowEntry) (g : GalleySettings) (now prev : List Byte) : List Byte :=
  let a := r64 fe.tensorLen
  let n := r64 (4 * g.slugTokens)
  now.take a ++ sliceAt prev a n ++ now.drop (a + n)

/-- The row of an IN member at a step (R363, R371 step 3), and what it keeps as its previous slug. -/
def memberRow (fe : FlowEntry) (g : GalleySettings) (m : Member) : RowRun × Option RowRun :=
  match m.staged, m.prev with
  | some (r, hasText), prev =>
    if r.status = 0 then
      let r := match hasText, prev with
        | false, some p => { r with slug := keepTokens fe g r.slug p.slug, tokens := p.tokens, flags := r.flags ||| 0x20 }
        | _, _ => r
      (r, some { r with task := none, flags := 0 })
    else if fe.policy = 1 then (r.mask 0, prev)
    else match prev with
      | some p => (r.substitute p 0x08, prev)
      | none => (r.mask 0, prev)
  | none, some p => ({ p with flags := 0x08, task := none }, some p)
  | none, none => ({ RowRun.vacant with flow := fe.flow, ten := fe.ten, flags := 0x02 }, none)

/-- A step of a running group (R371). -/
def State.stepGroup (s : State) (x : GroupRun) : State :=
  let lead := x.sorted.findSome? (fun m => (s.flow? m.flow).bind (fun fe => fe.galley.map (fun g => (fe, g))))
  match lead with
  | none => s
  | some (fe0, g) =>
    let members (s : State) : List Member := match s.groups.find? (fun y => y.group == x.group) with
      | some y => y.sorted | none => []
    let s := (members s).foldl (fun s m => s.applyLeave x.group m) s
    let (s, joins, deferred) := (members s).foldl (fun (acc : State × Nat × Nat) m =>
      match acc.1.applyJoin g m with
      | (s, some true) => (s, acc.2.1 + 1, acc.2.2)
      | (s, some false) => (s, acc.2.1, acc.2.2 + 1)
      | (s, none) => (s, acc.2)) (s, 0, 0)
    let ins := (members s).filter (fun m => m.state == .in_)
    let rows : List (Nat × Member × RowRun × Option RowRun) := ins.filterMap (fun m =>
      (s.flow? m.flow).map (fun fe => let r := memberRow fe g m; (m.row, m, r.1, r.2)))
    let policy (m : Member) : Nat := ((s.flow? m.flow).map (·.policy)).getD 0
    let abort := rows.any (fun q => policy q.2.1 == 3 && (match q.2.1.staged with | some (r, _) => r.status != 0 | none => false))
    let final := (List.range g.rows).map (fun i =>
      match rows.find? (fun q => q.1 == i) with | some q => q.2.2.1 | none => RowRun.vacant)
    let tasks := rows.filterMap (fun q => match q.2.1.staged with
      | some (r, _) => r.task.map (fun id => (id, r.status, q.1)) | none => none)
    -- the staged samples are taken, and a deadline member's ready-by moves (R372)
    let s := rows.foldl (fun s q => s.modMember x.group q.2.1.flow (fun m => { m with staged := none, prev := q.2.2.2 })) s
    let s := tasks.foldl (fun s q => s.modTask q.1 (fun t => { t with
      readyBy := t.readyBy.map (fun r => max r (s.now + s.localOf t.flow 8 + s.localOf t.flow 9)) })) s
    let head : BatchHead := ⟨fe0.flow, fe0.ten, x.step, fe0.policy, some x.group, joins, deferred, s.now⟩
    let u : BatchOut :=
      { key := 0, flow := fe0.flow, head := fe0.flow, ten := fe0.ten, batch := true, group := some x.group, index := x.step,
        asm := g.rows * slugSize fe0 g + 256, left := [], held := [], writes := 0, rows := tasks,
        subst := (final.filter RowRun.subst).length, masked := (final.filter RowRun.masked).length,
        status := batchStatus final, aborted := false, started := false, staggered := false, holder := none, engine := 0,
        release := s.now, windows := [] }
    let s := s.modGroup x.group (fun y => { y with step := y.step + 1, assembling := !abort })
    if abort then s.abortBatch g u 0x14
    else
      let s := (s.addFld F.STN_GAL_COUNT_A_SUBSTITUTED u.subst).addFld F.STN_GAL_COUNT_B_MASKED (policyMasked final)
      let before := s.batches.length
      let s := s.newBatch fe0 g u (batchImage fe0 g head (final.map (fun r => (r, if bit r.flags 2 then 0 else 1, r.slug))))
      if s.batches.length = before then s.modGroup x.group (fun y => { y with assembling := false }) else s

/-- A step trigger of a group of a tenancy (R369): none when the tenancy has no such group. -/
def State.triggerStep (s : State) (t g : Nat) : Option State :=
  match s.groups.find? (fun x => x.group == g && x.ten == t) with
  | none => none
  | some x =>
    if !x.assembling then some (s.stepGroup x)
    else if !x.held then some (s.modGroup g (fun x => { x with held := true }))
    else some (s.incFld F.STN_GAL_COUNT_C_STEP_OVERRUN)

/-- A held trigger starts its step once the step before it has ended (R369). -/
def State.heldStep (s : State) (g : Nat) : State :=
  match s.groups.find? (fun x => x.group == g) with
  | some x =>
    if x.held && !x.assembling then
      (s.modGroup g (fun x => { x with held := false })).stepGroup { x with held := false }
    else s
  | none => s

/-- The groups of a forme, every member OUT (R369). -/
def groupsOfForme (f : Forme) : List GroupRun :=
  let member (fe : FlowEntry) : Member :=
    { flow := fe.flow, state := .out, staged := none, prev := none, row := 0, leave := false, pool := none }
  (List.range 64).filterMap (fun g =>
    match groupMembers f.flows g with
    | [] => none
    | (fe, _) :: rest => some { group := g, ten := fe.ten, step := 0, assembling := false, held := false,
                                members := member fe :: rest.map (fun y => member y.1) })

/-! ### Delivery (R382, R387, R392, R403) -/

/-- The settings of a unit's batch entry. -/
def State.unitGalley (s : State) (u : BatchOut) : Option GalleySettings := (s.flow? u.flow).bind (·.galley)

/-- End a unit with a status: the batch entry, then its tasks (R367, R368, R403). -/
def State.endUnit (s : State) (u : BatchOut) (status : Nat) (fail : Bool) : State :=
  if u.batch then
    let s := match s.unitGalley u with
      | some g => s.postEntry (batchEntry g u status)
      | none => s
    let s := u.rows.foldl (fun s r => s.endRow r.1 (if fail then status else r.2.1) r.2.2 u.index) s
    s.dropUnit u
  else
    let s := u.rows.foldl (fun s r =>
      let slot := match (s.flow? u.flow).bind (·.delta) with | some d => u.index % max 1 d.slots | none => 0
      let s := s.modTask r.1 (fun t => { t with detail := BitVec.ofNat 32 (t.detail.toNat % 8 + 65536 * (slot % 1024)) })
      if fail then s.stopTask r.1 status true else (s.placeOutputs r.1).finishTask r.1) s
    s.dropUnit u

/-- Abort a unit at Delta (R402, R403): what is unwritten is dropped; the acknowledgements are awaited. -/
def State.abortUnit (s : State) (u : BatchOut) (status reason : Nat) : State :=
  if u.aborted then s else
  let waiting := s.unissued (fun p => p == .delivery u.key)
  let s := s.weirDrop (fun p => p == .delivery u.key)
  let s := (s.incFld F.STN_DLT_COUNT_B_ABORTS).setFlds [(F.STN_DLT_LAST_FLOW, u.flow),
    (F.STN_DLT_LAST_TENANCY, u.ten), (F.STN_DLT_LAST_REASON, reason), (F.STN_DLT_LAST_INDEX, 0)]
  let u := { u with aborted := true, status := status, left := [], held := [], writes := u.writes - waiting }
  let s := s.modUnit u.key (fun _ => u)
  if u.writes = 0 then s.endUnit u status true else s

/-- Is the block of a unit there? -/
def State.unitHolds (s : State) (u : BatchOut) : Bool :=
  match u.holder with
  | some h => (match s.task? h with | some t => t.waitPool.isNone | none => true)
  | none => true

/-- Hand a unit to Delta: the ranges it will write are checked first (R387). -/
def State.startUnit (s : State) (u : BatchOut) : State :=
  match (s.flow? u.flow).bind (·.delta) with
  | none => s
  | some d =>
    let ws := s.windows u.ten
    let u := { u with started := true, windows := ws }
    let s := (if u.batch then s.incFld F.STN_GAL_COUNT_A_BATCHES else s).modUnit u.key (fun _ => u)
    let bad := (diesOf d.dieMask).findSome? (fun k => u.left.findSome? (fun p =>
      if inWindows ws false true (dieBase k + p.1) p.2.length then none else some (dieBase k + p.1)))
    match bad with
    | some a => (s.windowFail u.ten a 2 (.flow u.flow)).abortUnit u 0x41 3
    | none => s

/-- Hand over every unit that is assembled and has its block. -/
def State.startUnits (s : State) : State :=
  s.batches.foldl (fun s u => if !u.started && u.asm == 0 && s.unitHolds u then s.startUnit u else s) s

/-- Make the delivery unit of a sample of a flow without Galley (R382). Side outputs above AUX_STRIDE, or a corrupt
sample, write nothing. -/
def State.deliverSample (s : State) (fe : FlowEntry) (d : DeltaSettings) (x : Sample) (t : Task) : State :=
  let side := sideImage x.side
  let status := if x.status ≠ 0 then x.status else if x.overcls then 0x21
    else if (d.auxStride < side.length ∧ side ≠ []) then 0x20 else 0
  if status ≠ 0 then s.stopTask t.id status (statusInvalid status)
  else
    let image := padTo fe.tensorLen (x.tensor.getD [])
    let u : BatchOut :=
      { key := s.nextBatch, flow := fe.flow, head := fe.flow, ten := fe.ten, batch := false, group := none, index := x.index, asm := 0,
        left := unitPieces (image.length / 65536 + 1) (d.slotAt x.index) image ++
          unitPieces (side.length / 65536 + 1) (d.auxAt x.index) side,
        held := [], writes := 0, rows := [(t.id, 0, 0)], subst := 0, masked := 0, status := 0, aborted := false,
        started := false, staggered := false, holder := none, engine := 0, release := t.release, windows := [] }
    let s := { s with batches := s.batches ++ [u], nextBatch := s.nextBatch + 1 }
    s.modTask t.id (fun t => { t with phase := .writing, samples := [] })

/-- Write one piece of a unit. -/
def State.writeUnit (s : State) (fe : FlowEntry) (d : DeltaSettings) (u : BatchOut) (p : Nat × List Byte) : State :=
  let (a, mask) := match diesOf d.dieMask with
    | [k] => (dieBase k + p.1, 0)
    | _ => (p.1, d.dieMask)
  let n := (pieces a p.2.length).length
  let s := s.modUnit u.key (fun u => { u with writes := u.writes + n })
  let s := (s.addUnits F.STN_DLT_COUNT_A_MIB 1048576 p.2.length).addUnits F.STN_DLT_COUNT_A_TRANSFERS_K 1024 1
  s.writeMover u.engine fe.deadline u.ten a mask p.2 (.delivery u.key)

/-- Has a unit a ready piece? -/
def BatchOut.ready (u : BatchOut) : Bool := u.started && !u.aborted && !u.left.isEmpty

/-- Dispatch the next piece of a unit, held when the stagger says so (R401). -/
def State.dispatchUnit (s : State) (u : BatchOut) : State :=
  match s.flow? u.flow, u.left with
  | some fe, p :: rest => match fe.delta with
    | some d =>
      let busy := !u.held.isEmpty || s.unissued (fun p => p == .delivery u.key) != 0
      let u := { u with left := rest, engine := if busy then u.engine else (s.moverFor fe).getD 0 }
      let s := s.modUnit u.key (fun _ => u)
      if s.staggers d.dieMask (s.holdLimit fe u.release) then
        let s := if u.staggered then s else s.incFld F.STN_DLT_COUNT_C_STAGGER_HELD
        s.modUnit u.key (fun u => { u with held := u.held ++ [p], staggered := true })
      else s.writeUnit fe d u p
    | none => s
  | _, _ => s

/-- End a unit with nothing left to write or to await: messages, then entries (R392). -/
def State.endUnitIfDone (s : State) (key : Nat) : State :=
  match s.batches.find? (fun u => u.key == key) with
  | some u =>
    if u.started && u.writes == 0 && u.left.isEmpty && u.held.isEmpty then
      if u.aborted then s.endUnit u u.status true
      else
        let s := match (s.flow? u.flow).bind (·.delta) with
          | some d => if d.notify then
              (diesOf d.dieMask).foldl (fun (s : State) die => s.deltaDone u.flow u.ten 0 u.index u.key die) s else s
          | none => s
        (s.countDelivered u.flow).endUnit u u.status false
    else s
  | none => s

/-- A write of a unit is acknowledged. -/
def State.ackedUnit (s : State) (key : Nat) : State :=
  (s.modUnit key (fun u => { u with writes := u.writes - 1 })).endUnitIfDone key

/-- Write what the stagger held of every unit that a test lets go. -/
def State.releaseUnits (s : State) (p : State → FlowEntry → BatchOut → Nat → Bool) : State :=
  s.batches.foldl (fun s u => match s.flow? u.flow with
    | some fe => match fe.delta with
      | some d => if !u.held.isEmpty && p s fe u d.dieMask then
          u.held.foldl (fun s q => s.writeUnit fe d u q) (s.modUnit u.key (fun u => { u with held := [] })) else s
      | none => s
    | none => s) s

end Sys2Proof.Machine
end

