-- ==== Sys2Proof/Machine/Dims.lean ====
section
/-! DEFINITION. The declared dimensions of a compressed picture or stream, which the declared-size guard reads (R207).
PRESUMED: the places of the syntax elements that R207 names are those of the published standards. -/

namespace Sys2Proof.Machine

/-- A reader of bits, most significant bit first. -/
abbrev Rd := StateT (List Bool) Option

/-- The bits of a byte, most significant first. -/
def byteBits (b : Byte) : List Bool := (List.range 8).map (fun i => bit b.toNat (7 - i))

/-- Read n bits as a number. -/
def rdU (n : Nat) : Rd Nat := fun l =>
  if l.length < n then none else some ((l.take n).foldl (fun a b => 2 * a + b2n b) 0, l.drop n)

/-- Skip n bits. -/
def rdSkip (n : Nat) : Rd Unit := fun l => if l.length < n then none else some ((), l.drop n)

/-- An unsigned exponential-Golomb number. -/
def rdUe : Rd Nat := fun l =>
  let z := (l.takeWhile (fun b => !b)).length
  if 32 ≤ z then none
  else match rdU (z + 1) (l.drop z) with
    | some (v, rest) => some (v - 1, rest)
    | none => none

/-- Do something n times. -/
def rdTimes : Nat → Rd Unit → Rd Unit
  | 0, _ => pure ()
  | n + 1, r => do r; rdTimes n r

/-- Do something when a flag is 1. -/
def rdWhen (c : Bool) (r : Rd Unit) : Rd Unit := if c then r else pure ()

/-! ### JPEG and PNG -/

/-- Walk the markers of a JPEG to its first SOF: X and Y. -/
def jpegGo : Nat → List Byte → Option (Nat × Nat)
  | 0, _ => none
  | n + 1, d =>
    let be (o : Nat) := byteAt d o * 256 + byteAt d (o + 1)
    let m := byteAt d 1
    if d.length < 2 ∨ byteAt d 0 ≠ 0xFF then none
    else if m = 0xFF then jpegGo n (d.drop 1)
    else if m = 0x01 ∨ (0xD0 ≤ m ∧ m ≤ 0xD8) then jpegGo n (d.drop 2)
    else if m = 0xD9 ∨ m = 0xDA then none
    else if 0xC0 ≤ m ∧ m ≤ 0xCF ∧ m ≠ 0xC4 ∧ m ≠ 0xC8 ∧ m ≠ 0xCC then
      if d.length < 9 then none else some (be 7, be 5)
    else if d.length < 4 ∨ be 2 < 2 then none
    else jpegGo n (d.drop (2 + be 2))

/-- X and Y of a JPEG. -/
def jpegDims (d : List Byte) : Option (Nat × Nat) := jpegGo d.length d

/-- Width and height of a PNG's IHDR. -/
def pngDims (d : List Byte) : Option (Nat × Nat) :=
  if d.length < 24 ∨ d.take 8 ≠ [0x89, 0x50, 0x4E, 0x47, 0x0D, 0x0A, 0x1A, 0x0A] ∨
    sliceAt d 12 4 ≠ [0x49, 0x48, 0x44, 0x52] then none
  else
    let be (o : Nat) := ((d.drop o).take 4).foldl (fun a b => 256 * a + b.toNat) 0
    some (be 16, be 20)

/-! ### AV1 -/

/-- A leb128 number, and the bytes after it. -/
def leb128 : Nat → List Byte → Option (Nat × List Byte)
  | 0, _ => none
  | _, [] => none
  | n + 1, b :: rest =>
    if b.toNat < 128 then some (b.toNat, rest)
    else (leb128 n rest).map (fun q => (b.toNat - 128 + 128 * q.1, q.2))

/-- One operating point of a sequence header. -/
def av1Point (delayBits : Option Nat) (display : Bool) : Rd Unit := do
  rdSkip 12
  let lvl ← rdU 5
  rdWhen (decide (7 < lvl)) (rdSkip 1)
  match delayBits with
  | some n => do
    let p ← rdU 1
    rdWhen (p == 1) (rdSkip (2 * n + 1))
  | none => pure ()
  rdWhen display (do let p ← rdU 1; rdWhen (p == 1) (rdSkip 4))

/-- The dimensions that a sequence header declares. -/
def av1Seq : Rd (Nat × Nat) := do
  rdSkip 4
  let reduced ← rdU 1
  if reduced = 1 then rdSkip 5
  else do
    let timing ← rdU 1
    let delay ← (if timing = 1 then do
        rdSkip 64
        let eq ← rdU 1
        rdWhen (eq == 1) (do let _ ← rdUe; pure ())
        let model ← rdU 1
        if model = 1 then do
          let n ← rdU 5
          rdSkip 42
          pure (some (n + 1))
        else pure none
      else pure none : Rd (Option Nat))
    let disp ← rdU 1
    let cnt ← rdU 5
    rdTimes (cnt + 1) (av1Point delay (disp == 1))
  let wb ← rdU 4
  let hb ← rdU 4
  let w ← rdU (wb + 1)
  let h ← rdU (hb + 1)
  pure (w + 1, h + 1)

/-- Walk OBUs to the first sequence header. -/
def av1Go : Nat → List Byte → Option (Nat × Nat)
  | 0, _ => none
  | n + 1, d =>
    if d.isEmpty then none else
      let b := byteAt d 0
      let body := d.drop (if bit b 2 then 2 else 1)
      let sized := if bit b 1 then leb128 8 body else some (body.length, body)
      match sized with
      | none => none
      | some (len, rest) =>
        if b / 8 % 16 = 1 then (av1Seq ((rest.take (min len 512)).flatMap byteBits)).map (·.1)
        else av1Go n (rest.drop len)

/-- Dimensions of the first sequence header of an AV1 stream. -/
def av1Dims (d : List Byte) : Option (Nat × Nat) := av1Go d.length d

/-! ### HEVC and AVC -/

/-- Remove emulation prevention bytes. -/
def unescape : Nat → List Byte → List Byte
  | _, [] => []
  | z, b :: rest =>
    if 2 ≤ z ∧ b = 3 then unescape 0 rest
    else b :: unescape (if b = 0 then z + 1 else 0) rest

/-- The NAL units of a byte stream, each from its header byte to the end of the stream. -/
def nalStarts : List Byte → List (List Byte)
  | [] => []
  | b :: rest =>
    (if b = 0 ∧ rest.take 2 = [0, 1] then [rest.drop 2] else []) ++ nalStarts rest

/-- profile_tier_level with sub-layers, from the start of the structure. -/
def hevcPtl (subLayers : Nat) : Rd Unit := do
  rdSkip 96
  let flags ← rdU (if subLayers = 0 then 0 else 16)
  let skip := ((List.range subLayers).map (fun i => 88 * b2n (bit flags (15 - 2 * i)) + 8 * b2n (bit flags (14 - 2 * i)))).sum
  rdSkip skip

/-- The dimensions of an HEVC SPS. -/
def hevcSps : Rd (Nat × Nat) := do
  rdSkip 4
  let sub ← rdU 3
  rdSkip 1
  hevcPtl sub
  let _ ← rdUe
  let c ← rdUe
  rdWhen (c == 3) (rdSkip 1)
  let w ← rdUe
  let h ← rdUe
  pure (w, h)

/-- The dimensions of the first SPS of an HEVC stream. -/
def hevcDims (d : List Byte) : Option (Nat × Nat) :=
  match (nalStarts d).find? (fun n => byteAt n 0 / 2 % 64 == 33 && byteAt n 0 % 2 == 0 && byteAt n 1 / 8 == 0) with
  | some n => (hevcSps ((unescape 0 ((n.drop 2).take 1024)).flatMap byteBits)).map (·.1)
  | none => none

/-- Skip one scaling list: entries are coded until the next scale becomes 0. -/
def avcScaling : Nat → Int → Int → Rd Unit
  | 0, _, _ => pure ()
  | n + 1, last, next =>
    if next = 0 then pure ()
    else do
      let k ← rdUe
      let delta : Int := if k % 2 = 1 then ((k + 1) / 2 : Nat) else -((k / 2 : Nat) : Int)
      let nx := (last + delta + 256) % 256
      avcScaling n (if nx = 0 then last else nx) nx

/-- Skip the scaling lists of an SPS, from list i on. -/
def avcLists : Nat → Nat → Rd Unit
  | 0, _ => pure ()
  | n + 1, i => do
    let f ← rdU 1
    rdWhen (f == 1) (avcScaling (if i < 6 then 16 else 64) 8 8)
    avcLists n (i + 1)

/-- The frame dimensions of an AVC SPS in luma samples. -/
def avcSps : Rd (Nat × Nat) := do
  let prof ← rdU 8
  rdSkip 16
  let _ ← rdUe
  if [100, 110, 122, 244, 44, 83, 86, 118, 128, 138, 139, 134, 135].contains prof then do
    let c ← rdUe
    rdWhen (c == 3) (rdSkip 1)
    let _ ← rdUe
    let _ ← rdUe
    rdSkip 1
    let m ← rdU 1
    rdWhen (m == 1) (avcLists (if c = 3 then 12 else 8) 0)
  let _ ← rdUe
  let poc ← rdUe
  if poc = 0 then do let _ ← rdUe; pure ()
  else if poc = 1 then do
    rdSkip 1
    let _ ← rdUe
    let _ ← rdUe
    let n ← rdUe
    rdTimes n (do let _ ← rdUe; pure ())
  let _ ← rdUe
  rdSkip 1
  let w ← rdUe
  let h ← rdUe
  let fmo ← rdU 1
  pure (16 * (w + 1), 16 * (2 - fmo) * (h + 1))

/-- The dimensions of the first SPS of an AVC stream. -/
def avcDims (d : List Byte) : Option (Nat × Nat) :=
  match (nalStarts d).find? (fun n => byteAt n 0 % 32 == 7) with
  | some n => (avcSps ((unescape 0 ((n.drop 1).take 1024)).flatMap byteBits)).map (·.1)
  | none => none

/-- The first dimension declaration within the first 262,144 bytes of a field (R207). -/
def declaredDims (codec : Nat) (d : List Byte) : Option (Nat × Nat) :=
  let d := d.take 262144
  match codec with
  | 1 => av1Dims d
  | 2 => hevcDims d
  | 3 => avcDims d
  | 4 => jpegDims d
  | 5 => pngDims d
  | _ => none

/-- The declared-size guard of R207. -/
def guardPasses (w h maxW maxH k f : Nat) : Bool :=
  decide (1 ≤ w ∧ 1 ≤ h ∧ w ≤ maxW ∧ h ≤ maxH ∧ w * h ≤ k * f)

end Sys2Proof.Machine
end

