-- ==== Sys2Proof/Machine/Records.lean ====
section
/-! DEFINITION. Record framing by Case: POSIX tar, the Holtevo sample container, and the CBOR subset (R198 to R206). -/

namespace Sys2Proof.Machine

/-- Reasons of R209, as STN_CASE_LAST.REASON numbers them (R214); `none` for a sample that Case passes. -/
inductive Reason where
  | framing | truncated | hscBody | cbor | missing | dupField | noDims | guard
  deriving DecidableEq, Repr

/-- The number of a reason (R214). -/
def Reason.code : Reason → Nat
  | .framing => 1 | .truncated => 2 | .hscBody => 3 | .cbor => 4 | .missing => 5 | .dupField => 6 | .noDims => 7
  | .guard => 8

/-- One value of a field: its bytes, whether they are given as bytes (R206), and where in the range they lie. -/
structure FieldVal where
  bytes   : List Byte
  isBytes : Bool
  off     : Nat
  deriving DecidableEq, Repr

/-- One candidate sample as framing leaves it: record ID, ordinal, offset in the range, what framing found wrong and at which
offset (R214), and the (key, value) pairs in order. -/
structure RawSample where
  recordId : Nat
  ordinal  : Nat
  off      : Nat
  bad      : Option (Reason × Nat)
  vals     : List (List Byte × FieldVal)
  deriving DecidableEq, Repr

/-- What framing a range gives: the samples in order, whether a framing error occurred, framing errors that belong to no
sample, and tar members skipped. -/
structure Framed where
  samples : List RawSample
  error   : Bool
  loose   : Nat
  skipped : Nat
  deriving DecidableEq, Repr

/-! ### Tar -/

/-- An octal ASCII number with optional leading spaces, ended by NUL or space, or, where `open_`, by the end of its field
(R198). -/
def octalGo (open_ : Bool) : List Byte → Nat → Bool → Option Nat
  | [], n, seen => if seen && open_ then some n else none
  | b :: rest, n, seen =>
    if b.toNat = 32 ∧ seen = false then octalGo open_ rest n false
    else if b.toNat = 0 ∨ b.toNat = 32 then (if seen then some n else none)
    else if 48 ≤ b.toNat ∧ b.toNat ≤ 55 then octalGo open_ rest (8 * n + (b.toNat - 48)) true
    else none

/-- The size field of a header: it must be ended. -/
def octal (d : List Byte) : Option Nat := octalGo false d 0 false

/-- The sum of a header block with its checksum bytes counted as spaces (R198). -/
def tarSum (h : List Byte) : Nat :=
  let t := sliceAt h 0 148 ++ List.replicate 8 32 ++ h.drop 156
  t.foldl (fun a b => a + b.toNat) 0

/-- Is a block a valid header (R198)? -/
def tarHeaderOk (h : List Byte) : Bool :=
  octalGo true (sliceAt h 148 8) 0 false == some (tarSum h) &&
    sliceAt h 257 8 == [0x75, 0x73, 0x74, 0x61, 0x72, 0x00, 0x30, 0x30]

/-- Bytes up to the first NUL. -/
def cString (d : List Byte) : List Byte := d.takeWhile (· != 0)

/-- A member's path from its header (R198). -/
def tarPath (h : List Byte) : List Byte :=
  let name := cString (sliceAt h 0 100)
  let pre := cString (sliceAt h 345 155)
  if pre.isEmpty then name else pre ++ [0x2F] ++ name

/-- A decimal number, for pax records. -/
def decimal (d : List Byte) : Option Nat :=
  if d.isEmpty ∨ d.any (fun b => b.toNat < 48 ∨ 57 < b.toNat) then none
  else some (d.foldl (fun a b => 10 * a + (b.toNat - 48)) 0)

/-- The records of a pax header: each "length key=value" and a newline (R199). -/
def paxGo : Nat → List Byte → Option (List (List Byte × List Byte))
  | 0, _ => none
  | n + 1, d =>
    if d.isEmpty then some [] else
      let digits := d.takeWhile (· != 0x20)
      match decimal digits with
      | none => none
      | some len =>
        let r := d.take len
        let body := (r.drop (digits.length + 1)).dropLast
        let key := body.takeWhile (· != 0x3D)
        if len ≤ digits.length + 1 ∨ d.length < len ∨ r.getLast? ≠ some 0x0A ∨ key.length = body.length then none
        else (paxGo n (d.drop len)).map (fun l => (key, body.drop (key.length + 1)) :: l)

/-- A pax header's records. -/
def paxRecords (d : List Byte) : Option (List (List Byte × List Byte)) := paxGo (d.length + 1) d

/-- The last path component starts after the last slash. -/
def lastComponent (p : List Byte) : List Byte := (p.reverse.takeWhile (· != 0x2F)).reverse

/-- Key and extension of a path (R200): none when the last component has no dot. -/
def tarKey (p : List Byte) : Option (List Byte × List Byte) :=
  let c := lastComponent p
  let stem := c.takeWhile (· != 0x2E)
  if stem.length = c.length then none
  else some (p.take (p.length - c.length) ++ stem, c.drop (stem.length + 1))

/-- The group being built: key, ordinal, offset, and its members' (extension, bytes). -/
structure TarGroup where
  key  : List Byte
  ord  : Nat
  off  : Nat
  vals : List (List Byte × FieldVal)
  deriving DecidableEq, Repr

/-- The running state of tar framing. -/
structure TarRun where
  out   : Framed
  group : Option TarGroup
  next  : Nat
  /-- pax path and size for the next member -/
  path  : Option (List Byte)
  size  : Option Nat
  deriving DecidableEq, Repr

/-- Is a key that of a non-SKIP field? -/
def matchesField (fs : List RecField) (key : List Byte) : Bool := fs.any (fun f => f.key == key && f.role != 0)

/-- Close the group being built, with what was found wrong in it. A group that matches no field is no sample (R200). -/
def TarRun.close (r : TarRun) (fs : List RecField) (shard : Nat) (bad : Option (Reason × Nat)) : TarRun :=
  match r.group with
  | none => { r with out := { r.out with loose := r.out.loose + (match bad with | some (.framing, _) => 1 | _ => 0) } }
  | some g =>
    let s : RawSample := ⟨shard * 2 ^ 32 + g.ord, g.ord, g.off, bad, g.vals⟩
    let keep := g.vals.any (fun v => matchesField fs v.1)
    { r with group := none, out := { r.out with samples := r.out.samples ++ (if keep then [s] else []) } }

/-- Add a member, whose header lies at `off`, to its group, closing the group before it when the key changes (R200). -/
def TarRun.member (r : TarRun) (fs : List RecField) (shard off : Nat) (path data : List Byte) : TarRun :=
  match tarKey path with
  | none => r.close fs shard none
  | some (key, ext) =>
    let v := (ext, (⟨data, true, off + 512⟩ : FieldVal))
    match r.group with
    | some g =>
      if g.key = key then { r with group := some { g with vals := g.vals ++ [v] } }
      else
        let r := r.close fs shard none
        { r with group := some ⟨key, r.next, off, [v]⟩, next := r.next + 1 }
    | none => { r with group := some ⟨key, r.next, off, [v]⟩, next := r.next + 1 }

/-- Frame a tar range from a block boundary on (R198 to R201). `seek`: after a framing error, look for a valid header. -/
def tarGo (fs : List RecField) (resync : Bool) (shard : Nat) : Nat → Nat → List Byte → Bool → TarRun → TarRun
  | 0, _, _, _, r => r.close fs shard none
  | n + 1, off, d, seek, r =>
    if d.isEmpty then r.close fs shard none
    else if d.length < 512 then
      if seek then r else r.close fs shard (some (.truncated, off + d.length))
    else
      let h := d.take 512
      let rest := d.drop 512
      let fail (r : TarRun) : TarRun :=
        let r := { (r.close fs shard (some (.framing, off))) with path := none, size := none }
        let r := { r with out := { r.out with error := true } }
        if resync then tarGo fs resync shard n (off + 512) rest true r else r
      if allZero h && (rest.isEmpty || allZero (rest.take 512)) then r.close fs shard none
      else if !tarHeaderOk h then
        if seek then tarGo fs resync shard n (off + 512) rest true r else fail r
      else match octal (sliceAt h 124 12) with
        | none => fail r
        | some sz =>
          let flag := byteAt h 156
          let size := if flag = 0x78 ∨ flag = 0x67 then sz else r.size.getD sz
          let blocks := ceilDiv size 512 * 512
          let data := rest.take size
          let path := r.path.getD (tarPath h)
          if flag = 0x78 ∧ 65536 < size then fail r
          else if 1024 < path.length then fail r
          else if rest.length < size then
            let r := if flag = 0x30 ∨ flag = 0 then r.member fs shard off path data else r
            r.close fs shard (some (.truncated, off + d.length))
          else
            let go (r : TarRun) : TarRun := tarGo fs resync shard n (off + 512 + blocks) (rest.drop blocks) false r
            if flag = 0x78 then
              match paxRecords data with
              | none => fail r
              | some recs =>
                let p := (recs.reverse.find? (fun q => q.1 == [0x70, 0x61, 0x74, 0x68])).map (·.2)
                let z := (recs.reverse.find? (fun q => q.1 == [0x73, 0x69, 0x7A, 0x65])).bind (fun q => decimal q.2)
                go { r with path := p, size := z }
            else if flag = 0x67 then go r
            else
              let r' := { r with path := none, size := none }
              if flag = 0x30 ∨ flag = 0 then go (r'.member fs shard off path data)
              else go { r' with out := { r'.out with skipped := r'.out.skipped + 1 } }

/-- Frame a tar range. -/
def tarFrame (fs : List RecField) (resync : Bool) (shard : Nat) (d : List Byte) : Framed :=
  (tarGo fs resync shard (d.length / 512 + 2) 0 d false ⟨⟨[], false, 0, 0⟩, none, 0, none, none⟩).out

/-! ### CBOR -/

/-- The fp64 pattern of a half (5 exponent bits, 10 mantissa) or single (8, 23) pattern. -/
def widenFloat (eb mb v : Nat) : Nat :=
  let s := v / 2 ^ (eb + mb) % 2
  let e := v / 2 ^ mb % 2 ^ eb
  let m := v % 2 ^ mb
  let sign := s * 2 ^ 63
  if e = 2 ^ eb - 1 then sign + 2047 * 2 ^ 52 + m * 2 ^ (52 - mb)
  else if e ≠ 0 then sign + (e + 1023 - (2 ^ (eb - 1) - 1)) * 2 ^ 52 + m * 2 ^ (52 - mb)
  else if m = 0 then sign
  else
    let k := m.log2
    sign + (k + 1 + 1023 - (2 ^ (eb - 1) - 1) - mb) * 2 ^ 52 + (m - 2 ^ k) * 2 ^ (52 - k)

/-- The argument of a CBOR head: value, and the bytes after it; none for an indefinite or reserved form. -/
def cborArg (d : List Byte) : Option (Nat × List Byte) :=
  let a := byteAt d 0 % 32
  let rest := d.drop 1
  let n := if a < 24 then 0 else if a = 24 then 1 else if a = 25 then 2 else if a = 26 then 4 else if a = 27 then 8 else 9
  if d.isEmpty ∨ n = 9 ∨ rest.length < n then none
  else if n = 0 then some (a, rest)
  else some ((rest.take n).foldl (fun x b => 256 * x + b.toNat) 0, rest.drop n)

/-- What the CBOR map of a record lies in: the record's payload region and its offset in the range, and the offset of the map's
end. -/
structure CborPlace where
  payload : List Byte
  payOff  : Nat
  end_    : Nat

/-- One value of the subset (R205): its bytes, and the bytes after it. -/
def cborValue (c : CborPlace) (d : List Byte) : Option (FieldVal × List Byte) :=
  match cborArg d with
  | none => none
  | some (a, rest) =>
    let at_ := c.end_ - rest.length
    match byteAt d 0 / 32 with
    | 0 => if a < 2 ^ 63 then some (⟨leBytes 8 a, false, at_⟩, rest) else none
    | 1 => if a < 2 ^ 63 then some (⟨leBytes 8 (2 ^ 64 - 1 - a), false, at_⟩, rest) else none
    | 2 => if a ≤ rest.length then some (⟨rest.take a, true, at_⟩, rest.drop a) else none
    | 3 => if a ≤ rest.length then some (⟨rest.take a, false, at_⟩, rest.drop a) else none
    | 4 =>
      if a ≠ 2 then none
      else if byteAt rest 0 / 32 ≠ 0 then none
      else match cborArg rest with
        | none => none
        | some (off, r2) =>
          if byteAt r2 0 / 32 ≠ 0 ∨ r2.isEmpty then none
          else match cborArg r2 with
            | none => none
            | some (len, r3) =>
              if off + len ≤ c.payload.length then some (⟨sliceAt c.payload off len, true, c.payOff + off⟩, r3) else none
    | 7 =>
      let b := byteAt d 0 % 32
      if b = 20 then some (⟨[0], false, at_⟩, rest)
      else if b = 21 then some (⟨[1], false, at_⟩, rest)
      else if b = 22 then some (⟨[2], false, at_⟩, rest)
      else if b = 25 then some (⟨leBytes 8 (widenFloat 5 10 a), false, at_⟩, rest)
      else if b = 26 then some (⟨leBytes 8 (widenFloat 8 23 a), false, at_⟩, rest)
      else if b = 27 then some (⟨leBytes 8 a, false, at_⟩, rest)
      else none
    | _ => none

/-- `n` pairs of a map that follow the pairs `done`; pairs whose key is no text string are parsed and ignored. An item outside the
subset, or a text key that occurs twice, is named by its offset. -/
def cborPairs (c : CborPlace) : Nat → List Byte → List (List Byte × FieldVal) → Except Nat (List (List Byte × FieldVal) × List Byte)
  | 0, d, done => .ok (done, d)
  | n + 1, d, done =>
    match cborValue c d with
    | none => .error (c.end_ - d.length)
    | some (k, r1) =>
      let text := byteAt d 0 / 32 = 3
      if text ∧ done.any (fun y => y.1 == k.bytes) then .error (c.end_ - d.length)
      else match cborValue c r1 with
      | none => .error (c.end_ - r1.length)
      | some (v, r2) => cborPairs c n r2 (if text then done ++ [(k.bytes, v)] else done)

/-- The field map of a record (R205), or the offset of what is outside the subset. -/
def cborMap (c : CborPlace) (d : List Byte) : Except Nat (List (List Byte × FieldVal)) :=
  let start := c.end_ - d.length
  if d.isEmpty ∨ byteAt d 0 / 32 ≠ 5 then .error start
  else match cborArg d with
    | none => .error start
    | some (n, rest) =>
      if 64 < n then .error start
      else match cborPairs c n rest [] with
        | .error k => .error k
        | .ok (l, tail) => if tail.isEmpty then .ok l else .error (c.end_ - tail.length)

/-! ### HSC -/

/-- Is the HSC file header good (R202)? -/
def hscFileOk (d : List Byte) : Bool :=
  fieldAt d 0 4 == 0x31435348 && fieldAt d 4 2 == 1 && fieldAt d 6 2 == 0 && fieldAt d 12 4 == 0 &&
    allZero (sliceAt d 24 36) && fieldAt d 60 4 == crc32c (d.take 60)

/-- Is a record header good (R203)? -/
def hscHeaderOk (d : List Byte) : Bool :=
  fieldAt d 0 4 == 0x31525348 && fieldAt d 28 4 == crc32c (d.take 28) && fieldAt d 4 4 % 64 == 0 &&
    decide (64 ≤ fieldAt d 4 4)

/-- The sample of one whole record (R204, R205). -/
def hscRecord (ord off : Nat) (d : List Byte) : RawSample :=
  let len := fieldAt d 4 4
  let mapLen := fieldAt d 16 4
  let flags := fieldAt d 24 4
  let body := sliceAt d 32 (len - 32)
  let start := roundUp (32 + mapLen) 64
  let s : RawSample := ⟨fieldAt d 8 8, ord, off, none, []⟩
  if flags % 2 = 1 ∧ crc32c body ≠ fieldAt d 20 4 then { s with bad := some (.hscBody, off + 32) }
  else if mapLen = 0 ∨ 65536 < mapLen ∨ len < 32 + mapLen then { s with bad := some (.cbor, off + 16) }
  else match cborMap ⟨(d.take len).drop start, off + start, off + 32 + mapLen⟩ (sliceAt d 32 mapLen) with
    | .error k => { s with bad := some (.cbor, k) }
    | .ok l => { s with vals := l }

/-- Frame records from a 64-byte boundary on (R203, R204). `left`: records still allowed by RECORD_COUNT. -/
def hscGo (resync : Bool) : Nat → Nat → Nat → Option Nat → Bool → List Byte → Framed → Framed
  | 0, _, _, _, _, _, o => o
  | n + 1, off, ord, left, seek, d, o =>
    if d.isEmpty ∨ left = some 0 then o
    else if d.length < 32 then
      if seek then o else { o with samples := o.samples ++ [⟨0, ord, off, some (.truncated, off + d.length), []⟩] }
    else if !hscHeaderOk d then
      if seek then hscGo resync n (off + 64) ord left true (d.drop 64) o
      else
        let o := { o with error := true, samples := o.samples ++ [(⟨0, ord, off, some (.framing, off), []⟩ : RawSample)] }
        if resync then hscGo resync n (off + 64) (ord + 1) left true (d.drop 64) o else o
    else
      let len := fieldAt d 4 4
      if d.length < len then
        { o with samples := o.samples ++ [⟨fieldAt d 8 8, ord, off, some (.truncated, off + d.length), []⟩] }
      else
        let o := { o with samples := o.samples ++ [hscRecord ord off d] }
        hscGo resync n (off + len) (ord + 1) (left.map (· - 1)) false (d.drop len) o

/-- Frame an HSC range. A range that opens with the file magic starts at the shard's offset 0 (DEDUCED). -/
def hscFrame (resync : Bool) (d : List Byte) : Framed :=
  let o : Framed := ⟨[], false, 0, 0⟩
  let fuel := d.length / 64 + 2
  if fieldAt d 0 4 = 0x31435348 then
    if d.length < 64 then { o with error := true, loose := 1 }
    else if hscFileOk d then
      let n := fieldAt d 8 4
      hscGo resync fuel 64 0 (if n = 0 then none else some n) false (d.drop 64) o
    else
      let o := { o with error := true, loose := 1 }
      if resync then hscGo resync fuel 64 0 none true (d.drop 64) o else o
  else hscGo resync fuel 0 0 none false d o

/-- Frame a range in the flow's container (R197). -/
def frameRange (rs : RecordSettings) (shard : Nat) (d : List Byte) : Framed :=
  if rs.container = 0 then tarFrame rs.fields rs.resync shard d else hscFrame rs.resync d

/-! ### Fields (R206) -/

/-- The values of a field entry, in order. -/
def fieldValues (vals : List (List Byte × FieldVal)) (f : RecField) : List FieldVal :=
  (vals.filter (fun v => v.1 == f.key)).map (·.2)

/-- What is wrong with the fields of a sample that starts at `off` (R206), in the order of the rule's list, and where (R214): a field
that is absent at the sample's start, a repeated one at its second place, one of the wrong type or size at its own. -/
def fieldsBad (fs : List RecField) (vals : List (List Byte × FieldVal)) (off : Nat) : Option (Reason × Nat) :=
  if fs.any (fun f => f.required && (fieldValues vals f).isEmpty) then some (.missing, off)
  else match fs.findSome? (fun f => (fieldValues vals f)[1]?) with
    | some v => some (.dupField, v.off)
    | none => (fs.findSome? (fun f => (fieldValues vals f).head?.filter (fun v =>
        (f.role == 1 && !v.isBytes) || (f.role == 3 && decide (4096 < v.bytes.length))))).map (fun v => (.cbor, v.off))

/-- Is some field above its FIELD_MAX? -/
def fieldsOver (fs : List RecField) (vals : List (List Byte × FieldVal)) : Bool :=
  fs.any (fun f => (fieldValues vals f).any (fun v => decide (f.fieldMax < v.bytes.length)))

/-- The fields of a sample with a role, in the order of the field entries. -/
def roleValues (fs : List RecField) (vals : List (List Byte × FieldVal)) (role : Nat) : List FieldVal :=
  (fs.filter (fun f => f.role == role)).flatMap (fieldValues vals)

end Sys2Proof.Machine
end

