-- ==== Sys2Proof/Machine/Intake.lean ====
section
/-! DEFINITION. What Headwater makes of the bytes that a task brought: injection headers (R210, R211), injected pictures
and tensors (R299), live parts (R185), and the samples that leave Case (R206 to R209). -/

namespace Sys2Proof.Machine

/-! ### Injection headers (R210, R211) -/

/-- An injection header. -/
structure InjHeader where
  fmt    : Nat
  layout : Nat
  ch     : Nat
  kind   : Nat
  w      : Nat
  h      : Nat
  main   : Nat × Nat
  text   : Nat × Nat
  aux    : Nat × Nat
  record : Nat
  deriving DecidableEq, Repr

/-- The fields of the 64 bytes of an injection header. -/
def parseInj (d : List Byte) : InjHeader :=
  { fmt := byteAt d 0, layout := byteAt d 1 % 16, ch := byteAt d 1 / 16 + 1, kind := byteAt d 2, w := fieldAt d 4 2,
    h := fieldAt d 6 2, main := (fieldAt d 8 4, fieldAt d 12 4), text := (fieldAt d 16 4, fieldAt d 20 4),
    aux := (fieldAt d 24 4, fieldAt d 28 4), record := fieldAt d 32 8 }

/-- The formats of an E2 picture. -/
def e2Format (f : Nat) : Bool := f = 0x01 ∨ f = 0x02 ∨ f = 0x04 ∨ f = 0x05 ∨ f = 0x06 ∨ f = 0x0E ∨ f = 0x0F

/-- Does an injection header pass R211 for an entry point of a flow? `len`: SRC_LEN. -/
def InjHeader.ok (x : InjHeader) (fe : FlowEntry) (entry len : Nat) (d : List Byte) : Bool :=
  let inside (r : Nat × Nat) : Bool := r.2 == 0 || decide (r.1 + r.2 ≤ len)
  let size := ceilDiv (x.w * x.h * x.ch * (fmtWidth x.fmt).getD 8) 8
  byteAt d 3 == 0 && allZero (sliceAt d 40 24) && decide (x.kind ≤ 2) && decide (x.aux.2 ≤ 4096) &&
  inside x.main && inside x.text && inside x.aux &&
  (x.main.2 == 0 || (x.main.1 % 64 == 0 && decide (64 ≤ x.main.1))) &&
  (if entry = 1 then
    x.fmt == 0 && byteAt d 1 == 0 && x.w == 0 && x.h == 0 && decide (x.kind ≤ 1) && (x.kind == 0) == (x.main.2 == 0) &&
      (x.main.2 == 0 || (fe.path.contains 2 && fe.path.contains 3)) && (x.text.2 == 0 || fe.path.contains 7)
  else if entry = 2 then
    x.text == (0, 0) && x.kind == 1 && decide (x.layout ≤ 1) && e2Format x.fmt && x.main.2 == size
  else
    x.text == (0, 0) &&
    (if x.kind = 2 then x.main.2 % 4 == 0
     else if x.kind = 1 then
       x.fmt == fe.outFormat && x.layout == fe.outLayout && x.ch == fe.outC && x.h == fe.outH && x.w == fe.outW &&
         x.main.2 == tensorBytes fe.outFormat fe.outLayout fe.outC fe.outH fe.outW
     else x.main.2 == 0))

/-- The ranges that a header names, as (offset, length). -/
def InjHeader.ranges (x : InjHeader) : List (Nat × Nat) := [x.main, x.text, x.aux].filter (fun r => r.2 != 0)

/-! ### E2 pictures (R299) -/

/-- The working sample of an fp32 value: clamp(round_even(x × 65535.0), 0, 65535). -/
def floatSample (x : Option Nat) : Nat :=
  match x with
  | none => Config.nanSample % 65536
  | some v =>
    let y := f32Mul v (f32OfNat 65535)
    if f32Nan y then Config.nanSample % 65536
    else if f32Sign y then 0
    else if f32Inf y then 65535
    else min 65535 (divRne (f32Mag y) (2 ^ 149))

/-- Bit depth of an E2 format. -/
def e2Depth (f : Nat) : Nat := if f = 0x01 then 8 else if f = 0x0E then 10 else if f = 0x0F then 12 else 16

/-- The picture of an E2 sample (R303): its channels as planes. -/
def e2Picture (x : InjHeader) (d : List Byte) : Picture :=
  let n := x.w * x.h * x.ch
  let v := (unpackBits ((fmtWidth x.fmt).getD 8) n d).map (fun v =>
    if x.fmt = 0x04 ∨ x.fmt = 0x05 ∨ x.fmt = 0x06 then floatSample (elemValue x.fmt v) else v)
  { w := x.w, h := x.h, depth := e2Depth x.fmt, rgb := true, alpha := x.ch == 4, subX := 1, subY := 1,
    planes := (List.range x.ch).map (fun c => ⟨x.w, x.h, (List.range (x.w * x.h)).map (fun q =>
      v.getD (if x.layout = 1 then q * x.ch + c else c * (x.w * x.h) + q) 0)⟩) }

/-! ### Samples -/

/-- A good sample with nothing in it yet. -/
def newSample (t : Task) : Sample :=
  { index := t.sample, recordId := 0, status := 0, overcls := false, time := t.capture, coded := [], frames := [],
    text := none, tokens := none, aux := [], side := [], tensor := none, cuts := [], patched := false, stand := [], stopAt := none }

/-- The bytes [a, a + n) that a task's reads brought. -/
def inSlice : Nat → List (Nat × List Byte) → Nat → Nat → List Byte
  | 0, _, _, _ => []
  | k + 1, l, a, n =>
    if n = 0 then [] else
    match l.find? (fun r => decide (r.1 ≤ a ∧ a < r.1 + r.2.length)) with
    | some r =>
      let got := (r.2.drop (a - r.1)).take n
      got ++ inSlice k l (a + got.length) (n - got.length)
    | none => []

/-- A range of a task's source. -/
def Task.sourceBytes (t : Task) (a n : Nat) : List Byte := inSlice (t.inBytes.length + 1) t.inBytes a n

/-- Tokens of a u32 stream of injected token IDs. -/
def tokenIds (d : List Byte) : List Nat := (List.range (d.length / 4)).map (fun i => fieldAt d (4 * i) 4)

/-- The sample of an injected entry (R210). An E2 picture above the flow's limits is DIM_GUARD. -/
def injectedSample (fe : FlowEntry) (t : Task) (x : InjHeader) : Sample :=
  let d := t.sourceBytes (t.srcAddr + x.main.1) x.main.2
  let b := { newSample t with
    recordId := x.record,
    aux := if x.aux.2 = 0 then [] else t.sourceBytes (t.srcAddr + x.aux.1) x.aux.2 }
  if t.entry = 1 then
    { b with
      coded := if x.main.2 = 0 then [] else d,
      text := if x.text.2 = 0 then none else some (t.sourceBytes (t.srcAddr + x.text.1) x.text.2) }
  else if t.entry = 2 then
    if fe.maxW < x.w ∨ fe.maxH < x.h then { b with status := 0x22 }
    else { b with frames := [e2Picture x d] }
  else if x.kind = 2 then { b with tokens := some (tokenIds d) }
  else { b with tensor := if x.kind = 1 then some d else none }

/-- The sample of a live post (R185): the carried parts and its own, TEXT_PART apart. -/
def liveSample (fe : FlowEntry) (t : Task) : Sample :=
  let own := t.parts.map (fun p => t.sourceBytes p.1 p.2)
  match fe.text with
  | some ts =>
    { newSample t with
      text := own[ts.textPart]?,
      coded := t.carried.flatten ++ (own.mapIdx (fun i d => if i = ts.textPart then [] else d)).flatten }
  | none => { newSample t with coded := t.carried.flatten ++ own.flatten }

/-! ### Case (R206 to R209) -/

/-- Count and record what Case found wrong with a sample (R209, R214). -/
def State.caseFault (s : State) (fe : FlowEntry) (r : Reason) (off : Nat) : State :=
  let s := match r with
    | .framing => s.incFld F.STN_CASE_REASON_FRAMING
    | .truncated => s.incFld F.STN_CASE_REASON_TRUNCATED
    | .hscBody => s.incFld F.STN_CASE_REASON_HSC_BODY
    | .cbor => s.incFld F.STN_CASE_REASON_CBOR
    | .missing => s.incFld F.STN_CASE_REASON_MISSING
    | .dupField => s.incFld F.STN_CASE_REASON_DUP_FIELD
    | .noDims => s.incFld F.STN_CASE_REASON_NO_DIMS
    | .guard => s
  let s := if r = .guard then s.incFld F.STN_CASE_COUNT_A_GUARD else s.incFld F.STN_CASE_COUNT_B_CORRUPT
  s.setFlds [(F.STN_CASE_LAST_FLOW, fe.flow), (F.STN_CASE_LAST_TENANCY, fe.ten), (F.STN_CASE_LAST_REASON, r.code),
    (F.STN_CASE_LAST_OFFSET, off % 2 ^ 32)]

/-- Status of a reason (R209). -/
def Reason.status (r : Reason) : Nat := if r = .guard then 0x22 else 0x20

/-- The declared-size guard on a PIXEL field (R207), of a STREAM flow too: a field without a declaration is NO_DIMS. -/
def State.guardOf (s : State) (fe : FlowEntry) (d : List Byte) : Option Reason :=
  match s.dec? fe.flow with
  | none => none
  | some e => match declaredDims e.codec (d.take 262144) with
    | none => some .noDims
    | some (w, h) => if guardPasses w h fe.maxW fe.maxH (s.guardK fe) d.length then none else some .guard

/-- The guard on the PIXEL field that a sample brings, whose bytes lie at `off`, with its counts (R207, R208). -/
def State.guardSample (s : State) (fe : FlowEntry) (off : Nat) (x : Sample) : State × Sample :=
  if x.status ≠ 0 then (s, x)
  else match s.guardOf fe x.coded with
    | none => (s, x)
    | some r => (s.caseFault fe r off, x.fail r.status)

/-- One sample of a record range as it leaves Case (R195, R206, R209). Several AUX fields travel one after the other, in the order of
their field entries (DESIGN CHOICE, log entry 79). -/
def State.caseSample (s : State) (fe : FlowEntry) (rs : RecordSettings) (t : Task) (index : Nat) (r : RawSample) : State × Sample :=
  let b := { newSample { t with sample := index } with recordId := r.recordId }
  let s := s.incFld F.STN_CASE_COUNT_A_SAMPLES
  match r.bad.orElse (fun _ => fieldsBad rs.fields r.vals r.off) with
  | some (reason, off) => (s.caseFault fe reason off, b.fail reason.status)
  | none =>
    if fieldsOver rs.fields r.vals then
      ((s.incFld F.STN_CASE_COUNT_B_OVERCLASS).countOverclass fe.flow, b.fail 0x21)
    else
      let x := { b with
        text := (roleValues rs.fields r.vals 2).head?.map (·.bytes), aux := (roleValues rs.fields r.vals 3).flatMap (·.bytes) }
      match (roleValues rs.fields r.vals 1).head? with
      | some v => s.guardSample fe v.off { x with coded := v.bytes }
      | none => (s, x)

end Sys2Proof.Machine
end

