-- ==== Sys2Proof/Machine/Tokens.lean ====
section
/-! DEFINITION. The Compositor: pre-tokens, byte-pair and longest-match tokens of a text, and the patch layout (R347 to
R352). -/

namespace Sys2Proof.Machine

/-- Class-table byte of a text byte. -/
def TokImage.cls (im : TokImage) (b : Byte) : Nat := (im.classes.getD b.toNat 0).toNat

/-- GLUE, ISOLATE and DROP of a class-table byte (R343). -/
def isGlue (e : Nat) : Bool := bit e 4
def isIsolate (e : Nat) : Bool := bit e 5
def isDrop (e : Nat) : Bool := bit e 6

/-- Split a run of one class off the front of a text. -/
def classRun (im : TokImage) (c : Nat) : List Byte → List Byte × List Byte
  | [] => ([], [])
  | b :: rest =>
    if im.cls b % 16 = c then let r := classRun im c rest; (b :: r.1, r.2) else ([], b :: rest)

/-- Pre-tokens of a text, newest first (R347). Every step consumes a byte. -/
def pretokGo (im : TokImage) : Nat → List Byte → List (List Byte) → List (List Byte)
  | 0, _, acc => acc
  | _, [], acc => acc
  | k + 1, b :: rest, acc =>
    let e := im.cls b
    if isDrop e then pretokGo im k rest acc
    else if isIsolate e then pretokGo im k rest ([b] :: acc)
    else
      let (more, after) := classRun im (e % 16) rest
      let run := b :: more
      match after with
      | [] => run :: acc
      | x :: _ =>
        let f := im.cls x
        if isGlue e && !isDrop f && !isIsolate f && !isGlue f then
          let acc := if run.length = 1 then acc else run.dropLast :: acc
          let (next, tail) := classRun im (f % 16) after
          pretokGo im k tail ((run.getLast?.toList ++ next) :: acc)
        else pretokGo im k after (run :: acc)

/-- Cut a pre-token into pieces of at most n bytes. -/
def cutPieces (n : Nat) : Nat → List Byte → List (List Byte)
  | 0, d => [d]
  | k + 1, d => if d.length ≤ n then [d] else d.take n :: cutPieces n k (d.drop n)

/-- Pre-tokens of a text in order, cut at PRETOKEN_MAX, and the number of pieces that cutting made. -/
def pretokens (im : TokImage) (maxLen : Nat) (text : List Byte) : List (List Byte) × Nat :=
  let ps := (pretokGo im text.length text []).reverse
  (ps.flatMap (fun p => cutPieces maxLen p.length p),
    ps.foldl (fun a p => if maxLen < p.length then a + (p.length + maxLen - 1) / maxLen else a) 0)

/-- merge(x, y) of R348. -/
def TokImage.merge (im : TokImage) (x y : Nat) : Option MergeEntry :=
  im.merges.find? (fun m => m.left == x && m.right == y)

/-- The least rank of a merge of two adjacent tokens. -/
def bestRank (im : TokImage) : List Nat → Option Nat
  | x :: y :: rest =>
    let r := bestRank im (y :: rest)
    match im.merge x y, r with
    | some m, some b => some (min m.rank b)
    | some m, none => some m.rank
    | none, r => r
  | _ => none

/-- One pass: merge the pairs of one rank, left to right. -/
def mergePass (im : TokImage) (rank : Nat) : Nat → List Nat → List Nat
  | k + 1, x :: y :: rest =>
    match im.merge x y with
    | some m => if m.rank = rank then m.result :: mergePass im rank k rest else x :: mergePass im rank k (y :: rest)
    | none => x :: mergePass im rank k (y :: rest)
  | _, l => l

/-- Byte-pair tokens of a pre-token (R348). Every pass shortens the list. -/
def bpeGo (im : TokImage) : Nat → List Nat → List Nat
  | 0, l => l
  | k + 1, l => match bestRank im l with
    | none => l
    | some r => bpeGo im k (mergePass im r l.length l)

/-- Token of a single byte. -/
def TokImage.byteId (im : TokImage) (b : Byte) : Nat := im.byteIds.getD b.toNat 0

/-- Tokens of a pre-token with KIND 0 (R348). -/
def bpe (im : TokImage) (p : List Byte) : List Nat := bpeGo im p.length (p.map im.byteId)

/-- The longest string entry, of at most n bytes, at the start of a text, with CONT as given (R349). -/
def longest (im : TokImage) (cont : Bool) (d : List Byte) : Nat → Option StrEntry
  | 0 => none
  | n + 1 => match im.strings.find? (fun e => e.bytes == d.take (n + 1) && e.cont == cont) with
    | some e => some e
    | none => longest im cont d n

/-- Tokens of a pre-token with KIND 1 (R349). -/
def matchGo (im : TokImage) (unkMode unkId : Nat) : Nat → List Byte → Bool → List Nat → List Nat
  | 0, _, _, acc => acc.reverse
  | _, [], _, acc => acc.reverse
  | k + 1, b :: rest, first, acc =>
    match longest im (!first) (b :: rest) (min (rest.length + 1) 64) with
    | some e => matchGo im unkMode unkId k ((b :: rest).drop e.bytes.length) false (e.id :: acc)
    | none => if unkMode = 0 then [unkId] else matchGo im unkMode unkId k rest false (im.byteId b :: acc)

/-- The token sequence of a sample with text, and the pieces cut (R347 to R350). -/
def tokenise (im : TokImage) (ts : TextSettings) (text : List Byte) : List Nat × Nat :=
  let (ps, cuts) := pretokens im ts.preMax text
  let toks := ps.flatMap (fun p =>
    if ts.kind = 0 then bpe im p else matchGo im ts.unkMode ts.unkId p.length p true [])
  ((if ts.addBos then [ts.bosId] else []) ++ toks ++ (if ts.addEos then [ts.eosId] else []), cuts)

/-! ### Patches (R352) -/

/-- The (channel, row, column) of position q of patch p. -/
def patchSource (ph pw outW p q : Nat) : Nat × Nat × Nat :=
  let perRow := outW / pw
  (q / (ph * pw), p / perRow * ph + q / pw % ph, p % perRow * pw + q % pw)

/-- Positions of a layout 0x2 tensor in memory order, as offsets in layout 0x0. -/
def patchOrder (c h w ph pw : Nat) : List Nat :=
  (List.range (h / ph * (w / pw))).flatMap (fun p => (List.range (c * ph * pw)).map (fun q =>
    let (ch, y, x) := patchSource ph pw w p q
    (ch * h + y) * w + x))

end Sys2Proof.Machine
end

