-- ==== Sys2Proof/Machine/Stations.lean ====
section
/-! DEFINITION. What each station of a path does with a task: whether it has anything to do, the work and the blocks it
asks for, and what it leaves behind when the work is done (R182, R206 to R212, R228 to R232, R249, R264 to R277, R314,
R350 to R352, R355, R370, R382). -/

namespace Sys2Proof.Machine

/-- What a station makes of a task that reaches it: nothing to do, not yet, the task has gone elsewhere, or work at
servers and blocks to ask for. -/
inductive Arrival where
  | pass
  | wait
  | gone
  | go (work : List (Nat × Nat)) (want : List (Nat × Bool))
  deriving DecidableEq, Repr

/-- What follows the work of a station: the next station, more work here, or nothing here. -/
inductive Turn where
  | next | again | stay
  deriving DecidableEq, Repr

/-- Does a task come from a submission ring? -/
def Task.fromRing (t : Task) : Bool := match t.origin with | .ring _ => true | _ => false

/-- Is a task a record range (E0)? -/
def Task.isRange (t : Task) : Bool := t.fromRing && t.entry == 0

/-- Does a task's entry point take it past a station (R182)? -/
def Task.skips (t : Task) (st : Nat) : Bool :=
  t.fromRing && ((t.entry == 2 && decide (2 ≤ st ∧ st ≤ 5)) || (t.entry == 3 && decide (2 ≤ st ∧ st ≤ 7)))

/-- The sample of a task. -/
def Task.sample? (t : Task) : Option Sample := t.samples.head?

/-- Change the samples of a task. -/
def State.modSample (s : State) (id : Nat) (g : Sample → Sample) : State :=
  s.modTask id (fun t => { t with samples := t.samples.map g })

/-- Index of a station on a path. -/
def FlowEntry.placeOf (fe : FlowEntry) (st : Nat) : Nat := (fe.path.findIdx? (· == st)).getD fe.path.length

/-! ### Work -/

/-- The work that a sample needs at a lane, entropy or search server: a free value (Config.sampleWork). -/
def State.freeWork (s : State) (v : Nat) : State × (Nat × Nat) :=
  let (n, s) := s.nextFree
  (s, (v, Config.sampleWork n v))

/-- Work at each lane group of the flow at a lane station. -/
def State.laneWork (s : State) (fe : FlowEntry) (st : Nat) : State × List (Nat × Nat) :=
  (groupsOf s.forme.lanes fe.groupMask (laneRole st)).foldl (fun acc g =>
    let (s, w) := acc.1.freeWork g
    (s, acc.2 ++ [w])) (s, [])

/-- The work that admission charged a flow at a server (R91, R112). -/
def State.admitted (s : State) (f v : Nat) : Option Nat :=
  match s.adm? f with
  | none => none
  | some a => match a.works.find? (fun w => w.server == v) with
    | some w => some w.work
    | none => (a.works.find? (fun w => w.multi && decide (w.server < 0x20 ∧ v < 0x20) &&
        w.station == serverStation s.forme v)).map (·.work)

/-- Work bounded by what admission charged: an encoder never exceeds its class (R272, R274). -/
def State.boundWork (s : State) (f : Nat) (l : List (Nat × Nat)) : List (Nat × Nat) :=
  l.map (fun w => (w.1, match s.admitted f w.1 with | some a => min a w.2 | none => w.2))

/-! ### Chase (R39, R41, R42, R520) -/

/-- The tiles of a task on a segment: those of its sample, or of the bytes that it read. -/
def Task.segTiles (t : Task) (fe : FlowEntry) : List Tile :=
  match t.sample? with
  | some x => x.tiles fe
  | none => orderTiles (t.inBytes.flatMap (fun r => (newSample t).streamTiles fe 0 r.2))

/-- The tiles of a task cross the segment from one station to the next, in the order of R41, and are counted (R520). A header that R39
does not allow raises TILE_HDR. The tasks of a step move by `moveKey`, those of deadline flows first, so a deadline tile is sent before
any waiting bulk tile (R42). -/
def State.crossSegment (s : State) (fe : FlowEntry) (t : Task) (a b : Nat) : State :=
  match s.forme.segs.findIdx? (fun g => g.src == a && g.dst == b) with
  | some k =>
    let l := t.segTiles fe
    let s := (s.modTask t.id (fun t => { t with tiles := l })).addUnits (F.STN_CHASE_SEG_TILES_K k) 1024 l.length
    if l.all (fun q => q.hdr.ok) then s else (s.raiseOn 0x02 (.task t.id)).stopTask t.id 0x30 true
  | none => s

/-- The access unit of a task that stops is lost to its codec context (R246). -/
def State.loseUnit (s : State) (fe : FlowEntry) (t : Task) : State :=
  match t.dec, s.dec? fe.flow with
  | some _, some e => s.abandonDec fe e t.id
  | _, _ => s

/-! ### Headwater (R212) -/

/-- Bytes that Headwater moves for a task. -/
def Task.headBytes (t : Task) : Nat :=
  match t.delta with
  | some d => 128 + d.fetched
  | none => if t.isRange then t.srcLen else sumL (t.inBytes.map (fun r => r.2.length)) + carryBytes t.carried

/-- Headwater passes a task on: the sample it brought, or the input of its frame (R185, R210, R260 to R263). A sample that Headwater
found over-class is there already (R103). -/
def State.leaveHeadwater (s : State) (fe : FlowEntry) (t : Task) : State :=
  if t.delta.isSome ∨ t.isRange ∨ !t.samples.isEmpty then s
  else if t.enc.isSome then
    let own := t.parts.map (fun p => t.sourceBytes p.1 p.2)
    let want := match s.enc? fe.flow with | some e => e.hintBytes | none => 0
    let hints := want != 0 && (match t.parts[1]? with | some p => p.2 == want | none => false)
    let s := if want ≠ 0 ∧ 1 < t.parts.length ∧ hints = false then s.incFld F.STN_PLT_SEARCH_HINT_BAD else s
    s.modTask t.id (fun t => { t with
      inBytes := [], enc := t.enc.map (fun p => { p with input := own.headD [], hints := if hints then own.getD 1 [] else [] }) })
  else
    let x := match t.origin with
      | .ring _ => injectedSample fe t (parseInj (t.sourceBytes t.srcAddr 64))
      | _ => liveSample fe t
    s.modTask t.id (fun t => { t with inBytes := [], samples := [x] })

/-! ### Case (R195, R196, R206 to R209) -/

/-- A sample of a record range leaves Case and travels on by itself. -/
def State.emitSample (s : State) (fe : FlowEntry) (rs : RecordSettings) (t : Task) (base n : Nat) (r : RawSample) : State :=
  let (s, x) := s.caseSample fe rs t (base + n) r
  (s.spawn { Task.blank with
    ten := t.ten, flow := t.flow, sample := base + n, epoch := t.epoch, accept := t.accept, release := t.release,
    capture := t.capture, phase := .ready, stage := t.stage + 1, windows := t.windows, samples := [x] }).1

/-- Case has framed a record range (R194 to R196). -/
def State.caseRange (s : State) (fe : FlowEntry) (rs : RecordSettings) (t : Task) : State :=
  let o := frameRange rs (fieldAt t.args 8 4) (t.sourceBytes t.srcAddr t.srcLen)
  let l := o.samples.filter (fun r => decide (fieldAt t.args 12 4 ≤ r.ordinal))
  let auto := bit (byteAt t.args 6) 0
  let base := if auto then (s.run fe.flow).sampleNext else t.sample
  let s := (s.addFld F.STN_CASE_COUNT_B_SKIPPED o.skipped).addFld F.STN_CASE_REASON_FRAMING o.loose
  let s := if auto then s.modRun fe.flow (fun r => { r with sampleNext := r.sampleNext + l.length }) else s
  let s := (l.zip (List.range l.length)).foldl (fun s q => s.emitSample fe rs t base q.2 q.1) s
  let s := s.modTask t.id (fun t => { t with inBytes := [], detail := BitVec.ofNat 32 l.length })
  if o.error then s.stopTask t.id 0x20 true else (s.placeOutputs t.id).finishTask t.id

/-- A task reaches Case. -/
def arriveCase (t : Task) : Arrival :=
  if t.isRange then .go [(0x21, t.srcLen)] []
  else match t.origin, t.sample? with
    | .ring _, some x => if x.coded.isEmpty ∨ x.status ≠ 0 then .pass else .go [(0x21, min x.coded.length 262144)] []
    | _, _ => .pass

/-- A task leaves Case. -/
def State.leaveCase (s : State) (fe : FlowEntry) (t : Task) : State × Turn :=
  if t.isRange then
    match fe.record with
    | some rs => (s.caseRange fe rs t, .stay)
    | none => (s.stopTask t.id 0x43 false, .stay)
  else match t.sample? with
    | some x =>
      let (s, x) := s.guardSample fe ((t.parts.getD 1 (t.srcAddr, 0)).1 - t.srcAddr) x
      (s.modSample t.id (fun _ => x), .next)
    | none => (s, .next)

/-! ### Decode flows at Millrace and Platen (R227 to R233, R249)

A decode task stays at Millrace's place of its path while Millrace parses its frames and Platen reconstructs them; its place moves on to
Platen when both are done, and there its output leaves. -/

/-- A failed access unit whose header Case has refused: its context has to await a random-access point (R245, R248). -/
def awaitPlan (e : DecEntry) : DecPlan :=
  { mkPlan e false [] [] (some ⟨clsDim, 0, 0, 0, 0⟩) with closed := true, status := clsStatus clsDim, cls := clsDim }

/-- A later sequence header that the guard refused at Case counts as a fault of the stream (R245, R248). -/
def State.refusedHeader (s : State) (fe : FlowEntry) (e : DecEntry) (t : Task) : State :=
  let s := if (s.run fe.flow).dec.header then s.countFault fe ⟨clsDim, 0, 0, 0, 0⟩ else s
  (s.modDec fe.flow (fun c => { c with awaitRap := true, broken := 0, filled := 0, header := true })).modTask t.id (fun t =>
    { t with dec := some (awaitPlan e), detail := decDetail t false false 0 clsDim })

/-- A task of a decode flow reaches Millrace: Millrace takes it when it has parsed the flow's earlier tasks (R228, R245). -/
def State.arriveMillrace (s : State) (fe : FlowEntry) (e : DecEntry) (t : Task) : State × Arrival :=
  match t.sample? with
  | none => (s, .pass)
  | some x =>
    if s.earlierParse t then (s, .wait)
    else if e.mode = 0 ∧ x.status = 0x22 then (s.refusedHeader fe e t, .go [] [])
    else if x.coded.isEmpty ∨ x.status ≠ 0 then (s, .pass)
    else (s.modTask t.id (fun t => { t with dec := some (s.parseTask fe e x.coded) }), .go [] [])

/-- Replace the work of a task at the servers that a test names. -/
def State.setWork (s : State) (id : Nat) (at_ : Nat → Bool) (w : List (Nat × Nat)) : State :=
  s.modTask id (fun t => { t with work := t.work.filter (fun x => !at_ x.1) ++ w.map (fun x => (x.1, x.2, 0)) })

/-- Millrace's next step on a task (R228, R230): it ends a frame whose units are done, ends its parse, or starts a frame. Answers
whether there was one. -/
def State.parseStep (s : State) (fe : FlowEntry) (e : DecEntry) (t : Task) (p : DecPlan) : State × Bool :=
  if p.closed then (s, false)
  else if p.parsing then
    if t.work.all (fun w => w.1 != 0x22 || w.2.1 == 0) then
      ((s.modPlan t.id (fun p => { p with parsed := p.parsed + 1, parsing := false, parked := 0 })).setWork t.id (· == 0x22) [], true)
    else (s, false)
  else if p.frames.length ≤ p.parsed then (s.closeParse fe e t.id, true)
  else if s.mayParse fe e then
    (((s.modPlan t.id (fun p => { p with parsing := true })).setWork t.id (· == 0x22)
      [(0x22, sumL (p.unitWork fe.cls.entropyPar p.parsed))]).millPeak fe e, true)
  else (s, false)

/-- May Platen read the next frame of a task: Millrace has parsed it, or parses it with LEAD 0, no fault is in it, and the frames of
the tasks before are done (R230 to R232)? -/
def State.mayRead (s : State) (fe : FlowEntry) (e : DecEntry) (t : Task) (p : DecPlan) : Bool :=
  decide (p.status = 0 ∧ p.next < p.frames.length) &&
    (if e.lead = 0 then decide (p.next < p.parsed) || (p.parsing && p.next == p.parsed && !p.passes p.next)
     else decide (p.next < p.parsed ∧ p.next < p.good)) &&
    !s.earlierBefore t (fe.placeOf 5)

/-- Platen's next step on a task (R232): it ends a frame, passes one that it does not reconstruct (R225), or starts one. -/
def State.readStep (s : State) (fe : FlowEntry) (e : DecEntry) (t : Task) (p : DecPlan) : State × Bool :=
  if p.reading then
    if t.work.all (fun w => w.1 == 0x22 || w.2.1 == 0) && t.want.isEmpty && t.waitPool.isNone && decide (p.next < p.parsed) then
      ((s.finishFrame fe e t.id).setWork t.id (· != 0x22) [], true)
    else (s, false)
  else if s.mayRead fe e t p then
    let s := s.enterPoint e t p
    match s.task? t.id with
    | none => (s, true)
    | some t => match t.dec with
      | none => (s, true)
      | some p => match s.startFault fe t p, p.frames[p.next]? with
        | some cls, _ => (s.platenFail fe e t.id cls, true)
        | none, none => (s, true)
        | none, some (_, f) =>
          if p.passes p.next then
            ((s.addFld F.STN_PLT_COUNT_B_UNITS_SKIPPED f.gridUnits).modPlan t.id (fun p => { p with next := p.next + 1 }), true)
          else if f.again.isSome then (s.finishFrame fe e t.id, true)
          else
            let cut := s.cutOf fe e t p p.next
            let s := if cut.isSome then s.addUnits F.RFL_COUNT_DRAWS_M 1048576 5 else s
            let (s, w) := s.laneWork fe 5
            (((s.modPlan t.id (fun p => { p with reading := true, cutNow := cut })).setWork t.id (· != 0x22) w).modTask t.id (fun t =>
              { t with want := (f.blocks e).map (fun b => (b, false)) }), true)
  else (s, false)

/-- Is everything of a task done at Millrace and Platen, and has its turn at Platen come? -/
def State.decDone (s : State) (fe : FlowEntry) (t : Task) (p : DecPlan) : Bool :=
  p.closed && !p.reading && decide (p.frames.length ≤ p.next ∨ p.status ≠ 0) && !s.earlierBefore t (fe.placeOf 5)

/-- A decode task's turn at Millrace's place. -/
def State.decTurn (s : State) (fe : FlowEntry) (e : DecEntry) (t : Task) (p : DecPlan) : State × Turn :=
  match s.parseStep fe e t p with
  | (s, true) => (s, .again)
  | (_, false) => match s.readStep fe e t p with
    | (s, true) => (s, .again)
    | (_, false) => if s.decDone fe t p then (s, .next) else (s, .stay)

/-- A task of a decode flow reaches Platen's place (R224, R225, R235, R242): a failed one leaves its slots, one with nothing to show ends,
and side outputs take lane work with HOLD set. -/
def State.arrivePlaten (s : State) (fe : FlowEntry) (e : DecEntry) (t : Task) : State × Arrival :=
  match t.dec with
  | none => (s, .pass)
  | some p =>
    if p.status ≠ 0 then ((if p.fault.isSome then s.failedTurn fe e t p p.cls else s).dropPlan t.id, .pass)
    else if p.alone = false ∧ e.outDepth < (s.run fe.flow).dec.outQ.length then ((s.queueFull fe e t p).dropPlan t.id, .pass)
    else if p.alone = false ∧ (s.emitted t p).isEmpty then
      let s := (s.modTask t.id (fun t => { t with detail := decDetail t true p.cut.isSome 0 0 })).dropPlan t.id
      ((s.placeOutputs t.id).finishTask t.id, .gone)
    else if e.sideMask ≠ 0 ∧ e.codec ≤ 3 then
      let (s, w) := (s.holdFrames t p).laneWork fe 5
      (s, .go w [])
    else (s, .go [] [])

/-- Platen emits what a task has. -/
def State.leavePlaten (s : State) (fe : FlowEntry) (e : DecEntry) (t : Task) : State :=
  match t.dec with
  | none => s
  | some p => if p.status ≠ 0 then s.dropPlan t.id else s.emitFrames fe e t p

/-- Millrace's budget, or a bound of the class, stops the parse of a task (R101, R245): its frame in hand is not read on. -/
def State.millOver (s : State) (fe : FlowEntry) (e : DecEntry) (t : Task) (p : DecPlan) : State :=
  let x := match (p.frames[p.parsed]?).bind (fun f => p.aus[f.1]?) with | some a => a.2.at_ clsOver 0 0 | none => ⟨clsOver, 0, 0, 0, 0⟩
  ((s.modPlan t.id (fun p => { p with
    fault := some x, good := min p.good p.parsed, frames := p.frames.take p.parsed, parsing := false, parked := 0 })).setWork t.id
      (· == 0x22) []).closeParse fe e t.id

/-! ### Platen and Millrace for encode flows (R266, R272) -/

/-- A frame of an encode flow reaches Platen: with TRAIL 0 it waits until Millrace has finished the frame before it, with
TRAIL 1 until Platen has (R273). -/
def State.arriveEncode (s : State) (fe : FlowEntry) (e : EncEntry) (t : Task) : State × Arrival :=
  if s.earlierBefore t (if e.trail = 0 then fe.placeOf 3 else t.stage) then (s, .wait)
  else
    let s := s.startFrame fe e t.id
    match (s.task? t.id).bind (·.enc) with
    | none => (s, .pass)
    | some p =>
      if p.again then (s, .go [] [])
      else
        let (s, l) := s.laneWork fe 5
        let (s, w) := s.freeWork 0x24
        (s, .go (s.boundWork fe.flow (l ++ [w])) ((encBlocks e).map (fun b => (b, false))))

/-- A frame of an encode flow reaches Millrace. -/
def State.arriveBins (s : State) (t : Task) : State × Arrival :=
  if s.earlierBefore t t.stage then (s, .wait)
  else (s, .go [(0x23, match t.enc with | some p => if p.again then 0 else p.bins | none => 0)] [])

/-! ### Trim (R303, R314, R316) -/

/-- Record a sample that Trim found bad. -/
def State.trimLast (s : State) (fe : FlowEntry) (x : Sample) (reason : Nat) : State :=
  s.setFlds [(F.STN_TRIM_LAST_FLOW, fe.flow), (F.STN_TRIM_LAST_TENANCY, fe.ten), (F.STN_TRIM_LAST_REASON, reason),
    (F.STN_TRIM_LAST_SAMPLE, x.index % 2 ^ 44)]

/-- What is wrong with a sample at Trim: its status and the reason of STN_TRIM_LAST. -/
def trimBad (fe : FlowEntry) (x : Sample) : Option (Nat × Nat) :=
  if x.frames.isEmpty then some (0x20, 2)
  else if fe.cls.pixels < sumL (x.frames.map (fun p => p.w * p.h)) then some (0x21, 1)
  else if x.frames.any (fun p => !channelsOk p) then some (0x20, 2)
  else none

/-- The blocks that Trim asks for: a band or the whole target plane for each plane of the sample that it resizes, which is Y alone of a
YCbCr picture with OUT_CH 1 (R316, R318). -/
def trimWants (ts : TrimSettings) (g : Geometry) (x : Sample) : List Nat :=
  let one := if g.flipV ∨ g.rot ≠ 0 then partsOf (g.tw * g.th * 2) else [g.tw * 80 * 2]
  let planes := maxL (x.frames.map (fun p => if ts.outCh = 1 ∧ p.rgb = false then 1 else p.planes.length))
  (List.replicate planes one).flatten

/-- A task reaches Trim. -/
def State.arriveTrim (s : State) (fe : FlowEntry) (ts : TrimSettings) (t : Task) : State × Arrival :=
  match t.sample? with
  | none => (s, .pass)
  | some x =>
    if x.status ≠ 0 then (s.modSample t.id (fun x => { x with stand := [], stopAt := none }), .pass)
    else if (x.frames.isEmpty ∧ x.coded.isEmpty ∧ (x.text.isSome ∨ x.tokens.isSome)) then (s, .pass)
    else match trimBad fe x with
      | some (status, reason) =>
        let s := (s.modSample t.id (fun x => x.fail status)).trimLast fe x reason
        if status = 0x21 then ((s.incFld F.STN_TRIM_COUNT_B_OVERCLASS).countOverclass fe.flow, .pass)
        else (s.incFld F.STN_TRIM_COUNT_B_CORRUPT, .pass)
      | none =>
        let g := geometry ts ((s.rflSource fe t.epoch).word x.index) (s.flag F.STN_TRIM_CFG_AUG_OFF) fe.outW fe.outH
        let (s, w) := s.laneWork fe 6
        (s, .go w ((trimWants ts g x).map (fun b => (b, false))))

/-- The generator of a sample of a stateful flow, the partition state that serves the next sample, and the samples that the state
advances (R332, R334). -/
def State.sampleGenerator (s : State) (fe : FlowEntry) (r : RflSource) (index : Nat) : (Nat × Nat) × RflPart × Nat :=
  let p := index % max 1 r.partitions
  let k := index / max 1 r.partitions
  let start : (Nat × Nat) × Nat :=
    match (s.run fe.flow).rfl.find? (fun q => q.part == p && q.epoch == r.epoch && decide (q.k ≤ k)) with
    | some q => ((q.x0.toNat, q.x1.toNat), q.k)
    | none => (r.partition0 p, 0)
  let (g, x) := sampleGen (genAdvance (2 * (k - start.2)) start.1)
  (g, ⟨p, r.epoch, k + 1, BitVec.ofNat 64 x.1, BitVec.ofNat 64 x.2⟩, k - start.2)

/-- What Trim makes of a sample under the settings that it started with (R71, R290), with the partition state of a stateful flow. -/
def State.trimOut (s : State) (fe : FlowEntry) (ts : TrimSettings) (t : Task) (x : Sample) : TrimOut × RflPart × Nat :=
  let r := s.rflSource fe t.epoch
  let (g, part) := s.sampleGenerator fe r x.index
  let off (f : Field) : Bool := getBits t.cfg f.lo f.width == 1
  (trimSample fe ts r x.index g (off F.STN_TRIM_CFG_SR_OFF) (off F.STN_TRIM_CFG_AUG_OFF) x.frames, part)

/-- Trim has done a sample (R290, R313). -/
def State.leaveTrim (s : State) (fe : FlowEntry) (ts : TrimSettings) (t : Task) : State :=
  match t.sample? with
  | none => s
  | some x =>
    if x.status ≠ 0 then s.freeScratch t.id
    else
      let (o, part, jump) := s.trimOut fe ts t x
      let s := if (s.rflSource fe t.epoch).stateful then
        (s.modRun fe.flow (fun q => { q with rfl := putBy (fun y => y.part == part.part) part q.rfl })).addFld F.RFL_COUNT_JUMPS
          (b2n (decide (1 < jump))) else s
      let s := s.addUnits F.RFL_COUNT_DRAWS_M 1048576 o.draws
      let s := (s.incFld F.STN_TRIM_COUNT_A_SAMPLES).addFld F.STN_TRIM_COUNT_B_SATURATED o.saturated
      let s := if o.fallback then s.incFld F.STN_TRIM_COUNT_A_FALLBACK else s
      (s.modSample t.id (fun x => { x with frames := [], tensor := some o.tensor })).freeScratch t.id

/-! ### Compositor (R345 to R352) -/

/-- A task reaches the Compositor. -/
def State.arriveCompositor (s : State) (fe : FlowEntry) (t : Task) : State × Arrival :=
  match t.sample? with
  | none => (s, .pass)
  | some x =>
    if x.status ≠ 0 then (s, .pass)
    else match x.text with
      | some d =>
        if fe.text.isNone ∨ fe.cls.textBytes < d.length then
          (((s.incFld F.STN_CMP_COUNT_B_OVERCLASS).countOverclass fe.flow).modSample t.id (fun x => x.fail 0x21), .pass)
        else
          let (s, w) := s.freeWork 0x25
          let (s, l) := if fe.patch.isSome && x.tensor.isSome then s.laneWork fe 7 else (s, [])
          (s, .go (w :: l) [])
      | none =>
        if fe.patch.isSome && x.tensor.isSome then
          let (s, l) := s.laneWork fe 7
          (s, .go l [])
        else (s, .pass)

/-- The elements of a layout 0x0 tensor in the order of patches (R352). -/
def patchTensor (fe : FlowEntry) (p : PatchSettings) (d : List Byte) : List Byte :=
  let w := (fmtWidth fe.outFormat).getD 8
  let v := (unpackBits w (fe.outC * fe.outH * fe.outW) d).toArray
  packBits w ((patchOrder fe.outC fe.outH fe.outW p.ph p.pw).map (fun i => v.getD i 0))

/-- The Compositor has done a sample. -/
def State.leaveCompositor (s : State) (fe : FlowEntry) (t : Task) : State :=
  match t.sample? with
  | none => s
  | some x =>
    if x.status ≠ 0 then s else
    let s := match fe.patch with
      | some p => s.modSample t.id (fun x => { x with tensor := x.tensor.map (patchTensor fe p), patched := true })
      | none => s
    match x.text, fe.text with
    | some d, some ts =>
      match s.forme.images.find? (fun im => im.addr == ts.imageAddr && im.crc == ts.imageCrc) with
      | none => s
      | some im =>
        let (toks, cuts) := tokenise im ts d
        let (n, s) := s.nextFree
        let s := ((s.incFld F.STN_CMP_COUNT_A_TEXT_SAMPLES).addUnits F.STN_CMP_COUNT_A_TOKENS_K 1024 toks.length).addFld
          F.STN_CMP_COUNT_B_SPLITS cuts
        let s := s.addFld F.STN_CMP_COUNT_B_CACHE_MISSES (Config.cacheMisses n)
        s.modSample t.id (fun x => { x with text := none, tokens := some toks })
    | _, _ => s

/-! ### The end of a path -/

/-- The pictures of a sample in the declared shape, each element of a tile at its position; none when one lies outside the shape (R223,
R313, R382). The number of an element is written in the width of OUT_FORMAT (a DESIGN CHOICE). -/
def Sample.placed (x : Sample) (fe : FlowEntry) : Option (List Byte) :=
  let planes : List (Nat × Plane) := (x.frames.mapIdx (fun f (p : Picture) =>
    p.planes.mapIdx (fun k q => (if p.rgb then k else 3 * f + k, q)))).flatten
  if planes.any (fun q => decide (fe.outC ≤ q.1 ∨ fe.outW < q.2.w ∨ fe.outH < q.2.h)) then none
  else
    let w := (fmtWidth fe.outFormat).getD 8
    some (tensorOf fe.outFormat fe.outLayout fe.outC fe.outH fe.outW (fun c y i =>
      match planes.find? (fun q => q.1 == c) with
      | some (_, q) => if y < q.h ∧ i < q.w then nth q.data (y * q.w + i) % 2 ^ w else 0
      | none => 0) (fun _ _ _ => 0))

/-- A sample with a tensor where its path holds no Trim: its pictures in the declared shape, or its bytes (a DESIGN CHOICE). A sample
outside the shape is SAMPLE_CORRUPT (R382). -/
def Sample.withTensor (x : Sample) (fe : FlowEntry) : Sample :=
  if x.tensor.isSome ∨ x.status ≠ 0 then x
  else if !x.frames.isEmpty then
    match x.placed fe with
    | some d => { x with tensor := some d }
    | none => x.fail 0x20
  else if !x.coded.isEmpty then { x with tensor := some x.coded }
  else x

/-- A task reaches Galley (R374). -/
def arriveGalley (fe : FlowEntry) (g : GalleySettings) : Arrival :=
  .go [(0x26, if g.mode = 0 then 2 * slugSize fe g + 256 else slugSize fe g)] []

/-- A sample enters Galley: TOKEN_DROP draws for its tokens (R338, R360). -/
def State.leaveGalley (s : State) (fe : FlowEntry) (g : GalleySettings) (t : Task) : State :=
  match t.sample? with
  | none => s.finishTask t.id
  | some x =>
    let x := x.withTensor fe
    let s := if g.tokenDrop then
      s.addUnits F.RFL_COUNT_DRAWS_M 1048576 ((s.rflSource fe t.epoch).drawsOf (x.tokens.getD []).length) else s
    if g.mode = 0 then s.galArrive fe g x t else s.memberArrive fe g x t

/-- A sample of a delivery flow without Galley reaches Delta (R382, R408). -/
def State.arriveDelivery (s : State) (fe : FlowEntry) (d : DeltaSettings) (t : Task) : State :=
  match t.sample? with
  | none => s.finishTask t.id
  | some x =>
    let x := x.withTensor fe
    let bytes := fe.tensorLen + (sideImage x.side).length
    if x.status = 0 ∧ fe.cls.deltaBytes < bytes then
      (s.countOverclass fe.flow).deliverSample fe d (x.fail 0x21) t
    else s.deliverSample fe d x t

/-- What Outfall writes for a task that is no frame of an encode flow: its sample's tensor, in the destination that the
entry names (R125). DEDUCED. -/
def Task.outBytes (t : Task) (fe : FlowEntry) : List Byte :=
  match t.sample? with
  | some x => if x.status = 0 then ((x.withTensor fe).tensor.getD []).take t.dstLen else []
  | none => []

/-- A task reaches Outfall. -/
def State.arriveOutfall (s : State) (fe : FlowEntry) (t : Task) : State × Arrival :=
  match t.enc with
  | some p => match s.enc? fe.flow with
    | some _ =>
      if fe.cls.bytesOut < p.bytes + p.filler then ((s.countOverclass fe.flow).stopTask t.id 0x21 true, .gone)
      else (s, .go [(0x28, p.bytes + p.filler)] [])
    | none => (s, .go [] [])
  | none =>
    let s := s.modSample t.id (fun x => x.withTensor fe)
    if fe.cls.bytesOut < (t.outBytes fe).length then
      ((s.countOverclass fe.flow).modSample t.id (fun x => x.fail 0x21), .go [] [])
    else (s, .go [(0x28, (t.outBytes fe).length)] [])

/-- A task that is no frame of an encode flow leaves Outfall: its bytes are posted, which places its output (R98), and its sample's
status is its own (R40). -/
def State.leaveOutfall (s : State) (fe : FlowEntry) (t : Task) : State :=
  let status := match t.sample? with | some x => if x.status ≠ 0 then x.status else if x.overcls then 0x21 else 0 | none => 0
  if status ≠ 0 then s.stopTask t.id status (statusInvalid status)
  else
    let d := t.outBytes fe
    let n := (pieces t.dstAddr d.length).length
    let s := (s.modTask t.id (fun t => { t with writesOut := n, phase := .writing, samples := [] })).writeFor fe.deadline t.ten
      t.dstAddr 0 d (.dest t.id 0)
    let s := s.placeOutputs t.id
    if n = 0 then s.finishTask t.id else s

/-- A write of an Outfall output is acknowledged. -/
def State.ackedOutput (s : State) (id : Nat) : State :=
  match s.task? id with
  | none => s
  | some t =>
    let s := s.modTask id (fun t => { t with writesOut := t.writesOut - 1 })
    if t.phase = .writing ∧ t.writesOut ≤ 1 then s.finishTask id else s

/-! ### Any station -/

/-- A task reaches the station of its present stage. -/
def State.arriveAt (s : State) (fe : FlowEntry) (t : Task) (st : Nat) : State × Arrival :=
  if t.delta.isSome then (s, if st = 1 then .go [(0x20, t.headBytes)] [] else .wait)
  else if t.skips st then (s, .pass)
  else match st with
    | 1 => (s, .go [(0x20, t.headBytes)] [])
    | 2 => (s, arriveCase t)
    | 3 => match t.enc, s.dec? fe.flow with
      | some _, _ => s.arriveBins t
      | none, some e => s.arriveMillrace fe e t
      | none, none => (s, .pass)
    | 5 => match t.enc, s.enc? fe.flow, s.dec? fe.flow with
      | some _, some e, _ => s.arriveEncode fe e t
      | _, _, some e => s.arrivePlaten fe e t
      | _, _, none => (s, .pass)
    | 6 => match fe.trim with | some ts => s.arriveTrim fe ts t | none => (s, .pass)
    | 7 => s.arriveCompositor fe t
    | 8 => match fe.galley with | some g => (s, arriveGalley fe g) | none => (s, .pass)
    | 9 => match fe.delta with | some d => (s.arriveDelivery fe d t, .gone) | none => (s, .pass)
    | 10 => s.arriveOutfall fe t
    | _ => (s, .pass)

/-- The work of a task at the station of its present stage is done. -/
def State.leaveFrom (s : State) (fe : FlowEntry) (t : Task) (st : Nat) : State × Turn :=
  match st with
  | 1 => (s.leaveHeadwater fe t, .next)
  | 2 => s.leaveCase fe t
  | 3 => match t.enc, s.enc? fe.flow, s.dec? fe.flow with
    | some _, some e, _ => (s.millraceFrame fe e t.id, .next)
    | _, _, some e => (match t.dec with | some p => s.decTurn fe e t p | none => (s, .next))
    | _, _, none => (s, .next)
  | 5 => match t.enc, s.enc? fe.flow, s.dec? fe.flow with
    | some _, some e, _ =>
      let s := s.platenFrame fe e t.id
      (s, match s.task? t.id with | some t => if t.stopping then .stay else .next | none => .stay)
    | _, _, some e => (s.leavePlaten fe e t, .next)
    | _, _, none => (s, .next)
  | 6 => match fe.trim with | some ts => (s.leaveTrim fe ts t, .next) | none => (s, .next)
  | 7 => (s.leaveCompositor fe t, .next)
  | 8 => match fe.galley with | some g => (s.leaveGalley fe g t, .stay) | none => (s, .next)
  | 10 =>
    if t.enc.isSome then (s.modTask t.id (fun t => { t with phase := .chunking }), .stay)
    else (s.leaveOutfall fe t, .stay)
  | _ => (s, .next)

/-- A block that the station of a task asked for is refused: STATUS 0x42 in the sample's tiles (R162, R166, R245, R259,
R314). A frame of an encode flow ends, and a key frame is due. -/
def State.blockRefused (s : State) (fe : FlowEntry) (t : Task) (st : Nat) : State :=
  if t.enc.isSome then (s.modEnc fe.flow (fun c => { c with keyDue := true })).stopTask t.id 0x42 true
  else match t.dec, s.dec? fe.flow with
  | some _, some e => s.platenFail fe e t.id clsPool
  | _, _ =>
    let s := match t.sample? with | some x => if st = 6 then s.trimLast fe x 3 else s | none => s
    (s.modSample t.id (fun x => x.fail 0x42)).modTask t.id (fun t => { t with want := [], work := [] })

end Sys2Proof.Machine
end

