-- ==== Sys2Proof/Machine/Pieces.lean ====
section
/-! DEFINITION. Pieces: how a task moves through its stations, which piece a free unit takes at a scheduling point, and
the budgets of deadline tasks (R86, R99 to R103, R231, R404 to R406). -/

namespace Sys2Proof.Machine

/-! ### Moving a task along its path -/

/-- A task goes on to the next station of its path. -/
def State.nextStation (s : State) (fe : FlowEntry) (t : Task) : State :=
  let s := match s.task? t.id with
    | some t => s.crossSegment fe t (fe.path.getD t.stage 0) (fe.path.getD (t.stage + 1) 0)
    | none => s
  s.modTask t.id (fun t => { t with stage := t.stage + 1, entered := false, work := [], want := [] })

/-- The answer to a block request of a task's station. -/
def State.askBlock (s : State) (fe : FlowEntry) (t : Task) (bytes : Nat) (galley : Bool) : State :=
  match s.requestBlock fe t bytes galley with
  | (s, .refused) => s.blockRefused fe t (fe.path.getD t.stage 0)
  | (s, .badSize) => (s.loseUnit fe t).stopTask t.id 0x30 true
  | (s, _) => s

/-- Is a task in the hands of Millrace and Platen, which work on its frames side by side (R228 to R232)? -/
def Task.decoding (t : Task) (fe : FlowEntry) : Bool := t.entered && t.dec.isSome && fe.path.getD t.stage 0 == 3

/-- Move a task as far as it goes without a piece of work: stations that have nothing to do, block requests, and
stations whose work is done. -/
def State.runTask (id : Nat) : Nat → State → State
  | 0, s => s
  | n + 1, s =>
    match s.task? id with
    | none => s
    | some t => match s.flow? t.flow with
      | none => s
      | some fe =>
        if t.phase ≠ .ready ∨ t.stopping ∨ (t.waitPool.isSome ∧ !t.decoding fe) then s
        else if fe.path.length ≤ t.stage then (s.placeOutputs id).finishTask id
        else
          let st := fe.path.getD t.stage 0
          if !t.entered then
            match s.arriveAt fe t st with
            | (s, .pass) => State.runTask id n (s.nextStation fe t)
            | (s, .go w q) =>
              let cfg := if st = 6 then s.reg Row.STN_TRIM_CFG.base else t.cfg
              State.runTask id n (s.modTask id (fun t => { t with
                entered := true, work := w.map (fun x => (x.1, x.2, 0)), want := q, cfg := cfg }))
            | (s, _) => s
          else match (if t.waitPool.isSome then [] else t.want) with
            | (b, g) :: rest => State.runTask id n ((s.modTask id (fun t => { t with want := rest })).askBlock fe { t with want := rest } b g)
            | [] =>
              if t.decoding fe || t.work.all (fun w => w.2.1 == 0) then
                match s.leaveFrom fe t st with
                | (s, .next) => State.runTask id n (s.nextStation fe t)
                | (s, .again) => State.runTask id n s
                | (s, .stay) => s
              else s

/-- Is a task one of a deadline flow? -/
def State.onDeadline (s : State) (t : Task) : Bool := match s.flow? t.flow with | some fe => fe.deadline | none => false

/-- Order in which the tasks of one step make their requests: deadline flows first, then by flow ID and SAMPLE_INDEX (R169).
Tiles of deadline flows so come before those of bulk flows at each segment too (R42). -/
def State.moveKey (s : State) (t : Task) : List Nat := [b2n (!s.onDeadline t), t.flow, t.sample]

/-- Move every task along, in an order. -/
def State.moveTasks (s : State) (l : List Task) : State := (l.map (·.id)).foldl (fun s id => State.runTask id 4096 s) s

/-- Move every task along: in the order of R169, then those that waited for another or set out meanwhile. -/
def State.settleStations (s : State) : State :=
  if s.tasks.isEmpty then s
  else
    let s := s.moveTasks (sortBy s.moveKey s.tasks)
    let s := s.moveTasks s.tasks
    s.moveTasks s.tasks

/-! ### Ready pieces -/

/-- Has a task work left at a server, with its blocks held? Millrace needs none of them for a decode task. -/
def Task.pieceAt (t : Task) (v : Nat) : Bool :=
  t.phase == .ready && !t.stopping && t.entered && ((t.waitPool.isNone && t.want.isEmpty) || (v == 0x22 && t.dec.isSome)) &&
    t.work.any (fun w => w.1 == v && decide (0 < w.2.1))

/-- Work done and work left of a task at a server. -/
def Task.workAt (t : Task) (v : Nat) : Nat × Nat :=
  ((t.work.find? (fun w => w.1 == v)).map (fun w => (w.2.2, w.2.1))).getD (0, 0)

/-- Grid rows of the frame that a decode task has in hand. -/
def Task.frameRows (t : Task) : Nat :=
  match t.dec.bind (fun p => p.frames[p.next]?) with
  | some (_, f) => ceilDiv f.h (max 1 f.grid)
  | none => 1

/-- Is a task one whose frame Millrace and Platen work on stripe by stripe (R231)? -/
def State.byStripe (s : State) (fe : FlowEntry) (t : Task) : Bool :=
  t.decoding fe && (match s.dec? fe.flow with | some e => e.lead == 0 | none => false)

/-- Work of a lane group up to the last stripe that Millrace has parsed (R231). -/
def Task.laneLimit (t : Task) (v : Nat) : Nat :=
  let (d, l) := t.workAt v
  ceilDiv (t.stripes.1 * (d + l)) (max 1 t.frameRows)

/-- May a task's piece at a server run: Millrace needs an engine's unit that is not parked, and with LEAD 0 room for its stripe;
Platen's lanes then follow the parse (R227, R231)? -/
def State.leadAllows (s : State) (fe : FlowEntry) (t : Task) (v : Nat) : Bool :=
  if !t.decoding fe then true
  else if v = 0x22 then decide (0 < s.unitsRunning fe t) && (!s.byStripe fe t || s.millRoom fe t)
  else !s.byStripe fe t || decide ((t.workAt v).1 < t.laneLimit v)

/-- Is the context that a piece at server v needs in a berth (R145): the codec context at Millrace's servers, a
partition's elsewhere? A deadline flow's are pinned. -/
def State.berthed (s : State) (fe : FlowEntry) (v : Nat) : Bool :=
  fe.deadline || !(s.berths.any (fun b => b.flow == fe.flow)) ||
    s.berths.any (fun b => b.flow == fe.flow && b.resident && (b.part == 64) == (v == 0x22 || v == 0x23))

/-- A ready piece. -/
inductive Piece where
  /-- work of a task at its present station -/
  | task (id : Nat)
  /-- the next transfer of a streaming task -/
  | xfer (id : Nat)
  /-- the next piece of a delivery unit -/
  | unit (key : Nat)
  /-- Galley's work on a batch image -/
  | asm (key : Nat)
  deriving DecidableEq, Repr

/-- A ready piece with its flow, its EDF key, its bulk key and the destination bytes that it moves at Delta,
which no bucket is too small for (R388, R406). -/
structure Ready where
  piece : Piece
  fe    : FlowEntry
  edf   : List Nat
  bulk  : List Nat
  bytes : Nat
  deriving DecidableEq, Repr

/-- Pieces of tasks ready at a server (R99). -/
def State.taskPieces (s : State) (v : Nat) : List Ready :=
  s.tasks.filterMap (fun t => match s.flow? t.flow with
    | some fe =>
      if t.pieceAt v && s.leadAllows fe t v && s.berthed fe v then
        some ⟨.task t.id, fe, [t.release + s.localUpTo t.flow (serverStation s.forme v), t.flow, t.sample, fe.partOf t.sample],
          [t.release, t.flow, t.sample, fe.partOf t.sample], 0⟩
      else none
    | none => none)

/-- Pieces ready at Delta (R388, R405). -/
def State.deltaPieces (s : State) : List Ready :=
  s.tasks.filterMap (fun t => match s.flow? t.flow, t.delta with
    | some fe, some d =>
      if s.deltaReady t && s.berthed fe 0x27 then
        some ⟨.xfer t.id, fe, [t.release + s.localUpTo t.flow 9, t.flow, t.sample], [s.dryTime fe, t.flow, t.sample],
          d.cutOut⟩
      else none
    | _, _ => none) ++
  s.batches.filterMap (fun u => match s.flow? u.flow with
    | some fe =>
      if u.ready && (s.moverFor fe).isSome then
        some ⟨.unit u.key, fe, [u.release + s.localUpTo u.flow 9, u.flow, u.index], [s.dryTime fe, u.flow, u.index],
          (u.left.head?.map (fun p => p.2.length)).getD 0⟩
      else none
    | none => none)

/-- Batch images that Galley still has to assemble. -/
def State.asmPieces (s : State) : List Ready :=
  s.batches.filterMap (fun u => match s.flow? u.flow with
    | some fe =>
      if 0 < u.asm && s.unitHolds u then
        some ⟨.asm u.key, fe, [u.release + s.localUpTo u.flow 8, u.flow, u.index], [u.release, u.flow, u.index], 0⟩
      else none
    | none => none)

/-- The pieces ready at a server. -/
def State.readyAt (s : State) (v : Nat) : List Ready :=
  s.taskPieces v ++ (if v = 0x27 then s.deltaPieces else []) ++ (if v = 0x26 then s.asmPieces else [])

/-- Bulk work that a server has done for a tenancy. -/
def State.servedOf (s : State) (v t : Nat) : Nat :=
  ((s.weir.served.find? (fun x => x.1 == v && x.2.1 == t)).map (fun x => x.2.2)).getD 0

/-- Does tenancy a come before b at a server, in proportion to the Weir shares (R100)? A share of 0 comes last. -/
def State.shareBefore (s : State) (v a b : Nat) : Bool :=
  let x := s.weirShare a
  let y := s.weirShare b
  if x = 0 ∧ y = 0 then decide (s.servedOf v a < s.servedOf v b)
  else if x = 0 then false else if y = 0 then true
  else decide (s.servedOf v a * y < s.servedOf v b * x)

/-- Does one ready bulk piece come before another? At Delta the earliest dry time wins (R405); elsewhere tenancies share
by weight, and a flow's tasks go in the order of their release (R100). -/
def State.bulkBefore (s : State) (v : Nat) (a b : Ready) : Bool :=
  if v = 0x27 ∨ a.fe.ten = b.fe.ten then lexLt a.bulk b.bulk
  else s.shareBefore v a.fe.ten b.fe.ten || (!s.shareBefore v b.fe.ten a.fe.ten && decide (a.fe.ten < b.fe.ten))

/-- The piece that a free unit takes (R99, R100). A bulk piece at Delta needs its bytes in its tenancy's bucket. -/
def State.pickPiece (s : State) (v : Nat) : Option Ready :=
  let l := s.readyAt v
  match leastBy (fun a b : Ready => lexLt a.edf b.edf) (l.filter (fun r => r.fe.deadline)) with
  | some r => some r
  | none => leastBy (s.bulkBefore v) (l.filter (fun r => !r.fe.deadline && decide (r.bytes ≤ s.bucket r.fe.ten)))

/-- Does a bulk piece of a tenancy wait at Delta for tokens (R405, R406)? -/
def State.waitsAtDelta (s : State) (t : Nat) : Bool :=
  s.deltaPieces.any (fun r => !r.fe.deadline && r.fe.ten == t && decide (s.bucket t < r.bytes))

/-! ### Doing a piece -/

/-- Units of the frame that Millrace has in hand end here, in work done at the decode server (R227). -/
def Task.unitEnds (t : Task) (ep : Nat) : List Nat :=
  match t.dec with
  | some p => if p.parsing then ends (p.unitWork ep p.parsed) else []
  | none => []

/-- Work from w done to the next boundary of a stripe of all the work. -/
def stripeLeft (w total rows : Nat) : Nat := ceilDiv ((w * rows / max 1 total + 1) * total) (max 1 rows) - w

/-- Work units between two scheduling points (R90, R91, R99): a 64 × 64 tile at the lanes and at search, a coded unit at Millrace, or
with LEAD 0 a stripe of it (R231), a tile row's share at its encode engines, 64 KiB elsewhere. -/
def State.quantum (s : State) (fe : FlowEntry) (t : Task) (v left : Nat) : Nat :=
  let (d, l) := t.workAt v
  if v < 0x20 ∨ v = 0x24 then
    let n := max 1 (ceilDiv (4096 * (s.admitted fe.flow v).getD left) (max 1 fe.cls.pixels))
    if s.byStripe fe t then min n (max 1 (t.laneLimit v - d)) else n
  else if v = 0x22 then
    let n := ((t.unitEnds fe.cls.entropyPar).find? (fun x => decide (d < x))).getD (d + l) - d
    if s.byStripe fe t then min n (max 1 (stripeLeft d (d + l) t.frameRows)) else n
  else if v = 0x23 then max 1 (ceilDiv fe.cls.bins (max 1 fe.cls.entropyPar))
  else 65536

/-- Count bulk work of a server, for the shares (R100) and for its station's 1 ms window (R105). -/
def State.countServed (s : State) (fe : FlowEntry) (v n : Nat) : State :=
  if fe.deadline then s
  else
    { s with weir := { s.weir with
        served := putBy (fun x => x.1 == v && x.2.1 == fe.ten) (v, fe.ten, s.servedOf v fe.ten + n) s.weir.served } }.countWindow
      (serverStation s.forme v) n 0

/-- Trim stops a sample that is over its budget: the tiles emitted stand, in proportion to the work done (R314). -/
def State.trimStop (s : State) (fe : FlowEntry) (t : Task) : State :=
  match fe.trim, t.sample? with
  | some ts, some x =>
    let (o, _, _) := s.trimOut fe ts t x
    let l := orderTiles (x.tensorTiles fe o.tensor)
    let (d, all) := workSum t.work
    let n := l.length * d / max 1 all
    let s := s.addUnits F.RFL_COUNT_DRAWS_M 1048576 (o.draws * n / max 1 l.length)
    ((s.modSample t.id (fun x => x.stopAfter l n)).incFld F.STN_TRIM_COUNT_B_OVERCLASS).trimLast fe x 1
  | _, _ => s.incFld F.STN_TRIM_COUNT_B_OVERCLASS

/-- A deadline task has used its budget at a server with work left: it is over-class (R101, R103). -/
def State.overBudget (s : State) (fe : FlowEntry) (t : Task) (v : Nat) : State :=
  if t.enc.isSome then
    ((s.countOverclass fe.flow).modEnc fe.flow (fun c => { c with keyDue := true })).stopTask t.id 0x21 true
  else match t.dec, s.dec? fe.flow with
  | some p, some e => if v = 0x22 then s.millOver fe e t p else s.platenFail fe e t.id clsOver
  | _, _ =>
    let st := serverStation s.forme v
    let s := if st = 6 then s.trimStop fe t
      else if st = 7 then s.incFld F.STN_CMP_COUNT_B_OVERCLASS
      else if st = 2 then s.incFld F.STN_CASE_COUNT_B_OVERCLASS
      else s
    ((s.countOverclass fe.flow).modSample t.id (fun x => x.fail 0x21)).modTask t.id (fun t => { t with work := [], want := [] })

/-- Work units that a task has used at a server in all (R101). -/
def Task.spentAt (t : Task) (v : Nat) : Nat := ((t.spent.find? (fun x => x.1 == v)).map (·.2)).getD 0

/-- Has a deadline task used what admission charged it at a server (R101)? -/
def State.overSpent (s : State) (fe : FlowEntry) (t : Task) (v : Nat) : Bool :=
  fe.deadline && (match s.admitted fe.flow v with | some a => decide (a ≤ t.spentAt v) | none => false)

/-- What a piece of a decode task leaves at Millrace: a load at the start of a unit, a unit finished at its end, and with LEAD 0 a parked
unit where there is no room for its next stripe (R228, R231, R252). `d`: work done before it, `n`: work of the piece. -/
def State.unitPiece (s : State) (fe : FlowEntry) (t : Task) (d n : Nat) : State :=
  let l := t.unitEnds fe.cls.entropyPar
  let s := if d = 0 ∨ l.contains d then s.incFld F.STN_MR_COUNT_LOADS else s
  if l.contains (d + n) then s.incFld F.STN_MR_COUNT_UNITS
  else if s.byStripe fe t ∧ !s.millRoom fe t then s.modPlan t.id (fun p => { p with parked := p.parked + 1 })
  else s

/-- One piece of a task at a server. -/
def State.doTask (s : State) (fe : FlowEntry) (t : Task) (v : Nat) : State :=
  let (d, left) := t.workAt v
  if left = 0 then s
  else if s.overSpent fe t v then s.overBudget fe t v
  else
    let n := min left (s.quantum fe t v left)
    let t' := { t with
      work := updateWhere t.work (fun w => w.1 == v) (fun w => (v, w.2.1 - n, w.2.2 + n)),
      spent := putBy (fun x => x.1 == v) (v, t.spentAt v + n) t.spent }
    let s := (s.setTask t').countServed fe v n
    if n < left ∧ s.overSpent fe t' v then s.overBudget fe t' v
    else if v = 0x22 then s.unitPiece fe t' d n
    else if v = 0x23 then
      match s.enc? fe.flow with | some e => s.codedRows fe e t.id (d + n) | none => s
    else s

/-- One 64 KiB block of Galley's work on a batch image; with the last, the group can take its next step (R369). -/
def State.doAsm (s : State) (u : BatchOut) : State :=
  let left := u.asm - 65536
  let s := s.modUnit u.key (fun u => { u with asm := left })
  match u.group with
  | some g => if left = 0 then s.modGroup g (fun x => { x with assembling := false }) else s
  | none => s

/-- A free unit of a server takes a piece (R99). With no piece ready, nothing happens. -/
def State.dispatch (s : State) (v : Nat) : State :=
  if !s.active then s
  else match s.pickPiece v with
  | none => s
  | some r => match r.piece with
    | .task id => (match s.task? id with | some t => s.doTask r.fe t v | none => s)
    | .xfer id => (match s.task? id with
        | some t => (s.dispatchXfer t).countServed r.fe v ((t.delta.bind DeltaTask.cutBytes).getD 0) | none => s)
    | .unit key => (match s.batches.find? (fun u => u.key == key) with
        | some u => (s.dispatchUnit u).countServed r.fe v r.bytes | none => s)
    | .asm key => (match s.batches.find? (fun u => u.key == key) with
        | some u => (s.doAsm u).countServed r.fe v (min 65536 u.asm) | none => s)

/-- The tables of an image as package memory holds them now: its class and byte ID tables stay as they were copied
(R345). -/
def TokImage.reread (im : TokImage) (d : List Byte) : TokImage :=
  let oM := fieldAt d 28 4
  let oS := fieldAt d 32 4
  let oP := fieldAt d 36 4
  { im with
    merges := (List.range im.merges.length).map (fun i => ⟨fieldAt d (oM + 16 * i) 4, fieldAt d (oM + 16 * i + 4) 4,
      fieldAt d (oM + 16 * i + 8) 4, fieldAt d (oM + 16 * i + 12) 4⟩),
    strings := (List.range im.strings.length).map (fun i =>
      let e := sliceAt d (oS + 16 * i) 16
      ⟨fieldAt e 0 4, sliceAt d (oP + fieldAt e 4 4) (byteAt e 8), byteAt e 9 == 1⟩) }

/-- Lookups at the Compositor's text server read the images that the fabric answers for (R345). -/
def State.rereadImages (s : State) (v : Nat) (f : Fetch) : State :=
  if v ≠ 0x25 ∨ f.isEmpty then s
  else { s with forme := { s.forme with images := s.forme.images.map (fun im =>
    match fetchBytes f im.addr im.size with
    | some d => im.reread d
    | none => im) } }

/-- Room frees for a parked unit of a flow: it becomes ready again, at the price of another load (R231). -/
def State.unpark (s : State) (f : Nat) : State :=
  match s.flow? f with
  | some fe =>
    match s.tasks.find? (fun t => t.flow == f && (match t.dec with | some p => p.parked != 0 | none => false) && s.millRoom fe t) with
    | some t => (s.modPlan t.id (fun p => { p with parked := p.parked - 1 })).incFld F.STN_MR_COUNT_LOADS
    | none => s
  | none => s

/-! ### Waiting for blocks (R168) -/

/-- The bulk request at the head of a pool's queue has waited WAIT_MS: it is refused, and the blocks that its task holds
for the sample return. -/
def State.poolTimeout (s : State) (p : Nat) : State :=
  match s.waitDue p with
  | none => s
  | some (w, due) =>
    let s := ((s.advance due).incFld (F.RSV_POOL_COUNT_EXHAUSTED p)).raiseOn 0x0A (.task w.task)
    match s.task? w.task, s.flow? w.flow with
    | some t, some fe =>
      let s := s.freeTask w.task
      if t.delta.isSome then s.modDelta t.id (fun d => { d with noStage := true })
      else if t.phase = .batched then
        match s.batches.find? (fun u => u.holder == some t.id), fe.galley with
        | some u, some g => s.abortBatch g u 0x42
        | _, _ => s
      else s.blockRefused fe { t with blocks := [] } (fe.path.getD t.stage 0)
    | _, _ => s.dropWaiter w.task

end Sys2Proof.Machine
end

