-- ==== Sys2Proof/Machine/Berths.lean ====
section
/-! DEFINITION. Berths of bulk contexts: the shared set, eviction and swaps (R145 to R149, R152), and the offload
advice of each 1 ms window (R105). -/

namespace Sys2Proof.Machine

/-- Berths that the live deadline flows pin (R95). -/
def State.pinned (s : State) : Nat := sumBy (fun a => a.berths) s.adm

/-- Size of the shared set (R145). -/
def State.sharedBerths (s : State) : Nat := 8192 - s.pinned - 1

/-- The contexts of a bulk flow: one for each partition, and 64 for a codec context. They start blocked, on input. -/
def berthCtxs (f : Forme) (now : Nat) (fe : FlowEntry) : List BerthCtx :=
  if fe.deadline then []
  else (List.range fe.partitions ++ (if f.codecs.any (fun c => c.flow == fe.flow) then [64] else [])).map
    (fun p => ⟨fe.flow, p, false, false, none, now⟩)

/-- Contexts come in while a shared berth is free, in order. -/
def fillBerths (free : Nat) : List BerthCtx → List BerthCtx
  | [] => []
  | b :: rest =>
    if b.resident then b :: fillBerths free rest
    else match free with
      | 0 => b :: rest.map id
      | n + 1 => { b with resident := true } :: fillBerths n rest

/-- Bulk contexts in the shared set. -/
def residents (l : List BerthCtx) : Nat := (l.filter (·.resident)).length

/-- Is blocked context a evicted before b (R147)? -/
def BerthCtx.evictBefore (a b : BerthCtx) : Bool :=
  match a.wake, b.wake with
  | none, some _ => true
  | some _, none => false
  | some x, some y => if x ≠ y then decide (y < x) else lexLt [a.since, 4095 - a.flow, 64 - a.part] [b.since, 4095 - b.flow, 64 - b.part]
  | none, none => lexLt [a.since, 4095 - a.flow, 64 - a.part] [b.since, 4095 - b.flow, 64 - b.part]

/-- Contexts that a smaller shared set has no berth for leave it: blocked ones first, as R147 evicts them, then the runnable
ones by how long they have been so. DESIGN CHOICE, log entry 78: the spec gives the size (R145) and no order. -/
def shedBerths : Nat → List BerthCtx → List BerthCtx
  | 0, l => l
  | n + 1, l =>
    let before (a b : BerthCtx) : Bool :=
      if a.runnable ≠ b.runnable then b.runnable else a.evictBefore b
    match leastBy before (l.filter (·.resident)) with
    | some x => shedBerths n (updateWhere l (fun b => b.flow == x.flow && b.part == x.part) (fun b => { b with resident := false }))
    | none => l

/-- The berths after a quoin point. A full lock-up starts every context anew; an amendment keeps those of the flows that
stay, as far as the shared set still holds them (R145). -/
def State.quoinBerths (s : State) (keep : Nat → Bool) : State :=
  let old := s.berths.filter (fun b => keep b.flow)
  let new := (s.forme.flows.filter (fun fe => !keep fe.flow)).flatMap (berthCtxs s.forme s.now)
  let l := shedBerths (residents old - s.sharedBerths) (old ++ new)
  { s with
    berths := fillBerths (s.sharedBerths - residents l) l,
    swapBusy := s.swapBusy.filter (fun x => keep x.1),
    swapQueue := s.swapQueue.filter (fun x => keep x.1.1 && keep x.2.1) }

/-! ### Runnable and blocked (R146) -/

/-- Work left of a flow's tasks at the servers that a test names: the lowest server with work. -/
def State.workAt (s : State) (flow : Nat) (p : Nat → Bool) : Option Nat :=
  ((s.tasks.filter (fun t => t.flow == flow && t.phase == .ready && !t.stopping && t.waitPool.isNone)).flatMap
    (fun t => (t.work.filter (fun w => p w.1 && decide (0 < w.2.1))).map (·.1))).head?

/-- Is a server one of Millrace's? -/
def entropyServer (v : Nat) : Bool := v == 0x22 || v == 0x23

/-- Section of a flow at a server, in ns (R91). -/
def State.sectionNs (s : State) (fe : FlowEntry) (v : Nat) : Nat :=
  (((flowCosts s.forme (serverUnits s.forme) fe s.ptc.pstate).find? (fun c => c.server == v)).map (·.sect)).getD 0

/-- Is a bulk context runnable, and, if it waits on an upstream tile, when does that station's section end? A codec
context runs at Millrace, a partition's at every other station. Work of the other kind is upstream of a partition's context,
since every path goes on past Millrace, and of a codec context when its station comes before Millrace; else the context waits on
input, whose moment is unknown. -/
def State.ctxNow (s : State) (fe : FlowEntry) (part : Nat) : Bool × Option Nat :=
  let mine (v : Nat) : Bool := (part == 64) == entropyServer v
  let up (v : Nat) : Bool := !mine v && (part != 64 || decide (fe.placeOf (serverStation s.forme v) < fe.placeOf 3))
  let delta := part != 64 && s.tasks.any (fun t => t.flow == fe.flow && s.deltaReady t)
  if (s.workAt fe.flow mine).isSome || delta then (true, none)
  else (false, (s.workAt fe.flow up).map (fun v => s.now + s.sectionNs fe v))

/-- Bring the berths up to date: a context that has changed state has it since now. -/
def State.refreshBerths (s : State) : State :=
  if s.berths.isEmpty then s
  else { s with berths := s.berths.map (fun b => match s.flow? b.flow with
    | some fe =>
      let (run, wake) := s.ctxNow fe b.part
      if run = b.runnable then { b with wake := if b.wake.isSome ∧ wake.isSome then b.wake else wake }
      else { b with runnable := run, wake := wake, since := s.now }
    | none => b) }

/-! ### Swaps (R147 to R149) -/

/-- Is a context named by a swap: the one that is being loaded, or one of those decided (R148)? -/
def State.swapping (s : State) (b : BerthCtx) : Bool :=
  s.swapBusy.any (fun x => x.1 == b.flow && x.2.1 == b.part) ||
    s.swapQueue.any (fun x => x.1 == (b.flow, b.part) || x.2 == (b.flow, b.part))

/-- The runnable context that has waited out the longest, of those that no swap brings in yet. -/
def State.waitingOut (s : State) : Option BerthCtx :=
  leastBy (fun a b : BerthCtx => lexLt [a.since, a.flow, a.part] [b.since, b.flow, b.part])
    (s.berths.filter (fun b => b.runnable && !b.resident && !s.swapping b))

/-- Resident bulk contexts that are blocked, and that no swap takes out yet. -/
def State.blockedIn (s : State) : List BerthCtx := s.berths.filter (fun b => b.resident && !b.runnable && !s.swapping b)

/-- Begin a swap: `out` leaves, `inc` is loaded into the swap berth. A runnable context that leaves waits out from now (R149). -/
def State.startSwap (s : State) (out inc : Nat × Nat) : State :=
  { s with
    berths := updateWhere s.berths (fun b => b.flow == out.1 && b.part == out.2) (fun b => { b with
      resident := false, since := if b.runnable then s.now else b.since }),
    swapBusy := some (inc.1, inc.2, s.now) }

/-- A swap is decided: it starts when the swap berth is free (R148). -/
def State.decideSwap (s : State) (out inc : BerthCtx) : State :=
  if s.swapBusy.isSome then { s with swapQueue := s.swapQueue ++ [((out.flow, out.part), (inc.flow, inc.part))] }
  else s.startSwap (out.flow, out.part) (inc.flow, inc.part)

/-- A runnable context finds no free berth: the blocked context with the latest wake is evicted (R147). -/
def State.berthEvict (s : State) : State :=
  if !s.active then s
  else match s.waitingOut, leastBy BerthCtx.evictBefore s.blockedIn with
    | some inc, some out => s.decideSwap out inc
    | _, _ => s

/-- The oldest swap that was decided while another ran starts (R148). -/
def State.nextSwap (s : State) : State :=
  match s.swapQueue with
  | (out, inc) :: rest => { s with swapQueue := rest }.startSwap out inc
  | [] => s

/-- The incoming context is resident (R147, R152). -/
def State.swapComplete (s : State) : State :=
  match s.swapBusy with
  | none => s
  | some (f, p, t) =>
    let s := { s with
      berths := updateWhere s.berths (fun b => b.flow == f && b.part == p) (fun b => { b with resident := true }),
      swapBusy := none }
    let m := max (s.fld F.LKP_SWAP_COUNT_MAX_NS) (min (2 ^ 32 - 1) (s.now - t))
    ((s.incFld F.LKP_SWAP_COUNT_SWAPS).setFld F.LKP_SWAP_COUNT_MAX_NS m).nextSwap

/-- A resident context of a bulk flow reaches a task boundary with nothing blocked: it gives way to the context that has
waited longest, when that has waited SLICE_US (R149). -/
def State.sliceCtx (s : State) (flow part : Nat) : State :=
  if !s.active || !s.blockedIn.isEmpty then s
  else match s.waitingOut, s.berths.find? (fun b => b.flow == flow && b.part == part && b.resident && !s.swapping b) with
    | some inc, some out =>
      if s.fld F.LKP_BERTH_CFG_SLICE_US * 1000 ≤ s.now - inc.since then s.decideSwap out inc else s
    | _, _ => s

/-- A task boundary (R452) is that of the contexts that the task ran in: its sample's partition, and the codec context (R149). -/
def State.sliceSwap (s : State) (t : Task) : State :=
  match s.flow? t.flow with
  | some fe => if fe.deadline then s else (s.sliceCtx fe.flow (t.sample % max 1 fe.partitions)).sliceCtx fe.flow 64
  | none => s

/-- A task reaches its boundary: its entry falls due, and its contexts may give way (R149, R452). -/
def State.boundary (s : State) (id : Nat) : State :=
  match s.task? id with
  | some t => if t.atBoundary && !(s.due.any (fun d => d.task == some id)) then (s.taskEnd id).sliceSwap t else s.taskEnd id
  | none => s

/-! ### Offload advice (R105) -/

/-- Bulk work that waits at a station. -/
def State.bulkWaiting (s : State) (st : Nat) : Nat :=
  let bulk (f : Nat) : Bool := match s.flow? f with | some fe => !fe.deadline | none => false
  sumBy (fun t => if bulk t.flow then
      sumBy (fun w => if serverStation s.forme w.1 == st then w.2.1 else 0) t.work +
      (if st = 9 ∧ s.atDelta t then (match t.delta with | some d => d.bytesLeft | none => 0) else 0)
    else 0) (s.tasks.filter (fun t => !t.stopping)) +
  sumBy (fun u => if bulk u.flow then
      (if st = 8 then u.asm else if st = 9 then sumBy (fun p => p.2.length) u.left else 0) else 0) s.batches

/-- The advice of a station at the end of a window: what was offered is what was served in the window, what was dropped in it
while it waited, and what still waits. -/
def State.adviceOf (s : State) (st : Nat) : Nat :=
  let (served, dropped) := ((s.window1ms.find? (fun x => x.1 == st)).map (·.2)).getD (0, 0)
  let offered := served + dropped + s.bulkWaiting st
  if offered = 0 then 0 else 256 * (offered - served) / offered

/-- A 1 ms window ends. -/
def State.offloadWindow (s : State) : State :=
  if !s.active then s
  else
    let s := (List.range 10).foldl (fun (s : State) i => s.setFld (F.LKP_OFFLOAD_ADVICE_ADVICE i) (s.adviceOf (i + 1))) s
    { s with window1ms := [] }

end Sys2Proof.Machine
end

