-- ==== Sys2Proof/Machine/Take.lean ====
section
/-! DEFINITION. How Headwater takes work: submission entries, releases, live posts and encode starts (R60, R97, R116,
R121, R125 to R127, R131 to R134, R187 to R196, R210, R211, R262 to R268, R381, R458). -/

namespace Sys2Proof.Machine

/-! ### May a task start -/

/-- Does Headwater start tasks of a flow now? A quoin phase stops every flow, or the removed ones (R60, R69). -/
def State.starting (s : State) (f : Nat) : Bool :=
  s.active && (match s.job with
    | none => true
    | some j => decide (j.phase < 5) || (match j.kind with
      | .full => false
      | .reload => false
      | .amend => !j.removed.contains f
      | .takeover => true))

/-- Is the tenancy in a reset of its own (R118)? -/
def State.resetting (s : State) (t : Nat) : Bool := s.flag (F.TEN_STATUS_RESETTING t)

/-- Task slots free for a ring's flow; a flow that is not live takes a slot of the tenancy's bulk part. -/
def State.slotsFor (s : State) (t f : Nat) : Nat :=
  match s.flowOf? t f with
  | some fe => s.freeSlots fe
  | none => (s.tenEntry t).maxTasks - s.deadlineHeld t - s.bulkTasks t

/-! ### Reading a task's source -/

/-- Issue the reads of a range of a task's source. -/
def State.fetchRange (s : State) (fe : FlowEntry) (id : Nat) (r : Nat × Nat) : State :=
  (s.modTask id (fun t => { t with readsOut := t.readsOut + (pieces r.1 r.2).length })).readFor fe.deadline fe.ten r.1 r.2
    (.source id 0)

/-- Headwater finds more bytes than BYTES_IN: it reads none of them, and the sample goes on with its status, so that the flow's policy
acts on it (R103, R192). A frame of an encode flow ends. -/
def State.headOver (s : State) (fe : FlowEntry) (id record : Nat) : State :=
  match s.task? id with
  | none => s
  | some t =>
    let s := s.countOverclass fe.flow
    if t.enc.isSome then s.stopTask id 0x21 true
    else s.modTask id (fun t => { t with
      phase := .ready, carried := [], inBytes := [], samples := [({ newSample t with recordId := record } : Sample).fail 0x21] })

/-- Start reading the source of a released task: a record range, an injection header, or a post's parts (R192, R196,
R210). Parts with carried bytes above BYTES_IN are not read. -/
def State.startReads (s : State) (fe : FlowEntry) (id : Nat) : State :=
  match s.task? id with
  | none => s
  | some t =>
    if t.delta.isSome then s.modTask id (fun t => { t with phase := .ready })
    else if t.fromRing then
      (s.modTask id (fun t => { t with phase := .fetching })).fetchRange fe id (t.srcAddr, if t.entry = 0 then t.srcLen else 64)
    else if fe.cls.bytesIn < sumL (t.parts.map (·.2)) + carryBytes t.carried then s.headOver fe id 0
    else
      let l := match t.enc with
        | some p => if p.again then [] else t.parts
        | none => t.parts
      let s := s.modTask id (fun t => { t with phase := if l.isEmpty then .ready else .fetching })
      l.foldl (fun s r => s.fetchRange fe id r) s

/-- Every read of a task has answered. An injection header is checked, and the ranges it names are read (R211). -/
def State.gotAll (s : State) (fe : FlowEntry) (t : Task) : State :=
  if t.fromRing ∧ t.entry ≠ 0 ∧ t.parts = [] then
    let h := t.sourceBytes t.srcAddr 64
    let x := parseInj h
    if !x.ok fe t.entry t.srcLen h then s.stopTask t.id 0x43 false
    else if fe.cls.bytesIn < 64 + x.main.2 + x.text.2 + x.aux.2 then s.headOver fe t.id x.record
    else
      let l := x.ranges.map (fun r => (t.srcAddr + r.1, r.2))
      let s := s.modTask t.id (fun t => { t with
        parts := (t.srcAddr, 64) :: l, phase := if l.isEmpty then .ready else .fetching })
      l.foldl (fun s r => s.fetchRange fe t.id r) s
  else s.modTask t.id (fun t => { t with phase := .ready })

/-- Source bytes of a task have come. -/
def State.gotBytes (s : State) (id a : Nat) (d : List Byte) : State :=
  match s.task? id with
  | none => s
  | some t =>
    let t := { t with inBytes := t.inBytes ++ [(a, d)], readsOut := t.readsOut - 1 }
    let s := s.setTask t
    if t.stopping ∨ t.readsOut ≠ 0 then s
    else match s.flow? t.flow with
      | some fe => s.gotAll fe t
      | none => s

/-! ### Submission entries (R125 to R127) -/

/-- Are the reserved fields of an entry zero, for its opcode (R125, R127)? -/
def entryClean (d : List Byte) : Bool :=
  let fl := byteAt d 9
  let op := byteAt d 8
  decide (op ≤ 2) && fl % 4 / 2 == 0 && fl / 16 == 0 && allZero (sliceAt d 10 6) && allZero (sliceAt d 28 4) &&
    allZero (sliceAt d 44 4) && decide (fieldAt d 16 8 < 2 ^ 52) && decide (fieldAt d 32 8 < 2 ^ 52) &&
    (op == 1 || (fl / 4 % 4 == 0 && allZero (sliceAt d 16 12) && allZero (sliceAt d 32 12) && allZero (sliceAt d 48 16)))

/-- Are the arguments of a TASK entry in order for its flow (R127, R194, R210, R381)? -/
def taskClean (fe : FlowEntry) (t : Task) : Bool :=
  bit fe.entryMask t.entry &&
  (if fe.streaming then
    t.entry == 3 && t.srcLen == 128 && t.srcAddr % 64 == 0 && t.dstAddr == 0 && t.dstLen == 0 && allZero t.args
  else if t.entry = 0 then
    t.srcLen != 0 && t.dstLen == 0 && decide (byteAt t.args 6 ≤ 1) && byteAt t.args 7 == 0
  else t.srcLen != 0 && decide (64 ≤ t.srcLen) && decide (byteAt t.args 6 ≤ 1) && allZero (t.args.drop 7))

/-- Start the chain of a streaming task: it takes the next SAMPLE_INDEX, and its first descriptor is fetched (R381). -/
def State.startChain (s : State) (fe : FlowEntry) (id a : Nat) : State :=
  let n := (s.run fe.flow).sampleNext
  let s := s.modRun fe.flow (fun r => { r with sampleNext := n + 1 })
  let s := s.modTask id (fun t => { t with
    sample := n, phase := .fetching, srcAddr := a, delta := some { DeltaTask.blank with fetched := 128 } })
  match s.task? id with
  | some t => s.fetchDesc t 0 a false
  | none => s

/-- Start a TASK entry that its flow accepts: its ranges and its class are checked first (R121, R196). -/
def State.startEntry (s : State) (fe : FlowEntry) (id : Nat) : State :=
  match s.task? id with
  | none => s
  | some t =>
    if !inWindows t.windows true false t.srcAddr t.srcLen then
      (s.windowFail t.ten t.srcAddr 1 (.task id)).stopTask id 0x41 false
    else if !inWindows t.windows false true t.dstAddr t.dstLen then
      (s.windowFail t.ten t.dstAddr 2 (.task id)).stopTask id 0x41 false
    else if fe.streaming then
      if fe.cls.bytesIn < 128 then (s.countOverclass fe.flow).stopTask id 0x21 true else s.startChain fe id t.srcAddr
    else if t.entry = 0 ∧ fe.cls.bytesIn < t.srcLen then (s.countOverclass fe.flow).stopTask id 0x21 true
    else
      let auto := t.entry ≠ 0 ∧ bit (byteAt t.args 6) 0 = true
      let n := (s.run fe.flow).sampleNext
      let s := if auto then s.modRun fe.flow (fun r => { r with sampleNext := n + 1 }) else s
      let s := s.modTask id (fun t => { t with sample := if auto then n else fieldAt t.args 0 6 })
      if fe.deadline then s else s.startReads fe id

/-- The task that an entry makes, taken at a ring whose HEAD then is `head`. -/
def entryTask (s : State) (r : SqRing) (d : List Byte) (head : Nat) : Task :=
  { Task.blank with
    ten := r.ten, flow := r.flow, origin := .ring r.ring, opcode := byteAt d 8, tag := BitVec.ofNat 64 (fieldAt d 0 8),
    irqNow := bit (byteAt d 9) 0, entry := byteAt d 9 / 4 % 4, srcAddr := fieldAt d 16 8, srcLen := fieldAt d 24 4,
    dstAddr := fieldAt d 32 8, dstLen := fieldAt d 40 4, args := sliceAt d 48 16, sqHead := head, cq := r.cq,
    epoch := s.epochOf r.flow, capture := s.now,
    detail := match s.flow? r.flow with | some fe => fe.newDetail 0 | none => 0 }

/-- Take one entry of a ring: it becomes a task, which may end at once (R60, R126, R127, R458). -/
def State.takeEntry (s : State) (r : SqRing) (d : List Byte) : State :=
  let head := (r.head + 1) % 2 ^ r.log2
  let s := s.modSq r.ring (fun r => { r with head := head })
  let t := entryTask s r d head
  let (s, id) := s.accept t
  if !entryClean d then s.stopTask id 0x43 false
  else if t.opcode = 0 then s.finishTask id
  else if t.opcode = 2 then s.openFences r.ring
  else match s.flowOf? r.ten r.flow with
    | none => s.stopTask id 0x31 true
    | some fe =>
      if (s.run fe.flow).suspended then s.stopTask id 0x30 true
      else if !taskClean fe t then s.stopTask id 0x43 false
      else s.startEntry fe id

/-- Has a ring a FENCE in flight (R126)? -/
def State.fenced (s : State) (ring : Nat) : Bool := s.tasks.any (fun t => t.ofRing ring && t.opcode == 2)

/-- May Headwater fetch entries of a ring? -/
def State.ringReady (s : State) (r : SqRing) : Bool :=
  r.bit && r.state == 1 && !s.resetting r.ten && s.starting r.flow && !s.fenced r.ring && decide (0 < s.slotsFor r.ten r.flow) &&
    (match s.flowOf? r.ten r.flow with | some fe => !s.poolHolds fe | none => true)

/-- The ring whose entries are fetched next: deadline rings first, then bulk rings from the rotating position (R133). Of several
deadline rings the lowest ring ID comes first: R133 does not say. DESIGN CHOICE, log entry 78. -/
def State.nextRing (s : State) : Option SqRing :=
  let l := s.sqs.filter s.ringReady
  let dl (r : SqRing) : Bool := match s.flowOf? r.ten r.flow with | some fe => fe.deadline | none => false
  match leastBy (fun a b : SqRing => decide (a.ring < b.ring)) (l.filter dl) with
  | some r => some r
  | none => leastBy (fun a b : SqRing =>
      decide ((a.ring + 2 ^ 20 - s.scanRot) % 2 ^ 20 < (b.ring + 2 ^ 20 - s.scanRot) % 2 ^ 20)) (l.filter (fun r => !dl r))

/-- Take up to n entries of a ring in order; a FENCE ends the fetch. A failed read raises FABRIC_RESP (R510). -/
def State.takeGo (ring : Nat) (f : Fetch) : Nat → State → State
  | 0, s => s
  | n + 1, s => match s.sq? ring with
    | none => s
    | some r =>
      if r.head = r.tail ∨ s.fenced ring then s
      else match fetchBytes f (r.base + 64 * r.head) 64 with
        | none => s.fetchFail f (r.base + 64 * r.head) 64 (Charge.ten r.ten) 1
        | some d => State.takeGo ring f n (s.takeEntry r d)

/-- Fetch entries of the next ring (R131, R133, R134). -/
def State.fetchEntries (s : State) (f : Fetch) : State :=
  match s.nextRing with
  | none => s
  | some r =>
    let deadline := match s.flowOf? r.ten r.flow with | some fe => fe.deadline | none => false
    let n := min 64 (min ((r.tail + 2 ^ r.log2 - r.head) % 2 ^ r.log2) (s.slotsFor r.ten r.flow))
    let s := s.modSq r.ring (fun r => { r with bit := false })
    let s := if deadline then s else { s with scanRot := (r.ring + 1) % 2 ^ 20 }
    let s := State.takeGo r.ring f n s
    match s.sq? r.ring with
    | none => s
    | some q =>
      let s := s.modSq r.ring (fun q => { q with bit := q.bit || q.head != q.tail })
      if q.head = r.head then s else s.issueWrite (s.ringRecordAddr q + 16) (leBytes 4 q.head) (.ringRecord r.ring)

/-! ### Live posts (R190 to R192) -/

/-- Tasks of a flow past Headwater. -/
def State.pastHeadwater (s : State) (f : Nat) : Nat :=
  ((s.tasksOf f).filter (fun t => decide (0 < t.stage) || t.phase != .waiting && t.phase != .fetching && t.phase != .ready)).length

/-- May Headwater take a post of a flow? -/
def State.mayTake (s : State) (fe : FlowEntry) : Bool :=
  s.starting fe.flow && !s.resetting fe.ten && decide (0 < s.freeSlots fe) && !s.poolHolds fe &&
    decide (s.pastHeadwater fe.flow < fe.depth)

/-- The task of a live post. -/
def postTask (s : State) (fe : FlowEntry) (b : LiveBinding) (sl capture : Nat) : Task :=
  { Task.blank with
    ten := fe.ten, flow := fe.flow, origin := .port b.port sl, cq := b.cq, capture := capture,
    epoch := s.epochOf fe.flow, detail := fe.newDetail sl }

/-- A post whose slot or part could not be read: its task ends with ABORTED_FAULT, and FABRIC_RESP is charged to it
(R510). -/
def State.postLost (s : State) (fe : FlowEntry) (b : LiveBinding) (sl : Nat) (f : Fetch) (part : Nat × Nat) : State :=
  let (s, id) := s.accept (postTask s fe b sl s.now)
  (s.fetchFail f part.1 part.2 (.task id) 1).stopTask id 0x30 true

/-- A slot that breaks R186: its entry says DESC_INVALID. -/
def State.badSlot (s : State) (fe : FlowEntry) (b : LiveBinding) (sl : Nat) : State :=
  s.postEntry (liveEntry fe b sl 0x43)

/-- The capture time of a post (R190). -/
def State.stamp (s : State) (r : SlotRec) (tArr : Nat) : State × Nat :=
  if r.flags % 2 = 1 then
    if tArr < r.capture then (s.incFld F.STN_HW_COUNT_B_STAMP_CLAMPED, tArr) else (s, r.capture)
  else (s, tArr)

/-- Take the oldest post out of a port, and note its age (R213). -/
def State.popPost (s : State) (p age : Nat) : State :=
  s.modPort p (fun r => { r with pending := r.pending.drop 1, lastAge := min (age / 1000) (2 ^ 24 - 1) })

/-- Hand the carry buffer of a port to a task (R189). -/
def State.giveCarry (s : State) (id : Nat) : State :=
  match s.task? id with
  | some { origin := .port p _, .. } =>
    let c := ((s.port? p).map (·.carry)).getD []
    (s.modPort p (fun r => { r with carry := [] })).modTask id (fun t => { t with carried := c })
  | _ => s

/-- A post becomes a task (R190, R192, R381). -/
def State.postTaken (s : State) (fe : FlowEntry) (b : LiveBinding) (sl c : Nat) (r : SlotRec) (f : Fetch) : State :=
  let t := postTask s fe b sl c
  if fe.streaming then
    match r.parts with
    | [(a, n)] =>
      if n ≠ 128 ∨ a % 64 ≠ 0 then s.postEntry (liveEntry fe b sl 0x43)
      else
        let (s, id) := s.accept t
        if fe.cls.bytesIn < 128 then (s.countOverclass fe.flow).stopTask id 0x21 true else s.startChain fe id a
    | _ => s.postEntry (liveEntry fe b sl 0x43)
  else
    let n := (s.run fe.flow).sampleNext
    let s := s.modRun fe.flow (fun q => { q with sampleNext := n + 1 })
    let keep := if fe.deadline ∧ b.freshNs ≠ 0 ∧ !s.keepIgnored fe then r.keepParts else []
    let (s, id) := s.accept { t with sample := n, parts := r.parts, keep := keep, keepData := if keep.isEmpty then [] else f }
    if fe.deadline then s else (s.giveCarry id).startReads fe id

/-- Take the oldest pending post of a port (R186, R190, R191). -/
def State.takePost (s : State) (p : Nat) (f : Fetch) : State :=
  match s.portFlow? p, (s.port? p).map (·.pending) with
  | some (fe, b), some (q :: _) =>
    if (s.enc? fe.flow).isSome ∨ !s.mayTake fe then s
    else
      let a := s.slotAddr fe.ten p q.slot
      match fetchBytes f a 64 with
      | none => (s.popPost p (s.now - q.tArr)).postLost fe b q.slot f (a, 64)
      | some d => match parseSlot (s.windows fe.ten) d with
        | none => (s.popPost p (s.now - q.tArr)).badSlot fe b q.slot
        | some r =>
          let (s, c) := s.stamp r q.tArr
          let s := s.popPost p (s.now - c)
          if b.freshNs ≠ 0 ∧ b.freshNs < s.now - c then
            let s := s.incFld F.STN_HW_COUNT_A_STALE
            let s := if s.keepIgnored fe then s else s.carryParts fe.ten p f r.keepParts
            s.postEntry (liveEntry fe b q.slot 0x10)
          else if (s.run fe.flow).suspended then
            let (s, id) := s.accept (postTask s fe b q.slot c)
            s.stopTask id 0x30 true
          else s.postTaken fe b q.slot c r f
  | _, _ => s

/-! ### Release (R97, R191) -/

/-- The first task of a deadline flow that has not been released, if it waits for its release: tasks are released in the order of
their acceptance (R97), and one whose chain is still being fetched holds those after it. -/
def State.firstWaiting (s : State) (f : Nat) : Option Task :=
  ((s.tasksOf f).find? (fun t => t.opcode == 1 && t.readyBy.isNone && !t.stopping && t.phase != .ended)).filter
    (fun t => t.phase == .waiting)

/-- The deadline task that is released next: of the first of each flow, the one that is due first (R97). -/
def State.nextRelease (s : State) : Option (Task × FlowEntry × Nat) :=
  leastBy (fun a b : Task × FlowEntry × Nat => lexLt [a.2.2, a.1.flow] [b.2.2, b.1.flow])
    (s.forme.flows.filterMap (fun fe =>
      if fe.deadline then (s.firstWaiting fe.flow).map (fun t => (t, fe, s.dueRelease fe t)) else none))

/-- FRESH_NS of a live task's binding; 0 without one. -/
def Task.freshBound (t : Task) (fe : FlowEntry) : Nat :=
  match t.origin, fe.live with
  | .port _ _, some b => b.freshNs
  | _, _ => 0

/-- A live task is stale at its release: its KEEP parts are carried, its index is never used, and Galley is told (R189,
R191, R361). -/
def State.dropStale (s : State) (fe : FlowEntry) (t : Task) : State :=
  let s := s.incFld F.STN_HW_COUNT_A_STALE
  let s := match t.origin with
    | .port p _ => s.carryParts t.ten p t.keepData t.keep
    | _ => s
  (s.stopTask t.id 0x10 false).galStale fe t.sample

/-- Release a deadline task at r_j (R97). -/
def State.releaseTask (s : State) (t : Task) (fe : FlowEntry) (due : Nat) : State :=
  let s := s.advance due
  let fresh := t.freshBound fe
  if fresh ≠ 0 ∧ fresh < s.now - t.capture then s.dropStale fe t
  else
    let s := s.modRun fe.flow (fun r => { r with lastRel := some due })
    let s := s.modTask t.id (fun t => { t with release := due, readyBy := some (due + fe.deadlineNs) })
    (if t.delta.isSome then s else s.giveCarry t.id).startReads fe t.id

/-- The next release comes due. -/
def State.taskRelease (s : State) : State :=
  if !s.active then s
  else match s.nextRelease with
  | some (t, fe, due) => s.releaseTask t fe due
  | none => s

/-! ### Encode starts (R260 to R268) -/

/-- A frame plan before Platen starts it. -/
def EncPlan.new (tick : Nat) (synth : Bool) (c : PendCtl) : EncPlan :=
  { tick := tick, synth := synth, again := synth || c.repeat_, force := c.forceKey, newRate := c.newRate, input := [], hints := [],
    hist := [], started := false, key := false, vecs := [], narrow := 0, q0 := 0, qs := [], cplx := [], rows := [], rowBins := [],
    minFrom := 0, hdr := 0, bins := 0, gone := 0, capped := false, inc := 0, sent := 0, form := .trailN, filler := 0 }

/-- Accept the task of a tick: its acceptance and release are s_k (R265). -/
def State.acceptFrame (s : State) (fe : FlowEntry) (t : Task) (sk : Nat) : State × Nat :=
  let n := (s.run fe.flow).sampleNext
  let s := s.modRun fe.flow (fun r => { r with sampleNext := n + 1, lastRel := some sk })
  let (s, id) := s.accept { t with sample := n }
  (s.modTask id (fun t => { t with
    accept := sk, release := sk, readyBy := if fe.deadline then some (sk + fe.deadlineNs) else none }), id)

/-- Count a tick without a task (R266). -/
def State.skipTick (s : State) (f : Nat) : State := s.incFld (F.STN_PLT_ENC_A_SKIPPED (s.codecIndex f))

/-- Can a tick that is no repeat be coded: a coded frame exists, or the first key frame fits its cap (R267, R272)? -/
def State.firstFits (s : State) (fe : FlowEntry) (e : EncEntry) : Bool :=
  let c := (s.run fe.flow).enc
  c.coded || !(decide (capOf e c.full true < ((e.rmin true : Nat) : Int)))

/-- Does a repeat have a frame to show (R267)? -/
def State.canRepeat (s : State) (f : Nat) : Bool := (s.run f).enc.coded

/-- The tick takes no post: a repeat is synthesised (R266). -/
def State.synthRepeat (s : State) (fe : FlowEntry) (b : LiveBinding) (k sk : Nat) : State :=
  if !s.canRepeat fe.flow then s.skipTick fe.flow
  else
    let t := { postTask s fe b 0 sk with origin := .synth b.port, enc := some (EncPlan.new k true ⟨false, false, none⟩) }
    let (s, id) := s.acceptFrame fe t sk
    s.startReads fe id

/-- The control that a post takes with it: the port's pending control and its own (R262 to R264); none when the parts
break R263. -/
def postControl (fe : FlowEntry) (e : EncEntry) (pend : PendCtl) (r : SlotRec) (f : Fetch) : Option (Option PendCtl) :=
  let most := if bit e.flags 0 then 3 else 2
  if (r.parts.head?.map (·.2)).getD 0 ≠ e.frameBytes ∨ most < r.parts.length then some none
  else match r.parts[e.ctlIndex]? with
    | none => some (some pend)
    | some q => match fetchBytes f q.1 q.2 with
      | none => none
      | some d => some ((parseControl e fe.periodNs d).map (fun c => pend.add c))

/-- The post of an encode start becomes a task, or does not (R263 to R268). A post that becomes no frame leaves the pending control as
it is (R264). -/
def State.takeFrame (s : State) (fe : FlowEntry) (e : EncEntry) (b : LiveBinding) (q : Post) (c : Nat) (r : SlotRec)
    (k sk : Nat) (f : Fetch) : State :=
  let pend := (s.run fe.flow).enc.ctl
  match postControl fe e pend r f with
  | none => (s.popPost b.port (sk - c)).postLost fe b q.slot f ((r.parts[e.ctlIndex]?).getD (0, 0))
  | some none =>
    let (s, id) := (s.popPost b.port (sk - c)).acceptFrame fe (postTask s fe b q.slot c) sk
    s.stopTask id 0x20 true
  | some (some ctl) =>
    if (if ctl.repeat_ then !s.canRepeat fe.flow else !s.firstFits fe e) then s.skipTick fe.flow
    else
      let suspended := (s.run fe.flow).suspended
      let s := s.popPost b.port (sk - c)
      let s := if suspended ∨ fe.cls.bytesIn < sumL (r.parts.map (·.2)) then s
        else s.modEnc fe.flow (fun x => { x with ctl := ⟨false, false, none⟩ })
      let t := { postTask s fe b q.slot c with parts := r.parts, enc := some (EncPlan.new k false ctl) }
      let (s, id) := s.acceptFrame fe t sk
      if suspended then s.stopTask id 0x30 true else s.startReads fe id

/-- Encode start s_k of a flow (R265, R266). -/
def State.encodeStart (s : State) (flow : Nat) (f : Fetch) : State :=
  match s.flow? flow, s.enc? flow with
  | some fe, some e => match fe.live, (s.run flow).enc.t0 with
    | some b, some t0 =>
      if !s.active then s else
      let k := (s.run flow).enc.tick
      let sk := t0 + k * fe.periodNs
      let s := (s.advance sk).modEnc flow (fun c => { c with tick := k + 1 })
      if s.freeSlots fe = 0 ∨ !s.starting flow ∨ s.resetting fe.ten then s.skipTick flow
      else match ((s.port? b.port).map (·.pending)).getD [] with
        | [] => s.synthRepeat fe b k sk
        | q :: _ =>
          if sk < q.tArr then s.synthRepeat fe b k sk
          else if s.poolHolds fe then s.skipTick flow
          else
            let a := s.slotAddr fe.ten b.port q.slot
            match fetchBytes f a 64 with
            | none => (s.popPost b.port (sk - q.tArr)).postLost fe b q.slot f (a, 64)
            | some d => match parseSlot (s.windows fe.ten) d with
              | none => (s.popPost b.port (sk - q.tArr)).badSlot fe b q.slot
              | some r =>
                let (s, c) := s.stamp r q.tArr
                if b.freshNs ≠ 0 ∧ b.freshNs < sk - c then
                  let s := (s.popPost b.port (sk - c)).incFld F.STN_HW_COUNT_A_STALE
                  (s.carryControl fe e b.port q.slot f).postEntry (liveEntry fe b q.slot 0x10)
                else s.takeFrame fe e b q c r k sk f
    | _, _ => s
  | _, _ => s

end Sys2Proof.Machine
end

