-- ==== Sys2Proof/Machine/Fabric.lean ====
section
/-! DEFINITION. The fabric: responses, errors and timeouts, port fences, and the MSGs that reach the instance (R503 to
R512). -/

namespace Sys2Proof.Machine

/-! ### Responses (R504, R509, R510) -/

/-- A task's fetch or write that is not Delta's has failed: the task ends with ABORTED_FAULT and OUT_INVALID, and
FABRIC_RESP is charged to it (R510). -/
def State.taskLost (s : State) (id : Nat) (x : Txn) : State :=
  (s.raise 0x2B { FaultInfo.of (.task id) with addr := x.addr, access := if x.op = .rd then 1 else 2 }).stopTask id 0x30 true

/-- An error within Delta: DLT_FABRIC, and the task aborts (R402). -/
def State.deltaLost (s : State) (id idx : Nat) (x : Txn) : State :=
  (s.raise 0x0C { FaultInfo.of (.task id) with addr := x.addr, access := if x.op = .rd then 1 else 2 }).deltaAbort id 0x30 1 idx

/-- Index of the descriptor that a read or a transfer of a streaming task serves. -/
def DeltaTask.indexOf (d : DeltaTask) (key : Nat) : Nat :=
  match d.reads.find? (fun r => r.key == key) with
  | some r => r.desc
  | none => match d.xfers.find? (fun y => y.key == key) with
    | some y => (y.segs.head?.map (·.1)).getD 0
    | none => 0

/-- The charge of a failed transaction that serves a tenancy and no task. -/
def ringCharge (s : State) (x : Txn) : Charge :=
  match x.purpose with
  | .cqe q _ _ => match s.cq? q with | some c => Charge.ten c.ten | none => .instance_
  | .ringRecord r => match s.sq? r with
    | some q => Charge.ten q.ten
    | none => match s.cq? r with | some c => Charge.ten c.ten | none => .instance_
  | .interrupt t _ => Charge.ten t
  | _ => .instance_

/-- A data response for a read. -/
def State.gotData (s : State) (x : Txn) (d : List Byte) : State :=
  match x.purpose with
  | .descriptor id k alt =>
    let s := s.oneRead id
    (match s.task? id with
      | some t => match s.flow? t.flow, t.delta with
        | some fe, some dt =>
          if t.stopping then s else if alt then s.gotAlt fe t dt k d else s.gotDesc fe t dt k d
        | _, _ => s
      | none => s)
  | .source id k =>
    (match s.task? id with
      | some t => if t.delta.isSome then s.gotSource id k d else s.gotBytes id x.addr d
      | none => s)
  | .ringEnable cq t ring => s.gotRecord cq t ring d
  | _ => s

/-- An acknowledgement of a write or a MSG. -/
def State.gotAck (s : State) (x : Txn) : State :=
  match x.purpose with
  | .dest id k =>
    (match s.task? id with
      | some t => if t.delta.isSome then s.ackedXfer id k else s.ackedOutput id
      | none => s)
  | .delivery key => s.ackedUnit key
  | .cqe q _ k => (s.freeSlotRecord k).cqInterrupt q
  | .packet flow => s.ackedChunk flow
  | .checkpoint flow slot areaB id => s.ckptAnswered id flow (slot + 128 * b2n areaB) true
  | .image b => s.imageAnswered b
  | _ => s

/-- The task whose chunk of a flow is being written. -/
def State.chunkTask (s : State) (flow : Nat) : Option Task :=
  s.tasks.find? (fun t => t.flow == flow && t.enc.isSome && t.writesOut != 0)

/-- An error response, or a timeout, of a transaction (R510). -/
def State.gotError (s : State) (x : Txn) : State :=
  match x.purpose with
  | .descriptor id k alt =>
    let s := s.oneRead id
    if alt then s.deltaLost id k x else (s.haltDelta id).taskLost id x
  | .source id k =>
    let s := s.oneRead id
    (match (s.task? id).bind (·.delta) with
      | some d => s.deltaLost id (d.indexOf k) x
      | none => s.taskLost id x)
  | .dest id k =>
    (match (s.task? id).bind (·.delta) with
      | some d => (s.deltaLost id (d.indexOf k) x).modTask id (fun t => { t with writesOut := t.writesOut - 1 })
      | none => (s.taskLost id x).ackedOutput id)
  | .delivery key =>
    (match s.batches.find? (fun u => u.key == key) with
      | some u =>
        let s := s.raise 0x0C { FaultInfo.of (.flow u.flow) with addr := x.addr, access := 2 }
        (s.abortUnit u 0x30 1).ackedUnit key
      | none => s)
  | .packet flow =>
    (match s.chunkTask flow with
      | some t => (s.taskLost t.id x).ackedChunk flow
      | none => s.ackedChunk flow)
  | .checkpoint flow slot areaB id =>
    ((s.raise 0x2C { FaultInfo.of .instance_ with addr := x.addr, access := 2 }).incFld F.FLT_CKPT_WRITE_FAILS).ckptAnswered id
      flow (slot + 128 * b2n areaB) false
  | .journal _ =>
    (s.raise 0x2C { FaultInfo.of .instance_ with addr := x.addr, access := 2 }).incFld F.FLT_CKPT_WRITE_FAILS
  | .image b => (s.raise 0x2B { FaultInfo.of .instance_ with addr := x.addr, access := 2 }).imageAnswered b
  | .imageHead _ => s.raise 0x2B { FaultInfo.of .instance_ with addr := x.addr, access := 2 }
  | .deltaDone _ => s.raise 0x2B { FaultInfo.of .instance_ with addr := x.addr, access := 2 }
  | .cqe q _ k =>
    ((s.raise 0x2B { FaultInfo.of (ringCharge s x) with addr := x.addr, access := 2 }).freeSlotRecord k).cqInterrupt q
  | .ringRecord _ => s.raise 0x2B { FaultInfo.of (ringCharge s x) with addr := x.addr, access := 2 }
  | .interrupt _ _ => s.raise 0x2B { FaultInfo.of (ringCharge s x) with addr := x.addr, access := 2 }
  | .ringEnable _ t ring => s.lostRecord t ring x.addr

/-- Take a transaction out of flight: its port has moved a good flit, and its mover engine may issue another (R390). -/
def State.retireTxn (s : State) (x : Txn) : State :=
  { s with txns := s.txns.erase x, crcFails := s.crcFails.filter (fun c => c.1 != x.port) }.freeMover x.purpose

/-- Does the instance act on a response? Halted, it discards data and takes acknowledgements (R442). -/
def State.hears (s : State) : Bool := s.active

/-- A read of Delta that was slower than 600 ns is counted (R404). -/
def State.lateRead (s : State) (x : Txn) : State :=
  match x.purpose with
  | .source id _ =>
    if ((s.task? id).bind (·.delta)).isSome ∧ 600 < s.now - x.issued then s.incFld F.STN_DLT_COUNT_C_LATE_READS else s
  | _ => s

/-- A response matched by TAG (R509). One that matches nothing is discarded (R510). Data of another length count as an
error. -/
def State.response (s : State) (tag : Nat) (isRead ok : Bool) (d : List Byte) : State :=
  match s.txns.find? (fun x => x.tag == tag && (x.op == .rd) == isRead) with
  | none => s
  | some x =>
    let s := s.retireTxn x
    if !s.hears then s else
    let s := s.lateRead x
    if !ok ∨ (isRead ∧ d.length ≠ x.len) then s.gotError x
    else if isRead then s.gotData x d else s.gotAck x

/-- A request has no response within 100 µs of its issue (R510). -/
def State.fabricTimeout (s : State) (tag : Nat) : State :=
  match s.txns.find? (fun x => x.tag == tag) with
  | none => s
  | some x =>
    let s := (({ s with txns := s.txns.erase x }.freeMover x.purpose).advance (x.issued + 100000)).incFld F.GLB_FABRIC_TIMEOUTS
    if s.hears then s.gotError x else s

/-! ### Ports (R507, R508) -/

/-- Fence a port: FABRIC_LINK, and its transactions complete as if with STATUS 3 DATA. -/
def State.fencePort (s : State) (p : Nat) : State :=
  if s.portFenced p then s
  else
    let s := { s with fencedUnits := s.fencedUnits ++ [FenceUnit.port p], crcFails := s.crcFails.filter (fun c => c.1 != p) }
    let s := (s.incFld F.FLT_STATUS_UNITS_FENCED).setFlds [(F.FLT_FENCE_UNIT, p), (F.FLT_FENCE_KIND, 3), (F.FLT_FENCE_SPARE_TAKEN, 0)]
    let s := s.raise 0x2A { FaultInfo.of .instance_ with unit := some (FenceUnit.port p) }
    (s.txns.filter (fun x => x.port == p)).foldl (fun (s : State) (x : Txn) =>
      let s := { s with txns := s.txns.erase x }.freeMover x.purpose
      if s.hears then s.gotError x else s) s

/-- A flit fails its link CRC: it is replayed up to 8 times, and the ninth failure fences the port (R508). -/
def State.linkFail (s : State) (p : Nat) : State :=
  if s.portFenced p then s
  else
    let n := ((s.crcFails.find? (fun c => c.1 == p)).map (·.2)).getD 0
    if 8 ≤ n then s.fencePort p
    else { s with crcFails := putBy (fun c => c.1 == p) (p, n + 1) s.crcFails }.incFld F.GLB_FABRIC_REPLAYS

/-! ### MSGs (R506) -/

/-- Refuse a MSG: STATUS 4 UNSUPPORTED. -/
def State.badMsg (s : State) : State := { s with resp := ⟨4, 0⟩ }.incFld F.GLB_FABRIC_BAD_MSG

/-- A step trigger by MSG or by register (R369, R378). -/
def State.stepTrigger (s : State) (t g : Nat) : State :=
  match s.triggerStep t g with
  | some s => s
  | none => s.incFld (F.TEN_GALLEY_STATUS_BAD_WRITE t)

/-- ALT of a streaming flow, by MSG or by register (R400, R411). -/
def State.altOp (s : State) (t f op : Nat) : State :=
  match s.streamingOf? t f with
  | some _ => if op = 1 then s.setAlt f true else if op = 2 then s.setAlt f false else s
  | none => s.incFld (F.TEN_DELTA_STATUS_BAD_WRITE t)

/-- A write of TEN_DELTA_DONE (R396, R411). -/
def State.deltaDonePush (s : State) (t : Nat) (v : Word) : State :=
  match s.streamingOf? t (getBits v 0 12) with
  | some _ => s.layerDone t (getBits v 0 12) (getBits v 32 16) (getBits v 12 5)
  | none => s.incFld (F.TEN_DELTA_STATUS_BAD_WRITE t)

/-- Handle one push of a tenancy. -/
def State.handlePush (s : State) (t : Nat) (p : Push) (f : Fetch) : State :=
  let o := p.off - 0x100000 * t
  let v := p.v
  if o = Row.TEN_DOORBELL.base then s.doorbellPush t v
  else if o = Row.TEN_CQ_DOORBELL.base then s.cqDoorbellPush t v
  else if o = Row.TEN_LIVE_DOORBELL.base then s.livePushed t (getBits v 0 9) (getBits v 9 3) p.tArr p.die f
  else if o = Row.TEN_PKT_DOORBELL.base then s.pktPush t v
  else if o = Row.TEN_GALLEY_SEQ.base then s.memberLeave t (getBits v 0 12) (getBits v 12 2)
  else if o = Row.TEN_GALLEY_STEP.base then s.stepTrigger t (getBits v 0 6)
  else if o = Row.TEN_GALLEY_SKIP.base then s.galSkip t (getBits v 0 12) (getBits v 12 48) (getBits v 60 1 == 1)
  else if o = Row.TEN_DELTA_ALT.base then s.altOp t (getBits v 0 12) (getBits v 12 2)
  else if o = Row.TEN_DELTA_DONE.base then s.deltaDonePush t v
  else s

/-- Take the oldest push of a tenancy and handle it. -/
def State.drainOne (s : State) (t : Nat) (f : Fetch) : State :=
  match (s.tenRun t).pushes with
  | [] => s
  | p :: rest => (s.modTen t (fun x => { x with pushes := rest })).handlePush t p f

/-- A push enters its tenancy's queue. A doorbell push waits for its turn; any other is handled at once when nothing is before
it. -/
def State.pushWrite (s : State) (r : CsReq) (t off : Nat) (v : Word) (die : Bool) (f : Fetch) : State :=
  let first := (s.tenRun t).pushes.isEmpty
  let s := s.enqueue r t off v die
  if first && off - 0x100000 * t != Row.TEN_DOORBELL.base then s.drainOne t f else s

/-- A live push that came as a MSG: it takes its place among the pushes of the tenancy that it names, in order of arrival, host and
die together (R187). `w`: port and slot, as TEN_LIVE_DOORBELL holds them. It stalls as a write of the tenancy does (R132). -/
def State.diePush (s : State) (t w : Nat) (f : Fetch) : State :=
  let r : CsReq := ⟨0, t⟩
  let off := 0x100000 * t + Row.TEN_LIVE_DOORBELL.base
  let v := BitVec.ofNat 64 (w % 4096)
  if s.stalls t || !(s.tenRun t).stalled.isEmpty then
    s.modTen t (fun x => { x with stalled := x.stalled ++ [⟨r, off, v, s.now, true⟩] })
  else s.pushWrite r t off v true f

/-- A MSG from a node (R506). Compute dies are nodes 0 to 0x1F. -/
def State.message (s : State) (node type : Nat) (p : List Byte) (f : Fetch) : State :=
  if s.dead then s
  else
    let ok := { s with resp := ⟨0, 0⟩ }
    let w := fieldAt p 0 2
    if 0x20 ≤ node then s.badMsg
    else match type with
      | 1 => if s.active then ok.diePush (w % 16) (w / 16) f else ok
      | 2 => if s.active then ok.stepTrigger (w % 16) (w / 16 % 64) else ok
      | 3 => if s.active then ok.layerDone (w / 4096) (w % 4096) (fieldAt p 2 2) node else ok
      | 4 =>
        let op := byteAt p 2
        if op ≠ 1 ∧ op ≠ 2 then s.badMsg else if s.active then ok.altOp (w / 4096) (w % 4096) op else ok
      | _ => s.badMsg

/-! ### The stagger (R401) -/

/-- BARRIER_RELEASE opens a window from the registers' live values; RAMP_NS 0 holds nothing. What an earlier window held
and the new one does not is issued. -/
def State.openStagger (s : State) : State :=
  let ramp := s.fld F.STN_DLT_STAGGER_RAMP_NS
  if ramp = 0 then s
  else { s with stagger := some ⟨s.now, ramp, s.fld F.STN_DLT_STAGGER_GROUPS,
    BitVec.ofNat 64 (s.fld F.STN_DLT_GROUP_A_DIES_0_15), BitVec.ofNat 64 (s.fld F.STN_DLT_GROUP_B_DIES_16_31)⟩ }

/-- Issue every held write that the stagger no longer holds. -/
def State.freeHeld (s : State) : State :=
  let s := s.releaseHeld (fun s t fe mask => !s.staggers mask (s.holdLimit fe t.release))
  s.releaseUnits (fun s fe u mask => !s.staggers mask (s.holdLimit fe u.release))

/-- Start time of release group g. -/
def StagWin.groupStart (w : StagWin) (g : Nat) : Nat := w.tr + g * w.ramp / max 1 w.groups

/-- Release group g starts. -/
def State.groupStart (s : State) (g : Nat) : State :=
  match s.stagger with
  | some w => (s.advance (w.groupStart g)).freeHeld
  | none => s

/-- The moments a_D − w of the deadline writes that are held. -/
def State.heldLimits (s : State) : List Nat :=
  s.tasks.filterMap (fun t => match s.flow? t.flow, t.delta with
    | some fe, some d => if d.xfers.any (fun x => x.state == .held) then s.holdLimit fe t.release else none
    | _, _ => none) ++
  s.batches.filterMap (fun u => match s.flow? u.flow with
    | some fe => if u.held.isEmpty then none else s.holdLimit fe u.release
    | none => none)

/-- A deadline task's held write reaches a_D − w. -/
def State.staggerLimit (s : State) : State :=
  match leastBy (fun a b : Nat => decide (a < b)) s.heldLimits with
  | some due => (s.advance due).freeHeld
  | none => s

/-- RAMP_NS passes: the window closes. -/
def State.staggerClose (s : State) : State :=
  match s.stagger with
  | some w => { s.advance (w.tr + w.ramp) with stagger := none }.freeHeld
  | none => s

end Sys2Proof.Machine
end

