-- ==== Sys2Proof/Machine/Power.lean ====
section
/-! DEFINITION. The Power and Thermal Controller: the voltage table, ceilings and the state in force, steps up, the
limits, P0 and its budget, the cap, estimate against measurement, throttle records, and current complement (R412 to
R433, R499). -/

namespace Sys2Proof.Machine

/-- Change PTC's state. -/
def State.modPtc (s : State) (g : PtcRun → PtcRun) : State := { s with ptc := g s.ptc }

/-! ### Guard power settings in effect (R436) -/

/-- A field of GRD_PWR_LIMITS, GRD_PWR_CLASS or GRD_PWR_ALERT as it is in effect: a change of the guard's waits for the next
10 µs evaluation (R436). -/
def State.limit (s : State) (f : Field) : Nat := f.of (s.ptc.limits.getD ((f.off - Row.GRD_PWR_LIMITS.base) / 8) 0)

/-- The guard's power settings take effect. -/
def State.takeLimits (s : State) : State :=
  s.modPtc (fun c => { c with limits := [Row.GRD_PWR_LIMITS, Row.GRD_PWR_CLASS, Row.GRD_PWR_ALERT].map (fun r => s.reg r.base) })

/-! ### The voltage table (R415 to R417) -/

/-- V[p][b] of a voltage word. -/
def vOf (w : Word) (b : Nat) : Nat := getBits w (12 * b) 12

/-- Registers GRD_VTABLE_P0 to GRD_VTABLE_X. -/
def State.tableWords (s : State) : List Word := (List.range 6).map (fun i => s.reg (Row.GRD_VTABLE_P.base + 8 * i))

/-- In every band, the voltage never falls from a slower state to a faster one. -/
def tableMonotone (v : List Word) : Bool :=
  (List.range 4).all (fun b => (List.range 4).all (fun p =>
    decide (vOf (v.getD (p + 1) 0) b ≤ vOf (v.getD p 0) b)))

/-- The table in the guard partition, when it is valid (R415). -/
def State.guardTable (s : State) : Option (List Word × Word) :=
  let w := s.tableWords
  if crc32c (w.flatMap (fun x => leBytes 8 x.toNat)) = s.fld F.GRD_VTABLE_CRC_CRC ∧ tableMonotone (w.take 5) then
    some (w.take 5, w.getD 5 0)
  else none

/-- The voltage in mV for state p in band b (R416); 900 mV under the built-in table (R417). -/
def PtcRun.volts (c : PtcRun) (p b : Nat) : Nat :=
  match c.table with
  | some (v, x) => vOf (v.getD p 0) b + getBits x 0 8 * min (getBits x 16 24 / 10000) (getBits x 8 4)
  | none => 900

/-- Send VREQ: it replaces the one that is outstanding (R499). -/
def State.askVoltage (s : State) (mv : Nat) (step : Option Nat) : State :=
  { s with pmOut := some mv, ptc := { s.ptc with vreq := some mv, vreqAt := s.now, stepTo := step } }

/-- Ask for the voltage of the state in force, if it is neither applied nor asked for. -/
def State.followVoltage (s : State) : State :=
  let v := s.ptc.volts s.ptc.pstate s.ptc.band
  if v = s.ptc.vreq.getD s.ptc.voltage ∨ s.ptc.stepTo.isSome then s else s.askVoltage v none

/-! ### Ceilings and the state in force (R413, R418, R422, R430) -/

/-- The requested state after Steady mode. -/
def State.requested (s : State) : Nat :=
  if s.flag F.PTC_CTRL_STEADY then s.fld F.PTC_CTRL_STEADY_STATE else s.fld F.PTC_CTRL_REQ_PSTATE

/-- The boost budget in ns: BOOST_PCT % of 60 minutes. -/
def State.boostBudget (s : State) : Nat := s.limit F.GRD_PWR_LIMITS_BOOST_PCT * 36000000000

/-- Boost residency of the last 60 minutes, in ns (R423). -/
def State.boostUsed (s : State) : Nat :=
  sumL s.ptc.bins + (match s.ptc.p0Since with | some t => s.now - t | none => 0)

/-- A temperature field of GRD_PWR_LIMITS in 1/16 °C. -/
def State.tempLimit (s : State) (f : Field) : Int := 16 * (s.limit f : Int)

/-- The three P0 conditions (R422). -/
def State.boostOk (s : State) : Bool :=
  decide (s.ptc.edcTimer < s.limit F.GRD_PWR_LIMITS_EDC_MS * 1000000) && decide (s.ptc.tj < s.tempLimit F.GRD_PWR_LIMITS_TJ_BOOST) &&
    !s.ptc.budgetOut && decide (s.boostUsed < s.boostBudget)

/-- The THERM ceiling: TJ_CRIT, TJ_MAX or TJ_BOOST. -/
def PtcRun.therm (c : PtcRun) : Option Nat :=
  if c.thermCrit then some 4
  else match c.thermMax, c.thermBoost with
    | some p, _ => some (max p 1)
    | none, true => some 1
    | none, false => none

/-- The EDC ceiling. -/
def PtcRun.edc (c : PtcRun) : Option Nat :=
  match c.edcPeak, c.edcLong with
  | some a, some b => some (max a b)
  | some a, none => some a
  | none, x => x

/-- The ceilings of the six reasons as they are held now, in the order of R435. EST stays one state below the requested
one (R428). -/
def State.ceilings (s : State) : List (Option Nat) :=
  let old (i : Nat) : Ceiling := s.ptc.reasons.getD i Ceiling.off
  let keep (i : Nat) : Option Nat := if (old i).held then some (old i).state else none
  [s.ptc.therm, s.ptc.edc, keep 2, if s.ptc.alertLow || s.ptc.alertEnd.isSome then some 4 else none,
   if s.ptc.droopAt.isSome then some 0 else none, if (old 5).held then some (min 4 (s.requested + 1)) else none]

/-- Does a reason lower the state in the mode of the moment? DROOP never does; CAP and EST do not in Steady mode. -/
def State.lowers (s : State) (i : Nat) : Bool := i != 4 && !((i == 2 || i == 5) && s.flag F.PTC_CTRL_STEADY)

/-- The slowest of the ceilings in force: the fastest state allowed now. -/
def State.allowed (s : State) : Nat :=
  let l := s.ceilings.mapIdx (fun i c => if s.lowers i then c.getD 0 else 0)
  maxL (s.requested :: (if s.boostOk then 0 else 1) :: (if s.ptc.fallback then 3 else 0) :: l)

/-- Is reason i in force: is its own ceiling slower than the requested state, or, for DROOP, are the clocks stretched? -/
def State.inForce (s : State) (i : Nat) : Bool :=
  match s.ceilings.getD i none with
  | none => false
  | some c => i == 4 || (s.lowers i && decide (s.requested < c))

/-- Keep the record of one reason (R430). -/
def State.record (s : State) (i : Nat) : State :=
  let old := s.ptc.reasons.getD i Ceiling.off
  let c := s.ceilings.getD i none
  let on := s.inForce i
  let now := s.now
  let put (x : Option Nat) : PtcRun := { s.ptc with
    reasons := s.ptc.reasons.mapIdx (fun k r => if k = i then ⟨c.isSome, c.getD 0, x⟩ else r) }
  match old.on, on with
  | none, true =>
    let s := { s with ptc := put (some now) }
    (s.setFld (F.PTC_THR_COUNT_EVENTS i) (s.fld (F.PTC_THR_COUNT_EVENTS i) + 1)).setFld (F.PTC_THR_LAST_TIME i) now
  | some t, false =>
    let s := { s with ptc := put none }
    s.setFld (F.PTC_THR_DUR_NS i) (s.fld (F.PTC_THR_DUR_NS i) + (now - t))
  | x, _ => { s with ptc := put x }

/-- Why a P0 episode ends (R434). -/
def State.whyP0Ends (s : State) : Nat :=
  if s.flag F.PTC_CTRL_STEADY then 6
  else if 0 < s.requested then 5
  else if s.limit F.GRD_PWR_LIMITS_EDC_MS * 1000000 ≤ s.ptc.edcTimer ∨ s.ptc.edc.isSome then 1
  else if s.tempLimit F.GRD_PWR_LIMITS_TJ_BOOST ≤ s.ptc.tj ∨ s.ptc.therm.isSome then 2
  else if s.ptc.budgetOut ∨ s.boostBudget ≤ s.boostUsed then 3
  else 4

/-- Add the residency since p0Since to the running bin. -/
def State.bankBoost (s : State) : State :=
  match s.ptc.p0Since with
  | some t => s.modPtc (fun c => { c with
      bins := c.bins.mapIdx (fun i b => if i = 0 then b + (s.now - t) else b), p0Since := some s.now })
  | none => s

/-- The state in force becomes p (R414, R423). -/
def State.enterState (s : State) (p : Nat) : State :=
  if p = s.ptc.pstate then s
  else
    let s := if s.ptc.pstate = 0 then
        let why := s.whyP0Ends
        let s := s.bankBoost
        s.modPtc (fun c => { c with
          lastMs := min (2 ^ 20 - 1) ((s.now - c.p0Start) / 1000000), endWhy := why, p0Since := none })
      else s
    s.modPtc (fun c => { c with
      pstate := p, p0Since := if p = 0 then some s.now else c.p0Since, p0Start := if p = 0 then s.now else c.p0Start })

/-- Take up every change of a ceiling: records, a step down to the slowest ceiling, and since when each state has been
allowed (R413, R414, R430). A step up to a state that a ceiling no longer allows is abandoned. P0 comes back only below 95 % of
its budget (R423). -/
def State.settlePtc (s : State) : State :=
  let used := decide (s.boostBudget ≤ s.boostUsed)
  let low := decide (100 * s.boostUsed < 95 * s.boostBudget)
  let s := s.modPtc (fun c => { c with budgetOut := (c.budgetOut && !low) || (used && c.pstate == 0) })
  let s := (List.range 6).foldl State.record s
  let a := s.allowed
  let s := if s.ptc.pstate < a then
      let s := (s.enterState a).modPtc (fun c => { c with stepTo := none, retryAt := none })
      s.followVoltage
    else if s.ptc.stepTo.any (fun k => decide (k < a)) then (s.modPtc (fun c => { c with stepTo := none })).followVoltage
    else s
  s.modPtc (fun c => { c with
    allowedAt := c.allowedAt.mapIdx (fun k t => if a ≤ k then t.orElse (fun _ => some s.now) else none) })

/-! ### Steps up (R414, R427) -/

/-- When the step up to state k may begin: UP_HOLD_US after every ceiling has allowed it, and, under CAP, 1 ms after it
fits with margin. -/
def State.stepDue (s : State) (k : Nat) : Option Nat :=
  match s.ptc.allowedAt.getD k none, s.ptc.capFit.getD k none with
  | some t, some f => some (max (t + s.fld F.PTC_CTRL_UP_HOLD_US * 1000) (if f = 0 then 0 else f + 1000000))
  | _, _ => none

/-- Ask for the voltage of the next faster state. -/
def State.beginStep (s : State) : State :=
  s.askVoltage (s.ptc.volts (s.ptc.pstate - 1) s.ptc.band) (some (s.ptc.pstate - 1))

/-- Is a higher voltage for the state in force still unacknowledged? The state is held for it (R416). -/
def PtcRun.holds (c : PtcRun) : Bool := c.vreq.any (fun v => decide (c.voltage < v))

/-- A one-state step up starts. -/
def State.stepUp (s : State) : State :=
  if !s.active ∨ s.ptc.pstate = 0 ∨ s.ptc.stepTo.isSome ∨ s.ptc.retryAt.isSome ∨ s.ptc.holds then s
  else match s.stepDue (s.ptc.pstate - 1) with
    | some due => (s.advance due).beginStep
    | none => s

/-- VACK: it acknowledges the last VREQ only with at least the requested voltage; a step up then changes frequency
(R414, R499). -/
def State.vack (s : State) (mv : Nat) : State :=
  match s.ptc.vreq with
  | some r =>
    if mv < r then s
    else
      let step := s.ptc.stepTo
      let s := s.modPtc (fun c => { c with vreq := none, stepTo := none, voltage := mv })
      match step with
      | some k => (s.enterState k).settlePtc.followVoltage
      | none => s
  | none => s

/-- No VACK within 50 µs: the step up is abandoned, and tried again 1 ms later. -/
def State.vreqTimeout (s : State) : State :=
  match s.ptc.stepTo with
  | some _ =>
    let s := s.advance (s.ptc.vreqAt + 50000)
    s.modPtc (fun c => { c with vreq := none, stepTo := none, retryAt := some (s.now + 1000000) })
  | none => s

/-- The abandoned step up is tried again, when its conditions hold still; else it waits for them again. -/
def State.vreqRetry (s : State) : State :=
  match s.ptc.retryAt with
  | some due =>
    let s := (s.advance due).modPtc (fun c => { c with retryAt := none })
    if s.ptc.pstate ≠ 0 ∧ (s.stepDue (s.ptc.pstate - 1)).any (fun d => decide (d ≤ s.now)) then s.beginStep else s
  | none => s

/-! ### Temperature (R416, R419) -/

/-- The band at temperature tj (1/16 °C), from band b, with 2 °C of hysteresis downward. -/
def bandOf (b : Nat) (tj : Int) : Nat :=
  let lower (k : Nat) : Int := (nth [0, 30, 60, 85] k : Nat) * 16
  let up := ((List.range 4).filter (fun k => k = 0 ∨ decide (lower k ≤ tj))).length - 1
  if b ≤ up then up
  else ((List.range (b + 1)).filter (fun k => decide (k ≤ up) || decide (lower k - 32 ≤ tj))).length - 1

/-- TJ is at or above TJ_MAX: one state down, from the ceiling of the last step or from the state in force. -/
def State.stepHot (s : State) : State :=
  s.modPtc (fun c => { c with
    thermMax := some (min 4 ((match c.tjMaxAt, c.thermMax with | some _, some p => p | _, _ => c.pstate) + 1)),
    tjMaxAt := some s.now })

/-- TJ is at or above TJ_CRIT: P4 until a reset, and PTC_TJ_CRIT. -/
def State.critTemp (s : State) : State :=
  if s.ptc.thermCrit then s
  else (s.modPtc (fun c => { c with thermCrit := true })).raiseOn 0x12 .instance_

/-- A 10 µs temperature sample. -/
def State.tempSample (s : State) (tj : Int) : State :=
  if !s.active then s
  else
    let boost := s.tempLimit F.GRD_PWR_LIMITS_TJ_BOOST
    let top := s.tempLimit F.GRD_PWR_LIMITS_TJ_MAX
    let s := s.modPtc (fun c => { c with
      tj := tj, band := bandOf c.band tj,
      thermBoost := decide (boost ≤ tj) || (c.thermBoost && decide (boost - 48 ≤ tj)) })
    let peak := s.fld F.PTC_TEMP_TJ_PEAK
    let s := if (BitVec.ofNat 16 peak).toInt < tj then s.setFld F.PTC_TEMP_TJ_PEAK (BitVec.ofInt 16 tj).toNat else s
    let s := if top ≤ tj then
        (if s.ptc.tjMaxAt.isNone then (s.raiseOn 0x11 .instance_).stepHot else s)
      else if tj < top - 32 then s.modPtc (fun c => { c with thermMax := none, tjMaxAt := none })
      else s.modPtc (fun c => { c with tjMaxAt := none })
    let s := if s.tempLimit F.GRD_PWR_LIMITS_TJ_CRIT ≤ tj then s.critTemp else s
    s.settlePtc.followVoltage

/-- TJ has stayed at or above TJ_MAX for another 100 µs. -/
def State.tjMaxStep (s : State) : State :=
  match s.ptc.tjMaxAt with
  | some t => if s.active then ((s.advance (t + 100000)).stepHot).settlePtc else s
  | none => s

/-! ### Current (R419, R420) -/

/-- The present estimate of the instance's power in 1/8 W, and the state after the estimate. -/
def State.powerNow (s : State) : Nat × State :=
  let (n, s) := s.nextFree
  (sumL ((List.range 3).map (fun c => Config.classPower n c s.ptc.pstate)), s)

/-- A 1 µs estimate of the current. -/
def State.currentEstimate (s : State) : State :=
  if !s.active then s
  else
    let (w, s) := s.powerNow
    let amps := w * 1000 / s.ptc.voltage
    let tdc := 8 * s.limit F.GRD_PWR_LIMITS_TDC_A
    let s := s.modPtc (fun c => { c with
      current := min 65535 amps,
      edcTimer := if tdc * s.ptc.voltage < w * 1000 then c.edcTimer + 1000 else c.edcTimer - 1000,
      belowTdc := if amps < tdc then c.belowTdc.orElse (fun _ => some s.now) else none })
    let s := if 8 * s.limit F.GRD_PWR_LIMITS_EDC_A ≤ amps then
        s.modPtc (fun c => { c with edcPeak := some (min 4 (c.pstate + 1)) })
      else match s.ptc.belowTdc with
        | some t => if t + 100000 ≤ s.now then s.modPtc (fun c => { c with edcPeak := none }) else s
        | none => s
    (s.modPtc (fun c => { c with edcLong := if c.edcTimer = 0 then none else c.edcLong })).settlePtc

/-- The EDC timer reaches EDC_MS: P1 from P0, else one state below. -/
def State.edcTimerExpire (s : State) : State :=
  if s.active ∧ s.limit F.GRD_PWR_LIMITS_EDC_MS * 1000000 ≤ s.ptc.edcTimer ∧ s.ptc.edcLong.isNone then
    (s.modPtc (fun c => { c with edcLong := some (if c.pstate = 0 then 1 else min 4 (c.pstate + 1)) })).settlePtc
  else s

/-! ### Alert and droop (R419, R421) -/

/-- VR_ALERT_N falls. -/
def State.alertFall (s : State) : State :=
  (s.modPtc (fun c => { c with alertLow := true, alertEnd := none })).settlePtc

/-- VR_ALERT_N rises: ALERT_HOLD_US starts. -/
def State.alertRise (s : State) : State :=
  if s.ptc.alertLow then
    s.modPtc (fun c => { c with
      alertLow := false, alertEnd := some (s.now + s.fld F.GRD_PWR_ALERT_ALERT_HOLD_US * 1000) })
  else s

/-- The hold passes: the ALERT ceiling lifts. -/
def State.alertExpire (s : State) : State :=
  match s.ptc.alertEnd with
  | some due => ((s.advance due).modPtc (fun c => { c with alertEnd := none })).settlePtc
  | none => s

/-- The supply falls below DROOP_MV. -/
def State.droop (s : State) : State :=
  if s.ptc.droopAt.isSome then s else (s.modPtc (fun c => { c with droopAt := some s.now })).settlePtc

/-- The supply has been above DROOP_MV for 1 µs, at least 1 µs after the start. -/
def State.droopEnd (s : State) : State :=
  match s.ptc.droopAt with
  | some t => ((s.advance (t + 1000)).modPtc (fun c => { c with droopAt := none })).settlePtc
  | none => s

/-! ### Boost (R422, R423, R488) -/

/-- Boost residency reaches the budget: P0 ends. -/
def State.budgetEnd (s : State) : State :=
  match s.ptc.p0Since with
  | some t =>
    let due := t + (s.boostBudget - sumL s.ptc.bins)
    ((s.advance due).modPtc (fun c => { c with budgetOut := true })).settlePtc
  | none => s

/-- A minute of TIME_BUS passes: the oldest bin ages out. P0 is allowed again below 95 % of the budget. -/
def State.binRoll (s : State) : State :=
  if !s.active then s
  else
    let due := s.ptc.binAt + 60000000000
    let s := (s.advance due).bankBoost
    let s := s.modPtc (fun c => { c with bins := 0 :: c.bins.take 59, binAt := due })
    (s.modPtc (fun c => { c with
      budgetOut := c.budgetOut && !decide (100 * s.boostUsed < 95 * s.boostBudget) })).settlePtc

/-- Write the bins into part 3 of retained memory. -/
def State.writeBins (s : State) : State :=
  let s := s.bankBoost
  { s with retained := { s.retained with part3 := some s.ptc.bins } }

/-- Every second, the bins go into part 3. -/
def State.saveBins (s : State) : State := if s.active then s.writeBins else s

/-! ### Cap sharing (R424 to R427) -/

/-- Classes of GRD_PWR_CLASS.ORDER as indices of alloc (0 compute, 1 memory, 2 links); the default when a class repeats
or a code names none (R436). -/
def capOrder (order : Nat) : List Nat :=
  let code (i : Nat) : Nat := nth [1, 2, 0, 3] (order / 4 ^ i % 4)
  let l := [code 0, code 1, code 2]
  if l.contains 3 ∨ l.eraseDups.length < 3 then [1, 2, 0] else l

/-- Hand out what remains above the floors, in order (R425). -/
def giveRest (floor demand : List Nat) : List Nat → List Nat → Nat → List Nat
  | [], alloc, _ => alloc
  | c :: rest, alloc, rem =>
    let add := min rem (nth demand c - nth floor c)
    giveRest floor demand rest (alloc.mapIdx (fun i a => if i = c then a + add else a)) (rem - add)

/-- The allocation of R425. -/
def allocate (share : Nat) (floor demand order : List Nat) : List Nat :=
  let sum := sumL floor
  if share < sum then floor.map (fun f => f * share / sum)
  else giveRest floor demand order floor (share - sum)

/-- The rate that R426 sets from the allocations (1/8 W) and the deadline bytes of the interval of 10 µs: 5 pJ per memory
byte and 2.5 pJ per port byte. -/
def capRate (mem link bytes : Nat) : Nat :=
  max 1 (min 8192 (min ((250000 * mem - bytes) / 10000) ((500000 * link - bytes) / 10000)))

/-- What deadline traffic takes from the compute allocation, in 1/8 W (R426). -/
def capExcess (mem link bytes : Nat) : Nat :=
  ceilDiv (4 * bytes - 1000000 * mem) 1000000 + ceilDiv (2 * bytes - 1000000 * link) 1000000

/-- The 10 µs cap evaluation. The margin of a step up is asked for from the time that CAP holds a state that has none, until it
has had it for 1 ms (R427). -/
def State.capEvaluate (s : State) : State :=
  if !s.active then s
  else
    let (n, s) := s.takeLimits.nextFree
    let req := s.requested
    let (num, den) := s.ptc.scale
    let floor := [s.limit F.GRD_PWR_CLASS_FLOOR_COMPUTE, s.limit F.GRD_PWR_CLASS_FLOOR_MEMORY, s.limit F.GRD_PWR_CLASS_FLOOR_LINKS]
    let demand := (List.range 3).map (fun c => Config.classPower n c req * num / max 1 den)
    let alloc := allocate s.ptc.share floor demand (capOrder (s.limit F.GRD_PWR_CLASS_ORDER))
    let b := s.ptc.dlMoved
    let compute := nth alloc 0 - capExcess (nth alloc 1) (nth alloc 2) b
    let fits (p pct : Nat) : Bool := decide (Config.classPower n 0 p * num * pct ≤ compute * den * 100)
    let cap := ((List.range 5).find? (fun p => decide (req ≤ p) && fits p 100)).getD 4
    let floored := !fits 4 100
    let steady := s.flag F.PTC_CTRL_STEADY
    let excess := steady && !fits req 100
    let s := if floored ∧ !s.ptc.capFloor ∧ !steady then s.raiseOn 0x14 .instance_ else s
    let s := if excess ∧ !s.ptc.overCap then s.raiseOn 0x13 .instance_ else s
    (s.modPtc (fun c => { c with
      alloc := [compute, nth alloc 1, nth alloc 2], dlMoved := 0,
      rate := some (if floored then 1 else capRate (nth alloc 1) (nth alloc 2) b),
      capShort := decide (c.share < sumL floor) || floored, capFloor := floored, overCap := excess,
      capFit := c.capFit.mapIdx (fun p t =>
        if fits p 105 then t.orElse (fun _ => some s.now) else if req < cap then none else t),
      reasons := c.reasons.mapIdx (fun i r => if i = 2 then { r with held := true, state := cap } else r) })).settlePtc

/-! ### Estimate against measurement (R428, R429) -/

/-- Samples in a window of WINDOW_US. -/
def State.windowLen (s : State) : Nat := max 1 (s.fld F.PTC_EST_CFG_WINDOW_US / 10)

/-- A measurement arrives: the windows of estimate and measurement are compared. -/
def State.meas (s : State) (m : Nat) : State :=
  if s.life = .halted then s
  else
    let (e, s) := s.powerNow
    let n := s.windowLen
    let est := (e :: s.ptc.estWin).take n
    let win := (m :: s.ptc.measWin).take n
    let sumE := sumL est
    let sumM := sumL win
    let apart := decide (s.fld F.PTC_EST_CFG_PCT * sumM < 100 * ((sumE - sumM) + (sumM - sumE)))
    let held := (s.ptc.reasons.getD 5 Ceiling.off).held
    let s := s.modPtc (fun c => { c with estWin := est, measWin := win, measAt := s.now, stale := false })
    if apart then
      let s := if held then s else s.raiseOn 0x15 .instance_
      (s.modPtc (fun c => { c with
        scale := if sumE < sumM then (sumM, max 1 sumE) else (1, 1), agreeFrom := none,
        reasons := c.reasons.mapIdx (fun i r => if i = 5 then { r with held := true } else r) })).settlePtc
    else if held then s.modPtc (fun c => { c with
      scale := if sumE < sumM then (sumM, max 1 sumE) else (1, 1), agreeFrom := c.agreeFrom.orElse (fun _ => some s.now) })
    else s

/-- No sample for 100 µs: the estimate alone is used. -/
def State.measStale (s : State) : State :=
  if !s.active ∨ s.ptc.stale then s
  else
    let s := s.advance (s.ptc.measAt + 100000)
    (s.modPtc (fun c => { c with stale := true, scale := (1, 1), estWin := [], measWin := [], agreeFrom := none })).raiseOn 0x16 .instance_

/-- AGREE_MS of agreement pass: the EST ceiling ends. -/
def State.agreeExpire (s : State) : State :=
  match s.ptc.agreeFrom with
  | some t =>
    let s := s.advance (t + s.fld F.PTC_EST_CFG_AGREE_MS * 1000000)
    (s.modPtc (fun c => { c with
      scale := (1, 1), agreeFrom := none,
      reasons := c.reasons.mapIdx (fun i r => if i = 5 then { r with held := false } else r) })).settlePtc
  | none => s

/-! ### Current complement (R432, R433) -/

/-- BARRIER_HINT: complement starts, and a ramp in progress ends with the floor back at LEVEL. -/
def State.barrierHint (s : State) : State :=
  if !s.active ∨ !s.flag F.PTC_COMP_CFG_EN then s
  else s.modPtc (fun c => { c with
    comp := true, ramp := none, floor := s.fld F.PTC_COMP_CFG_LEVEL, hintAt := s.now })

/-- The ramp starts at now; none while ALERT is in force. -/
def State.startRamp (s : State) : State :=
  let ns := s.fld F.STN_DLT_STAGGER_RAMP_NS
  if !s.ptc.comp ∨ s.ptc.ramp.isSome then s
  else if s.inForce 3 ∨ ns = 0 then s.modPtc (fun c => { c with comp := false, floor := 0 })
  else s.modPtc (fun c => { c with ramp := some ⟨s.now, ns, max 1 (s.fld F.STN_DLT_STAGGER_GROUPS), 0⟩ })

/-- BARRIER_RELEASE: the ramp, and Delta's stagger window (R401). -/
def State.barrierRelease (s : State) : State := if s.active then s.startRamp.openStagger else s

/-- A time point of the ramp: the floor steps down, to 0 at the last. -/
def State.rampStep (s : State) : State :=
  match s.ptc.ramp with
  | some r =>
    let s := s.advance (r.tr + (r.next + 1) * r.ns / r.groups)
    let left := r.groups - 1 - r.next
    s.modPtc (fun c => { c with
      floor := s.fld F.PTC_COMP_CFG_LEVEL * left / r.groups, comp := decide (0 < left),
      ramp := if left = 0 then none else some { r with next := r.next + 1 } })
  | none => s

/-- A hint has had no release for HINT_MAX_US: it ramps down as if released. -/
def State.hintExpire (s : State) : State :=
  if s.ptc.comp ∧ s.ptc.ramp.isNone then (s.advance (s.ptc.hintAt + s.fld F.PTC_COMP_CFG_HINT_MAX_US * 1000)).startRamp
  else s

/-! ### Starts (R417, R482, R484) -/

/-- The guard's power settings and the voltage table at the end of a start: the delivered table, or the built-in one with
VTABLE_FALLBACK and PTC_VTABLE. -/
def State.startTable (s : State) : State :=
  let s := s.takeLimits
  match s.guardTable with
  | some t => (s.setFld F.GRD_VTABLE_CRC_VALID 1).modPtc (fun c => { c with table := some t, fallback := false })
  | none =>
    let s := s.setFld F.GRD_VTABLE_CRC_VALID 0
    (s.modPtc (fun c => { c with table := none, fallback := true })).raiseOn 0x10 .instance_

/-- A write of GRD_VTABLE_CRC: the table is checked and, when valid, applied (R415, R417). -/
def State.tableWritten (s : State) : State :=
  match s.guardTable with
  | some t =>
    let s := (s.setFld F.GRD_VTABLE_CRC_VALID 1).modPtc (fun c => { c with table := some t, fallback := false })
    if s.active then s.settlePtc.followVoltage else s
  | none => (s.setFld F.GRD_VTABLE_CRC_VALID 0).raiseOn 0x10 .instance_

/-- PTC after a reset: throttle state is cleared, time runs on, and an alert that is still low holds P4. -/
def PtcRun.restart (c : PtcRun) (now : Nat) : PtcRun :=
  { PtcRun.reset with
    table := c.table, alertLow := c.alertLow, alertEnd := c.alertEnd, measAt := now,
    bins := c.bins, binAt := now, budgetOut := c.budgetOut }

/-- PTC's local handling of an event of its own that comes from outside (R437, R467). -/
def State.ptcLocal (s : State) (src : Nat) : State :=
  if src = 0x12 then (s.modPtc (fun c => { c with thermCrit := true })).settlePtc
  else if src = 0x11 then s.stepHot.settlePtc
  else if src = 0x14 then (s.modPtc (fun c => { c with
    rate := some 1, capShort := true, capFloor := true,
    reasons := c.reasons.mapIdx (fun i r => if i = 2 then { r with held := true, state := 4 } else r) })).settlePtc
  else if src = 0x15 then (s.modPtc (fun c => { c with
    reasons := c.reasons.mapIdx (fun i r => if i = 5 then { r with held := true } else r) })).settlePtc
  else if src = 0x16 then s.modPtc (fun c => { c with stale := true })
  else s

end Sys2Proof.Machine
end

