-- ==== Sys2Proof/Machine/Faults.lean ====
section
/-! DEFINITION. Faults: the collector's counting, escalation and captures, the actions at each level, restores from
checkpoints, the per-tenancy reset, fences and suspension, and what every command ends with (R104, R118, R119, R437 to
R448, R453, R454, R456 to R458). -/

namespace Sys2Proof.Machine

/-! ### Scopes (R438) -/

/-- The tenancy to which an event is charged. -/
def State.chargedTen (s : State) : Charge → Option Nat
  | .instance_ => none
  | .tenancy t => some t.val
  | .flow f => (s.flow? f).map (·.ten)
  | .task id => (s.task? id).map (·.ten)

/-- The live flow to which an event is charged. -/
def State.chargedFlow (s : State) : Charge → Option Nat
  | .instance_ => none
  | .tenancy _ => none
  | .flow f => (s.flow? f).map (·.flow)
  | .task id => (s.task? id).bind (fun t => (s.flow? t.flow).map (·.flow))

/-! ### Counting and escalation (R440, R444) -/

/-- Collector state of a source. -/
def State.srcRun (s : State) (src : Nat) : SrcRun :=
  (s.srcs.find? (fun r => r.source == src)).getD ⟨src, s.fld (F.GRD_FLT_SRC_SEV src), [], 0, 0, false⟩

/-- Replace the collector state of a source. -/
def State.setSrc (s : State) (r : SrcRun) : State := { s with srcs := putBy (fun x => x.source == r.source) r s.srcs }

/-- ESC_W_MS of a source in ns. -/
def State.escWindow (s : State) (src : Nat) : Nat := s.fld (F.GRD_FLT_SRC_ESC_W_MS src) * 1000000

/-- Count one event. Answers the level that it takes, 0 for one that the collector ignores: its source is at IGNORE, in
rail fault, or not in the list of R437. -/
def State.countEvent (s : State) (src : Nat) : State × Nat :=
  let r := s.srcRun src
  if (fltDefaults src).isNone ∨ r.rail ∨ r.level = 0 then (s, 0)
  else
    let n := s.fld (F.GRD_FLT_SRC_ESC_N src)
    let w := s.escWindow src
    let win := (r.window ++ [s.now]).filter (fun t => decide (s.now < t + w))
    let s := s.incFld (F.FLT_SRC_STATE_COUNT src)
    if n ≠ 0 ∧ w ≠ 0 ∧ n ≤ win.length then
      if r.level < 5 then (s.setSrc { r with level := r.level + 1, window := [], changed := s.now, since := 0 }, r.level + 1)
      else (s.setSrc { r with window := [] }, r.level)
    else (s.setSrc { r with window := if n = 0 ∨ w = 0 then [] else win, since := r.since + 1 }, r.level)

/-- ESC_W_MS passes after the last change of level with too few events: the level falls by one (R444). -/
def State.escDecay (s : State) (src : Nat) : State :=
  let r := s.srcRun src
  let w := s.escWindow src
  if w ≠ 0 ∧ s.fld (F.GRD_FLT_SRC_SEV src) < r.level ∧ r.since < s.fld (F.GRD_FLT_SRC_ESC_N src) then
    let due := r.changed + w
    (s.advance due).setSrc { r with level := r.level - 1, changed := due, since := 0 }
  else s

/-- A write of GRD_FLT_SRC resets the count and the level of its source (R444). -/
def State.resetSrc (s : State) (src : Nat) : State :=
  let rail := (s.srcRun src).rail
  let s := { s with srcs := s.srcs.filter (fun r => r.source != src) }
  if rail then s.setSrc { s.srcRun src with rail := true } else s

/-! ### Captures and interrupts (R445, R448) -/

/-- The station that an event names: Delta for its own sources, else the one that the event reports, else the one where the
charged task is. -/
def State.chargedStation (s : State) (src : Nat) (i : FaultInfo) : Nat :=
  if i.station ≠ 0 then i.station
  else if 0x0C ≤ src ∧ src ≤ 0x0E then 9
  else match i.charge with
    | .task id => ((s.task? id).map s.stationOf).getD 0
    | _ => 0

/-- Capture an event of class c. The first fills the capture and sends its interrupt; a later one is counted. A halt
sends nothing. -/
def State.capture (s : State) (src : Nat) (i : FaultInfo) (c : Nat) : State :=
  let k := c - 1
  if s.flag (F.FLT_CAP_ADDR_VALID k) then s.incFld (F.FLT_CAP_MASTER_FOLLOWING k)
  else
    let ten := s.chargedTen i.charge
    let flow := s.chargedFlow i.charge
    let s := s.setFlds [
      (F.FLT_CAP_ADDR_ADDR k, i.addr), (F.FLT_CAP_ADDR_ACCESS k, i.access), (F.FLT_CAP_ADDR_VALID k, 1),
      (F.FLT_CAP_MASTER_TENANCY k, ten.getD 0), (F.FLT_CAP_MASTER_STATION k, s.chargedStation src i),
      (F.FLT_CAP_MASTER_LANE k, i.lane.getD 0), (F.FLT_CAP_MASTER_THREAD k, i.thread),
      (F.FLT_CAP_MASTER_TENANCY_VALID k, b2n ten.isSome), (F.FLT_CAP_MASTER_LANE_VALID k, b2n i.lane.isSome),
      (F.FLT_CAP_MASTER_SOURCE k, src), (F.FLT_CAP_MASTER_FOLLOWING k, 0), (F.FLT_CAP_TIME_TIME k, s.now),
      (F.FLT_CAP_SYND_SYNDROME k, i.synd.toNat), (F.FLT_CAP_SYND_FLOW k, flow.getD 0),
      (F.FLT_CAP_SYND_FLOW_VALID k, b2n flow.isSome)]
    if s.active ∧ c < 5 ∧ s.flag F.FLT_IRQ_EN ∧ bit (s.fld F.FLT_IRQ_CLASS_MASK) k then
      s.interrupt (s.fld F.FLT_IRQ_TENANCY) (s.fld F.FLT_IRQ_VECTOR)
    else s

/-- The highest class whose capture is valid; 7 while the self-check fails, 5 from a halt on (R447). -/
def State.faultSummary (s : State) : Nat :=
  if s.selfFail then 7
  else if s.life = .halted then 5
  else maxL ((List.range 5).map (fun k => if s.flag (F.FLT_CAP_ADDR_VALID k) then k + 1 else 0))

/-- Set a bit of a tenancy's TEN_FLT and send its fault interrupt (R448, R470). -/
def State.tenFault (s : State) (t : Nat) (bit_ : Nat → Field) : State :=
  let s := s.setFld (bit_ t) 1
  if s.active ∧ s.flag (F.TEN_FLT_EN t) then s.interrupt t (s.fld (F.TEN_FLT_VECTOR t)) else s

/-! ### Stopping work -/

/-- Stop a task under a TASK action, or with its flow: ABORTED_FAULT and OUT_INVALID (R441). An access unit that its
context had taken is lost to it. -/
def State.faultStop (s : State) (id : Nat) : State :=
  match s.task? id with
  | none => s
  | some t =>
    if t.stopping then s
    else
      let s := if t.delta.isSome then s.haltDelta id else s
      let s := match s.flow? t.flow with
        | some fe => s.loseUnit fe t
        | none => s
      s.stopTask id 0x30 true

/-- A member of a running group is OUT, with nothing staged. -/
def State.memberOut (s : State) (g flow : Nat) : State :=
  match (s.groups.find? (fun x => x.group == g)).bind (fun x => x.members.find? (fun m => m.flow == flow)) with
  | some m => (s.freeMember m).modMember g flow (fun m => { m with
      state := .out, staged := none, prev := none, row := 0, leave := false, pool := none })
  | none => s

/-- A flow leaves its running group. -/
def State.leaveGroup (s : State) (fe : FlowEntry) : State :=
  match fe.galley with
  | some g => if g.mode = 1 then s.memberOut g.group fe.flow else s
  | none => s

/-- Stop every task of a flow, and what travels for it alone. The batch of a running group goes on for its other members. -/
def State.stopFlow (s : State) (fe : FlowEntry) : State :=
  let s := ((s.tasks.filter (fun t => t.flow == fe.flow)).map (·.id)).foldl State.faultStop s
  let s := (s.batches.filter (fun u => u.flow == fe.flow && u.group.isNone)).foldl (fun (s : State) u => s.abortUnit u 0x30 1) s
  s.leaveGroup fe

/-! ### Restores (R453, R454) -/

/-- Is a context record whole, and which SEQ does it carry (R452)? -/
def recordSeq (d : List Byte) : Option Nat :=
  if d.length = 4224 ∧ fieldAt d 4220 4 = crc32c (d.take 4220) then some (fieldAt d 4096 8) else none

/-- The SEQs of a context slot that a restore can take: those of the whole copies that the fabric answers with, or, where
the step makes no fetch of its own, of every copy that was written. Only a checkpoint of the context since its quoin
point counts. -/
def State.validSeqs (s : State) (fe : FlowEntry) (k : Nat) (f : Option Fetch) : List Nat :=
  let mine := (s.saved.filter (fun x => x.2.flow == fe.flow)).map (·.1)
  if s.ckptAreas.1.isNone then []
  else match f with
    | none => mine
    | some f =>
      let read := (s.ctxAreas fe).filterMap (fun a => (fetchBytes f (ctxAddr a.1 (65 * fe.flow + k)) 4224).bind recordSeq)
      mine.filter (fun q => read.contains q)

/-- The copy of a context slot that a restore takes: of those valid, the one with the highest SEQ. -/
def State.bestCopy (s : State) (fe : FlowEntry) (k : Nat) (f : Option Fetch) : Option (Nat × FlowRun) :=
  let seqs := s.validSeqs fe k f
  s.saved.find? (fun x => x.2.flow == fe.flow && seqs.contains x.1 && seqs.all (fun q => decide (q ≤ x.1)))

/-- One context slot of a restore: its copy, CKPT_RESTORE when there is none, and RESTORE_OLDER when it is not the last
one written. -/
def State.takeCopy (s : State) (fe : FlowEntry) (f : Option Fetch) (k : Nat) : State × Option FlowRun :=
  let s := match f with
    | some f => (s.ctxAreas fe).foldl (fun (s : State) (a : Nat × Bool) => s.lackAnswer f (ctxAddr a.1 (65 * fe.flow + k)) 4224) s
    | none => s
  match s.bestCopy fe k f with
  | some (q, r) => (if q < (s.run fe.flow).ckptSeq then s.incFld F.FLT_CKPT_RESTORE_OLDER else s, some r)
  | none => (s.raise 0x2D { FaultInfo.of (.flow fe.flow) with synd := BitVec.ofNat 32 (65 * fe.flow + k) }, none)

/-- The tick of the first encode start after a moment, and none before the tick that was next (R285). -/
def EncCtx.tickAfter (c : EncCtx) (period now : Nat) : Nat :=
  match c.t0 with
  | some t0 => if now < t0 then c.tick else max c.tick ((now - t0) / max 1 period + 1)
  | none => c.tick

/-- An encode context restored: no reference frame, no chunk, the first frame is a key frame, and the clock goes on at the first
encode start after now (R268, R284, R285). -/
def EncCtx.restored (c : EncCtx) (ring : EncCtx) (period now : Nat) : EncCtx :=
  { c with tick := c.tickAfter period now, refs := [none, none], hist := [], goldAt := 0, lastVecs := [], keyDue := true, coded := false, lastInter := false, chunks := [], chunkOut := 0,
           wrOff := ring.wrOff, rdOff := ring.rdOff }

/-- A Galley context restored: the open batch and the reserve are lost (R464). -/
def GalCtx.restored (c : GalCtx) : GalCtx :=
  { c with rows := [], segs := [], segPos := (0, 0, 0), held := [], lastIn := none, flushTo := none, reserve := [] }

/-- Restore the contexts of a flow from their checkpoints. A decode context awaits a random-access point (R247); Delta
keeps ALT and the slot counter (R407). The context of partition 0 holds what the flow has once. `ring`: the packet ring
offsets go on from where they are. -/
def State.restoreFlow (s : State) (fe : FlowEntry) (f : Option Fetch) (ring : Bool) : State :=
  let s := (s.releaseHandles fe.flow).freeReserve fe.flow (s.run fe.flow).gal.reserve
  let now := s.run fe.flow
  let start := FlowRun.start s.forme.codecs fe.flow
  let (s, base) := s.takeCopy fe f 0
  let (s, codec) := if (s.forme.codecs.any (fun c => c.flow == fe.flow)) then s.takeCopy fe f 64 else (s, none)
  let (s, parts) := (List.range fe.partitions).foldl (fun (x : State × List RflPart) p =>
    let (s, r) := if p = 0 then (x.1, base) else x.1.takeCopy fe f p
    (s, x.2 ++ (match r with | some r => r.rfl.filter (fun q => q.part == p) | none => []))) (s, [])
  let b := base.getD start
  let c := (codec.getD start).enc
  s.setRun { b with
    flow := fe.flow, suspended := now.suspended, ckptSeq := now.ckptSeq, degraded := now.degraded, older := now.older,
    dec := start.dec, rfl := parts,
    enc := if codec.isSome then c.restored (if ring then now.enc else c) fe.periodNs s.now else { start.enc with t0 := c.t0 },
    gal := b.gal.restored,
    dlt := { start.dlt with alt := b.dlt.alt, delivered := b.dlt.delivered } }

/-- The FLOW action: every task of the flow stops, and its contexts are restored (R441). -/
def State.flowFault (s : State) (fe : FlowEntry) : State := (s.stopFlow fe).restoreFlow fe none true

/-! ### The per-tenancy reset (R118, R119) -/

/-- The context of a flow as it was at its quoin point; its checkpoint count goes on. -/
def State.freshFlow (s : State) (fe : FlowEntry) : State :=
  let r := s.run fe.flow
  (s.releaseHandles fe.flow).setRun { FlowRun.start s.forme.codecs fe.flow with
    suspended := r.suspended, ckptSeq := r.ckptSeq, degraded := r.degraded, older := r.older }

/-- Disable every ring of a tenancy and write 0 into the STATE of its records. -/
def State.dropRings (s : State) (t : Nat) : State :=
  let sq := s.sqs.filter (fun r => r.ten == t)
  let cq := s.cqs.filter (fun c => c.ten == t)
  let s := { s with sqs := s.sqs.filter (fun r => r.ten != t), cqs := s.cqs.filter (fun c => c.ten != t) }
  let s := sq.foldl (fun (s : State) r => s.issueWrite (s.ringRecordAddr r + 24) (leBytes 4 0) (.ringRecord r.ring)) s
  cq.foldl (fun (s : State) c => s.issueWrite (s.cqRecordAddr c + 28) (leBytes 4 0) (.ringRecord c.cq)) s

/-- Reset one tenancy: its tasks stop without an entry, its contexts return to the quoin point, and its rings are
disabled. -/
def State.tenancyReset (s : State) (t : Nat) : State :=
  let fes := s.forme.flows.filter (fun fe => fe.ten == t)
  let mine (f : Nat) : Bool := fes.any (fun fe => fe.flow == f)
  let ids := (s.tasks.filter (fun k => k.ten == t)).map (·.id)
  let n := s.tasksOfTen t
  let s := { s with due := s.due.filter (fun d => d.ten != t) }
  let s := s.dropRings t
  let s := ids.foldl (fun (s : State) id => ((if ((s.task? id).bind (·.delta)).isSome then s.haltDelta id else s)).retire id) s
  let s := { s with
    batches := s.batches.filter (fun u => u.ten != t),
    weir := { s.weir with queue := s.weir.queue.filter (fun x => x.ten != t) },
    ports := updateWhere s.ports (fun p => match s.portFlow? p.port with | some (fe, _) => fe.ten == t | none => false)
      (fun p => PortRun.fresh p.port),
    due := s.due.filter (fun d => d.ten != t) }
  let s := (s.groups.filter (fun x => x.ten == t)).foldl (fun (s : State) x =>
    x.members.foldl (fun (s : State) m => s.freeMember m) s) s
  let s := { s with groups := s.groups.map (fun (x : GroupRun) =>
    if x.ten = t then ((groupsOfForme s.forme).find? (fun (y : GroupRun) => y.group == x.group)).getD x else x) }
  let s := s.flows.foldl (fun (s : State) (r : FlowRun) => if mine r.flow then s.freeReserve r.flow r.gal.reserve else s) s
  let s := fes.foldl State.freshFlow s
  s.setFlds [(F.TEN_STATUS_RESETTING t, 0), (F.TEN_STATUS_RESET_ABORTED t, min n 8191)]

/-! ### Halt (R442) -/

/-- The instance halts: READY clears, BIRFA_ALIVE stops, and a lock-up or takeover in progress ends. -/
def State.haltNow (s : State) : State :=
  let s := if s.tko.isSome then s.setFld F.FLT_TKO_STATUS_STATE 3 else s
  let s := { s with life := .halted, ready := false, aliveOn := false, job := none, retaining := false, tko := none }
  s.setFlds [(F.FLT_STATUS_HALTED, 1), (F.FRM_STATUS_PHASE, 0)]

/-- A halt. An instance in reset or without supply has nothing to halt. -/
def State.halt (s : State) : State :=
  if s.life = .halted ∨ s.qclkHeld ∨ s.dead then s else s.haltNow

/-- A partner's FLUSHED is not seen within 10 µs: CLOCK is raised, and the instance halts (R481). -/
def State.flushTimeout (s : State) : State :=
  if s.life = .halted ∨ s.dead then s else (s.raiseOn 0x32 .instance_).haltNow

/-! ### Actions (R441, R443) -/

/-- The action of one event at its level. A level for which the event has no scope acts as LOG. -/
def State.act (s : State) (src : Nat) (c : Charge) (level : Nat) : State :=
  let ten := s.chargedTen c
  let named (s : State) : State := match ten with | some t => s.setFld (F.TEN_FLT_LAST_SOURCE t) src | none => s
  if 5 ≤ level then s.halt
  else if level = 4 then
    match ten with
    | some t => ((named s).tenancyReset t).tenFault t F.TEN_FLT_FAULTED
    | none => s
  else if level = 3 then
    match s.chargedFlow c, ten with
    | some f, some t => (match s.flow? f with
      | some fe => ((named s).flowFault fe).tenFault t F.TEN_FLT_FAULTED
      | none => s)
    | _, _ => s
  else if level = 2 then
    match c with
    | .task id => if (s.task? id).isSome then (named s).faultStop id else s
    | _ => s
  else s

/-- Does the action at level a cover the scope of an event at the same or a lower level, so that it alone is taken (R443)? -/
def State.covers (s : State) (a b : Nat × Charge) : Bool :=
  match a.1 with
  | 3 => (s.chargedFlow a.2).isSome && s.chargedFlow a.2 == s.chargedFlow b.2
  | 4 => (s.chargedTen a.2).isSome && s.chargedTen a.2 == s.chargedTen b.2
  | n => decide (5 ≤ n)

/-- Of events with the widest action first, those whose action is taken (R443). -/
def State.widest (s : State) (l : List (Nat × Nat × Charge)) : List (Nat × Nat × Charge) :=
  l.foldl (fun kept b => if kept.any (fun a => s.covers (a.1, a.2.2) (b.1, b.2.2)) then kept else kept ++ [b]) []

/-- Take what the collector has of this step: every event is counted and captured, then the actions are taken, the
widest first, and a narrower one only for a scope that no wider one covers (R443). -/
def State.processRaised (s : State) : State :=
  if s.raised.isEmpty then s
  else
    let evs := s.raised
    let (s, acts) := evs.foldl (fun (x : State × List (Nat × Nat × Charge)) e =>
      let (s, level) := x.1.countEvent e.1
      if level = 0 then (s, x.2) else (s.capture e.1 e.2 level, x.2 ++ [(level, e.1, e.2.charge)])) ({ s with raised := [] }, [])
    (s.widest (sortBy (fun a : Nat × Nat × Charge => [5 - a.1]) acts)).foldl (fun (s : State) a => s.act a.2.1 a.2.2 a.1) s

/-! ### Fences, spares and suspension (R104, R456 to R458) -/

/-- Units that a server has now. -/
def State.unitsNow (s : State) (v : Nat) : Nat :=
  serverUnits s.forme v -
    (if v < 0x20 then (s.fencedLanes.filter (fun i => match s.forme.lanes[i]? with
        | some l => l.role != 0 && l.group == v | none => false)).length
     else if v = 0x22 ∨ v = 0x23 then (s.fencedEngines.filter (fun i => s.forme.engines.getD i 0 == v - 0x21)).length
     else (s.fencedUnits.filter (fun u => match u with
        | .search _ => v == 0x24 | .parser _ => v == 0x21 | .tokeniser _ => v == 0x25 | _ => false)).length)

/-- Suspend a deadline flow (R458): its tasks complete with ABORTED_FAULT, and new ones do so when they are taken. -/
def State.suspend (s : State) (fe : FlowEntry) : State :=
  let s := (s.stopFlow fe).modRun fe.flow (fun r => { r with suspended := true })
  s.tenFault fe.ten F.TEN_FLT_SUSPENDED

/-- The flows that the Lockkeeper still counts at the servers, with the units that are left. -/
def State.takenLive (s : State) : List Taken :=
  (takenNow s.forme s.unitsNow (s.fld F.LKP_ADMIT_CFG_PSTATE_LIVE) s.adm).filter (fun t => !(s.run t.fl.flow).suspended)

/-- Repeat the test of R93 for a server whose n fell: deadline flows on it are dropped, latest in flow-table order
first, until it passes. -/
def State.recheckServer (v : Nat) : Nat → State → State
  | 0, s => s
  | n + 1, s =>
    let ts := s.takenLive
    let on := ts.filter (fun t => t.fl.deadline && (t.at v).isSome)
    if serverPasses (serverSum s.forme (s.fld F.LKP_ADMIT_CFG_PSTATE_LIVE) ts v) && (on.isEmpty || decide (0 < s.unitsNow v)) then s
    else match on.getLast? with
      | some t => State.recheckServer v n (s.suspend t.fl)
      | none => s

/-- The Lockkeeper after a server lost a unit. -/
def State.lostUnit (s : State) (v : Nat) : State := s.recheckServer v s.forme.flows.length

/-- Write FLT_FENCE (R457, R468). The time that a re-imposition takes is only bounded: it is a free value. -/
def State.noteFence (s : State) (unit kind : Nat) (spare : Bool) : State :=
  let (n, s) := s.nextFree
  s.setFlds [(F.FLT_FENCE_UNIT, unit), (F.FLT_FENCE_KIND, kind), (F.FLT_FENCE_SPARE_TAKEN, b2n spare),
    (F.FLT_FENCE_REIMPOSE_US, if spare then Config.duration n % 1913 else 0)]

/-- Fence a logical lane. A spare is a good lane that the forme leaves unpowered. -/
def State.fenceLane (s : State) (i : Nat) : State :=
  if 144 ≤ i ∨ s.lanesGood = 0 ∨ s.fencedLanes.contains i then s
  else
    let s := { s with lanesGood := s.lanesGood - 1 }.incFld F.FLT_STATUS_LANES_FENCED
    match s.forme.lanes[i]? with
    | some l =>
      if l.role = 0 then s.noteFence i 1 false
      else if activeLanes s.forme ≤ s.lanesGood then s.noteFence i 1 true
      else ({ s with fencedLanes := s.fencedLanes ++ [i] }.noteFence i 1 false).lostUnit l.group
    | none => s.noteFence i 1 false

/-- Fence an entropy engine. -/
def State.fenceEngine (s : State) (i : Nat) : State :=
  if 52 ≤ i ∨ s.entropyGood = 0 ∨ s.fencedEngines.contains i then s
  else
    let s := { s with entropyGood := s.entropyGood - 1 }.incFld F.FLT_STATUS_ENGINES_FENCED
    let dir := s.forme.engines.getD i 0
    if dir = 0 then s.noteFence i 2 false
    else if assignedEngines s.forme ≤ s.entropyGood then s.noteFence i 2 true
    else ({ s with fencedEngines := s.fencedEngines ++ [i] }.noteFence i 2 false).lostUnit (0x21 + dir)

/-- Fence a unit that has no spares. -/
def State.fenceOther (s : State) (u : FenceUnit) (i n v : Nat) : State :=
  if n ≤ i ∨ s.fencedUnits.any (fun x => x == u) then s
  else (({ s with fencedUnits := s.fencedUnits ++ [u] }.incFld F.FLT_STATUS_UNITS_FENCED).noteFence i 3 false).lostUnit v

/-- Fence a unit (R456). -/
def State.fence (s : State) (u : FenceUnit) : State :=
  match u with
  | .lane i => s.fenceLane i
  | .engine i => s.fenceEngine i
  | .search i => s.fenceOther u i 32 0x24
  | .parser i => s.fenceOther u i 16 0x21
  | .tokeniser i => s.fenceOther u i 4 0x25
  | .port i => if i < 16 then s.fencePort i else s

/-! ### Events from outside (R437, R439) -/

/-- The local handling of R437, which runs at every severity. A bad header ends its task (R39), and so does a draw that Riffle cannot
return (R337). -/
def State.localHandling (s : State) (src : Nat) (i : FaultInfo) : State :=
  if src = 0x21 ∨ src = 0x22 ∨ src = 0x23 ∨ src = 0x24 ∨ src = 0x2F then
    (match i.unit with | some u => s.fence u | none => s)
  else if src = 0x29 then s.incFld F.STN_CHASE_STATUS_PARITY
  else if src = 0x02 ∨ src = 0x0B ∨ src = 0x30 then (match i.charge with | .task id => s.faultStop id | _ => s)
  else s.ptcLocal src

/-- A fault source reports an event. A link error fences its port, which raises the event itself. -/
def State.faultEvent (s : State) (src : Nat) (i : FaultInfo) : State :=
  if (fltDefaults src).isNone then s
  else match src, i.unit with
    | 0x2A, some (.port p) => if p < 16 ∧ !s.portFenced p then s.fencePort p else s.raise src i
    | _, _ => (s.localHandling src i).raise src i

/-- A source's pair is in rail fault: RAIL is raised with the source in its syndrome, and the pair is ignored. -/
def State.railFault (s : State) (src : Nat) (i : FaultInfo) : State :=
  if (fltDefaults src).isNone ∨ (s.srcRun src).rail then s
  else
    let s := (s.setSrc { s.srcRun src with rail := true }).incFld F.FLT_STATUS_RAIL_FAULTS
    let i := { i with synd := BitVec.ofNat 32 src }
    (s.localHandling 0x2F i).raise 0x2F i

/-- The pair reads 0b01 again for 16 cycles. -/
def State.railEnd (s : State) (src : Nat) : State :=
  if (s.srcRun src).rail then s.setSrc { s.srcRun src with rail := false } else s

/-- A piece has made no progress for 1 ms: it is stopped (R437). -/
def State.watchdog (s : State) (id : Nat) : State :=
  match s.task? id with
  | some t => if s.active ∧ t.phase = .ready ∧ !t.stopping then (s.raiseOn 0x30 (.task id)).faultStop id else s
  | none => s

/-! ### What every command ends with -/

/-- Tasks, Delta and delivery units move along as far as they go. -/
def State.moveAll (s : State) : State := if s.active then s.settleStations.deltaSettle.startUnits.pumpMovers else s

/-- A command's effect is complete: events are counted and acted on, work moves along, and events that this raises are
acted on in turn. -/
def State.settle (s : State) : State :=
  (s.processRaised.moveAll.processRaised.moveAll.processRaised.processRaised).recheckPools.refreshBerths

end Sys2Proof.Machine
end

