-- ==== Sys2Proof/Machine/Commit.lean ====
section
/-! DEFINITION. Commit regions: capture, pairing rules, and the step in which captured values become live (R71 to R73,
R123, R180, R518), and the settings that retained memory holds (R488, R519). -/

namespace Sys2Proof.Machine

/-! ### Settings in retained memory -/

/-- The registers whose settings part 2 of retained memory holds (R519). -/
def settingRows : List RegRow :=
  [Row.FRM_QUOIN_TIMEOUT, Row.LKP_ADMIT_CFG, Row.LKP_BERTH_CFG, Row.RSV_CFG, Row.RSV_POOL_THR, Row.STN_CASE_CFG,
   Row.STN_PLT_CFG, Row.STN_TRIM_CFG, Row.STN_DLT_CFG, Row.STN_DLT_STAGGER, Row.STN_DLT_GROUP_A, Row.STN_DLT_GROUP_B,
   Row.RFL_EPOCH, Row.WEIR_CFG, Row.PTC_CTRL, Row.PTC_EST_CFG, Row.PTC_COMP_CFG, Row.FLT_IRQ]

/-- Is the register at an offset one of them? -/
def isSetting (off : Nat) : Bool := settingRows.any (fun r => (r.index? off).isSome)

/-- Write the settings now in force into part 2. -/
def State.saveSettings (s : State) : State :=
  { s with retained := { s.retained with part2 := some (s.regs.filter (fun e => isSetting e.1)) } }

/-! ### Regions (R518) -/

/-- The RWS registers of a region. -/
def regionRegs : Region → List Nat
  | .page t => (List.range 64).flatMap (fun i => [(F.TEN_WIN_BASE_BASE t.val i).off, (F.TEN_WIN_LIMIT_LIMIT t.val i).off])
  | .reservoir => (List.range 32).map (fun p => (F.RSV_POOL_THR_WARN p).off)
  | .platen => [Row.STN_PLT_CFG.base]
  | .trim => [Row.STN_TRIM_CFG.base]
  | .delta => [Row.STN_DLT_CFG.base, Row.STN_DLT_STAGGER.base, Row.STN_DLT_GROUP_A.base, Row.STN_DLT_GROUP_B.base]
  | .ptc => [Row.PTC_CTRL.base, Row.PTC_EST_CFG.base, Row.PTC_COMP_CFG.base]

/-- Offset of a region's COMMIT register; its COMMIT_STATUS follows it. -/
def commitOff : Region → Nat
  | .page t => pageOff t.val Row.TEN_COMMIT
  | .reservoir => Row.RSV_COMMIT.base
  | .platen => Row.STN_PLT_COMMIT.base
  | .trim => Row.STN_TRIM_COMMIT.base
  | .delta => Row.STN_DLT_COMMIT.base
  | .ptc => Row.PTC_COMMIT.base

/-- A field of a region's COMMIT_STATUS (R73). -/
def commitField (r : Region) (lo width : Nat) : Field := ⟨commitOff r + 8, lo, width⟩

/-- Does a region serve a station, so that a commit waits for the moment between two of its tasks? -/
def regionWaits : Region → Bool
  | .platen => true
  | .trim => true
  | .delta => true
  | _ => false

/-! ### Pairing rules -/

/-- Number of the first rule that does not hold: (number, holds). -/
def firstFailing (l : List (Nat × Bool)) : Option Nat := (l.find? (fun x => !x.2)).map (·.1)

/-- A field of captured values. -/
def capFld (c : RegFile) (f : Field) : Nat := f.of (c.get f.off)

/-- The first pairing rule that captured values break: R123, R180, and the rules of the Delta slot and of PTC. -/
def State.brokenRule (s : State) (c : RegFile) : Region → Option Nat
  | .page t => firstFailing ((List.range 64).flatMap (fun i =>
      if capFld c (F.TEN_WIN_BASE_ENABLE t.val i) = 0 then [] else
        [(1 + 2 * i, decide (capFld c (F.TEN_WIN_BASE_BASE t.val i) ≤ capFld c (F.TEN_WIN_LIMIT_LIMIT t.val i))),
         (2 + 2 * i, capFld c (F.TEN_WIN_BASE_READ t.val i) != 0 || capFld c (F.TEN_WIN_BASE_WRITE t.val i) != 0)]))
  | .reservoir => firstFailing ((List.range 32).flatMap (fun i =>
      if (s.pool? i).isNone then [] else
        [(1 + 3 * i, decide (capFld c (F.RSV_POOL_THR_WARN i) ≤ capFld c (F.RSV_POOL_THR_THROTTLE i))),
         (2 + 3 * i, decide (capFld c (F.RSV_POOL_THR_THROTTLE i) ≤ capFld c (F.RSV_POOL_THR_STOP i))),
         (3 + 3 * i, decide (capFld c (F.RSV_POOL_THR_HYST i) < capFld c (F.RSV_POOL_THR_WARN i)))]))
  | .platen => none
  | .trim => none
  | .delta =>
    let g := capFld c F.STN_DLT_STAGGER_GROUPS
    let a := c.get Row.STN_DLT_GROUP_A.base
    let b := c.get Row.STN_DLT_GROUP_B.base
    firstFailing ((1, decide (1 ≤ g ∧ g ≤ 8)) :: (List.range 32).map (fun d =>
      (2 + d, decide ((if d < 16 then getBits a (3 * d) 3 else getBits b (3 * (d - 16)) 3) < g))))
  | .ptc => firstFailing [
      (1, capFld c F.PTC_CTRL_STEADY == 0 ||
        decide (1 ≤ capFld c F.PTC_CTRL_STEADY_STATE ∧ capFld c F.PTC_CTRL_STEADY_STATE ≤ 4)),
      (2, capFld c F.PTC_EST_CFG_WINDOW_US % 10 == 0),
      (3, decide (capFld c F.PTC_EST_CFG_WINDOW_US ≤ capFld c F.PTC_EST_CFG_AGREE_MS * 1000))]

/-! ### Capture and application -/

/-- What a region's shadows hold. -/
def State.captured (s : State) (r : Region) : RegFile := s.shadow.filter (fun e => (regionRegs r).contains e.1)

/-- A commit ends with a result and the number of the rule that failed, 0 for none: SEQ counts it (R73). -/
def State.endCommit (s : State) (r : Region) (result rule : Nat) : State :=
  s.setFlds [(commitField r 0 1, 0), (commitField r 1 2, result), (commitField r 8 8, rule),
    (commitField r 16 16, s.fld (commitField r 16 16) + 1)]

/-- What follows when a region's values become live: pool conditions and PTC's ceilings are evaluated again. -/
def State.afterCommit (s : State) : Region → State
  | .reservoir => s.recheckPools
  | .ptc => s.settlePtc
  | _ => s

/-- Every captured value becomes live in one step (R71). -/
def State.makeLive (s : State) (r : Region) (c : RegFile) : State :=
  let s := (regionRegs r).foldl (fun (s : State) o => s.setReg o (c.get o)) s
  ((s.endCommit r 1 0).afterCommit r).saveSettings

/-- A GO: nothing but OVERRUN while the last commit is pending; else the shadows are captured and the rules checked
(R71, R72). -/
def State.commitGo (s : State) (r : Region) : State :=
  if s.flag (commitField r 0 1) then s.setFld (commitField r 3 1) 1
  else
    let c := s.captured r
    match s.brokenRule c r with
    | some n => s.endCommit r 2 n
    | none =>
      if regionWaits r then { s with captures := s.captures ++ [Capture.mk r c] }.setFld (commitField r 0 1) 1
      else s.makeLive r c

/-- Is this a moment between two tasks of the station that a region serves (R71), for Platen between two frames (R233)? A task
inside keeps the values that it started with: Task.cfg and DecPlan.cutNow at Platen and Trim, its own copies at Delta. -/
def State.betweenTasks (s : State) (r : Region) : Bool :=
  let inside (st : Nat) : Bool := s.tasks.any (fun t => t.phase == .ready && t.entered && s.stationOf t == st)
  match r with
  | .platen => !(s.tasks.any (fun t => t.dec.any (·.reading)))
  | .trim => !inside 6
  | _ => true

/-- Apply the capture of a region, if there is one. -/
def State.applyCapture (s : State) (r : Region) : State :=
  match s.captures.find? (fun c => c.region == r) with
  | some c => { s with captures := s.captures.filter (fun x => x.region != r) }.makeLive r c.regs
  | none => s

/-- A captured commit becomes live between two tasks of its station. -/
def State.commitApply (s : State) (r : Region) : State :=
  if s.active ∧ s.betweenTasks r then s.applyCapture r else s

/-- Every captured commit becomes live (R65). -/
def State.applyCaptures (s : State) : State := (s.captures.map (·.region)).foldl State.applyCapture s

end Sys2Proof.Machine
end

