-- ==== Sys2Proof/Machine/FormePort.lean ====
section
/-! DEFINITION. The forme port: a lock-up or amendment from the write of FRM_CTRL.OP to its quoin point, cancellation,
and the retained copy (R56 to R76, R80 to R84, R193, R373, R485). -/

namespace Sys2Proof.Machine

/-! ### Attempts (R57, R62, R82, R83) -/

/-- GLB_STATUS.LOCKUP_BUSY. A takeover, and the quoin of a forme reload, keep the forme port busy too (R465). -/
def State.lockupBusy (s : State) : Bool := s.job.isSome || s.tko.isSome

/-- An OP write while LOCKUP_BUSY is 1 (R62). -/
def State.rejectBusy (s : State) : State := if s.lockupBusy then s.setFld F.FRM_STATUS_BUSY_REJECT 1 else s

/-- An attempt ends with a RESULT; SEQ counts it (R82). -/
def State.endAttempt (s : State) (result : Nat) : State :=
  { s with job := none }.setFlds [(F.FRM_STATUS_PHASE, 0), (F.FRM_STATUS_RESULT, result),
    (F.FRM_STATUS_SEQ, s.fld F.FRM_STATUS_SEQ + 1)]

/-- Record a refusal in FRM_REFUSAL, and a failing server in LKP_REFUSAL (R83, R94, R107). -/
def State.recordRefusal (s : State) (r : RefusalRec) : State :=
  let s := s.setFlds [(F.FRM_REFUSAL_CODE, r.code), (F.FRM_REFUSAL_FLOW, (r.flow.map (·.1)).getD 0),
    (F.FRM_REFUSAL_TENANCY, (r.flow.map (·.2)).getD 0), (F.FRM_REFUSAL_STATION, r.station.getD 0),
    (F.FRM_REFUSAL_SECTION, r.section_), (F.FRM_REFUSAL_FLOW_VALID, b2n r.flow.isSome),
    (F.FRM_REFUSAL_STATION_VALID, b2n r.station.isSome), (F.FRM_REFUSAL_OFFSET, r.offset)]
  match r.server with
  | some (v, total) => s.setFlds [(F.LKP_REFUSAL_SERVER, v), (F.LKP_REFUSAL_TOTAL, total)]
  | none => s

/-- Refuse the attempt. -/
def State.refuse (s : State) (r : RefusalRec) : State := (s.recordRefusal r).endAttempt 2

/-- The refusal that a parse failure records. -/
def PErr.refusal (e : PErr) : RefusalRec := ⟨e.code, e.flow, e.station, e.sec, e.off, none⟩

/-! ### Verify (R46) -/

/-- A 384-bit number held in six registers, low word first. -/
def wordsOf (get : Nat → Nat) : Nat := sumL ((List.range 6).map (fun j => get j * 2 ^ (64 * j)))

/-- The public key in a guard key slot; none when the slot is empty. -/
def State.keySlot (s : State) (k : Nat) : Option (Nat × Nat) :=
  if k < 4 ∧ s.flag (F.GRD_KEY_STATUS_VALID k) then
    some (wordsOf (fun j => s.fld (F.GRD_KEY_KEY k j)), wordsOf (fun j => s.fld (F.GRD_KEY_KEY k (j + 6))))
  else none

/-- Does the signature of a parsed image verify? -/
def State.verifies (s : State) (p : Parsed) : Bool :=
  match s.keySlot p.key with
  | some (x, y) => ecdsaVerify p.hash p.rs.1 p.rs.2 x y
  | none => false

/-! ### Parse to reserve -/

/-- What the parse phase knows. -/
def State.parseCtx (s : State) (amend : Bool) (f : Fetch) : PCtx :=
  { amend := amend, areas := s.namedAreas.1.isSome && s.namedAreas.2.isSome, live := s.forme, count := s.amends,
    fetch := f, src := s.fld F.FRM_SRC_ADDR_ADDR }

/-- The job that an admitted forme becomes. -/
def State.newJob (s : State) (kind : JobKind) (phase : Nat) (f : Forme) (ts : List Taken) (ps : Nat)
    (removed added : List Nat) : Job :=
  { kind := kind, phase := phase, forme := f, adm := flowAdms f ts, servers := serverAdms f ps ts, removed := removed,
    added := added, pstate := ps,
    claimed := (f.claims.filter (fun c => added.contains c.flow && c.reserve != 0)).map (fun c => (c.flow, c.pool, 0)),
    good := (s.lanesGood, s.entropyGood), started := s.now, fetch := [], cancelled := false }

/-- A job moves to its quoin phase: FRM_QUOIN_TIMEOUT starts (R60, R69). -/
def State.toQuoin (s : State) (j : Job) : State :=
  { s with job := some { j with phase := 5, started := s.now } }.setFld F.FRM_STATUS_PHASE 5

/-- Reserve: a full forme's reservations are claimed with the pools it rebuilds. An amendment claims unreserved blocks,
after the size check of R70. -/
def State.reserve (s : State) (j : Job) : State :=
  match j.kind with
  | .amend =>
    if 16515072 < j.forme.size then s.refuse ⟨0x08, none, none, 3, 0, none⟩
    else
      let s := { s with job := some { j with phase := 4 } }.setFld F.FRM_STATUS_PHASE 4
      s.forme.defs.foldl (fun (s : State) d => s.claimFree d.index) s
  | _ => s.toQuoin j

/-- A lock-up or an amendment from the write of OP to its quoin phase. RESULT keeps the last attempt's outcome until this one
has its own: R82 does not say that an OP write clears it. DESIGN CHOICE, log entry 78. -/
def State.attempt (s : State) (amend : Bool) (f : Fetch) : State :=
  if s.lockupBusy then s.setFld F.FRM_STATUS_BUSY_REJECT 1
  else match parseForme (s.parseCtx amend f) (s.fld F.FRM_SRC_SIZE_SIZE) with
    | .error e =>
      let s := match e.fetch with | some p => s.fetchFail f p.1 p.2 .instance_ 0 | none => s
      s.refuse e.refusal
    | .ok p =>
      if !s.verifies p then s.refuse ⟨0x07, none, none, 0, 0, none⟩
      else
        let removed := p.rems.map (·.flow)
        let added := p.forme.flows.map (·.flow)
        let m := if amend then mergeForme s.forme p.forme p.rems else p.forme.withSlots Forme.blank
        let ps := if amend then s.fld F.LKP_ADMIT_CFG_PSTATE_LIVE else max (s.fld F.LKP_ADMIT_CFG_PSTATE) s.allowed
        match admission m ps s.lanesGood s.entropyGood (!amend) with
        | .error r => s.refuse r
        | .ok ts => s.reserve (s.newJob (if amend then .amend else .full) 4 m ts ps removed added)

/-- What an attempt that ends had claimed is free again. -/
def State.releaseClaims (s : State) : State := s.forme.defs.foldl (fun (s : State) d => s.settlePool d.index) s

/-- A CANCEL write: it ends a host's attempt at once, or with its step 7 when that step runs (R62). -/
def State.cancelAttempt (s : State) : State :=
  match s.job with
  | some j =>
    if j.kind = .full ∨ j.kind = JobKind.amend then
      if j.phase = 5 then { s with job := some { j with cancelled := true } } else (s.endAttempt 3).releaseClaims
    else s
  | none => s

/-! ### The step in which a forme becomes live (R60, R65, R69) -/

/-- Complete a task with ABORTED_HOST, its entry due at once. -/
def State.abortTask (s : State) (id : Nat) : State :=
  match s.task? id with
  | none => s
  | some t =>
    let s := if t.delta.isSome then s.haltDelta id else s
    let s := s.stopTask id 0x31 true
    match s.task? id with
    | some t =>
      if s.due.any (fun d => d.task == some id) then s
      else { (s.modTask id (fun t => { t with readsOut := 0, writesOut := 0, phase := .ended })).freeTask id with
        due := s.due ++ [t.dueEntry s.now] }
    | none => s

/-- Complete every task that a test names with ABORTED_HOST. -/
def State.abortTasks (s : State) (p : Task → Bool) : State := ((s.tasks.filter p).map (·.id)).foldl State.abortTask s

/-- RFL_EPOCH of a flow that a quoin point admits takes its entry's value (R339). -/
def State.takeEpoch (s : State) (f : Nat) : State :=
  match s.riffle? f with
  | some r => s.setFld (F.RFL_EPOCH_EPOCH f) r.epoch
  | none => s

/-- Counters of a flow ID start at 0 with a new flow. -/
def State.freshCounters (s : State) (f : Nat) : State :=
  s.setFlds [(F.LKP_FLOW_B_LATE f, 0), (F.LKP_FLOW_B_OVERCLASS f, 0)]

/-- PEER_TOOK returns to 0 once no suspended flow is live (R485). -/
def State.clearPeerTook (s : State) : State :=
  if s.flows.any (·.suspended) then s else s.setFld F.GRD_CTRL_PEER_TOOK 0

/-- What every quoin point does last: the areas named by the guard come into force (R471), Weir's buckets are empty
(R406), the retained copy and its image are to be written (R76). -/
def State.quoined (s : State) : State :=
  let s := { s with
    ckptAreas := s.namedAreas, weir := { s.weir with bucket := List.replicate 16 0 }, retaining := true,
    retained := { s.retained with part1 := none } }
  s.clearPeerTook.saveSettings.setFlds [(F.FRM_STATUS_RETAIN_DONE, 0), (F.FRM_QUOIN_TIME_TIME, s.now)]

/-- Everything that belongs to the flows of a forme starts anew under another: contexts, groups, delivery units, pools,
berths. `old`: the forme before. -/
def State.freshStations (s : State) (old : Forme) : State :=
  let s := { s with
    flows := s.forme.flows.map (fun (fe : FlowEntry) => FlowRun.start s.forme.codecs fe.flow),
    groups := groupsOfForme s.forme, batches := [], weir := { s.weir with queue := [] } }
  (s.rebuildPools.quoinPorts old).quoinBerths (fun _ => false)

/-- The live forme is replaced whole (R60, R65). -/
def State.quoinFull (s : State) (j : Job) : State :=
  let s := (s.applyCaptures.abortTasks Task.isTask)
  let s := { s with tasks := s.tasks.filter Task.isTask }
  let old := s.forme
  let s := { s with
    forme := j.forme, amends := 0, adm := j.adm, servers := j.servers, fencedLanes := [], fencedEngines := [], taken := [],
    saved := [] }
  let s := s.supplyThresholds
  let s := s.freshStations old
  let s := s.forme.flows.foldl (fun (s : State) fe => (s.takeEpoch fe.flow).freshCounters fe.flow) s
  ((s.setFld F.LKP_ADMIT_CFG_PSTATE_LIVE j.pstate).quoined).endAttempt 1

/-- A removed flow is taken out of the running machine (R69, R177, R193, R373). What its running group assembles stays. -/
def State.removeFlow (s : State) (fe : FlowEntry) : State :=
  let s := s.abortTasks (fun t => t.flow == fe.flow && t.isTask)
  let gone (u : BatchOut) : Bool := u.flow == fe.flow && u.group.isNone
  let kept := (s.batches.filter (fun u => !gone u)).filterMap (·.holder)
  let s := ((s.tasks.filter (fun t => t.flow == fe.flow && !t.isTask && !kept.contains t.id)).map (·.id)).foldl State.retire s
  let s := s.freeReserve fe.flow (s.run fe.flow).gal.reserve
  let s := (s.releaseHandles fe.flow).dropPort fe
  let s := match fe.galley with
    | some g => if g.mode = 1 then s.modMember g.group fe.flow (fun m => { m with leave := true }) else s
    | none => s
  { s with
    flows := s.flows.filter (fun r => r.flow != fe.flow), batches := s.batches.filter (fun u => !gone u),
    saved := s.saved.filter (fun x => x.2.flow != fe.flow), taken := s.taken.filter (· != fe.flow) }

/-- Groups after an amendment: new groups, and new members of the groups that run. -/
def joinGroups (old new : List GroupRun) : List GroupRun :=
  old.map (fun x => match new.find? (fun y => y.group == x.group) with
    | some y => { x with members := x.members ++ y.members.filter (fun m => !x.members.any (fun n => n.flow == m.flow)) }
    | none => x) ++ new.filter (fun y => !old.any (fun x => x.group == y.group))

/-- The groups of the live forme after an amendment. A step's batch whose flow was removed goes on under the lowest member that is left;
a group without a member is gone, with what it held (R369, R373). -/
def State.mendGroups (s : State) : State :=
  let live := groupsOfForme s.forme
  let lead (g : Nat) : Option Nat := (live.find? (fun x => x.group == g)).bind (fun x => x.sorted.head?.map (·.flow))
  let s := s.batches.foldl (fun (s : State) u => match u.group with
    | some g =>
      if (s.flow? u.flow).isSome then s
      else match lead g with
        | some f => s.modUnit u.key (fun u => { u with flow := f })
        | none => s.dropUnit u
    | none => s) s
  let s := (s.groups.filter (fun x => (lead x.group).isNone)).foldl (fun (s : State) x => x.members.foldl State.freeMember s) s
  { s with groups := joinGroups (s.groups.filter (fun x => (lead x.group).isSome)) live }

/-- Added flows begin: contexts, ports, groups, epochs, counters. -/
def State.beginFlow (s : State) (fe : FlowEntry) : State :=
  let s := { s with
    flows := s.flows ++ [FlowRun.start s.forme.codecs fe.flow],
    ports := s.ports ++ (match fe.live with | some b => [PortRun.fresh b.port] | none => []) }
  (s.takeEpoch fe.flow).freshCounters fe.flow

/-- Servers that have lost units are tested again (R104). -/
def State.recheckAll (s : State) : State :=
  (List.range 0x29).foldl (fun (s : State) v => if s.unitsNow v < serverUnits s.forme v then s.lostUnit v else s) s

/-- An amendment, or a takeover, becomes live: only removed flows are touched (R69). -/
def State.quoinAmend (s : State) (j : Job) : State :=
  let s := s.applyCaptures
  let gone := s.forme.flows.filter (fun fe => j.removed.contains fe.flow)
  let s := gone.foldl State.removeFlow s
  let s := { s with
    forme := j.forme, amends := min 65535 (s.amends + 1), adm := j.adm, servers := j.servers, job := none }
  let s := (s.forme.flows.filter (fun fe => j.added.contains fe.flow)).foldl State.beginFlow s
  let s := s.mendGroups
  let s := s.quoinBerths (fun f => !j.added.contains f && s.forme.flows.any (fun fe => fe.flow == f))
  s.releaseClaims.quoined

/-- LANES_GOOD or ENTROPY_GOOD fell since admission and the spare check fails at step 8 (R64). -/
def State.sparesGone (s : State) (j : Job) : Bool :=
  (decide (s.lanesGood < j.good.1) || decide (s.entropyGood < j.good.2)) && !spareOk j.forme s.lanesGood s.entropyGood

/-- Step 8 of a lock-up or amendment. -/
def State.step8 (s : State) (j : Job) : State :=
  if s.sparesGone j then (s.refuse (refusal 0x05 none none 2)).releaseClaims
  else match j.kind with
    | .amend => (s.quoinAmend j).endAttempt 1
    | _ => s.quoinFull j

/-- Does a task of the flows that a quoin drains run? -/
def State.draining (s : State) (j : Job) : Bool :=
  match j.kind with
  | .amend => s.tasks.any (fun t => t.isTask && j.removed.contains t.flow)
  | _ => s.tasks.any Task.isTask

/-! ### Reservations of an amendment (R68) -/

/-- The blocks that a claim of the job's forme needs. -/
def Job.needs (j : Job) (c : Nat × Nat × Nat) : Nat :=
  ((j.forme.claims.find? (fun q => q.flow == c.1 && q.pool == c.2.1)).map (·.reserve)).getD 0

/-- Is every added flow's reservation fully held? -/
def Job.held (j : Job) : Bool := j.claimed.all (fun c => decide (j.needs c ≤ c.2.2))

/-- The claims of one flow that are not fully held, in the order of their entries. -/
def Job.short (j : Job) (f : Nat) : List PoolClaim :=
  j.forme.claims.filter (fun c => c.flow == f && j.claimed.any (fun x => x.1 == f && x.2.1 == c.pool && decide (x.2.2 < c.reserve)))

/-- The refusal of R68: the first added flow whose reservations are not all held, and its first claim that is not. -/
def Job.shortRefusal (j : Job) : RefusalRec :=
  match j.added.find? (fun f => !(j.short f).isEmpty) with
  | some f =>
    let ten := ((j.forme.flows.find? (fun fe => fe.flow == f)).map (·.ten)).getD 0
    ⟨0x06, some (f, ten), none, 5, ((j.short f).head?.map (·.off)).getD 0, none⟩
  | none => ⟨0x06, none, none, 5, 0, none⟩

/-- FRM_QUOIN_TIMEOUT in ns. -/
def State.quoinTimeoutNs (s : State) : Nat := s.fld F.FRM_QUOIN_TIMEOUT_US * 1000

/-- FRM_QUOIN_TIMEOUT expires during step 6 of an amendment: it is refused, and what it claimed is free again. -/
def State.claimTimeout (s : State) : State :=
  match s.job with
  | some j =>
    if j.kind = .amend ∧ j.phase = 4 ∧ !j.held then
      ((s.advance (j.started + s.quoinTimeoutNs)).refuse j.shortRefusal).releaseClaims
    else s
  | none => s

/-! ### The retained copy (R76) -/

/-- The retained copy of the live forme is complete, CRC last, and the takeover image follows. -/
def State.retainDone (s : State) : State :=
  if s.active ∧ s.retaining then
    { s with
      retaining := false,
      retained := { s.retained with part1 := some (s.forme, s.amends, s.fld F.LKP_ADMIT_CFG_PSTATE_LIVE) } }.writeImages.setFld
      F.FRM_STATUS_RETAIN_DONE 1
  else s

end Sys2Proof.Machine
end

