-- ==== Sys2Proof/Machine/Restore.lean ====
section
/-! DEFINITION. The restore of the retained forme at a warm start and at a forme reload (R77, R340, R345, R453, R484 steps
7 to 9, R485, R487, R488, R519). -/

namespace Sys2Proof.Machine

/-- The flows of a forme as admission takes them, with their local deadlines worked out anew (R92). -/
def takenFresh (f : Forme) (ps : Nat) : List Taken :=
  f.flows.map (fun fl =>
    let cs := flowCosts f (serverUnits f) fl ps
    ⟨fl, cs, if fl.deadline then localsOf fl cs else []⟩)

/-- A Riffle table fetched again from its address; none when the fetch or its CRC fails (R340). -/
def RflTable.again (t : RflTable) (f : Fetch) : Option RflTable :=
  (fetchBytes f t.addr 16384).bind (fun d =>
    if crc32c d = t.crc.toNat then some { t with values := tableValues d } else none)

/-- A tokeniser image fetched and checked again; none when a check fails (R345). -/
def TokImage.again (im : TokImage) (f : Fetch) : Option TokImage :=
  (fetchBytes f im.addr im.size).bind (fun d =>
    match parseImage im.addr im.size im.crc.toNat d (fmtErr 3 0) with
    | .ok x => some x
    | .error _ => none)

/-- Apply a partial map to every element; none when one fails. -/
def allSome {α : Type} (g : α → Option α) : List α → Option (List α)
  | [] => some []
  | x :: rest => match g x, allSome g rest with
    | some y, some ys => some (y :: ys)
    | _, _ => none

/-- The first fetch of a forme's tables and images that failed. -/
def unanswered (forme : Forme) (f : Fetch) : Option (Nat × Nat) :=
  (forme.tables.map (fun (t : RflTable) => (t.addr, 16384)) ++ forme.images.map (fun (t : TokImage) => (t.addr, t.size))).find?
    (fun q => (fetchBytes f q.1 q.2).isNone)

/-- The forme as a restore finds it: the spare check is repeated (R77), then tables and images are fetched and checked. The
refusal is what FRM_REFUSAL then records. -/
def State.restorable (s : State) (forme : Forme) (f : Fetch) : Except RefusalRec Forme :=
  if !spareOk forme s.lanesGood s.entropyGood then .error (refusal 0x05 none none 2)
  else match allSome (fun t => RflTable.again t f) forme.tables with
    | none => .error ⟨0x08, none, none, 7, 0, none⟩
    | some ts => match allSome (fun t => TokImage.again t f) forme.images with
      | none => .error ⟨0x08, none, none, 3, 0, none⟩
      | some ims => .ok { forme with tables := ts, images := ims }

/-- A forme becomes live with nothing running: admission's figures, groups, pools, ports and berths are made anew (R177,
R519). Flow contexts are those of the quoin point. -/
def State.putLive (s : State) (forme : Forme) (amends ps : Nat) : State :=
  let old := s.forme
  let ts := takenFresh forme ps
  let s := { s with
    forme := forme, amends := amends, adm := flowAdms forme ts, servers := serverAdms forme ps ts, fencedLanes := [],
    fencedEngines := [] }
  (s.freshStations old).setFld F.LKP_ADMIT_CFG_PSTATE_LIVE ps

/-- The blank forme becomes live (R74). -/
def State.putBlank (s : State) : State :=
  { s.putLive Forme.blank 0 1 with taken := [], saved := [] }

/-- One flow of the restored forme: its contexts come from their checkpoints (R453). It stays suspended if it was, and is
suspended if the peer holds it (R485). -/
def State.resume (s : State) (old : List FlowRun) (f : Fetch) (fe : FlowEntry) : State :=
  let was := (old.find? (fun r => r.flow == fe.flow)).getD (FlowRun.start s.forme.codecs fe.flow)
  let held := fe.protected_ && s.flag F.GRD_CTRL_PEER_TOOK
  let s := s.modRun fe.flow (fun r => { r with
    suspended := was.suspended || held, ckptSeq := was.ckptSeq, degraded := was.degraded, older := was.older })
  let s := if was.suspended ∨ held then s.tenFault fe.ten F.TEN_FLT_SUSPENDED else s
  s.restoreFlow fe (some f) false

/-- Restore the retained forme. With part 1 invalid the blank forme is live. -/
def State.restoreForme (s : State) (f : Fetch) : State :=
  match s.retained.part1 with
  | none => s.putBlank
  | some (forme, amends, ps) =>
    let s := match unanswered forme f with | some q => s.fetchFail f q.1 q.2 .instance_ 0 | none => s
    match s.restorable forme f with
    | .error r => (s.putBlank.recordRefusal r).setFld F.FRM_STATUS_RESTORE_FAIL 1
    | .ok forme =>
      let old := s.flows
      let s := s.putLive forme amends ps
      let s := { s with taken := s.taken.filter (fun x => forme.flows.any (fun fe => fe.flow == x)) }
      let s := s.forme.flows.foldl (fun (s : State) fe => s.resume old f fe) s
      s.setFld F.FRM_STATUS_RESTORE_FAIL 0

/-- The parts of retained memory whose CRC fails are reported, each with its number in the syndrome (R488). -/
def State.checkParts (s : State) : State :=
  let bad (s : State) (n : Nat) : State := s.raise 0x2E { FaultInfo.of .instance_ with synd := BitVec.ofNat 32 n }
  let s := if s.retained.part1.isNone then bad s 1 else s
  let s := if s.retained.part2.isNone then bad s 2 else s
  if s.retained.part3.isNone then bad s 3 else s

/-- The settings of part 2, in the live and the shadow copies (R519). With part 2 invalid the fields have their Reset values,
and a defined pool's thresholds those of its definition. A value for a pool that the live forme lacks reads 0. -/
def State.restoreSettings (s : State) : State :=
  match s.retained.part2 with
  | none => s.supplyThresholds
  | some l =>
    let keep (o : Nat) : Bool := match (List.range 32).find? (fun p => (F.RSV_POOL_THR_WARN p).off == o) with
      | some p => (s.pool? p).isSome
      | none => true
    l.foldl (fun (s : State) e => if keep e.1 then { s with regs := s.regs.set e.1 e.2, shadow := s.shadow.set e.1 e.2 } else s) s

/-- The settings of part 2, with the pools of the retained forme: thresholds must stand before its pools are rebuilt. -/
def State.restoreAll (s : State) : State :=
  let live := s.forme
  let fm := match s.retained.part1 with | some p => p.1 | none => Forme.blank
  { ({ s with forme := fm } : State).restoreSettings with forme := live }

/-- The quoin point of a forme reload: what runs is dropped as by a full lock-up, and the live forme is rebuilt from retained
memory (R487). -/
def State.finishReload (s : State) (j : Job) : State :=
  let s := s.applyCaptures.abortTasks Task.isTask
  let s := { s with tasks := s.tasks.filter Task.isTask, job := none, ckptAreas := s.namedAreas, weir := { s.weir with bucket := List.replicate 16 0 } }
  let s := if s.retained.part1.isNone then s.raise 0x2E { FaultInfo.of .instance_ with synd := 1 } else s
  let s := s.restoreAll.restoreForme j.fetch
  let s := if s.retained.part1.isNone then s.setFld F.FRM_STATUS_RESTORE_FAIL 1 else s
  s.setFlds [(F.FRM_STATUS_PHASE, 0), (F.FRM_QUOIN_TIME_TIME, s.now)]

end Sys2Proof.Machine
end

