-- ==== Sys2Proof/Machine/Takeover.lean ====
section
/-! DEFINITION. Takeover of the peer's protected flows: the peer's checkpoint area, re-admission, contexts, and the
ABORTED_TAKEOVER entries (R30, R63, R453, R459 to R465). -/

namespace Sys2Proof.Config

/-- The context that the 4,096 bytes of a context record hold: the spec gives a context no layout (R452). -/
opaque contextOf : List Byte → Sys2Proof.Machine.FlowRun

end Sys2Proof.Config

namespace Sys2Proof.Machine

/-! ### The peer's areas (R451, R459 step 2) -/

/-- The peer's areas as the guard partition names them, A then B. -/
def State.peerAreas (s : State) : List Nat :=
  (if s.flag F.GRD_PEER_CKPT_A_EN then [s.fld F.GRD_PEER_CKPT_A_BASE * 2 ^ 30] else []) ++
  (if s.flag F.GRD_PEER_CKPT_B_EN then [s.fld F.GRD_PEER_CKPT_B_BASE * 2 ^ 30] else [])

/-- The header of an area, when its HEAD_CRC is valid. -/
def headerOf (f : Fetch) (a : Nat) : Option (List Byte) :=
  (fetchBytes f a 64).filter (fun d => fieldAt d 60 4 == crc32c (d.take 60) && fieldAt d 0 4 == 0x314B4348)

/-- The area with a valid header and the higher SEQ, A on a tie, with its header. -/
def State.peerHome (s : State) (f : Fetch) : Option (Nat × List Byte) :=
  (s.peerAreas.filterMap (fun a => (headerOf f a).map (fun d => (a, d)))).foldl
    (fun b x => match b with
      | some y => if fieldAt y.2 32 8 < fieldAt x.2 32 8 then some x else b
      | none => some x) none

/-- A flow of the takeover image as its flow table entry names it: ID, tenancy, CLASS, PERIOD_NS. -/
structure PeerFlow where
  flow   : Nat
  ten    : Nat
  cls    : Nat
  period : Nat
  deriving DecidableEq, Repr

/-- The flow table of the image, when it can be read and passes its CRC. -/
def peerTable (f : Fetch) (src : Nat) : List PeerFlow :=
  match fetchBytes f src 64 with
  | none => []
  | some h =>
    let n := min 8 (fieldAt h 6 2)
    match fetchBytes f (src + 64) (16 * n) with
    | none => []
    | some t =>
      match (List.range n).find? (fun i => byteAt t (16 * i) == 3) with
      | none => []
      | some i =>
        let off := fieldAt t (16 * i + 4) 4
        let len := min 16515072 (fieldAt t (16 * i + 8) 4)
        match fetchBytes f (src + off) len with
        | none => []
        | some d =>
          if crc32c d = fieldAt t (16 * i + 12) 4 then
            (entriesOf d (min 4096 (fieldAt d 4 4)) 64 0).map (fun e =>
              ⟨fieldAt e.2 0 2 % 4096, fieldAt e.2 0 2 / 4096, byteAt e.2 2, fieldAt e.2 24 4⟩)
          else []

/-- Order of re-admission (R460): deadline flows by PERIOD_NS and flow ID, then bulk flows by flow ID. -/
def PeerFlow.key (p : PeerFlow) : List Nat := if bit p.cls 0 then [0, p.period, p.flow] else [1, 0, p.flow]

/-- The protected flows of the image in the order of re-admission. -/
def protectedOf (l : List PeerFlow) : List PeerFlow := sortBy PeerFlow.key (l.filter (fun p => bit p.cls 1))

/-! ### Re-admission (R460, R461) -/

/-- What re-admission has taken so far: the forme it builds, the flows taken, the added IDs, the outcomes. -/
structure Readmit where
  forme   : Forme
  taken   : List Taken
  added   : List Nat
  entries : List (Nat × Nat × Nat × Nat)
  last    : Option RefusalRec
  deriving DecidableEq, Repr

/-- The survivor's group with the most lanes for a role, the lower index on a tie. -/
def bestGroup (f : Forme) (role : Nat) : Option Nat :=
  (((List.range 32).filter (fun g => groupRole f g == role)).foldl (fun (b : Option Nat) g =>
    match b with
    | some x => if laneCount f x < laneCount f g then some g else b
    | none => some g) none)

/-- Groups for the lane stations of a path; none when one has no group. -/
def groupsFor (f : Forme) (path : List Nat) : Option Nat :=
  path.foldl (fun (m : Option Nat) st =>
    match m with
    | none => none
    | some v => if laneRole st = 0 then some v else (bestGroup f (laneRole st)).map (fun g => v ||| 2 ^ g)) (some 0)

/-- UVERSION of a station's image; none for built-in microcode. -/
def uversion (f : Forme) (st : Nat) : Option Nat := (f.micro.find? (fun m => m.station == st)).map (·.uversion)

/-- Does the survivor have what every station of the flow's path needs (RESULT 6)? -/
def stationsFit (live peer : Forme) (fe : FlowEntry) : Bool :=
  (pathPairs fe.path).all (fun ab => live.segs.any (fun g => g.src == ab.1 && g.dst == ab.2)) &&
  (groupsFor live fe.path).isSome &&
  ((decOf peer.codecs fe.flow).isNone || live.engines.contains 1) &&
  ((encOf peer.codecs fe.flow).isNone || live.engines.contains 2) &&
  fe.path.all (fun st => uversion live st == uversion peer st)

/-- The forme with one flow of the peer merged into it (R460). -/
def addPeerFlow (f peer : Forme) (fe : FlowEntry) : Forme :=
  let m : Forme := { f with
    flows := f.flows ++ [fe], claims := f.claims ++ peer.claims.filter (fun c => c.flow == fe.flow),
    codecs := f.codecs ++ peer.codecs.filter (fun c => c.flow == fe.flow),
    riffles := f.riffles ++ peer.riffles.filter (fun c => c.flow == fe.flow),
    images := peer.images.foldl addImage f.images, tables := peer.tables.foldl addTable f.tables }
  let m := m.withSlots f
  { m with size := formeBytes m }

/-- Do the forme's images and tables have slots (R320, R344)? -/
def slotsFit (f : Forme) : Bool := decide (f.images.length ≤ 8) && decide (f.tables.length ≤ 16)

/-- Take one flow: its outcome, and the forme and flows so far. `peer`: the parsed image, none when it does not parse. -/
def State.readmitOne (s : State) (peer : Option Forme) (a : Readmit) (p : PeerFlow) : Readmit :=
  let out (result code : Nat) : Readmit := { a with entries := a.entries ++ [(p.flow, p.ten, result, code)] }
  if a.forme.flows.any (fun x => x.flow == p.flow) then out 2 0
  else match peer, peer.bind (fun q => q.flows.find? (fun x => x.flow == p.flow)) with
    | some q, some fe =>
      let t := s.tenEntry fe.ten
      if (match fe.live with
        | some b => a.forme.flows.any (fun x => match x.live with | some c => c.port == b.port | none => false)
        | none => false) then out 3 0
      else if !t.enabled ∨ t.hostFn ≠ (q.tens.getD fe.ten TenEntry.blank).hostFn then out 5 0
      else if !stationsFit s.forme q fe then out 6 0
      else
        let fe := { fe with groupMask := (groupsFor s.forme fe.path).getD 0 }
        let f := addPeerFlow a.forme q fe
        if 16515072 < f.size ∨ !slotsFit f then out 1 0x08
        else match admitOne f false (s.fld F.LKP_ADMIT_CFG_PSTATE_LIVE) f.flows a.taken fe with
          | .error r => { out 1 r.code with last := some r }
          | .ok ts => { forme := f, taken := ts, added := a.added ++ [fe.flow], entries := a.entries ++ [(p.flow, p.ten, 0, 0)], last := a.last }
    | _, _ => out 4 0

/-- Re-admission of every protected flow, one at a time (R459 step 3). -/
def State.readmit (s : State) (peer : Option Forme) (l : List PeerFlow) : Readmit :=
  let ps := s.fld F.LKP_ADMIT_CFG_PSTATE_LIVE
  l.foldl (s.readmitOne peer) ⟨s.forme, takenNow s.forme (serverUnits s.forme) ps s.adm, [], [], none⟩

/-! ### Outcomes in registers (R468, R469) -/

/-- No outcome of an earlier takeover stays. -/
def State.clearTko (s : State) : State :=
  { s with regs := s.regs.filter (fun e => !decide (0xB08000 ≤ e.1 ∧ e.1 < 0xB10000)) }.setFlds
    [(F.FLT_TKO_STATUS_ADMITTED, 0), (F.FLT_TKO_STATUS_REFUSED, 0), (F.FLT_TKO_STATUS_POSTED, 0),
     (F.FLT_TKO_STATUS_UNPOSTED, 0), (F.FLT_TKO_TIME_ELAPSED_US, 0)]

/-- Show the outcomes in re-admission order. -/
def State.showTko (s : State) (l : List (Nat × Nat × Nat × Nat)) : State :=
  let s := (l.zipIdx).foldl (fun (s : State) x =>
    let (e, i) := x
    s.setFlds [(F.FLT_TKO_ENTRY_FLOW i, e.1), (F.FLT_TKO_ENTRY_TENANCY i, e.2.1), (F.FLT_TKO_ENTRY_RESULT i, e.2.2.1),
      (F.FLT_TKO_ENTRY_CODE i, e.2.2.2), (F.FLT_TKO_ENTRY_VALID i, 1)]) s
  let n := (l.filter (fun e => e.2.2.1 == 0)).length
  s.setFlds [(F.FLT_TKO_STATUS_ADMITTED, n), (F.FLT_TKO_STATUS_REFUSED, l.length - n)]

/-! ### Contexts and entries (R453, R463) -/

/-- The copy of a context slot that a restore from the peer takes: a valid CRC and the highest SEQ, area A on a tie. -/
def State.peerCopy (s : State) (f : Fetch) (k : Nat) : Option (List Byte) :=
  ((s.peerAreas.filterMap (fun a => (fetchBytes f (ctxAddr a k) 4224).bind (fun d => (recordSeq d).map (fun q => (q, d))))).foldl
    (fun (b : Option (Nat × List Byte)) x => match b with
      | some y => if y.1 < x.1 then some x else b
      | none => some x) none).map (·.2)

/-- A slot of an admitted flow: its context, or CKPT_RESTORE. -/
def State.peerContext (s : State) (f : Fetch) (fe : FlowEntry) (k : Nat) : State × Option FlowRun :=
  let s := s.peerAreas.foldl (fun (s : State) a => s.lackAnswer f (ctxAddr a (65 * fe.flow + k)) 4224) s
  match s.peerCopy f (65 * fe.flow + k) with
  | some d => (s, some (Config.contextOf (d.take 4096)))
  | none => (s.raise 0x2D { FaultInfo.of (.flow fe.flow) with synd := BitVec.ofNat 32 (65 * fe.flow + k) }, none)

/-- Restore the contexts of an admitted flow from the peer's areas (R453, R464), and write them into the survivor's own. -/
def State.restorePeer (s : State) (f : Fetch) (fe : FlowEntry) : State :=
  let start := FlowRun.start s.forme.codecs fe.flow
  let (s, base) := s.peerContext f fe 0
  let (s, codec) := if s.forme.codecs.any (fun c => c.flow == fe.flow) then s.peerContext f fe 64 else (s, none)
  let (s, parts) := (List.range fe.partitions).foldl (fun (x : State × List RflPart) p =>
    let (s, r) := if p = 0 then (x.1, base) else x.1.peerContext f fe p
    (s, x.2 ++ (match r with | some r => (r.rfl.filter (fun q => q.part == p)).take 1 | none => []))) (s, [])
  let b := base.getD start
  let c := (codec.getD start).enc
  let s := s.setRun { b with
    flow := fe.flow, suspended := false, ckptSeq := 0, degraded := [], older := [], dec := start.dec, rfl := parts,
    enc := if codec.isSome then c.restored start.enc fe.periodNs s.now else start.enc, gal := b.gal.restored,
    dlt := { start.dlt with alt := b.dlt.alt, delivered := b.dlt.delivered } }
  { s with nextTask := s.nextTask + 1 }.checkpoint fe s.nextTask

/-- The journal records in flight with a valid CRC, in slot order. -/
def peerJournal (f : Fetch) (a : Nat) : List (List Byte) :=
  (List.range 4096).filterMap (fun i => (fetchBytes f (a + 4096 + 64 * i) 64).filter (fun d =>
    byteAt d 0 == 1 && fieldAt d 60 4 == crc32c (d.take 60)))

/-- Post ABORTED_TAKEOVER for one record, or count it. -/
def State.postTakenRecord (s : State) (d : List Byte) : State :=
  let ten := fieldAt d 2 2 / 4096
  let cq := s.fld (F.TEN_TKO_CQ_RING ten)
  let skip (s : State) : State := s.incFld F.FLT_TKO_STATUS_UNPOSTED
  if !(s.tenEntry ten).enabled ∨ !s.flag (F.TEN_TKO_CQ_EN ten) then skip s
  else match (s.cq? cq).filter (fun c => c.ten == ten) with
    | none => skip s
    | some c =>
      if c.full then skip (s.incFld (F.TEN_TKO_CQ_LOST ten))
      else
        (s.incFld F.FLT_TKO_STATUS_POSTED).writeEntry c
          { cq := cq, ten := ten, tag := BitVec.ofNat 64 (fieldAt d 8 8), ring := fieldAt d 4 4, flow := fieldAt d 2 2 % 4096,
            sqHead := 0, status := 0x32, outInvalid := true, live := bit (byteAt d 1) 0, detail := 0x80000000,
            irqNow := false, sample := 0, at_ := s.now, task := none, slot := none }

/-! ### The steps (R459) -/

/-- Steps 5 to 8: the admitted flows become live with their contexts, the entries are posted, and the takeover is done. -/
def State.finishTakeover (s : State) (k : TkoRun) (j : Job) : State :=
  let s := if j.added.isEmpty then { s with job := none } else
    let s := s.quoinAmend j
    let s := (s.forme.flows.filter (fun fe => j.added.contains fe.flow)).foldl (fun (s : State) fe => s.restorePeer j.fetch fe)
      { s with taken := s.taken ++ j.added }
    s.recheckAll
  let s := (s.showTko k.entries)
  let s := (peerJournal j.fetch k.area).foldl State.postTakenRecord s
  let s := { s with tko := none }.setFlds [(F.FLT_TKO_STATUS_STATE, 2),
    (F.FLT_TKO_TIME_ELAPSED_US, min (2 ^ 32 - 1) ((s.now - k.started) / 1000))]
  let tens := (k.entries.filter (fun e => e.2.2.1 == 0)).map (·.2.1)
  ((List.range 16).filter tens.contains).foldl (fun (s : State) t => s.tenFault t F.TEN_FLT_TAKEN) s

/-- Every claim is held: the takeover goes on. -/
def State.takeoverHeld (s : State) : State :=
  match s.tko, s.job with
  | some k, some j => if j.kind = .takeover ∧ j.held then s.finishTakeover k j else s
  | _, _ => s

/-- The takeover command. It ends a host's lock-up or amendment (R63); a second one is ignored and raises GUARD_PORT
(R465). The instance is READY: before that the command has nothing to act on. -/
def State.takeover (s : State) (f : Fetch) : State :=
  if s.tko.isSome then s.raiseOn 0x31 .instance_
  else if !s.active then s
  else
    let s := match s.job with
      | some j => if j.kind = JobKind.reload then s.finishReload j else (s.endAttempt 4).releaseClaims
      | none => s
    let s := s.clearTko.setFld F.FLT_TKO_STATUS_STATE 1
    let s := s.peerAreas.foldl (fun (s : State) a => s.lackAnswer f a 64) s
    match s.peerHome f with
    | none => s.setFld F.FLT_TKO_STATUS_STATE 3
    | some (a, h) =>
      let src := a + 0x1000000
      let peer := match parseForme { s.parseCtx false f with areas := true, src := src } (fieldAt h 20 4) with
        | .ok p => some p.forme
        | .error _ => none
      let r := s.readmit peer (protectedOf (peerTable f src))
      let s := match r.last with | some x => s.recordRefusal x | none => s
      let k : TkoRun := ⟨s.now, a, r.entries⟩
      let j := s.newJob .takeover 4 r.forme r.taken (s.fld F.LKP_ADMIT_CFG_PSTATE_LIVE) [] r.added
      let s := { s with tko := some k, job := some { j with fetch := f } }.showTko r.entries
      (s.forme.defs.foldl (fun (s : State) (d : PoolDef) => s.claimFree d.index) s).takeoverHeld

/-- CLAIM_MS expires: each flow whose claims are not all held is refused with 0x06, its claims released, and the takeover
goes on with the others (R461). -/
def State.takeoverTimeout (s : State) : State :=
  match s.tko, s.job with
  | some k, some j =>
    if j.kind = .takeover ∧ !j.held then
      let s := s.advance (k.started + s.fld F.GRD_TKO_CLAIM_MS * 1000000)
      let lost := j.added.filter (fun x => !(j.short x).isEmpty)
      let out (x : Nat) : Bool := lost.contains x
      let f := { j.forme with
        flows := j.forme.flows.filter (fun y => !out y.flow), claims := j.forme.claims.filter (fun y => !out y.flow),
        codecs := j.forme.codecs.filter (fun y => !out y.flow), riffles := j.forme.riffles.filter (fun y => !out y.flow) }
      let f := f.withSlots s.forme
      let f := { f with size := formeBytes f }
      let ps := s.fld F.LKP_ADMIT_CFG_PSTATE_LIVE
      let ts := takenNow f (serverUnits f) ps j.adm
      let j := { j with
        forme := f, adm := j.adm.filter (fun y => !out y.flow), servers := serverAdms f ps ts,
        added := j.added.filter (fun x => !out x), claimed := j.claimed.filter (fun c => !out c.1) }
      let k := { k with entries := k.entries.map (fun e => if e.2.2.1 = 0 ∧ out e.1 then (e.1, e.2.1, 1, 0x06) else e) }
      let s := { s with tko := some k, job := some j }
      s.finishTakeover k j
    else s
  | _, _ => s

/-- A guard WRITE of GRD_TKO: CLAIM_MS is stored within its limits, and GO commands a takeover (R471). -/
def State.writeTko (s : State) (v : Word) (f : Fetch) : State :=
  let s := s.setFld F.GRD_TKO_CLAIM_MS (max 1 (min 1000 (getBits v 1 10)))
  if getBits v 0 1 = 1 then s.takeover f else s

end Sys2Proof.Machine
end

