-- ==== Sys2Proof/Machine/Flags.lean ====
section
/-! DEFINITION. Status: the fields of each register that report the state of the instance and are computed from it when
they are read (R20, R33, R84, R106 to R112, R153, R178 to R180, R519, R520 and the status registers of each station), and
the output pins (R494). -/

namespace Sys2Proof.Machine

/-- Fields of a register with the values they report. -/
abbrev View := List (Field × Nat)

/-- One bit of a status word. -/
def mask (l : List Bool) : Nat := (l.zipIdx).foldl (fun m x => if x.1 then m + 2 ^ x.2 else m) 0

/-- First index of a register. -/
def at0 (ix : List Nat) : Nat := ix.getD 0 0

/-- Second index of a register. -/
def at1 (ix : List Nat) : Nat := ix.getD 1 0

/-! ### Output pins (R494) -/

/-- CLK_FLOOR: VR_ALERT_N is low, or its hold runs. -/
def State.clkFloor (s : State) : Bool := s.ptc.alertLow || s.ptc.alertEnd.isSome

/-- CLK_STRETCH: DROOP stretches PCLK and ECLK. -/
def State.clkStretch (s : State) : Bool := s.ptc.droopAt.isSome

/-- CLK_PSEL. -/
def State.clkPsel (s : State) : Nat := s.ptc.pstate

/-- CLK_WAKE_REQ, bit order PCLK, ECLK, FCLK, QCLK, TCLK, GCLK. -/
def State.clkWakeReq (s : State) : Nat := mask s.clk.wakeReq

/-- BIRFA_READY. -/
def State.birfaReady (s : State) : Bool := s.ready

/-- BIRFA_ALIVE. -/
def State.birfaAlive (s : State) : Bool := s.alive

/-- IDCODE of the test access port (R498). -/
def tapIdcode : BitVec 32 := 0x1B1FA0C3

/-! ### Global and forme port -/

/-- GLB_ID (R31). -/
def viewId (s : State) (_ : List Nat) : View :=
  [(F.GLB_ID_INSTANCE, s.fld F.GRD_IDENT_INSTANCE), (F.GLB_ID_DIE_SERIAL, s.fld F.GRD_IDENT_DIE_SERIAL)]

/-- Is the blank forme live? Exactly one of FORME_LIVE and BLANK is 1 (R33). -/
def State.blank (s : State) : Bool := s.forme == Forme.blank

/-- Does the instance host flows taken over from the peer (R33)? Not while a reset has put the blank forme in their place. -/
def State.hostsPeer (s : State) : Bool := s.taken.any (fun f => (s.flow? f).isSome) || s.tko.isSome

/-- GLB_STATUS (R33). -/
def viewStatus (s : State) (_ : List Nat) : View :=
  [(F.GLB_STATUS_READY, b2n s.ready), (F.GLB_STATUS_FORME_LIVE, b2n (!s.blank)), (F.GLB_STATUS_BLANK, b2n s.blank),
   (F.GLB_STATUS_RETAINED_OK, b2n s.retainedOk), (F.GLB_STATUS_PEER_SEEN, b2n s.peerSeen),
   (F.GLB_STATUS_TAKEOVER, b2n s.hostsPeer), (F.GLB_STATUS_VTABLE_FALLBACK, b2n s.ptc.fallback),
   (F.GLB_STATUS_TEST, b2n s.testMode), (F.GLB_STATUS_FAULT_SUMMARY, s.faultSummary),
   (F.GLB_STATUS_LOCKUP_BUSY, b2n s.lockupBusy), (F.GLB_STATUS_LANES_GOOD, s.lanesGood),
   (F.GLB_STATUS_ENTROPY_GOOD, s.entropyGood), (F.GLB_STATUS_PSTATE, s.ptc.pstate),
   (F.GLB_STATUS_LAST_START, s.lastStart)]

/-- Does a forme reload wait for its quoin point? -/
def State.reloading (s : State) : Bool := match s.job with | some j => j.kind == .reload | none => false

/-- GLB_RESET (R491). -/
def viewReset (s : State) (_ : List Nat) : View := [(F.GLB_RESET_BUSY, b2n s.reloading)]

/-- GLB_CLK (R491). -/
def viewClk (s : State) (_ : List Nat) : View :=
  [(F.GLB_CLK_PCLK_RUN, b2n (s.clk.running.getD 0 false)), (F.GLB_CLK_ECLK_RUN, b2n (s.clk.running.getD 1 false)),
   (F.GLB_CLK_FCLK_RUN, b2n (s.clk.running.getD 2 false))]

/-- GLB_FABRIC (R512). -/
def viewFabric (s : State) (_ : List Nat) : View :=
  [(F.GLB_FABRIC_PORTS_FENCED, mask ((List.range 16).map s.portFenced))]

/-- FRM_LIVE_ID (R84). -/
def viewLiveId (s : State) (_ : List Nat) : View := [(F.FRM_LIVE_ID_ID, s.forme.id.toNat)]

/-- FRM_AMEND_COUNT (R84). -/
def viewAmends (s : State) (_ : List Nat) : View := [(F.FRM_AMEND_COUNT_COUNT, s.amends)]

/-- FRM_SPARES (R54, R84). -/
def viewSpares (s : State) (_ : List Nat) : View :=
  let a := activeLanes s.forme
  let e := assignedEngines s.forme
  [(F.FRM_SPARES_LANES_ACTIVE, a), (F.FRM_SPARES_LANE_SPARES, spareLanes a), (F.FRM_SPARES_ENTROPY_ASSIGNED, e),
   (F.FRM_SPARES_ENTROPY_SPARES, spareEngines e)]

/-! ### Lockkeeper (R107 to R112, R153) -/

/-- LKP_STATUS. -/
def viewLkp (s : State) (_ : List Nat) : View :=
  [(F.LKP_STATUS_FLOWS, s.forme.flows.length), (F.LKP_STATUS_DEADLINE_FLOWS, (s.forme.flows.filter (·.deadline)).length),
   (F.LKP_STATUS_BERTHS_PINNED, s.pinned), (F.LKP_STATUS_CODEC_CONTEXTS, s.forme.codecs.length)]

/-- LKP_BERTH_STATUS. -/
def viewBerths (s : State) (_ : List Nat) : View :=
  [(F.LKP_BERTH_STATUS_PINNED, s.pinned), (F.LKP_BERTH_STATUS_SHARED, s.sharedBerths),
   (F.LKP_BERTH_STATUS_RUNNABLE_OUT, (s.berths.filter (fun b => b.runnable && !b.resident)).length),
   (F.LKP_BERTH_STATUS_BLOCKED_RESIDENT, (s.berths.filter (fun b => b.resident && !b.runnable)).length), (F.LKP_BERTH_STATUS_SWAP_BUSY, b2n s.swapBusy.isSome)]

/-- LKP_COST_A: the P1 figures of R90. -/
def viewCostA (_ : State) (ix : List Nat) : View :=
  let k := kindAt (at0 ix)
  [(F.LKP_COST_A_RATE (at0 ix), k.rate), (F.LKP_COST_A_FIXED_NS (at0 ix), k.fixed), (F.LKP_COST_A_UNIT (at0 ix), k.unit),
   (F.LKP_COST_A_SCALES (at0 ix), b2n k.scales)]

/-- LKP_COST_B. -/
def viewCostB (_ : State) (ix : List Nat) : View :=
  let k := kindAt (at0 ix)
  [(F.LKP_COST_B_SECTION_NS (at0 ix), k.sect), (F.LKP_COST_B_STATION (at0 ix), k.station)]

/-- LKP_SERVER. -/
def viewServer (s : State) (ix : List Nat) : View :=
  match s.servers.find? (fun v => v.index == at0 ix) with
  | some v => [(F.LKP_SERVER_UTIL (at0 ix), v.util), (F.LKP_SERVER_BLOCK (at0 ix), v.block),
      (F.LKP_SERVER_UNITS (at0 ix), v.units), (F.LKP_SERVER_STATION (at0 ix), v.station),
      (F.LKP_SERVER_DEADLINE_FLOWS (at0 ix), v.dFlows)]
  | none => []

/-- LKP_FLOW_A: 0 for a flow ID that is not live. -/
def viewFlowA (s : State) (ix : List Nat) : View :=
  match s.flow? (at0 ix), s.adm? (at0 ix) with
  | some fe, some a => [(F.LKP_FLOW_A_READY_BY_NS (at0 ix), if fe.deadline then fe.deadlineNs else 0),
      (F.LKP_FLOW_A_SUM_W_NS (at0 ix), min (2 ^ 32 - 1) a.sumW)]
  | _, _ => []

/-- LKP_FLOW_B: 0 for a flow ID that is not live; ADMITTED reads 0 for a suspended flow (R458). -/
def viewFlowB (s : State) (ix : List Nat) : View :=
  match s.flow? (at0 ix), s.adm? (at0 ix) with
  | some fe, some a => [(F.LKP_FLOW_B_BERTHS (at0 ix), a.berths),
      (F.LKP_FLOW_B_ADMITTED (at0 ix), b2n (!(s.run fe.flow).suspended)), (F.LKP_FLOW_B_DEADLINE (at0 ix), b2n fe.deadline)]
  | _, _ => [(F.LKP_FLOW_B_LATE (at0 ix), 0), (F.LKP_FLOW_B_OVERCLASS (at0 ix), 0)]

/-- LKP_WORK. -/
def viewWork (s : State) (ix : List Nat) : View :=
  match (s.adm? (at0 ix)).bind (fun a => a.works[at1 ix]?) with
  | some w => [(F.LKP_WORK_WORK (at0 ix) (at1 ix), w.work), (F.LKP_WORK_SERVER (at0 ix) (at1 ix), w.server),
      (F.LKP_WORK_P (at0 ix) (at1 ix), w.p), (F.LKP_WORK_VALID (at0 ix) (at1 ix), 1),
      (F.LKP_WORK_MULTI (at0 ix) (at1 ix), b2n w.multi)]
  | none => []

/-! ### Reservoir (R178, R179) -/

/-- RSV_STATUS. -/
def viewRsv (s : State) (_ : List Nat) : View :=
  [(F.RSV_STATUS_POOLS, s.forme.defs.length), (F.RSV_STATUS_HANDLES, s.handles.length),
   (F.RSV_STATUS_GALLEY_4K, galleyPools s.forme / 4096)]

/-- RSV_POOL_THR of an undefined pool reads 0. -/
def viewThr (s : State) (ix : List Nat) : View :=
  if (s.pool? (at0 ix)).isSome then [] else
    [(F.RSV_POOL_THR_WARN (at0 ix), 0), (F.RSV_POOL_THR_THROTTLE (at0 ix), 0), (F.RSV_POOL_THR_STOP (at0 ix), 0),
     (F.RSV_POOL_THR_HYST (at0 ix), 0)]

/-- RSV_POOL_SIZE. -/
def viewSize (s : State) (ix : List Nat) : View :=
  [(F.RSV_POOL_SIZE_BLOCKS (at0 ix), s.poolBlocks (at0 ix)), (F.RSV_POOL_SIZE_RESERVED (at0 ix), s.reserved (at0 ix))]

/-- RSV_POOL_LEVEL. -/
def viewLevel (s : State) (ix : List Nat) : View :=
  [(F.RSV_POOL_LEVEL_IN_USE (at0 ix), sumBy (·.2) (s.poolRun (at0 ix)).held),
   (F.RSV_POOL_LEVEL_SHARED_USE (at0 ix), s.sharedUse (at0 ix))]

/-- RSV_POOL_STATE. -/
def viewPool (s : State) (ix : List Nat) : View :=
  let i := at0 ix
  match s.pool? i with
  | none => [(F.RSV_POOL_STATE_WARN_SEEN i, 0), (F.RSV_POOL_STATE_THROTTLE_SEEN i, 0), (F.RSV_POOL_STATE_STOP_SEEN i, 0)]
  | some d =>
    let r := s.poolRun i
    [(F.RSV_POOL_STATE_DEFINED i, 1), (F.RSV_POOL_STATE_PACKAGE i, d.place), (F.RSV_POOL_STATE_AT_WARN i, b2n r.atWarn),
     (F.RSV_POOL_STATE_AT_THROTTLE i, b2n r.atThrottle), (F.RSV_POOL_STATE_AT_STOP i, b2n r.atStop),
     (F.RSV_POOL_STATE_CLASS i, d.cls), (F.RSV_POOL_STATE_WAITERS i, min 65535 r.waiters.length)]

/-- RSV_POOL_COUNT of an undefined pool reads 0. U itself has been reached since the last read. -/
def viewCount (s : State) (ix : List Nat) : View :=
  if (s.pool? (at0 ix)).isSome then [(F.RSV_POOL_COUNT_PEAK_SHARED (at0 ix),
    max (s.fld (F.RSV_POOL_COUNT_PEAK_SHARED (at0 ix))) (s.sharedUse (at0 ix)))] else
    [(F.RSV_POOL_COUNT_EXHAUSTED (at0 ix), 0), (F.RSV_POOL_COUNT_PEAK_SHARED (at0 ix), 0)]

/-- RSV_POOL_BASE. The offset that the instance chooses in Galley memory is a free value. -/
def viewBase (s : State) (ix : List Nat) : View :=
  match s.pool? (at0 ix) with
  | some d => [(F.RSV_POOL_BASE_ADDR (at0 ix),
      if d.place = 0 then Config.galleyBase s.forme.id.toNat (at0 ix) % galleyBytes else d.base)]
  | none => []

/-! ### Chase, Headwater, Millrace, Millpond, Platen -/

/-- STN_CHASE_STATUS (R520). -/
def viewChase (s : State) (_ : List Nat) : View := [(F.STN_CHASE_STATUS_SEGMENTS, s.forme.segs.length)]

/-- STN_CHASE_SEG (R520): a k beyond the live segment count reads 0. -/
def viewSeg (s : State) (ix : List Nat) : View :=
  let k := at0 ix
  match s.forme.segs[k]? with
  | some g => [(F.STN_CHASE_SEG_FROM k, g.src), (F.STN_CHASE_SEG_TO k, g.dst), (F.STN_CHASE_SEG_WIDTH k, g.width),
      (F.STN_CHASE_SEG_CROSSING k, b2n (domainOf g.src != domainOf g.dst)), (F.STN_CHASE_SEG_VALID k, 1)]
  | none => [(F.STN_CHASE_SEG_TILES_K k, 0)]

/-- STN_HW_STATUS. -/
def viewHw (s : State) (_ : List Nat) : View :=
  [(F.STN_HW_STATUS_PORTS_BOUND, (s.forme.flows.filter (·.live.isSome)).length),
   (F.STN_HW_STATUS_PENDING, sumBy (fun r : PortRun => r.pending.length) s.ports)]

/-- STN_HW_PORT. -/
def viewPort (s : State) (ix : List Nat) : View :=
  let p := at0 ix
  match s.portFlow? p, s.port? p with
  | some (fe, _), some r => [(F.STN_HW_PORT_FLOW p, fe.flow), (F.STN_HW_PORT_TENANCY p, fe.ten), (F.STN_HW_PORT_BOUND p, 1),
      (F.STN_HW_PORT_PENDING p, r.pending.length), (F.STN_HW_PORT_CARRY p, carryBytes r.carry),
      (F.STN_HW_PORT_LAST_AGE_US p, r.lastAge)]
  | _, _ => []

/-- Units of the tasks at an entropy server that engines have in hand now: every free engine takes a ready unit (R99, R227). -/
def State.unitsAt (s : State) (v : Nat) : Nat :=
  sumBy (fun t => match s.flow? t.flow with
    | some fe => if !t.pieceAt v then 0 else if v = 0x22 then s.unitsRunning fe t else fe.cls.entropyPar
    | none => 0) s.tasks

/-- STN_MR_STATUS (R252). -/
def viewMr (s : State) (_ : List Nat) : View :=
  [(F.STN_MR_STATUS_DEC_ENGINES, engineCount s.forme 1), (F.STN_MR_STATUS_ENC_ENGINES, engineCount s.forme 2),
   (F.STN_MR_STATUS_DEC_BUSY, min (engineCount s.forme 1) (s.unitsAt 0x22)),
   (F.STN_MR_STATUS_PARKED, sumBy (fun t : Task => (t.dec.map (·.parked)).getD 0) s.tasks)]

/-- STN_MR_ENC_STATUS (R287). -/
def viewMrEnc (s : State) (_ : List Nat) : View :=
  [(F.STN_MR_ENC_STATUS_ENC_BUSY, min (engineCount s.forme 2) (s.unitsAt 0x23))]

/-- Millpond of a codec entry's flow in bytes. -/
def State.millpond (s : State) (c : CodecEntry) : Nat := ((s.flow? c.flow).map (millpondOf s.forme)).getD 0

/-- STN_MP_STATUS. -/
def viewMp (s : State) (_ : List Nat) : View :=
  [(F.STN_MP_STATUS_TOTAL_64K, ceilDiv (sumBy s.millpond s.forme.codecs) 65536),
   (F.STN_MP_STATUS_FLOWS, (s.forme.codecs.filter (fun c => s.millpond c != 0)).length)]

/-- Is a codec entry an encode entry? -/
def CodecEntry.isEnc (c : CodecEntry) : Bool := match c.body with | .enc _ => true | .dec _ => false

/-- STN_MP_CTX_A. -/
def viewMpA (s : State) (ix : List Nat) : View :=
  let i := at0 ix
  match s.forme.codecs[i]? with
  | some c => [(F.STN_MP_CTX_A_FLOW i, c.flow), (F.STN_MP_CTX_A_TENANCY i, c.ten), (F.STN_MP_CTX_A_VALID i, 1),
      (F.STN_MP_CTX_A_ENCODE i, b2n c.isEnc), (F.STN_MP_CTX_A_BYTES_64K i, ceilDiv (s.millpond c) 65536)]
  | none => []

/-- STN_MP_CTX_B. -/
def viewMpB (s : State) (ix : List Nat) : View :=
  let i := at0 ix
  match s.forme.codecs[i]? with
  | some c => (match c.body with
    | .dec e =>
      let d := (s.run c.flow).dec
      [(F.STN_MP_CTX_B_LEAD_NOW i, min 3 (s.leadNow c.flow)), (F.STN_MP_CTX_B_AWAIT_RAP i, b2n d.awaitRap),
       (F.STN_MP_CTX_B_OUT_QUEUE i, min 15 d.outQ.length), (F.STN_MP_CTX_B_BROKEN i, d.broken % 2 ^ e.refSlots)]
    | .enc _ => [])
  | none => [(F.STN_MP_CTX_B_PEAK_64K i, 0)]

/-- STN_PLT_ENC_A: an index without an encode entry reads 0 (R288). -/
def viewEncA (s : State) (ix : List Nat) : View :=
  let i := at0 ix
  match s.forme.codecs[i]? with
  | some c => (match c.body with
    | .enc e =>
      let x := (s.run c.flow).enc
      [(F.STN_PLT_ENC_A_FLOW i, c.flow), (F.STN_PLT_ENC_A_TENANCY i, c.ten), (F.STN_PLT_ENC_A_VALID i, 1),
       (F.STN_PLT_ENC_A_KEY_PENDING i, b2n (x.keyWanted e false)), (F.STN_PLT_ENC_A_LAST_Q0 i, x.lastQ0)]
    | .dec _ => [(F.STN_PLT_ENC_A_SKIPPED i, 0), (F.STN_PLT_ENC_A_CAPPED i, 0)])
  | none => [(F.STN_PLT_ENC_A_SKIPPED i, 0), (F.STN_PLT_ENC_A_CAPPED i, 0)]

/-- STN_PLT_ENC_B: F as two's complement. -/
def viewEncB (s : State) (ix : List Nat) : View :=
  let i := at0 ix
  match s.forme.codecs[i]? with
  | some c => if c.isEnc then [(F.STN_PLT_ENC_B_HRD_FULL i, (BitVec.ofInt 40 (s.run c.flow).enc.full).toNat)] else [(F.STN_PLT_ENC_B_HRD_OVER i, 0)]
  | none => [(F.STN_PLT_ENC_B_HRD_OVER i, 0)]

/-! ### Trim, Compositor, Galley, Delta -/

/-- Lanes imposed with a role, and the groups they form. -/
def roleLanes (f : Forme) (role : Nat) : Nat × Nat :=
  ((f.lanes.filter (fun l => l.role == role)).length,
   ((List.range 32).filter (fun g => f.lanes.any (fun l => l.role == role && l.group == g))).length)

/-- STN_TRIM_STATUS. -/
def viewTrim (s : State) (_ : List Nat) : View :=
  let (n, g) := roleLanes s.forme 2
  [(F.STN_TRIM_STATUS_LANES, n), (F.STN_TRIM_STATUS_GROUPS, g),
   (F.STN_TRIM_STATUS_ACTIVE, (s.tasks.filter (fun t => t.phase == .ready && t.entered && s.stationOf t == 6)).length)]

/-- STN_CMP_STATUS. -/
def viewCmp (s : State) (_ : List Nat) : View :=
  [(F.STN_CMP_STATUS_TOK_BUSY, min (s.unitsNow 0x25) (s.tasks.filter (fun t => t.pieceAt 0x25)).length),
   (F.STN_CMP_STATUS_PATCH_LANES, (roleLanes s.forme 3).1), (F.STN_CMP_STATUS_IMAGES, s.forme.imgSlots.length)]

/-- The address and CRC in a slot. -/
def inSlot (l : List (Nat × Nat × BitVec 32)) (t : Nat) : Option (Nat × BitVec 32) := (l.find? (fun x => x.1 == t)).map (·.2)

/-- STN_CMP_IMAGE_A. -/
def viewImageA (s : State) (ix : List Nat) : View :=
  match inSlot s.forme.imgSlots (at0 ix) with
  | some (a, _) => [(F.STN_CMP_IMAGE_A_ADDR (at0 ix), a)]
  | none => []

/-- STN_CMP_IMAGE_B. -/
def viewImageB (s : State) (ix : List Nat) : View :=
  match inSlot s.forme.imgSlots (at0 ix) with
  | some (a, c) =>
    let users := s.forme.flows.filter (fun fe => match fe.text with
      | some t => t.imageAddr == a && t.imageCrc == c
      | none => false)
    let vocab := ((s.forme.images.find? (fun im => im.addr == a && im.crc == c)).map (·.vocab)).getD 0
    [(F.STN_CMP_IMAGE_B_CRC (at0 ix), c.toNat), (F.STN_CMP_IMAGE_B_VOCAB (at0 ix), vocab),
     (F.STN_CMP_IMAGE_B_USERS (at0 ix), users.length)]
  | none => []

/-- STN_GAL_STATUS. -/
def viewGal (s : State) (_ : List Nat) : View :=
  [(F.STN_GAL_STATUS_OPEN_BATCHES, (s.flows.filter (·.gal.isOpen)).length), (F.STN_GAL_STATUS_GROUPS, s.groups.length)]

/-- STN_GAL_GROUP. -/
def viewGroup (s : State) (ix : List Nat) : View :=
  let g := at0 ix
  match s.groups.find? (fun x => x.group == g) with
  | some x => [(F.STN_GAL_GROUP_STEP g, (x.step - 1) % 2 ^ 32),
      (F.STN_GAL_GROUP_MEMBERS_IN g, (x.members.filter (fun m => m.state == .in_)).length),
      (F.STN_GAL_GROUP_JOINING g, (x.members.filter (fun m => m.state == .joining)).length), (F.STN_GAL_GROUP_VALID g, 1)]
  | none => []

/-- STN_DLT_STATUS. -/
def viewDlt (s : State) (_ : List Nat) : View :=
  [(F.STN_DLT_STATUS_THREADS_BUSY, s.threads),
   (F.STN_DLT_STATUS_READS_OUT, (s.dltOut.filter (·.2.awaitsData)).length),
   (F.STN_DLT_STATUS_STAGED_64K, ceilDiv (sumBy (fun fe : FlowEntry => s.stagedBytes fe.flow) s.forme.flows) 65536),
   (F.STN_DLT_STATUS_WINDOW_OPEN, b2n s.stagger.isSome)]

/-- STN_DLT_FLOW. -/
def viewDltFlow (s : State) (ix : List Nat) : View :=
  let f := at0 ix
  match (s.flow? f).bind (·.delta), s.run? f with
  | some d, some r =>
    let c := r.dlt
    [(F.STN_DLT_FLOW_PRESENT f, c.present.getD 0), (F.STN_DLT_FLOW_HAS_LAYER f, b2n c.present.isSome),
     (F.STN_DLT_FLOW_DRAINED f, b2n c.drained), (F.STN_DLT_FLOW_ALT f, b2n c.alt), (F.STN_DLT_FLOW_KIND f, d.kind),
     (F.STN_DLT_FLOW_STAGED_64K f, ceilDiv (s.stagedBytes f) 65536),
     (F.STN_DLT_FLOW_DONE_PENDING f, ((List.range 32).filter (fun i => bit c.needDone i && !bit c.gotDone i)).length)]
  | _, _ => []

/-! ### Riffle, Weir, PTC -/

/-- RFL_STATUS. -/
def viewRfl (s : State) (_ : List Nat) : View :=
  [(F.RFL_STATUS_ENTRIES, s.forme.riffles.length), (F.RFL_STATUS_STATEFUL_FLOWS, (s.forme.riffles.filter (fun r => r.mode == 1)).length),
   (F.RFL_STATUS_TABLES, s.forme.tabSlots.length)]

/-- RFL_EPOCH of a flow without a Riffle entry reads 0 (R339). -/
def viewEpoch (s : State) (ix : List Nat) : View :=
  if (s.riffle? (at0 ix)).isSome then [] else [(F.RFL_EPOCH_EPOCH (at0 ix), 0)]

/-- RFL_TABLE_A. -/
def viewTableA (s : State) (ix : List Nat) : View :=
  match inSlot s.forme.tabSlots (at0 ix) with
  | some (a, _) => [(F.RFL_TABLE_A_ADDR (at0 ix), a)]
  | none => []

/-- RFL_TABLE_B. -/
def viewTableB (s : State) (ix : List Nat) : View :=
  match inSlot s.forme.tabSlots (at0 ix) with
  | some (a, c) => [(F.RFL_TABLE_B_CRC (at0 ix), c.toNat), (F.RFL_TABLE_B_USERS (at0 ix),
      (s.forme.riffles.filter (fun r => r.normal == 1 && r.tableAddr == a && r.tableCrc == c)).length)]
  | none => []

/-- WEIR_STATUS. -/
def viewWeir (s : State) (_ : List Nat) : View :=
  [(F.WEIR_STATUS_RATE_EFF, s.weirRate), (F.WEIR_STATUS_PTC_RATE, s.ptc.rate.getD 0),
   (F.WEIR_STATUS_WAITING, mask ((List.range 16).map s.weirWaits)), (F.WEIR_STATUS_DEBT_64K, ceilDiv s.weir.debt 65536)]

/-- WEIR_TEN_B. -/
def viewShare (s : State) (ix : List Nat) : View := [(F.WEIR_TEN_B_SHARE (at0 ix), s.weirShare (at0 ix))]

/-- The binding reason (R430): in force with the ceiling that is the state in force, by the precedence of ties; DROOP leaves
the state as it is. 7 when there is none. -/
def State.binding (s : State) : Nat :=
  ([3, 4, 1, 0, 2, 5].find? (fun i => s.inForce i && (i == 4 || s.ceilings.getD i none == some s.ptc.pstate))).getD 7

/-- PTC_STATUS (R434). -/
def viewPtc (s : State) (_ : List Nat) : View :=
  [(F.PTC_STATUS_PSTATE, s.ptc.pstate), (F.PTC_STATUS_REQUESTED, s.requested),
   (F.PTC_STATUS_IN_FORCE, mask ((List.range 6).map s.inForce)), (F.PTC_STATUS_BINDING, s.binding),
   (F.PTC_STATUS_BOOST_OK, b2n s.boostOk), (F.PTC_STATUS_CAP_SHORT, b2n s.ptc.capShort),
   (F.PTC_STATUS_STEADY_OVERCAP, b2n s.ptc.overCap), (F.PTC_STATUS_MEAS_STALE, b2n s.ptc.stale),
   (F.PTC_STATUS_COMPLEMENT, b2n (s.ptc.comp || s.ptc.ramp.isSome)), (F.PTC_STATUS_BAND, s.ptc.band),
   (F.PTC_STATUS_VOLT_MV, s.ptc.voltage)]

/-- PTC_CAP. -/
def viewCap (s : State) (_ : List Nat) : View :=
  [(F.PTC_CAP_SHARE, min 65535 s.ptc.share), (F.PTC_CAP_COMPUTE, min 65535 (nth s.ptc.alloc 0)),
   (F.PTC_CAP_MEMORY, min 65535 (nth s.ptc.alloc 1)), (F.PTC_CAP_LINKS, min 65535 (nth s.ptc.alloc 2))]

/-- Mean of a window of samples. -/
def mean (l : List Nat) : Nat := sumL l / max 1 l.length

/-- PTC_POWER. -/
def viewPower (s : State) (_ : List Nat) : View :=
  [(F.PTC_POWER_EST, min 65535 (mean s.ptc.estWin)), (F.PTC_POWER_MEAS, min 65535 (mean s.ptc.measWin)),
   (F.PTC_POWER_CURRENT, min 65535 s.ptc.current), (F.PTC_POWER_EDC_TIMER_4US, s.ptc.edcTimer / 4000)]

/-- PTC_TEMP: TJ as two's complement. -/
def viewTemp (s : State) (_ : List Nat) : View := [(F.PTC_TEMP_TJ, (BitVec.ofInt 16 s.ptc.tj).toNat)]

/-- PTC_BOOST. -/
def viewBoost (s : State) (_ : List Nat) : View :=
  [(F.PTC_BOOST_USED_MS, min (2 ^ 22 - 1) (s.boostUsed / 1000000)), (F.PTC_BOOST_LAST_MS, s.ptc.lastMs),
   (F.PTC_BOOST_END, s.ptc.endWhy)]

/-- PTC_THR_DUR: the episode that runs counts too. -/
def viewThrDur (s : State) (ix : List Nat) : View :=
  match (s.ptc.reasons.getD (at0 ix) Ceiling.off).on with
  | some t => [(F.PTC_THR_DUR_NS (at0 ix), s.fld (F.PTC_THR_DUR_NS (at0 ix)) + (s.now - t))]
  | none => []

/-! ### Faults, time, tenancy pages -/

/-- FLT_STATUS (R468). -/
def viewFlt (s : State) (_ : List Nat) : View :=
  [(F.FLT_STATUS_SUMMARY, s.faultSummary),
   (F.FLT_STATUS_SPARE_LANES, s.lanesGood - (activeLanes s.forme - s.fencedLanes.length)),
   (F.FLT_STATUS_SPARE_ENGINES, s.entropyGood - (assignedEngines s.forme - s.fencedEngines.length)),
   (F.FLT_STATUS_SUSPENDED, (s.flows.filter (·.suspended)).length)]

/-- FLT_CKPT (R468). -/
def viewCkpt (s : State) (_ : List Nat) : View :=
  [(F.FLT_CKPT_DEGRADED, min 65535 (sumBy (fun r : FlowRun => r.degraded.length) s.flows))]

/-- FLT_SRC_STATE (R469): an identifier that R437 does not list reads 0. -/
def viewSrc (s : State) (ix : List Nat) : View :=
  let i := at0 ix
  if (fltDefaults i).isNone then [] else
    let r := s.srcRun i
    [(F.FLT_SRC_STATE_LEVEL i, r.level), (F.FLT_SRC_STATE_ESCALATED i, b2n (decide (s.fld (F.GRD_FLT_SRC_SEV i) < r.level))),
     (F.FLT_SRC_STATE_RAIL i, b2n r.rail)]

/-- TIM_NOW (R493). -/
def viewNow (s : State) (_ : List Nat) : View := [(F.TIM_NOW_TIME, s.now)]

/-- TIM_STATUS (R493). -/
def viewTime (s : State) (_ : List Nat) : View := [(F.TIM_STATUS_SLEWING, b2n (s.time.behind != 0))]

/-- TEN_ID (R150). -/
def viewTen (s : State) (ix : List Nat) : View :=
  let t := at0 ix
  let e := s.tenEntry t
  [(F.TEN_ID_TENANCY t, t), (F.TEN_ID_ENABLED t, b2n e.enabled), (F.TEN_ID_CXL t, b2n e.cxl),
   (F.TEN_ID_HOST_FUNCTION t, e.hostFn % 8192)]

/-- TEN_SQ_RANGE. -/
def viewSqRange (s : State) (ix : List Nat) : View :=
  [(F.TEN_SQ_RANGE_FIRST (at0 ix), (s.tenEntry (at0 ix)).sqFirst), (F.TEN_SQ_RANGE_COUNT (at0 ix), (s.tenEntry (at0 ix)).sqCount)]

/-- TEN_CQ_RANGE. -/
def viewCqRange (s : State) (ix : List Nat) : View :=
  let e := s.tenEntry (at0 ix)
  [(F.TEN_CQ_RANGE_FIRST (at0 ix), e.cqFirst), (F.TEN_CQ_RANGE_COUNT (at0 ix), e.cqCount),
   (F.TEN_CQ_RANGE_MSI_VECTORS (at0 ix), e.msiVectors)]

/-- TEN_QUOTA. -/
def viewQuota (s : State) (ix : List Nat) : View :=
  let t := at0 ix
  [(F.TEN_QUOTA_MAX_TASKS t, (s.tenEntry t).maxTasks), (F.TEN_QUOTA_TASKS_IN_FLIGHT t, s.tasksOfTen t),
   (F.TEN_QUOTA_DEADLINE_HELD t, s.deadlineHeld t)]

/-- TEN_SQ_TABLE: the low 5 bits of a 32-byte aligned address read 0. -/
def viewSqTable (s : State) (ix : List Nat) : View :=
  [(F.TEN_SQ_TABLE_ADDR (at0 ix), s.fld (F.TEN_SQ_TABLE_ADDR (at0 ix)) / 32 * 32)]

/-- TEN_CQ_TABLE. -/
def viewCqTable (s : State) (ix : List Nat) : View :=
  [(F.TEN_CQ_TABLE_ADDR (at0 ix), s.fld (F.TEN_CQ_TABLE_ADDR (at0 ix)) / 32 * 32)]

/-- TEN_LIVE_TABLE: the low 9 bits read 0. -/
def viewLiveTable (s : State) (ix : List Nat) : View :=
  [(F.TEN_LIVE_TABLE_ADDR (at0 ix), s.fld (F.TEN_LIVE_TABLE_ADDR (at0 ix)) / 512 * 512)]

/-- TST_INJ reads 0 in mission mode (R467). -/
def viewInj (s : State) (_ : List Nat) : View :=
  if s.testMode then [] else
    [(F.TST_INJ_SOURCE, 0), (F.TST_INJ_ARM, 0), (F.TST_INJ_RAIL, 0), (F.TST_INJ_COUNT, 0)]

/-! ### Reading a register (R8, R10) -/

/-- Each register with computed fields: its first offset and its view. -/
def views : List (Nat × (State → List Nat → View)) := [
  (Row.GLB_ID.base, viewId), (Row.GLB_STATUS.base, viewStatus), (Row.GLB_RESET.base, viewReset), (Row.GLB_CLK.base, viewClk),
  (Row.GLB_FABRIC.base, viewFabric), (Row.FRM_LIVE_ID.base, viewLiveId), (Row.FRM_AMEND_COUNT.base, viewAmends),
  (Row.FRM_SPARES.base, viewSpares), (Row.LKP_STATUS.base, viewLkp), (Row.LKP_BERTH_STATUS.base, viewBerths),
  (Row.LKP_COST_A.base, viewCostA), (Row.LKP_COST_B.base, viewCostB), (Row.LKP_SERVER.base, viewServer),
  (Row.LKP_FLOW_A.base, viewFlowA), (Row.LKP_FLOW_B.base, viewFlowB), (Row.LKP_WORK.base, viewWork),
  (Row.RSV_STATUS.base, viewRsv), (Row.RSV_POOL_THR.base, viewThr), (Row.RSV_POOL_SIZE.base, viewSize),
  (Row.RSV_POOL_LEVEL.base, viewLevel), (Row.RSV_POOL_STATE.base, viewPool), (Row.RSV_POOL_COUNT.base, viewCount),
  (Row.RSV_POOL_BASE.base, viewBase)] ++ [
  (Row.STN_CHASE_STATUS.base, viewChase), (Row.STN_CHASE_SEG.base, viewSeg), (Row.STN_HW_STATUS.base, viewHw),
  (Row.STN_HW_PORT.base, viewPort), (Row.STN_MR_STATUS.base, viewMr), (Row.STN_MR_ENC_STATUS.base, viewMrEnc), (Row.STN_MP_STATUS.base, viewMp),
  (Row.STN_MP_CTX_A.base, viewMpA), (Row.STN_MP_CTX_B.base, viewMpB), (Row.STN_PLT_ENC_A.base, viewEncA),
  (Row.STN_PLT_ENC_B.base, viewEncB), (Row.STN_TRIM_STATUS.base, viewTrim), (Row.STN_CMP_STATUS.base, viewCmp),
  (Row.STN_CMP_IMAGE_A.base, viewImageA), (Row.STN_CMP_IMAGE_B.base, viewImageB), (Row.STN_GAL_STATUS.base, viewGal),
  (Row.STN_GAL_GROUP.base, viewGroup), (Row.STN_DLT_STATUS.base, viewDlt), (Row.STN_DLT_FLOW.base, viewDltFlow)] ++ [
  (Row.RFL_STATUS.base, viewRfl), (Row.RFL_EPOCH.base, viewEpoch), (Row.RFL_TABLE_A.base, viewTableA),
  (Row.RFL_TABLE_B.base, viewTableB), (Row.WEIR_STATUS.base, viewWeir), (Row.WEIR_TEN_B.base, viewShare),
  (Row.PTC_STATUS.base, viewPtc), (Row.PTC_CAP.base, viewCap), (Row.PTC_POWER.base, viewPower), (Row.PTC_TEMP.base, viewTemp),
  (Row.PTC_BOOST.base, viewBoost), (Row.PTC_THR_DUR.base, viewThrDur), (Row.FLT_STATUS.base, viewFlt),
  (Row.FLT_CKPT.base, viewCkpt), (Row.FLT_SRC_STATE.base, viewSrc), (Row.TIM_NOW.base, viewNow),
  (Row.TIM_STATUS.base, viewTime), (Row.TEN_ID.base, viewTen), (Row.TEN_SQ_RANGE.base, viewSqRange),
  (Row.TEN_CQ_RANGE.base, viewCqRange), (Row.TEN_QUOTA.base, viewQuota), (Row.TEN_SQ_TABLE.base, viewSqTable),
  (Row.TEN_CQ_TABLE.base, viewCqTable), (Row.TEN_LIVE_TABLE.base, viewLiveTable), (Row.TST_INJ.base, viewInj)]

/-- The computed fields of a register. -/
def State.view (s : State) (r : RegRow) (ix : List Nat) : View :=
  match views.find? (fun v => v.1 == r.base) with
  | some v => v.2 s ix
  | none => []

/-- Is every field of a register RWS? -/
def RegRow.shadowed (r : RegRow) : Bool := r.fields.any (fun f => f.acc == .rws)

/-- The word that a read of a register returns: the shadow copy of RWS fields, the live copy of others, with the computed
fields as they stand now. -/
def State.readWord (s : State) (off : Nat) : Word :=
  match regAt off with
  | none => 0
  | some (r, ix) =>
    let w := if r.shadowed then s.shadow.get off else s.regs.get off
    (s.view r ix).foldl (fun w x => x.1.into w x.2) w

end Sys2Proof.Machine
end

