-- ==== Sys2Proof/Machine/Clocks.lean ====
section
/-! DEFINITION. Clocks and time: wake requests and CLK_RUN (R472 to R475), the local time unit (R478, R479, R497), the alive
signals (R33, R449), and the power message channel (R424, R499). -/

namespace Sys2Proof.Machine

/-! ### Clock domains (R472 to R475) -/

/-- Work in a domain: it proceeds while the domain runs, else it is held and the domain is woken. -/
def State.inDomain (s : State) (d : Domain) (op : State → State) : State := if s.runs d then op s else s.wake d

/-- Clock domain of a server: lane groups run in PCLK, any other server in its station's domain (R21). -/
def State.serverDomain (s : State) (v : Nat) : Domain := if v < 0x20 then .pclk else domainOf (serverStation s.forme v)

/-- Does a task of a station of the domain run, or a transfer of FCLK's own wait? -/
def State.domainBusy (s : State) (d : Domain) : Bool :=
  s.tasks.any (fun t => t.phase != .ended && domainOf (s.stationOf t) == d) ||
  (match d with
    | .pclk => s.batches.any (fun u => u.asm != 0)
    | .fclk => !s.txns.isEmpty || !s.due.isEmpty || !s.batches.isEmpty || !s.weir.queue.isEmpty ||
        s.sqs.any (·.bit) || s.ports.any (fun p => !p.pending.isEmpty) || s.flows.any (fun r => !r.enc.chunks.isEmpty)
    | _ => false)

/-- Has a live deadline flow a station in the domain (R473)? -/
def State.domainHeld (s : State) (d : Domain) : Bool :=
  s.forme.flows.any (fun fe => fe.deadline && fe.path.any (fun st => domainOf st == d))

/-- A stoppable domain has been idle for 100 µs: its wake request goes low, and the clock controller stops it. It stays up for
a live deadline flow with a station in it, and while complement runs or ramps. -/
def State.clkIdle (s : State) (d : Domain) : State :=
  if !s.active ∨ !canStop d ∨ !s.runs d ∨ s.domainBusy d ∨ s.domainHeld d ∨ s.ptc.comp ∨ s.ptc.ramp.isSome then s
  else s.setClk d false false none

/-- CLK_RUN rises. A wake ends: it is counted, and what was held proceeds. -/
def State.clkRun (s : State) (d : Domain) : State :=
  match s.clk.askedAt.getD d.bit none with
  | none => s.setClk d (s.wanted d) true none
  | some t =>
    let ns := s.now - t
    (s.setClk d true true none).setFlds [
      (F.GLB_CLK_WAKES, s.fld F.GLB_CLK_WAKES + 1), (F.GLB_CLK_WAKE_MAX_NS, min 65535 (max (s.fld F.GLB_CLK_WAKE_MAX_NS) ns))]

/-- CLK_RUN has not come 20 µs after a request: CLOCK is raised. -/
def State.clkWakeTimeout (s : State) (d : Domain) : State :=
  match s.clk.askedAt.getD d.bit none with
  | some t => (s.advance (t + 20000)).raiseOn 0x32 .instance_
  | none => s

/-- A clock stops for more than 1 µs. It is lost when its wake request is high. -/
def State.clockLoss (s : State) (d : Domain) : State :=
  if s.wanted d ∧ s.runs d then (s.setClk d true false (s.clk.askedAt.getD d.bit none)).raiseOn 0x32 .instance_ else s

/-- A domain that work has reached is woken (R474). -/
def State.wakeForWork (s : State) : State :=
  if !s.active then s
  else [Domain.pclk, .eclk, .fclk].foldl (fun (s : State) d => if s.domainBusy d then s.wake d else s) s

/-- Wake every stopped domain. -/
def State.wakeAll (s : State) : State := ((s.wake .pclk).wake .eclk).wake .fclk

/-- Every clock is requested and runs. -/
def ClkRun.all : ClkRun := ⟨List.replicate 6 true, List.replicate 6 true, List.replicate 6 none⟩

/-! ### Local time (R478, R479, R497) -/

/-- A difference as LAST_STEP_NS shows it: 32-bit two's complement, saturating. -/
def stepNs (d : Int) : Nat := (min (max d (-2147483648)) 2147483647 % 4294967296).toNat

/-- Is the local time unit held in reset? -/
def State.tclkHeld (s : State) : Bool := s.dead || s.qclkHeld

/-- A TIME_SYNC strobe with TIME_BUS v. A strobe less than 1 µs after the one before is counted and otherwise ignored. A
forward difference is applied at once; a backward one is absorbed while local time goes on at half speed. -/
def State.timeSync (s : State) (v : Nat) : State :=
  if s.tclkHeld then s
  else
    let s := s.incFld F.TIM_STATUS_SYNCS
    let early := match s.time.since with | some x => decide (x < 1000) | none => false
    let s : State := { s with time := { s.time with since := some 0 } }
    if early then s
    else
      let d : Int := (v : Int) - (s.time.now : Int)
      { s with time := { s.time with now := max s.time.now v, behind := s.time.now - v } }.setFlds [
        (F.TIM_STATUS_LOCKED, 1), (F.TIM_STATUS_LAST_STEP_NS, stepNs d)]

/-- No strobe for 10 ms: LOCKED becomes 0. -/
def State.syncLoss (s : State) : State :=
  if s.tclkHeld ∨ !s.flag F.TIM_STATUS_LOCKED then s
  else match s.time.since with
    | some x =>
      let p := 10000000 - x
      (s.advance (s.time.now + (p - min s.time.behind (p / 2)))).setFld F.TIM_STATUS_LOCKED 0
    | none => s

/-- One TCLK cycle: local time advances by 4 ns, or by 2 ns while it absorbs a backward difference. -/
def State.tclkCycle (s : State) : State :=
  if s.tclkHeld then s
  else
    let since := s.time.since.map (· + 4)
    if s.time.behind = 0 then { s with time := ⟨s.time.now + 4, 0, since⟩ }
    else { s with time := ⟨s.time.now + 2, s.time.behind - 2, since⟩ }

/-! ### Alive signals (R33, R449) -/

/-- An edge of PEER_ALIVE. -/
def State.peerEdge (s : State) : State := if s.life = .cold then s else { s with peerSeen := true, peerAt := s.now }

/-- PEER_ALIVE has not toggled for 2 periods of the peer. -/
def State.peerExpire (s : State) : State :=
  if s.peerSeen then { s.advance (s.peerAt + 2 * s.fld F.GRD_ALIVE_PEER_PERIOD_US * 1000) with peerSeen := false } else s

/-- GRD_ALIVE.PERIOD_US elapses: BIRFA_ALIVE changes level, unless it has stopped. -/
def State.aliveToggle (s : State) : State :=
  if s.aliveOn then
    let due := s.aliveAt + s.fld F.GRD_ALIVE_PERIOD_US * 1000
    { s.advance due with alive := !s.alive, aliveAt := due }
  else s

/-! ### The power message channel (R499) -/

/-- SHARE: Birfa's share of the package cap. -/
def State.takeShare (s : State) (v : Nat) : State := s.modPtc (fun c => { c with share := v })

/-- A message from the power controller: `take` applies it. While QCLK is in reset, the newest of each type is kept. -/
def State.powerMessage (s : State) (keep : State → State) (take : State → State) : State :=
  if s.dead then s else if s.qclkHeld then keep s else take s

/-- SHARE arrives. -/
def State.gotShare (s : State) (v : Nat) : State :=
  s.powerMessage (fun s => { s with pmHeld := (some v, s.pmHeld.2.1, s.pmHeld.2.2) }) (fun s => s.takeShare v)

/-- MEAS arrives. -/
def State.gotMeas (s : State) (v : Nat) : State :=
  s.powerMessage (fun s => { s with pmHeld := (s.pmHeld.1, some v, s.pmHeld.2.2) }) (fun s => s.meas v)

/-- VACK arrives. -/
def State.gotVack (s : State) (v : Nat) : State :=
  s.powerMessage (fun s => { s with pmHeld := (s.pmHeld.1, s.pmHeld.2.1, some v) }) (fun s => s.vack v)

/-- The kept messages are applied at the release of QCLK. -/
def State.applyHeld (s : State) : State :=
  let (a, b, c) := s.pmHeld
  let s : State := { s with pmHeld := (none, none, none) }
  let s := match a with | some v => s.takeShare v | none => s
  let s := match b with | some v => s.meas v | none => s
  match c with | some v => s.vack v | none => s

end Sys2Proof.Machine
end

