-- ==== Sys2Proof/Machine/Resets.lean ====
section
/-! DEFINITION. Resets and starts: reads of the control space (R6, R8, R9, R514), warm reset and warm start (R119, R484,
R485, R488, R490), cold reset and cold start (R480 to R483), per-domain reset and forme reload (R486, R487, R491), and the
loss of a supply (R466). -/

namespace Sys2Proof.Machine

/-! ### Reads -/

/-- Clear the RC fields of a register. -/
def State.clearRc (s : State) (off : Nat) : State :=
  match regAt off with
  | none => s
  | some (r, _) => (r.fields.filter (fun f => f.acc == .rc)).foldl (fun (s : State) f =>
      s.setFld ⟨off, f.lo, f.hi - f.lo + 1⟩ 0) s

/-- A host read whose turn it is: zero and an error response when an access check fails, else the register's word; its RC fields
clear, but not for a tenancy view of the global region. -/
def State.csReadNow (s : State) (r : CsReq) (off len : Nat) : State :=
  match s.accessFails r off len false with
  | some code => { s with resp := ⟨code, 0⟩ }.logAccess r off
  | none =>
    let s : State := { s with resp := ⟨0, s.readWord off⟩ }
    if regionOf off = .global ∧ r.view < 16 then s else s.clearRc off

/-- One host read: no answer while the instance is dead, held as a write is, else it is performed. -/
def State.csRead (s : State) (r : CsReq) (off len : Nat) : State :=
  if s.dead then s
  else if s.accessWaits then s.holdAccess ⟨r, off, len, false, 0, []⟩
  else if s.waitsFor r off len false then (s.holdAccess ⟨r, off, len, false, 0, []⟩).wake (regDomain off)
  else s.csReadNow r off len
/-- The accesses that waited for the release of QCLK are performed, in order, with READY 0. -/
def State.replayHeld (s : State) : State :=
  s.heldCs.foldl (fun (s : State) h =>
    if h.write then s.csWriteNow h.req h.off h.len id else s.csReadNow h.req h.off h.len) { s with heldCs := [] }

/-! ### Reset of everything but GCLK (R484 steps 1 to 3) -/

/-- Registers that a warm reset leaves alone: the guard partition and the fault captures. -/
def keptReg (off : Nat) : Bool :=
  decide (0x2000000 ≤ off ∧ off < 0x3000000) ||
    decide (Row.FLT_CAP_ADDR.base ≤ off ∧ off < Row.FLT_CAP_ADDR.base + 0x140)

/-- Counts of units fenced since the last cold start (R468). -/
def fenceCounts : List Field := [F.FLT_STATUS_LANES_FENCED, F.FLT_STATUS_ENGINES_FENCED, F.FLT_STATUS_UNITS_FENCED]

/-- Register space at its Reset values, but for what GCLK holds. -/
def State.resetRegs (s : State) : State :=
  { s with regs := s.regs.filter (fun e => keptReg e.1), shadow := [], captures := [] }.setFlds
    (fenceCounts.map (fun f => (f, s.fld f)))

/-- The accesses in progress: those held for a stopped domain, and the writes that a full push queue stalled. -/
def State.inProgress (s : State) : List (CsReq × Nat) :=
  s.heldCs.map (fun h => (h.req, h.off)) ++ (s.tens.flatMap (·.stalled)).map (fun p => (p.req, p.off))

/-- Accesses in progress when a reset begins end with an error response (R486). -/
def State.endAccesses (s : State) (l : List (CsReq × Nat)) : State :=
  l.foldl (fun (s : State) a => { s with resp := ⟨2, 0⟩ }.logAccess a.1 a.2) s

/-- Every domain but GCLK is reset: what is left is what the always-on supply holds. -/
def State.dropAll (s : State) (life : Life) : State :=
  let k := s.resetRegs.setFlds [(F.GRD_CTRL_DELIVERED, 0), (F.GRD_CTRL_FORGET, 0), (F.GRD_IDENT_INSTANCE, 0), (F.GRD_IDENT_DIE_SERIAL, 0)]
  let t := State.reset
  { t with
    pending := s.pending, regs := k.regs, resp := s.resp, heldCs := s.heldCs, life := life, testMode := s.testMode,
    retained := s.retained, nextTag := s.nextTag, flows := s.flows, fencedUnits := s.fencedUnits, lanesGood := s.lanesGood,
    entropyGood := s.entropyGood, selfFail := s.selfFail, time := { s.time with behind := 0, since := none },
    clk := { ClkRun.all with running := s.clk.running }, ptc := s.ptc.restart s.now, taken := s.taken, peerSeen := s.peerSeen,
    peerAt := s.peerAt, aliveOn := s.aliveOn, alive := s.alive, aliveAt := s.aliveAt, instLow := s.instLow, tmode := s.tmode,
    repair := s.repair, guardResp := s.guardResp, pmOut := s.pmOut, saved := s.saved, ckptAreas := s.ckptAreas,
    imageSeq := s.imageSeq, free := s.free }

/-- Steps 1 to 3 of a warm start: READY falls, nothing more is written, and the instance is held in reset. -/
def State.enterWarm (s : State) : State := { s.dropAll .warmLow with heldCs := [] }.endAccesses s.inProgress

/-- INST_RST_N falls. During a cold start the level is only noted (R490). -/
def State.instLowEdge (s : State) : State :=
  let s : State := { s with instLow := true }
  match s.life with
  | .up | .halted | .warmWait | .noSupply => s.enterWarm
  | .cold | .coldWait | .testHold | .warmLow => s

/-! ### Ends of a start (R482 to R485) -/

/-- A port that got no credits is fenced (R483). -/
def State.noCredits (s : State) (p : Nat) : State :=
  if s.portFenced p then s
  else
    let s := { s with fencedUnits := s.fencedUnits ++ [FenceUnit.port p] }.incFld F.FLT_STATUS_UNITS_FENCED
    s.setFlds [(F.FLT_FENCE_UNIT, p), (F.FLT_FENCE_KIND, 3), (F.FLT_FENCE_SPARE_TAKEN, 0)]

/-- The ports exchange credits. -/
def State.exchange (s : State) : State :=
  (List.range 16).foldl (fun (s : State) p => if bit s.credits p then s else s.noCredits p) s

/-- The last step of a start: LAST_START, and READY when every port has credits. BIRFA_ALIVE starts or resumes with READY
(R449). Parts 2 and 3 of retained memory are written (R488). -/
def State.endStart (s : State) (kind : Nat) : State :=
  let ok := decide (s.credits = 0xFFFF) && !s.tmode
  let s : State := { s with life := .up, ready := ok, lastStart := kind, startFetch := [] }
  let s : State := if ok ∧ !s.aliveOn then { s with aliveOn := true, alive := !s.alive, aliveAt := s.now } else s
  s.saveSettings.writeBins.settlePtc.followVoltage

/-- Steps 6 to 8 of a cold start, once DELIVERED is 1. -/
def State.finishCold (s : State) : State :=
  let s := s.startTable.exchange
  if s.tmode then { s with life := .testHold }
  else if s.instLow then s.enterWarm
  else
    let s := s.putBlank
    let s : State := { s with retained := { s.retained with part1 := some (s.forme, s.amends, s.fld F.LKP_ADMIT_CFG_PSTATE_LIVE) } }
    s.endStart 1

/-- The boost bins after a warm start: those of part 3, or the full budget, so that P0 waits 60 minutes (R488). -/
def State.restoreBins (s : State) : State :=
  let s := s.takeLimits
  match s.retained.part3 with
  | some l => s.modPtc (fun c => { c with bins := l })
  | none => s.modPtc (fun c => { c with bins := s.boostBudget :: List.replicate 59 0, budgetOut := true })

/-- Steps 8 to 11 of a warm start, once DELIVERED is 1. It holds at its last step while TMODE is asserted (R483). -/
def State.finishWarm (s : State) : State :=
  let s := (s.startTable.restoreAll.restoreForme s.startFetch).exchange
  if s.tmode then { s with life := .testHold } else s.endStart 2

/-- INST_RST_N rises, or a GLB_RESET warm reset is released: steps 4 to 7, then, if DELIVERED is 1, the rest. A rise during a
cold start is only noted. -/
def State.warmStart (s : State) (f : Fetch) (credits : Nat) : State :=
  match s.life with
  | .warmLow =>
    let s : State := { s with instLow := false, life := .warmWait, startFetch := f, credits := credits, clk := ClkRun.all }
    let s := s.replayHeld.applyHeld.checkParts
    let s : State := { s with retainedOk := s.retained.part1.isSome && s.retained.part2.isSome && s.retained.part3.isSome }
    let s := s.restoreBins
    if s.flag F.GRD_CTRL_DELIVERED then s.finishWarm else s
  | .cold | .coldWait | .testHold => { s with instLow := false }
  | .warmWait | .up | .halted | .noSupply => s

/-! ### Cold reset -/

/-- A cold reset: everything but the levels of the input pins is at its reset state. -/
def State.coldReset (s : State) : State :=
  { State.reset with
    pending := s.pending, tmode := s.tmode, testMode := s.tmode, instLow := s.instLow, free := s.free,
    ptc := { PtcRun.reset with alertLow := s.ptc.alertLow } }

/-- AON_RST_N rises: steps 1 to 5 of a cold start. It waits for DELIVERED at step 6. -/
def State.coldStart (s : State) (lanes entropy credits : Nat) : State :=
  if s.life = .cold then
    { s with life := .coldWait, lanesGood := lanes, entropyGood := entropy, credits := credits, clk := ClkRun.all }
  else s

/-- A change of TMODE resets the instance cold. -/
def State.tmodeChange (s : State) (level : Bool) : State :=
  if level = s.tmode then s else ({ s with tmode := level } : State).coldReset

/-- DELIVERED is written 1: a start that waits goes on. -/
def State.continueStart (s : State) : State :=
  match s.life with
  | .coldWait => s.finishCold
  | .warmWait => s.finishWarm
  | .cold | .testHold | .warmLow | .up | .halted | .noSupply => s

/-! ### Loss of a supply (R466) -/

/-- The instance supplies are lost: all that the always-on supply does not hold is gone. -/
def State.supplyLoss (s : State) : State :=
  if s.life = .cold then s else { s.dropAll .noSupply with aliveOn := false, heldCs := [], clk := State.reset.clk }

/-! ### Per-domain reset (R486) -/

/-- The registers of a domain take their Reset values, and its Kept settings their retained ones (R11, R519). -/
def State.resetDomainRegs (s : State) (d : Domain) : State :=
  let mine (o : Nat) : Bool := regDomain o == d && !keptReg o
  let kept : RegFile := match s.retained.part2 with | some l => l.filter (fun e => mine e.1) | none => []
  let s : State := { s with
    regs := s.regs.filter (fun e => !mine e.1), shadow := s.shadow.filter (fun e => !mine e.1),
    captures := s.captures.filter (fun c => !mine (commitOff c.region)), frac := s.frac.filter (fun x => !mine x.1) }
  kept.foldl (fun (s : State) e => { s with regs := s.regs.set e.1 e.2, shadow := s.shadow.set e.1 e.2 }) s

/-- Bytes of a transfer as R408 counts them. -/
def DeltaTask.xferBytes (d : DeltaTask) (x : Xfer) : Nat :=
  match x.segs with
  | (k, _, _) :: _ => (match d.descs[k]? with
    | some y => sumBy (fun r : Nat × Nat × Nat => r.2.2) x.segs * max (elemSize y.fmtIn) (elemSize y.fmtOut)
    | none => 0)
  | [] => 0

/-- The staged transfers of a streaming task are lost: they are read again, and count once. -/
def State.loseStaging (s : State) (t : Task) : State :=
  match t.delta with
  | none => s
  | some d =>
    let lost (x : Xfer) : Bool := x.state != .writing && x.pool.isSome
    let bytes := sumBy d.xferBytes (d.xfers.filter lost)
    (s.discard t.id lost).modDelta t.id (fun d => { d with
      used := d.used - bytes,
      reads := d.reads.filter (fun r => r.data.isNone || d.xfers.any (fun x => x.need.contains r.key)) })

/-- PCLK: the tasks of flows with a PCLK station end, their contexts come from their checkpoints; batches and staging are lost. -/
def State.resetPclk (s : State) (f : Fetch) : State :=
  let s := (s.forme.flows.filter (fun fe => fe.path.any (fun st => domainOf st == .pclk))).foldl (fun (s : State) fe =>
    (s.stopFlow fe).restoreFlow fe (some f) true) s
  let s := s.batches.foldl (fun (s : State) u => s.abortUnit u 0x30 1) s
  (s.tasks.foldl State.loseStaging s).resetDomainRegs .pclk

/-- ECLK: the tasks of flows with Millrace end, and their codec contexts await a random-access point; an encode flow codes a
key frame. -/
def State.resetEclk (s : State) : State :=
  let s := (s.forme.flows.filter (fun fe => fe.path.contains 3)).foldl (fun (s : State) fe =>
    let s := ((s.tasks.filter (fun t => t.flow == fe.flow)).map (·.id)).foldl State.faultStop s
    (s.resetDec fe.flow).modEnc fe.flow (fun c => { c with keyDue := true })) s
  s.resetDomainRegs .eclk

/-- Every task, ring, post and transaction is gone, without an entry, and nothing is written (R119). -/
def State.clearWork (s : State) : State :=
  { s with
    tasks := [], due := [], sqs := [], cqs := [], ports := [], txns := [], crcFails := [], batches := [],
    weir := WeirRun.reset, dltOut := [], dltQueue := [], stagger := none, berths := [], swapBusy := none, swapQueue := [] }

/-- The flows of the live forme start again from their checkpoints. -/
def State.restartFlows (s : State) (f : Fetch) : State :=
  let old := s.flows
  let s := s.freshStations s.forme
  s.forme.flows.foldl (fun (s : State) fe => s.resume old f fe) s

/-- FCLK: as a warm start. -/
def State.resetFclk (s : State) (f : Fetch) : State := (s.clearWork.resetDomainRegs .fclk).restartFlows f

/-- QCLK: as a warm start, with the register space. A lock-up, amendment or takeover before its quoin point ends; the live
forme stays live. -/
def State.resetQclk (s : State) (f : Fetch) : State :=
  let l := s.inProgress
  let time := s.regs.filter (fun e => regDomain e.1 == .tclk)
  let live := s.fld F.LKP_ADMIT_CFG_PSTATE_LIVE
  let s : State := { s.clearWork.resetRegs with
    heldCs := [], tens := State.reset.tens, pushRot := 0, scanRot := 0, job := none, tko := none, katDue := none, window1ms := [], frac := [],
    srcs := [], ptc := { s.ptc.restart s.now with fallback := s.ptc.fallback } }
  let s : State := time.foldl (fun (s : State) e => s.setReg e.1 e.2) s
  let s := (s.setFld F.LKP_ADMIT_CFG_PSTATE_LIVE live).restoreSettings
  ((s.restartFlows f).endAccesses l).takeLimits.settlePtc.followVoltage

/-- TCLK: local time goes on from its last value, unlocked. -/
def State.resetTclk (s : State) : State :=
  { s with time := { s.time with behind := 0, since := none } }.resetDomainRegs .tclk

/-- A per-domain reset. The partners that are stopped are woken first (R481): each of PCLK, ECLK and FCLK shares a crossing with
every domain that can be reset. Each named row applies; a task takes the first status that a row gives it. -/
def State.domainReset (s : State) (domains : Nat) (f : Fetch) : State :=
  let s := s.wakeAll
  let s := if bit domains 0 then s.resetPclk f else s
  let s := if bit domains 1 then s.resetEclk else s
  let s := if bit domains 2 then s.resetFclk f else s
  let s := if bit domains 3 then s.resetQclk f else s
  if bit domains 4 then s.resetTclk else s

/-! ### GLB_RESET (R487, R490, R491) -/

/-- A forme reload starts: the quoin of a full lock-up drains what runs. -/
def State.startReload (s : State) (f : Fetch) : State :=
  { s with job := some {
      kind := .reload, phase := 5, forme := s.forme, adm := s.adm, servers := s.servers, removed := [], added := [],
      pstate := s.fld F.LKP_ADMIT_CFG_PSTATE_LIVE, claimed := [], good := (s.lanesGood, s.entropyGood), started := s.now,
      fetch := f, cancelled := false } }

/-- A management write of GLB_RESET. `f`: the answers to the fetches of a restore. -/
def State.glbReset (s : State) (r : CsReq) (v : Word) (f : Fetch) : State :=
  let kind := getBits v 0 2
  let domains := getBits v 4 5
  if getBits v 16 16 ≠ 0xB1FA ∨ (kind = 2 ∧ domains = 0) then s.logAccess r Row.GLB_RESET.base
  else
    let s := if getBits v 35 1 = 1 then s.setFld F.GLB_RESET_REJECTED 0 else s
    if kind = 0 then s
    else if s.reloading then s.setFld F.GLB_RESET_REJECTED 1
    else if kind = 1 then (s.setFld F.GLB_RESET_LAST_KIND 1).enterWarm
    else if kind = 2 then (s.setFld F.GLB_RESET_LAST_KIND 2).domainReset domains f
    else if s.lockupBusy then s.setFld F.GLB_RESET_REJECTED 1
    else (s.setFld F.GLB_RESET_LAST_KIND 3).startReload f

end Sys2Proof.Machine
end

