-- ==== Sys2Proof/Machine/GuardPort.lean ====
section
/-! DEFINITION. The guard port (R500 to R502): headers, READ, WRITE with the effects of the guard registers that have one
(R415, R444, R459, R482, R485, R489), and REPAIR. -/

namespace Sys2Proof.Machine

/-- Does the guard port answer? Not while AON_RST_N is low. -/
def State.guardUp (s : State) : Bool := s.life != .cold

/-- A transaction fails: nothing changes, and GUARD_PORT is raised. -/
def State.guardFail (s : State) (status : Nat) : State :=
  { s with guardResp := ⟨status, none⟩ }.raiseOn 0x31 .instance_

/-- Register offset that a READ or WRITE header names. -/
def guardOff (h : BitVec 32) : Nat := 0x2000000 + 8 * (h.toNat / 16 % 2 ^ 21)

/-- Is a READ (op 0) or WRITE (op 1) header well formed? -/
def headerOk (h : BitVec 32) (op : Nat) : Bool := decide (h.toNat % 4 = op ∧ h.toNat / 4 % 4 = 0 ∧ h.toNat / 2 ^ 25 = 0)

/-- Is a REPAIR header well formed, and does it count its words? -/
def repairOk (h : BitVec 32) (n : Nat) : Bool :=
  decide (h.toNat % 4 = 2 ∧ h.toNat / 4 % 4 = 0 ∧ h.toNat / 2 ^ 20 = 0 ∧ h.toNat / 16 % 65536 = n ∧ 0 < n)

/-- A written value as a field stores it (R8 and the field tables): the nearest limit where limits are given. -/
def FieldRow.stored (f : FieldRow) (v : Nat) : Nat := match f.limit with | some (lo, hi) => max lo (min hi v) | none => v

/-- Store the fields of a register that have an access code, from a written word. -/
def storeFields (a : Access) (fs : List FieldRow) (w v : Word) : Word :=
  (fs.filter (fun f => f.acc == a)).foldl (fun w f =>
    let n := f.hi - f.lo + 1
    putBits w f.lo n (f.stored (getBits v f.lo n))) w

/-- FORGET while INST_RST_N is low: retained memory is invalid, and every guard field is at its Reset value (R489). -/
def State.forget (s : State) : State :=
  { s with
    retained := ⟨none, none, none⟩,
    regs := s.regs.filter (fun e => !decide (0x2000000 ≤ e.1 ∧ e.1 < 0x3000000)) }

/-- A WRITE of GRD_CTRL. FORGET out of place is refused (R489); else DELIVERED and PEER_TOOK are stored, and a start that waits
goes on. -/
def State.writeGrdCtrl (s : State) (v : Word) : State :=
  if getBits v 1 1 = 1 then
    if s.instLow then { s.forget with guardResp := ⟨0, none⟩ } else s.guardFail 2
  else
    let s := { s with guardResp := ⟨0, none⟩ }.setFlds [
      (F.GRD_CTRL_DELIVERED, getBits v 0 1), (F.GRD_CTRL_PEER_TOOK, getBits v 2 1)]
    if s.flag F.GRD_CTRL_DELIVERED then s.continueStart else s

/-- What follows a WRITE of a guard register. -/
def State.afterGuard (s : State) (off : Nat) : State :=
  if off = Row.GRD_VTABLE_CRC.base then s.tableWritten
  else if Row.GRD_FLT_SRC.base ≤ off ∧ off < Row.GRD_FLT_SRC.base + 0x200 then s.resetSrc ((off - Row.GRD_FLT_SRC.base) / 8)
  else s

/-- A WRITE of one guard register. `f`: the answers to the fetches of a takeover. -/
def State.guardPut (s : State) (off : Nat) (v : Word) (f : Fetch) : State :=
  match regAt off with
  | none => s.guardFail 1
  | some (r, _) =>
    if off = Row.GRD_CTRL.base then s.writeGrdCtrl v
    else if off = Row.GRD_TKO.base then { s with guardResp := ⟨0, none⟩ }.writeTko v f
    else ({ s with guardResp := ⟨0, none⟩ }.setReg off (storeFields .gw r.fields (s.regs.get off) v)).afterGuard off

/-- A READ transaction. -/
def State.guardRead (s : State) (h : BitVec 32) : State :=
  if !s.guardUp then s
  else if !headerOk h 0 then s.guardFail 3
  else if (regAt (guardOff h)).isNone then s.guardFail 1
  else { s with guardResp := ⟨0, some (s.readWord (guardOff h))⟩ }

/-- A WRITE transaction. -/
def State.guardWrite (s : State) (h : BitVec 32) (v : Word) : State :=
  if !s.guardUp then s else if !headerOk h 1 then s.guardFail 3 else s.guardPut (guardOff h) v []

/-- A WRITE of a named register. -/
def State.guardPutNamed (s : State) (off : Nat) (v : Word) (f : Fetch) : State :=
  if s.guardUp then s.guardPut off v f else s

/-- A REPAIR transaction: its words go to the repair store, in steps 1 to 4 of a cold start. -/
def State.guardRepair (s : State) (h : BitVec 32) (ws : List (BitVec 32)) : State :=
  if !s.guardUp then s
  else if !repairOk h ws.length then s.guardFail 3
  else if s.life ≠ .coldWait ∨ s.flag F.GRD_CTRL_DELIVERED then s.guardFail 2
  else { s with repair := s.repair ++ ws, guardResp := ⟨0, none⟩ }

/-- A gap of more than 16 cycles inside a transaction. -/
def State.guardGap (s : State) : State := if s.guardUp then s.guardFail 3 else s

end Sys2Proof.Machine
end

