-- ==== Sys2Proof/Machine/Boundary.lean ====
section
/-! DEFINITION. Host writes: what a write of each register does (R8, R62, R71, R118, R128 to R132, R141, R215, R289, R338, R378,
R411, R446, R467, R491), and the push queues (R132). -/

namespace Sys2Proof.Machine

/-! ### A register without an operation of its own (R8) -/

/-- A W1C register after a write: each bit written as 1 clears. -/
def clearOnes (fs : List FieldRow) (w v : Word) : Word :=
  (fs.filter (fun f => f.acc == .w1c)).foldl (fun w f =>
    let n := f.hi - f.lo + 1
    putBits w f.lo n (getBits (w &&& ~~~v) f.lo n)) w

/-- Are writes of the register ignored: thresholds of an undefined pool (R179), the epoch of a flow without a Riffle entry
(R339)? -/
def State.writeIgnored (s : State) (r : RegRow) (ix : List Nat) : Bool :=
  (r.base == Row.RSV_POOL_THR.base && (s.pool? (at0 ix)).isNone) || (r.base == Row.RFL_EPOCH.base && (s.riffle? (at0 ix)).isNone)

/-- A write of 1 to VALID of a capture clears the whole capture (R446). -/
def State.clearCapture (s : State) (off : Nat) : State :=
  { s with regs := (((s.regs.erase off).erase (off + 8)).erase (off + 16)).erase (off + 24) }

/-- A write acts as the access codes of the register's fields state: RWS fields take it in the shadow copy, RW and W1C fields
in the live one. A setting's new value goes to part 2 of retained memory (R488). -/
def State.writeReg (s : State) (off : Nat) (v : Word) : State :=
  match regAt off with
  | none => s
  | some (r, ix) =>
    if s.writeIgnored r ix then s
    else if r.shadowed then { s with shadow := s.shadow.set off (storeFields .rws r.fields (s.shadow.get off) v) }
    else if r.base = Row.FLT_CAP_ADDR.base then (if getBits v 63 1 = 1 then s.clearCapture off else s)
    else
      let s := s.setReg off (clearOnes r.fields (storeFields .rw r.fields (s.regs.get off) v) v)
      if isSetting off then s.saveSettings else s

/-! ### Registers with an operation of their own -/

/-- A write of FRM_CTRL: the operation first, then CANCEL. OP 0b11 is logged (R81), and while LOCKUP_BUSY is 1 it sets
BUSY_REJECT as every OP write does (R62). DEDUCED, log entry 62. -/
def State.writeFrm (s : State) (r : CsReq) (v : Word) (f : Fetch) : State :=
  let op := getBits v 0 2
  let s := if op = 1 then s.attempt false f else if op = 2 then s.attempt true f
    else if op = 3 then (s.logAccess r Row.FRM_CTRL.base).rejectBusy else s
  if getBits v 4 1 = 1 then s.cancelAttempt else s

/-- A write of RFL_KAT_CTRL: a GO takes the values as they stand, unless an evaluation runs (R338). -/
def State.writeKat (s : State) (v : Word) : State :=
  let s := s.setReg Row.RFL_KAT_CTRL.base (storeFields .rw Row.RFL_KAT_CTRL.fields (s.regs.get Row.RFL_KAT_CTRL.base) v)
  if getBits v 16 1 = 1 ∧ s.katDue.isNone then
    { s with katDue := some (s.fld F.RFL_KAT_SEED_SEED, s.fld F.RFL_KAT_CTR_LO_C_LO, s.fld F.RFL_KAT_CTR_HI_C_HI,
        s.fld F.RFL_KAT_CTRL_FLOW, s.fld F.RFL_KAT_CTRL_KIND, s.fld F.RFL_KAT_CTRL_J) }.setFld F.RFL_KAT_CTRL_DONE 0
  else s

/-- The result of a known-answer evaluation, as (OUT low, OUT high). -/
def katResult (seed lo hi flow kind j : Nat) : Nat × Nat :=
  let d := riffle128 seed flow lo hi
  let share := shareOf (d.1 + d.2 * 2 ^ 64) j
  if kind = 1 then (uniformF32 share, 0) else if kind = 2 then (normalTransform share, 0) else d

/-- The evaluation finishes: its result is in RFL_KAT_OUT, and DONE is 1. -/
def State.katDone (s : State) : State :=
  match s.katDue with
  | none => s
  | some (seed, lo, hi, flow, kind, j) =>
    let d := katResult seed lo hi flow kind j
    { s with katDue := none }.setFlds [(F.RFL_KAT_OUT_LO_OUT, d.1), (F.RFL_KAT_OUT_HI_OUT, d.2), (F.RFL_KAT_CTRL_DONE, 1)]

/-- One injection is used up: COUNT falls, and ARM clears at 0. -/
def State.usedInjection (s : State) : State :=
  let n := s.fld F.TST_INJ_COUNT - 1
  s.setFlds [(F.TST_INJ_COUNT, n), (F.TST_INJ_ARM, if n = 0 then 0 else 1)]

/-- Is a rail injection armed for a source? -/
def State.armed (s : State) (src : Nat) : Bool :=
  s.testMode && s.flag F.TST_INJ_ARM && s.fld F.TST_INJ_SOURCE == src && s.flag F.TST_INJ_RAIL

/-- A unit of the kind that a source covers, if that kind is fenceable (R456). -/
def unitOf (src i : Nat) : Option FenceUnit :=
  if src = 0x21 ∨ src = 0x22 then some (.lane (i % 144))
  else if src = 0x23 then some (.engine (i % 52))
  else if src = 0x24 then some (if i % 52 < 32 then .search (i % 52) else if i % 52 < 48 then .parser (i % 52 - 32) else .tokeniser (i % 52 - 48))
  else if src = 0x2A then some (.port (i % 16))
  else none

/-- What an injected event reports: TST_INJ names no scope, access or unit. -/
def State.injectedInfo (s : State) (src : Nat) : FaultInfo × State :=
  let (n, s) := s.nextFree
  ({ FaultInfo.of .instance_ with access := 7, unit := unitOf src (Config.injectedUnit n) }, s)

/-- Inject one rail fault. -/
def State.injectRail (s : State) : State :=
  let src := s.fld F.TST_INJ_SOURCE
  let (i, s) := s.usedInjection.injectedInfo src
  s.railFault src i

/-- Inject the events of a source. -/
def injectEvents (src : Nat) : Nat → State → State
  | 0, s => s
  | n + 1, s =>
    let (i, s) := s.usedInjection.injectedInfo src
    injectEvents src n (s.faultEvent src i)

/-- A write of TST_INJ (R467). -/
def State.writeInj (s : State) (v : Word) : State :=
  if !s.testMode then s
  else
    let s := s.setReg Row.TST_INJ.base (storeFields .rw Row.TST_INJ.fields (s.regs.get Row.TST_INJ.base) v)
    if !s.flag F.TST_INJ_ARM then s
    else if s.fld F.TST_INJ_COUNT = 0 then s.setFld F.TST_INJ_ARM 0
    else if s.flag F.TST_INJ_RAIL then s.injectRail
    else injectEvents (s.fld F.TST_INJ_SOURCE) (s.fld F.TST_INJ_COUNT) s

/-- A rail fault ends; in test mode the next armed one begins. -/
def State.railFaultEnd (s : State) (src : Nat) : State :=
  let s := s.railEnd src
  if s.armed src then s.injectRail else s

/-- The commit regions that are no tenancy page. -/
def fixedRegions : List Region := [.reservoir, .platen, .trim, .delta, .ptc]

/-- A write outside the tenancy pages. -/
def State.topEffect (s : State) (r : CsReq) (off : Nat) (v : Word) (f : Fetch) : State :=
  if off = Row.GLB_RESET.base then s.glbReset r v f
  else if off = Row.FRM_CTRL.base then s.writeFrm r v f
  else if off = Row.RFL_KAT_CTRL.base then s.writeKat v
  else if off = Row.TST_INJ.base then s.writeInj v
  else match fixedRegions.find? (fun c => commitOff c == off) with
    | some c => if getBits v 0 1 = 1 then s.commitGo c else s
    | none => s.writeReg off v

/-! ### Tenancy pages (R132) -/

/-- The registers whose writes are pushes and share the push queue. -/
def pushRegs : List Nat := [
  Row.TEN_DOORBELL.base, Row.TEN_CQ_DOORBELL.base, Row.TEN_LIVE_DOORBELL.base, Row.TEN_PKT_DOORBELL.base,
  Row.TEN_GALLEY_SEQ.base, Row.TEN_GALLEY_STEP.base, Row.TEN_GALLEY_SKIP.base, Row.TEN_DELTA_ALT.base,
  Row.TEN_DELTA_DONE.base]

/-- A write of a register of tenancy t's page. -/
def State.pageEffect (s : State) (r : CsReq) (t : Fin 16) (off : Nat) (v : Word) (f : Fetch) : State :=
  let o := off - 0x100000 * t.val
  if pushRegs.contains o then s.pushWrite r t off v false f
  else if o = Row.TEN_CTRL.base then (if getBits v 0 1 = 1 then s.tenancyReset t else s)
  else if o = Row.TEN_RING_CMD.base then s.ringCommand t v f
  else if o = Row.TEN_SQ_TABLE.base then s.sqTable r t v
  else if o = Row.TEN_CQ_TABLE.base then s.cqTable r t v
  else if o = Row.TEN_LIVE_TABLE.base then s.liveTable r t v
  else if o = Row.TEN_COMMIT.base then (if getBits v 0 1 = 1 then s.commitGo (.page t) else s)
  else s.writeReg off v

/-- A write of a page while the tenancy's push queue is full stalls; so do those behind it, whoever sent them: R132 speaks of the
tenancy's own writes and of other tenancies', and a write of the management view to the page is held as the tenancy's own (DESIGN
CHOICE, log entry 78). -/
def State.onPage (s : State) (r : CsReq) (t : Fin 16) (off : Nat) (v : Word) (f : Fetch) : State :=
  if s.stalls t || !(s.tenRun t).stalled.isEmpty then
    s.modTen t (fun x => { x with stalled := x.stalled ++ [⟨r, off, v, s.now, false⟩] })
  else s.pageEffect r t off v f

/-- Stalled writes go on, in order, while the queue is not full. -/
def State.unstall (t : Fin 16) (f : Fetch) : Nat → State → State
  | 0, s => s
  | n + 1, s =>
    if s.stalls t then s
    else match (s.tenRun t).stalled with
      | [] => s
      | p :: rest =>
        let s := s.modTen t (fun x => { x with stalled := rest })
        State.unstall t f n (if p.die then s.pushWrite p.req t p.off p.v true f else s.pageEffect p.req t p.off p.v f)

/-- One push is drained, from the tenancies in rotation. -/
def State.pushDrain (s : State) (f : Fetch) : State :=
  if !s.active then s
  else match s.nextPusher with
    | none => s
    | some t =>
      let t : Fin 16 := Fin.ofNat 16 t
      let s := s.drainOne t f
      State.unstall t f (s.tenRun t).stalled.length { s with pushRot := (t.val + 1) % 16 }

/-! ### Host writes -/

/-- The effect of a host write that its checks let through. -/
def State.writeEffect (s : State) (r : CsReq) (off : Nat) (v : Word) (f : Fetch) : State :=
  match regionOf off with
  | .page t => s.onPage r (Fin.ofNat 16 t) off v f
  | .mirror => s
  | .global | .management | .test => s.topEffect r off v f

/-- A host write of `len` bytes at an offset. `f`: what the fabric answers to the fetches that the write causes. -/
def State.hostWrite (s : State) (r : CsReq) (off len : Nat) (v : Word) (f : Fetch) : State :=
  s.csWrite r off len v f (fun s => s.writeEffect r off v f)

/-- An access that waited is performed. -/
def State.performHeld (s : State) (h : HeldAccess) : State :=
  if h.write then s.csWriteNow h.req h.off h.len (fun s => s.writeEffect h.req h.off h.v h.fetch)
  else s.csReadNow h.req h.off h.len

/-- The accesses that wait are performed in order, up to one whose domain is stopped, which is woken (R474, R517). -/
def State.performAll : Nat → State → State
  | 0, s => s
  | n + 1, s => match s.heldCs with
    | [] => s
    | h :: rest =>
      if s.waitsFor h.req h.off h.len h.write then s.wake (regDomain h.off)
      else State.performAll n ({ s with heldCs := rest }.performHeld h)

/-- CLK_RUN rises for a domain, and the accesses held for it proceed (R474). -/
def State.clockUp (s : State) (d : Domain) : State :=
  let s := s.clkRun d
  if s.dead || s.qclkHeld then s else State.performAll s.heldCs.length s

/-- A host write of a register of tenancy t's page. -/
def State.hostPage (s : State) (r : CsReq) (t : Fin 16) (row : RegRow) (v : Word) (f : Fetch) : State :=
  s.hostWrite r (pageOff t row) 8 v f

end Sys2Proof.Machine
end

