-- ==== Sys2Proof/Machine/Moments.lean ====
section
/-! DEFINITION. Moments of a command: what a lock-up, amendment, takeover or forme reload does when its moment comes (R60, R68,
R69, R459, R487), which commands act in which state of the instance, and what every command ends with. -/

namespace Sys2Proof.Machine

/-- A command of an instance that runs: without READY nothing of it happens (R18, R442). -/
def State.whenUp (s : State) (op : State → State) : State := if s.active then op s else s

/-- A command of the fabric ports: none while FCLK is in reset. -/
def State.onFabric (s : State) (op : State → State) : State := if s.dead || s.qclkHeld then s else op s

/-- A command of the always-on domain: none while AON_RST_N is low. -/
def State.whileOn (s : State) (op : State → State) : State := if s.life = .cold then s else op s

/-- What every command ends with: events are counted and acted on, work moves along, and stopped domains with work are
woken. -/
def State.finish (s : State) : State := s.settle.wakeForWork

/-- The job whose quoin phase runs. -/
def State.quoinJob (s : State) : Option Job := s.job.filter (fun j => j.phase == 5)

/-- The quoin point of a job, or the end of step 7 of an attempt that a CANCEL ends (R62). -/
def State.quoinNow (s : State) (j : Job) : State :=
  match j.kind with
  | .full | .amend => if j.cancelled then (s.endAttempt 3).releaseClaims else s.step8 j
  | .reload => s.finishReload j
  | .takeover => s

/-- The quoin point of a full lock-up, or of a forme reload: no task is in flight. -/
def State.quoin (s : State) : State :=
  match s.quoinJob with
  | some j => if (j.kind = .full ∨ j.kind = JobKind.reload) ∧ !s.draining j then s.quoinNow j else s
  | none => s

/-- FRM_QUOIN_TIMEOUT expires: tasks still in flight complete with ABORTED_HOST at the quoin. -/
def State.quoinExpire (s : State) : State :=
  match s.quoinJob with
  | some j => (s.advance (j.started + s.quoinTimeoutNs)).quoinNow j
  | none => s

/-- The quoin point of an amendment: no task of a removed flow is in flight. -/
def State.amendPoint (s : State) : State :=
  match s.quoinJob with
  | some j => if j.kind = .amend ∧ !s.draining j then s.quoinNow j else s
  | none => s

/-- The reservations of an amendment, or of a takeover, are all held. -/
def State.reservationsHeld (s : State) : State :=
  match s.job with
  | some j => if j.kind = .amend ∧ j.phase = 4 ∧ j.held then s.toQuoin j else s.takeoverHeld
  | none => s

end Sys2Proof.Machine
end

