-- ==== Sys2Proof/Machine/ExecBatches.lean ====
section
/-! DEFINITION. Galley and Delta (R361 to R401): the commands of batches, layers and the stagger. One meaning per command. -/

namespace Sys2Proof.Machine

/-- A write of TEN_GALLEY_STEP triggers a step (R369). -/
def execTenGalleyStep (r : CsReq) (t : Fin 16) (v : Word) (s : State) : Host.Outcome State Fault Refusal :=
  .next (s.hostPage r t Row.TEN_GALLEY_STEP v []).finish

/-- A MSG STEP triggers a step (R369, R506). -/
def execStep (node : Nat) (payload : BitVec 16) (s : State) : Host.Outcome State Fault Refusal :=
  .next (s.onFabric (fun s => s.message node 2 (leBytes 2 payload.toNat) [])).finish

/-- A held trigger starts its step (R369). -/
def execHeldStepStart (group : Fin 64) (s : State) : Host.Outcome State Fault Refusal :=
  .next (s.whenUp (fun s => s.heldStep group.val)).finish

/-- A write of TEN_GALLEY_SEQ (R370). -/
def execGalleyLeave (r : CsReq) (t : Fin 16) (v : Word) (s : State) : Host.Outcome State Fault Refusal :=
  .next (s.hostPage r t Row.TEN_GALLEY_SEQ v []).finish

/-- A write of TEN_GALLEY_SKIP (R361). -/
def execGalleySkip (r : CsReq) (t : Fin 16) (v : Word) (s : State) : Host.Outcome State Fault Refusal :=
  .next (s.hostPage r t Row.TEN_GALLEY_SKIP v []).finish

/-- A write of TEN_GALLEY_SKIP with FLUSH (R362). -/
def execGalleyFlush (r : CsReq) (t : Fin 16) (v : Word) (s : State) : Host.Outcome State Fault Refusal :=
  .next (s.hostPage r t Row.TEN_GALLEY_SKIP v []).finish

/-- HOLD_US passes at a flow (R361, R362). -/
def execHoldUsExpire (flow : BitVec 12) (s : State) : Host.Outcome State Fault Refusal :=
  .next (s.whenUp (fun s => s.holdUsExpire flow.toNat)).finish

/-- The HOLD policy's limit passes (R363). -/
def execHoldLimit (flow : BitVec 12) (s : State) : Host.Outcome State Fault Refusal :=
  .next (s.whenUp (fun s => s.holdLimitExpire flow.toNat)).finish

/-- A write of TEN_DELTA_ALT that sets ALT (R400, R411). -/
def execDeltaAltSet (r : CsReq) (t : Fin 16) (v : Word) (s : State) : Host.Outcome State Fault Refusal :=
  .next (s.hostPage r t Row.TEN_DELTA_ALT v []).finish

/-- A write of TEN_DELTA_ALT that clears ALT (R400, R411). -/
def execDeltaAltClear (r : CsReq) (t : Fin 16) (v : Word) (s : State) : Host.Outcome State Fault Refusal :=
  .next (s.hostPage r t Row.TEN_DELTA_ALT v []).finish

/-- A MSG FALLBACK (R400, R506). -/
def execFallback (node : Nat) (payload : BitVec 24) (s : State) : Host.Outcome State Fault Refusal :=
  .next (s.onFabric (fun s => s.message node 4 (leBytes 3 payload.toNat) [])).finish

/-- A MSG LAYER_DONE (R396, R506). -/
def execLayerDone (node : Nat) (payload : BitVec 32) (s : State) : Host.Outcome State Fault Refusal :=
  .next (s.onFabric (fun s => s.message node 3 (leBytes 4 payload.toNat) [])).finish

/-- A write of TEN_DELTA_DONE (R396, R411). -/
def execTenDeltaDone (r : CsReq) (t : Fin 16) (v : Word) (s : State) : Host.Outcome State Fault Refusal :=
  .next (s.hostPage r t Row.TEN_DELTA_DONE v []).finish

/-- A next-layer task has waited DRAIN_TIMEOUT_US (R398). -/
def execDrainTimeout (id : Nat) (s : State) : Host.Outcome State Fault Refusal :=
  .next (s.whenUp (fun s => s.drainTimeout id)).finish

/-- A release group starts (R401). -/
def execStaggerGroupStart (group : Fin 16) (s : State) : Host.Outcome State Fault Refusal :=
  .next (s.whenUp (fun s => s.groupStart group.val)).finish

/-- A deadline task's held write reaches a_D − w (R401). -/
def execStaggerHoldLimit (s : State) : Host.Outcome State Fault Refusal :=
  .next (s.whenUp State.staggerLimit).finish

/-- RAMP_NS passes and the window closes (R401). -/
def execStaggerWindowClose (s : State) : Host.Outcome State Fault Refusal :=
  .next (s.whenUp State.staggerClose).finish

/-- One QCLK cycle of Weir (R406). -/
def execWeirBucketRefill (s : State) : Host.Outcome State Fault Refusal :=
  .next (s.whenUp (fun s => s.weirRefill s.waitsAtDelta))

end Sys2Proof.Machine
end

