-- ==== Sys2Proof/Machine/ExecBoundary.lean ====
section
/-! DEFINITION. Riffle known answers, test injection, and register reads and writes (R8, R338, R467). One meaning per command. -/

namespace Sys2Proof.Machine

/-- A write of RFL_KAT_CTRL (R338). -/
def execKatGo (r : CsReq) (v : Word) (s : State) : Host.Outcome State Fault Refusal :=
  .next (s.hostWrite r Row.RFL_KAT_CTRL.base 8 v []).finish

/-- The evaluation finishes (R338). -/
def execKatDone (s : State) : Host.Outcome State Fault Refusal :=
  .next (s.whenUp State.katDone)

/-- A write of TST_INJ (R467). -/
def execTstInj (r : CsReq) (v : Word) (s : State) : Host.Outcome State Fault Refusal :=
  .next (s.hostWrite r Row.TST_INJ.base 8 v []).finish

/-- A host write (R6, R8, R505, R514, R516). -/
def execRegisterWrite (r : CsReq) (off : Nat) (len : Nat) (v : Word) (s : State) : Host.Outcome State Fault Refusal :=
  .next (s.hostWrite r off len v []).finish

/-- A host read (R6, R8, R505, R514, R516). -/
def execRegisterRead (r : CsReq) (off : Nat) (len : Nat) (s : State) : Host.Outcome State Fault Refusal :=
  .next (s.csRead r off len).finish

end Sys2Proof.Machine
end

