-- ==== Sys2Proof/Machine/ExecFaults.lean ====
section
/-! DEFINITION. Fabric responses, link errors and the fault collector (R437 to R465, R504 to R510). One meaning per command. -/

namespace Sys2Proof.Machine

/-- A read response, matched by TAG (R504, R509, R510). -/
def execRdData (tag : BitVec 16) (status : RespStatus) (data : List Byte) (s : State) : Host.Outcome State Fault Refusal :=
  .next (s.onFabric (fun s => s.response tag.toNat true (status == .ok) data)).finish

/-- An acknowledgement, matched by TAG (R504, R509, R510). -/
def execAck (tag : BitVec 16) (status : RespStatus) (s : State) : Host.Outcome State Fault Refusal :=
  .next (s.onFabric (fun s => s.response tag.toNat false (status == .ok) [])).finish

/-- A request has no response within 100 µs (R510). -/
def execFabricTimeout (tag : BitVec 16) (s : State) : Host.Outcome State Fault Refusal :=
  .next (s.onFabric (fun s => s.fabricTimeout tag.toNat)).finish

/-- A flit fails its link CRC (R508). -/
def execLinkCrcFail (port : Fin 16) (s : State) : Host.Outcome State Fault Refusal :=
  .next (s.onFabric (fun s => s.linkFail port.val)).finish

/-- A flit arrives without a credit (R507). -/
def execCreditViolation (port : Fin 16) (s : State) : Host.Outcome State Fault Refusal :=
  .next (s.onFabric (fun s => s.fencePort port.val)).finish

/-- A MSG that the instance may refuse (R506). -/
def execBadMsg (node : Nat) (type : BitVec 16) (payload : List Byte) (s : State) : Host.Outcome State Fault Refusal :=
  .next (s.onFabric (fun s => s.message node type.toNat payload [])).finish

/-- A fault source reports an event (R437, R441). -/
def execFaultEvent (source : BitVec 8) (info : FaultInfo) (s : State) : Host.Outcome State Fault Refusal :=
  .next (s.whileOn (fun s => s.faultEvent source.toNat info)).finish

/-- A dual-rail pair is in rail fault (R439). -/
def execRailFault (source : BitVec 8) (info : FaultInfo) (s : State) : Host.Outcome State Fault Refusal :=
  .next (s.whileOn (fun s => s.railFault source.toNat info)).finish

/-- The pair reads 0b01 again (R439, R467). -/
def execRailFaultEnd (source : BitVec 8) (s : State) : Host.Outcome State Fault Refusal :=
  .next (s.whileOn (fun s => s.railFaultEnd source.toNat)).finish

/-- ESC_W_MS passes with too few events (R444). -/
def execEscalationDecay (source : BitVec 8) (s : State) : Host.Outcome State Fault Refusal :=
  .next (s.whileOn (fun s => s.escDecay source.toNat))

/-- The collector's self-check runs (R447). -/
def execCollectorSelfCheck (pass : Bool) (s : State) : Host.Outcome State Fault Refusal :=
  .next (s.whileOn (fun s => { s with selfFail := !pass }))

/-- A piece makes no progress for 1 ms (R437). -/
def execWatchdog (id : Nat) (s : State) : Host.Outcome State Fault Refusal :=
  .next (s.watchdog id).finish

/-- A guard WRITE of GRD_TKO (R459, R471). -/
def execGrdTko (v : Word) (f : Fetch) (s : State) : Host.Outcome State Fault Refusal :=
  .next (s.guardPutNamed Row.GRD_TKO.base v f).finish

/-- CLAIM_MS expires (R461). -/
def execTakeoverClaimTimeout (s : State) : Host.Outcome State Fault Refusal :=
  .next (s.whenUp State.takeoverTimeout).finish

end Sys2Proof.Machine
end

