-- ==== Sys2Proof/Machine/ExecForme.lean ====
section
/-! DEFINITION. Forme port and commits (R56 to R76): the commands of the forme life. One meaning per command. -/

namespace Sys2Proof.Machine

/-- A write of FRM_CTRL.OP 0b01 starts a full lock-up (R56 to R60). -/
def execLockUp (r : CsReq) (f : Fetch) (s : State) : Host.Outcome State Fault Refusal :=
  .next (s.hostWrite r Row.FRM_CTRL.base 8 1 f).finish

/-- A write of FRM_CTRL.OP 0b10 starts an amendment (R66 to R70). -/
def execAmendment (r : CsReq) (f : Fetch) (s : State) : Host.Outcome State Fault Refusal :=
  .next (s.hostWrite r Row.FRM_CTRL.base 8 2 f).finish

/-- A write of FRM_CTRL.CANCEL (R62). -/
def execCancel (r : CsReq) (s : State) : Host.Outcome State Fault Refusal :=
  .next (s.hostWrite r Row.FRM_CTRL.base 8 16 []).finish

/-- The global task boundary with no task in flight (R60). -/
def execQuoin (s : State) : Host.Outcome State Fault Refusal :=
  .next (s.whenUp State.quoin).finish

/-- FRM_QUOIN_TIMEOUT expires during the drain (R60, R69). -/
def execQuoinTimeout (s : State) : Host.Outcome State Fault Refusal :=
  .next (s.whenUp State.quoinExpire).finish

/-- The quoin point of an amendment (R69). -/
def execAmendQuoin (s : State) : Host.Outcome State Fault Refusal :=
  .next (s.whenUp State.amendPoint).finish

/-- Every reservation of the added flows is held (R68). -/
def execAmendReservationsHeld (s : State) : Host.Outcome State Fault Refusal :=
  .next (s.whenUp State.reservationsHeld).finish

/-- FRM_QUOIN_TIMEOUT expires with reservations short (R68). -/
def execAmendClaimTimeout (s : State) : Host.Outcome State Fault Refusal :=
  .next (s.whenUp State.claimTimeout).finish

/-- The retained copy is complete (R76). -/
def execRetainDone (s : State) : Host.Outcome State Fault Refusal :=
  .next s.retainDone

/-- A write of COMMIT.GO (R71, R72). -/
def execCommitGo (r : CsReq) (region : Region) (s : State) : Host.Outcome State Fault Refusal :=
  .next (s.hostWrite r (commitOff region) 8 1 []).finish

/-- The captured values become live (R71). -/
def execCommitApply (region : Region) (s : State) : Host.Outcome State Fault Refusal :=
  .next (s.commitApply region).finish

end Sys2Proof.Machine
end

