-- ==== Sys2Proof/Machine/ExecGuard.lean ====
section
/-! DEFINITION. The guard port (R500 to R502). One meaning per command. -/

namespace Sys2Proof.Machine

/-- A READ transaction (R501). -/
def execGuardRead (header : BitVec 32) (s : State) : Host.Outcome State Fault Refusal :=
  .next (s.guardRead header).finish

/-- A WRITE transaction (R502). -/
def execGuardWrite (header : BitVec 32) (v : Word) (s : State) : Host.Outcome State Fault Refusal :=
  .next (s.guardWrite header v).finish

/-- A REPAIR transaction (R502). -/
def execGuardRepair (header : BitVec 32) (words : List (BitVec 32)) (s : State) : Host.Outcome State Fault Refusal :=
  .next (s.guardRepair header words).finish

/-- A WRITE of GRD_VTABLE_CRC (R415, R417). -/
def execGrdVtableCrc (v : Word) (s : State) : Host.Outcome State Fault Refusal :=
  .next (s.guardPutNamed Row.GRD_VTABLE_CRC.base v []).finish

/-- A WRITE of GRD_CTRL with FORGET (R489). -/
def execForget (s : State) : Host.Outcome State Fault Refusal :=
  .next (s.guardPutNamed Row.GRD_CTRL.base 2 []).finish

/-- A WRITE of GRD_CTRL with DELIVERED (R482, R484, R485). -/
def execDelivered (peerTook : Bool) (s : State) : Host.Outcome State Fault Refusal :=
  .next (s.guardPutNamed Row.GRD_CTRL.base (BitVec.ofNat 64 (1 + 4 * b2n peerTook)) []).finish

/-- A WRITE of GRD_FLT_SRC (R444). -/
def execGrdFltSrc (source : Fin 64) (v : Word) (s : State) : Host.Outcome State Fault Refusal :=
  .next (s.guardPutNamed (Row.GRD_FLT_SRC.base + 8 * source.val) v []).finish

/-- A gap inside a transaction (R501). -/
def execGuardTransactionGap (s : State) : Host.Outcome State Fault Refusal :=
  .next (s.guardGap).finish

end Sys2Proof.Machine
end

