-- ==== Sys2Proof/Machine/ExecPower.lean ====
section
/-! DEFINITION. Power states, caps, thermal limits, boost and complement (R412 to R433). One meaning per command. -/

namespace Sys2Proof.Machine

/-- VR_ALERT_N falls (R421). -/
def execVrAlertNFall (s : State) : Host.Outcome State Fault Refusal :=
  .next (s.alertFall).finish

/-- VR_ALERT_N rises (R421). -/
def execVrAlertNRise (s : State) : Host.Outcome State Fault Refusal :=
  .next (s.alertRise).finish

/-- ALERT_HOLD_US passes (R419, R421). -/
def execAlertHoldExpire (s : State) : Host.Outcome State Fault Refusal :=
  .next (s.alertExpire).finish

/-- A BARRIER_HINT edge (R432). -/
def execBarrierHint (s : State) : Host.Outcome State Fault Refusal :=
  .next (s.barrierHint).finish

/-- A BARRIER_RELEASE edge (R401, R433). -/
def execBarrierRelease (s : State) : Host.Outcome State Fault Refusal :=
  .next (s.barrierRelease).finish

/-- A ramp time point (R433). -/
def execRampStep (s : State) : Host.Outcome State Fault Refusal :=
  .next (s.whenUp State.rampStep).finish

/-- A hint has had no release for HINT_MAX_US (R433). -/
def execHintMaxExpire (s : State) : Host.Outcome State Fault Refusal :=
  .next (s.whenUp State.hintExpire).finish

/-- SHARE arrives (R424, R499). -/
def execShare (v : BitVec 28) (s : State) : Host.Outcome State Fault Refusal :=
  .next (s.gotShare v.toNat)

/-- MEAS arrives (R428, R429, R499). -/
def execMeas (v : BitVec 28) (s : State) : Host.Outcome State Fault Refusal :=
  .next (s.gotMeas v.toNat).finish

/-- No measurement for 100 µs (R429). -/
def execMeasStale (s : State) : Host.Outcome State Fault Refusal :=
  .next (s.measStale).finish

/-- AGREE_MS of agreement pass (R428). -/
def execAgreeExpire (s : State) : Host.Outcome State Fault Refusal :=
  .next (s.agreeExpire).finish

/-- VACK arrives (R414, R499). -/
def execVack (v : BitVec 28) (s : State) : Host.Outcome State Fault Refusal :=
  .next (s.gotVack v.toNat).finish

/-- No VACK within 50 µs (R414). -/
def execVreqTimeout (s : State) : Host.Outcome State Fault Refusal :=
  .next (s.vreqTimeout).finish

/-- 1 ms after an abandoned step up (R414). -/
def execVreqRetry (s : State) : Host.Outcome State Fault Refusal :=
  .next (s.vreqRetry).finish

/-- Every ceiling has allowed a faster state for UP_HOLD_US (R414). -/
def execStepUp (s : State) : Host.Outcome State Fault Refusal :=
  .next (s.stepUp).finish

/-- The 10 µs cap evaluation (R425 to R427). -/
def execCapEvaluate (s : State) : Host.Outcome State Fault Refusal :=
  .next (s.capEvaluate).finish

/-- The 10 µs temperature sample (R416, R419). -/
def execTempSample (tj : BitVec 16) (s : State) : Host.Outcome State Fault Refusal :=
  .next (s.tempSample tj.toInt).finish

/-- TJ stays at or above TJ_MAX (R419). -/
def execTjMaxStep (s : State) : Host.Outcome State Fault Refusal :=
  .next (s.tjMaxStep).finish

/-- The 1 µs current estimate (R420). -/
def execCurrentEstimate (s : State) : Host.Outcome State Fault Refusal :=
  .next (s.currentEstimate).finish

/-- The EDC timer reaches EDC_MS (R419). -/
def execEdcTimerExpire (s : State) : Host.Outcome State Fault Refusal :=
  .next (s.edcTimerExpire).finish

/-- The supply falls below DROOP_MV (R419). -/
def execDroop (s : State) : Host.Outcome State Fault Refusal :=
  .next (s.droop).finish

/-- The supply has been above DROOP_MV for 1 µs (R419). -/
def execDroopEnd (s : State) : Host.Outcome State Fault Refusal :=
  .next (s.droopEnd).finish

/-- Boost residency reaches the budget (R422). -/
def execBoostBudgetEnd (s : State) : Host.Outcome State Fault Refusal :=
  .next (s.budgetEnd).finish

/-- A minute of TIME_BUS passes (R423). -/
def execBoostBinRoll (s : State) : Host.Outcome State Fault Refusal :=
  .next (s.binRoll).finish

/-- The bins are written to part 3 (R488). -/
def execBoostBinsSave (s : State) : Host.Outcome State Fault Refusal :=
  .next s.saveBins

/-- A 1 ms window ends (R105). -/
def execOffloadWindow (s : State) : Host.Outcome State Fault Refusal :=
  .next s.offloadWindow

end Sys2Proof.Machine
end

