-- ==== Sys2Proof/Machine/ExecQueues.lean ====
section
/-! DEFINITION. Tenancies, rings, live ports, tasks, berths and pools (R96 to R193, R228 to R289): the commands of the queues. One meaning per command. -/

namespace Sys2Proof.Machine

/-- A write of TEN_CTRL.RESET (R118). -/
def execTenancyReset (r : CsReq) (t : Fin 16) (s : State) : Host.Outcome State Fault Refusal :=
  .next (s.hostPage r t Row.TEN_CTRL 1 []).finish

/-- TEN_RING_CMD enables a submission ring (R128). -/
def execRingEnableSq (r : CsReq) (t : Fin 16) (ring : BitVec 20) (f : Fetch) (s : State) : Host.Outcome State Fault Refusal :=
  .next (s.hostPage r t Row.TEN_RING_CMD (ringCmdWord 0 1 ring.toNat) f).finish

/-- TEN_RING_CMD disables a submission ring (R129). -/
def execRingDisableSq (r : CsReq) (t : Fin 16) (ring : BitVec 20) (s : State) : Host.Outcome State Fault Refusal :=
  .next (s.hostPage r t Row.TEN_RING_CMD (ringCmdWord 0 2 ring.toNat) []).finish

/-- TEN_RING_CMD enables a completion ring (R128, R135). -/
def execRingEnableCq (r : CsReq) (t : Fin 16) (ring : BitVec 20) (f : Fetch) (s : State) : Host.Outcome State Fault Refusal :=
  .next (s.hostPage r t Row.TEN_RING_CMD (ringCmdWord 1 1 ring.toNat) f).finish

/-- TEN_RING_CMD disables a completion ring (R135). -/
def execRingDisableCq (r : CsReq) (t : Fin 16) (ring : BitVec 20) (s : State) : Host.Outcome State Fault Refusal :=
  .next (s.hostPage r t Row.TEN_RING_CMD (ringCmdWord 1 2 ring.toNat) []).finish

/-- A write of TEN_SQ_TABLE (R129). -/
def execTenSqTable (r : CsReq) (t : Fin 16) (v : Word) (s : State) : Host.Outcome State Fault Refusal :=
  .next (s.hostPage r t Row.TEN_SQ_TABLE v []).finish

/-- A write of TEN_CQ_TABLE (R129). -/
def execTenCqTable (r : CsReq) (t : Fin 16) (v : Word) (s : State) : Host.Outcome State Fault Refusal :=
  .next (s.hostPage r t Row.TEN_CQ_TABLE v []).finish

/-- A write of TEN_LIVE_TABLE (R215). -/
def execTenLiveTable (r : CsReq) (t : Fin 16) (v : Word) (s : State) : Host.Outcome State Fault Refusal :=
  .next (s.hostPage r t Row.TEN_LIVE_TABLE v []).finish

/-- A push to TEN_DOORBELL enters the push queue (R130, R132). -/
def execDoorbell (r : CsReq) (t : Fin 16) (v : Word) (s : State) : Host.Outcome State Fault Refusal :=
  .next (s.hostPage r t Row.TEN_DOORBELL v []).finish

/-- A push to TEN_CQ_DOORBELL returns entries (R141). -/
def execCqDoorbell (r : CsReq) (t : Fin 16) (v : Word) (s : State) : Host.Outcome State Fault Refusal :=
  .next (s.hostPage r t Row.TEN_CQ_DOORBELL v []).finish

/-- A queued push is taken in rotation and handled (R130, R132). -/
def execPushDrain (f : Fetch) (s : State) : Host.Outcome State Fault Refusal :=
  .next (s.pushDrain f).finish

/-- Headwater fetches entries of a ring whose doorbell bit is set (R131, R133, R134). -/
def execSqEntryFetch (f : Fetch) (s : State) : Host.Outcome State Fault Refusal :=
  .next (s.whenUp (fun s => s.inDomain .fclk (fun s => s.fetchEntries f))).finish

/-- A deadline task reaches r_j (R97). -/
def execTaskRelease (s : State) : Host.Outcome State Fault Refusal :=
  .next (s.taskRelease).finish

/-- A push to TEN_LIVE_DOORBELL (R187). -/
def execLiveDoorbell (r : CsReq) (t : Fin 16) (v : Word) (f : Fetch) (s : State) : Host.Outcome State Fault Refusal :=
  .next (s.hostPage r t Row.TEN_LIVE_DOORBELL v f).finish

/-- A MSG LIVE_PUSH (R187, R506). -/
def execLivePush (node : Nat) (payload : BitVec 16) (f : Fetch) (s : State) : Host.Outcome State Fault Refusal :=
  .next (s.onFabric (fun s => s.message node 1 (leBytes 2 payload.toNat) f)).finish

/-- Headwater takes the oldest pending post of a port (R186, R190, R191). -/
def execLivePostTake (port : Fin 512) (f : Fetch) (s : State) : Host.Outcome State Fault Refusal :=
  .next (s.whenUp (fun s => s.inDomain .fclk (fun s => s.takePost port.val f))).finish

/-- Encode start s_k of a flow (R265, R266). -/
def execEncodeStart (flow : BitVec 12) (f : Fetch) (s : State) : Host.Outcome State Fault Refusal :=
  .next (s.whenUp (fun s => s.encodeStart flow.toNat f)).finish

/-- A free unit takes a ready piece (R99, R100). -/
def execPieceDispatch (server : Fin 41) (f : Fetch) (s : State) : Host.Outcome State Fault Refusal :=
  .next (s.whenUp (fun s => s.inDomain (s.serverDomain server.val) (fun s => (s.rereadImages server.val f).dispatch server.val))).finish

/-- Millpond room frees for a parked unit (R231). -/
def execParkedUnitReady (flow : BitVec 12) (s : State) : Host.Outcome State Fault Refusal :=
  .next (s.whenUp (fun s => s.unpark flow.toNat)).finish

/-- Outfall writes a chunk to the packet ring (R277 to R280). -/
def execChunkWrite (flow : BitVec 12) (s : State) : Host.Outcome State Fault Refusal :=
  .next (s.whenUp (fun s => s.inDomain .fclk (fun s => s.chunkWrite flow.toNat))).finish

/-- A push to TEN_PKT_DOORBELL returns packet ring space (R279, R289). -/
def execPktDoorbell (r : CsReq) (t : Fin 16) (v : Word) (s : State) : Host.Outcome State Fault Refusal :=
  .next (s.hostPage r t Row.TEN_PKT_DOORBELL v []).finish

/-- A task reaches its boundary (R149, R452). -/
def execTaskEnd (id : Nat) (s : State) : Host.Outcome State Fault Refusal :=
  .next (s.whenUp (fun s => s.boundary id)).finish

/-- Outfall writes a completion entry (R138, R140). -/
def execCompletionWrite (cq : BitVec 16) (s : State) : Host.Outcome State Fault Refusal :=
  .next (s.whenUp (fun s => s.inDomain .fclk (fun s => s.completionWrite cq.toNat))).finish

/-- The oldest unannounced entry has waited IRQ_DELAY_US (R142). -/
def execIrqDelayExpire (cq : BitVec 16) (s : State) : Host.Outcome State Fault Refusal :=
  .next (s.whenUp (fun s => s.irqDelayExpire cq.toNat))

/-- A runnable bulk context finds no free berth (R147). -/
def execBerthEvict (s : State) : Host.Outcome State Fault Refusal :=
  .next s.berthEvict

/-- A swap-in completes (R147). -/
def execSwapComplete (s : State) : Host.Outcome State Fault Refusal :=
  .next (s.whenUp State.swapComplete).finish

/-- A bulk request has waited WAIT_MS (R168). -/
def execPoolWaitTimeout (pool : Fin 32) (s : State) : Host.Outcome State Fault Refusal :=
  .next (s.whenUp (fun s => s.poolTimeout pool.val)).finish

end Sys2Proof.Machine
end

