-- ==== Sys2Proof/Machine/ExecResets.lean ====
section
/-! DEFINITION. Resets, starts, clocks, time and supplies (R449, R466, R472 to R497). One meaning per command. -/

namespace Sys2Proof.Machine

/-- AON_RST_N falls (R480). -/
def execAonRstNLow (s : State) : Host.Outcome State Fault Refusal :=
  .next s.coldReset

/-- AON_RST_N rises (R482, R483). -/
def execColdStart (lanesGood : Fin 145) (entropyGood : Fin 53) (credits : BitVec 16) (s : State) : Host.Outcome State Fault Refusal :=
  .next (s.coldStart lanesGood.val entropyGood.val credits.toNat)

/-- TMODE changes (R480). -/
def execTmodeChange (level : Bool) (s : State) : Host.Outcome State Fault Refusal :=
  .next (s.tmodeChange level)

/-- INST_RST_N falls (R484, R490). -/
def execInstRstNLow (s : State) : Host.Outcome State Fault Refusal :=
  .next (s.instLowEdge).finish

/-- INST_RST_N rises, or a GLB_RESET warm reset is released (R484). -/
def execWarmStart (f : Fetch) (credits : BitVec 16) (s : State) : Host.Outcome State Fault Refusal :=
  .next (s.warmStart f credits.toNat).finish

/-- A write of GLB_RESET with KIND 0b01 (R484, R491). -/
def execGlbResetWarm (r : CsReq) (v : Word) (s : State) : Host.Outcome State Fault Refusal :=
  .next (s.hostWrite r Row.GLB_RESET.base 8 v []).finish

/-- A write of GLB_RESET with KIND 0b10 (R486, R491). -/
def execPerDomainReset (r : CsReq) (v : Word) (f : Fetch) (s : State) : Host.Outcome State Fault Refusal :=
  .next (s.hostWrite r Row.GLB_RESET.base 8 v f).finish

/-- A write of GLB_RESET with KIND 0b11 (R487, R491). -/
def execFormeReload (r : CsReq) (v : Word) (f : Fetch) (s : State) : Host.Outcome State Fault Refusal :=
  .next (s.hostWrite r Row.GLB_RESET.base 8 v f).finish

/-- A partner's FLUSHED is not seen (R481). -/
def execFlushTimeout (s : State) : Host.Outcome State Fault Refusal :=
  .next (s.flushTimeout).finish

/-- CLK_RUN rises (R474). -/
def execClkRun (d : Domain) (s : State) : Host.Outcome State Fault Refusal :=
  .next (s.clockUp d).finish

/-- A stoppable domain has been idle for 100 µs (R473). -/
def execClkIdle (d : Domain) (s : State) : Host.Outcome State Fault Refusal :=
  .next (s.clkIdle d)

/-- CLK_RUN is not seen 20 µs after a request (R474). -/
def execClkWakeTimeout (d : Domain) (s : State) : Host.Outcome State Fault Refusal :=
  .next (s.clkWakeTimeout d).finish

/-- A clock stops while its wake request is high (R475). -/
def execClockLoss (d : Domain) (s : State) : Host.Outcome State Fault Refusal :=
  .next (s.clockLoss d).finish

/-- A TIME_SYNC strobe (R479, R497). -/
def execTimeSync (time : Word) (s : State) : Host.Outcome State Fault Refusal :=
  .next (s.timeSync time.toNat)

/-- No strobe for 10 ms (R497). -/
def execSyncLoss (s : State) : Host.Outcome State Fault Refusal :=
  .next s.syncLoss

/-- An edge of PEER_ALIVE (R33, R495). -/
def execPeerAliveEdge (s : State) : Host.Outcome State Fault Refusal :=
  .next s.peerEdge

/-- PEER_ALIVE has not toggled for 2 periods (R33). -/
def execPeerSeenExpire (s : State) : Host.Outcome State Fault Refusal :=
  .next s.peerExpire

/-- GRD_ALIVE.PERIOD_US elapses (R449). -/
def execAliveToggle (s : State) : Host.Outcome State Fault Refusal :=
  .next s.aliveToggle

/-- The instance supplies are lost (R466). -/
def execInstanceSupplyLoss (s : State) : Host.Outcome State Fault Refusal :=
  .next s.supplyLoss

/-- The always-on supply is lost (R466). -/
def execAlwaysOnSupplyLoss (s : State) : Host.Outcome State Fault Refusal :=
  .next s.coldReset

end Sys2Proof.Machine
end

