-- ==== Sys2Proof/Machine/Dispatch.lean ====
section
/-! DEFINITION. One arm per command: the call of its meaning. -/

namespace Sys2Proof.Machine

/-- The command's effect on everything but the queue. -/
def exec (i : Instr) (s : State) : Host.Outcome State Fault Refusal :=
  match i with
  | .lockUp r f => Sys2Proof.Machine.execLockUp r f s
  | .amendment r f => Sys2Proof.Machine.execAmendment r f s
  | .cancel r => Sys2Proof.Machine.execCancel r s
  | .quoin => Sys2Proof.Machine.execQuoin s
  | .quoinTimeout => Sys2Proof.Machine.execQuoinTimeout s
  | .amendQuoin => Sys2Proof.Machine.execAmendQuoin s
  | .amendReservationsHeld => Sys2Proof.Machine.execAmendReservationsHeld s
  | .amendClaimTimeout => Sys2Proof.Machine.execAmendClaimTimeout s
  | .retainDone => Sys2Proof.Machine.execRetainDone s
  | .commitGo r region => Sys2Proof.Machine.execCommitGo r region s
  | .commitApply region => Sys2Proof.Machine.execCommitApply region s
  | .tenancyReset r t => Sys2Proof.Machine.execTenancyReset r t s
  | .ringEnableSq r t ring f => Sys2Proof.Machine.execRingEnableSq r t ring f s
  | .ringDisableSq r t ring => Sys2Proof.Machine.execRingDisableSq r t ring s
  | .ringEnableCq r t ring f => Sys2Proof.Machine.execRingEnableCq r t ring f s
  | .ringDisableCq r t ring => Sys2Proof.Machine.execRingDisableCq r t ring s
  | .tenSqTable r t v => Sys2Proof.Machine.execTenSqTable r t v s
  | .tenCqTable r t v => Sys2Proof.Machine.execTenCqTable r t v s
  | .tenLiveTable r t v => Sys2Proof.Machine.execTenLiveTable r t v s
  | .doorbell r t v => Sys2Proof.Machine.execDoorbell r t v s
  | .cqDoorbell r t v => Sys2Proof.Machine.execCqDoorbell r t v s
  | .pushDrain f => Sys2Proof.Machine.execPushDrain f s
  | .sqEntryFetch f => Sys2Proof.Machine.execSqEntryFetch f s
  | .taskRelease => Sys2Proof.Machine.execTaskRelease s
  | .liveDoorbell r t v f => Sys2Proof.Machine.execLiveDoorbell r t v f s
  | .livePush node payload f => Sys2Proof.Machine.execLivePush node payload f s
  | .livePostTake port f => Sys2Proof.Machine.execLivePostTake port f s
  | .encodeStart flow f => Sys2Proof.Machine.execEncodeStart flow f s
  | .pieceDispatch server f => Sys2Proof.Machine.execPieceDispatch server f s
  | .parkedUnitReady flow => Sys2Proof.Machine.execParkedUnitReady flow s
  | .chunkWrite flow => Sys2Proof.Machine.execChunkWrite flow s
  | .pktDoorbell r t v => Sys2Proof.Machine.execPktDoorbell r t v s
  | .taskEnd id => Sys2Proof.Machine.execTaskEnd id s
  | .completionWrite cq => Sys2Proof.Machine.execCompletionWrite cq s
  | .irqDelayExpire cq => Sys2Proof.Machine.execIrqDelayExpire cq s
  | .berthEvict => Sys2Proof.Machine.execBerthEvict s
  | .swapComplete => Sys2Proof.Machine.execSwapComplete s
  | .poolWaitTimeout pool => Sys2Proof.Machine.execPoolWaitTimeout pool s
  | .tenGalleyStep r t v => Sys2Proof.Machine.execTenGalleyStep r t v s
  | .step node payload => Sys2Proof.Machine.execStep node payload s
  | .heldStepStart group => Sys2Proof.Machine.execHeldStepStart group s
  | .galleyLeave r t v => Sys2Proof.Machine.execGalleyLeave r t v s
  | .galleySkip r t v => Sys2Proof.Machine.execGalleySkip r t v s
  | .galleyFlush r t v => Sys2Proof.Machine.execGalleyFlush r t v s
  | .holdUsExpire flow => Sys2Proof.Machine.execHoldUsExpire flow s
  | .holdLimit flow => Sys2Proof.Machine.execHoldLimit flow s
  | .deltaAltSet r t v => Sys2Proof.Machine.execDeltaAltSet r t v s
  | .deltaAltClear r t v => Sys2Proof.Machine.execDeltaAltClear r t v s
  | .fallback node payload => Sys2Proof.Machine.execFallback node payload s
  | .layerDone node payload => Sys2Proof.Machine.execLayerDone node payload s
  | .tenDeltaDone r t v => Sys2Proof.Machine.execTenDeltaDone r t v s
  | .drainTimeout id => Sys2Proof.Machine.execDrainTimeout id s
  | .staggerGroupStart group => Sys2Proof.Machine.execStaggerGroupStart group s
  | .rdData tag status data => Sys2Proof.Machine.execRdData tag status data s
  | .ack tag status => Sys2Proof.Machine.execAck tag status s
  | .fabricTimeout tag => Sys2Proof.Machine.execFabricTimeout tag s
  | .linkCrcFail port => Sys2Proof.Machine.execLinkCrcFail port s
  | .creditViolation port => Sys2Proof.Machine.execCreditViolation port s
  | .faultEvent source info => Sys2Proof.Machine.execFaultEvent source info s
  | .railFault source info => Sys2Proof.Machine.execRailFault source info s
  | .railFaultEnd source => Sys2Proof.Machine.execRailFaultEnd source s
  | .escalationDecay source => Sys2Proof.Machine.execEscalationDecay source s
  | .collectorSelfCheck pass => Sys2Proof.Machine.execCollectorSelfCheck pass s
  | .watchdog id => Sys2Proof.Machine.execWatchdog id s
  | .grdTko v f => Sys2Proof.Machine.execGrdTko v f s
  | .takeoverClaimTimeout => Sys2Proof.Machine.execTakeoverClaimTimeout s
  | .guardRead header => Sys2Proof.Machine.execGuardRead header s
  | .guardWrite header v => Sys2Proof.Machine.execGuardWrite header v s
  | .guardRepair header words => Sys2Proof.Machine.execGuardRepair header words s
  | .grdVtableCrc v => Sys2Proof.Machine.execGrdVtableCrc v s
  | .forget => Sys2Proof.Machine.execForget s
  | .delivered peerTook => Sys2Proof.Machine.execDelivered peerTook s
  | .grdFltSrc source v => Sys2Proof.Machine.execGrdFltSrc source v s
  | .aonRstNLow => Sys2Proof.Machine.execAonRstNLow s
  | .coldStart lanesGood entropyGood credits => Sys2Proof.Machine.execColdStart lanesGood entropyGood credits s
  | .tmodeChange level => Sys2Proof.Machine.execTmodeChange level s
  | .instRstNLow => Sys2Proof.Machine.execInstRstNLow s
  | .warmStart f credits => Sys2Proof.Machine.execWarmStart f credits s
  | .glbResetWarm r v => Sys2Proof.Machine.execGlbResetWarm r v s
  | .perDomainReset r v f => Sys2Proof.Machine.execPerDomainReset r v f s
  | .formeReload r v f => Sys2Proof.Machine.execFormeReload r v f s
  | .flushTimeout => Sys2Proof.Machine.execFlushTimeout s
  | .clkRun d => Sys2Proof.Machine.execClkRun d s
  | .clkIdle d => Sys2Proof.Machine.execClkIdle d s
  | .clkWakeTimeout d => Sys2Proof.Machine.execClkWakeTimeout d s
  | .clockLoss d => Sys2Proof.Machine.execClockLoss d s
  | .vrAlertNFall => Sys2Proof.Machine.execVrAlertNFall s
  | .vrAlertNRise => Sys2Proof.Machine.execVrAlertNRise s
  | .alertHoldExpire => Sys2Proof.Machine.execAlertHoldExpire s
  | .barrierHint => Sys2Proof.Machine.execBarrierHint s
  | .barrierRelease => Sys2Proof.Machine.execBarrierRelease s
  | .rampStep => Sys2Proof.Machine.execRampStep s
  | .hintMaxExpire => Sys2Proof.Machine.execHintMaxExpire s
  | .timeSync time => Sys2Proof.Machine.execTimeSync time s
  | .syncLoss => Sys2Proof.Machine.execSyncLoss s
  | .peerAliveEdge => Sys2Proof.Machine.execPeerAliveEdge s
  | .peerSeenExpire => Sys2Proof.Machine.execPeerSeenExpire s
  | .aliveToggle => Sys2Proof.Machine.execAliveToggle s
  | .share v => Sys2Proof.Machine.execShare v s
  | .meas v => Sys2Proof.Machine.execMeas v s
  | .measStale => Sys2Proof.Machine.execMeasStale s
  | .agreeExpire => Sys2Proof.Machine.execAgreeExpire s
  | .vack v => Sys2Proof.Machine.execVack v s
  | .vreqTimeout => Sys2Proof.Machine.execVreqTimeout s
  | .vreqRetry => Sys2Proof.Machine.execVreqRetry s
  | .stepUp => Sys2Proof.Machine.execStepUp s
  | .capEvaluate => Sys2Proof.Machine.execCapEvaluate s
  | .tempSample tj => Sys2Proof.Machine.execTempSample tj s
  | .tjMaxStep => Sys2Proof.Machine.execTjMaxStep s
  | .currentEstimate => Sys2Proof.Machine.execCurrentEstimate s
  | .edcTimerExpire => Sys2Proof.Machine.execEdcTimerExpire s
  | .droop => Sys2Proof.Machine.execDroop s
  | .droopEnd => Sys2Proof.Machine.execDroopEnd s
  | .boostBudgetEnd => Sys2Proof.Machine.execBoostBudgetEnd s
  | .boostBinRoll => Sys2Proof.Machine.execBoostBinRoll s
  | .boostBinsSave => Sys2Proof.Machine.execBoostBinsSave s
  | .offloadWindow => Sys2Proof.Machine.execOffloadWindow s
  | .katGo r v => Sys2Proof.Machine.execKatGo r v s
  | .katDone => Sys2Proof.Machine.execKatDone s
  | .tstInj r v => Sys2Proof.Machine.execTstInj r v s
  | .registerWrite r off len v => Sys2Proof.Machine.execRegisterWrite r off len v s
  | .registerRead r off len => Sys2Proof.Machine.execRegisterRead r off len s
  | .badMsg node type payload => Sys2Proof.Machine.execBadMsg node type payload s
  | .guardTransactionGap => Sys2Proof.Machine.execGuardTransactionGap s
  | .weirBucketRefill => Sys2Proof.Machine.execWeirBucketRefill s
  | .staggerHoldLimit => Sys2Proof.Machine.execStaggerHoldLimit s
  | .staggerWindowClose => Sys2Proof.Machine.execStaggerWindowClose s
  | .instanceSupplyLoss => Sys2Proof.Machine.execInstanceSupplyLoss s
  | .alwaysOnSupplyLoss => Sys2Proof.Machine.execAlwaysOnSupplyLoss s

end Sys2Proof.Machine
end

