-- ==== Sys2Proof/Safety.lean ====
section
/-! DEFINITION. What a safe step and a sound state are, in the terms the statements use. -/

namespace Sys2Proof.Safety

open Sys2Proof.Machine

/-- A step that ends in a next state: no fault and no refusal. -/
def Completes (s : State) : Prop := ∃ t, step s = .next t

/-- The conditions of READY that the state holds at every moment (R18, R33): READY is set only in an instance that is up, whose
16 ports all got credits, and which is not in test mode. -/
def ReadyHolds (s : State) : Prop :=
  s.ready = true → s.life = .up ∧ s.credits = 0xFFFF ∧ s.tmode = false

/-- There are 16 tenancies, and no push queue holds more than 256 writes (R113, R132). -/
def QueuesHold (s : State) : Prop :=
  s.tens.length = 16 ∧ ∀ r ∈ s.tens, r.pushes.length ≤ 256

/-- No more lanes and entropy engines are good than the instance has (R20, R456). -/
def UnitsHold (s : State) : Prop := s.lanesGood ≤ 144 ∧ s.entropyGood ≤ 52

/-- Both copies of the register file are in canonical form: equal contents are equal data. -/
def RegsHold (s : State) : Prop := s.regs.wf = true ∧ s.shadow.wf = true

/-- The invariant that every step keeps. -/
def Sound (s : State) : Prop := ReadyHolds s ∧ QueuesHold s ∧ UnitsHold s ∧ RegsHold s

/-! ### Conditions under which a command has its effect -/

/-- The instance serves: it is up, with READY set (R18). -/
def Serving (s : State) : Prop := s.life = .up ∧ s.ready = true

/-- The requester is a host through one of the two PCIe endpoints (R505). -/
abbrev FromHost (r : CsReq) : Prop := r.node = 0x28 ∨ r.node = 0x29

/-- A host access through the management view, to an instance that serves and holds no access before it (R505, R514, R516,
R517). -/
def ManagementMay (r : CsReq) (s : State) : Prop := FromHost r ∧ r.view = 16 ∧ Serving s ∧ s.heldCs = []

/-- A host access to a tenancy's page, through the management view or the tenancy's own, to an instance that serves and holds no
access before it, with room in the tenancy's push queue and nothing stalled behind it (R132, R505, R514, R517). -/
def TenancyMay (r : CsReq) (t : Fin 16) (s : State) : Prop :=
  FromHost r ∧ (r.view = 16 ∨ r.view = t.val) ∧ Serving s ∧ s.heldCs = [] ∧ (s.tenRun t).pushes.length < 256 ∧ (s.tenRun t).stalled = []

/-- A host write of a region's COMMIT register that no check stops and nothing stalls: of a tenancy's page through the management
view or its own, of another region through the management view, with the domain of the region running (R474, R514, R518). -/
def CommitMay (r : CsReq) (g : Region) (s : State) : Prop :=
  match g with
  | .page t => TenancyMay r t s
  | _ => ManagementMay r s ∧ s.slotStopped (commitOff g) = false

/-- The state once the access has its response OK (R6). -/
def answered (s : State) : State := { s with resp := ⟨0, 0⟩ }

/-- Nothing is under way: no event is raised, no context waits for a berth, the live forme defines no pool, and an instance that
serves has no task, no delivery unit, no streaming flow and nothing waiting at a mover engine, and each clock that can be
stopped runs or is asked for. The work that follows every command then finds nothing to do. -/
def Calm (s : State) : Prop :=
  s.raised = [] ∧ s.berths = [] ∧ s.forme.defs = [] ∧
  (s.ready = true → s.tasks = [] ∧ s.batches = [] ∧ s.dltQueue = [] ∧ s.forme.flows.all (fun f => !f.streaming) = true ∧
    ∀ d ∈ [Domain.pclk, Domain.eclk, Domain.fclk], s.runs d = true ∨ s.wanted d = true)

end Sys2Proof.Safety
end

