-- ==== Sys2Proof/Certificates/Slice0/Obligations.lean ====
section
/-! DEFINITION. The statements. Each is about one step, command by command. A result is written as the state that the command's own
rule gives, and `.finish` after it where the command ends with the work that follows every command (State.finish: raised events are
counted and acted on, tasks and transfers move along, stopped domains with work are woken). On a state in which nothing is under
way (Safety.Calm) that work changes nothing, and the statement gives the next state whole: what it does not name is unchanged. -/

open Sys2Proof Sys2Proof.Machine Sys2Proof.Safety

/-! ### The queue, the idle step, reset and the invariant -/

/-- A step takes the command at the front of the queue and runs it on the state with the queue's rest (the model's own form of a
step: log entry 1). -/
def Obligations.StepRunsFront : Prop :=
  ∀ (s : State) (c : Instr) (rest : List Instr), s.pending = c :: rest → step s = exec c { s with pending := rest }

/-- With no command waiting, a step is one TCLK cycle: local time advances by 4 ns, or by 2 ns while it absorbs a backward
difference of TIME_BUS, and nothing else changes. While TCLK is in reset or has no supply nothing changes. That the empty queue
stands for a cycle is the model's choice (log entry 2). -/
def Obligations.IdleStepPassesTime : Prop :=
  ∀ s : State, s.pending = [] →
    (s.life ≠ .cold → s.life ≠ .noSupply → s.life ≠ .warmLow →
      ∃ x : TimeRun, step s = .next { s with time := x } ∧
        x.now = s.time.now + (if s.time.behind = 0 then 4 else 2) ∧ x.behind = s.time.behind - 2 ∧
        x.since = s.time.since.map (fun n => n + 4)) ∧
    (s.life = .cold ∨ s.life = .noSupply ∨ s.life = .warmLow → step s = .next s)

/-- Right after a cold reset no command waits, READY is 0, every register reads its Reset value, all three parts of retained
memory and every queue are empty, and the invariant of every step holds. -/
def Obligations.ResetState : Prop :=
  State.reset.pending = [] ∧ State.reset.ready = false ∧ State.reset.life = .cold ∧
  (∀ off, State.reset.regs.get off = resetWord off ∧ State.reset.shadow.get off = resetWord off) ∧
  State.reset.retained = ⟨none, none, none⟩ ∧ State.reset.forme = Forme.blank ∧
  State.reset.tasks = [] ∧ State.reset.txns = [] ∧ State.reset.sqs = [] ∧ State.reset.cqs = [] ∧ Sound State.reset

/-- No command changes the queue of waiting commands: the step alone takes the command from its front. -/
def Obligations.CommandsLeaveQueue : Prop :=
  ∀ (c : Instr) (s t : State), exec c s = .next t → t.pending = s.pending

/-- The invariant that every step keeps, from every state that has it: READY is set only in an instance that is up, that has the
credits of all 16 ports and that is not in test mode (R18, R33); there are 16 push queues, none above 256 writes (R132); no more
than 144 lanes and 52 entropy engines are good; both copies of the register file stay in canonical form. -/
def Obligations.StepKeepsInvariant : Prop :=
  ∀ s t : State, Sound s → step s = .next t → Sound t

/-! ### Register reads and writes -/

/-- What stops a host access, in the order of R505: a length other than 8 bytes, an address that is not a multiple of 8, a view above
16 or a node that is no PCIe endpoint end with status 2; then a reserved offset with status 1; then a region that the view may not
use (R514) with status 2. Nothing changes but the response, and REG_ACCESS is raised with the offset. No access is held before it. -/
def Obligations.HostAccessRefused : Prop :=
  ∀ (s : State) (r : CsReq) (off len : Nat) (v : Word) (code : Nat), Serving s → s.heldCs = [] →
    (code = if len ≠ 8 ∨ off % 8 ≠ 0 ∨ 16 < r.view ∨ ¬ FromHost r then 2 else if regAt off = none then 1
      else if viewRefuses r.view (regionOf off) = true then 2 else 0) → code ≠ 0 →
    exec (.registerWrite r off len v) s = .next ((({ s with resp := ⟨code, 0⟩ } : State).logAccess r off).finish) ∧
    exec (.registerRead r off len) s = .next ((({ s with resp := ⟨code, 0⟩ } : State).logAccess r off).finish)

/-- Host accesses that wait at their crossing. While QCLK is in reset all do (R516), and in an instance that serves those behind one
that waits do (R517): nothing changes but the list of what waits. An access that no check stops, of a register whose domain is
stopped, waits and wakes the domain (R474). -/
def Obligations.HostAccessWaits : Prop :=
  ∀ (s : State) (r : CsReq) (off len : Nat) (v : Word),
    let w := s.holdAccess ⟨r, off, len, true, v, []⟩
    let d := s.holdAccess ⟨r, off, len, false, 0, []⟩
    (s.life = .warmLow ∨ (Serving s ∧ s.heldCs ≠ []) →
      exec (.registerWrite r off len v) s = .next (w.finish) ∧ exec (.registerRead r off len) s = .next (d.finish)) ∧
    (Serving s → s.heldCs = [] → s.slotStopped off = true → s.accessFails r off len true = none →
      exec (.registerWrite r off len v) s = .next ((w.wake (regDomain off)).finish)) ∧
    (Serving s → s.heldCs = [] → s.slotStopped off = true → s.accessFails r off len false = none →
      exec (.registerRead r off len) s = .next ((d.wake (regDomain off)).finish))

/-- A management read of a register that exists, in a domain that runs, answers OK with the register's word, and then clears the register's RC fields. -/
def Obligations.RegisterReadAnswers : Prop :=
  ∀ (s : State) (r : CsReq) (off : Nat), ManagementMay r s → s.slotStopped off = false → off % 8 = 0 →
    (regAt off).isSome = true →
    exec (.registerRead r off 8) s = .next ((({ s with resp := ⟨0, s.readWord off⟩ } : State).clearRc off).finish)

/-- A management write of a management register without an operation of its own, in a domain that runs, changes nothing but the response and that register:
the RWS fields of a shadowed register in the shadow copy, else the RW fields, and the W1C fields written as 1, in the live one. A
setting's write takes the settings in force to part 2 of retained memory with it (R488). A write of a fault capture clears it when
bit 63 says so, and a write that R179 or R339 ignores changes nothing. On a calm instance this is the next state whole. -/
def Obligations.RegisterWriteStores : Prop :=
  ∀ (s : State) (r : CsReq) (off : Nat) (v : Word) (row : RegRow) (ix : List Nat), ManagementMay r s →
    s.slotStopped off = false → off % 8 = 0 → 0x100000 ≤ off → off < 0x1000000 → off ≠ Row.FRM_CTRL.base → off ≠ Row.RFL_KAT_CTRL.base →
    off ∉ fixedRegions.map commitOff → regAt off = some (row, ix) →
    let q := s.regs.set off (clearOnes row.fields (storeFields .rw row.fields (s.regs.get off) v) v)
    let t : State :=
      if s.writeIgnored row ix = true then answered s
      else if row.shadowed then { answered s with shadow := s.shadow.set off (storeFields .rws row.fields (s.shadow.get off) v) }
      else if row.base = Row.FLT_CAP_ADDR.base then (if getBits v 63 1 = 1 then (answered s).clearCapture off else answered s)
      else if isSetting off then { answered s with
        regs := q, retained := { s.retained with part2 := some (q.filter (fun e => isSetting e.1)) } }
      else { answered s with regs := q }
    exec (.registerWrite r off 8 v) s = .next (t.finish) ∧ (Calm s → exec (.registerWrite r off 8 v) s = .next t)

/-! ### Forme port -/

/-- LOCK_UP of a forme that parses, whose signature verifies and which is admitted (steps 1 to 6 of R60): the quoin phase of a full
attempt starts, with the admitted forme, what admission derived, and the flows that it removes and adds. It is admitted at the
slower of LKP_ADMIT_CFG.PSTATE and what PTC allows, with its lanes counted as good (R91). -/
def Obligations.LockUpReserves : Prop :=
  ∀ (s : State) (r : CsReq) (f : Fetch) (p : Parsed) (ts : List Taken), ManagementMay r s → s.job = none → s.tko = none →
    let u := answered s
    let m := p.forme.withSlots Forme.blank
    let ps := max (s.fld F.LKP_ADMIT_CFG_PSTATE) s.allowed
    parseForme (u.parseCtx false f) (s.fld F.FRM_SRC_SIZE_SIZE) = .ok p → u.verifies p = true →
    admission m ps s.lanesGood s.entropyGood true = .ok ts →
    exec (.lockUp r f) s = .next ((({ u with job := some { u.newJob .full 4 m ts ps (p.rems.map (·.flow)) (p.forme.flows.map (·.flow))
        with phase := 5, started := s.now } } : State).setFld F.FRM_STATUS_PHASE 5).finish)

/-- An amendment whose merged forme is admitted, and not above 16,515,072 bytes (R70), claims unreserved blocks for the flows it
adds in step 6 (R68): its reservations are requested pool by pool. -/
def Obligations.AmendmentReserves : Prop :=
  ∀ (s : State) (r : CsReq) (f : Fetch) (p : Parsed) (ts : List Taken), ManagementMay r s → s.job = none → s.tko = none →
    let u := answered s
    let m := mergeForme s.forme p.forme p.rems
    let ps := s.fld F.LKP_ADMIT_CFG_PSTATE_LIVE
    parseForme (u.parseCtx true f) (s.fld F.FRM_SRC_SIZE_SIZE) = .ok p → u.verifies p = true →
    admission m ps s.lanesGood s.entropyGood false = .ok ts → m.size ≤ 16515072 →
    exec (.amendment r f) s = .next ((m.defs.foldl (fun (x : State) d => x.claimFree d.index)
      (({ u with job := some (u.newJob .amend 4 m ts ps (p.rems.map (·.flow)) (p.forme.flows.map (·.flow))) } : State).setFld
        F.FRM_STATUS_PHASE 4)).finish)

/-- An attempt, full or amendment, that fails its parse on an image that was read, its signature or its admission is refused (R61): the
refusal is recorded with its code, RESULT is 2, SEQ counts it (R82, R83), the attempt is over, and the live forme stands. While an
attempt or a takeover runs, OP sets BUSY_REJECT and nothing else (R62). -/
def Obligations.LockUpRefuses : Prop :=
  ∀ (s : State) (r : CsReq) (f : Fetch) (amend : Bool), ManagementMay r s →
    let u := answered s
    let op : Instr := if amend = true then .amendment r f else .lockUp r f
    let parsed := parseForme (u.parseCtx amend f) (s.fld F.FRM_SRC_SIZE_SIZE)
    (s.job = none → s.tko = none → ∀ x : RefusalRec,
      (∃ e, parsed = .error e ∧ e.fetch = none ∧ x = e.refusal) ∨
      (∃ p, parsed = .ok p ∧ u.verifies p = false ∧ x = ⟨0x07, none, none, 0, 0, none⟩) ∨
      (∃ p, parsed = .ok p ∧ u.verifies p = true ∧
        admission (if amend = true then mergeForme s.forme p.forme p.rems else p.forme.withSlots Forme.blank)
          (if amend = true then s.fld F.LKP_ADMIT_CFG_PSTATE_LIVE else max (s.fld F.LKP_ADMIT_CFG_PSTATE) s.allowed)
          s.lanesGood s.entropyGood (!amend) = .error x) →
      ∃ t, exec op s = .next (t.finish) ∧ t = (u.recordRefusal x).endAttempt 2 ∧ t.forme = s.forme ∧ t.job = none ∧
        (s.regs.wf = true → t.fld F.FRM_REFUSAL_CODE = x.code % 256 ∧ t.fld F.FRM_STATUS_RESULT = 2 ∧
          t.fld F.FRM_STATUS_SEQ = (s.fld F.FRM_STATUS_SEQ + 1) % 65536)) ∧
    (s.job.isSome = true ∨ s.tko.isSome = true → exec op s = .next ((u.setFld F.FRM_STATUS_BUSY_REJECT 1).finish))

/-- CANCEL (R62). A host's attempt that has not reached its quoin phase ends at once, with RESULT 3, and what it had claimed is free
again; one in its quoin phase is marked, and ends so at the end of step 7, with the live forme as it was. A takeover and a forme
reload are no attempts of the host: nothing but the response changes, as without an attempt. -/
def Obligations.CancelEndsAttempt : Prop :=
  ∀ s : State,
    (∀ r : CsReq, ManagementMay r s →
      (s.job = none → exec (.cancel r) s = .next ((answered s).finish)) ∧
      (∀ j, s.job = some j → exec (.cancel r) s = .next ((
        if j.kind = .full ∨ j.kind = .amend then
          if j.phase = 5 then { answered s with job := some { j with cancelled := true } }
          else ((answered s).endAttempt 3).releaseClaims
        else answered s).finish))) ∧
    (∀ j, s.ready = true → s.job = some j → j.phase = 5 → j.cancelled = true → let t := (s.endAttempt 3).releaseClaims
      t.forme = s.forme ∧ t.job = none ∧
      (j.kind = .full → (∀ k ∈ s.tasks, k.isTask = false) → exec .quoin s = .next (t.finish)) ∧
      (j.kind = .amend → (∀ k ∈ s.tasks, k.isTask = true → k.flow ∉ j.removed) → exec .amendQuoin s = .next (t.finish)))

/-- The quoin point. Of a full lock-up: with no task in flight (QUOIN), or when FRM_QUOIN_TIMEOUT expires (QUOIN_TIMEOUT), the live
forme is replaced whole by the admitted one, with what admission derived from it, and FRM_AMEND_COUNT restarts at 0 (R60, R65).
Of an amendment: with no task of a removed flow in flight, the merged forme is live, and FRM_AMEND_COUNT counts it (R69). Of a forme
reload, QUOIN ends the drain. When too few good units are left for the forme's spares, the attempt is refused instead (R64). -/
def Obligations.QuoinReplacesForme : Prop :=
  ∀ (s : State) (j : Job), s.ready = true → s.job = some j → j.phase = 5 → j.cancelled = false →
    let live (t : State) : Prop := t.forme = j.forme ∧ t.adm = j.adm ∧ t.servers = j.servers
    (s.sparesGone j = false →
      (j.kind = .full → (∀ k ∈ s.tasks, k.isTask = false) → ∃ t, exec .quoin s = .next t ∧ live t ∧ t.amends = 0) ∧
      (j.kind = .full → ∃ t, exec .quoinTimeout s = .next t ∧ live t ∧ t.amends = 0 ∧
        t.time.now = max s.time.now (j.started + s.fld F.FRM_QUOIN_TIMEOUT_US * 1000)) ∧
      (j.kind = .amend → (∀ k ∈ s.tasks, k.isTask = true → k.flow ∉ j.removed) →
        ∃ t, exec .amendQuoin s = .next t ∧ live t ∧ t.amends = min 65535 (s.amends + 1))) ∧
    (j.kind = .reload → (∀ k ∈ s.tasks, k.isTask = false) → exec .quoin s = .next ((s.finishReload j).finish)) ∧
    (s.sparesGone j = true → let t := (s.refuse (refusal 0x05 none none 2)).releaseClaims
      (j.kind = .full → (∀ k ∈ s.tasks, k.isTask = false) → exec .quoin s = .next (t.finish)) ∧
      (j.kind = .amend → (∀ k ∈ s.tasks, k.isTask = true → k.flow ∉ j.removed) → exec .amendQuoin s = .next (t.finish)))

/-- Step 6 of an amendment ends in one of two ways: every reservation of its added flows is held, and its quoin phase starts; or
FRM_QUOIN_TIMEOUT passes first, and it is refused (R68, R69). -/
def Obligations.AmendClaimsEnd : Prop :=
  ∀ (s : State) (j : Job), s.ready = true → s.job = some j → j.kind = .amend → j.phase = 4 →
    (j.held = true → exec .amendReservationsHeld s =
      .next ((({ s with job := some { j with phase := 5, started := s.now } } : State).setFld F.FRM_STATUS_PHASE 5).finish)) ∧
    (j.held = false → ∃ u : State, exec .amendClaimTimeout s = .next (u.finish) ∧
      u = (s.forme.defs.foldl (fun (x : State) d => x.settlePool d.index)
        ((s.advance (j.started + s.fld F.FRM_QUOIN_TIMEOUT_US * 1000)).refuse j.shortRefusal)))

/-- The retained copy of the live forme is complete (R76, R451): part 1 holds the live forme, FRM_AMEND_COUNT and PSTATE_LIVE, the
takeover image of the next SEQ is on its way to the areas that are in force, and RETAIN_DONE is 1. Without a copy under way, or
without READY, nothing happens. -/
def Obligations.RetainDoneKeepsForme : Prop :=
  ∀ s : State,
    (s.ready = true → s.retaining = true →
      ∃ t, exec .retainDone s = .next t ∧ t.retaining = false ∧ t.imageSeq = s.imageSeq + 1 ∧ t.forme = s.forme ∧
        t.retained = { s.retained with part1 := some (s.forme, s.amends, s.fld F.LKP_ADMIT_CFG_PSTATE_LIVE) } ∧
        (s.regs.wf = true → t.flag F.FRM_STATUS_RETAIN_DONE = true) ∧
        (∀ a, s.ckptAreas = (some a, none) → s.forme.size ≠ 0 →
          t = (({ s with
            retaining := false, imageSeq := s.imageSeq + 1,
            retained := { s.retained with part1 := some (s.forme, s.amends, s.fld F.LKP_ADMIT_CFG_PSTATE_LIVE) } } : State).writeImage a
            false).setFld F.FRM_STATUS_RETAIN_DONE 1)) ∧
    (s.ready = false ∨ s.retaining = false → exec .retainDone s = .next s)

/-! ### Commits -/

/-- COMMIT.GO (R71 to R73). While the region's last commit is pending the write sets OVERRUN and nothing else. Else the region's
shadow copies are captured: if a pairing rule fails, nothing becomes live, RESULT is 2 and RULE names the rule; if the region serves a
station, the capture waits with PENDING at 1. -/
def Obligations.CommitGoCaptures : Prop :=
  ∀ (s : State) (r : CsReq) (g : Region), CommitMay r g s →
    let u := answered s
    (s.flag (commitField g 0 1) = true → exec (.commitGo r g) s = .next ((u.setFld (commitField g 3 1) 1).finish)) ∧
    (s.flag (commitField g 0 1) = false → ∀ n, s.brokenRule (s.captured g) g = some n →
      exec (.commitGo r g) s = .next ((u.setFlds [(commitField g 0 1, 0), (commitField g 1 2, 2), (commitField g 8 8, n),
        (commitField g 16 16, s.fld (commitField g 16 16) + 1)]).finish)) ∧
    (s.flag (commitField g 0 1) = false → s.brokenRule (s.captured g) g = none → regionWaits g = true →
      exec (.commitGo r g) s = .next ((({ u with captures := s.captures ++ [⟨g, s.captured g⟩] } : State).setFld
        (commitField g 0 1) 1).finish))

/-- A commit of a region that serves no station becomes live in the same step, and a capture that waits becomes live when no task is
inside its station: every register of the region takes its captured value, RESULT is 1, SEQ counts the commit, and the settings
in force go to part 2 of retained memory (R71, R73, R488). -/
def Obligations.CommitMakesLive : Prop :=
  ∀ (s : State) (r : CsReq) (g : Region),
    (CommitMay r g s → s.flag (commitField g 0 1) = false → regionWaits g = false → s.brokenRule (s.captured g) g = none →
      exec (.commitGo r g) s = .next (((answered s).makeLive g (s.captured g)).finish)) ∧
    (∀ c, s.ready = true → s.betweenTasks g = true → s.captures.find? (fun c => c.region == g) = some c →
      exec (.commitApply g) s = .next ((({ s with captures := s.captures.filter (fun x => x.region != g) } : State).makeLive g
        c.regs).finish)) ∧
    (∀ c, let t := s.makeLive g c
      t.retained.part2 = some (t.regs.filter (fun e => isSetting e.1)) ∧ t.forme = s.forme ∧ t.shadow = s.shadow ∧
        (s.regs.wf = true → g ≠ .reservoir → g ≠ .ptc → t.fld (commitField g 1 2) = 1 ∧
          t.fld (commitField g 16 16) = (s.fld (commitField g 16 16) + 1) % 65536))

/-- What becoming live is: on a region other than the reservoir's and PTC's, whose values are also evaluated at once, the
region's registers take the captured values, COMMIT_STATUS takes the result, part 2 of retained memory takes the settings, and nothing
else changes. -/
def Obligations.MakeLiveSetsRegion : Prop :=
  ∀ (s : State) (g : Region) (c : RegFile), g ≠ .reservoir → g ≠ .ptc →
    ∃ q m, s.makeLive g c = { s with regs := q, retained := m } ∧ m.part1 = s.retained.part1 ∧ m.part3 = s.retained.part3 ∧
      m.part2 = some (q.filter (fun e => isSetting e.1)) ∧
      (s.regs.wf = true → ∀ off, off ∉ regionRegs g → off ≠ commitOff g + 8 → q.get off = s.regs.get off) ∧
      (s.regs.wf = true → ∀ off ∈ regionRegs g, q.get off = c.get off)

/-! ### Tenancies, rings and doorbells -/

/-- A tenancy reset ends every submission and completion ring of the tenancy and every entry due to it, with RESETTING back at 0 and
RESET_ABORTED the number of its tasks (R118, R119). -/
def Obligations.TenancyResetClears : Prop :=
  ∀ (s : State) (r : CsReq) (t : Fin 16), TenancyMay r t s → Sound s →
    ∃ u : State, exec (.tenancyReset r t) s = .next (u.finish) ∧ u = (answered s).tenancyReset t ∧
      u.fld (F.TEN_STATUS_RESETTING t.val) = 0 ∧ u.fld (F.TEN_STATUS_RESET_ABORTED t.val) = min (s.tasksOfTen t) 8191 ∧
      (∀ q ∈ u.sqs, q.ten ≠ t.val) ∧ (∀ q ∈ u.cqs, q.ten ≠ t.val) ∧ (∀ d ∈ u.due, d.ten ≠ t.val)

/-- Enabling a ring that is disabled and in the tenancy's range, with its record readable and writable, its record in order, and its
ring in a window: the ring is listed with HEAD, TAIL and SEQ at 0, its record takes them and STATE 1, and RESULT is DONE
(R124, R128, R135). While the record's read has no answer, BUSY is 1, and a command written meanwhile sets OVERRUN alone. -/
def Obligations.RingEnableLists : Prop :=
  ∀ (s : State) (r : CsReq) (t : Fin 16) (ring : BitVec 20) (f : Fetch), TenancyMay r t s →
    let u := answered s
    let a := s.sqRecord t ring.toNat
    let b := s.cqRecord t ring.toNat
    let sq (d : List Byte) : SqRing :=
      { ring := ring.toNat, ten := t.val, base := fieldAt d 0 8, log2 := byteAt d 8, cq := fieldAt d 10 2,
        flow := fieldAt d 12 2, head := 0, tail := 0, state := 1, bit := false }
    let cq (d : List Byte) : CqRing :=
      { cq := ring.toNat, ten := t.val, base := fieldAt d 0 8, log2 := byteAt d 8, vector := fieldAt d 10 2,
        irqCount := fieldAt d 12 2, irqDelay := fieldAt d 14 2, head := 0, tail := 0, seq := 0, phase := true,
        unann := 0, oldest := none, irqDue := false, holding := false }
    (s.flag (F.TEN_RING_STATUS_BUSY t.val) = false → (s.tenEntry t).sqIn ring.toNat = true → s.sq? ring.toNat = none →
      inWindows (s.windows t) true true a 32 = true →
      (∀ d, fetchBytes f a 32 = some d → recordOk d = true → fieldAt d 12 2 < 4096 → fieldAt d 14 2 = 0 → fieldAt d 28 4 = 0 →
        inWindows (s.windows t) true false (fieldAt d 0 8) (64 * 2 ^ byteAt d 8) = true →
        (s.flowOf? t (fieldAt d 12 2)).isSome = true → s.cqs.any (fun c => c.cq == fieldAt d 10 2 && c.ten == t.val) = true →
        exec (.ringEnableSq r t ring f) s = .next (((({ u with sqs := s.sqs ++ [sq d] } : State).issueWrite (a + 16)
          (leBytes 4 0 ++ leBytes 4 0 ++ leBytes 4 1) (.ringRecord ring.toNat)).ringResult t ring.toNat .done).finish)) ∧
      (fetchBytes f a 32 = none → noAnswer f a 32 = true → exec (.ringEnableSq r t ring f) s =
        .next (((u.setFlds [(F.TEN_RING_STATUS_BUSY t.val, 1), (F.TEN_RING_STATUS_RING t.val, ring.toNat)]).issueRead a 32
          (.ringEnable false t.val ring.toNat)).finish))) ∧
    (s.flag (F.TEN_RING_STATUS_BUSY t.val) = false → (s.tenEntry t).cqIn ring.toNat = true → s.cq? ring.toNat = none →
      inWindows (s.windows t) true true b 32 = true →
      (∀ d, fetchBytes f b 32 = some d → recordOk d = true → fieldAt d 10 2 < (s.tenEntry t).msiVectors →
        inWindows (s.windows t) false true (fieldAt d 0 8) (32 * 2 ^ byteAt d 8) = true →
        exec (.ringEnableCq r t ring f) s = .next (((({ u with cqs := s.cqs ++ [cq d] } : State).issueWrite (b + 16)
          (leBytes 12 0 ++ leBytes 4 1) (.ringRecord ring.toNat)).ringResult t ring.toNat .done).finish)) ∧
      (fetchBytes f b 32 = none → noAnswer f b 32 = true → exec (.ringEnableCq r t ring f) s =
        .next (((u.setFlds [(F.TEN_RING_STATUS_BUSY t.val, 1), (F.TEN_RING_STATUS_RING t.val, ring.toNat)]).issueRead b 32
          (.ringEnable true t.val ring.toNat)).finish))) ∧
    (s.flag (F.TEN_RING_STATUS_BUSY t.val) = true →
      ∀ c ∈ [Instr.ringEnableSq r t ring f, .ringEnableCq r t ring f, .ringDisableSq r t ring, .ringDisableCq r t ring],
        exec c s = .next ((u.setFld (F.TEN_RING_STATUS_OVERRUN t.val) 1).finish))

/-- Disabling an enabled submission ring sets it draining and clears its doorbell bit, and it is gone once no task of it is in flight
(R129); disabling a completion ring that nothing uses removes it, and one that something uses stays, with RESULT BOUND (R135). -/
def Obligations.RingDisableDrains : Prop :=
  ∀ (s : State) (r : CsReq) (t : Fin 16) (ring : BitVec 20), TenancyMay r t s →
    s.flag (F.TEN_RING_STATUS_BUSY t.val) = false →
    let u := answered s
    (∀ q, (s.tenEntry t).sqIn ring.toNat = true → s.sq? ring.toNat = some q → q.state = 1 →
      exec (.ringDisableSq r t ring) s = .next ((((((u.modSq ring.toNat (fun q => { q with state := 2, bit := false })).issueWrite
        (s.sqRecord t ring.toNat + 24) (leBytes 4 2) (.ringRecord ring.toNat)).closeRing ring.toNat).ringResult t ring.toNat
        .done)).finish)) ∧
    (∀ c, (s.tenEntry t).cqIn ring.toNat = true → s.cq? ring.toNat = some c →
      exec (.ringDisableCq r t ring) s = .next ((if s.cqBound ring.toNat then u.ringResult t ring.toNat .bound else
        (({ u with cqs := s.cqs.filter (fun c => c.cq != ring.toNat) } : State).issueWrite (s.cqRecord t ring.toNat + 28)
          (leBytes 4 0) (.ringRecord ring.toNat)).ringResult t ring.toNat .done).finish))

/-- The table registers of a page: each takes the written address, without the bits that read 0, when none of what it locates is
in use; else the write is logged as REG_ACCESS and ignored (R129, R215). On a calm instance the address is all that changes. -/
def Obligations.TableWriteTakesAddress : Prop :=
  ∀ (s : State) (r : CsReq) (t : Fin 16) (v : Word), TenancyMay r t s →
    let u := answered s
    let a := getBits v 0 52
    let sq := u.setFld (F.TEN_SQ_TABLE_ADDR t.val) (a / 32 * 32)
    let cq := u.setFld (F.TEN_CQ_TABLE_ADDR t.val) (a / 32 * 32)
    let live := u.setFld (F.TEN_LIVE_TABLE_ADDR t.val) (a / 512 * 512)
    let liveUsed := s.ports.any (fun p => (!p.pending.isEmpty || !p.busy.isEmpty) &&
      (match s.portFlow? p.port with | some (fe, _) => fe.ten == t.val | none => false))
    exec (.tenSqTable r t v) s =
      .next ((if s.sqs.any (fun q => q.ten == t.val) = true then u.logAccess r (pageOff t Row.TEN_SQ_TABLE) else sq).finish) ∧
    exec (.tenCqTable r t v) s =
      .next ((if s.cqs.any (fun q => q.ten == t.val) = true then u.logAccess r (pageOff t Row.TEN_CQ_TABLE) else cq).finish) ∧
    exec (.tenLiveTable r t v) s =
      .next ((if liveUsed = true then u.logAccess r (pageOff t Row.TEN_LIVE_TABLE) else live).finish) ∧
    (Calm s →
      (s.sqs.any (fun q => q.ten == t.val) = false → exec (.tenSqTable r t v) s = .next sq) ∧
      (s.cqs.any (fun q => q.ten == t.val) = false → exec (.tenCqTable r t v) s = .next cq) ∧
      (liveUsed = false → exec (.tenLiveTable r t v) s = .next live))

/-- A push to TEN_DOORBELL enters the tenancy's push queue behind what is there, with its requester and its arrival time, and waits
(R130, R132). A write to a page while its tenancy's push queue holds 256 writes, or while writes are stalled there, stalls behind
them, whatever register of the page it is to (R132). On a calm instance nothing else changes. -/
def Obligations.DoorbellQueues : Prop :=
  ∀ (s : State) (r : CsReq) (t : Fin 16) (v : Word), FromHost r → r.view = 16 ∨ r.view = t.val → Serving s → s.heldCs = [] →
    let put (g : TenRun → TenRun) : State := { answered s with tens := s.tens.mapIdx (fun i x => if i = t.val then g x else x) }
    let queued := put (fun x => { x with pushes := x.pushes ++ [⟨r, pageOff t Row.TEN_DOORBELL, v, s.time.now, false⟩] })
    let stalled (row : RegRow) (v : Word) : State :=
      put (fun x => { x with stalled := x.stalled ++ [⟨r, pageOff t row, v, s.time.now, false⟩] })
    ((s.tenRun t).pushes.length < 256 → (s.tenRun t).stalled = [] → exec (.doorbell r t v) s = .next (queued.finish) ∧
      (Calm s → exec (.doorbell r t v) s = .next queued)) ∧
    (256 ≤ (s.tenRun t).pushes.length ∨ (s.tenRun t).stalled ≠ [] → ∀ (ring : BitVec 20) (f : Fetch),
      ∀ x ∈ [(Instr.doorbell r t v, Row.TEN_DOORBELL, v), (.cqDoorbell r t v, Row.TEN_CQ_DOORBELL, v),
        (.liveDoorbell r t v f, Row.TEN_LIVE_DOORBELL, v), (.pktDoorbell r t v, Row.TEN_PKT_DOORBELL, v),
        (.tenGalleyStep r t v, Row.TEN_GALLEY_STEP, v), (.tenDeltaDone r t v, Row.TEN_DELTA_DONE, v),
        (.tenSqTable r t v, Row.TEN_SQ_TABLE, v), (.tenCqTable r t v, Row.TEN_CQ_TABLE, v),
        (.tenLiveTable r t v, Row.TEN_LIVE_TABLE, v), (.tenancyReset r t, Row.TEN_CTRL, 1),
        (.ringEnableSq r t ring f, Row.TEN_RING_CMD, ringCmdWord 0 1 ring.toNat),
        (.ringDisableCq r t ring, Row.TEN_RING_CMD, ringCmdWord 1 2 ring.toNat)],
        exec x.1 s = .next ((stalled x.2.1 x.2.2).finish) ∧ (Calm s → exec x.1 s = .next (stalled x.2.1 x.2.2)))

/-- PUSH_DRAIN takes the oldest push of the next tenancy in rotation, and the rotation goes on behind that tenancy (R132). A doorbell
push is handled as R130 states: a ring outside the tenancy's range, a ring that is not enabled, and a tail at or above the ring's
size are counted each in its counter, set DB_ERROR and raise DOORBELL, whose severity is LOG by default; any other push sets the
ring's TAIL and doorbell bit, and TAIL goes to the ring's record. A push of another register is handled by that register's rule. The
room it leaves takes the writes that stalled behind the queue (R132). -/
def Obligations.PushDrainHandlesOldest : Prop :=
  ∀ (s : State) (t : Fin 16) (p : Push) (rest : List Push) (f : Fetch), s.ready = true → s.nextPusher = some t.val →
    (s.tenRun t).pushes = p :: rest →
    let u := s.modTen t (fun x => { x with pushes := rest })
    let ring := getBits p.v 0 20
    let tail := getBits p.v 20 16
    let bad (counter : Field) : State :=
      ((u.incFld counter).setFld (F.TEN_STATUS_DB_ERROR t.val) 1).raise 0x04 (FaultInfo.of (Charge.ten t.val))
    let handled : State := if p.off ≠ pageOff t Row.TEN_DOORBELL then u.handlePush t p f
      else if (s.tenEntry t).sqIn ring = false then bad (F.TEN_DB_ERRORS_BAD_RING t.val)
      else match s.sq? ring with
        | none => bad (F.TEN_DB_ERRORS_DISABLED_RING t.val)
        | some q => if q.state ≠ 1 then bad (F.TEN_DB_ERRORS_DISABLED_RING t.val)
          else if 2 ^ q.log2 ≤ tail then bad (F.TEN_DB_ERRORS_BAD_TAIL t.val)
          else (u.modSq ring (fun q => { q with tail := tail, bit := true })).issueWrite (s.sqRecord t ring + 20) (leBytes 4 tail)
            (.ringRecord ring)
    exec (.pushDrain f) s = .next ((State.unstall t f (handled.tenRun t).stalled.length
      { handled with pushRot := (t.val + 1) % 16 }).finish) ∧
    (fltDefaults 0x04).map (·.1) = some 1

/-- A push to TEN_CQ_DOORBELL that finds its queue empty is handled at once, as R141 states: HEAD of an enabled completion ring of the
tenancy, below the ring's size, takes the pushed index, and the ring's record takes it; a ring outside the tenancy's range, a
disabled ring and a head at or above the ring size have no effect but to count as BAD_CQ_HEAD, with DB_ERROR and DOORBELL. -/
def Obligations.CqDoorbellReturnsEntries : Prop :=
  ∀ (s : State) (r : CsReq) (t : Fin 16) (v : Word), TenancyMay r t s → QueuesHold s → (s.tenRun t).pushes = [] →
    let u := answered s
    let ring := getBits v 0 16
    let head := getBits v 16 16
    let bad : State := ((u.incFld (F.TEN_DB_ERRORS_BAD_CQ_HEAD t.val)).setFld (F.TEN_STATUS_DB_ERROR t.val) 1).raise 0x04
      (FaultInfo.of (Charge.ten t.val))
    exec (.cqDoorbell r t v) s = .next ((match (s.cq? ring).filter (fun _ => (s.tenEntry t).cqIn ring) with
      | none => bad
      | some c => if 2 ^ c.log2 ≤ head then bad else
        (u.modCq ring (fun c => { c with head := head })).issueWrite (s.cqRecord t ring + 16) (leBytes 4 head)
          (.ringRecord ring)).finish)

/-! ### Live ports, releases and entries -/

/-- A push of a live port that is bound to a live flow of the tenancy, with its completion ring enabled, in the order of arrival of host
and dies together (R187). It comes by register (LIVE_DOORBELL) or from a die (LIVE_PUSH), with nothing before it in its tenancy's
queue. A slot that is busy counts as SLOT_BUSY. A free slot is marked busy, and its post waits behind those that are pending, with
its arrival time; on a full port that supersedes, the oldest pending post gives way, with an entry of status 0x11 and its KEEP parts
carried, and one that does not supersede answers with an entry of status 0x13, and takes nothing. -/
def Obligations.LivePushPends : Prop :=
  ∀ (s : State) (t : Fin 16) (p sl : Nat) (fe : FlowEntry) (b : LiveBinding) (q : PortRun) (f : Fetch), Serving s → QueuesHold s →
    (s.tenRun t).pushes = [] → (s.tenRun t).stalled = [] →
    s.portFlow? p = some (fe, b) → s.port? p = some q → fe.ten = t.val → (s.cq? b.cq).isSome = true →
    let marked := ((answered s).modPort p (fun r => { r with busy := r.busy ++ [sl] })).setClock fe s.now
    let append (x : State) : State := x.modPort p (fun r => { r with pending := r.pending ++ [⟨sl, s.now⟩] })
    let pushed : State :=
      if q.busy.contains sl = true then (answered s).incFld (F.TEN_LIVE_STATUS_SLOT_BUSY t.val)
      else if q.pending.length ≠ b.qdepth then append marked
      else if b.supersede = false then
        ((marked.incFld F.STN_HW_COUNT_B_PORT_FULL).incFld (F.TEN_LIVE_STATUS_PORT_FULL t.val)).postEntry (liveEntry fe b sl 0x13)
      else match q.pending with
        | [] => marked
        | old :: rest => append ((((marked.modPort p (fun r => { r with pending := rest })).carryKeep fe p old.slot f).incFld
            F.STN_HW_COUNT_A_SUPERSEDED).postEntry (liveEntry fe b old.slot 0x11))
    (∀ (r : CsReq) (v : Word), TenancyMay r t s → getBits v 0 9 = p → getBits v 9 3 = sl →
      exec (.liveDoorbell r t v f) s = .next (pushed.finish)) ∧
    (∀ (node : Nat) (w : BitVec 16), node < 0x20 → b.diePost = true → w.toNat % 16 = t.val →
      w.toNat / 16 % 512 = p → w.toNat / 8192 = sl → exec (.livePush node w f) s = .next (pushed.finish))

/-- Headwater takes the oldest pending post of a port (R186, R190, R191). A slot whose fields fail their check ends the post with status
0x43. A fresh post of a deadline flow becomes a task that waits for its release: it is accepted now, with the slot's parts and
capture time. A post that is older than FRESH_NS is stale: it is counted, its entry has status 0x10, and it takes no SAMPLE_INDEX. -/
def Obligations.LivePostBecomesTask : Prop :=
  ∀ (s : State) (port : Fin 512) (f : Fetch) (fe : FlowEntry) (b : LiveBinding) (q : Post) (rest : List Post) (d : List Byte),
    s.ready = true → s.runs .fclk = true → s.portFlow? port.val = some (fe, b) →
    (s.port? port.val).map (·.pending) = some (q :: rest) → s.enc? fe.flow = none → s.mayTake fe = true →
    fetchBytes f (s.slotAddr fe.ten port.val q.slot) 64 = some d →
    (parseSlot (s.windows fe.ten) d = none →
      exec (.livePostTake port f) s = .next (((s.popPost port.val (s.now - q.tArr)).badSlot fe b q.slot).finish)) ∧
    (∀ r, parseSlot (s.windows fe.ten) d = some r → let c := (s.stamp r q.tArr).2
      (b.freshNs = 0 ∨ s.now - c ≤ b.freshNs → (s.run fe.flow).suspended = false → fe.streaming = false → fe.deadline = true →
        ∃ (u : State) (k : Task), exec (.livePostTake port f) s = .next (u.finish) ∧ u.tasks = s.tasks ++ [k] ∧ k.flow = fe.flow ∧
          k.phase = .waiting ∧ k.origin = .port port.val q.slot ∧ k.capture = c ∧ k.accept = s.now ∧ k.parts = r.parts ∧
          k.sample = (s.run fe.flow).sampleNext ∧
          u.flows = (s.modRun fe.flow (fun x => { x with sampleNext := (s.run fe.flow).sampleNext + 1 })).flows) ∧
      (b.freshNs ≠ 0 → b.freshNs < s.now - c → ∃ u : State, exec (.livePostTake port f) s = .next (u.finish) ∧ u.tasks = s.tasks ∧
        (u.run fe.flow).sampleNext = (s.run fe.flow).sampleNext ∧
        u.due = s.due ++ [{ liveEntry fe b q.slot 0x10 with at_ := s.now }]))

/-- The next deadline task comes due at r_j. A task whose sample is fresh enough starts its reads, with its ready-by time
r_j + D; a stale one is dropped (R97, R191). With no task that waits for its release, nothing happens. -/
def Obligations.DeadlineTaskReleases : Prop :=
  ∀ s : State, s.ready = true →
    (∀ (t : Task) (fe : FlowEntry) (due : Nat), s.nextRelease = some (t, fe, due) → let u := s.advance due
      exec .taskRelease s = .next ((if t.freshBound fe ≠ 0 ∧ t.freshBound fe < u.now - t.capture then u.dropStale fe t else
        let v := (u.modRun fe.flow (fun r => { r with lastRel := some due })).modTask t.id (fun t => { t with
          release := due, readyBy := some (due + fe.deadlineNs) })
        (if t.delta.isSome then v else v.giveCarry t.id).startReads fe t.id).finish)) ∧
    (s.nextRelease = none → exec .taskRelease s = .next (s.finish))

/-- Headwater fetches the entries of the ring that is next: its doorbell bit clears, a bulk ring moves the rotating position, up to
64 entries are taken, as many as there are and as the flow has slots, and HEAD is written to the record if it moved; the bit is
set again if entries are left (R131, R133). An entry that is taken advances HEAD and becomes a task: a NOP ends at once, an entry
with a reserved bit set ends with DESC_INVALID, and an entry of a live flow that is not suspended starts (R126, R127). -/
def Obligations.RingEntriesTaken : Prop :=
  ∀ (s : State) (f : Fetch) (r : SqRing), s.ready = true → s.runs .fclk = true → s.nextRing = some r →
    let late := (s.flowOf? r.ten r.flow).any (·.deadline)
    let n := min 64 (min ((r.tail + 2 ^ r.log2 - r.head) % 2 ^ r.log2) (s.slotsFor r.ten r.flow))
    let a := s.modSq r.ring (fun r => { r with bit := false })
    let u := State.takeGo r.ring f n (if late then a else { a with scanRot := (r.ring + 1) % 2 ^ 20 })
    let v := u.modSq r.ring (fun q => { q with bit := q.bit || q.head != q.tail })
    (∀ q, u.sq? r.ring = some q → exec (.sqEntryFetch f) s = .next ((if q.head = r.head then v else
      v.issueWrite (v.ringRecordAddr { q with bit := q.bit || q.head != q.tail } + 16) (leBytes 4 q.head)
        (.ringRecord r.ring)).finish)) ∧
    (∀ (w : State) (d : List Byte), let head := (r.head + 1) % 2 ^ r.log2
      let x := (w.modSq r.ring (fun r => { r with head := head })).accept
        (entryTask (w.modSq r.ring (fun r => { r with head := head })) r d head)
      (entryClean d = false → w.takeEntry r d = x.1.stopTask x.2 0x43 false) ∧
      (entryClean d = true → byteAt d 8 = 0 → w.takeEntry r d = x.1.finishTask x.2) ∧
      (∀ fe, entryClean d = true → byteAt d 8 = 1 → x.1.flowOf? r.ten r.flow = some fe → (x.1.run fe.flow).suspended = false →
        taskClean fe (entryTask (w.modSq r.ring (fun r => { r with head := head })) r d head) = true →
        w.takeEntry r d = x.1.startEntry fe x.2))

/-- The frame clock of an encode flow reaches s_k = T0 + k·period (R265): the tick is counted, and it is skipped when the tenancy
has no slot left, when the flow does not start or when the tenancy resets; with no post pending a repeat is synthesised; and a
fresh pending post with a well-formed slot starts its frame, unless its pool has nothing for it, when the tick is skipped (R266). -/
def Obligations.EncodeTickStarts : Prop :=
  ∀ (s : State) (flow : BitVec 12) (f : Fetch) (fe : FlowEntry) (e : EncEntry) (b : LiveBinding) (t0 : Nat), s.ready = true →
    s.flow? flow.toNat = some fe → s.enc? flow.toNat = some e → fe.live = some b → (s.run flow.toNat).enc.t0 = some t0 →
    let k := (s.run flow.toNat).enc.tick
    let sk := t0 + k * fe.periodNs
    let u := (s.advance sk).modEnc flow.toNat (fun c => { c with tick := k + 1 })
    let posts := ((u.port? b.port).map (·.pending)).getD []
    ((u.freeSlots fe = 0 ∨ u.starting flow.toNat = false ∨ u.resetting fe.ten = true) →
      exec (.encodeStart flow f) s = .next ((u.skipTick flow.toNat).finish)) ∧
    (u.freeSlots fe ≠ 0 → u.starting flow.toNat = true → u.resetting fe.ten = false →
      (posts = [] → exec (.encodeStart flow f) s = .next ((u.synthRepeat fe b k sk).finish)) ∧
      (∀ q rest, posts = q :: rest →
        (sk < q.tArr → exec (.encodeStart flow f) s = .next ((u.synthRepeat fe b k sk).finish)) ∧
        (q.tArr ≤ sk → u.poolHolds fe = true → exec (.encodeStart flow f) s = .next ((u.skipTick flow.toNat).finish)) ∧
        (∀ d r, q.tArr ≤ sk → u.poolHolds fe = false →
          fetchBytes f (u.slotAddr fe.ten b.port q.slot) 64 = some d → parseSlot (u.windows fe.ten) d = some r →
          let c := (u.stamp r q.tArr).2
          (b.freshNs = 0 ∨ sk - c ≤ b.freshNs) →
          exec (.encodeStart flow f) s = .next (((u.stamp r q.tArr).1.takeFrame fe e b q c r k sk f).finish))))

/-- The packet ring (R277 to R280, R289). A push of a read offset that is a multiple of 16 inside the ring, and not beyond what is
used, returns the space; another is counted as BAD_PUSH. Outfall writes a flow's next chunk when it fits in the ring; when it does
not, FULL is set and PKT_FULL is raised. -/
def Obligations.PacketRingMoves : Prop :=
  ∀ (s : State) (fe : FlowEntry) (e : EncEntry) (flow : BitVec 12), s.enc? flow.toNat = some e → Serving s →
    let q := (s.run flow.toNat).enc
    (∀ (r : CsReq) (t : Fin 16) (v : Word), TenancyMay r t s → QueuesHold s → (s.tenRun t).pushes = [] →
      s.flowOf? t flow.toNat = some fe → getBits v 0 12 = flow.toNat → let rd := getBits v 12 30
      exec (.pktDoorbell r t v) s = .next ((if rd % 16 = 0 ∧ rd < e.pktSize ∧
          (rd + e.pktSize - q.rdOff) % max 1 e.pktSize ≤ q.usedBytes e.pktSize then
        (answered s).modEnc flow.toNat (fun r => { r with rdOff := rd })
        else (answered s).incFld (F.TEN_PKT_STATUS_BAD_PUSH t.val)).finish)) ∧
    (∀ (c : Chunk) (rest : List Chunk) (t : Task), s.runs .fclk = true → s.flow? flow.toNat = some fe → q.chunkOut = 0 →
      q.chunks = c :: rest → s.task? c.task = some t → t.stopping = false → t.phase = .chunking →
      inWindows t.windows false true e.pktBase e.pktSize = true →
      (q.place e.pktSize c.image.length = none → exec (.chunkWrite flow) s =
        .next (((s.setFld (F.TEN_PKT_STATUS_FULL fe.ten) 1).raiseOn 0x05 (.flow flow.toNat)).finish)) ∧
      (∀ pad, q.place e.pktSize c.image.length = some pad → let w := (s.putChunk fe e c pad).modTask t.id (fun t => { t with
          writesOut := t.writesOut + 1 })
        exec (.chunkWrite flow) s = .next ((if bit c.flags 1 then w.placeOutputs t.id else w).finish)))

/-! ### Pieces, boundaries, entries and residency -/

/-- A free unit of a server takes the piece that is next for it (R99, R100): of a task, of a transfer, of a delivery unit or of a
batch's assembly; the bytes of the last three are counted as served. With no piece ready nothing is taken. Before, the text server
reads the images again that the fabric answers for; at any other server the state is as it was (R345). -/
def Obligations.PieceDispatched : Prop :=
  ∀ (s : State) (v : Fin 41) (f : Fetch), s.ready = true → s.runs (s.serverDomain v.val) = true →
    let u := s.rereadImages v.val f
    (v.val ≠ 0x25 ∨ f = [] → u = s) ∧
    (u.pickPiece v.val = none → exec (.pieceDispatch v f) s = .next (u.finish)) ∧
    (∀ r : Ready, u.pickPiece v.val = some r →
      (∀ id t, r.piece = .task id → u.task? id = some t → exec (.pieceDispatch v f) s = .next ((u.doTask r.fe t v.val).finish)) ∧
      (∀ id t, r.piece = .xfer id → u.task? id = some t → exec (.pieceDispatch v f) s =
        .next (((u.dispatchXfer t).countServed r.fe v.val ((t.delta.bind DeltaTask.cutBytes).getD 0)).finish)) ∧
      (∀ k x, u.batches.find? (fun x => x.key == k) = some x →
        (r.piece = .unit k → exec (.pieceDispatch v f) s = .next (((u.dispatchUnit x).countServed r.fe v.val r.bytes).finish)) ∧
        (r.piece = .asm k → exec (.pieceDispatch v f) s = .next (((u.doAsm x).countServed r.fe v.val (min 65536 x.asm)).finish))))

/-- A task at its boundary returns its blocks and its stream, checkpoints its flow when it is a task of the flow, its entry is due,
and its contexts may give way (R149, R452). The next entry of an enabled completion ring that is not full is written at TAIL, which
advances with the ring's SEQ, and its task ends (R138, R140); on a full ring it is held; of a ring that is disabled it is dropped,
and a batch entry lost so sets CQ_LOST (R135). When the oldest unannounced entry has waited IRQ_DELAY_US, the ring's interrupt is
due (R142). -/
def Obligations.EntriesComplete : Prop :=
  ∀ s : State, s.ready = true →
    (∀ id t, s.task? id = some t → t.atBoundary = true → s.due.any (fun d => d.task == some id) = false →
      let u := (s.freeTask id).releaseStream t
      let w := match u.flow? t.flow with | some fe => if t.opcode = 1 then u.checkpoint fe id else u | none => u
      exec (.taskEnd id) s = .next ((({ w with due := w.due ++ [t.dueEntry w.now] } : State).sliceSwap t).finish)) ∧
    (∀ (cq : BitVec 16) d, s.runs .fclk = true → s.nextEntry cq.toNat = some d →
      (∀ c, s.cq? cq.toNat = some c → exec (.completionWrite cq) s = .next ((if c.full = true then s.holdEntries c
        else ((s.lateIfHeld d).writeEntry c d).endEntry d).finish)) ∧
      (s.cq? cq.toNat = none → exec (.completionWrite cq) s =
        .next ((((if d.isBatch = true then s.setFld (F.TEN_STATUS_CQ_LOST d.ten) 1 else s).releaseSlot d.slot).endEntry d).finish))) ∧
    (∀ (cq : BitVec 16) c t0, s.cq? cq.toNat = some c → c.oldest = some t0 → c.irqDelay ≠ 0 → c.irqCount ≠ 0 →
      exec (.irqDelayExpire cq) s = .next (((s.advance (t0 + c.irqDelay * 1000)).modCq cq.toNat (fun c => { c with
        irqDue := true })).cqInterrupt cq.toNat))

/-- What waits for room goes on. A parked unit of a flow whose Millpond room suffices is ready again, at the price of a load
(R231). A runnable context that finds no free berth takes that of the blocked context that leaves first; one swap runs at a time,
and those decided meanwhile follow it in order (R147, R148); a context that is loaded is resident, and the swap is counted with its
time (R152). A bulk request that has waited WAIT_MS is refused and counted: a task on its way returns its blocks and its sample has
no block, a streaming task has no block for its staging, and a batch that waits for one aborts (R168, R179). A piece of a task that
makes no progress for 1 ms is stopped, with the event WATCHDOG (R437). -/
def Obligations.WaitsEnd : Prop :=
  ∀ s : State, s.ready = true →
    let swapStarts (s : State) (out inc : Nat × Nat) : State := { s with
      berths := s.berths.map (fun b => if (b.flow == out.1 && b.part == out.2) = true then { b with
        resident := false, since := if b.runnable = true then s.time.now else b.since } else b),
      swapBusy := some (inc.1, inc.2, s.time.now) }
    (∀ (flow : BitVec 12) fe t, s.flow? flow.toNat = some fe →
      s.tasks.find? (fun t => t.flow == flow.toNat && (match t.dec with | some p => p.parked != 0 | none => false) &&
        s.millRoom fe t) = some t →
      exec (.parkedUnitReady flow) s =
        .next (((s.modPlan t.id (fun p => { p with parked := p.parked - 1 })).incFld F.STN_MR_COUNT_LOADS).finish)) ∧
    (∀ inc out, s.waitingOut = some inc → leastBy BerthCtx.evictBefore s.blockedIn = some out → exec .berthEvict s = .next (
      if s.swapBusy = none then swapStarts s (out.flow, out.part) (inc.flow, inc.part)
      else { s with swapQueue := s.swapQueue ++ [((out.flow, out.part), (inc.flow, inc.part))] })) ∧
    (∀ f p t, s.swapBusy = some (f, p, t) →
      let m := max (s.fld F.LKP_SWAP_COUNT_MAX_NS) (min (2 ^ 32 - 1) (s.time.now - t))
      let b := s.berths.map (fun b => if (b.flow == f && b.part == p) = true then { b with resident := true } else b)
      let u := (({ s with berths := b, swapBusy := none } : State).incFld F.LKP_SWAP_COUNT_SWAPS).setFld F.LKP_SWAP_COUNT_MAX_NS m
      (s.swapQueue = [] → exec .swapComplete s = .next (u.finish)) ∧
      (∀ out inc rest, s.swapQueue = (out, inc) :: rest →
        exec .swapComplete s = .next ((swapStarts { u with swapQueue := rest } out inc).finish))) ∧
    (∀ (pool : Fin 32) w due t fe, s.waitDue pool.val = some (w, due) → s.task? w.task = some t → s.flow? w.flow = some fe →
      let u := (((s.advance due).incFld (F.RSV_POOL_COUNT_EXHAUSTED pool.val)).raiseOn 0x0A (.task w.task)).freeTask w.task
      (t.delta.isSome = true →
        exec (.poolWaitTimeout pool) s = .next ((u.modDelta t.id (fun d => { d with noStage := true })).finish)) ∧
      (t.delta = none → t.phase ≠ .batched → exec (.poolWaitTimeout pool) s =
        .next ((u.blockRefused fe { t with blocks := [] } (fe.path.getD t.stage 0)).finish)) ∧
      (∀ x g, t.delta = none → t.phase = .batched → u.batches.find? (fun x => x.holder == some t.id) = some x →
        fe.galley = some g → exec (.poolWaitTimeout pool) s = .next ((u.abortBatch g x 0x42).finish))) ∧
    (∀ id t, s.task? id = some t → t.phase = .ready → t.stopping = false →
      exec (.watchdog id) s = .next (((s.raiseOn 0x30 (.task id)).faultStop id).finish))

/-! ### Galley and Delta -/

/-- A step trigger, by register (TEN_GALLEY_STEP) or from a die (MSG STEP), of a group of the tenancy starts its step when none is
assembling, is held while one is, and is counted as STEP_OVERRUN when one is held already; any other trigger is counted as BAD_WRITE of
the tenancy (R369, R378). A held trigger starts its step once the step before it has ended. -/
def Obligations.GalleyStepTriggers : Prop :=
  ∀ (s : State) (t : Fin 16) (g : Nat), Serving s →
    let u := answered s
    let x? := s.groups.find? (fun x => x.group == g && x.ten == t.val)
    let go : State := match x? with
      | none => u.incFld (F.TEN_GALLEY_STATUS_BAD_WRITE t.val)
      | some x => if x.assembling = false then u.stepGroup x
        else if x.held = false then u.modGroup g (fun x => { x with held := true })
        else u.incFld F.STN_GAL_COUNT_C_STEP_OVERRUN
    (∀ (r : CsReq) (v : Word), TenancyMay r t s → QueuesHold s → (s.tenRun t).pushes = [] → getBits v 0 6 = g →
      exec (.tenGalleyStep r t v) s = .next (go.finish)) ∧
    (∀ (node : Nat) (w : BitVec 16), node < 0x20 → w.toNat % 16 = t.val → w.toNat / 16 % 64 = g →
      exec (.step node w) s = .next (go.finish)) ∧
    (∀ (k : Fin 64) x, s.groups.find? (fun x => x.group == k.val) = some x → x.held = true → x.assembling = false →
      exec (.heldStepStart k) s =
        .next (((s.modGroup k.val (fun x => { x with held := false })).stepGroup { x with held := false }).finish))

/-- Galley's register writes and the waits they can end (R361 to R363, R370, R378). LEAVE marks the member of a running batch. SKIP makes every
index of a batch-image or queue flow below its value absent, and FLUSH also closes the open batch at that index; on a running-batch
flow it is counted as BAD_WRITE and has no other effect. When HOLD_US has passed since the last sample with nothing held, the
open batch is closed; while a higher index has been held that long, the next one is made absent. When the HOLD policy's limit
passes, the sample that was kept open is resolved as it is. -/
def Obligations.GalleyResolves : Prop :=
  ∀ (s : State) (fe : FlowEntry) (g : GalleySettings), fe.galley = some g →
    (∀ (r : CsReq) (t : Fin 16) (v : Word), TenancyMay r t s → QueuesHold s → (s.tenRun t).pushes = [] →
      s.flowOf? t (getBits v 0 12) = some fe →
      let u := answered s
      let flow := getBits v 0 12
      let upTo := getBits v 12 48
      (g.mode = 1 → getBits v 12 2 = 1 → exec (.galleyLeave r t v) s =
        .next ((u.modMember g.group flow (fun m => { m with leave := true })).finish)) ∧
      (g.mode = 0 → getBits v 60 1 = 0 → exec (.galleySkip r t v) s =
        .next (((u.modGal flow (fun c => { c with absent := max c.absent upTo })).galRun fe g).finish)) ∧
      (g.mode = 0 → getBits v 60 1 = 1 → exec (.galleyFlush r t v) s = .next (((u.modGal flow (fun c => { c with
        absent := max c.absent upTo, flushTo := some (max upTo c.eNext) })).galRun fe g).finish)) ∧
      (g.mode ≠ 0 → exec (.galleySkip r t v) s = .next ((u.incFld (F.TEN_GALLEY_STATUS_BAD_WRITE t.val)).finish))) ∧
    (∀ (flow : BitVec 12), s.ready = true → s.flow? flow.toNat = some fe →
      let c := s.gal flow.toNat
      let hold := g.holdUs * 1000
      (∀ d, g.mode = 0 → c.gapDue hold = none → c.idleDue hold = some d →
        exec (.holdUsExpire flow) s = .next ((((s.advance d).modGal flow.toNat (fun c => { c with
          flushTo := some c.eNext })).galRun fe g).finish)) ∧
      (∀ d, g.mode = 0 → c.gapDue hold = some d → (∀ x, c.idleDue hold = some x → d ≤ x) →
        exec (.holdUsExpire flow) s =
          .next ((State.holdGap fe g (sumBy (fun h => h.sample.index - c.eNext) c.held) (s.advance d)).finish)) ∧
      (∀ h, c.held.find? (fun h => h.sample.index == c.eNext) = some h → s.keptOpen fe g h = true →
        exec (.holdLimit flow) s = .next (((s.advance h.limit).galRun fe g).finish)))

/-- ALT of a live streaming flow of the tenancy is set and cleared by register (TEN_DELTA_ALT with OP 1 or 2) and from a die (MSG
FALLBACK), and nothing else changes but the response; a flow that is none such counts as BAD_WRITE (R400, R411). -/
def Obligations.DeltaAlternateSet : Prop :=
  ∀ (s : State) (t : Fin 16) (flow : Nat), Serving s →
    let u := answered s
    let go (on : Bool) : State := if (s.streamingOf? t flow).isSome then
        { u with flows := s.flows.map (fun x => if (x.flow == flow) = true then { x with dlt := { x.dlt with alt := on } } else x) }
      else u.incFld (F.TEN_DELTA_STATUS_BAD_WRITE t.val)
    (∀ (r : CsReq) (v : Word), TenancyMay r t s → QueuesHold s → (s.tenRun t).pushes = [] → getBits v 0 12 = flow →
      (getBits v 12 2 = 1 → exec (.deltaAltSet r t v) s = .next ((go true).finish)) ∧
      (getBits v 12 2 = 2 → exec (.deltaAltClear r t v) s = .next ((go false).finish))) ∧
    (∀ (node : Nat) (w : BitVec 24), node < 0x20 → w.toNat % 65536 / 4096 = t.val → w.toNat % 4096 = flow →
      (w.toNat / 65536 = 1 → exec (.fallback node w) s = .next ((go true).finish)) ∧
      (w.toNat / 65536 = 2 → exec (.fallback node w) s = .next ((go false).finish)))

/-- LAYER_DONE of the layer that is present marks its die as done, by MSG or by register; for another layer it is counted as
STRAY_DONE (R396). A task of the next layer that has waited DRAIN_TIMEOUT_US ends with status 0x44: the timeout is counted, recorded with
reason 5, and DLT_DRAIN is raised (R398). -/
def Obligations.DeltaLayersDrain : Prop :=
  ∀ (s : State) (t : Fin 16) (flow layer die : Nat), Serving s →
    let u := answered s
    let go : State := if (s.streamingOf? t flow).isSome ∧ (s.run flow).dlt.present = some layer then
        u.modDlt flow (fun c => { c with gotDone := c.gotDone ||| 2 ^ die })
      else u.incFld F.STN_DLT_COUNT_C_STRAY_DONE
    (∀ w : BitVec 32, die < 0x20 → w.toNat % 65536 / 4096 = t.val → w.toNat % 4096 = flow → w.toNat / 65536 = layer →
      exec (.layerDone die w) s = .next (go.finish)) ∧
    (∀ (r : CsReq) (v : Word), TenancyMay r t s → QueuesHold s → (s.tenRun t).pushes = [] → getBits v 0 12 = flow →
      getBits v 12 5 = die → getBits v 32 16 = layer → (s.streamingOf? t flow).isSome = true →
      exec (.tenDeltaDone r t v) s = .next (go.finish)) ∧
    (∀ id k d t0, s.task? id = some k → k.delta = some d → d.waitFrom = some t0 → d.layerWait = true → k.stopping = false →
      let x := ((s.advance (t0 + d.drainNs)).modDlt k.flow (fun c => { c with layerQ := c.layerQ.erase id })).haltDelta id
      exec (.drainTimeout id) s = .next (((((x.stopTask id 0x44 false).incFld F.STN_DLT_COUNT_B_DRAIN_TIMEOUTS).dltLast k 5
        0).raiseOn 0x0E (.task id)).finish))

/-- Delta's stagger (R401) and Weir's bucket (R406). At a group's start, at t_R + g·RAMP_NS/GROUPS, at the last moment a_D − w of a
held deadline write, and when the window closes at t_R + RAMP_NS, every write that is no longer held is issued. A cycle of
Weir in which nothing waits for tokens pays the debt of deadline traffic from the cycle's rate, notes the traffic since the last
cycle as new debt, up to four bursts, and leaves the buckets as they are. -/
def Obligations.StaggerAndWeir : Prop :=
  ∀ s : State, s.ready = true →
    (∀ (g : Fin 16) w, s.stagger = some w →
      exec (.staggerGroupStart g) s = .next (((s.advance (w.tr + g.val * w.ramp / max 1 w.groups)).freeHeld).finish)) ∧
    (∀ due, leastBy (fun a b : Nat => decide (a < b)) s.heldLimits = some due →
      exec .staggerHoldLimit s = .next (((s.advance due).freeHeld).finish)) ∧
    (∀ w, s.stagger = some w → exec .staggerWindowClose s =
      .next ((({ s.advance (w.tr + w.ramp) with stagger := none } : State).freeHeld).finish)) ∧
    ((∀ t < 16, s.weirWaits t = false ∧ s.waitsAtDelta t = false) → s.weir.queue = [] →
      exec .weirBucketRefill s = .next ({ s with weir := { s.weir with
        debt := min (s.weir.debt - min s.weir.debt s.weirRate + s.weir.dlBytes) (4 * s.weirBurst), dlBytes := 0 } }.finish))

/-! ### Fabric -/

/-- A response is matched to its transaction by TAG and kind; one that matches nothing is discarded (R509, R510). A good response
of the right length retires the transaction and hands its data on; an error, or no response within 100 µs, ends it as an
error, and the timeout is counted (R510). -/
def Obligations.FabricResponses : Prop :=
  ∀ (s : State) (tag : BitVec 16), Serving s →
    (∀ (x : Txn) (st : RespStatus) (d : List Byte), s.txns.find? (fun x => x.tag == tag.toNat && (x.op == .rd) == true) = some x →
      let u := (s.retireTxn x).lateRead x
      exec (.rdData tag st d) s = .next ((if st = .ok ∧ d.length = x.len then u.gotData x d else u.gotError x).finish)) ∧
    (∀ (x : Txn) (st : RespStatus), s.txns.find? (fun x => x.tag == tag.toNat && (x.op == .rd) == false) = some x →
      let u := (s.retireTxn x).lateRead x
      exec (.ack tag st) s = .next ((if st = .ok then u.gotAck x else u.gotError x).finish)) ∧
    (∀ (st : RespStatus) (d : List Byte),
      (s.txns.find? (fun x => x.tag == tag.toNat && (x.op == .rd) == true) = none →
        exec (.rdData tag st d) s = .next (s.finish) ∧ (Calm s → exec (.rdData tag st d) s = .next s)) ∧
      (s.txns.find? (fun x => x.tag == tag.toNat && (x.op == .rd) == false) = none →
        exec (.ack tag st) s = .next (s.finish) ∧ (Calm s → exec (.ack tag st) s = .next s))) ∧
    (∀ x, s.txns.find? (fun x => x.tag == tag.toNat) = some x →
      let u := ((({ s with txns := s.txns.erase x } : State).freeMover x.purpose).advance (x.issued + 100000)).incFld
        F.GLB_FABRIC_TIMEOUTS
      exec (.fabricTimeout tag) s = .next ((u.gotError x).finish))

/-- A flit that fails its CRC is replayed up to 8 times, counted in REPLAYS, and the ninth failure fences the port; a flit without
a credit fences it at once (R507, R508). A fenced port is listed, shown in FLT_FENCE and counted, FABRIC_LINK is raised for it,
and each of its transactions ends as an error, in order. At a port that is fenced already neither does anything. A MSG from no compute
die, of an unknown type, or a FALLBACK with another OP, is refused with STATUS 4 and counted (R506). -/
def Obligations.LinkErrors : Prop :=
  ∀ (s : State) (p : Fin 16), Serving s →
    let fails := ((s.crcFails.find? (fun c => c.1 == p.val)).map (·.2)).getD 0
    let replayed := ({ s with crcFails := putBy (fun c => c.1 == p.val) (p.val, fails + 1) s.crcFails } : State).incFld
      F.GLB_FABRIC_REPLAYS
    let listed := ((({ s with
      fencedUnits := s.fencedUnits ++ [FenceUnit.port p.val],
      crcFails := s.crcFails.filter (fun c => c.1 != p.val) } : State).incFld F.FLT_STATUS_UNITS_FENCED).setFlds
        [(F.FLT_FENCE_UNIT, p.val), (F.FLT_FENCE_KIND, 3), (F.FLT_FENCE_SPARE_TAKEN, 0)]).raise 0x2A
        { FaultInfo.of .instance_ with unit := some (FenceUnit.port p.val) }
    let fenced := (s.txns.filter (fun x => x.port == p.val)).foldl (fun (u : State) x =>
      let v := ({ u with txns := u.txns.erase x } : State).freeMover x.purpose
      if v.ready = true then v.gotError x else v) listed
    let refused := ({ s with resp := ⟨4, 0⟩ } : State).incFld F.GLB_FABRIC_BAD_MSG
    (s.portFenced p.val = false →
      (fails < 8 → exec (.linkCrcFail p) s = .next (replayed.finish) ∧ (Calm s → exec (.linkCrcFail p) s = .next replayed)) ∧
      (8 ≤ fails → exec (.linkCrcFail p) s = .next (fenced.finish)) ∧
      exec (.creditViolation p) s = .next (fenced.finish)) ∧
    (s.portFenced p.val = true → exec (.linkCrcFail p) s = .next (s.finish) ∧ exec (.creditViolation p) s = .next (s.finish)) ∧
    (∀ (node : Nat) (type : BitVec 16) (d : List Byte), 0x20 ≤ node ∨ type.toNat = 0 ∨ 4 < type.toNat ∨
        (type.toNat = 4 ∧ byteAt d 2 ≠ 1 ∧ byteAt d 2 ≠ 2) →
      exec (.badMsg node type d) s = .next (refused.finish) ∧ (Calm s → exec (.badMsg node type d) s = .next refused))

/-! ### Faults, takeover and the guard port -/

/-- A source's event is raised after its local handling, a link error fences its port, and a rail fault raises RAIL (0x2F) with the
source in its syndrome (R437, R439). What is raised is then counted, captured and acted on at the source's level (R441, R444, R445):
of a source without escalation whose pair is good, one event raises COUNT, and the event is captured in its class and takes its
action. A rail fault that ends leaves the pair good, but in test mode the next armed one begins (R467). An escalated source that
stays quiet for its window goes down one level (R444). The collector's self-check is noted (R447). -/
def Obligations.FaultEventsAct : Prop :=
  ∀ (s : State) (src : BitVec 8) (i : FaultInfo), s.life ≠ .cold → (fltDefaults src.toNat).isSome = true →
    let r := s.srcRun src.toNat
    (src.toNat ≠ 0x2A ∨ (∀ p, i.unit ≠ some (.port p)) →
      exec (.faultEvent src i) s = .next (((s.localHandling src.toNat i).raise src.toNat i).finish)) ∧
    (∀ p, src.toNat = 0x2A → i.unit = some (.port p) → p < 16 → s.portFenced p = false →
      exec (.faultEvent src i) s = .next ((s.fencePort p).finish)) ∧
    (r.rail = false → let j : FaultInfo := { i with synd := BitVec.ofNat 32 src.toNat }
      exec (.railFault src i) s = .next ((((((s.setSrc { r with rail := true }).incFld F.FLT_STATUS_RAIL_FAULTS).localHandling 0x2F
        j).raise 0x2F j)).finish)) ∧
    (r.rail = true → let t := s.setSrc { r with rail := false }
      (s.armed src.toNat = false → exec (.railFaultEnd src) s = .next (t.finish) ∧
        (Calm s → exec (.railFaultEnd src) s = .next t)) ∧
      (s.armed src.toNat = true → exec (.railFaultEnd src) s = .next (t.injectRail.finish))) ∧
    (s.raised = [] → r.rail = false → r.level ≠ 0 → s.fld (F.GRD_FLT_SRC_ESC_N src.toNat) = 0 →
      (s.raise src.toNat i).processRaised = ((((s.incFld (F.FLT_SRC_STATE_COUNT src.toNat)).setSrc { r with
        window := [], since := r.since + 1 }).capture src.toNat i r.level).act src.toNat i.charge r.level)) ∧
    (s.escWindow src.toNat ≠ 0 → s.fld (F.GRD_FLT_SRC_SEV src.toNat) < r.level → r.since < s.fld (F.GRD_FLT_SRC_ESC_N src.toNat) →
      let due := r.changed + s.escWindow src.toNat
      exec (.escalationDecay src) s =
        .next ((s.advance due).setSrc { r with level := r.level - 1, changed := due, since := 0 })) ∧
    (∀ pass, exec (.collectorSelfCheck pass) s = .next { s with selfFail := !pass })

/-- A takeover (R459, R461, R465). The guard's GO starts it on an instance that serves: with no header of the peer in package
memory it ends at once with STATE 3. A second GO is ignored and raises GUARD_PORT, and CLAIM_MS is stored within 1 to 1,000
with either. When CLAIM_MS expires, the flows whose claims are not all held are refused and the takeover goes on with the others; with none left
it ends, and the live forme is as it was. -/
def Obligations.TakeoverRuns : Prop :=
  ∀ s : State, Serving s →
    (∀ (v : Word) (f : Fetch),
      let u := ({ s with guardResp := ⟨0, none⟩ } : State).setFld F.GRD_TKO_CLAIM_MS (max 1 (min 1000 (getBits v 1 10)));
      (getBits v 0 1 = 0 → exec (.grdTko v f) s = .next (u.finish)) ∧
      (getBits v 0 1 = 1 → s.tko.isSome = true → exec (.grdTko v f) s = .next ((u.raiseOn 0x31 .instance_).finish)) ∧
      (getBits v 0 1 = 1 → s.tko = none → s.job = none → let x := u.clearTko.setFld F.FLT_TKO_STATUS_STATE 1
        let w := x.peerAreas.foldl (fun s a => s.lackAnswer f a 64) x
        w.peerHome f = none → exec (.grdTko v f) s = .next ((w.setFld F.FLT_TKO_STATUS_STATE 3).finish))) ∧
    (∀ k j, s.tko = some k → s.job = some j → j.kind = .takeover → j.held = false → (∀ x ∈ j.added, j.short x ≠ []) →
      ∃ u : State, exec .takeoverClaimTimeout s = .next (u.finish) ∧ u.tko = none ∧ u.job = none ∧ u.forme = s.forme ∧
        u.time.now = max s.time.now (k.started + s.fld F.GRD_TKO_CLAIM_MS * 1000000))

/-- Guard transactions (R500 to R502). Each answers with its status, and on a calm instance a transaction without an effect of its own
changes nothing else: READ gives the register's word; WRITE stores the guard fields; REPAIR takes its words in a cold start that
waits for DELIVERED. A WRITE of a register that has a command of its own is that command. A header of another form, a register that
does not exist, a REPAIR out of place and a gap change nothing, and raise GUARD_PORT. -/
def Obligations.GuardTransactions : Prop :=
  ∀ (s : State) (h : BitVec 32), s.life ≠ .cold →
    let off := guardOff h
    let refused (n : Nat) : State := ({ s with guardResp := ⟨n, none⟩ } : State).raiseOn 0x31 .instance_
    let read : State := { s with guardResp := ⟨0, some (s.readWord off)⟩ }
    (headerOk h 0 = true → (regAt off).isSome = true →
      exec (.guardRead h) s = .next (read.finish) ∧ (Calm s → exec (.guardRead h) s = .next read)) ∧
    (headerOk h 0 = true → regAt off = none → exec (.guardRead h) s = .next ((refused 1).finish)) ∧
    (headerOk h 0 = false → exec (.guardRead h) s = .next ((refused 3).finish)) ∧
    (∀ v row ix, headerOk h 1 = true → regAt off = some (row, ix) → off ≠ Row.GRD_CTRL.base → off ≠ Row.GRD_TKO.base →
      off ≠ Row.GRD_VTABLE_CRC.base → ¬ (Row.GRD_FLT_SRC.base ≤ off ∧ off < Row.GRD_FLT_SRC.base + 0x200) →
      let written : State := { s with
        guardResp := ⟨0, none⟩, regs := s.regs.set off (storeFields .gw row.fields (s.regs.get off) v) }
      exec (.guardWrite h v) s = .next (written.finish) ∧ (Calm s → exec (.guardWrite h v) s = .next written)) ∧
    (∀ v, headerOk h 1 = true →
      (off = Row.GRD_CTRL.base → getBits v 1 1 = 1 → exec (.guardWrite h v) s = exec .forget s) ∧
      (off = Row.GRD_CTRL.base → getBits v 1 1 = 0 → getBits v 0 1 = 1 →
        exec (.guardWrite h v) s = exec (.delivered (getBits v 2 1 == 1)) s) ∧
      (off = Row.GRD_TKO.base → exec (.guardWrite h v) s = exec (.grdTko v []) s) ∧
      (off = Row.GRD_VTABLE_CRC.base → exec (.guardWrite h v) s = exec (.grdVtableCrc v) s) ∧
      (∀ src : Fin 64, off = Row.GRD_FLT_SRC.base + 8 * src.val → exec (.guardWrite h v) s = exec (.grdFltSrc src v) s) ∧
      (regAt off = none → exec (.guardWrite h v) s = .next ((refused 1).finish))) ∧
    (∀ v, headerOk h 1 = false → exec (.guardWrite h v) s = .next ((refused 3).finish)) ∧
    (∀ ws, let kept : State := { s with repair := s.repair ++ ws, guardResp := ⟨0, none⟩ }
      (repairOk h ws.length = true → s.life = .coldWait → s.flag F.GRD_CTRL_DELIVERED = false →
        exec (.guardRepair h ws) s = .next (kept.finish) ∧ (Calm s → exec (.guardRepair h ws) s = .next kept)) ∧
      (repairOk h ws.length = false → exec (.guardRepair h ws) s = .next ((refused 3).finish)) ∧
      (repairOk h ws.length = true → s.life ≠ .coldWait ∨ s.flag F.GRD_CTRL_DELIVERED = true →
        exec (.guardRepair h ws) s = .next ((refused 2).finish))) ∧
    exec .guardTransactionGap s = .next ((refused 3).finish)

/-- Guard writes with an effect. GRD_VTABLE_CRC with a table that does not check clears VALID and raises PTC_VTABLE; with one that
checks the table is in force, VALID is 1, and an instance that serves takes its voltage up (R415, R417). FORGET while INST_RST_N is
low makes retained memory invalid and sets every guard field to its Reset value; with INST_RST_N high it is refused with status 2
(R489). A write of GRD_FLT_SRC sets the source's severity, and its count and level start again (R444). -/
def Obligations.GuardWritesAct : Prop :=
  ∀ s : State, s.life ≠ .cold →
    (∀ v : Word,
      let w := storeFields .gw Row.GRD_VTABLE_CRC.fields (s.regs.get Row.GRD_VTABLE_CRC.base) v
      let u := ({ s with guardResp := ⟨0, none⟩ } : State).setReg Row.GRD_VTABLE_CRC.base w
      (u.guardTable = none →
        exec (.grdVtableCrc v) s = .next (((u.setFld F.GRD_VTABLE_CRC_VALID 0).raiseOn 0x10 .instance_).finish)) ∧
      (∀ x, u.guardTable = some x →
        let t := (u.setFld F.GRD_VTABLE_CRC_VALID 1).modPtc (fun c => { c with table := some x, fallback := false })
        exec (.grdVtableCrc v) s = .next ((if s.ready = true then t.settlePtc.followVoltage else t).finish))) ∧
    (s.instLow = true →
      let t : State := { s with
        retained := ⟨none, none, none⟩, guardResp := ⟨0, none⟩,
        regs := s.regs.filter (fun e => !decide (0x2000000 ≤ e.1 ∧ e.1 < 0x3000000)) }
      exec .forget s = .next (t.finish) ∧ (Calm s → exec .forget s = .next t)) ∧
    (s.instLow = false → exec .forget s = .next ((({ s with guardResp := ⟨2, none⟩ } : State).raiseOn 0x31 .instance_).finish)) ∧
    (∀ (src : Fin 64) (v : Word), (s.srcRun src.val).rail = false → let off := Row.GRD_FLT_SRC.base + 8 * src.val
      let t : State := { s with
        guardResp := ⟨0, none⟩, srcs := s.srcs.filter (fun r => r.source != src.val),
        regs := s.regs.set off (storeFields .gw Row.GRD_FLT_SRC.fields (s.regs.get off) v) }
      exec (.grdFltSrc src v) s = .next (t.finish) ∧ (Calm s → exec (.grdFltSrc src v) s = .next t))

/-! ### Resets and starts -/

/-- A cold reset, by AON_RST_N, by a change of TMODE or by the loss of the always-on supply: the whole instance is at its reset
state, but for the levels of its input pins (R466, R480). The model's own counter of free values runs on. A start from there takes
its good units and credits, runs every clock and waits for DELIVERED (R482, R483). -/
def Obligations.ColdResetClears : Prop :=
  ∀ s : State,
    let cold (x : State) : State := { State.reset with
      pending := s.pending, tmode := x.tmode, testMode := x.tmode, instLow := s.instLow, free := s.free,
      ptc := { PtcRun.reset with alertLow := s.ptc.alertLow } }
    exec .aonRstNLow s = .next (cold s) ∧ exec .alwaysOnSupplyLoss s = .next (cold s) ∧
    (∀ level, level ≠ s.tmode → exec (.tmodeChange level) s = .next (cold { s with tmode := level })) ∧
    (∀ (lanes : Fin 145) (entropy : Fin 53) (credits : BitVec 16), s.life = .cold →
      exec (.coldStart lanes entropy credits) s = .next { s with
        life := .coldWait, lanesGood := lanes.val, entropyGood := entropy.val, credits := credits.toNat, clk := ClkRun.all })

/-- Starts. DELIVERED ends a cold start that waits, with TMODE and INST_RST_N not asserted: the blank forme is live and retained,
LAST_START is cold, and READY is set exactly when all 16 ports have credits (R18, R74, R482). When INST_RST_N rises with nothing
waiting for QCLK, the parts of retained memory are checked, and the warm start goes on when DELIVERED is 1, else it waits for it;
until then READY is as it was (R484, R485, R488). -/
def Obligations.StartsProceed : Prop :=
  ∀ s : State,
    (∀ peerTook, s.life = .coldWait → s.tmode = false → s.instLow = false → s.regs.wf = true →
      ∃ u : State, exec (.delivered peerTook) s = .next (State.finish u) ∧ u.life = .up ∧ u.ready = decide (s.credits = 0xFFFF) ∧
        u.lastStart = 1 ∧ u.forme = Forme.blank ∧ u.retained.part1.map (·.1) = some Forme.blank) ∧
    (∀ (f : Fetch) (credits : BitVec 16), s.life = .warmLow → s.heldCs = [] → s.pmHeld = (none, none, none) →
      let x : State := ({ s with
        instLow := false, life := .warmWait, startFetch := f, credits := credits.toNat, clk := ClkRun.all } : State).checkParts
      let y := ({ x with
        retainedOk := x.retained.part1.isSome && x.retained.part2.isSome && x.retained.part3.isSome } : State).restoreBins
      exec (.warmStart f credits) s = .next ((if y.flag F.GRD_CTRL_DELIVERED = true then y.finishWarm else y).finish) ∧
      y.ready = s.ready ∧ y.life = .warmWait)

/-- A warm reset, by INST_RST_N or by GLB_RESET with KIND 1: READY is 0, every task, ring and transaction is gone, every register but
those of the guard partition and the captures is at its Reset value, and retained memory, the repair data and local time
stand (R484, R488, R491). The loss of the instance supplies does the same, and BIRFA_ALIVE stops (R466). -/
def Obligations.WarmResetClears : Prop :=
  ∀ s : State, s.regs.wf = true → s.heldCs = [] → s.tens.all (fun t => t.stalled.isEmpty) = true →
    let cleared (u : State) : Prop := u.ready = false ∧ u.tasks = [] ∧ u.sqs = [] ∧ u.cqs = [] ∧ u.txns = [] ∧ u.job = none ∧
      u.retained = s.retained ∧ u.repair = s.repair ∧ u.time.now = s.time.now ∧ u.pending = s.pending ∧
      (∀ off, keptReg off = false → off ≠ Row.FLT_STATUS.base → u.regs.get off = resetWord off) ∧
      (∀ off, keptReg off = true → off ≠ Row.GRD_CTRL.base → off ≠ Row.GRD_IDENT.base → u.regs.get off = s.regs.get off)
    ((s.life = .up ∨ s.life = .halted ∨ s.life = .warmWait) →
      ∃ u : State, exec .instRstNLow s = .next (u.finish) ∧ u.life = .warmLow ∧ u.instLow = true ∧ cleared u) ∧
    (∀ (r : CsReq) (v : Word), ManagementMay r s → getBits v 16 16 = 0xB1FA → getBits v 0 2 = 1 → s.reloading = false →
      ∃ u : State, exec (.glbResetWarm r v) s = .next (u.finish) ∧ u.life = .warmLow ∧ cleared u) ∧
    (s.life ≠ .cold → ∃ u : State, exec .instanceSupplyLoss s = .next u ∧ u.life = .noSupply ∧ u.aliveOn = false ∧ cleared u)

/-- GLB_RESET with KIND 2 resets the named domains and notes it in LAST_KIND; TCLK's reset leaves local time where it is, with
nothing to absorb (R486). KIND 3 starts a forme reload, which drains as a full lock-up does; while an attempt runs it is rejected, and REJECTED
is set (R487, R491). A write without the key is logged and has no effect. A flush that is not seen halts the instance, and
raises CLOCK (R442, R481). -/
def Obligations.DomainResetsAndReload : Prop :=
  ∀ s : State,
    (∀ (r : CsReq) (v : Word) (f : Fetch), ManagementMay r s → let u := answered s
      (getBits v 16 16 = 0xB1FA → getBits v 35 1 = 0 → s.reloading = false →
        (getBits v 0 2 = 2 → getBits v 4 5 ≠ 0 → exec (.perDomainReset r v f) s =
          .next (((u.setFld F.GLB_RESET_LAST_KIND 2).domainReset (getBits v 4 5) f).finish)) ∧
        (getBits v 0 2 = 3 → s.job = none → s.tko = none → ∃ w : State, exec (.formeReload r v f) s = .next (w.finish) ∧
          w = (u.setFld F.GLB_RESET_LAST_KIND 3).startReload f ∧
          w.job.map (fun j => (j.kind, j.phase, j.forme)) = some (.reload, 5, s.forme)) ∧
        (getBits v 0 2 = 3 → s.job.isSome = true →
          exec (.formeReload r v f) s = .next ((u.setFld F.GLB_RESET_REJECTED 1).finish))) ∧
      (getBits v 16 16 ≠ 0xB1FA → exec (.perDomainReset r v f) s = .next ((u.logAccess r Row.GLB_RESET.base).finish) ∧
        exec (.formeReload r v f) s = .next ((u.logAccess r Row.GLB_RESET.base).finish))) ∧
    (∀ f, (s.domainReset 16 f).time = { s.time with behind := 0, since := none } ∧ (s.domainReset 16 f).tasks = s.tasks) ∧
    (s.life = .up → ∃ u : State, exec .flushTimeout s = .next (u.finish) ∧ u.life = .halted ∧ u.ready = false ∧ u.aliveOn = false ∧
      u.raised = s.raised ++ [(0x32, FaultInfo.of .instance_)])

/-! ### Clocks and time -/

/-- Clock domains (R473 to R475). A rise of CLK_RUN that nothing asked for only shows that the clock runs; one that ends a wake is
counted, with its time; then the accesses that wait are performed, the one that stands first when there is one. An idle domain stops;
a wake that lasts 20 µs, and a clock that stops while it is wanted, raise CLOCK. -/
def Obligations.ClocksRunAndStop : Prop :=
  ∀ (s : State) (d : Domain),
    (s.heldCs = [] → s.clk.askedAt.getD d.bit none = none →
      exec (.clkRun d) s = .next ((s.setClk d (s.wanted d) true none).finish)) ∧
    (∀ h, Serving s → s.heldCs = [h] → d.bit < s.clk.running.length → regDomain h.off = d →
      exec (.clkRun d) s = .next (((({ s.clkRun d with heldCs := [] } : State).performHeld h)).finish)) ∧
    (∀ t, s.clk.askedAt.getD d.bit none = some t →
      (s.heldCs = [] → exec (.clkRun d) s = .next (((s.setClk d true true none).setFlds [
        (F.GLB_CLK_WAKES, s.fld F.GLB_CLK_WAKES + 1),
        (F.GLB_CLK_WAKE_MAX_NS, min 65535 (max (s.fld F.GLB_CLK_WAKE_MAX_NS) (s.time.now - t)))]).finish)) ∧
      exec (.clkWakeTimeout d) s = .next (((s.advance (t + 20000)).raiseOn 0x32 .instance_).finish)) ∧
    (s.ready = true → canStop d = true → s.runs d = true → s.domainBusy d = false → s.domainHeld d = false →
      s.ptc.comp = false → s.ptc.ramp = none → exec (.clkIdle d) s = .next (s.setClk d false false none)) ∧
    (s.wanted d = true → s.runs d = true → exec (.clockLoss d) s =
      .next (((s.setClk d true false (s.clk.askedAt.getD d.bit none)).raiseOn 0x32 .instance_).finish))

/-- Time (R33, R449, R479, R497). A strobe at least 1 µs after the one before sets LOCKED: a forward difference is applied at once, and a
backward one is absorbed; an earlier strobe moves no time. 10 ms without a strobe clear LOCKED. PEER_ALIVE is seen at an edge, and no
more after two of its periods; BIRFA_ALIVE changes level every period while it is on. Nothing else changes. -/
def Obligations.TimeAndAlive : Prop :=
  ∀ s : State, s.life ≠ .cold → s.life ≠ .noSupply → s.life ≠ .warmLow →
    (∀ v : Word, let early := ∃ x, s.time.since = some x ∧ x < 1000
      ∃ q, exec (.timeSync v) s = .next { s with regs := q, time :=
        (if early then { s.time with since := some 0 } else ⟨max s.time.now v.toNat, s.time.now - v.toNat, some 0⟩) } ∧
      (∀ off, off ≠ Row.TIM_STATUS.base → q.get off = s.regs.get off) ∧
      (s.regs.wf = true → F.TIM_STATUS_LOCKED.of (q.get Row.TIM_STATUS.base) =
        if early then s.fld F.TIM_STATUS_LOCKED else 1)) ∧
    (∀ x, s.flag F.TIM_STATUS_LOCKED = true → s.time.since = some x → exec .syncLoss s = .next
      ((s.advance (s.time.now + (10000000 - x - min s.time.behind ((10000000 - x) / 2)))).setFld F.TIM_STATUS_LOCKED 0)) ∧
    exec .peerAliveEdge s = .next { s with peerSeen := true, peerAt := s.time.now } ∧
    (s.peerSeen = true → exec .peerSeenExpire s = .next
      { s.advance (s.peerAt + 2 * s.fld F.GRD_ALIVE_PEER_PERIOD_US * 1000) with peerSeen := false }) ∧
    (let due := s.aliveAt + s.fld F.GRD_ALIVE_PERIOD_US * 1000
     exec .aliveToggle s = .next (if s.aliveOn = true then { s.advance due with alive := !s.alive, aliveAt := due } else s))

/-! ### Power -/

/-- The state in force is never faster than the slowest ceiling, and taking up the ceilings never makes it faster (R413, R414).
While VR_ALERT_N is low, and for ALERT_HOLD_US after it rises, it is P4 (R421); a droop is noted while it lasts (R419). -/
def Obligations.AlertHoldsSlowest : Prop :=
  ∀ s : State,
    s.settlePtc.allowed ≤ s.settlePtc.ptc.pstate ∧ s.ptc.pstate ≤ s.settlePtc.ptc.pstate ∧
    (∃ t, exec .vrAlertNFall s = .next t ∧ t.ptc.alertLow = true ∧ t.ptc.alertEnd = none ∧ 4 ≤ t.ptc.pstate) ∧
    (s.ptc.alertLow = true → let t : State := { s with ptc := { s.ptc with
        alertLow := false, alertEnd := some (s.time.now + s.fld F.GRD_PWR_ALERT_ALERT_HOLD_US * 1000) } }
      exec .vrAlertNRise s = .next (t.finish) ∧ (Calm s → exec .vrAlertNRise s = .next t)) ∧
    (∀ due, s.ptc.alertEnd = some due → ∃ t, exec .alertHoldExpire s = .next t ∧ t.ptc.alertEnd = none ∧
      t.ptc.alertLow = s.ptc.alertLow ∧ t.time.now = max s.time.now due ∧ s.ptc.pstate ≤ t.ptc.pstate) ∧
    (s.ptc.droopAt = none → ∃ t, exec .droop s = .next t ∧ t.ptc.droopAt = some s.time.now ∧ t.time = s.time) ∧
    (∀ d, s.ptc.droopAt = some d → ∃ t, exec .droopEnd s = .next t ∧ t.ptc.droopAt = none ∧
      t.time.now = max s.time.now (d + 1000))

/-- Current complement (R401, R432, R433). A hint starts it with the floor at LEVEL and ends a ramp, when EN is 1; a release starts the
ramp of GROUPS steps over RAMP_NS, and Delta's stagger window; with ALERT in force, or RAMP_NS 0, complement ends at the release. Each
time point lowers the floor by one part, to 0 at the last, where complement ends. A hint with no release for HINT_MAX_US ramps down
as if released. -/
def Obligations.ComplementRamps : Prop :=
  ∀ s : State, s.ready = true →
    let ns := s.fld F.STN_DLT_STAGGER_RAMP_NS
    let groups := max 1 (s.fld F.STN_DLT_STAGGER_GROUPS)
    (exec .barrierHint s = .next ((if s.flag F.PTC_COMP_CFG_EN = true then { s with ptc := { s.ptc with
      comp := true, ramp := none, floor := s.fld F.PTC_COMP_CFG_LEVEL, hintAt := s.now } } else s).finish)) ∧
    (s.ptc.comp = true → s.ptc.ramp = none → s.inForce 3 = false → ns ≠ 0 →
      (exec .barrierRelease s = .next (({ s with
        ptc := { s.ptc with ramp := some ⟨s.time.now, ns, groups, 0⟩ },
        stagger := some ⟨s.time.now, ns, s.fld F.STN_DLT_STAGGER_GROUPS, BitVec.ofNat 64 (s.fld F.STN_DLT_GROUP_A_DIES_0_15),
          BitVec.ofNat 64 (s.fld F.STN_DLT_GROUP_B_DIES_16_31)⟩ } : State).finish)) ∧
      (let u := s.advance (s.ptc.hintAt + s.fld F.PTC_COMP_CFG_HINT_MAX_US * 1000)
       exec .hintMaxExpire s =
         .next (({ u with ptc := { s.ptc with ramp := some ⟨u.time.now, ns, groups, 0⟩ } } : State).finish))) ∧
    (s.ptc.comp = true → s.ptc.ramp = none → s.inForce 3 = true ∨ ns = 0 →
      exec .barrierRelease s = .next ((({ s with ptc := { s.ptc with comp := false, floor := 0 } } : State).openStagger).finish)) ∧
    (∀ r, s.ptc.ramp = some r → r.next < r.groups → let left := r.groups - 1 - r.next
      let u := s.advance (r.tr + (r.next + 1) * r.ns / r.groups)
      exec .rampStep s = .next (({ u with ptc := { s.ptc with
        floor := s.fld F.PTC_COMP_CFG_LEVEL * left / r.groups, comp := decide (0 < left),
        ramp := if left = 0 then none else some { r with next := r.next + 1 } } } : State).finish))

/-- Messages of the package's power controller (R424, R428, R429, R499). SHARE is taken at once; while QCLK is in reset the newest of
each type is kept. MEAS enters its window and is no longer stale; after 100 µs without one both windows are empty, the correction is
off and PTC_MEAS_STALE is raised. AGREE_MS of agreement end the EST ceiling and its correction. -/
def Obligations.MeasurementsCompared : Prop :=
  ∀ s : State,
    (∀ v : BitVec 28, (s.life = .up → exec (.share v) s = .next { s with ptc := { s.ptc with share := v.toNat } }) ∧
      (s.life = .warmLow →
        exec (.share v) s = .next { s with pmHeld := (some v.toNat, s.pmHeld.2.1, s.pmHeld.2.2) } ∧
        exec (.meas v) s = .next (({ s with pmHeld := (s.pmHeld.1, some v.toNat, s.pmHeld.2.2) } : State).finish) ∧
        exec (.vack v) s = .next (({ s with pmHeld := (s.pmHeld.1, s.pmHeld.2.1, some v.toNat) } : State).finish)) ∧
      (s.life = .up → ∃ t, exec (.meas v) s = .next t ∧ t.ptc.measWin = (v.toNat :: s.ptc.measWin).take s.windowLen ∧
        t.ptc.measAt = s.time.now ∧ t.ptc.stale = false)) ∧
    (s.ready = true → s.ptc.stale = false → let u := s.advance (s.ptc.measAt + 100000)
      exec .measStale s = .next ((({ u with ptc := { s.ptc with
        stale := true, scale := (1, 1), estWin := [], measWin := [], agreeFrom := none } } : State).raiseOn 0x16 .instance_).finish)) ∧
    (∀ x, s.ptc.agreeFrom = some x → ∃ t, exec .agreeExpire s = .next t ∧ t.ptc.agreeFrom = none ∧ t.ptc.scale = (1, 1) ∧
      (t.ptc.reasons.getD 5 Ceiling.off).held = false ∧ t.time.now = max s.time.now (x + s.fld F.PTC_EST_CFG_AGREE_MS * 1000000))

/-- Steps up (R414, R416, R427, R499). A step up asks for the voltage of the next faster state, unless the voltage of the state in force
is still awaited. VACK with at least the asked voltage applies it, and a step up then takes its state; VACK with less changes
nothing. Without VACK for 50 µs the step up is given up, and tried again 1 ms later when its conditions still hold. -/
def Obligations.VoltageSteps : Prop :=
  ∀ s : State, s.life = .up →
    let ask (u : State) : State :=
      let mv := u.ptc.volts (u.ptc.pstate - 1) u.ptc.band
      { u with pmOut := some mv, ptc := { u.ptc with vreq := some mv, vreqAt := u.time.now, stepTo := some (u.ptc.pstate - 1) } }
    (∀ due, s.ready = true → s.ptc.pstate ≠ 0 → s.ptc.stepTo = none → s.ptc.retryAt = none →
      (∀ mv, s.ptc.vreq = some mv → mv ≤ s.ptc.voltage) →
      s.stepDue (s.ptc.pstate - 1) = some due → exec .stepUp s = .next ((ask (s.advance due)).finish)) ∧
    (∀ (v : BitVec 28) mv, s.ptc.vreq = some mv →
      (v.toNat < mv → exec (.vack v) s = .next (s.finish) ∧ (Calm s → exec (.vack v) s = .next s)) ∧
      (let t : State := { s with ptc := { s.ptc with vreq := none, voltage := v.toNat } }
       mv ≤ v.toNat → s.ptc.stepTo = none → exec (.vack v) s = .next (t.finish) ∧ (Calm s → exec (.vack v) s = .next t)) ∧
      (∀ k, mv ≤ v.toNat → s.ptc.stepTo = some k → exec (.vack v) s = .next (((({ s with ptc := { s.ptc with
        vreq := none, stepTo := none, voltage := v.toNat } } : State).enterState k).settlePtc.followVoltage).finish))) ∧
    (∀ k, s.ptc.stepTo = some k → let u := s.advance (s.ptc.vreqAt + 50000)
      exec .vreqTimeout s = .next (({ u with ptc := { s.ptc with
        vreq := none, stepTo := none, retryAt := some (u.time.now + 1000000) } } : State).finish)) ∧
    (∀ due, s.ptc.retryAt = some due → let u : State := { s.advance due with ptc := { s.ptc with retryAt := none } }
      exec .vreqRetry s = .next ((if s.ptc.pstate ≠ 0 ∧ (∃ d, s.stepDue (s.ptc.pstate - 1) = some d ∧ d ≤ u.time.now) then ask u
        else u).finish))

/-- The limits (R416, R419, R420, R425 to R427), as the last 10 µs evaluation took them (R436; log entry 81). A sample at or above
TJ_BOOST allows no P0, and one at or above TJ_CRIT holds P4. Each 100 µs at TJ_MAX lower its ceiling by one state. An estimate above
TDC_A runs the EDC timer, one at or below it runs it back; at EDC_MS a ceiling below the state in force holds. The cap evaluation
takes the guard's settings, allots the share, and out of Steady mode the state in force is no faster than the first that fits. What
an estimate reads is a free value of the model. -/
def Obligations.LimitsLowerState : Prop :=
  ∀ s : State, s.ready = true →
    (∀ tj : BitVec 16, ∃ t, exec (.tempSample tj) s = .next t ∧ t.ptc.tj = tj.toInt ∧ t.ptc.band = bandOf s.ptc.band tj.toInt ∧
      (s.tempLimit F.GRD_PWR_LIMITS_TJ_BOOST ≤ tj.toInt → 1 ≤ t.ptc.pstate) ∧
      (s.tempLimit F.GRD_PWR_LIMITS_TJ_CRIT ≤ tj.toInt → t.ptc.thermCrit = true ∧ 4 ≤ t.ptc.pstate)) ∧
    (∀ a p, s.ptc.tjMaxAt = some a → s.ptc.thermMax = some p → ∃ t, exec .tjMaxStep s = .next t ∧
      t.ptc.thermMax = some (min 4 (p + 1)) ∧ t.ptc.tjMaxAt = some t.time.now ∧ t.time.now = max s.time.now (a + 100000)) ∧
    (∃ t, exec .currentEstimate s = .next t ∧
      let watts := sumL ((List.range 3).map (fun c => Config.classPower s.free c s.ptc.pstate))
      t.ptc.current = min 65535 (watts * 1000 / s.ptc.voltage) ∧
      t.ptc.edcTimer = (if 8 * s.limit F.GRD_PWR_LIMITS_TDC_A * s.ptc.voltage < watts * 1000 then s.ptc.edcTimer + 1000
        else s.ptc.edcTimer - 1000)) ∧
    (s.limit F.GRD_PWR_LIMITS_EDC_MS * 1000000 ≤ s.ptc.edcTimer → s.ptc.edcLong = none → ∃ t, exec .edcTimerExpire s = .next t ∧
      t.ptc.edcLong = some (if s.ptc.pstate = 0 then 1 else min 4 (s.ptc.pstate + 1)) ∧
      (if s.ptc.pstate = 0 then 1 else min 4 (s.ptc.pstate + 1)) ≤ t.ptc.pstate) ∧
    (∃ t, exec .capEvaluate s = .next t ∧
      let floor := [s.fld F.GRD_PWR_CLASS_FLOOR_COMPUTE, s.fld F.GRD_PWR_CLASS_FLOOR_MEMORY, s.fld F.GRD_PWR_CLASS_FLOOR_LINKS]
      let num := s.ptc.scale.1
      let den := s.ptc.scale.2
      let alloc := allocate s.ptc.share floor
        ((List.range 3).map (fun c => Config.classPower s.free c s.requested * num / max 1 den))
        (capOrder (s.fld F.GRD_PWR_CLASS_ORDER))
      let compute := nth alloc 0 - capExcess (nth alloc 1) (nth alloc 2) s.ptc.dlMoved
      t.ptc.alloc = [compute, nth alloc 1, nth alloc 2] ∧
      t.ptc.limits = [Row.GRD_PWR_LIMITS, Row.GRD_PWR_CLASS, Row.GRD_PWR_ALERT].map (fun r => s.reg r.base) ∧
      (s.flag F.PTC_CTRL_STEADY = false → s.ptc.reasons.length = 6 → ((List.range 5).find? (fun p => decide (s.requested ≤ p) &&
        decide (Config.classPower s.free 0 p * num * 100 ≤ compute * den * 100))).getD 4 ≤ t.ptc.pstate))

/-- Boost residency (R422, R423, R488), and the advice of R105. When the residency reaches the budget, P0 ends. Each minute of local
time the bins move by one; each second they go into part 3 of retained memory, with the residency of a P0 that runs banked in the
newest. A 1 ms window ends with the advice of the ten stations, and a new window. -/
def Obligations.BoostIsBudgeted : Prop :=
  ∀ s : State, s.ready = true →
    (∀ a, s.ptc.p0Since = some a → ∃ t, exec .boostBudgetEnd s = .next t ∧ t.ptc.budgetOut = true ∧ 1 ≤ t.ptc.pstate ∧
      t.time.now = max s.time.now (a + (s.boostBudget - sumL s.ptc.bins))) ∧
    (s.ptc.p0Since = none → ∃ t, exec .boostBinRoll s = .next t ∧ t.ptc.bins = 0 :: s.ptc.bins.take 59 ∧
      t.ptc.binAt = s.ptc.binAt + 60000000000 ∧ t.time.now = max s.time.now (s.ptc.binAt + 60000000000)) ∧
    (s.ptc.p0Since = none → exec .boostBinsSave s = .next { s with retained := { s.retained with part3 := some s.ptc.bins } }) ∧
    (∀ a b rest, s.ptc.p0Since = some a → s.ptc.bins = b :: rest → exec .boostBinsSave s = .next { s with
      ptc := { s.ptc with bins := (b + (s.time.now - a)) :: rest, p0Since := some s.time.now },
      retained := { s.retained with part3 := some ((b + (s.time.now - a)) :: rest) } }) ∧
    (∃ q, exec .offloadWindow s = .next { s with regs := q, window1ms := [] } ∧
      (∀ off, off ∉ (List.range 10).map (fun i => (F.LKP_OFFLOAD_ADVICE_ADVICE i).off) → q.get off = s.regs.get off) ∧
      (s.regs.wf = true → ∀ i < 10, (F.LKP_OFFLOAD_ADVICE_ADVICE i).of (q.get (F.LKP_OFFLOAD_ADVICE_ADVICE i).off) =
        s.adviceOf (i + 1) % 512))

/-! ### Known answers, injection, and the frame of the work after a command -/

/-- A GO of RFL_KAT_CTRL takes the seed, the counter and the written FLOW, KIND and J, and DONE is 0; the evaluation ends with its
result in RFL_KAT_OUT and DONE at 1 (R338). In test mode a write of TST_INJ that arms nothing is only stored, one that arms with COUNT 0
is not armed, one with RAIL starts a rail fault, and one without makes its source take COUNT events; outside test mode the write is
ignored (R467). -/
def Obligations.KnownAnswersAndInjection : Prop :=
  ∀ (s : State) (r : CsReq) (v : Word),
    (ManagementMay r s → s.slotStopped Row.RFL_KAT_CTRL.base = false → s.regs.wf = true → getBits v 16 1 = 1 → s.katDue = none →
      ∃ u : State, exec (.katGo r v) s = .next (u.finish) ∧ u.katDue = some (s.fld F.RFL_KAT_SEED_SEED, s.fld F.RFL_KAT_CTR_LO_C_LO,
        s.fld F.RFL_KAT_CTR_HI_C_HI, getBits v 0 12, getBits v 18 2, getBits v 20 3) ∧ u.fld F.RFL_KAT_CTRL_DONE = 0) ∧
    (∀ seed lo hi flow kind j, s.ready = true → s.katDue = some (seed, lo, hi, flow, kind, j) → let d := katResult seed lo hi flow kind j
      exec .katDone s = .next (({ s with katDue := none } : State).setFlds
        [(F.RFL_KAT_OUT_LO_OUT, d.1), (F.RFL_KAT_OUT_HI_OUT, d.2), (F.RFL_KAT_CTRL_DONE, 1)])) ∧
    (ManagementMay r s → s.testMode = false →
      exec (.tstInj r v) s = .next ((answered s).finish) ∧ (Calm s → exec (.tstInj r v) s = .next (answered s))) ∧
    (FromHost r → r.view = 16 → s.testMode = true → s.dead = false → s.qclkHeld = false → s.heldCs = [] →
      let u := (answered s).setReg Row.TST_INJ.base (storeFields .rw Row.TST_INJ.fields (s.regs.get Row.TST_INJ.base) v)
      (u.flag F.TST_INJ_ARM = false → exec (.tstInj r v) s = .next (u.finish)) ∧
      (u.flag F.TST_INJ_ARM = true → u.fld F.TST_INJ_COUNT = 0 →
        exec (.tstInj r v) s = .next ((u.setFld F.TST_INJ_ARM 0).finish)) ∧
      (u.flag F.TST_INJ_ARM = true → u.fld F.TST_INJ_COUNT ≠ 0 →
        (u.flag F.TST_INJ_RAIL = true → exec (.tstInj r v) s = .next (u.injectRail.finish)) ∧
        (u.flag F.TST_INJ_RAIL = false → exec (.tstInj r v) s =
          .next ((injectEvents (u.fld F.TST_INJ_SOURCE) (u.fld F.TST_INJ_COUNT) u).finish))))

/-- The frame of every result that is written with `.finish`: the work that follows a command leaves the queue, the shadow copies, the
pending captures, the response, the live forme with its admission, retained memory, the push queues, the rotations, the swaps, the
fenced units, the good units, local time, the stagger window, the alive signals, the pins and messages, and PTC but for the bytes it
counts, as they are. It never sets READY, and it keeps the invariant. On a calm instance it changes nothing. -/
def Obligations.WorkAfterCommandKeeps : Prop :=
  ∀ s : State, let t := s.finish
    t.pending = s.pending ∧ t.shadow = s.shadow ∧ t.captures = s.captures ∧ t.resp = s.resp ∧ t.heldCs = s.heldCs ∧
    t.forme = s.forme ∧ t.amends = s.amends ∧ t.adm = s.adm ∧ t.servers = s.servers ∧ t.retained = s.retained ∧
    t.tens = s.tens ∧ t.pushRot = s.pushRot ∧ t.scanRot = s.scanRot ∧ t.swapBusy = s.swapBusy ∧ t.swapQueue = s.swapQueue ∧
    t.fencedUnits = s.fencedUnits ∧ t.fencedLanes = s.fencedLanes ∧ t.lanesGood = s.lanesGood ∧ t.entropyGood = s.entropyGood ∧
    t.time = s.time ∧ t.stagger = s.stagger ∧ t.peerSeen = s.peerSeen ∧ t.peerAt = s.peerAt ∧ t.alive = s.alive ∧
    t.guardResp = s.guardResp ∧ t.pmOut = s.pmOut ∧ t.pmHeld = s.pmHeld ∧ t.tmode = s.tmode ∧ t.instLow = s.instLow ∧
    t.repair = s.repair ∧ t.imageSeq = s.imageSeq ∧ t.ckptAreas = s.ckptAreas ∧ t.katDue = s.katDue ∧
    ({ t.ptc with dlMoved := 0 } : PtcRun) = { s.ptc with dlMoved := 0 } ∧
    (t.ready = true → s.ready = true ∧ t.life = s.life) ∧ (Sound s → Sound t) ∧ (Calm s → t = s)
end

