-- ==== Sys2Proof/Laws/Access.lean ====
section
/-! SUPPORT. Host accesses that no check stops: a write acts on the state with its response OK, and a page write that nothing
stalls reaches its register. -/

namespace Sys2Proof.Machine

open Sys2Proof.Safety

/-- A serving instance refuses no access for its state, and answers. -/
theorem Serving.refuses {s : State} (h : Serving s) (view off : Nat) (w : Bool) : s.stateRefuses view off w = false := by
  unfold State.stateRefuses
  simp [h.2]

theorem Serving.not_dead {s : State} (h : Serving s) : s.dead = false := by
  unfold State.dead
  rw [h.1]
  rfl

theorem Serving.not_held {s : State} (h : Serving s) : s.qclkHeld = false := by
  unfold State.qclkHeld
  rw [h.1]
  rfl

/-- No check of R505 stops an 8-byte access of a register that the view may use. -/
theorem State.accessFails_none {s : State} {r : CsReq} {off : Nat} {w : Bool} (hs : Serving s) (hn : FromHost r)
    (hv : r.view ≤ 16) (ha : off % 8 = 0) (hr : (regAt off).isSome = true) (hm : viewRefuses r.view (regionOf off) = false) :
    s.accessFails r off 8 w = none := by
  have h1 : ¬ (8 ≠ 8 ∨ off % 8 ≠ 0 ∨ 16 < r.view ∨ (r.node ≠ 0x28 ∧ r.node ≠ 0x29)) := by
    rintro (h | h | h | h)
    · exact h rfl
    · exact h ha
    · omega
    · rcases hn with hn | hn
      · exact h.1 hn
      · exact h.2 hn
  unfold State.accessFails
  rw [if_neg h1, if_neg (by cases hq : regAt off <;> simp_all), hm, Serving.refuses hs]
  rfl

/-- A serving instance that holds no access makes none wait behind one. -/
theorem Serving.not_waiting {s : State} (h : Serving s) (hh : s.heldCs = []) : s.accessWaits = false := by
  unfold State.accessWaits
  rw [Serving.not_held h, hh]
  simp

/-- No access to a register of a running domain waits for its clock. -/
theorem State.waitsFor_running {s : State} {off : Nat} (hd : s.slotStopped off = false) (r : CsReq) (len : Nat) (w : Bool) :
    s.waitsFor r off len w = false := by
  unfold State.waitsFor
  rw [hd, Bool.and_false]

/-- The registers that lie in no station's slot are in a domain that is never stopped. -/
theorem State.slotStopped_never {s : State} {off : Nat} (h : canStop (regDomain off) = false) : s.slotStopped off = false := by
  unfold State.slotStopped
  rw [h, Bool.false_and]

theorem regDomain_above {off : Nat} (h : 0xD00000 ≤ off) : canStop (regDomain off) = false := by
  unfold regDomain
  rw [if_neg (by omega), if_neg (by omega), if_neg (by omega), if_neg (by omega)]
  rfl

/-- A write whose turn has come, of a register whose domain runs, is performed. -/
theorem State.csWrite_now {s : State} {r : CsReq} {off len : Nat} {v : Word} {f : Fetch} {op : State → State} (hs : Serving s)
    (hh : s.heldCs = []) (hd : s.slotStopped off = false) : s.csWrite r off len v f op = s.csWriteNow r off len op := by
  unfold State.csWrite
  rw [Serving.not_dead hs, Serving.not_waiting hs hh, State.waitsFor_running hd]
  rfl

/-- A management write that no check stops, of a register whose domain runs, has its effect. -/
theorem State.hostWrite_eq {s : State} {r : CsReq} {off : Nat} {v : Word} {f : Fetch} (h : ManagementMay r s)
    (ha : off % 8 = 0) (hr : (regAt off).isSome = true) (hm : viewRefuses 16 (regionOf off) = false)
    (hd : s.slotStopped off = false) : s.hostWrite r off 8 v f = (answered s).writeEffect r off v f := by
  obtain ⟨hn, hv, hs, hh⟩ := h
  unfold State.hostWrite
  rw [State.csWrite_now hs hh hd]
  unfold State.csWriteNow
  rw [State.accessFails_none hs hn (by omega) ha hr (by rw [hv]; exact hm), hv]
  exact if_neg (by omega)

/-- The registers of a tenancy page that a command of its own writes. -/
def pageRows : List RegRow :=
  [Row.TEN_CTRL, Row.TEN_RING_CMD, Row.TEN_SQ_TABLE, Row.TEN_CQ_TABLE, Row.TEN_LIVE_TABLE, Row.TEN_DOORBELL,
   Row.TEN_CQ_DOORBELL, Row.TEN_LIVE_DOORBELL, Row.TEN_PKT_DOORBELL, Row.TEN_GALLEY_SEQ, Row.TEN_GALLEY_STEP,
   Row.TEN_GALLEY_SKIP, Row.TEN_DELTA_ALT, Row.TEN_DELTA_DONE, Row.TEN_COMMIT]

set_option maxRecDepth 4000 in
theorem pageRows_known : pageRows.all (fun row => (List.range 16).all (fun t =>
    (regAt (pageOff t row)).isSome && pageOff t row % 8 == 0 && decide (regionOf (pageOff t row) = .page t))) = true := by
  decide +kernel

/-- A tenancy's page lies in QCLK. -/
theorem State.hostPage_domain {s : State} {t : Fin 16} {row : RegRow} (hrow : row ∈ pageRows) :
    s.slotStopped (pageOff t row) = false := by
  refine State.slotStopped_never (regDomain_above ?_)
  have h : ∀ x ∈ pageRows, 0xD00000 ≤ x.base := by decide
  have := h row hrow
  unfold pageOff
  omega

/-- A page write that nothing stops or stalls reaches its register. -/
theorem State.hostPage_eq {s : State} {r : CsReq} {t : Fin 16} {row : RegRow} {v : Word} {f : Fetch} (h : TenancyMay r t s)
    (hrow : row ∈ pageRows) : s.hostPage r t row v f = (answered s).pageEffect r t (pageOff t row) v f := by
  obtain ⟨hn, hv, hs, hh, hp, hst⟩ := h
  have hk := List.all_eq_true.1 pageRows_known row hrow
  have hk := List.all_eq_true.1 hk t.val (by simp [t.isLt])
  simp only [Bool.and_eq_true, beq_iff_eq, decide_eq_true_eq] at hk
  obtain ⟨⟨hr, ha⟩, hg⟩ := hk
  have hm : viewRefuses r.view (regionOf (pageOff t row)) = false := by
    rw [hg]
    rcases hv with hv | hv <;> simp [viewRefuses, hv]
  have ht : (Fin.ofNat 16 t.val) = t := by simp
  unfold State.hostPage State.hostWrite
  rw [State.csWrite_now hs hh (State.hostPage_domain hrow)]
  unfold State.csWriteNow
  rw [State.accessFails_none hs hn (by rcases hv with hv | hv <;> omega) ha hr hm]
  simp only [if_false, hg, reduceCtorEq, false_and]
  unfold State.writeEffect State.onPage
  simp only [hg, ht]
  have hq : (answered s).stalls t = false := by simp [State.stalls, answered, State.tenRun] at hp ⊢; exact hp
  have he : ((answered s).tenRun t).stalled = [] := hst
  have hc : ((answered s).stalls t || !((answered s).tenRun t).stalled.isEmpty) = false := by rw [hq, he]; rfl
  exact if_neg (by rw [Bool.not_eq_true]; exact hc)

/-- The push registers but TEN_DOORBELL. -/
def handledRows : List RegRow :=
  [Row.TEN_CQ_DOORBELL, Row.TEN_LIVE_DOORBELL, Row.TEN_PKT_DOORBELL, Row.TEN_GALLEY_SEQ, Row.TEN_GALLEY_STEP,
   Row.TEN_GALLEY_SKIP, Row.TEN_DELTA_ALT, Row.TEN_DELTA_DONE]

theorem handledRows_pages : ∀ row ∈ handledRows, row ∈ pageRows := by decide

theorem handledRows_push : ∀ row ∈ handledRows, pushRegs.contains row.base = true ∧ row.base ≠ Row.TEN_DOORBELL.base := by decide

/-- Putting a tenancy's queue as it is changes nothing. -/
theorem State.modTen_same {s : State} {t : Nat} {g : TenRun → TenRun} (hg : ∀ x ∈ s.tens, s.tenRun t = x → g x = x) :
    s.modTen t g = s := by
  have : s.tens.mapIdx (fun i x => if i = t then g x else x) = s.tens := by
    apply List.ext_getElem
    · simp
    · intro i h1 h2
      simp only [List.getElem_mapIdx]
      split
      · rename_i hi
        subst hi
        exact hg _ (List.getElem_mem h2) (by simp [State.tenRun, List.getD_eq_getElem?_getD, h2])
      · rfl
  unfold State.modTen
  rw [this]

theorem State.modTen_modTen (s : State) (t : Nat) (g h : TenRun → TenRun) :
    (s.modTen t g).modTen t h = s.modTen t (fun x => h (g x)) := by
  have : (s.modTen t g).tens.mapIdx (fun i x => if i = t then h x else x) =
      s.tens.mapIdx (fun i x => if i = t then h (g x) else x) := by
    apply List.ext_getElem
    · simp [State.modTen]
    · intro i h1 h2
      simp only [State.modTen, List.getElem_mapIdx]
      split <;> rfl
  unfold State.modTen at *
  rw [this]

theorem State.tenRun_modTen {s : State} {t : Nat} {g : TenRun → TenRun} (ht : t < s.tens.length) :
    (s.modTen t g).tenRun t = g (s.tenRun t) := by
  simp [State.tenRun, State.modTen, List.getD_eq_getElem?_getD, ht]

/-- A push other than a doorbell, of the host or of a die, that finds its queue empty is handled at once, and the queue is empty
again. -/
theorem State.pushWrite_handled {s : State} {r : CsReq} {t : Fin 16} {row : RegRow} {v : Word} {die : Bool} {f : Fetch}
    (hl : s.tens.length = 16) (he : (s.tenRun t).pushes = []) (hrow : row ∈ handledRows) :
    s.pushWrite r t (pageOff t row) v die f = s.handlePush t ⟨r, pageOff t row, v, s.time.now, die⟩ f := by
  have e : pageOff t row - 0x100000 * t.val = row.base := by unfold pageOff; omega
  have hl : t.val < s.tens.length := by omega
  obtain ⟨hp, hd⟩ := handledRows_push row hrow
  have key : (s.enqueue r t (pageOff t row) v die).drainOne t f =
      s.handlePush t ⟨r, pageOff t row, v, s.time.now, die⟩ f := by
    unfold State.drainOne State.enqueue
    rw [State.tenRun_modTen hl, he]
    simp only [List.nil_append, State.modTen_modTen]
    rw [State.modTen_same]
    · rfl
    · intro x _ hx
      subst hx
      cases hr : s.tenRun t with
      | mk p q => rw [hr] at he; cases he; rfl
  unfold State.pushWrite
  simp only [he, List.isEmpty_nil, Bool.true_and, e, bne_iff_ne, ne_eq, hd, not_false_eq_true, if_true]
  exact key

/-- A host push other than a doorbell that finds its queue empty is handled at once. -/
theorem State.push_handled {s : State} {r : CsReq} {t : Fin 16} {row : RegRow} {v : Word} {f : Fetch} (h : TenancyMay r t s)
    (hq : QueuesHold s) (he : (s.tenRun t).pushes = []) (hrow : row ∈ handledRows) :
    s.hostPage r t row v f = (answered s).handlePush t ⟨r, pageOff t row, v, s.time.now, false⟩ f := by
  rw [State.hostPage_eq h (handledRows_pages row hrow)]
  have e : pageOff t row - 0x100000 * t.val = row.base := by unfold pageOff; omega
  unfold State.pageEffect
  simp only [e, (handledRows_push row hrow).1, if_true]
  exact State.pushWrite_handled (s := answered s) hq.1 he hrow

/-- A live push of a die that finds its queue empty, with nothing stalled, is handled at once. -/
theorem State.diePush_handled {s : State} {t : Fin 16} {w : Nat} {f : Fetch} (hl : s.tens.length = 16)
    (hst : (s.tenRun t).stalled = []) (he : (s.tenRun t).pushes = []) : s.diePush t w f =
      s.handlePush t ⟨⟨0, t⟩, pageOff t Row.TEN_LIVE_DOORBELL, BitVec.ofNat 64 (w % 4096), s.time.now, true⟩ f := by
  unfold State.diePush
  have hn : (s.stalls t || !(s.tenRun t).stalled.isEmpty) = false := by
    rw [hst]
    unfold State.stalls
    rw [he]
    rfl
  simp only [hn, Bool.false_eq_true, if_false]
  rw [show 0x100000 * t.val + Row.TEN_LIVE_DOORBELL.base = pageOff t Row.TEN_LIVE_DOORBELL by unfold pageOff; omega]
  exact State.pushWrite_handled hl he (by decide)

/-- A doorbell push waits in its queue. -/
theorem State.doorbell_queued {s : State} {r : CsReq} {t : Fin 16} {v : Word} {f : Fetch} (h : TenancyMay r t s) :
    s.hostPage r t Row.TEN_DOORBELL v f = (answered s).enqueue r t (pageOff t Row.TEN_DOORBELL) v false := by
  rw [State.hostPage_eq h (by decide)]
  have e : pageOff t Row.TEN_DOORBELL - 0x100000 * t.val = Row.TEN_DOORBELL.base := by unfold pageOff; omega
  unfold State.pageEffect
  simp only [e]
  rw [if_pos (by decide)]
  unfold State.pushWrite
  simp only [e, bne_self_eq_false, Bool.and_false, Bool.false_eq_true, if_false]

end Sys2Proof.Machine
end

