-- ==== Sys2Proof/Laws/Bits.lean ====
section
/-! SUPPORT. Bit fields of a 64-bit word: what a field reads after a field is written. -/

namespace Sys2Proof.Machine

/-- A field's bits in place are the word under the field's mask. -/
theorem and_mask (w lo n : Nat) : w &&& ((2 ^ n - 1) * 2 ^ lo) = w / 2 ^ lo % 2 ^ n * 2 ^ lo := by
  apply Nat.eq_of_testBit_eq
  intro i
  rw [Nat.testBit_and, Nat.testBit_mul_two_pow, Nat.testBit_mul_two_pow, Nat.testBit_two_pow_sub_one, Nat.testBit_mod_two_pow,
    Nat.testBit_div_two_pow]
  by_cases h : lo ≤ i
  · simp only [h, decide_true, Bool.true_and]
    rw [Nat.sub_add_cancel h, Bool.and_comm]
  · simp [h]

/-- The word after a field is written: the bits above it, the field, the bits below it. -/
theorem putBits_toNat (w : Word) {lo n : Nat} (v : Nat) (h : lo + n ≤ 64) :
    (putBits w lo n v).toNat = w.toNat / 2 ^ (lo + n) * 2 ^ (lo + n) + v % 2 ^ n * 2 ^ lo + w.toNat % 2 ^ lo := by
  have hw : w.toNat < 2 ^ 64 := w.isLt
  have e1 : w.toNat = w.toNat / 2 ^ lo * 2 ^ lo + w.toNat % 2 ^ lo := by
    rw [Nat.mul_comm]; exact (Nat.div_add_mod _ _).symm
  have e2 : w.toNat / 2 ^ lo = w.toNat / 2 ^ (lo + n) * 2 ^ n + w.toNat / 2 ^ lo % 2 ^ n := by
    rw [Nat.pow_add, ← Nat.div_div_eq_div_mul, Nat.mul_comm _ (2 ^ n)]
    exact (Nat.div_add_mod _ _).symm
  have hp : 2 ^ (lo + n) = 2 ^ lo * 2 ^ n := Nat.pow_add 2 lo n
  set a := w.toNat / 2 ^ (lo + n)
  set m := w.toNat / 2 ^ lo % 2 ^ n
  set l := w.toNat % 2 ^ lo
  have e : w.toNat = a * 2 ^ (lo + n) + m * 2 ^ lo + l := by
    rw [hp, show a * (2 ^ lo * 2 ^ n) = a * 2 ^ n * 2 ^ lo by ring, ← Nat.add_mul, ← e2]
    exact e1
  have hl : l < 2 ^ lo := Nat.mod_lt _ (by positivity)
  have hv : v % 2 ^ n < 2 ^ n := Nat.mod_lt _ (by positivity)
  have ha : a * 2 ^ (lo + n) + 2 ^ (lo + n) ≤ 2 ^ 64 := by
    have hd : a < 2 ^ (64 - (lo + n)) := by
      rw [Nat.div_lt_iff_lt_mul (by positivity), ← Nat.pow_add, Nat.sub_add_cancel h]
      exact hw
    have := Nat.mul_le_mul_right (2 ^ (lo + n)) hd
    rw [← Nat.pow_add, Nat.sub_add_cancel h] at this
    rw [← Nat.succ_mul]
    exact this
  have hb : v % 2 ^ n * 2 ^ lo + l < 2 ^ (lo + n) := by
    have : v % 2 ^ n * 2 ^ lo + 2 ^ lo ≤ 2 ^ (lo + n) := by
      rw [hp, ← Nat.succ_mul, Nat.mul_comm]
      exact Nat.mul_le_mul_left _ hv
    omega
  unfold putBits
  simp only [and_mask]
  rw [BitVec.toNat_ofNat]
  have ed : w.toNat - m * 2 ^ lo = a * 2 ^ (lo + n) + l := by omega
  rw [show w.toNat / 2 ^ lo % 2 ^ n = m from rfl, ed, Nat.mod_eq_of_lt (by omega)]
  omega

/-- The field just written. -/
theorem getBits_putBits (w : Word) {lo n : Nat} (v : Nat) (h : lo + n ≤ 64) : getBits (putBits w lo n v) lo n = v % 2 ^ n := by
  unfold getBits
  rw [putBits_toNat w v h, Nat.pow_add, show w.toNat / (2 ^ lo * 2 ^ n) * (2 ^ lo * 2 ^ n) + v % 2 ^ n * 2 ^ lo + w.toNat % 2 ^ lo =
    w.toNat % 2 ^ lo + 2 ^ lo * (v % 2 ^ n + 2 ^ n * (w.toNat / (2 ^ lo * 2 ^ n))) by ring,
    Nat.add_mul_div_left _ _ (by positivity), Nat.div_eq_of_lt (Nat.mod_lt _ (by positivity)), Nat.zero_add,
    Nat.add_mul_mod_self_left, Nat.mod_mod]

/-- A field above the one written. -/
theorem getBits_putBits_above (w : Word) {lo n a m : Nat} (v : Nat) (h : lo + n ≤ 64) (ha : lo + n ≤ a) :
    getBits (putBits w lo n v) a m = getBits w a m := by
  obtain ⟨k, rfl⟩ := Nat.exists_eq_add_of_le ha
  have hl : w.toNat % 2 ^ lo < 2 ^ lo := Nat.mod_lt _ (by positivity)
  have hv : v % 2 ^ n < 2 ^ n := Nat.mod_lt _ (by positivity)
  have hb : v % 2 ^ n * 2 ^ lo + w.toNat % 2 ^ lo < 2 ^ (lo + n) := by
    have : v % 2 ^ n * 2 ^ lo + 2 ^ lo ≤ 2 ^ (lo + n) := by
      rw [Nat.pow_add, ← Nat.succ_mul, Nat.mul_comm]
      exact Nat.mul_le_mul_left _ hv
    omega
  unfold getBits
  rw [putBits_toNat w v h, Nat.pow_add 2 (lo + n) k, ← Nat.div_div_eq_div_mul, ← Nat.div_div_eq_div_mul, Nat.add_assoc,
    Nat.mul_comm _ (2 ^ (lo + n)), Nat.mul_add_div (by positivity), Nat.div_eq_of_lt hb, Nat.add_zero]

/-- A field below the one written. -/
theorem getBits_putBits_below (w : Word) {lo n a m : Nat} (v : Nat) (h : lo + n ≤ 64) (ha : a + m ≤ lo) :
    getBits (putBits w lo n v) a m = getBits w a m := by
  obtain ⟨k, rfl⟩ := Nat.exists_eq_add_of_le ha
  unfold getBits
  rw [← Nat.mod_mul_right_div_self, ← Nat.mod_mul_right_div_self, ← Nat.pow_add]
  congr 1
  rw [putBits_toNat w v h, Nat.pow_add _ (a + m + k) n, Nat.pow_add _ (a + m) k,
    show w.toNat / (2 ^ (a + m) * 2 ^ k * 2 ^ n) * (2 ^ (a + m) * 2 ^ k * 2 ^ n) + v % 2 ^ n * (2 ^ (a + m) * 2 ^ k) +
      w.toNat % (2 ^ (a + m) * 2 ^ k) = w.toNat % (2 ^ (a + m) * 2 ^ k) + 2 ^ (a + m) * (2 ^ k * (w.toNat /
      (2 ^ (a + m) * 2 ^ k * 2 ^ n) * 2 ^ n + v % 2 ^ n)) by ring, Nat.add_mul_mod_self_left, Nat.mod_mul_right_mod]

end Sys2Proof.Machine
end

