-- ==== Sys2Proof/Laws/RegFile.lean ====
section
/-! SUPPORT. The register file: every operation keeps its canonical form, and a read after a write gives the word written. -/

namespace Sys2Proof.Machine

/-- Every offset lies above a bound, if there is one. -/
def RegFile.above (lo : Option Nat) (r : RegFile) : Prop := ∀ e ∈ r, ∀ l, lo = some l → l < e.1

theorem RegFile.wfFrom_cons {lo : Option Nat} {o : Nat} {v : Word} {r : RegFile} :
    RegFile.wfFrom lo ((o, v) :: r) = true ↔
      (∀ l, lo = some l → l < o) ∧ v ≠ resetWord o ∧ RegFile.wfFrom (some o) r = true := by
  cases lo <;> simp [RegFile.wfFrom, and_assoc]

theorem RegFile.wfFrom_mono {lo : Option Nat} {m : Nat} {r : RegFile} (hm : ∀ l, lo = some l → l ≤ m)
    (h : RegFile.wfFrom (some m) r = true) : RegFile.wfFrom lo r = true := by
  cases r with
  | nil => rfl
  | cons e r =>
    obtain ⟨o, v⟩ := e
    rw [RegFile.wfFrom_cons] at h ⊢
    exact ⟨fun l hl => Nat.lt_of_le_of_lt (hm l hl) (h.1 m rfl), h.2⟩

/-- In a canonical file every offset lies above the bound. -/
theorem RegFile.above_of_wfFrom {lo : Option Nat} {r : RegFile} (h : RegFile.wfFrom lo r = true) : RegFile.above lo r := by
  induction r generalizing lo with
  | nil => intro e he; cases he
  | cons e r ih =>
    obtain ⟨o, v⟩ := e
    rw [RegFile.wfFrom_cons] at h
    intro e he l hl
    rcases List.mem_cons.1 he with rfl | he
    · exact h.1 l hl
    · exact Nat.lt_trans (h.1 l hl) (ih h.2.2 e he o rfl)

/-- Removing entries keeps the canonical form. -/
theorem RegFile.wfFrom_sublist {lo : Option Nat} {r q : RegFile} (hs : q.Sublist r) (h : RegFile.wfFrom lo r = true) :
    RegFile.wfFrom lo q = true := by
  induction hs generalizing lo with
  | slnil => rfl
  | cons e _ ih =>
    obtain ⟨o, v⟩ := e
    rw [RegFile.wfFrom_cons] at h
    exact ih (RegFile.wfFrom_mono (fun l hl => Nat.le_of_lt (h.1 l hl)) h.2.2)
  | cons_cons e _ ih =>
    obtain ⟨o, v⟩ := e
    rw [RegFile.wfFrom_cons] at h ⊢
    exact ⟨h.1, h.2.1, ih h.2.2⟩

theorem RegFile.wf_filter {r : RegFile} {p : Nat × Word → Bool} (h : r.wf = true) : RegFile.wf (r.filter p) = true :=
  RegFile.wfFrom_sublist List.filter_sublist h

theorem RegFile.erase_sublist (r : RegFile) (off : Nat) : (r.erase off).Sublist r := by
  induction r with
  | nil => exact List.Sublist.refl _
  | cons e r ih =>
    obtain ⟨o, v⟩ := e
    simp only [RegFile.erase]
    split
    · exact ih.cons_cons _
    · split
      · exact List.sublist_cons_self _ _
      · exact List.Sublist.refl _

theorem RegFile.wf_erase {r : RegFile} {off : Nat} (h : r.wf = true) : (r.erase off).wf = true :=
  RegFile.wfFrom_sublist (r.erase_sublist off) h

theorem RegFile.wfFrom_insert {lo : Option Nat} {r : RegFile} {off : Nat} {w : Word} (hw : w ≠ resetWord off)
    (hlo : ∀ l, lo = some l → l < off) (h : RegFile.wfFrom lo r = true) : RegFile.wfFrom lo (r.insert off w) = true := by
  induction r generalizing lo with
  | nil => simp only [RegFile.insert, RegFile.wfFrom_cons]; exact ⟨hlo, hw, rfl⟩
  | cons e r ih =>
    obtain ⟨o, v⟩ := e
    rw [RegFile.wfFrom_cons] at h
    simp only [RegFile.insert]
    split
    · rename_i ho
      rw [RegFile.wfFrom_cons]
      exact ⟨h.1, h.2.1, ih (fun l hl => by cases hl; exact ho) h.2.2⟩
    · split
      · rename_i ho; subst ho
        rw [RegFile.wfFrom_cons]
        exact ⟨hlo, hw, h.2.2⟩
      · rw [RegFile.wfFrom_cons, RegFile.wfFrom_cons]
        exact ⟨hlo, hw, fun l hl => by cases hl; omega, h.2⟩

/-- A write keeps the canonical form. -/
theorem RegFile.wf_set {r : RegFile} {off : Nat} {w : Word} (h : r.wf = true) : (r.set off w).wf = true := by
  unfold RegFile.set
  split
  · exact RegFile.wf_erase h
  · rename_i hw; exact RegFile.wfFrom_insert hw (fun l hl => by cases hl) h

theorem RegFile.find_insert_same (r : RegFile) (off : Nat) (w : Word) : (r.insert off w).find off = some w := by
  induction r with
  | nil => simp [RegFile.insert, RegFile.find]
  | cons e r ih =>
    obtain ⟨o, v⟩ := e
    simp only [RegFile.insert]
    split
    · rename_i ho; simp [RegFile.find, Nat.ne_of_lt ho, ih]
    · split <;> simp [RegFile.find]

theorem RegFile.find_insert_other {r : RegFile} {off a : Nat} {w : Word} (h : a ≠ off) : (r.insert off w).find a = r.find a := by
  induction r with
  | nil => simp [RegFile.insert, RegFile.find, h.symm]
  | cons e r ih =>
    obtain ⟨o, v⟩ := e
    simp only [RegFile.insert]
    split
    · simp only [RegFile.find, ih]
    · split
      · rename_i ho; subst ho; simp [RegFile.find, h.symm]
      · simp [RegFile.find, h.symm]

/-- No offset at or below the bound is listed. -/
theorem RegFile.find_none {l : Nat} {r : RegFile} (h : RegFile.wfFrom (some l) r = true) {a : Nat} (ha : a ≤ l) :
    r.find a = none := by
  induction r generalizing l with
  | nil => rfl
  | cons e r ih =>
    obtain ⟨o, v⟩ := e
    rw [RegFile.wfFrom_cons] at h
    have := h.1 l rfl
    simp only [RegFile.find, show o ≠ a by omega, if_false]
    exact ih h.2.2 (by omega)

theorem RegFile.find_erase_same {lo : Option Nat} {r : RegFile} {off : Nat} (h : RegFile.wfFrom lo r = true) :
    (r.erase off).find off = none := by
  induction r generalizing lo with
  | nil => rfl
  | cons e r ih =>
    obtain ⟨o, v⟩ := e
    rw [RegFile.wfFrom_cons] at h
    simp only [RegFile.erase]
    split
    · rename_i ho; simp only [RegFile.find, Nat.ne_of_lt ho, if_false]; exact ih h.2.2
    · split
      · rename_i ho; subst ho; exact RegFile.find_none h.2.2 (Nat.le_refl _)
      · rename_i h1 h2
        simp only [RegFile.find, h2, if_false]
        exact RegFile.find_none h.2.2 (by omega)

theorem RegFile.find_erase_other {r : RegFile} {off a : Nat} (h : a ≠ off) : (r.erase off).find a = r.find a := by
  induction r with
  | nil => rfl
  | cons e r ih =>
    obtain ⟨o, v⟩ := e
    simp only [RegFile.erase]
    split
    · simp only [RegFile.find, ih]
    · split
      · rename_i ho; subst ho; simp [RegFile.find, h.symm]
      · rfl

/-- A read of the register written gives the word written. -/
theorem RegFile.get_set_same {r : RegFile} (h : r.wf = true) (off : Nat) (w : Word) : (r.set off w).get off = w := by
  unfold RegFile.set RegFile.get
  split
  · rename_i hw; rw [RegFile.find_erase_same h]; exact hw.symm
  · rw [RegFile.find_insert_same]; rfl

/-- A read of any other register gives what it gave before. -/
theorem RegFile.get_set_other (r : RegFile) {off a : Nat} (w : Word) (h : a ≠ off) : (r.set off w).get a = r.get a := by
  unfold RegFile.set RegFile.get
  split
  · rw [RegFile.find_erase_other h]
  · rw [RegFile.find_insert_other h]

end Sys2Proof.Machine
end

