-- ==== Sys2Proof/Laws/State.lean ====
section
/-! SUPPORT. What the named updates of the state leave as it is, field by field, and all that the register and transaction operations
can change. -/

namespace Sys2Proof.Machine

/-! ### setReg changes regs alone -/

section
variable (s : State) (off : Nat) (w : Word)
@[simp] theorem State.setReg_pending : (s.setReg off w).pending = s.pending := rfl
@[simp] theorem State.setReg_shadow : (s.setReg off w).shadow = s.shadow := rfl
@[simp] theorem State.setReg_captures : (s.setReg off w).captures = s.captures := rfl
@[simp] theorem State.setReg_resp : (s.setReg off w).resp = s.resp := rfl
@[simp] theorem State.setReg_heldCs : (s.setReg off w).heldCs = s.heldCs := rfl
@[simp] theorem State.setReg_life : (s.setReg off w).life = s.life := rfl
@[simp] theorem State.setReg_ready : (s.setReg off w).ready = s.ready := rfl
@[simp] theorem State.setReg_lastStart : (s.setReg off w).lastStart = s.lastStart := rfl
@[simp] theorem State.setReg_retainedOk : (s.setReg off w).retainedOk = s.retainedOk := rfl
@[simp] theorem State.setReg_testMode : (s.setReg off w).testMode = s.testMode := rfl
@[simp] theorem State.setReg_credits : (s.setReg off w).credits = s.credits := rfl
@[simp] theorem State.setReg_forme : (s.setReg off w).forme = s.forme := rfl
@[simp] theorem State.setReg_amends : (s.setReg off w).amends = s.amends := rfl
@[simp] theorem State.setReg_adm : (s.setReg off w).adm = s.adm := rfl
@[simp] theorem State.setReg_servers : (s.setReg off w).servers = s.servers := rfl
@[simp] theorem State.setReg_job : (s.setReg off w).job = s.job := rfl
@[simp] theorem State.setReg_retaining : (s.setReg off w).retaining = s.retaining := rfl
@[simp] theorem State.setReg_retained : (s.setReg off w).retained = s.retained := rfl
@[simp] theorem State.setReg_tens : (s.setReg off w).tens = s.tens := rfl
@[simp] theorem State.setReg_pushRot : (s.setReg off w).pushRot = s.pushRot := rfl
@[simp] theorem State.setReg_sqs : (s.setReg off w).sqs = s.sqs := rfl
@[simp] theorem State.setReg_cqs : (s.setReg off w).cqs = s.cqs := rfl
@[simp] theorem State.setReg_scanRot : (s.setReg off w).scanRot = s.scanRot := rfl
@[simp] theorem State.setReg_ports : (s.setReg off w).ports = s.ports := rfl
@[simp] theorem State.setReg_due : (s.setReg off w).due = s.due := rfl
@[simp] theorem State.setReg_tasks : (s.setReg off w).tasks = s.tasks := rfl
@[simp] theorem State.setReg_nextTask : (s.setReg off w).nextTask = s.nextTask := rfl
@[simp] theorem State.setReg_flows : (s.setReg off w).flows = s.flows := rfl
@[simp] theorem State.setReg_groups : (s.setReg off w).groups = s.groups := rfl
@[simp] theorem State.setReg_batches : (s.setReg off w).batches = s.batches := rfl
@[simp] theorem State.setReg_nextBatch : (s.setReg off w).nextBatch = s.nextBatch := rfl
@[simp] theorem State.setReg_pools : (s.setReg off w).pools = s.pools := rfl
@[simp] theorem State.setReg_handles : (s.setReg off w).handles = s.handles := rfl
@[simp] theorem State.setReg_berths : (s.setReg off w).berths = s.berths := rfl
@[simp] theorem State.setReg_swapBusy : (s.setReg off w).swapBusy = s.swapBusy := rfl
@[simp] theorem State.setReg_swapQueue : (s.setReg off w).swapQueue = s.swapQueue := rfl
@[simp] theorem State.setReg_txns : (s.setReg off w).txns = s.txns := rfl
@[simp] theorem State.setReg_nextTag : (s.setReg off w).nextTag = s.nextTag := rfl
@[simp] theorem State.setReg_crcFails : (s.setReg off w).crcFails = s.crcFails := rfl
@[simp] theorem State.setReg_srcs : (s.setReg off w).srcs = s.srcs := rfl
@[simp] theorem State.setReg_raised : (s.setReg off w).raised = s.raised := rfl
@[simp] theorem State.setReg_fencedLanes : (s.setReg off w).fencedLanes = s.fencedLanes := rfl
@[simp] theorem State.setReg_fencedEngines : (s.setReg off w).fencedEngines = s.fencedEngines := rfl
@[simp] theorem State.setReg_fencedUnits : (s.setReg off w).fencedUnits = s.fencedUnits := rfl
@[simp] theorem State.setReg_lanesGood : (s.setReg off w).lanesGood = s.lanesGood := rfl
@[simp] theorem State.setReg_entropyGood : (s.setReg off w).entropyGood = s.entropyGood := rfl
@[simp] theorem State.setReg_selfFail : (s.setReg off w).selfFail = s.selfFail := rfl
@[simp] theorem State.setReg_time : (s.setReg off w).time = s.time := rfl
@[simp] theorem State.setReg_clk : (s.setReg off w).clk = s.clk := rfl
@[simp] theorem State.setReg_ptc : (s.setReg off w).ptc = s.ptc := rfl
@[simp] theorem State.setReg_weir : (s.setReg off w).weir = s.weir := rfl
@[simp] theorem State.setReg_dltOut : (s.setReg off w).dltOut = s.dltOut := rfl
@[simp] theorem State.setReg_dltQueue : (s.setReg off w).dltQueue = s.dltQueue := rfl
@[simp] theorem State.setReg_stagger : (s.setReg off w).stagger = s.stagger := rfl
@[simp] theorem State.setReg_tko : (s.setReg off w).tko = s.tko := rfl
@[simp] theorem State.setReg_taken : (s.setReg off w).taken = s.taken := rfl
@[simp] theorem State.setReg_peerSeen : (s.setReg off w).peerSeen = s.peerSeen := rfl
@[simp] theorem State.setReg_peerAt : (s.setReg off w).peerAt = s.peerAt := rfl
@[simp] theorem State.setReg_aliveOn : (s.setReg off w).aliveOn = s.aliveOn := rfl
@[simp] theorem State.setReg_alive : (s.setReg off w).alive = s.alive := rfl
@[simp] theorem State.setReg_aliveAt : (s.setReg off w).aliveAt = s.aliveAt := rfl
@[simp] theorem State.setReg_instLow : (s.setReg off w).instLow = s.instLow := rfl
@[simp] theorem State.setReg_startFetch : (s.setReg off w).startFetch = s.startFetch := rfl
@[simp] theorem State.setReg_tmode : (s.setReg off w).tmode = s.tmode := rfl
@[simp] theorem State.setReg_repair : (s.setReg off w).repair = s.repair := rfl
@[simp] theorem State.setReg_guardResp : (s.setReg off w).guardResp = s.guardResp := rfl
@[simp] theorem State.setReg_pmOut : (s.setReg off w).pmOut = s.pmOut := rfl
@[simp] theorem State.setReg_pmHeld : (s.setReg off w).pmHeld = s.pmHeld := rfl
@[simp] theorem State.setReg_saved : (s.setReg off w).saved = s.saved := rfl
@[simp] theorem State.setReg_ckptAreas : (s.setReg off w).ckptAreas = s.ckptAreas := rfl
@[simp] theorem State.setReg_imageSeq : (s.setReg off w).imageSeq = s.imageSeq := rfl
@[simp] theorem State.setReg_katDue : (s.setReg off w).katDue = s.katDue := rfl
@[simp] theorem State.setReg_window1ms : (s.setReg off w).window1ms = s.window1ms := rfl
@[simp] theorem State.setReg_frac : (s.setReg off w).frac = s.frac := rfl
@[simp] theorem State.setReg_free : (s.setReg off w).free = s.free := rfl
end

/-! ### setFld changes regs alone -/

section
variable (s : State) (f : Field) (v : Nat)
@[simp] theorem State.setFld_pending : (s.setFld f v).pending = s.pending := rfl
@[simp] theorem State.setFld_shadow : (s.setFld f v).shadow = s.shadow := rfl
@[simp] theorem State.setFld_captures : (s.setFld f v).captures = s.captures := rfl
@[simp] theorem State.setFld_resp : (s.setFld f v).resp = s.resp := rfl
@[simp] theorem State.setFld_heldCs : (s.setFld f v).heldCs = s.heldCs := rfl
@[simp] theorem State.setFld_life : (s.setFld f v).life = s.life := rfl
@[simp] theorem State.setFld_ready : (s.setFld f v).ready = s.ready := rfl
@[simp] theorem State.setFld_lastStart : (s.setFld f v).lastStart = s.lastStart := rfl
@[simp] theorem State.setFld_retainedOk : (s.setFld f v).retainedOk = s.retainedOk := rfl
@[simp] theorem State.setFld_testMode : (s.setFld f v).testMode = s.testMode := rfl
@[simp] theorem State.setFld_credits : (s.setFld f v).credits = s.credits := rfl
@[simp] theorem State.setFld_forme : (s.setFld f v).forme = s.forme := rfl
@[simp] theorem State.setFld_amends : (s.setFld f v).amends = s.amends := rfl
@[simp] theorem State.setFld_adm : (s.setFld f v).adm = s.adm := rfl
@[simp] theorem State.setFld_servers : (s.setFld f v).servers = s.servers := rfl
@[simp] theorem State.setFld_job : (s.setFld f v).job = s.job := rfl
@[simp] theorem State.setFld_retaining : (s.setFld f v).retaining = s.retaining := rfl
@[simp] theorem State.setFld_retained : (s.setFld f v).retained = s.retained := rfl
@[simp] theorem State.setFld_tens : (s.setFld f v).tens = s.tens := rfl
@[simp] theorem State.setFld_pushRot : (s.setFld f v).pushRot = s.pushRot := rfl
@[simp] theorem State.setFld_sqs : (s.setFld f v).sqs = s.sqs := rfl
@[simp] theorem State.setFld_cqs : (s.setFld f v).cqs = s.cqs := rfl
@[simp] theorem State.setFld_scanRot : (s.setFld f v).scanRot = s.scanRot := rfl
@[simp] theorem State.setFld_ports : (s.setFld f v).ports = s.ports := rfl
@[simp] theorem State.setFld_due : (s.setFld f v).due = s.due := rfl
@[simp] theorem State.setFld_tasks : (s.setFld f v).tasks = s.tasks := rfl
@[simp] theorem State.setFld_nextTask : (s.setFld f v).nextTask = s.nextTask := rfl
@[simp] theorem State.setFld_flows : (s.setFld f v).flows = s.flows := rfl
@[simp] theorem State.setFld_groups : (s.setFld f v).groups = s.groups := rfl
@[simp] theorem State.setFld_batches : (s.setFld f v).batches = s.batches := rfl
@[simp] theorem State.setFld_nextBatch : (s.setFld f v).nextBatch = s.nextBatch := rfl
@[simp] theorem State.setFld_pools : (s.setFld f v).pools = s.pools := rfl
@[simp] theorem State.setFld_handles : (s.setFld f v).handles = s.handles := rfl
@[simp] theorem State.setFld_berths : (s.setFld f v).berths = s.berths := rfl
@[simp] theorem State.setFld_swapBusy : (s.setFld f v).swapBusy = s.swapBusy := rfl
@[simp] theorem State.setFld_swapQueue : (s.setFld f v).swapQueue = s.swapQueue := rfl
@[simp] theorem State.setFld_txns : (s.setFld f v).txns = s.txns := rfl
@[simp] theorem State.setFld_nextTag : (s.setFld f v).nextTag = s.nextTag := rfl
@[simp] theorem State.setFld_crcFails : (s.setFld f v).crcFails = s.crcFails := rfl
@[simp] theorem State.setFld_srcs : (s.setFld f v).srcs = s.srcs := rfl
@[simp] theorem State.setFld_raised : (s.setFld f v).raised = s.raised := rfl
@[simp] theorem State.setFld_fencedLanes : (s.setFld f v).fencedLanes = s.fencedLanes := rfl
@[simp] theorem State.setFld_fencedEngines : (s.setFld f v).fencedEngines = s.fencedEngines := rfl
@[simp] theorem State.setFld_fencedUnits : (s.setFld f v).fencedUnits = s.fencedUnits := rfl
@[simp] theorem State.setFld_lanesGood : (s.setFld f v).lanesGood = s.lanesGood := rfl
@[simp] theorem State.setFld_entropyGood : (s.setFld f v).entropyGood = s.entropyGood := rfl
@[simp] theorem State.setFld_selfFail : (s.setFld f v).selfFail = s.selfFail := rfl
@[simp] theorem State.setFld_time : (s.setFld f v).time = s.time := rfl
@[simp] theorem State.setFld_clk : (s.setFld f v).clk = s.clk := rfl
@[simp] theorem State.setFld_ptc : (s.setFld f v).ptc = s.ptc := rfl
@[simp] theorem State.setFld_weir : (s.setFld f v).weir = s.weir := rfl
@[simp] theorem State.setFld_dltOut : (s.setFld f v).dltOut = s.dltOut := rfl
@[simp] theorem State.setFld_dltQueue : (s.setFld f v).dltQueue = s.dltQueue := rfl
@[simp] theorem State.setFld_stagger : (s.setFld f v).stagger = s.stagger := rfl
@[simp] theorem State.setFld_tko : (s.setFld f v).tko = s.tko := rfl
@[simp] theorem State.setFld_taken : (s.setFld f v).taken = s.taken := rfl
@[simp] theorem State.setFld_peerSeen : (s.setFld f v).peerSeen = s.peerSeen := rfl
@[simp] theorem State.setFld_peerAt : (s.setFld f v).peerAt = s.peerAt := rfl
@[simp] theorem State.setFld_aliveOn : (s.setFld f v).aliveOn = s.aliveOn := rfl
@[simp] theorem State.setFld_alive : (s.setFld f v).alive = s.alive := rfl
@[simp] theorem State.setFld_aliveAt : (s.setFld f v).aliveAt = s.aliveAt := rfl
@[simp] theorem State.setFld_instLow : (s.setFld f v).instLow = s.instLow := rfl
@[simp] theorem State.setFld_startFetch : (s.setFld f v).startFetch = s.startFetch := rfl
@[simp] theorem State.setFld_tmode : (s.setFld f v).tmode = s.tmode := rfl
@[simp] theorem State.setFld_repair : (s.setFld f v).repair = s.repair := rfl
@[simp] theorem State.setFld_guardResp : (s.setFld f v).guardResp = s.guardResp := rfl
@[simp] theorem State.setFld_pmOut : (s.setFld f v).pmOut = s.pmOut := rfl
@[simp] theorem State.setFld_pmHeld : (s.setFld f v).pmHeld = s.pmHeld := rfl
@[simp] theorem State.setFld_saved : (s.setFld f v).saved = s.saved := rfl
@[simp] theorem State.setFld_ckptAreas : (s.setFld f v).ckptAreas = s.ckptAreas := rfl
@[simp] theorem State.setFld_imageSeq : (s.setFld f v).imageSeq = s.imageSeq := rfl
@[simp] theorem State.setFld_katDue : (s.setFld f v).katDue = s.katDue := rfl
@[simp] theorem State.setFld_window1ms : (s.setFld f v).window1ms = s.window1ms := rfl
@[simp] theorem State.setFld_frac : (s.setFld f v).frac = s.frac := rfl
@[simp] theorem State.setFld_free : (s.setFld f v).free = s.free := rfl
end

/-! ### raise changes raised alone -/

section
variable (s : State) (src : Nat) (i : FaultInfo)
@[simp] theorem State.raise_pending : (s.raise src i).pending = s.pending := rfl
@[simp] theorem State.raise_regs : (s.raise src i).regs = s.regs := rfl
@[simp] theorem State.raise_shadow : (s.raise src i).shadow = s.shadow := rfl
@[simp] theorem State.raise_captures : (s.raise src i).captures = s.captures := rfl
@[simp] theorem State.raise_resp : (s.raise src i).resp = s.resp := rfl
@[simp] theorem State.raise_heldCs : (s.raise src i).heldCs = s.heldCs := rfl
@[simp] theorem State.raise_life : (s.raise src i).life = s.life := rfl
@[simp] theorem State.raise_ready : (s.raise src i).ready = s.ready := rfl
@[simp] theorem State.raise_lastStart : (s.raise src i).lastStart = s.lastStart := rfl
@[simp] theorem State.raise_retainedOk : (s.raise src i).retainedOk = s.retainedOk := rfl
@[simp] theorem State.raise_testMode : (s.raise src i).testMode = s.testMode := rfl
@[simp] theorem State.raise_credits : (s.raise src i).credits = s.credits := rfl
@[simp] theorem State.raise_forme : (s.raise src i).forme = s.forme := rfl
@[simp] theorem State.raise_amends : (s.raise src i).amends = s.amends := rfl
@[simp] theorem State.raise_adm : (s.raise src i).adm = s.adm := rfl
@[simp] theorem State.raise_servers : (s.raise src i).servers = s.servers := rfl
@[simp] theorem State.raise_job : (s.raise src i).job = s.job := rfl
@[simp] theorem State.raise_retaining : (s.raise src i).retaining = s.retaining := rfl
@[simp] theorem State.raise_retained : (s.raise src i).retained = s.retained := rfl
@[simp] theorem State.raise_tens : (s.raise src i).tens = s.tens := rfl
@[simp] theorem State.raise_pushRot : (s.raise src i).pushRot = s.pushRot := rfl
@[simp] theorem State.raise_sqs : (s.raise src i).sqs = s.sqs := rfl
@[simp] theorem State.raise_cqs : (s.raise src i).cqs = s.cqs := rfl
@[simp] theorem State.raise_scanRot : (s.raise src i).scanRot = s.scanRot := rfl
@[simp] theorem State.raise_ports : (s.raise src i).ports = s.ports := rfl
@[simp] theorem State.raise_due : (s.raise src i).due = s.due := rfl
@[simp] theorem State.raise_tasks : (s.raise src i).tasks = s.tasks := rfl
@[simp] theorem State.raise_nextTask : (s.raise src i).nextTask = s.nextTask := rfl
@[simp] theorem State.raise_flows : (s.raise src i).flows = s.flows := rfl
@[simp] theorem State.raise_groups : (s.raise src i).groups = s.groups := rfl
@[simp] theorem State.raise_batches : (s.raise src i).batches = s.batches := rfl
@[simp] theorem State.raise_nextBatch : (s.raise src i).nextBatch = s.nextBatch := rfl
@[simp] theorem State.raise_pools : (s.raise src i).pools = s.pools := rfl
@[simp] theorem State.raise_handles : (s.raise src i).handles = s.handles := rfl
@[simp] theorem State.raise_berths : (s.raise src i).berths = s.berths := rfl
@[simp] theorem State.raise_swapBusy : (s.raise src i).swapBusy = s.swapBusy := rfl
@[simp] theorem State.raise_swapQueue : (s.raise src i).swapQueue = s.swapQueue := rfl
@[simp] theorem State.raise_txns : (s.raise src i).txns = s.txns := rfl
@[simp] theorem State.raise_nextTag : (s.raise src i).nextTag = s.nextTag := rfl
@[simp] theorem State.raise_crcFails : (s.raise src i).crcFails = s.crcFails := rfl
@[simp] theorem State.raise_srcs : (s.raise src i).srcs = s.srcs := rfl
@[simp] theorem State.raise_fencedLanes : (s.raise src i).fencedLanes = s.fencedLanes := rfl
@[simp] theorem State.raise_fencedEngines : (s.raise src i).fencedEngines = s.fencedEngines := rfl
@[simp] theorem State.raise_fencedUnits : (s.raise src i).fencedUnits = s.fencedUnits := rfl
@[simp] theorem State.raise_lanesGood : (s.raise src i).lanesGood = s.lanesGood := rfl
@[simp] theorem State.raise_entropyGood : (s.raise src i).entropyGood = s.entropyGood := rfl
@[simp] theorem State.raise_selfFail : (s.raise src i).selfFail = s.selfFail := rfl
@[simp] theorem State.raise_time : (s.raise src i).time = s.time := rfl
@[simp] theorem State.raise_clk : (s.raise src i).clk = s.clk := rfl
@[simp] theorem State.raise_ptc : (s.raise src i).ptc = s.ptc := rfl
@[simp] theorem State.raise_weir : (s.raise src i).weir = s.weir := rfl
@[simp] theorem State.raise_dltOut : (s.raise src i).dltOut = s.dltOut := rfl
@[simp] theorem State.raise_dltQueue : (s.raise src i).dltQueue = s.dltQueue := rfl
@[simp] theorem State.raise_stagger : (s.raise src i).stagger = s.stagger := rfl
@[simp] theorem State.raise_tko : (s.raise src i).tko = s.tko := rfl
@[simp] theorem State.raise_taken : (s.raise src i).taken = s.taken := rfl
@[simp] theorem State.raise_peerSeen : (s.raise src i).peerSeen = s.peerSeen := rfl
@[simp] theorem State.raise_peerAt : (s.raise src i).peerAt = s.peerAt := rfl
@[simp] theorem State.raise_aliveOn : (s.raise src i).aliveOn = s.aliveOn := rfl
@[simp] theorem State.raise_alive : (s.raise src i).alive = s.alive := rfl
@[simp] theorem State.raise_aliveAt : (s.raise src i).aliveAt = s.aliveAt := rfl
@[simp] theorem State.raise_instLow : (s.raise src i).instLow = s.instLow := rfl
@[simp] theorem State.raise_startFetch : (s.raise src i).startFetch = s.startFetch := rfl
@[simp] theorem State.raise_tmode : (s.raise src i).tmode = s.tmode := rfl
@[simp] theorem State.raise_repair : (s.raise src i).repair = s.repair := rfl
@[simp] theorem State.raise_guardResp : (s.raise src i).guardResp = s.guardResp := rfl
@[simp] theorem State.raise_pmOut : (s.raise src i).pmOut = s.pmOut := rfl
@[simp] theorem State.raise_pmHeld : (s.raise src i).pmHeld = s.pmHeld := rfl
@[simp] theorem State.raise_saved : (s.raise src i).saved = s.saved := rfl
@[simp] theorem State.raise_ckptAreas : (s.raise src i).ckptAreas = s.ckptAreas := rfl
@[simp] theorem State.raise_imageSeq : (s.raise src i).imageSeq = s.imageSeq := rfl
@[simp] theorem State.raise_katDue : (s.raise src i).katDue = s.katDue := rfl
@[simp] theorem State.raise_window1ms : (s.raise src i).window1ms = s.window1ms := rfl
@[simp] theorem State.raise_frac : (s.raise src i).frac = s.frac := rfl
@[simp] theorem State.raise_free : (s.raise src i).free = s.free := rfl
end

/-! ### advance changes time alone -/

section
variable (s : State) (due : Nat)
@[simp] theorem State.advance_pending : (s.advance due).pending = s.pending := rfl
@[simp] theorem State.advance_regs : (s.advance due).regs = s.regs := rfl
@[simp] theorem State.advance_shadow : (s.advance due).shadow = s.shadow := rfl
@[simp] theorem State.advance_captures : (s.advance due).captures = s.captures := rfl
@[simp] theorem State.advance_resp : (s.advance due).resp = s.resp := rfl
@[simp] theorem State.advance_heldCs : (s.advance due).heldCs = s.heldCs := rfl
@[simp] theorem State.advance_life : (s.advance due).life = s.life := rfl
@[simp] theorem State.advance_ready : (s.advance due).ready = s.ready := rfl
@[simp] theorem State.advance_lastStart : (s.advance due).lastStart = s.lastStart := rfl
@[simp] theorem State.advance_retainedOk : (s.advance due).retainedOk = s.retainedOk := rfl
@[simp] theorem State.advance_testMode : (s.advance due).testMode = s.testMode := rfl
@[simp] theorem State.advance_credits : (s.advance due).credits = s.credits := rfl
@[simp] theorem State.advance_forme : (s.advance due).forme = s.forme := rfl
@[simp] theorem State.advance_amends : (s.advance due).amends = s.amends := rfl
@[simp] theorem State.advance_adm : (s.advance due).adm = s.adm := rfl
@[simp] theorem State.advance_servers : (s.advance due).servers = s.servers := rfl
@[simp] theorem State.advance_job : (s.advance due).job = s.job := rfl
@[simp] theorem State.advance_retaining : (s.advance due).retaining = s.retaining := rfl
@[simp] theorem State.advance_retained : (s.advance due).retained = s.retained := rfl
@[simp] theorem State.advance_tens : (s.advance due).tens = s.tens := rfl
@[simp] theorem State.advance_pushRot : (s.advance due).pushRot = s.pushRot := rfl
@[simp] theorem State.advance_sqs : (s.advance due).sqs = s.sqs := rfl
@[simp] theorem State.advance_cqs : (s.advance due).cqs = s.cqs := rfl
@[simp] theorem State.advance_scanRot : (s.advance due).scanRot = s.scanRot := rfl
@[simp] theorem State.advance_ports : (s.advance due).ports = s.ports := rfl
@[simp] theorem State.advance_due : (s.advance due).due = s.due := rfl
@[simp] theorem State.advance_tasks : (s.advance due).tasks = s.tasks := rfl
@[simp] theorem State.advance_nextTask : (s.advance due).nextTask = s.nextTask := rfl
@[simp] theorem State.advance_flows : (s.advance due).flows = s.flows := rfl
@[simp] theorem State.advance_groups : (s.advance due).groups = s.groups := rfl
@[simp] theorem State.advance_batches : (s.advance due).batches = s.batches := rfl
@[simp] theorem State.advance_nextBatch : (s.advance due).nextBatch = s.nextBatch := rfl
@[simp] theorem State.advance_pools : (s.advance due).pools = s.pools := rfl
@[simp] theorem State.advance_handles : (s.advance due).handles = s.handles := rfl
@[simp] theorem State.advance_berths : (s.advance due).berths = s.berths := rfl
@[simp] theorem State.advance_swapBusy : (s.advance due).swapBusy = s.swapBusy := rfl
@[simp] theorem State.advance_swapQueue : (s.advance due).swapQueue = s.swapQueue := rfl
@[simp] theorem State.advance_txns : (s.advance due).txns = s.txns := rfl
@[simp] theorem State.advance_nextTag : (s.advance due).nextTag = s.nextTag := rfl
@[simp] theorem State.advance_crcFails : (s.advance due).crcFails = s.crcFails := rfl
@[simp] theorem State.advance_srcs : (s.advance due).srcs = s.srcs := rfl
@[simp] theorem State.advance_raised : (s.advance due).raised = s.raised := rfl
@[simp] theorem State.advance_fencedLanes : (s.advance due).fencedLanes = s.fencedLanes := rfl
@[simp] theorem State.advance_fencedEngines : (s.advance due).fencedEngines = s.fencedEngines := rfl
@[simp] theorem State.advance_fencedUnits : (s.advance due).fencedUnits = s.fencedUnits := rfl
@[simp] theorem State.advance_lanesGood : (s.advance due).lanesGood = s.lanesGood := rfl
@[simp] theorem State.advance_entropyGood : (s.advance due).entropyGood = s.entropyGood := rfl
@[simp] theorem State.advance_selfFail : (s.advance due).selfFail = s.selfFail := rfl
@[simp] theorem State.advance_clk : (s.advance due).clk = s.clk := rfl
@[simp] theorem State.advance_ptc : (s.advance due).ptc = s.ptc := rfl
@[simp] theorem State.advance_weir : (s.advance due).weir = s.weir := rfl
@[simp] theorem State.advance_dltOut : (s.advance due).dltOut = s.dltOut := rfl
@[simp] theorem State.advance_dltQueue : (s.advance due).dltQueue = s.dltQueue := rfl
@[simp] theorem State.advance_stagger : (s.advance due).stagger = s.stagger := rfl
@[simp] theorem State.advance_tko : (s.advance due).tko = s.tko := rfl
@[simp] theorem State.advance_taken : (s.advance due).taken = s.taken := rfl
@[simp] theorem State.advance_peerSeen : (s.advance due).peerSeen = s.peerSeen := rfl
@[simp] theorem State.advance_peerAt : (s.advance due).peerAt = s.peerAt := rfl
@[simp] theorem State.advance_aliveOn : (s.advance due).aliveOn = s.aliveOn := rfl
@[simp] theorem State.advance_alive : (s.advance due).alive = s.alive := rfl
@[simp] theorem State.advance_aliveAt : (s.advance due).aliveAt = s.aliveAt := rfl
@[simp] theorem State.advance_instLow : (s.advance due).instLow = s.instLow := rfl
@[simp] theorem State.advance_startFetch : (s.advance due).startFetch = s.startFetch := rfl
@[simp] theorem State.advance_tmode : (s.advance due).tmode = s.tmode := rfl
@[simp] theorem State.advance_repair : (s.advance due).repair = s.repair := rfl
@[simp] theorem State.advance_guardResp : (s.advance due).guardResp = s.guardResp := rfl
@[simp] theorem State.advance_pmOut : (s.advance due).pmOut = s.pmOut := rfl
@[simp] theorem State.advance_pmHeld : (s.advance due).pmHeld = s.pmHeld := rfl
@[simp] theorem State.advance_saved : (s.advance due).saved = s.saved := rfl
@[simp] theorem State.advance_ckptAreas : (s.advance due).ckptAreas = s.ckptAreas := rfl
@[simp] theorem State.advance_imageSeq : (s.advance due).imageSeq = s.imageSeq := rfl
@[simp] theorem State.advance_katDue : (s.advance due).katDue = s.katDue := rfl
@[simp] theorem State.advance_window1ms : (s.advance due).window1ms = s.window1ms := rfl
@[simp] theorem State.advance_frac : (s.advance due).frac = s.frac := rfl
@[simp] theorem State.advance_free : (s.advance due).free = s.free := rfl
end

/-! ### modTask changes tasks alone -/

section
variable (s : State) (id : Nat) (g : Task → Task)
@[simp] theorem State.modTask_pending : (s.modTask id g).pending = s.pending := rfl
@[simp] theorem State.modTask_regs : (s.modTask id g).regs = s.regs := rfl
@[simp] theorem State.modTask_shadow : (s.modTask id g).shadow = s.shadow := rfl
@[simp] theorem State.modTask_captures : (s.modTask id g).captures = s.captures := rfl
@[simp] theorem State.modTask_resp : (s.modTask id g).resp = s.resp := rfl
@[simp] theorem State.modTask_heldCs : (s.modTask id g).heldCs = s.heldCs := rfl
@[simp] theorem State.modTask_life : (s.modTask id g).life = s.life := rfl
@[simp] theorem State.modTask_ready : (s.modTask id g).ready = s.ready := rfl
@[simp] theorem State.modTask_lastStart : (s.modTask id g).lastStart = s.lastStart := rfl
@[simp] theorem State.modTask_retainedOk : (s.modTask id g).retainedOk = s.retainedOk := rfl
@[simp] theorem State.modTask_testMode : (s.modTask id g).testMode = s.testMode := rfl
@[simp] theorem State.modTask_credits : (s.modTask id g).credits = s.credits := rfl
@[simp] theorem State.modTask_forme : (s.modTask id g).forme = s.forme := rfl
@[simp] theorem State.modTask_amends : (s.modTask id g).amends = s.amends := rfl
@[simp] theorem State.modTask_adm : (s.modTask id g).adm = s.adm := rfl
@[simp] theorem State.modTask_servers : (s.modTask id g).servers = s.servers := rfl
@[simp] theorem State.modTask_job : (s.modTask id g).job = s.job := rfl
@[simp] theorem State.modTask_retaining : (s.modTask id g).retaining = s.retaining := rfl
@[simp] theorem State.modTask_retained : (s.modTask id g).retained = s.retained := rfl
@[simp] theorem State.modTask_tens : (s.modTask id g).tens = s.tens := rfl
@[simp] theorem State.modTask_pushRot : (s.modTask id g).pushRot = s.pushRot := rfl
@[simp] theorem State.modTask_sqs : (s.modTask id g).sqs = s.sqs := rfl
@[simp] theorem State.modTask_cqs : (s.modTask id g).cqs = s.cqs := rfl
@[simp] theorem State.modTask_scanRot : (s.modTask id g).scanRot = s.scanRot := rfl
@[simp] theorem State.modTask_ports : (s.modTask id g).ports = s.ports := rfl
@[simp] theorem State.modTask_due : (s.modTask id g).due = s.due := rfl
@[simp] theorem State.modTask_nextTask : (s.modTask id g).nextTask = s.nextTask := rfl
@[simp] theorem State.modTask_flows : (s.modTask id g).flows = s.flows := rfl
@[simp] theorem State.modTask_groups : (s.modTask id g).groups = s.groups := rfl
@[simp] theorem State.modTask_batches : (s.modTask id g).batches = s.batches := rfl
@[simp] theorem State.modTask_nextBatch : (s.modTask id g).nextBatch = s.nextBatch := rfl
@[simp] theorem State.modTask_pools : (s.modTask id g).pools = s.pools := rfl
@[simp] theorem State.modTask_handles : (s.modTask id g).handles = s.handles := rfl
@[simp] theorem State.modTask_berths : (s.modTask id g).berths = s.berths := rfl
@[simp] theorem State.modTask_swapBusy : (s.modTask id g).swapBusy = s.swapBusy := rfl
@[simp] theorem State.modTask_swapQueue : (s.modTask id g).swapQueue = s.swapQueue := rfl
@[simp] theorem State.modTask_txns : (s.modTask id g).txns = s.txns := rfl
@[simp] theorem State.modTask_nextTag : (s.modTask id g).nextTag = s.nextTag := rfl
@[simp] theorem State.modTask_crcFails : (s.modTask id g).crcFails = s.crcFails := rfl
@[simp] theorem State.modTask_srcs : (s.modTask id g).srcs = s.srcs := rfl
@[simp] theorem State.modTask_raised : (s.modTask id g).raised = s.raised := rfl
@[simp] theorem State.modTask_fencedLanes : (s.modTask id g).fencedLanes = s.fencedLanes := rfl
@[simp] theorem State.modTask_fencedEngines : (s.modTask id g).fencedEngines = s.fencedEngines := rfl
@[simp] theorem State.modTask_fencedUnits : (s.modTask id g).fencedUnits = s.fencedUnits := rfl
@[simp] theorem State.modTask_lanesGood : (s.modTask id g).lanesGood = s.lanesGood := rfl
@[simp] theorem State.modTask_entropyGood : (s.modTask id g).entropyGood = s.entropyGood := rfl
@[simp] theorem State.modTask_selfFail : (s.modTask id g).selfFail = s.selfFail := rfl
@[simp] theorem State.modTask_time : (s.modTask id g).time = s.time := rfl
@[simp] theorem State.modTask_clk : (s.modTask id g).clk = s.clk := rfl
@[simp] theorem State.modTask_ptc : (s.modTask id g).ptc = s.ptc := rfl
@[simp] theorem State.modTask_weir : (s.modTask id g).weir = s.weir := rfl
@[simp] theorem State.modTask_dltOut : (s.modTask id g).dltOut = s.dltOut := rfl
@[simp] theorem State.modTask_dltQueue : (s.modTask id g).dltQueue = s.dltQueue := rfl
@[simp] theorem State.modTask_stagger : (s.modTask id g).stagger = s.stagger := rfl
@[simp] theorem State.modTask_tko : (s.modTask id g).tko = s.tko := rfl
@[simp] theorem State.modTask_taken : (s.modTask id g).taken = s.taken := rfl
@[simp] theorem State.modTask_peerSeen : (s.modTask id g).peerSeen = s.peerSeen := rfl
@[simp] theorem State.modTask_peerAt : (s.modTask id g).peerAt = s.peerAt := rfl
@[simp] theorem State.modTask_aliveOn : (s.modTask id g).aliveOn = s.aliveOn := rfl
@[simp] theorem State.modTask_alive : (s.modTask id g).alive = s.alive := rfl
@[simp] theorem State.modTask_aliveAt : (s.modTask id g).aliveAt = s.aliveAt := rfl
@[simp] theorem State.modTask_instLow : (s.modTask id g).instLow = s.instLow := rfl
@[simp] theorem State.modTask_startFetch : (s.modTask id g).startFetch = s.startFetch := rfl
@[simp] theorem State.modTask_tmode : (s.modTask id g).tmode = s.tmode := rfl
@[simp] theorem State.modTask_repair : (s.modTask id g).repair = s.repair := rfl
@[simp] theorem State.modTask_guardResp : (s.modTask id g).guardResp = s.guardResp := rfl
@[simp] theorem State.modTask_pmOut : (s.modTask id g).pmOut = s.pmOut := rfl
@[simp] theorem State.modTask_pmHeld : (s.modTask id g).pmHeld = s.pmHeld := rfl
@[simp] theorem State.modTask_saved : (s.modTask id g).saved = s.saved := rfl
@[simp] theorem State.modTask_ckptAreas : (s.modTask id g).ckptAreas = s.ckptAreas := rfl
@[simp] theorem State.modTask_imageSeq : (s.modTask id g).imageSeq = s.imageSeq := rfl
@[simp] theorem State.modTask_katDue : (s.modTask id g).katDue = s.katDue := rfl
@[simp] theorem State.modTask_window1ms : (s.modTask id g).window1ms = s.window1ms := rfl
@[simp] theorem State.modTask_frac : (s.modTask id g).frac = s.frac := rfl
@[simp] theorem State.modTask_free : (s.modTask id g).free = s.free := rfl
end

/-! ### modRun changes flows alone -/

section
variable (s : State) (f : Nat) (g : FlowRun → FlowRun)
@[simp] theorem State.modRun_pending : (s.modRun f g).pending = s.pending := rfl
@[simp] theorem State.modRun_regs : (s.modRun f g).regs = s.regs := rfl
@[simp] theorem State.modRun_shadow : (s.modRun f g).shadow = s.shadow := rfl
@[simp] theorem State.modRun_captures : (s.modRun f g).captures = s.captures := rfl
@[simp] theorem State.modRun_resp : (s.modRun f g).resp = s.resp := rfl
@[simp] theorem State.modRun_heldCs : (s.modRun f g).heldCs = s.heldCs := rfl
@[simp] theorem State.modRun_life : (s.modRun f g).life = s.life := rfl
@[simp] theorem State.modRun_ready : (s.modRun f g).ready = s.ready := rfl
@[simp] theorem State.modRun_lastStart : (s.modRun f g).lastStart = s.lastStart := rfl
@[simp] theorem State.modRun_retainedOk : (s.modRun f g).retainedOk = s.retainedOk := rfl
@[simp] theorem State.modRun_testMode : (s.modRun f g).testMode = s.testMode := rfl
@[simp] theorem State.modRun_credits : (s.modRun f g).credits = s.credits := rfl
@[simp] theorem State.modRun_forme : (s.modRun f g).forme = s.forme := rfl
@[simp] theorem State.modRun_amends : (s.modRun f g).amends = s.amends := rfl
@[simp] theorem State.modRun_adm : (s.modRun f g).adm = s.adm := rfl
@[simp] theorem State.modRun_servers : (s.modRun f g).servers = s.servers := rfl
@[simp] theorem State.modRun_job : (s.modRun f g).job = s.job := rfl
@[simp] theorem State.modRun_retaining : (s.modRun f g).retaining = s.retaining := rfl
@[simp] theorem State.modRun_retained : (s.modRun f g).retained = s.retained := rfl
@[simp] theorem State.modRun_tens : (s.modRun f g).tens = s.tens := rfl
@[simp] theorem State.modRun_pushRot : (s.modRun f g).pushRot = s.pushRot := rfl
@[simp] theorem State.modRun_sqs : (s.modRun f g).sqs = s.sqs := rfl
@[simp] theorem State.modRun_cqs : (s.modRun f g).cqs = s.cqs := rfl
@[simp] theorem State.modRun_scanRot : (s.modRun f g).scanRot = s.scanRot := rfl
@[simp] theorem State.modRun_ports : (s.modRun f g).ports = s.ports := rfl
@[simp] theorem State.modRun_due : (s.modRun f g).due = s.due := rfl
@[simp] theorem State.modRun_tasks : (s.modRun f g).tasks = s.tasks := rfl
@[simp] theorem State.modRun_nextTask : (s.modRun f g).nextTask = s.nextTask := rfl
@[simp] theorem State.modRun_groups : (s.modRun f g).groups = s.groups := rfl
@[simp] theorem State.modRun_batches : (s.modRun f g).batches = s.batches := rfl
@[simp] theorem State.modRun_nextBatch : (s.modRun f g).nextBatch = s.nextBatch := rfl
@[simp] theorem State.modRun_pools : (s.modRun f g).pools = s.pools := rfl
@[simp] theorem State.modRun_handles : (s.modRun f g).handles = s.handles := rfl
@[simp] theorem State.modRun_berths : (s.modRun f g).berths = s.berths := rfl
@[simp] theorem State.modRun_swapBusy : (s.modRun f g).swapBusy = s.swapBusy := rfl
@[simp] theorem State.modRun_swapQueue : (s.modRun f g).swapQueue = s.swapQueue := rfl
@[simp] theorem State.modRun_txns : (s.modRun f g).txns = s.txns := rfl
@[simp] theorem State.modRun_nextTag : (s.modRun f g).nextTag = s.nextTag := rfl
@[simp] theorem State.modRun_crcFails : (s.modRun f g).crcFails = s.crcFails := rfl
@[simp] theorem State.modRun_srcs : (s.modRun f g).srcs = s.srcs := rfl
@[simp] theorem State.modRun_raised : (s.modRun f g).raised = s.raised := rfl
@[simp] theorem State.modRun_fencedLanes : (s.modRun f g).fencedLanes = s.fencedLanes := rfl
@[simp] theorem State.modRun_fencedEngines : (s.modRun f g).fencedEngines = s.fencedEngines := rfl
@[simp] theorem State.modRun_fencedUnits : (s.modRun f g).fencedUnits = s.fencedUnits := rfl
@[simp] theorem State.modRun_lanesGood : (s.modRun f g).lanesGood = s.lanesGood := rfl
@[simp] theorem State.modRun_entropyGood : (s.modRun f g).entropyGood = s.entropyGood := rfl
@[simp] theorem State.modRun_selfFail : (s.modRun f g).selfFail = s.selfFail := rfl
@[simp] theorem State.modRun_time : (s.modRun f g).time = s.time := rfl
@[simp] theorem State.modRun_clk : (s.modRun f g).clk = s.clk := rfl
@[simp] theorem State.modRun_ptc : (s.modRun f g).ptc = s.ptc := rfl
@[simp] theorem State.modRun_weir : (s.modRun f g).weir = s.weir := rfl
@[simp] theorem State.modRun_dltOut : (s.modRun f g).dltOut = s.dltOut := rfl
@[simp] theorem State.modRun_dltQueue : (s.modRun f g).dltQueue = s.dltQueue := rfl
@[simp] theorem State.modRun_stagger : (s.modRun f g).stagger = s.stagger := rfl
@[simp] theorem State.modRun_tko : (s.modRun f g).tko = s.tko := rfl
@[simp] theorem State.modRun_taken : (s.modRun f g).taken = s.taken := rfl
@[simp] theorem State.modRun_peerSeen : (s.modRun f g).peerSeen = s.peerSeen := rfl
@[simp] theorem State.modRun_peerAt : (s.modRun f g).peerAt = s.peerAt := rfl
@[simp] theorem State.modRun_aliveOn : (s.modRun f g).aliveOn = s.aliveOn := rfl
@[simp] theorem State.modRun_alive : (s.modRun f g).alive = s.alive := rfl
@[simp] theorem State.modRun_aliveAt : (s.modRun f g).aliveAt = s.aliveAt := rfl
@[simp] theorem State.modRun_instLow : (s.modRun f g).instLow = s.instLow := rfl
@[simp] theorem State.modRun_startFetch : (s.modRun f g).startFetch = s.startFetch := rfl
@[simp] theorem State.modRun_tmode : (s.modRun f g).tmode = s.tmode := rfl
@[simp] theorem State.modRun_repair : (s.modRun f g).repair = s.repair := rfl
@[simp] theorem State.modRun_guardResp : (s.modRun f g).guardResp = s.guardResp := rfl
@[simp] theorem State.modRun_pmOut : (s.modRun f g).pmOut = s.pmOut := rfl
@[simp] theorem State.modRun_pmHeld : (s.modRun f g).pmHeld = s.pmHeld := rfl
@[simp] theorem State.modRun_saved : (s.modRun f g).saved = s.saved := rfl
@[simp] theorem State.modRun_ckptAreas : (s.modRun f g).ckptAreas = s.ckptAreas := rfl
@[simp] theorem State.modRun_imageSeq : (s.modRun f g).imageSeq = s.imageSeq := rfl
@[simp] theorem State.modRun_katDue : (s.modRun f g).katDue = s.katDue := rfl
@[simp] theorem State.modRun_window1ms : (s.modRun f g).window1ms = s.window1ms := rfl
@[simp] theorem State.modRun_frac : (s.modRun f g).frac = s.frac := rfl
@[simp] theorem State.modRun_free : (s.modRun f g).free = s.free := rfl
end

/-! ### modPort changes ports alone -/

section
variable (s : State) (p : Nat) (g : PortRun → PortRun)
@[simp] theorem State.modPort_pending : (s.modPort p g).pending = s.pending := rfl
@[simp] theorem State.modPort_regs : (s.modPort p g).regs = s.regs := rfl
@[simp] theorem State.modPort_shadow : (s.modPort p g).shadow = s.shadow := rfl
@[simp] theorem State.modPort_captures : (s.modPort p g).captures = s.captures := rfl
@[simp] theorem State.modPort_resp : (s.modPort p g).resp = s.resp := rfl
@[simp] theorem State.modPort_heldCs : (s.modPort p g).heldCs = s.heldCs := rfl
@[simp] theorem State.modPort_life : (s.modPort p g).life = s.life := rfl
@[simp] theorem State.modPort_ready : (s.modPort p g).ready = s.ready := rfl
@[simp] theorem State.modPort_lastStart : (s.modPort p g).lastStart = s.lastStart := rfl
@[simp] theorem State.modPort_retainedOk : (s.modPort p g).retainedOk = s.retainedOk := rfl
@[simp] theorem State.modPort_testMode : (s.modPort p g).testMode = s.testMode := rfl
@[simp] theorem State.modPort_credits : (s.modPort p g).credits = s.credits := rfl
@[simp] theorem State.modPort_forme : (s.modPort p g).forme = s.forme := rfl
@[simp] theorem State.modPort_amends : (s.modPort p g).amends = s.amends := rfl
@[simp] theorem State.modPort_adm : (s.modPort p g).adm = s.adm := rfl
@[simp] theorem State.modPort_servers : (s.modPort p g).servers = s.servers := rfl
@[simp] theorem State.modPort_job : (s.modPort p g).job = s.job := rfl
@[simp] theorem State.modPort_retaining : (s.modPort p g).retaining = s.retaining := rfl
@[simp] theorem State.modPort_retained : (s.modPort p g).retained = s.retained := rfl
@[simp] theorem State.modPort_tens : (s.modPort p g).tens = s.tens := rfl
@[simp] theorem State.modPort_pushRot : (s.modPort p g).pushRot = s.pushRot := rfl
@[simp] theorem State.modPort_sqs : (s.modPort p g).sqs = s.sqs := rfl
@[simp] theorem State.modPort_cqs : (s.modPort p g).cqs = s.cqs := rfl
@[simp] theorem State.modPort_scanRot : (s.modPort p g).scanRot = s.scanRot := rfl
@[simp] theorem State.modPort_due : (s.modPort p g).due = s.due := rfl
@[simp] theorem State.modPort_tasks : (s.modPort p g).tasks = s.tasks := rfl
@[simp] theorem State.modPort_nextTask : (s.modPort p g).nextTask = s.nextTask := rfl
@[simp] theorem State.modPort_flows : (s.modPort p g).flows = s.flows := rfl
@[simp] theorem State.modPort_groups : (s.modPort p g).groups = s.groups := rfl
@[simp] theorem State.modPort_batches : (s.modPort p g).batches = s.batches := rfl
@[simp] theorem State.modPort_nextBatch : (s.modPort p g).nextBatch = s.nextBatch := rfl
@[simp] theorem State.modPort_pools : (s.modPort p g).pools = s.pools := rfl
@[simp] theorem State.modPort_handles : (s.modPort p g).handles = s.handles := rfl
@[simp] theorem State.modPort_berths : (s.modPort p g).berths = s.berths := rfl
@[simp] theorem State.modPort_swapBusy : (s.modPort p g).swapBusy = s.swapBusy := rfl
@[simp] theorem State.modPort_swapQueue : (s.modPort p g).swapQueue = s.swapQueue := rfl
@[simp] theorem State.modPort_txns : (s.modPort p g).txns = s.txns := rfl
@[simp] theorem State.modPort_nextTag : (s.modPort p g).nextTag = s.nextTag := rfl
@[simp] theorem State.modPort_crcFails : (s.modPort p g).crcFails = s.crcFails := rfl
@[simp] theorem State.modPort_srcs : (s.modPort p g).srcs = s.srcs := rfl
@[simp] theorem State.modPort_raised : (s.modPort p g).raised = s.raised := rfl
@[simp] theorem State.modPort_fencedLanes : (s.modPort p g).fencedLanes = s.fencedLanes := rfl
@[simp] theorem State.modPort_fencedEngines : (s.modPort p g).fencedEngines = s.fencedEngines := rfl
@[simp] theorem State.modPort_fencedUnits : (s.modPort p g).fencedUnits = s.fencedUnits := rfl
@[simp] theorem State.modPort_lanesGood : (s.modPort p g).lanesGood = s.lanesGood := rfl
@[simp] theorem State.modPort_entropyGood : (s.modPort p g).entropyGood = s.entropyGood := rfl
@[simp] theorem State.modPort_selfFail : (s.modPort p g).selfFail = s.selfFail := rfl
@[simp] theorem State.modPort_time : (s.modPort p g).time = s.time := rfl
@[simp] theorem State.modPort_clk : (s.modPort p g).clk = s.clk := rfl
@[simp] theorem State.modPort_ptc : (s.modPort p g).ptc = s.ptc := rfl
@[simp] theorem State.modPort_weir : (s.modPort p g).weir = s.weir := rfl
@[simp] theorem State.modPort_dltOut : (s.modPort p g).dltOut = s.dltOut := rfl
@[simp] theorem State.modPort_dltQueue : (s.modPort p g).dltQueue = s.dltQueue := rfl
@[simp] theorem State.modPort_stagger : (s.modPort p g).stagger = s.stagger := rfl
@[simp] theorem State.modPort_tko : (s.modPort p g).tko = s.tko := rfl
@[simp] theorem State.modPort_taken : (s.modPort p g).taken = s.taken := rfl
@[simp] theorem State.modPort_peerSeen : (s.modPort p g).peerSeen = s.peerSeen := rfl
@[simp] theorem State.modPort_peerAt : (s.modPort p g).peerAt = s.peerAt := rfl
@[simp] theorem State.modPort_aliveOn : (s.modPort p g).aliveOn = s.aliveOn := rfl
@[simp] theorem State.modPort_alive : (s.modPort p g).alive = s.alive := rfl
@[simp] theorem State.modPort_aliveAt : (s.modPort p g).aliveAt = s.aliveAt := rfl
@[simp] theorem State.modPort_instLow : (s.modPort p g).instLow = s.instLow := rfl
@[simp] theorem State.modPort_startFetch : (s.modPort p g).startFetch = s.startFetch := rfl
@[simp] theorem State.modPort_tmode : (s.modPort p g).tmode = s.tmode := rfl
@[simp] theorem State.modPort_repair : (s.modPort p g).repair = s.repair := rfl
@[simp] theorem State.modPort_guardResp : (s.modPort p g).guardResp = s.guardResp := rfl
@[simp] theorem State.modPort_pmOut : (s.modPort p g).pmOut = s.pmOut := rfl
@[simp] theorem State.modPort_pmHeld : (s.modPort p g).pmHeld = s.pmHeld := rfl
@[simp] theorem State.modPort_saved : (s.modPort p g).saved = s.saved := rfl
@[simp] theorem State.modPort_ckptAreas : (s.modPort p g).ckptAreas = s.ckptAreas := rfl
@[simp] theorem State.modPort_imageSeq : (s.modPort p g).imageSeq = s.imageSeq := rfl
@[simp] theorem State.modPort_katDue : (s.modPort p g).katDue = s.katDue := rfl
@[simp] theorem State.modPort_window1ms : (s.modPort p g).window1ms = s.window1ms := rfl
@[simp] theorem State.modPort_frac : (s.modPort p g).frac = s.frac := rfl
@[simp] theorem State.modPort_free : (s.modPort p g).free = s.free := rfl
end

/-! ### modSq changes sqs alone -/

section
variable (s : State) (q : Nat) (g : SqRing → SqRing)
@[simp] theorem State.modSq_pending : (s.modSq q g).pending = s.pending := rfl
@[simp] theorem State.modSq_regs : (s.modSq q g).regs = s.regs := rfl
@[simp] theorem State.modSq_shadow : (s.modSq q g).shadow = s.shadow := rfl
@[simp] theorem State.modSq_captures : (s.modSq q g).captures = s.captures := rfl
@[simp] theorem State.modSq_resp : (s.modSq q g).resp = s.resp := rfl
@[simp] theorem State.modSq_heldCs : (s.modSq q g).heldCs = s.heldCs := rfl
@[simp] theorem State.modSq_life : (s.modSq q g).life = s.life := rfl
@[simp] theorem State.modSq_ready : (s.modSq q g).ready = s.ready := rfl
@[simp] theorem State.modSq_lastStart : (s.modSq q g).lastStart = s.lastStart := rfl
@[simp] theorem State.modSq_retainedOk : (s.modSq q g).retainedOk = s.retainedOk := rfl
@[simp] theorem State.modSq_testMode : (s.modSq q g).testMode = s.testMode := rfl
@[simp] theorem State.modSq_credits : (s.modSq q g).credits = s.credits := rfl
@[simp] theorem State.modSq_forme : (s.modSq q g).forme = s.forme := rfl
@[simp] theorem State.modSq_amends : (s.modSq q g).amends = s.amends := rfl
@[simp] theorem State.modSq_adm : (s.modSq q g).adm = s.adm := rfl
@[simp] theorem State.modSq_servers : (s.modSq q g).servers = s.servers := rfl
@[simp] theorem State.modSq_job : (s.modSq q g).job = s.job := rfl
@[simp] theorem State.modSq_retaining : (s.modSq q g).retaining = s.retaining := rfl
@[simp] theorem State.modSq_retained : (s.modSq q g).retained = s.retained := rfl
@[simp] theorem State.modSq_tens : (s.modSq q g).tens = s.tens := rfl
@[simp] theorem State.modSq_pushRot : (s.modSq q g).pushRot = s.pushRot := rfl
@[simp] theorem State.modSq_cqs : (s.modSq q g).cqs = s.cqs := rfl
@[simp] theorem State.modSq_scanRot : (s.modSq q g).scanRot = s.scanRot := rfl
@[simp] theorem State.modSq_ports : (s.modSq q g).ports = s.ports := rfl
@[simp] theorem State.modSq_due : (s.modSq q g).due = s.due := rfl
@[simp] theorem State.modSq_tasks : (s.modSq q g).tasks = s.tasks := rfl
@[simp] theorem State.modSq_nextTask : (s.modSq q g).nextTask = s.nextTask := rfl
@[simp] theorem State.modSq_flows : (s.modSq q g).flows = s.flows := rfl
@[simp] theorem State.modSq_groups : (s.modSq q g).groups = s.groups := rfl
@[simp] theorem State.modSq_batches : (s.modSq q g).batches = s.batches := rfl
@[simp] theorem State.modSq_nextBatch : (s.modSq q g).nextBatch = s.nextBatch := rfl
@[simp] theorem State.modSq_pools : (s.modSq q g).pools = s.pools := rfl
@[simp] theorem State.modSq_handles : (s.modSq q g).handles = s.handles := rfl
@[simp] theorem State.modSq_berths : (s.modSq q g).berths = s.berths := rfl
@[simp] theorem State.modSq_swapBusy : (s.modSq q g).swapBusy = s.swapBusy := rfl
@[simp] theorem State.modSq_swapQueue : (s.modSq q g).swapQueue = s.swapQueue := rfl
@[simp] theorem State.modSq_txns : (s.modSq q g).txns = s.txns := rfl
@[simp] theorem State.modSq_nextTag : (s.modSq q g).nextTag = s.nextTag := rfl
@[simp] theorem State.modSq_crcFails : (s.modSq q g).crcFails = s.crcFails := rfl
@[simp] theorem State.modSq_srcs : (s.modSq q g).srcs = s.srcs := rfl
@[simp] theorem State.modSq_raised : (s.modSq q g).raised = s.raised := rfl
@[simp] theorem State.modSq_fencedLanes : (s.modSq q g).fencedLanes = s.fencedLanes := rfl
@[simp] theorem State.modSq_fencedEngines : (s.modSq q g).fencedEngines = s.fencedEngines := rfl
@[simp] theorem State.modSq_fencedUnits : (s.modSq q g).fencedUnits = s.fencedUnits := rfl
@[simp] theorem State.modSq_lanesGood : (s.modSq q g).lanesGood = s.lanesGood := rfl
@[simp] theorem State.modSq_entropyGood : (s.modSq q g).entropyGood = s.entropyGood := rfl
@[simp] theorem State.modSq_selfFail : (s.modSq q g).selfFail = s.selfFail := rfl
@[simp] theorem State.modSq_time : (s.modSq q g).time = s.time := rfl
@[simp] theorem State.modSq_clk : (s.modSq q g).clk = s.clk := rfl
@[simp] theorem State.modSq_ptc : (s.modSq q g).ptc = s.ptc := rfl
@[simp] theorem State.modSq_weir : (s.modSq q g).weir = s.weir := rfl
@[simp] theorem State.modSq_dltOut : (s.modSq q g).dltOut = s.dltOut := rfl
@[simp] theorem State.modSq_dltQueue : (s.modSq q g).dltQueue = s.dltQueue := rfl
@[simp] theorem State.modSq_stagger : (s.modSq q g).stagger = s.stagger := rfl
@[simp] theorem State.modSq_tko : (s.modSq q g).tko = s.tko := rfl
@[simp] theorem State.modSq_taken : (s.modSq q g).taken = s.taken := rfl
@[simp] theorem State.modSq_peerSeen : (s.modSq q g).peerSeen = s.peerSeen := rfl
@[simp] theorem State.modSq_peerAt : (s.modSq q g).peerAt = s.peerAt := rfl
@[simp] theorem State.modSq_aliveOn : (s.modSq q g).aliveOn = s.aliveOn := rfl
@[simp] theorem State.modSq_alive : (s.modSq q g).alive = s.alive := rfl
@[simp] theorem State.modSq_aliveAt : (s.modSq q g).aliveAt = s.aliveAt := rfl
@[simp] theorem State.modSq_instLow : (s.modSq q g).instLow = s.instLow := rfl
@[simp] theorem State.modSq_startFetch : (s.modSq q g).startFetch = s.startFetch := rfl
@[simp] theorem State.modSq_tmode : (s.modSq q g).tmode = s.tmode := rfl
@[simp] theorem State.modSq_repair : (s.modSq q g).repair = s.repair := rfl
@[simp] theorem State.modSq_guardResp : (s.modSq q g).guardResp = s.guardResp := rfl
@[simp] theorem State.modSq_pmOut : (s.modSq q g).pmOut = s.pmOut := rfl
@[simp] theorem State.modSq_pmHeld : (s.modSq q g).pmHeld = s.pmHeld := rfl
@[simp] theorem State.modSq_saved : (s.modSq q g).saved = s.saved := rfl
@[simp] theorem State.modSq_ckptAreas : (s.modSq q g).ckptAreas = s.ckptAreas := rfl
@[simp] theorem State.modSq_imageSeq : (s.modSq q g).imageSeq = s.imageSeq := rfl
@[simp] theorem State.modSq_katDue : (s.modSq q g).katDue = s.katDue := rfl
@[simp] theorem State.modSq_window1ms : (s.modSq q g).window1ms = s.window1ms := rfl
@[simp] theorem State.modSq_frac : (s.modSq q g).frac = s.frac := rfl
@[simp] theorem State.modSq_free : (s.modSq q g).free = s.free := rfl
end

/-! ### modCq changes cqs alone -/

section
variable (s : State) (q : Nat) (g : CqRing → CqRing)
@[simp] theorem State.modCq_pending : (s.modCq q g).pending = s.pending := rfl
@[simp] theorem State.modCq_regs : (s.modCq q g).regs = s.regs := rfl
@[simp] theorem State.modCq_shadow : (s.modCq q g).shadow = s.shadow := rfl
@[simp] theorem State.modCq_captures : (s.modCq q g).captures = s.captures := rfl
@[simp] theorem State.modCq_resp : (s.modCq q g).resp = s.resp := rfl
@[simp] theorem State.modCq_heldCs : (s.modCq q g).heldCs = s.heldCs := rfl
@[simp] theorem State.modCq_life : (s.modCq q g).life = s.life := rfl
@[simp] theorem State.modCq_ready : (s.modCq q g).ready = s.ready := rfl
@[simp] theorem State.modCq_lastStart : (s.modCq q g).lastStart = s.lastStart := rfl
@[simp] theorem State.modCq_retainedOk : (s.modCq q g).retainedOk = s.retainedOk := rfl
@[simp] theorem State.modCq_testMode : (s.modCq q g).testMode = s.testMode := rfl
@[simp] theorem State.modCq_credits : (s.modCq q g).credits = s.credits := rfl
@[simp] theorem State.modCq_forme : (s.modCq q g).forme = s.forme := rfl
@[simp] theorem State.modCq_amends : (s.modCq q g).amends = s.amends := rfl
@[simp] theorem State.modCq_adm : (s.modCq q g).adm = s.adm := rfl
@[simp] theorem State.modCq_servers : (s.modCq q g).servers = s.servers := rfl
@[simp] theorem State.modCq_job : (s.modCq q g).job = s.job := rfl
@[simp] theorem State.modCq_retaining : (s.modCq q g).retaining = s.retaining := rfl
@[simp] theorem State.modCq_retained : (s.modCq q g).retained = s.retained := rfl
@[simp] theorem State.modCq_tens : (s.modCq q g).tens = s.tens := rfl
@[simp] theorem State.modCq_pushRot : (s.modCq q g).pushRot = s.pushRot := rfl
@[simp] theorem State.modCq_sqs : (s.modCq q g).sqs = s.sqs := rfl
@[simp] theorem State.modCq_scanRot : (s.modCq q g).scanRot = s.scanRot := rfl
@[simp] theorem State.modCq_ports : (s.modCq q g).ports = s.ports := rfl
@[simp] theorem State.modCq_due : (s.modCq q g).due = s.due := rfl
@[simp] theorem State.modCq_tasks : (s.modCq q g).tasks = s.tasks := rfl
@[simp] theorem State.modCq_nextTask : (s.modCq q g).nextTask = s.nextTask := rfl
@[simp] theorem State.modCq_flows : (s.modCq q g).flows = s.flows := rfl
@[simp] theorem State.modCq_groups : (s.modCq q g).groups = s.groups := rfl
@[simp] theorem State.modCq_batches : (s.modCq q g).batches = s.batches := rfl
@[simp] theorem State.modCq_nextBatch : (s.modCq q g).nextBatch = s.nextBatch := rfl
@[simp] theorem State.modCq_pools : (s.modCq q g).pools = s.pools := rfl
@[simp] theorem State.modCq_handles : (s.modCq q g).handles = s.handles := rfl
@[simp] theorem State.modCq_berths : (s.modCq q g).berths = s.berths := rfl
@[simp] theorem State.modCq_swapBusy : (s.modCq q g).swapBusy = s.swapBusy := rfl
@[simp] theorem State.modCq_swapQueue : (s.modCq q g).swapQueue = s.swapQueue := rfl
@[simp] theorem State.modCq_txns : (s.modCq q g).txns = s.txns := rfl
@[simp] theorem State.modCq_nextTag : (s.modCq q g).nextTag = s.nextTag := rfl
@[simp] theorem State.modCq_crcFails : (s.modCq q g).crcFails = s.crcFails := rfl
@[simp] theorem State.modCq_srcs : (s.modCq q g).srcs = s.srcs := rfl
@[simp] theorem State.modCq_raised : (s.modCq q g).raised = s.raised := rfl
@[simp] theorem State.modCq_fencedLanes : (s.modCq q g).fencedLanes = s.fencedLanes := rfl
@[simp] theorem State.modCq_fencedEngines : (s.modCq q g).fencedEngines = s.fencedEngines := rfl
@[simp] theorem State.modCq_fencedUnits : (s.modCq q g).fencedUnits = s.fencedUnits := rfl
@[simp] theorem State.modCq_lanesGood : (s.modCq q g).lanesGood = s.lanesGood := rfl
@[simp] theorem State.modCq_entropyGood : (s.modCq q g).entropyGood = s.entropyGood := rfl
@[simp] theorem State.modCq_selfFail : (s.modCq q g).selfFail = s.selfFail := rfl
@[simp] theorem State.modCq_time : (s.modCq q g).time = s.time := rfl
@[simp] theorem State.modCq_clk : (s.modCq q g).clk = s.clk := rfl
@[simp] theorem State.modCq_ptc : (s.modCq q g).ptc = s.ptc := rfl
@[simp] theorem State.modCq_weir : (s.modCq q g).weir = s.weir := rfl
@[simp] theorem State.modCq_dltOut : (s.modCq q g).dltOut = s.dltOut := rfl
@[simp] theorem State.modCq_dltQueue : (s.modCq q g).dltQueue = s.dltQueue := rfl
@[simp] theorem State.modCq_stagger : (s.modCq q g).stagger = s.stagger := rfl
@[simp] theorem State.modCq_tko : (s.modCq q g).tko = s.tko := rfl
@[simp] theorem State.modCq_taken : (s.modCq q g).taken = s.taken := rfl
@[simp] theorem State.modCq_peerSeen : (s.modCq q g).peerSeen = s.peerSeen := rfl
@[simp] theorem State.modCq_peerAt : (s.modCq q g).peerAt = s.peerAt := rfl
@[simp] theorem State.modCq_aliveOn : (s.modCq q g).aliveOn = s.aliveOn := rfl
@[simp] theorem State.modCq_alive : (s.modCq q g).alive = s.alive := rfl
@[simp] theorem State.modCq_aliveAt : (s.modCq q g).aliveAt = s.aliveAt := rfl
@[simp] theorem State.modCq_instLow : (s.modCq q g).instLow = s.instLow := rfl
@[simp] theorem State.modCq_startFetch : (s.modCq q g).startFetch = s.startFetch := rfl
@[simp] theorem State.modCq_tmode : (s.modCq q g).tmode = s.tmode := rfl
@[simp] theorem State.modCq_repair : (s.modCq q g).repair = s.repair := rfl
@[simp] theorem State.modCq_guardResp : (s.modCq q g).guardResp = s.guardResp := rfl
@[simp] theorem State.modCq_pmOut : (s.modCq q g).pmOut = s.pmOut := rfl
@[simp] theorem State.modCq_pmHeld : (s.modCq q g).pmHeld = s.pmHeld := rfl
@[simp] theorem State.modCq_saved : (s.modCq q g).saved = s.saved := rfl
@[simp] theorem State.modCq_ckptAreas : (s.modCq q g).ckptAreas = s.ckptAreas := rfl
@[simp] theorem State.modCq_imageSeq : (s.modCq q g).imageSeq = s.imageSeq := rfl
@[simp] theorem State.modCq_katDue : (s.modCq q g).katDue = s.katDue := rfl
@[simp] theorem State.modCq_window1ms : (s.modCq q g).window1ms = s.window1ms := rfl
@[simp] theorem State.modCq_frac : (s.modCq q g).frac = s.frac := rfl
@[simp] theorem State.modCq_free : (s.modCq q g).free = s.free := rfl
end

/-! ### modPtc changes ptc alone -/

section
variable (s : State) (g : PtcRun → PtcRun)
@[simp] theorem State.modPtc_pending : (s.modPtc g).pending = s.pending := rfl
@[simp] theorem State.modPtc_regs : (s.modPtc g).regs = s.regs := rfl
@[simp] theorem State.modPtc_shadow : (s.modPtc g).shadow = s.shadow := rfl
@[simp] theorem State.modPtc_captures : (s.modPtc g).captures = s.captures := rfl
@[simp] theorem State.modPtc_resp : (s.modPtc g).resp = s.resp := rfl
@[simp] theorem State.modPtc_heldCs : (s.modPtc g).heldCs = s.heldCs := rfl
@[simp] theorem State.modPtc_life : (s.modPtc g).life = s.life := rfl
@[simp] theorem State.modPtc_ready : (s.modPtc g).ready = s.ready := rfl
@[simp] theorem State.modPtc_lastStart : (s.modPtc g).lastStart = s.lastStart := rfl
@[simp] theorem State.modPtc_retainedOk : (s.modPtc g).retainedOk = s.retainedOk := rfl
@[simp] theorem State.modPtc_testMode : (s.modPtc g).testMode = s.testMode := rfl
@[simp] theorem State.modPtc_credits : (s.modPtc g).credits = s.credits := rfl
@[simp] theorem State.modPtc_forme : (s.modPtc g).forme = s.forme := rfl
@[simp] theorem State.modPtc_amends : (s.modPtc g).amends = s.amends := rfl
@[simp] theorem State.modPtc_adm : (s.modPtc g).adm = s.adm := rfl
@[simp] theorem State.modPtc_servers : (s.modPtc g).servers = s.servers := rfl
@[simp] theorem State.modPtc_job : (s.modPtc g).job = s.job := rfl
@[simp] theorem State.modPtc_retaining : (s.modPtc g).retaining = s.retaining := rfl
@[simp] theorem State.modPtc_retained : (s.modPtc g).retained = s.retained := rfl
@[simp] theorem State.modPtc_tens : (s.modPtc g).tens = s.tens := rfl
@[simp] theorem State.modPtc_pushRot : (s.modPtc g).pushRot = s.pushRot := rfl
@[simp] theorem State.modPtc_sqs : (s.modPtc g).sqs = s.sqs := rfl
@[simp] theorem State.modPtc_cqs : (s.modPtc g).cqs = s.cqs := rfl
@[simp] theorem State.modPtc_scanRot : (s.modPtc g).scanRot = s.scanRot := rfl
@[simp] theorem State.modPtc_ports : (s.modPtc g).ports = s.ports := rfl
@[simp] theorem State.modPtc_due : (s.modPtc g).due = s.due := rfl
@[simp] theorem State.modPtc_tasks : (s.modPtc g).tasks = s.tasks := rfl
@[simp] theorem State.modPtc_nextTask : (s.modPtc g).nextTask = s.nextTask := rfl
@[simp] theorem State.modPtc_flows : (s.modPtc g).flows = s.flows := rfl
@[simp] theorem State.modPtc_groups : (s.modPtc g).groups = s.groups := rfl
@[simp] theorem State.modPtc_batches : (s.modPtc g).batches = s.batches := rfl
@[simp] theorem State.modPtc_nextBatch : (s.modPtc g).nextBatch = s.nextBatch := rfl
@[simp] theorem State.modPtc_pools : (s.modPtc g).pools = s.pools := rfl
@[simp] theorem State.modPtc_handles : (s.modPtc g).handles = s.handles := rfl
@[simp] theorem State.modPtc_berths : (s.modPtc g).berths = s.berths := rfl
@[simp] theorem State.modPtc_swapBusy : (s.modPtc g).swapBusy = s.swapBusy := rfl
@[simp] theorem State.modPtc_swapQueue : (s.modPtc g).swapQueue = s.swapQueue := rfl
@[simp] theorem State.modPtc_txns : (s.modPtc g).txns = s.txns := rfl
@[simp] theorem State.modPtc_nextTag : (s.modPtc g).nextTag = s.nextTag := rfl
@[simp] theorem State.modPtc_crcFails : (s.modPtc g).crcFails = s.crcFails := rfl
@[simp] theorem State.modPtc_srcs : (s.modPtc g).srcs = s.srcs := rfl
@[simp] theorem State.modPtc_raised : (s.modPtc g).raised = s.raised := rfl
@[simp] theorem State.modPtc_fencedLanes : (s.modPtc g).fencedLanes = s.fencedLanes := rfl
@[simp] theorem State.modPtc_fencedEngines : (s.modPtc g).fencedEngines = s.fencedEngines := rfl
@[simp] theorem State.modPtc_fencedUnits : (s.modPtc g).fencedUnits = s.fencedUnits := rfl
@[simp] theorem State.modPtc_lanesGood : (s.modPtc g).lanesGood = s.lanesGood := rfl
@[simp] theorem State.modPtc_entropyGood : (s.modPtc g).entropyGood = s.entropyGood := rfl
@[simp] theorem State.modPtc_selfFail : (s.modPtc g).selfFail = s.selfFail := rfl
@[simp] theorem State.modPtc_time : (s.modPtc g).time = s.time := rfl
@[simp] theorem State.modPtc_clk : (s.modPtc g).clk = s.clk := rfl
@[simp] theorem State.modPtc_weir : (s.modPtc g).weir = s.weir := rfl
@[simp] theorem State.modPtc_dltOut : (s.modPtc g).dltOut = s.dltOut := rfl
@[simp] theorem State.modPtc_dltQueue : (s.modPtc g).dltQueue = s.dltQueue := rfl
@[simp] theorem State.modPtc_stagger : (s.modPtc g).stagger = s.stagger := rfl
@[simp] theorem State.modPtc_tko : (s.modPtc g).tko = s.tko := rfl
@[simp] theorem State.modPtc_taken : (s.modPtc g).taken = s.taken := rfl
@[simp] theorem State.modPtc_peerSeen : (s.modPtc g).peerSeen = s.peerSeen := rfl
@[simp] theorem State.modPtc_peerAt : (s.modPtc g).peerAt = s.peerAt := rfl
@[simp] theorem State.modPtc_aliveOn : (s.modPtc g).aliveOn = s.aliveOn := rfl
@[simp] theorem State.modPtc_alive : (s.modPtc g).alive = s.alive := rfl
@[simp] theorem State.modPtc_aliveAt : (s.modPtc g).aliveAt = s.aliveAt := rfl
@[simp] theorem State.modPtc_instLow : (s.modPtc g).instLow = s.instLow := rfl
@[simp] theorem State.modPtc_startFetch : (s.modPtc g).startFetch = s.startFetch := rfl
@[simp] theorem State.modPtc_tmode : (s.modPtc g).tmode = s.tmode := rfl
@[simp] theorem State.modPtc_repair : (s.modPtc g).repair = s.repair := rfl
@[simp] theorem State.modPtc_guardResp : (s.modPtc g).guardResp = s.guardResp := rfl
@[simp] theorem State.modPtc_pmOut : (s.modPtc g).pmOut = s.pmOut := rfl
@[simp] theorem State.modPtc_pmHeld : (s.modPtc g).pmHeld = s.pmHeld := rfl
@[simp] theorem State.modPtc_saved : (s.modPtc g).saved = s.saved := rfl
@[simp] theorem State.modPtc_ckptAreas : (s.modPtc g).ckptAreas = s.ckptAreas := rfl
@[simp] theorem State.modPtc_imageSeq : (s.modPtc g).imageSeq = s.imageSeq := rfl
@[simp] theorem State.modPtc_katDue : (s.modPtc g).katDue = s.katDue := rfl
@[simp] theorem State.modPtc_window1ms : (s.modPtc g).window1ms = s.window1ms := rfl
@[simp] theorem State.modPtc_frac : (s.modPtc g).frac = s.frac := rfl
@[simp] theorem State.modPtc_free : (s.modPtc g).free = s.free := rfl
end

/-! ### modTen changes tens alone -/

section
variable (s : State) (t : Nat) (g : TenRun → TenRun)
@[simp] theorem State.modTen_pending : (s.modTen t g).pending = s.pending := rfl
@[simp] theorem State.modTen_regs : (s.modTen t g).regs = s.regs := rfl
@[simp] theorem State.modTen_shadow : (s.modTen t g).shadow = s.shadow := rfl
@[simp] theorem State.modTen_captures : (s.modTen t g).captures = s.captures := rfl
@[simp] theorem State.modTen_resp : (s.modTen t g).resp = s.resp := rfl
@[simp] theorem State.modTen_heldCs : (s.modTen t g).heldCs = s.heldCs := rfl
@[simp] theorem State.modTen_life : (s.modTen t g).life = s.life := rfl
@[simp] theorem State.modTen_ready : (s.modTen t g).ready = s.ready := rfl
@[simp] theorem State.modTen_lastStart : (s.modTen t g).lastStart = s.lastStart := rfl
@[simp] theorem State.modTen_retainedOk : (s.modTen t g).retainedOk = s.retainedOk := rfl
@[simp] theorem State.modTen_testMode : (s.modTen t g).testMode = s.testMode := rfl
@[simp] theorem State.modTen_credits : (s.modTen t g).credits = s.credits := rfl
@[simp] theorem State.modTen_forme : (s.modTen t g).forme = s.forme := rfl
@[simp] theorem State.modTen_amends : (s.modTen t g).amends = s.amends := rfl
@[simp] theorem State.modTen_adm : (s.modTen t g).adm = s.adm := rfl
@[simp] theorem State.modTen_servers : (s.modTen t g).servers = s.servers := rfl
@[simp] theorem State.modTen_job : (s.modTen t g).job = s.job := rfl
@[simp] theorem State.modTen_retaining : (s.modTen t g).retaining = s.retaining := rfl
@[simp] theorem State.modTen_retained : (s.modTen t g).retained = s.retained := rfl
@[simp] theorem State.modTen_pushRot : (s.modTen t g).pushRot = s.pushRot := rfl
@[simp] theorem State.modTen_sqs : (s.modTen t g).sqs = s.sqs := rfl
@[simp] theorem State.modTen_cqs : (s.modTen t g).cqs = s.cqs := rfl
@[simp] theorem State.modTen_scanRot : (s.modTen t g).scanRot = s.scanRot := rfl
@[simp] theorem State.modTen_ports : (s.modTen t g).ports = s.ports := rfl
@[simp] theorem State.modTen_due : (s.modTen t g).due = s.due := rfl
@[simp] theorem State.modTen_tasks : (s.modTen t g).tasks = s.tasks := rfl
@[simp] theorem State.modTen_nextTask : (s.modTen t g).nextTask = s.nextTask := rfl
@[simp] theorem State.modTen_flows : (s.modTen t g).flows = s.flows := rfl
@[simp] theorem State.modTen_groups : (s.modTen t g).groups = s.groups := rfl
@[simp] theorem State.modTen_batches : (s.modTen t g).batches = s.batches := rfl
@[simp] theorem State.modTen_nextBatch : (s.modTen t g).nextBatch = s.nextBatch := rfl
@[simp] theorem State.modTen_pools : (s.modTen t g).pools = s.pools := rfl
@[simp] theorem State.modTen_handles : (s.modTen t g).handles = s.handles := rfl
@[simp] theorem State.modTen_berths : (s.modTen t g).berths = s.berths := rfl
@[simp] theorem State.modTen_swapBusy : (s.modTen t g).swapBusy = s.swapBusy := rfl
@[simp] theorem State.modTen_swapQueue : (s.modTen t g).swapQueue = s.swapQueue := rfl
@[simp] theorem State.modTen_txns : (s.modTen t g).txns = s.txns := rfl
@[simp] theorem State.modTen_nextTag : (s.modTen t g).nextTag = s.nextTag := rfl
@[simp] theorem State.modTen_crcFails : (s.modTen t g).crcFails = s.crcFails := rfl
@[simp] theorem State.modTen_srcs : (s.modTen t g).srcs = s.srcs := rfl
@[simp] theorem State.modTen_raised : (s.modTen t g).raised = s.raised := rfl
@[simp] theorem State.modTen_fencedLanes : (s.modTen t g).fencedLanes = s.fencedLanes := rfl
@[simp] theorem State.modTen_fencedEngines : (s.modTen t g).fencedEngines = s.fencedEngines := rfl
@[simp] theorem State.modTen_fencedUnits : (s.modTen t g).fencedUnits = s.fencedUnits := rfl
@[simp] theorem State.modTen_lanesGood : (s.modTen t g).lanesGood = s.lanesGood := rfl
@[simp] theorem State.modTen_entropyGood : (s.modTen t g).entropyGood = s.entropyGood := rfl
@[simp] theorem State.modTen_selfFail : (s.modTen t g).selfFail = s.selfFail := rfl
@[simp] theorem State.modTen_time : (s.modTen t g).time = s.time := rfl
@[simp] theorem State.modTen_clk : (s.modTen t g).clk = s.clk := rfl
@[simp] theorem State.modTen_ptc : (s.modTen t g).ptc = s.ptc := rfl
@[simp] theorem State.modTen_weir : (s.modTen t g).weir = s.weir := rfl
@[simp] theorem State.modTen_dltOut : (s.modTen t g).dltOut = s.dltOut := rfl
@[simp] theorem State.modTen_dltQueue : (s.modTen t g).dltQueue = s.dltQueue := rfl
@[simp] theorem State.modTen_stagger : (s.modTen t g).stagger = s.stagger := rfl
@[simp] theorem State.modTen_tko : (s.modTen t g).tko = s.tko := rfl
@[simp] theorem State.modTen_taken : (s.modTen t g).taken = s.taken := rfl
@[simp] theorem State.modTen_peerSeen : (s.modTen t g).peerSeen = s.peerSeen := rfl
@[simp] theorem State.modTen_peerAt : (s.modTen t g).peerAt = s.peerAt := rfl
@[simp] theorem State.modTen_aliveOn : (s.modTen t g).aliveOn = s.aliveOn := rfl
@[simp] theorem State.modTen_alive : (s.modTen t g).alive = s.alive := rfl
@[simp] theorem State.modTen_aliveAt : (s.modTen t g).aliveAt = s.aliveAt := rfl
@[simp] theorem State.modTen_instLow : (s.modTen t g).instLow = s.instLow := rfl
@[simp] theorem State.modTen_startFetch : (s.modTen t g).startFetch = s.startFetch := rfl
@[simp] theorem State.modTen_tmode : (s.modTen t g).tmode = s.tmode := rfl
@[simp] theorem State.modTen_repair : (s.modTen t g).repair = s.repair := rfl
@[simp] theorem State.modTen_guardResp : (s.modTen t g).guardResp = s.guardResp := rfl
@[simp] theorem State.modTen_pmOut : (s.modTen t g).pmOut = s.pmOut := rfl
@[simp] theorem State.modTen_pmHeld : (s.modTen t g).pmHeld = s.pmHeld := rfl
@[simp] theorem State.modTen_saved : (s.modTen t g).saved = s.saved := rfl
@[simp] theorem State.modTen_ckptAreas : (s.modTen t g).ckptAreas = s.ckptAreas := rfl
@[simp] theorem State.modTen_imageSeq : (s.modTen t g).imageSeq = s.imageSeq := rfl
@[simp] theorem State.modTen_katDue : (s.modTen t g).katDue = s.katDue := rfl
@[simp] theorem State.modTen_window1ms : (s.modTen t g).window1ms = s.window1ms := rfl
@[simp] theorem State.modTen_frac : (s.modTen t g).frac = s.frac := rfl
@[simp] theorem State.modTen_free : (s.modTen t g).free = s.free := rfl
end

/-! ### Register and transaction operations -/

/-- Adding to a counter changes the registers alone. -/
theorem State.addFld_eq (s : State) (f : Field) (n : Nat) : ∃ q, s.addFld f n = { s with regs := q } := ⟨_, rfl⟩

theorem State.incFld_eq (s : State) (f : Field) : ∃ q, s.incFld f = { s with regs := q } := ⟨_, rfl⟩

/-- Setting several fields changes the registers alone, and of them those that hold one of the fields. -/
theorem State.setFlds_eq (s : State) (l : List (Field × Nat)) : ∃ q, s.setFlds l = { s with regs := q } := by
  unfold State.setFlds
  induction l generalizing s with
  | nil => exact ⟨s.regs, rfl⟩
  | cons x l ih =>
    obtain ⟨q, hq⟩ := ih (s.setFld x.1 x.2)
    exact ⟨q, by rw [List.foldl_cons]; exact hq⟩

/-- Issuing a transaction adds to those in flight and moves the next tag. -/
theorem State.issue_eq (s : State) (op : TxnOp) (addr len dies ty dst : Nat) (d : List Byte) (p : Purpose) :
    ∃ x n, s.issue op addr len dies ty dst d p = { s with txns := x, nextTag := n } := by
  unfold State.issue
  split
  · exact ⟨s.txns, s.nextTag, rfl⟩
  · exact ⟨_, _, rfl⟩

/-- Writing bytes to package memory does no more. -/
theorem State.issueWrite_eq (s : State) (a : Nat) (d : List Byte) (p : Purpose) :
    ∃ x n, s.issueWrite a d p = { s with txns := x, nextTag := n } := by
  unfold State.issueWrite
  generalize pieces a d.length = l
  induction l generalizing s with
  | nil => exact ⟨s.txns, s.nextTag, rfl⟩
  | cons q l ih =>
    rw [List.foldl_cons]
    obtain ⟨x, n, h⟩ := State.issue_eq s .wr q.1 q.2 0 0 0 (sliceAt d (q.1 - a) q.2) p
    rw [h]
    obtain ⟨y, m, k⟩ := ih { s with txns := x, nextTag := n }
    exact ⟨y, m, k⟩

end Sys2Proof.Machine
end

