-- ==== Sys2Proof/Laws/Fields.lean ====
section
/-! SUPPORT. The fields of the live registers: what a field reads after fields are written. -/

namespace Sys2Proof.Machine

/-- Two fields share no bit. -/
abbrev Field.apart (f g : Field) : Prop := f.off ≠ g.off ∨ f.lo + f.width ≤ g.lo ∨ g.lo + g.width ≤ f.lo

theorem State.setFld_wf {s : State} {f : Field} {v : Nat} (h : s.regs.wf = true) : (s.setFld f v).regs.wf = true :=
  RegFile.wf_set h

/-- The field just written. -/
theorem State.fld_setFld {s : State} {f : Field} {v : Nat} (h : s.regs.wf = true) (hf : f.lo + f.width ≤ 64) :
    (s.setFld f v).fld f = v % 2 ^ f.width := by
  show getBits ((s.regs.set f.off _).get f.off) f.lo f.width = _
  rw [RegFile.get_set_same h]
  exact getBits_putBits _ _ hf

/-- A field that shares no bit with the one written. -/
theorem State.fld_setFld_apart {s : State} {f g : Field} {v : Nat} (h : s.regs.wf = true) (hf : f.lo + f.width ≤ 64)
    (ha : g.apart f) : (s.setFld f v).fld g = s.fld g := by
  show getBits ((s.regs.set f.off _).get g.off) g.lo g.width = getBits (s.regs.get g.off) g.lo g.width
  by_cases ho : g.off = f.off
  · rw [ho, RegFile.get_set_same h]
    rcases ha with ha | ha | ha
    · exact absurd ho ha
    · exact getBits_putBits_below _ _ hf ha
    · exact getBits_putBits_above _ _ hf ha
  · rw [RegFile.get_set_other _ _ ho]

theorem State.setFlds_wf {s : State} {l : List (Field × Nat)} (h : s.regs.wf = true) : (s.setFlds l).regs.wf = true := by
  induction l generalizing s with
  | nil => exact h
  | cons x l ih => exact ih (s := s.setFld x.1 x.2) (State.setFld_wf h)

/-- A field that shares no bit with any of those written. -/
theorem State.fld_setFlds_apart {s : State} {l : List (Field × Nat)} {g : Field} (h : s.regs.wf = true)
    (hl : ∀ x ∈ l, x.1.lo + x.1.width ≤ 64 ∧ g.apart x.1) : (s.setFlds l).fld g = s.fld g := by
  induction l generalizing s with
  | nil => rfl
  | cons x l ih =>
    have hx := hl x (by simp)
    rw [← State.fld_setFld_apart (v := x.2) h hx.1 hx.2]
    exact ih (s := s.setFld x.1 x.2) (State.setFld_wf h) (fun y hy => hl y (by simp [hy]))

/-- Of several fields written, the first, when none of the later ones shares a bit with it. -/
theorem State.fld_setFlds_head {s : State} {f : Field} {v : Nat} {l : List (Field × Nat)} (h : s.regs.wf = true)
    (hf : f.lo + f.width ≤ 64) (hl : ∀ x ∈ l, x.1.lo + x.1.width ≤ 64 ∧ f.apart x.1) :
    (s.setFlds ((f, v) :: l)).fld f = v % 2 ^ f.width :=
  (State.fld_setFlds_apart (s := s.setFld f v) (State.setFld_wf h) hl).trans (State.fld_setFld h hf)

/-- Several fields are written one after the other. -/
theorem State.fld_setFlds_skip {s : State} {f g : Field} {v : Nat} {l : List (Field × Nat)} :
    (s.setFlds ((f, v) :: l)).fld g = ((s.setFld f v).setFlds l).fld g := rfl

end Sys2Proof.Machine
end

