-- ==== Sys2Proof/Laws/Pages.lean ====
section
/-! SUPPORT. What a host write of each register of a tenancy's page does, when no check stops it and nothing stalls it; and what
it does in the management region for the registers with an operation of their own. -/

namespace Sys2Proof.Machine

open Sys2Proof.Safety

/-- A page register's offset inside its page. -/
theorem pageOff_sub (t : Fin 16) (row : RegRow) : pageOff t row - 0x100000 * t.val = row.base := by unfold pageOff; omega

variable {s : State} {r : CsReq} {t : Fin 16} {v : Word} {f : Fetch}

theorem State.hostPage_ctrl (h : TenancyMay r t s) : s.hostPage r t Row.TEN_CTRL v f = if getBits v 0 1 = 1 then (answered s).tenancyReset t else answered s := by
  rw [State.hostPage_eq h (by decide)]
  unfold State.pageEffect
  simp only [pageOff_sub]
  rw [if_neg (by decide), if_pos trivial]

theorem State.hostPage_ringCmd (h : TenancyMay r t s) : s.hostPage r t Row.TEN_RING_CMD v f = (answered s).ringCommand t v f := by
  rw [State.hostPage_eq h (by decide)]
  unfold State.pageEffect
  simp only [pageOff_sub]
  rw [if_neg (by decide), if_neg (by decide), if_pos trivial]

theorem State.hostPage_sqTable (h : TenancyMay r t s) : s.hostPage r t Row.TEN_SQ_TABLE v f = (answered s).sqTable r t v := by
  rw [State.hostPage_eq h (by decide)]
  unfold State.pageEffect
  simp only [pageOff_sub]
  rw [if_neg (by decide), if_neg (by decide), if_neg (by decide), if_pos trivial]

theorem State.hostPage_cqTable (h : TenancyMay r t s) : s.hostPage r t Row.TEN_CQ_TABLE v f = (answered s).cqTable r t v := by
  rw [State.hostPage_eq h (by decide)]
  unfold State.pageEffect
  simp only [pageOff_sub]
  rw [if_neg (by decide), if_neg (by decide), if_neg (by decide), if_neg (by decide), if_pos trivial]

theorem State.hostPage_liveTable (h : TenancyMay r t s) : s.hostPage r t Row.TEN_LIVE_TABLE v f = (answered s).liveTable r t v := by
  rw [State.hostPage_eq h (by decide)]
  unfold State.pageEffect
  simp only [pageOff_sub]
  rw [if_neg (by decide), if_neg (by decide), if_neg (by decide), if_neg (by decide), if_neg (by decide), if_pos trivial]

theorem State.hostPage_commit (h : TenancyMay r t s) : s.hostPage r t Row.TEN_COMMIT v f = if getBits v 0 1 = 1 then (answered s).commitGo (.page t) else answered s := by
  rw [State.hostPage_eq h (by decide)]
  unfold State.pageEffect
  simp only [pageOff_sub]
  rw [if_neg (by decide), if_neg (by decide), if_neg (by decide), if_neg (by decide), if_neg (by decide), if_neg (by decide), if_pos trivial]

theorem State.hostPage_cqDoorbell (h : TenancyMay r t s) (hq : QueuesHold s) (he : (s.tenRun t).pushes = []) :
    s.hostPage r t Row.TEN_CQ_DOORBELL v f = (answered s).cqDoorbellPush t v := by
  rw [State.push_handled h hq he (by decide)]
  unfold State.handlePush
  simp only [pageOff_sub]
  rw [if_neg (by decide), if_pos trivial]

theorem State.hostPage_liveDoorbell (h : TenancyMay r t s) (hq : QueuesHold s) (he : (s.tenRun t).pushes = []) :
    s.hostPage r t Row.TEN_LIVE_DOORBELL v f = (answered s).livePushed t (getBits v 0 9) (getBits v 9 3) s.time.now false f := by
  rw [State.push_handled h hq he (by decide)]
  unfold State.handlePush
  simp only [pageOff_sub]
  rw [if_neg (by decide), if_neg (by decide), if_pos trivial]

theorem State.hostPage_pktDoorbell (h : TenancyMay r t s) (hq : QueuesHold s) (he : (s.tenRun t).pushes = []) :
    s.hostPage r t Row.TEN_PKT_DOORBELL v f = (answered s).pktPush t v := by
  rw [State.push_handled h hq he (by decide)]
  unfold State.handlePush
  simp only [pageOff_sub]
  rw [if_neg (by decide), if_neg (by decide), if_neg (by decide), if_pos trivial]

theorem State.hostPage_galleySeq (h : TenancyMay r t s) (hq : QueuesHold s) (he : (s.tenRun t).pushes = []) :
    s.hostPage r t Row.TEN_GALLEY_SEQ v f = (answered s).memberLeave t (getBits v 0 12) (getBits v 12 2) := by
  rw [State.push_handled h hq he (by decide)]
  unfold State.handlePush
  simp only [pageOff_sub]
  rw [if_neg (by decide), if_neg (by decide), if_neg (by decide), if_neg (by decide), if_pos trivial]

theorem State.hostPage_galleyStep (h : TenancyMay r t s) (hq : QueuesHold s) (he : (s.tenRun t).pushes = []) :
    s.hostPage r t Row.TEN_GALLEY_STEP v f = (answered s).stepTrigger t (getBits v 0 6) := by
  rw [State.push_handled h hq he (by decide)]
  unfold State.handlePush
  simp only [pageOff_sub]
  rw [if_neg (by decide), if_neg (by decide), if_neg (by decide), if_neg (by decide), if_neg (by decide), if_pos trivial]

theorem State.hostPage_galleySkip (h : TenancyMay r t s) (hq : QueuesHold s) (he : (s.tenRun t).pushes = []) :
    s.hostPage r t Row.TEN_GALLEY_SKIP v f = (answered s).galSkip t (getBits v 0 12) (getBits v 12 48) (getBits v 60 1 == 1) := by
  rw [State.push_handled h hq he (by decide)]
  unfold State.handlePush
  simp only [pageOff_sub]
  rw [if_neg (by decide), if_neg (by decide), if_neg (by decide), if_neg (by decide), if_neg (by decide), if_neg (by decide), if_pos trivial]

theorem State.hostPage_deltaAlt (h : TenancyMay r t s) (hq : QueuesHold s) (he : (s.tenRun t).pushes = []) :
    s.hostPage r t Row.TEN_DELTA_ALT v f = (answered s).altOp t (getBits v 0 12) (getBits v 12 2) := by
  rw [State.push_handled h hq he (by decide)]
  unfold State.handlePush
  simp only [pageOff_sub]
  rw [if_neg (by decide), if_neg (by decide), if_neg (by decide), if_neg (by decide), if_neg (by decide), if_neg (by decide), if_neg (by decide), if_pos trivial]

theorem State.hostPage_deltaDone (h : TenancyMay r t s) (hq : QueuesHold s) (he : (s.tenRun t).pushes = []) :
    s.hostPage r t Row.TEN_DELTA_DONE v f = (answered s).deltaDonePush t v := by
  rw [State.push_handled h hq he (by decide)]
  unfold State.handlePush
  simp only [pageOff_sub]
  rw [if_neg (by decide), if_neg (by decide), if_neg (by decide), if_neg (by decide), if_neg (by decide), if_neg (by decide), if_neg (by decide), if_neg (by decide), if_pos trivial]

theorem State.hostWrite_reset (h : ManagementMay r s) : s.hostWrite r Row.GLB_RESET.base 8 v f = (answered s).glbReset r v f := by
  rw [State.hostWrite_eq h (by decide) (by decide +kernel) (by decide) (State.slotStopped_never (by decide))]
  unfold State.writeEffect
  rw [show regionOf Row.GLB_RESET.base = .global from by decide]
  unfold State.topEffect
  exact if_pos rfl

theorem State.hostWrite_frm (h : ManagementMay r s) : s.hostWrite r Row.FRM_CTRL.base 8 v f = (answered s).writeFrm r v f := by
  rw [State.hostWrite_eq h (by decide) (by decide +kernel) (by decide) (State.slotStopped_never (by decide))]
  unfold State.writeEffect
  rw [show regionOf Row.FRM_CTRL.base = .management from by decide]
  unfold State.topEffect
  rw [if_neg (by decide), if_pos rfl]

theorem State.hostWrite_kat (h : ManagementMay r s) (hd : s.slotStopped Row.RFL_KAT_CTRL.base = false) : s.hostWrite r Row.RFL_KAT_CTRL.base 8 v f = (answered s).writeKat v := by
  rw [State.hostWrite_eq h (by decide) (by decide +kernel) (by decide) hd]
  unfold State.writeEffect
  rw [show regionOf Row.RFL_KAT_CTRL.base = .management from by decide]
  unfold State.topEffect
  rw [if_neg (by decide), if_neg (by decide), if_pos rfl]

theorem State.hostWrite_inj (h : ManagementMay r s) : s.hostWrite r Row.TST_INJ.base 8 v f = (answered s).writeInj v := by
  rw [State.hostWrite_eq h (by decide) (by decide +kernel) (by decide) (State.slotStopped_never (by decide))]
  unfold State.writeEffect
  rw [show regionOf Row.TST_INJ.base = .test from by decide]
  unfold State.topEffect
  rw [if_neg (by decide), if_neg (by decide), if_neg (by decide), if_pos rfl]

/-- The fields of a ring command's word. -/
theorem ringCmdWord_fields {kind op ring : Nat} (hk : kind < 2) (ho : op < 4) (hr : ring < 2 ^ 20) :
    getBits (ringCmdWord kind op ring) 0 1 = kind ∧ getBits (ringCmdWord kind op ring) 1 2 = op ∧
      getBits (ringCmdWord kind op ring) 8 20 = ring := by
  unfold ringCmdWord
  refine ⟨?_, ?_, ?_⟩
  · rw [getBits_putBits_below _ _ (by decide) (by decide), getBits_putBits_below _ _ (by decide) (by decide),
      getBits_putBits _ _ (by decide), Nat.mod_eq_of_lt (show kind < 2 ^ 1 from hk)]
  · rw [getBits_putBits_below _ _ (by decide) (by decide), getBits_putBits _ _ (by decide), Nat.mod_eq_of_lt (show op < 2 ^ 2 from ho)]
  · rw [getBits_putBits _ _ (by decide), Nat.mod_eq_of_lt hr]

end Sys2Proof.Machine
end

