-- ==== Sys2Proof/Laws/Attempts.lean ====
section
/-! SUPPORT. What an attempt to lock up or amend does, by the way its steps 1 to 5 end, and what a commit does. -/

namespace Sys2Proof.Machine

open Sys2Proof.Safety

variable {s : State} {amend : Bool} {f : Fetch} {g : Region}

/-- The forme that an attempt admits: the fetched one, or the merged one of an amendment. -/
def State.attemptForme (s : State) (amend : Bool) (p : Parsed) : Forme :=
  if amend then mergeForme s.forme p.forme p.rems else p.forme.withSlots Forme.blank

/-- The state at which an attempt admits. -/
def State.attemptState (s : State) (amend : Bool) : Nat :=
  if amend then s.fld F.LKP_ADMIT_CFG_PSTATE_LIVE else max (s.fld F.LKP_ADMIT_CFG_PSTATE) s.allowed

/-- An attempt that is admitted goes on to step 6. -/
theorem State.attempt_admitted {p : Parsed} {ts : List Taken} (hb : s.lockupBusy = false)
    (hp : parseForme (s.parseCtx amend f) (s.fld F.FRM_SRC_SIZE_SIZE) = .ok p) (hv : s.verifies p = true)
    (ha : admission (s.attemptForme amend p) (s.attemptState amend) s.lanesGood s.entropyGood (!amend) = .ok ts) :
    s.attempt amend f = s.reserve (s.newJob (if amend then .amend else .full) 4 (s.attemptForme amend p) ts (s.attemptState amend)
      (p.rems.map (·.flow)) (p.forme.flows.map (·.flow))) := by
  unfold State.attempt
  rw [if_neg (by simp [hb]), hp]
  dsimp only
  rw [if_neg (by simp [hv])]
  unfold State.attemptForme State.attemptState at ha
  rw [ha]
  rfl

/-- An attempt that fails its parse on an image that was read, its signature or its admission is refused. -/
theorem State.attempt_refused {x : RefusalRec} (hb : s.lockupBusy = false)
    (hx : (∃ e, parseForme (s.parseCtx amend f) (s.fld F.FRM_SRC_SIZE_SIZE) = .error e ∧ e.fetch = none ∧ x = e.refusal) ∨
      (∃ p, parseForme (s.parseCtx amend f) (s.fld F.FRM_SRC_SIZE_SIZE) = .ok p ∧ s.verifies p = false ∧
        x = ⟨0x07, none, none, 0, 0, none⟩) ∨
      (∃ p, parseForme (s.parseCtx amend f) (s.fld F.FRM_SRC_SIZE_SIZE) = .ok p ∧ s.verifies p = true ∧
        admission (s.attemptForme amend p) (s.attemptState amend) s.lanesGood s.entropyGood (!amend) = .error x)) :
    s.attempt amend f = s.refuse x := by
  unfold State.attempt
  rw [if_neg (by simp [hb])]
  rcases hx with ⟨e, he, hf, rfl⟩ | ⟨p, hp, hv, rfl⟩ | ⟨p, hp, hv, ha⟩
  · rw [he]; dsimp only; rw [hf]
  · rw [hp]; dsimp only; rw [if_pos (by simp [hv])]
  · rw [hp]
    dsimp only
    rw [if_neg (by simp [hv])]
    unfold State.attemptForme State.attemptState at ha
    rw [ha]

/-- While an attempt or a takeover runs, OP sets BUSY_REJECT alone. -/
theorem State.attempt_busy (hb : s.lockupBusy = true) : s.attempt amend f = s.setFld F.FRM_STATUS_BUSY_REJECT 1 := by
  unfold State.attempt
  rw [if_pos hb]

/-- What the end of an attempt shows. -/
theorem State.endAttempt_fields {n : Nat} (hw : s.regs.wf = true) :
    (s.endAttempt n).fld F.FRM_STATUS_RESULT = n % 8 ∧
    (s.endAttempt n).fld F.FRM_STATUS_SEQ = (s.fld F.FRM_STATUS_SEQ + 1) % 65536 ∧
    (s.endAttempt n).fld F.FRM_REFUSAL_CODE = s.fld F.FRM_REFUSAL_CODE := by
  have h0 : ({ s with job := none } : State).regs.wf = true := hw
  refine ⟨?_, ?_, ?_⟩
  · unfold State.endAttempt
    rw [State.fld_setFlds_skip]
    exact State.fld_setFlds_head (State.setFld_wf h0) (by decide) (by simp [Field.apart, F.FRM_STATUS_RESULT, F.FRM_STATUS_SEQ])
  · unfold State.endAttempt
    rw [State.fld_setFlds_skip, State.fld_setFlds_skip]
    exact State.fld_setFlds_head (State.setFld_wf (State.setFld_wf h0)) (by decide) (by simp)
  · exact State.fld_setFlds_apart h0
      (by simp [Field.apart, F.FRM_STATUS_PHASE, F.FRM_STATUS_RESULT, F.FRM_STATUS_SEQ, F.FRM_REFUSAL_CODE])

/-- What a recorded refusal shows. -/
theorem State.recordRefusal_fields {x : RefusalRec} (hw : s.regs.wf = true) :
    (s.recordRefusal x).fld F.FRM_REFUSAL_CODE = x.code % 256 ∧
    (s.recordRefusal x).fld F.FRM_STATUS_SEQ = s.fld F.FRM_STATUS_SEQ ∧ (s.recordRefusal x).regs.wf = true := by
  have h1 : ∀ l : List (Field × Nat), (s.setFlds l).regs.wf = true := fun l => State.setFlds_wf hw
  unfold State.recordRefusal
  split
  · refine ⟨?_, ?_, State.setFlds_wf (h1 _)⟩
    · rw [State.fld_setFlds_apart (h1 _)
        (by simp [Field.apart, F.LKP_REFUSAL_SERVER, F.LKP_REFUSAL_TOTAL, F.FRM_REFUSAL_CODE])]
      exact State.fld_setFlds_head hw (by decide) (by
        simp [Field.apart, F.FRM_REFUSAL_CODE, F.FRM_REFUSAL_FLOW, F.FRM_REFUSAL_TENANCY, F.FRM_REFUSAL_STATION,
          F.FRM_REFUSAL_SECTION, F.FRM_REFUSAL_FLOW_VALID, F.FRM_REFUSAL_STATION_VALID, F.FRM_REFUSAL_OFFSET])
    · rw [State.fld_setFlds_apart (h1 _)
        (by simp [Field.apart, F.LKP_REFUSAL_SERVER, F.LKP_REFUSAL_TOTAL, F.FRM_STATUS_SEQ])]
      exact State.fld_setFlds_apart hw (by
        simp [Field.apart, F.FRM_STATUS_SEQ, F.FRM_REFUSAL_CODE, F.FRM_REFUSAL_FLOW, F.FRM_REFUSAL_TENANCY,
          F.FRM_REFUSAL_STATION, F.FRM_REFUSAL_SECTION, F.FRM_REFUSAL_FLOW_VALID, F.FRM_REFUSAL_STATION_VALID,
          F.FRM_REFUSAL_OFFSET])
  · refine ⟨?_, ?_, h1 _⟩
    · exact State.fld_setFlds_head hw (by decide) (by
        simp [Field.apart, F.FRM_REFUSAL_CODE, F.FRM_REFUSAL_FLOW, F.FRM_REFUSAL_TENANCY, F.FRM_REFUSAL_STATION,
          F.FRM_REFUSAL_SECTION, F.FRM_REFUSAL_FLOW_VALID, F.FRM_REFUSAL_STATION_VALID, F.FRM_REFUSAL_OFFSET])
    · exact State.fld_setFlds_apart hw (by
        simp [Field.apart, F.FRM_STATUS_SEQ, F.FRM_REFUSAL_CODE, F.FRM_REFUSAL_FLOW, F.FRM_REFUSAL_TENANCY,
          F.FRM_REFUSAL_STATION, F.FRM_REFUSAL_SECTION, F.FRM_REFUSAL_FLOW_VALID, F.FRM_REFUSAL_STATION_VALID,
          F.FRM_REFUSAL_OFFSET])

/-- A commit whose captured values break a pairing rule. -/
theorem State.commitGo_broken {n : Nat} (h : s.flag (commitField g 0 1) = false) (hb : s.brokenRule (s.captured g) g = some n) :
    s.commitGo g = s.endCommit g 2 n := by
  unfold State.commitGo
  rw [if_neg (by simp [h])]
  simp only [hb]

/-- A commit of a region that serves a station waits. -/
theorem State.commitGo_waits (h : s.flag (commitField g 0 1) = false) (hb : s.brokenRule (s.captured g) g = none)
    (hw : regionWaits g = true) : s.commitGo g =
      ({ s with captures := s.captures ++ [Capture.mk g (s.captured g)] } : State).setFld (commitField g 0 1) 1 := by
  unfold State.commitGo
  rw [if_neg (by simp [h])]
  simp only [hb]
  rw [if_pos hw]

/-- Any other commit becomes live. -/
theorem State.commitGo_live (h : s.flag (commitField g 0 1) = false) (hb : s.brokenRule (s.captured g) g = none)
    (hw : regionWaits g = false) : s.commitGo g = s.makeLive g (s.captured g) := by
  unfold State.commitGo
  rw [if_neg (by simp [h])]
  simp only [hb]
  rw [if_neg (by simp [hw])]

end Sys2Proof.Machine
end

