-- ==== Sys2Proof/Laws/Frame.lean ====
section
/-! SUPPORT. Two frames. `Keeps`: what the work that follows every command leaves as it is. `Steady`: what every operation but
the starts leaves as it is. Each is closed under composition, and under the updates of fields it does not speak of. -/

namespace Sys2Proof.Machine

open Sys2Proof.Safety

/-- The queues and units of the state after reset. -/
theorem QueuesHold.of_empty {s : State} (h : s.tens = List.replicate 16 ⟨[], []⟩) : QueuesHold s := by
  unfold QueuesHold
  rw [h]
  exact ⟨by decide, by decide⟩

theorem UnitsHold.of_eq {s t : State} (h : UnitsHold s) (hl : t.lanesGood = s.lanesGood) (he : t.entropyGood = s.entropyGood) :
    UnitsHold t := by
  unfold UnitsHold
  rw [hl, he]
  exact h

theorem RegsHold.of_eq {s t : State} (h : RegsHold s) (hl : t.regs = s.regs) (he : t.shadow = []) : RegsHold t := by
  unfold RegsHold
  rw [hl, he]
  exact ⟨h.1, rfl⟩

theorem ReadyHolds.of_not {s : State} (h : s.ready = false) : ReadyHolds s := fun hr => by rw [h] at hr; cases hr

theorem UnitsHold.of_zero {s : State} (hl : s.lanesGood = 0) (he : s.entropyGood = 0) : UnitsHold s := by
  unfold UnitsHold
  rw [hl, he]
  exact ⟨by decide, by decide⟩

/-- Changing the push queue of a tenancy changes its length as the change does. -/
theorem QueuesHold.modTen {s : State} {t : Nat} {g : TenRun → TenRun}
    (hg : ∀ x ∈ s.tens, s.tenRun t = x → x.pushes.length ≤ 256 → (g x).pushes.length ≤ 256) (h : QueuesHold s) :
    QueuesHold (s.modTen t g) := by
  obtain ⟨hl, hq⟩ := h
  refine ⟨by simp [State.modTen, hl], fun x hx => ?_⟩
  simp only [State.modTen, List.mem_mapIdx] at hx
  obtain ⟨i, hi, rfl⟩ := hx
  have hm : s.tens[i] ∈ s.tens := List.getElem_mem hi
  split
  · rename_i ht
    subst ht
    exact hg _ hm (by simp [State.tenRun, List.getD_eq_getElem?_getD, hi]) (hq _ hm)
  · exact hq _ hm

/-- The fields that the work after a command never writes; every other field at its value of State.reset. -/
def State.kept (s : State) : State :=
  { State.reset with
    pending := s.pending, shadow := s.shadow, captures := s.captures, resp := s.resp, heldCs := s.heldCs,
    lastStart := s.lastStart, retainedOk := s.retainedOk, testMode := s.testMode, credits := s.credits, forme := s.forme,
    amends := s.amends, adm := s.adm, servers := s.servers, retained := s.retained, tens := s.tens,
    pushRot := s.pushRot, scanRot := s.scanRot, swapBusy := s.swapBusy, swapQueue := s.swapQueue, crcFails := s.crcFails,
    fencedLanes := s.fencedLanes, fencedEngines := s.fencedEngines, fencedUnits := s.fencedUnits, lanesGood := s.lanesGood, entropyGood := s.entropyGood,
    selfFail := s.selfFail, time := s.time, stagger := s.stagger, taken := s.taken, peerSeen := s.peerSeen,
    peerAt := s.peerAt, alive := s.alive, aliveAt := s.aliveAt, instLow := s.instLow, startFetch := s.startFetch,
    tmode := s.tmode, repair := s.repair, guardResp := s.guardResp, pmOut := s.pmOut, pmHeld := s.pmHeld,
    saved := s.saved, ckptAreas := s.ckptAreas, imageSeq := s.imageSeq, katDue := s.katDue,
    ptc := { s.ptc with dlMoved := 0 } }

/-- t comes from s with the kept fields as they were, READY not set anew, and the invariant kept. -/
structure Keeps (s t : State) : Prop where
  kept  : t.kept = s.kept
  up    : t.ready = true → s.ready = true ∧ t.life = s.life
  sound : Sound s → Sound t

/-- t comes from s with the queue as it was, READY not set anew, and the invariant kept. -/
structure Steady (s t : State) : Prop where
  pending : t.pending = s.pending
  up      : t.ready = true → s.ready = true
  sound   : Sound s → Sound t

theorem Keeps.refl (s : State) : Keeps s s := ⟨rfl, fun h => ⟨h, rfl⟩, id⟩

theorem Keeps.trans {r s t : State} (h : Keeps r s) (k : Keeps s t) : Keeps r t :=
  ⟨k.kept.trans h.kept, fun x => ⟨(h.up (k.up x).1).1, (k.up x).2.trans (h.up (k.up x).1).2⟩, fun x => k.sound (h.sound x)⟩

theorem Steady.refl (s : State) : Steady s s := ⟨rfl, id, id⟩

theorem Steady.trans {r s t : State} (h : Steady r s) (k : Steady s t) : Steady r t :=
  ⟨k.pending.trans h.pending, fun x => h.up (k.up x), fun x => k.sound (h.sound x)⟩

theorem Keeps.steady {s t : State} (h : Keeps s t) : Steady s t :=
  ⟨by have := congrArg State.pending h.kept; exact this, fun x => (h.up x).1, h.sound⟩

/-- Any operation of the work after a command is steady. -/
theorem Keeps.after {r s t : State} (k : Keeps s t) (h : Steady r s) : Steady r t := h.trans k.steady

theorem Keeps.ite {r s t : State} {c : Prop} [Decidable c] (h : Keeps r s) (k : Keeps r t) : Keeps r (if c then s else t) := by
  split
  · exact h
  · exact k

theorem Steady.ite {r s t : State} {c : Prop} [Decidable c] (h : Steady r s) (k : Steady r t) : Steady r (if c then s else t) := by
  split
  · exact h
  · exact k

theorem Keeps.foldl {α : Type} {r : State} {f : State → α → State} (l : List α) {s : State} (h : Keeps r s)
    (hf : ∀ t x, Keeps r t → Keeps r (f t x)) : Keeps r (l.foldl f s) := by
  induction l generalizing s with
  | nil => exact h
  | cons x l ih => exact ih (hf s x h)

theorem Steady.foldl {α : Type} {r : State} {f : State → α → State} (l : List α) {s : State} (h : Steady r s)
    (hf : ∀ t x, Steady r t → Steady r (f t x)) : Steady r (l.foldl f s) := by
  induction l generalizing s with
  | nil => exact h
  | cons x l ih => exact ih (hf s x h)

/-- A fold that carries a value beside the state. -/
theorem Keeps.foldl_fst {α β : Type} {r : State} {f : State × β → α → State × β} (l : List α) {p : State × β} (h : Keeps r p.1)
    (hf : ∀ t b x, Keeps r t → Keeps r (f (t, b) x).1) : Keeps r (l.foldl f p).1 := by
  induction l generalizing p with
  | nil => exact h
  | cons x l ih => exact ih (hf p.1 p.2 x h)

theorem Steady.foldl_fst {α β : Type} {r : State} {f : State × β → α → State × β} (l : List α) {p : State × β} (h : Steady r p.1)
    (hf : ∀ t b x, Steady r t → Steady r (f (t, b) x).1) : Steady r (l.foldl f p).1 := by
  induction l generalizing p with
  | nil => exact h
  | cons x l ih => exact ih (hf p.1 p.2 x h)

theorem Keeps.of_fst {β : Type} {r t : State} {x : β} {p : State × β} (h : Keeps r p.1) (hp : p = (t, x)) : Keeps r t := by
  subst hp; exact h

theorem Steady.of_fst {β : Type} {r t : State} {x : β} {p : State × β} (h : Steady r p.1) (hp : p = (t, x)) : Steady r t := by
  subst hp; exact h

theorem Keeps.of_snd {β : Type} {r t : State} {x : β} {p : β × State} (h : Keeps r p.2) (hp : p = (x, t)) : Keeps r t := by
  subst hp; exact h

theorem Steady.of_snd {β : Type} {r t : State} {x : β} {p : β × State} (h : Steady r p.2) (hp : p = (x, t)) : Steady r t := by
  subst hp; exact h

theorem Keeps.fst {β : Type} {r t : State} {x : β} (h : Keeps r t) : Keeps r (t, x).1 := h

theorem Steady.fst {β : Type} {r t : State} {x : β} (h : Steady r t) : Steady r (t, x).1 := h

theorem Keeps.snd {β : Type} {r t : State} {x : β} (h : Keeps r t) : Keeps r (x, t).2 := h

theorem Steady.snd {β : Type} {r t : State} {x : β} (h : Steady r t) : Steady r (x, t).2 := h

/-- Name a state that has been reached. -/
theorem Keeps.name {r s : State} {P : Prop} (h : Keeps r s) (k : Keeps r s → P) : P := k h

theorem Steady.name {r s : State} {P : Prop} (h : Steady r s) (k : Steady r s → P) : P := k h

/-- A change of the live registers that keeps their form. -/
theorem Sound.regs {s : State} {q : RegFile} (hq : s.regs.wf = true → q.wf = true) (h : Sound s) : Sound { s with regs := q } :=
  ⟨h.1, h.2.1, h.2.2.1, hq h.2.2.2.1, h.2.2.2.2⟩

theorem Steady.regs {r s : State} {q : RegFile} (h : Steady r s) (hq : s.regs.wf = true → q.wf = true) :
    Steady r { s with regs := q } := h.trans ⟨rfl, id, Sound.regs hq⟩

/-- The same word in both copies of the registers. -/
theorem Steady.both {r s : State} {off : Nat} {w : Word} (h : Steady r s) :
    Steady r { s with regs := s.regs.set off w, shadow := s.shadow.set off w } :=
  h.trans ⟨rfl, id, fun k => ⟨k.1, k.2.1, k.2.2.1, RegFile.wf_set k.2.2.2.1, RegFile.wf_set k.2.2.2.2⟩⟩

/-- Push queues emptied. -/
theorem Steady.emptied {r s t : State} (h : Steady r s) (hp : t.pending = s.pending) (hr : t.ready = s.ready)
    (hl : t.life = s.life) (hc : t.credits = s.credits) (hm : t.tmode = s.tmode) (ht : t.tens = List.replicate 16 ⟨[], []⟩)
    (hg : t.lanesGood = s.lanesGood) (he : t.entropyGood = s.entropyGood) (hq : t.regs = s.regs) (hs : t.shadow = s.shadow) :
    Steady r t := by
  refine h.trans ⟨hp, fun x => hr ▸ x, fun k => ⟨?_, QueuesHold.of_empty ht, UnitsHold.of_eq k.2.2.1 hg he, ?_⟩⟩
  · unfold ReadyHolds
    rw [hr, hl, hc, hm]
    exact k.1
  · unfold RegsHold
    rw [hq, hs]
    exact k.2.2.2

/-- Everything but what the always-on supply holds is dropped. -/
theorem Steady.dropped {r s k t : State} (h : Steady r s) (hk : Steady r k) (hp : t.pending = s.pending) (hr : t.ready = false)
    (ht : t.tens = List.replicate 16 ⟨[], []⟩)
    (hg : t.lanesGood = s.lanesGood) (he : t.entropyGood = s.entropyGood) (hq : t.regs = k.regs) (hs : t.shadow = []) :
    Steady r t :=
  ⟨hp.trans h.pending, fun x => (by rw [hr] at x; cases x), fun x =>
    ⟨ReadyHolds.of_not hr, QueuesHold.of_empty ht, UnitsHold.of_eq (h.sound x).2.2.1 hg he, RegsHold.of_eq (hk.sound x).2.2.2 hq hs⟩⟩

/-- All state but the queue and the pins at its reset value. -/
theorem Steady.blank {r s t : State} (h : Steady r s) (hp : t.pending = s.pending) (hr : t.ready = false)
    (ht : t.tens = List.replicate 16 ⟨[], []⟩) (hg : t.lanesGood = 0) (he : t.entropyGood = 0) (hq : t.regs = [])
    (hs : t.shadow = []) : Steady r t :=
  ⟨hp.trans h.pending, fun x => (by rw [hr] at x; cases x), fun _ =>
    ⟨ReadyHolds.of_not hr, QueuesHold.of_empty ht, UnitsHold.of_zero hg he, by unfold RegsHold; rw [hq, hs]; exact ⟨rfl, rfl⟩⟩⟩

theorem Steady.lowerLanes {r s : State} {n : Nat} (h : Steady r s) : Steady r { s with lanesGood := s.lanesGood - n } :=
  h.trans ⟨rfl, id, fun k => ⟨k.1, k.2.1, ⟨Nat.le_trans (Nat.sub_le _ _) k.2.2.1.1, k.2.2.1.2⟩, k.2.2.2⟩⟩

theorem Steady.lowerEngines {r s : State} {n : Nat} (h : Steady r s) : Steady r { s with entropyGood := s.entropyGood - n } :=
  h.trans ⟨rfl, id, fun k => ⟨k.1, k.2.1, ⟨k.2.2.1.1, Nat.le_trans (Nat.sub_le _ _) k.2.2.1.2⟩, k.2.2.2⟩⟩

/-- A change of a tenancy's queue that does not lengthen a full one. -/
theorem Steady.modTen {r s : State} {t : Nat} {g : TenRun → TenRun} (h : Steady r s)
    (hg : ∀ x ∈ s.tens, s.tenRun t = x → x.pushes.length ≤ 256 → (g x).pushes.length ≤ 256) : Steady r (s.modTen t g) :=
  h.trans ⟨rfl, id, fun k => ⟨k.1, QueuesHold.modTen hg k.2.1, k.2.2⟩⟩

theorem Keeps.regs {r s : State} {q : RegFile} (h : Keeps r s) (hq : s.regs.wf = true → q.wf = true) :
    Keeps r { s with regs := q } := h.trans ⟨rfl, fun h => ⟨h, rfl⟩, Sound.regs hq⟩

/-- Weir may count bytes of deadline traffic. -/
theorem Keeps.upd_ptc_weir {r s : State} {x0 : WeirRun} {n : Nat} (h : Keeps r s) :
    Keeps r { s with weir := x0, ptc := { s.ptc with dlMoved := n } } := h.trans ⟨rfl, fun h => ⟨h, rfl⟩, id⟩

theorem Keeps.ptc_eq {s t : State} (h : Keeps s t) : { t.ptc with dlMoved := 0 } = { s.ptc with dlMoved := 0 } := by
  have := congrArg State.ptc h.kept; exact this

theorem Keeps.upd_batches {r s : State} {x0 : List BatchOut} (h : Keeps r s) :
    Keeps r { s with batches := x0 } := h.trans ⟨rfl, fun h => ⟨h, rfl⟩, id⟩

theorem Keeps.upd_batches_nextBatch {r s : State} {x0 : List BatchOut} {x1 : Nat} (h : Keeps r s) :
    Keeps r { s with batches := x0, nextBatch := x1 } := h.trans ⟨rfl, fun h => ⟨h, rfl⟩, id⟩

theorem Keeps.upd_berths {r s : State} {x0 : List BerthCtx} (h : Keeps r s) :
    Keeps r { s with berths := x0 } := h.trans ⟨rfl, fun h => ⟨h, rfl⟩, id⟩

theorem Keeps.upd_clk {r s : State} {x0 : ClkRun} (h : Keeps r s) :
    Keeps r { s with clk := x0 } := h.trans ⟨rfl, fun h => ⟨h, rfl⟩, id⟩

theorem Keeps.upd_dltOut {r s : State} {x0 : List (Nat × Purpose)} (h : Keeps r s) :
    Keeps r { s with dltOut := x0 } := h.trans ⟨rfl, fun h => ⟨h, rfl⟩, id⟩

theorem Keeps.upd_dltQueue {r s : State} {x0 : List (Nat × Bool × WeirTxn)} (h : Keeps r s) :
    Keeps r { s with dltQueue := x0 } := h.trans ⟨rfl, fun h => ⟨h, rfl⟩, id⟩

theorem Keeps.upd_due {r s : State} {x0 : List DueEntry} (h : Keeps r s) :
    Keeps r { s with due := x0 } := h.trans ⟨rfl, fun h => ⟨h, rfl⟩, id⟩

theorem Keeps.upd_due_tasks {r s : State} {x0 : List DueEntry} {x1 : List Task} (h : Keeps r s) :
    Keeps r { s with due := x0, tasks := x1 } := h.trans ⟨rfl, fun h => ⟨h, rfl⟩, id⟩

theorem Keeps.upd_flows {r s : State} {x0 : List FlowRun} (h : Keeps r s) :
    Keeps r { s with flows := x0 } := h.trans ⟨rfl, fun h => ⟨h, rfl⟩, id⟩

theorem Keeps.upd_frac {r s : State} {x0 : List (Nat × Nat × Nat)} (h : Keeps r s) :
    Keeps r { s with frac := x0 } := h.trans ⟨rfl, fun h => ⟨h, rfl⟩, id⟩

theorem Keeps.upd_free {r s : State} {x0 : Nat} (h : Keeps r s) :
    Keeps r { s with free := x0 } := h.trans ⟨rfl, fun h => ⟨h, rfl⟩, id⟩

theorem Keeps.upd_groups {r s : State} {x0 : List GroupRun} (h : Keeps r s) :
    Keeps r { s with groups := x0 } := h.trans ⟨rfl, fun h => ⟨h, rfl⟩, id⟩

theorem Keeps.upd_handles {r s : State} {x0 : List Handle} (h : Keeps r s) :
    Keeps r { s with handles := x0 } := h.trans ⟨rfl, fun h => ⟨h, rfl⟩, id⟩

theorem Keeps.upd_job {r s : State} {x0 : Option Job} (h : Keeps r s) :
    Keeps r { s with job := x0 } := h.trans ⟨rfl, fun h => ⟨h, rfl⟩, id⟩

theorem Keeps.upd_pools {r s : State} {x0 : List PoolRun} (h : Keeps r s) :
    Keeps r { s with pools := x0 } := h.trans ⟨rfl, fun h => ⟨h, rfl⟩, id⟩

theorem Keeps.upd_ports_due_batches_weir {r s : State} {x0 : List PortRun} {x1 : List DueEntry} {x2 : List BatchOut} {x3 : WeirRun} (h : Keeps r s) :
    Keeps r { s with ports := x0, due := x1, batches := x2, weir := x3 } := h.trans ⟨rfl, fun h => ⟨h, rfl⟩, id⟩

theorem Keeps.upd_raised {r s : State} {x0 : List (Nat × FaultInfo)} (h : Keeps r s) :
    Keeps r { s with raised := x0 } := h.trans ⟨rfl, fun h => ⟨h, rfl⟩, id⟩

theorem Keeps.upd_sqs {r s : State} {x0 : List SqRing} (h : Keeps r s) :
    Keeps r { s with sqs := x0 } := h.trans ⟨rfl, fun h => ⟨h, rfl⟩, id⟩

theorem Keeps.upd_sqs_cqs {r s : State} {x0 : List SqRing} {x1 : List CqRing} (h : Keeps r s) :
    Keeps r { s with sqs := x0, cqs := x1 } := h.trans ⟨rfl, fun h => ⟨h, rfl⟩, id⟩

theorem Keeps.upd_srcs {r s : State} {x0 : List SrcRun} (h : Keeps r s) :
    Keeps r { s with srcs := x0 } := h.trans ⟨rfl, fun h => ⟨h, rfl⟩, id⟩

theorem Keeps.upd_tasks {r s : State} {x0 : List Task} (h : Keeps r s) :
    Keeps r { s with tasks := x0 } := h.trans ⟨rfl, fun h => ⟨h, rfl⟩, id⟩

theorem Keeps.upd_tasks_nextTask {r s : State} {x0 : List Task} {x1 : Nat} (h : Keeps r s) :
    Keeps r { s with tasks := x0, nextTask := x1 } := h.trans ⟨rfl, fun h => ⟨h, rfl⟩, id⟩

theorem Keeps.upd_txns_nextTag {r s : State} {x0 : List Txn} {x1 : Nat} (h : Keeps r s) :
    Keeps r { s with txns := x0, nextTag := x1 } := h.trans ⟨rfl, fun h => ⟨h, rfl⟩, id⟩

theorem Keeps.upd_weir {r s : State} {x0 : WeirRun} (h : Keeps r s) :
    Keeps r { s with weir := x0 } := h.trans ⟨rfl, fun h => ⟨h, rfl⟩, id⟩

theorem Keeps.upd_weir_dltQueue {r s : State} {x0 : WeirRun} {x1 : List (Nat × Bool × WeirTxn)} (h : Keeps r s) :
    Keeps r { s with weir := x0, dltQueue := x1 } := h.trans ⟨rfl, fun h => ⟨h, rfl⟩, id⟩

theorem Keeps.upd_window1ms {r s : State} {x0 : List (Nat × Nat × Nat)} (h : Keeps r s) :
    Keeps r { s with window1ms := x0 } := h.trans ⟨rfl, fun h => ⟨h, rfl⟩, id⟩

theorem Steady.upd_alive_aliveAt {r s : State} {x0 : Bool} {x1 : Nat} (h : Steady r s) :
    Steady r { s with alive := x0, aliveAt := x1 } := h.trans ⟨rfl, id, id⟩

theorem Steady.upd_aliveOn_alive_aliveAt {r s : State} {x0 : Bool} {x1 : Bool} {x2 : Nat} (h : Steady r s) :
    Steady r { s with aliveOn := x0, alive := x1, aliveAt := x2 } := h.trans ⟨rfl, id, id⟩

theorem Steady.upd_batches {r s : State} {x0 : List BatchOut} (h : Steady r s) :
    Steady r { s with batches := x0 } := h.trans ⟨rfl, id, id⟩

theorem Steady.upd_batches_nextBatch {r s : State} {x0 : List BatchOut} {x1 : Nat} (h : Steady r s) :
    Steady r { s with batches := x0, nextBatch := x1 } := h.trans ⟨rfl, id, id⟩

theorem Steady.upd_berths {r s : State} {x0 : List BerthCtx} (h : Steady r s) :
    Steady r { s with berths := x0 } := h.trans ⟨rfl, id, id⟩

theorem Steady.upd_berths_swapBusy {r s : State} {x0 : List BerthCtx} {x1 : Option (Nat × Nat × Nat)} (h : Steady r s) :
    Steady r { s with berths := x0, swapBusy := x1 } := h.trans ⟨rfl, id, id⟩

theorem Steady.upd_berths_swapBusy_swapQueue {r s : State} {x0 : List BerthCtx} {x1 : Option (Nat × Nat × Nat)} {x2 : List ((Nat × Nat) × (Nat × Nat))} (h : Steady r s) :
    Steady r { s with berths := x0, swapBusy := x1, swapQueue := x2 } := h.trans ⟨rfl, id, id⟩

theorem Steady.upd_captures {r s : State} {x0 : List Capture} (h : Steady r s) :
    Steady r { s with captures := x0 } := h.trans ⟨rfl, id, id⟩

theorem Steady.upd_clk {r s : State} {x0 : ClkRun} (h : Steady r s) :
    Steady r { s with clk := x0 } := h.trans ⟨rfl, id, id⟩

theorem Steady.upd_cqs {r s : State} {x0 : List CqRing} (h : Steady r s) :
    Steady r { s with cqs := x0 } := h.trans ⟨rfl, id, id⟩

theorem Steady.upd_crcFails {r s : State} {x0 : List (Nat × Nat)} (h : Steady r s) :
    Steady r { s with crcFails := x0 } := h.trans ⟨rfl, id, id⟩

theorem Steady.upd_crcFails_fencedUnits {r s : State} {x0 : List (Nat × Nat)} {x1 : List FenceUnit} (h : Steady r s) :
    Steady r { s with crcFails := x0, fencedUnits := x1 } := h.trans ⟨rfl, id, id⟩

theorem Steady.upd_dltOut {r s : State} {x0 : List (Nat × Purpose)} (h : Steady r s) :
    Steady r { s with dltOut := x0 } := h.trans ⟨rfl, id, id⟩

theorem Steady.upd_dltQueue {r s : State} {x0 : List (Nat × Bool × WeirTxn)} (h : Steady r s) :
    Steady r { s with dltQueue := x0 } := h.trans ⟨rfl, id, id⟩

theorem Steady.upd_due {r s : State} {x0 : List DueEntry} (h : Steady r s) :
    Steady r { s with due := x0 } := h.trans ⟨rfl, id, id⟩

theorem Steady.upd_due_tasks {r s : State} {x0 : List DueEntry} {x1 : List Task} (h : Steady r s) :
    Steady r { s with due := x0, tasks := x1 } := h.trans ⟨rfl, id, id⟩

theorem Steady.upd_fencedEngines {r s : State} {x0 : List Nat} (h : Steady r s) :
    Steady r { s with fencedEngines := x0 } := h.trans ⟨rfl, id, id⟩

theorem Steady.upd_fencedLanes {r s : State} {x0 : List Nat} (h : Steady r s) :
    Steady r { s with fencedLanes := x0 } := h.trans ⟨rfl, id, id⟩

theorem Steady.upd_fencedUnits {r s : State} {x0 : List FenceUnit} (h : Steady r s) :
    Steady r { s with fencedUnits := x0 } := h.trans ⟨rfl, id, id⟩

theorem Steady.upd_flows {r s : State} {x0 : List FlowRun} (h : Steady r s) :
    Steady r { s with flows := x0 } := h.trans ⟨rfl, id, id⟩

theorem Steady.upd_flows_batches_taken_saved {r s : State} {x0 : List FlowRun} {x1 : List BatchOut} {x2 : List Nat} {x3 : List (Nat × FlowRun)} (h : Steady r s) :
    Steady r { s with flows := x0, batches := x1, taken := x2, saved := x3 } := h.trans ⟨rfl, id, id⟩

theorem Steady.upd_flows_groups_batches_weir {r s : State} {x0 : List FlowRun} {x1 : List GroupRun} {x2 : List BatchOut} {x3 : WeirRun} (h : Steady r s) :
    Steady r { s with flows := x0, groups := x1, batches := x2, weir := x3 } := h.trans ⟨rfl, id, id⟩

theorem Steady.upd_forme {r s : State} {x0 : Forme} (h : Steady r s) :
    Steady r { s with forme := x0 } := h.trans ⟨rfl, id, id⟩

theorem Steady.upd_forme_amends_adm_servers_fencedLanes_fencedEngines {r s : State} {x0 : Forme} {x1 : Nat} {x2 : List FlowAdm} {x3 : List ServerAdm} {x4 : List Nat} {x5 : List Nat} (h : Steady r s) :
    Steady r { s with forme := x0, amends := x1, adm := x2, servers := x3, fencedLanes := x4, fencedEngines := x5 } := h.trans ⟨rfl, id, id⟩

theorem Steady.upd_forme_amends_adm_servers_fencedLanes_fencedEngines_taken_saved {r s : State} {x0 : Forme} {x1 : Nat} {x2 : List FlowAdm} {x3 : List ServerAdm} {x4 : List Nat} {x5 : List Nat} {x6 : List Nat} {x7 : List (Nat × FlowRun)} (h : Steady r s) :
    Steady r { s with forme := x0, amends := x1, adm := x2, servers := x3, fencedLanes := x4, fencedEngines := x5, taken := x6, saved := x7 } := h.trans ⟨rfl, id, id⟩

theorem Steady.upd_forme_amends_adm_servers_job {r s : State} {x0 : Forme} {x1 : Nat} {x2 : List FlowAdm} {x3 : List ServerAdm} {x4 : Option Job} (h : Steady r s) :
    Steady r { s with forme := x0, amends := x1, adm := x2, servers := x3, job := x4 } := h.trans ⟨rfl, id, id⟩

theorem Steady.upd_frac {r s : State} {x0 : List (Nat × Nat × Nat)} (h : Steady r s) :
    Steady r { s with frac := x0 } := h.trans ⟨rfl, id, id⟩

theorem Steady.upd_free {r s : State} {x0 : Nat} (h : Steady r s) :
    Steady r { s with free := x0 } := h.trans ⟨rfl, id, id⟩

theorem Steady.upd_groups {r s : State} {x0 : List GroupRun} (h : Steady r s) :
    Steady r { s with groups := x0 } := h.trans ⟨rfl, id, id⟩

theorem Steady.upd_guardResp {r s : State} {x0 : GuardResp} (h : Steady r s) :
    Steady r { s with guardResp := x0 } := h.trans ⟨rfl, id, id⟩

theorem Steady.upd_handles {r s : State} {x0 : List Handle} (h : Steady r s) :
    Steady r { s with handles := x0 } := h.trans ⟨rfl, id, id⟩

theorem Steady.upd_heldCs {r s : State} {x0 : List HeldAccess} (h : Steady r s) :
    Steady r { s with heldCs := x0 } := h.trans ⟨rfl, id, id⟩

theorem Steady.upd_heldCs_aliveOn {r s : State} {x0 : List HeldAccess} {x1 : Bool} (h : Steady r s) :
    Steady r { s with heldCs := x0, aliveOn := x1 } := h.trans ⟨rfl, id, id⟩

theorem Steady.upd_imageSeq {r s : State} {x0 : Nat} (h : Steady r s) :
    Steady r { s with imageSeq := x0 } := h.trans ⟨rfl, id, id⟩

theorem Steady.upd_instLow {r s : State} {x0 : Bool} (h : Steady r s) :
    Steady r { s with instLow := x0 } := h.trans ⟨rfl, id, id⟩

theorem Steady.upd_job {r s : State} {x0 : Option Job} (h : Steady r s) :
    Steady r { s with job := x0 } := h.trans ⟨rfl, id, id⟩

theorem Steady.upd_job_pushRot_scanRot_srcs_ptc_tko_katDue_window1ms_frac {r s : State} {x0 : Option Job} {x1 : Nat} {x2 : Nat} {x3 : List SrcRun} {x4 : PtcRun} {x5 : Option TkoRun} {x6 : Option (Nat × Nat × Nat × Nat × Nat × Nat)} {x7 : List (Nat × Nat × Nat)} {x8 : List (Nat × Nat × Nat)} (h : Steady r s) :
    Steady r { s with job := x0, pushRot := x1, scanRot := x2, srcs := x3, ptc := x4, tko := x5, katDue := x6, window1ms := x7, frac := x8 } := h.trans ⟨rfl, id, id⟩

theorem Steady.upd_job_tasks_weir_ckptAreas {r s : State} {x0 : Option Job} {x1 : List Task} {x2 : WeirRun} {x3 : Option Nat × Option Nat} (h : Steady r s) :
    Steady r { s with job := x0, tasks := x1, weir := x2, ckptAreas := x3 } := h.trans ⟨rfl, id, id⟩

theorem Steady.upd_job_tko {r s : State} {x0 : Option Job} {x1 : Option TkoRun} (h : Steady r s) :
    Steady r { s with job := x0, tko := x1 } := h.trans ⟨rfl, id, id⟩

theorem Steady.upd_katDue {r s : State} {x0 : Option (Nat × Nat × Nat × Nat × Nat × Nat)} (h : Steady r s) :
    Steady r { s with katDue := x0 } := h.trans ⟨rfl, id, id⟩

theorem Steady.upd_nextTask {r s : State} {x0 : Nat} (h : Steady r s) :
    Steady r { s with nextTask := x0 } := h.trans ⟨rfl, id, id⟩

theorem Steady.upd_peerSeen {r s : State} {x0 : Bool} (h : Steady r s) :
    Steady r { s with peerSeen := x0 } := h.trans ⟨rfl, id, id⟩

theorem Steady.upd_peerSeen_peerAt {r s : State} {x0 : Bool} {x1 : Nat} (h : Steady r s) :
    Steady r { s with peerSeen := x0, peerAt := x1 } := h.trans ⟨rfl, id, id⟩

theorem Steady.upd_pmHeld {r s : State} {x0 : Option Nat × Option Nat × Option Nat} (h : Steady r s) :
    Steady r { s with pmHeld := x0 } := h.trans ⟨rfl, id, id⟩

theorem Steady.upd_pools {r s : State} {x0 : List PoolRun} (h : Steady r s) :
    Steady r { s with pools := x0 } := h.trans ⟨rfl, id, id⟩

theorem Steady.upd_pools_handles {r s : State} {x0 : List PoolRun} {x1 : List Handle} (h : Steady r s) :
    Steady r { s with pools := x0, handles := x1 } := h.trans ⟨rfl, id, id⟩

theorem Steady.upd_ports {r s : State} {x0 : List PortRun} (h : Steady r s) :
    Steady r { s with ports := x0 } := h.trans ⟨rfl, id, id⟩

theorem Steady.upd_ports_due_batches_weir {r s : State} {x0 : List PortRun} {x1 : List DueEntry} {x2 : List BatchOut} {x3 : WeirRun} (h : Steady r s) :
    Steady r { s with ports := x0, due := x1, batches := x2, weir := x3 } := h.trans ⟨rfl, id, id⟩

theorem Steady.upd_ports_flows {r s : State} {x0 : List PortRun} {x1 : List FlowRun} (h : Steady r s) :
    Steady r { s with ports := x0, flows := x1 } := h.trans ⟨rfl, id, id⟩

theorem Steady.upd_ptc {r s : State} {x0 : PtcRun} (h : Steady r s) :
    Steady r { s with ptc := x0 } := h.trans ⟨rfl, id, id⟩

theorem Steady.upd_ptc_pmOut {r s : State} {x0 : PtcRun} {x1 : Option Nat} (h : Steady r s) :
    Steady r { s with ptc := x0, pmOut := x1 } := h.trans ⟨rfl, id, id⟩

theorem Steady.upd_ptc_weir {r s : State} {x0 : PtcRun} {x1 : WeirRun} (h : Steady r s) :
    Steady r { s with ptc := x0, weir := x1 } := h.trans ⟨rfl, id, id⟩

theorem Steady.upd_pushRot {r s : State} {x0 : Nat} (h : Steady r s) :
    Steady r { s with pushRot := x0 } := h.trans ⟨rfl, id, id⟩

theorem Steady.upd_raised {r s : State} {x0 : List (Nat × FaultInfo)} (h : Steady r s) :
    Steady r { s with raised := x0 } := h.trans ⟨rfl, id, id⟩

theorem Steady.upd_repair_guardResp {r s : State} {x0 : List (BitVec 32)} {x1 : GuardResp} (h : Steady r s) :
    Steady r { s with repair := x0, guardResp := x1 } := h.trans ⟨rfl, id, id⟩

theorem Steady.upd_resp {r s : State} {x0 : CsResp} (h : Steady r s) :
    Steady r { s with resp := x0 } := h.trans ⟨rfl, id, id⟩

theorem Steady.upd_retained {r s : State} {x0 : Retained} (h : Steady r s) :
    Steady r { s with retained := x0 } := h.trans ⟨rfl, id, id⟩

theorem Steady.upd_retainedOk {r s : State} {x0 : Bool} (h : Steady r s) :
    Steady r { s with retainedOk := x0 } := h.trans ⟨rfl, id, id⟩

theorem Steady.upd_retaining_retained {r s : State} {x0 : Bool} {x1 : Retained} (h : Steady r s) :
    Steady r { s with retaining := x0, retained := x1 } := h.trans ⟨rfl, id, id⟩

theorem Steady.upd_retaining_retained_weir_ckptAreas {r s : State} {x0 : Bool} {x1 : Retained} {x2 : WeirRun} {x3 : Option Nat × Option Nat} (h : Steady r s) :
    Steady r { s with retaining := x0, retained := x1, weir := x2, ckptAreas := x3 } := h.trans ⟨rfl, id, id⟩

theorem Steady.upd_saved {r s : State} {x0 : List (Nat × FlowRun)} (h : Steady r s) :
    Steady r { s with saved := x0 } := h.trans ⟨rfl, id, id⟩

theorem Steady.upd_scanRot {r s : State} {x0 : Nat} (h : Steady r s) :
    Steady r { s with scanRot := x0 } := h.trans ⟨rfl, id, id⟩

theorem Steady.upd_selfFail {r s : State} {x0 : Bool} (h : Steady r s) :
    Steady r { s with selfFail := x0 } := h.trans ⟨rfl, id, id⟩

theorem Steady.upd_sqs {r s : State} {x0 : List SqRing} (h : Steady r s) :
    Steady r { s with sqs := x0 } := h.trans ⟨rfl, id, id⟩

theorem Steady.upd_sqs_cqs {r s : State} {x0 : List SqRing} {x1 : List CqRing} (h : Steady r s) :
    Steady r { s with sqs := x0, cqs := x1 } := h.trans ⟨rfl, id, id⟩

theorem Steady.upd_sqs_cqs_ports_due_tasks_batches_berths_swapBusy_swapQueue_txns_crcFails_weir_dltOut_dltQueue_stagger {r s : State} {x0 : List SqRing} {x1 : List CqRing} {x2 : List PortRun} {x3 : List DueEntry} {x4 : List Task} {x5 : List BatchOut} {x6 : List BerthCtx} {x7 : Option (Nat × Nat × Nat)} {x8 : List ((Nat × Nat) × (Nat × Nat))} {x9 : List Txn} {x10 : List (Nat × Nat)} {x11 : WeirRun} {x12 : List (Nat × Purpose)} {x13 : List (Nat × Bool × WeirTxn)} {x14 : Option StagWin} (h : Steady r s) :
    Steady r { s with sqs := x0, cqs := x1, ports := x2, due := x3, tasks := x4, batches := x5, berths := x6, swapBusy := x7, swapQueue := x8, txns := x9, crcFails := x10, weir := x11, dltOut := x12, dltQueue := x13, stagger := x14 } := h.trans ⟨rfl, id, id⟩

theorem Steady.upd_srcs {r s : State} {x0 : List SrcRun} (h : Steady r s) :
    Steady r { s with srcs := x0 } := h.trans ⟨rfl, id, id⟩

theorem Steady.upd_stagger {r s : State} {x0 : Option StagWin} (h : Steady r s) :
    Steady r { s with stagger := x0 } := h.trans ⟨rfl, id, id⟩

theorem Steady.upd_swapQueue {r s : State} {x0 : List ((Nat × Nat) × (Nat × Nat))} (h : Steady r s) :
    Steady r { s with swapQueue := x0 } := h.trans ⟨rfl, id, id⟩

theorem Steady.upd_taken {r s : State} {x0 : List Nat} (h : Steady r s) :
    Steady r { s with taken := x0 } := h.trans ⟨rfl, id, id⟩

theorem Steady.upd_taken_saved {r s : State} {x0 : List Nat} {x1 : List (Nat × FlowRun)} (h : Steady r s) :
    Steady r { s with taken := x0, saved := x1 } := h.trans ⟨rfl, id, id⟩

theorem Steady.upd_tasks {r s : State} {x0 : List Task} (h : Steady r s) :
    Steady r { s with tasks := x0 } := h.trans ⟨rfl, id, id⟩

theorem Steady.upd_tasks_nextTask {r s : State} {x0 : List Task} {x1 : Nat} (h : Steady r s) :
    Steady r { s with tasks := x0, nextTask := x1 } := h.trans ⟨rfl, id, id⟩

theorem Steady.upd_testMode_ptc {r s : State} {x0 : Bool} {x1 : PtcRun} (h : Steady r s) :
    Steady r { s with testMode := x0, ptc := x1 } := h.trans ⟨rfl, id, id⟩

theorem Steady.upd_time {r s : State} {x0 : TimeRun} (h : Steady r s) :
    Steady r { s with time := x0 } := h.trans ⟨rfl, id, id⟩

theorem Steady.upd_tko {r s : State} {x0 : Option TkoRun} (h : Steady r s) :
    Steady r { s with tko := x0 } := h.trans ⟨rfl, id, id⟩

theorem Steady.upd_txns {r s : State} {x0 : List Txn} (h : Steady r s) :
    Steady r { s with txns := x0 } := h.trans ⟨rfl, id, id⟩

theorem Steady.upd_txns_crcFails {r s : State} {x0 : List Txn} {x1 : List (Nat × Nat)} (h : Steady r s) :
    Steady r { s with txns := x0, crcFails := x1 } := h.trans ⟨rfl, id, id⟩

theorem Steady.upd_txns_nextTag {r s : State} {x0 : List Txn} {x1 : Nat} (h : Steady r s) :
    Steady r { s with txns := x0, nextTag := x1 } := h.trans ⟨rfl, id, id⟩

theorem Steady.upd_weir {r s : State} {x0 : WeirRun} (h : Steady r s) :
    Steady r { s with weir := x0 } := h.trans ⟨rfl, id, id⟩

theorem Steady.upd_weir_dltQueue {r s : State} {x0 : WeirRun} {x1 : List (Nat × Bool × WeirTxn)} (h : Steady r s) :
    Steady r { s with weir := x0, dltQueue := x1 } := h.trans ⟨rfl, id, id⟩

theorem Steady.upd_window1ms {r s : State} {x0 : List (Nat × Nat × Nat)} (h : Steady r s) :
    Steady r { s with window1ms := x0 } := h.trans ⟨rfl, id, id⟩

theorem Steady.upd_heldCs_aliveOn_clk {r s : State} {x0 : List HeldAccess} {x1 : Bool} {x2 : ClkRun} (h : Steady r s) :
    Steady r { s with heldCs := x0, aliveOn := x1, clk := x2 } := h.trans ⟨rfl, id, id⟩

theorem Keeps.pending_eq {s t : State} (h : Keeps s t) : t.pending = s.pending := by have := congrArg State.pending h.kept; exact this

theorem Keeps.shadow_eq {s t : State} (h : Keeps s t) : t.shadow = s.shadow := by have := congrArg State.shadow h.kept; exact this

theorem Keeps.captures_eq {s t : State} (h : Keeps s t) : t.captures = s.captures := by have := congrArg State.captures h.kept; exact this

theorem Keeps.resp_eq {s t : State} (h : Keeps s t) : t.resp = s.resp := by have := congrArg State.resp h.kept; exact this

theorem Keeps.heldCs_eq {s t : State} (h : Keeps s t) : t.heldCs = s.heldCs := by have := congrArg State.heldCs h.kept; exact this

theorem Keeps.lastStart_eq {s t : State} (h : Keeps s t) : t.lastStart = s.lastStart := by have := congrArg State.lastStart h.kept; exact this

theorem Keeps.retainedOk_eq {s t : State} (h : Keeps s t) : t.retainedOk = s.retainedOk := by have := congrArg State.retainedOk h.kept; exact this

theorem Keeps.testMode_eq {s t : State} (h : Keeps s t) : t.testMode = s.testMode := by have := congrArg State.testMode h.kept; exact this

theorem Keeps.credits_eq {s t : State} (h : Keeps s t) : t.credits = s.credits := by have := congrArg State.credits h.kept; exact this

theorem Keeps.forme_eq {s t : State} (h : Keeps s t) : t.forme = s.forme := by have := congrArg State.forme h.kept; exact this

theorem Keeps.amends_eq {s t : State} (h : Keeps s t) : t.amends = s.amends := by have := congrArg State.amends h.kept; exact this

theorem Keeps.adm_eq {s t : State} (h : Keeps s t) : t.adm = s.adm := by have := congrArg State.adm h.kept; exact this

theorem Keeps.servers_eq {s t : State} (h : Keeps s t) : t.servers = s.servers := by have := congrArg State.servers h.kept; exact this

theorem Keeps.retained_eq {s t : State} (h : Keeps s t) : t.retained = s.retained := by have := congrArg State.retained h.kept; exact this

theorem Keeps.tens_eq {s t : State} (h : Keeps s t) : t.tens = s.tens := by have := congrArg State.tens h.kept; exact this

theorem Keeps.pushRot_eq {s t : State} (h : Keeps s t) : t.pushRot = s.pushRot := by have := congrArg State.pushRot h.kept; exact this

theorem Keeps.scanRot_eq {s t : State} (h : Keeps s t) : t.scanRot = s.scanRot := by have := congrArg State.scanRot h.kept; exact this

theorem Keeps.swapBusy_eq {s t : State} (h : Keeps s t) : t.swapBusy = s.swapBusy := by have := congrArg State.swapBusy h.kept; exact this

theorem Keeps.swapQueue_eq {s t : State} (h : Keeps s t) : t.swapQueue = s.swapQueue := by have := congrArg State.swapQueue h.kept; exact this

theorem Keeps.crcFails_eq {s t : State} (h : Keeps s t) : t.crcFails = s.crcFails := by have := congrArg State.crcFails h.kept; exact this

theorem Keeps.fencedLanes_eq {s t : State} (h : Keeps s t) : t.fencedLanes = s.fencedLanes := by have := congrArg State.fencedLanes h.kept; exact this

theorem Keeps.fencedEngines_eq {s t : State} (h : Keeps s t) : t.fencedEngines = s.fencedEngines := by have := congrArg State.fencedEngines h.kept; exact this

theorem Keeps.fencedUnits_eq {s t : State} (h : Keeps s t) : t.fencedUnits = s.fencedUnits := by have := congrArg State.fencedUnits h.kept; exact this

theorem Keeps.lanesGood_eq {s t : State} (h : Keeps s t) : t.lanesGood = s.lanesGood := by have := congrArg State.lanesGood h.kept; exact this

theorem Keeps.entropyGood_eq {s t : State} (h : Keeps s t) : t.entropyGood = s.entropyGood := by have := congrArg State.entropyGood h.kept; exact this

theorem Keeps.selfFail_eq {s t : State} (h : Keeps s t) : t.selfFail = s.selfFail := by have := congrArg State.selfFail h.kept; exact this

theorem Keeps.time_eq {s t : State} (h : Keeps s t) : t.time = s.time := by have := congrArg State.time h.kept; exact this

theorem Keeps.stagger_eq {s t : State} (h : Keeps s t) : t.stagger = s.stagger := by have := congrArg State.stagger h.kept; exact this

theorem Keeps.taken_eq {s t : State} (h : Keeps s t) : t.taken = s.taken := by have := congrArg State.taken h.kept; exact this

theorem Keeps.peerSeen_eq {s t : State} (h : Keeps s t) : t.peerSeen = s.peerSeen := by have := congrArg State.peerSeen h.kept; exact this

theorem Keeps.peerAt_eq {s t : State} (h : Keeps s t) : t.peerAt = s.peerAt := by have := congrArg State.peerAt h.kept; exact this

theorem Keeps.alive_eq {s t : State} (h : Keeps s t) : t.alive = s.alive := by have := congrArg State.alive h.kept; exact this

theorem Keeps.aliveAt_eq {s t : State} (h : Keeps s t) : t.aliveAt = s.aliveAt := by have := congrArg State.aliveAt h.kept; exact this

theorem Keeps.instLow_eq {s t : State} (h : Keeps s t) : t.instLow = s.instLow := by have := congrArg State.instLow h.kept; exact this

theorem Keeps.startFetch_eq {s t : State} (h : Keeps s t) : t.startFetch = s.startFetch := by have := congrArg State.startFetch h.kept; exact this

theorem Keeps.tmode_eq {s t : State} (h : Keeps s t) : t.tmode = s.tmode := by have := congrArg State.tmode h.kept; exact this

theorem Keeps.repair_eq {s t : State} (h : Keeps s t) : t.repair = s.repair := by have := congrArg State.repair h.kept; exact this

theorem Keeps.guardResp_eq {s t : State} (h : Keeps s t) : t.guardResp = s.guardResp := by have := congrArg State.guardResp h.kept; exact this

theorem Keeps.pmOut_eq {s t : State} (h : Keeps s t) : t.pmOut = s.pmOut := by have := congrArg State.pmOut h.kept; exact this

theorem Keeps.pmHeld_eq {s t : State} (h : Keeps s t) : t.pmHeld = s.pmHeld := by have := congrArg State.pmHeld h.kept; exact this

theorem Keeps.saved_eq {s t : State} (h : Keeps s t) : t.saved = s.saved := by have := congrArg State.saved h.kept; exact this

theorem Keeps.ckptAreas_eq {s t : State} (h : Keeps s t) : t.ckptAreas = s.ckptAreas := by have := congrArg State.ckptAreas h.kept; exact this

theorem Keeps.imageSeq_eq {s t : State} (h : Keeps s t) : t.imageSeq = s.imageSeq := by have := congrArg State.imageSeq h.kept; exact this

theorem Keeps.katDue_eq {s t : State} (h : Keeps s t) : t.katDue = s.katDue := by have := congrArg State.katDue h.kept; exact this

end Sys2Proof.Machine
end

