-- ==== Sys2Proof/Laws/FrameRegFile.lean ====
section
/-! SUPPORT. What the operations of Machine/RegFile.lean leave as it is. -/

set_option Elab.async false
set_option linter.unusedTactic false
set_option linter.unreachableTactic false

namespace Sys2Proof.Machine

open Sys2Proof.Safety

theorem State.setFld_keeps {r s : State} {f : Field} {v : Nat} (h : Keeps r s) :
    Keeps r (State.setFld s f v) := by
  unfold State.setFld
  exact h.regs (fun hq => RegFile.wf_set hq)

theorem State.setFld_steady {r s : State} {f : Field} {v : Nat} (h : Steady r s) :
    Steady r (State.setFld s f v) :=
  (State.setFld_keeps (Keeps.refl _)).after h

theorem State.addFld_keeps {r s : State} {f : Field} {n : Nat} (h : Keeps r s) :
    Keeps r (State.addFld s f n) := by
  unfold State.addFld
  repeat' first
    | with_reducible assumption
    | with_reducible apply State.setFld_keeps

theorem State.addFld_steady {r s : State} {f : Field} {n : Nat} (h : Steady r s) :
    Steady r (State.addFld s f n) :=
  (State.addFld_keeps (Keeps.refl _)).after h

theorem State.incFld_keeps {r s : State} {f : Field} (h : Keeps r s) :
    Keeps r (State.incFld s f) := by
  unfold State.incFld
  repeat' first
    | with_reducible assumption
    | with_reducible apply State.addFld_keeps

theorem State.incFld_steady {r s : State} {f : Field} (h : Steady r s) :
    Steady r (State.incFld s f) :=
  (State.incFld_keeps (Keeps.refl _)).after h

theorem State.setFlds_keeps {r s : State} {l : List (Prod Field Nat)} (h : Keeps r s) :
    Keeps r (State.setFlds s l) := by
  unfold State.setFlds
  repeat' first
    | with_reducible assumption
    | intro _
    | with_reducible apply State.setFld_keeps
    | with_reducible apply Keeps.foldl
    | with_reducible apply Keeps.foldl_fst

theorem State.setFlds_steady {r s : State} {l : List (Prod Field Nat)} (h : Steady r s) :
    Steady r (State.setFlds s l) :=
  (State.setFlds_keeps (Keeps.refl _)).after h

theorem State.setReg_steady {r s : State} {off : Nat} {w : Word} (h : Steady r s) :
    Steady r (State.setReg s off w) := by
  unfold State.setReg
  exact h.regs (fun hq => RegFile.wf_set hq)

end Sys2Proof.Machine
end

