-- ==== Sys2Proof/Laws/FrameOps.lean ====
section
/-! SUPPORT. What the operations of Machine/Ops.lean leave as it is. -/

set_option Elab.async false
set_option linter.unusedTactic false
set_option linter.unreachableTactic false

namespace Sys2Proof.Machine

open Sys2Proof.Safety

theorem State.issue_keeps {r s : State} {op : TxnOp} {addr : Nat} {len : Nat} {dies : Nat} {msgType : Nat} {dst : Nat} {data : List Byte} {p : Purpose} (h : Keeps r s) :
    Keeps r (State.issue s op addr len dies msgType dst data p) := by
  unfold State.issue
  repeat' first
    | with_reducible assumption
    | intro _
    | (extract_lets +onlyGivenNames x; with_reducible refine Keeps.name (r := r) (s := x) ?_ (fun hx => ?_); (on_goal 2 => clear_value x); (on_goal 1 => subst x))
    | (extract_lets +onlyGivenNames x; clear_value x)
    | with_reducible exact Keeps.upd_txns_nextTag (by assumption)
    | (with_reducible refine Keeps.of_fst ?_ (by assumption))
    | (with_reducible refine Keeps.of_snd ?_ (by assumption))
    | split
    | with_reducible apply Keeps.upd_txns_nextTag

theorem State.issue_steady {r s : State} {op : TxnOp} {addr : Nat} {len : Nat} {dies : Nat} {msgType : Nat} {dst : Nat} {data : List Byte} {p : Purpose} (h : Steady r s) :
    Steady r (State.issue s op addr len dies msgType dst data p) :=
  (State.issue_keeps (Keeps.refl _)).after h

theorem State.interrupt_keeps {r s : State} {a1 : Nat} {vec : Nat} (h : Keeps r s) :
    Keeps r (State.interrupt s a1 vec) := by
  unfold State.interrupt
  repeat' first
    | with_reducible assumption
    | (extract_lets +onlyGivenNames x; with_reducible refine Keeps.name (r := r) (s := x) ?_ (fun hx => ?_); (on_goal 2 => clear_value x); (on_goal 1 => subst x))
    | (extract_lets +onlyGivenNames x; clear_value x)
    | with_reducible apply Keeps.ite
    | with_reducible apply State.issue_keeps
    | split

theorem State.interrupt_steady {r s : State} {a1 : Nat} {vec : Nat} (h : Steady r s) :
    Steady r (State.interrupt s a1 vec) :=
  (State.interrupt_keeps (Keeps.refl _)).after h

theorem State.issueWrite_keeps {r s : State} {a1 : Nat} {d : List Byte} {p : Purpose} (h : Keeps r s) :
    Keeps r (State.issueWrite s a1 d p) := by
  unfold State.issueWrite
  repeat' first
    | with_reducible assumption
    | intro _
    | with_reducible apply State.issue_keeps
    | with_reducible apply Keeps.foldl
    | with_reducible apply Keeps.foldl_fst

theorem State.issueWrite_steady {r s : State} {a1 : Nat} {d : List Byte} {p : Purpose} (h : Steady r s) :
    Steady r (State.issueWrite s a1 d p) :=
  (State.issueWrite_keeps (Keeps.refl _)).after h

theorem State.modRun_keeps {r s : State} {f : Nat} {g : FlowRun → FlowRun} (h : Keeps r s) :
    Keeps r (State.modRun s f g) := by
  unfold State.modRun
  repeat' first
    | with_reducible assumption
    | intro _
    | with_reducible exact Keeps.upd_flows (by assumption)
    | with_reducible apply Keeps.upd_flows

theorem State.modRun_steady {r s : State} {f : Nat} {g : FlowRun → FlowRun} (h : Steady r s) :
    Steady r (State.modRun s f g) :=
  (State.modRun_keeps (Keeps.refl _)).after h

theorem State.modTask_keeps {r s : State} {id : Nat} {g : Task → Task} (h : Keeps r s) :
    Keeps r (State.modTask s id g) := by
  unfold State.modTask
  repeat' first
    | with_reducible assumption
    | intro _
    | with_reducible exact Keeps.upd_tasks (by assumption)
    | with_reducible apply Keeps.upd_tasks

theorem State.modTask_steady {r s : State} {id : Nat} {g : Task → Task} (h : Steady r s) :
    Steady r (State.modTask s id g) :=
  (State.modTask_keeps (Keeps.refl _)).after h

theorem State.raise_keeps {r s : State} {src : Nat} {i : FaultInfo} (h : Keeps r s) :
    Keeps r (State.raise s src i) := by
  unfold State.raise
  repeat' first
    | with_reducible assumption
    | with_reducible exact Keeps.upd_raised (by assumption)
    | with_reducible apply Keeps.upd_raised

theorem State.raise_steady {r s : State} {src : Nat} {i : FaultInfo} (h : Steady r s) :
    Steady r (State.raise s src i) :=
  (State.raise_keeps (Keeps.refl _)).after h

theorem State.raiseOn_keeps {r s : State} {src : Nat} {c : Charge} (h : Keeps r s) :
    Keeps r (State.raiseOn s src c) := by
  unfold State.raiseOn
  repeat' first
    | with_reducible assumption
    | with_reducible apply State.raise_keeps

theorem State.raiseOn_steady {r s : State} {src : Nat} {c : Charge} (h : Steady r s) :
    Steady r (State.raiseOn s src c) :=
  (State.raiseOn_keeps (Keeps.refl _)).after h

theorem State.countWindow_keeps {r s : State} {st : Nat} {served : Nat} {dropped : Nat} (h : Keeps r s) :
    Keeps r (State.countWindow s st served dropped) := by
  unfold State.countWindow
  repeat' first
    | with_reducible assumption
    | intro _
    | (extract_lets +onlyGivenNames x; with_reducible refine Keeps.name (r := r) (s := x) ?_ (fun hx => ?_); (on_goal 2 => clear_value x); (on_goal 1 => subst x))
    | (extract_lets +onlyGivenNames x; have hx : ∀ a, x a = x a := (fun _ => rfl); clear hx; subst x)
    | (extract_lets +onlyGivenNames x; clear_value x)
    | with_reducible exact Keeps.upd_window1ms (by assumption)
    | with_reducible apply Keeps.upd_window1ms

theorem State.countWindow_steady {r s : State} {st : Nat} {served : Nat} {dropped : Nat} (h : Steady r s) :
    Steady r (State.countWindow s st served dropped) :=
  (State.countWindow_keeps (Keeps.refl _)).after h

theorem State.setRun_keeps {r s : State} {a1 : FlowRun} (h : Keeps r s) :
    Keeps r (State.setRun s a1) := by
  unfold State.setRun
  repeat' first
    | with_reducible assumption
    | intro _
    | with_reducible exact Keeps.upd_flows (by assumption)
    | with_reducible apply Keeps.upd_flows

theorem State.setRun_steady {r s : State} {a1 : FlowRun} (h : Steady r s) :
    Steady r (State.setRun s a1) :=
  (State.setRun_keeps (Keeps.refl _)).after h

theorem State.lackAnswer_keeps {r s : State} {f : Fetch} {a2 : Nat} {n : Nat} (h : Keeps r s) :
    Keeps r (State.lackAnswer s f a2 n) := by
  unfold State.lackAnswer
  repeat' first
    | with_reducible assumption
    | with_reducible apply Keeps.ite
    | with_reducible apply State.incFld_keeps
    | split

theorem State.lackAnswer_steady {r s : State} {f : Fetch} {a2 : Nat} {n : Nat} (h : Steady r s) :
    Steady r (State.lackAnswer s f a2 n) :=
  (State.lackAnswer_keeps (Keeps.refl _)).after h

theorem State.addUnits_keeps {r s : State} {f : Field} {unit : Nat} {n : Nat} (h : Keeps r s) :
    Keeps r (State.addUnits s f unit n) := by
  unfold State.addUnits
  repeat' first
    | with_reducible assumption
    | intro _
    | (extract_lets +onlyGivenNames x; with_reducible refine Keeps.name (r := r) (s := x) ?_ (fun hx => ?_); (on_goal 2 => clear_value x); (on_goal 1 => subst x))
    | (extract_lets +onlyGivenNames x; have hx : ∀ a, x a = x a := (fun _ => rfl); clear hx; subst x)
    | (extract_lets +onlyGivenNames x; clear_value x)
    | with_reducible exact Keeps.upd_frac (by assumption)
    | with_reducible apply State.addFld_keeps
    | with_reducible apply Keeps.upd_frac

theorem State.addUnits_steady {r s : State} {f : Field} {unit : Nat} {n : Nat} (h : Steady r s) :
    Steady r (State.addUnits s f unit n) :=
  (State.addUnits_keeps (Keeps.refl _)).after h

theorem State.windowFail_keeps {r s : State} {a1 : Nat} {a2 : Nat} {access : Nat} {c : Charge} (h : Keeps r s) :
    Keeps r (State.windowFail s a1 a2 access c) := by
  unfold State.windowFail
  repeat' first
    | with_reducible assumption
    | with_reducible apply State.raise_keeps
    | with_reducible apply State.setFld_keeps

theorem State.windowFail_steady {r s : State} {a1 : Nat} {a2 : Nat} {access : Nat} {c : Charge} (h : Steady r s) :
    Steady r (State.windowFail s a1 a2 access c) :=
  (State.windowFail_keeps (Keeps.refl _)).after h

theorem State.nextFree_keeps {r s : State} (h : Keeps r s) :
    Keeps r (State.nextFree s).2 := by
  unfold State.nextFree
  repeat' first
    | with_reducible assumption
    | with_reducible exact Keeps.upd_free (by assumption)
    | with_reducible apply Keeps.upd_free

theorem State.nextFree_steady {r s : State} (h : Steady r s) :
    Steady r (State.nextFree s).2 :=
  (State.nextFree_keeps (Keeps.refl _)).after h

theorem State.modSq_steady {r s : State} {ring : Nat} {g : SqRing → SqRing} (h : Steady r s) :
    Steady r (State.modSq s ring g) := by
  unfold State.modSq
  repeat' first
    | with_reducible assumption
    | intro _
    | with_reducible exact Steady.upd_sqs (by assumption)
    | with_reducible apply Steady.upd_sqs

theorem State.modCq_steady {r s : State} {cq : Nat} {g : CqRing → CqRing} (h : Steady r s) :
    Steady r (State.modCq s cq g) := by
  unfold State.modCq
  repeat' first
    | with_reducible assumption
    | intro _
    | with_reducible exact Steady.upd_cqs (by assumption)
    | with_reducible apply Steady.upd_cqs

theorem State.modPort_steady {r s : State} {p : Nat} {g : PortRun → PortRun} (h : Steady r s) :
    Steady r (State.modPort s p g) := by
  unfold State.modPort
  repeat' first
    | with_reducible assumption
    | intro _
    | with_reducible exact Steady.upd_ports (by assumption)
    | with_reducible apply Steady.upd_ports

theorem State.fetchFail_steady {r s : State} {f : Fetch} {a2 : Nat} {n : Nat} {c : Charge} {station : Nat} (h : Steady r s) :
    Steady r (State.fetchFail s f a2 n c station) := by
  unfold State.fetchFail
  repeat' first
    | with_reducible assumption
    | with_reducible apply State.raise_steady
    | with_reducible apply State.lackAnswer_steady

theorem State.issueRead_steady {r s : State} {a1 : Nat} {n : Nat} {p : Purpose} (h : Steady r s) :
    Steady r (State.issueRead s a1 n p) := by
  unfold State.issueRead
  repeat' first
    | with_reducible assumption
    | intro _
    | with_reducible apply State.issue_steady
    | with_reducible apply Steady.foldl
    | with_reducible apply Steady.foldl_fst

theorem State.advance_steady {r s : State} {due : Nat} (h : Steady r s) :
    Steady r (State.advance s due) := by
  unfold State.advance
  repeat' first
    | with_reducible assumption
    | intro _
    | (extract_lets +onlyGivenNames x; with_reducible refine Steady.name (r := r) (s := x) ?_ (fun hx => ?_); (on_goal 2 => clear_value x); (on_goal 1 => subst x))
    | (extract_lets +onlyGivenNames x; have hx : ∀ a, x a = x a := (fun _ => rfl); clear hx; subst x)
    | (extract_lets +onlyGivenNames x; clear_value x)
    | with_reducible exact Steady.upd_time (by assumption)
    | with_reducible apply Steady.upd_time

theorem State.setTask_steady {r s : State} {a1 : Task} (h : Steady r s) :
    Steady r (State.setTask s a1) := by
  unfold State.setTask
  repeat' first
    | with_reducible assumption
    | intro _
    | with_reducible apply State.modTask_steady

end Sys2Proof.Machine
end

