-- ==== Sys2Proof/Laws/FrameOperands.lean ====
section
/-! SUPPORT. What the operations of Machine/Operands.lean leave as it is. -/

set_option Elab.async false
set_option linter.unusedTactic false
set_option linter.unreachableTactic false

namespace Sys2Proof.Machine

open Sys2Proof.Safety

theorem State.logAccess_steady {r s : State} {a1 : CsReq} {off : Nat} (h : Steady r s) :
    Steady r (State.logAccess s a1 off) := by
  unfold State.logAccess
  repeat' first
    | with_reducible assumption
    | with_reducible apply State.raise_steady

theorem State.setClk_keeps {r s : State} {d : Domain} {req : Bool} {run : Bool} {asked : Option Nat} (h : Keeps r s) :
    Keeps r (State.setClk s d req run asked) := by
  unfold State.setClk
  repeat' first
    | with_reducible assumption
    | with_reducible exact Keeps.upd_clk (by assumption)
    | with_reducible apply Keeps.upd_clk

theorem State.setClk_steady {r s : State} {d : Domain} {req : Bool} {run : Bool} {asked : Option Nat} (h : Steady r s) :
    Steady r (State.setClk s d req run asked) :=
  (State.setClk_keeps (Keeps.refl _)).after h

theorem State.wake_keeps {r s : State} {d : Domain} (h : Keeps r s) :
    Keeps r (State.wake s d) := by
  unfold State.wake
  repeat' first
    | with_reducible assumption
    | with_reducible apply Keeps.ite
    | with_reducible apply State.setClk_keeps
    | split

theorem State.wake_steady {r s : State} {d : Domain} (h : Steady r s) :
    Steady r (State.wake s d) :=
  (State.wake_keeps (Keeps.refl _)).after h

theorem State.holdAccess_steady {r s : State} {a : HeldAccess} (h : Steady r s) : Steady r (State.holdAccess s a) :=
  Steady.upd_heldCs h

theorem State.csWriteNow_steady {r s : State} {a1 : CsReq} {off : Nat} {len : Nat} {op : State → State} (h : Steady r s) (hop : ∀ x, Steady r x → Steady r (op x)) :
    Steady r (State.csWriteNow s a1 off len op) := by
  unfold State.csWriteNow
  repeat' first
    | with_reducible assumption
    | intro _
    | (extract_lets +onlyGivenNames x; with_reducible refine Steady.name (r := r) (s := x) ?_ (fun hx => ?_); (on_goal 2 => clear_value x); (on_goal 1 => subst x))
    | (extract_lets +onlyGivenNames x; clear_value x)
    | with_reducible apply Steady.ite
    | with_reducible exact Steady.upd_resp (by assumption)
    | with_reducible apply State.logAccess_steady
    | with_reducible apply hop
    | split
    | with_reducible apply Steady.upd_resp

theorem State.csWrite_steady {r s : State} {a1 : CsReq} {off : Nat} {len : Nat} {v : Word} {f : Fetch} {op : State → State} (h : Steady r s) (hop : ∀ x, Steady r x → Steady r (op x)) :
    Steady r (State.csWrite s a1 off len v f op) := by
  unfold State.csWrite
  split
  · exact h
  · split
    · exact State.holdAccess_steady h
    · split
      · exact State.wake_steady (State.holdAccess_steady h)
      · exact State.csWriteNow_steady h hop

end Sys2Proof.Machine
end

