-- ==== Sys2Proof/Laws/FramePools.lean ====
section
/-! SUPPORT. What the operations of Machine/Pools.lean leave as it is. -/

set_option Elab.async false
set_option linter.unusedTactic false
set_option linter.unreachableTactic false

namespace Sys2Proof.Machine

open Sys2Proof.Safety

theorem State.modPool_keeps {r s : State} {p : Nat} {g : PoolRun → PoolRun} (h : Keeps r s) :
    Keeps r (State.modPool s p g) := by
  unfold State.modPool
  repeat' first
    | with_reducible assumption
    | intro _
    | with_reducible exact Keeps.upd_pools (by assumption)
    | with_reducible apply Keeps.upd_pools

theorem State.modPool_steady {r s : State} {p : Nat} {g : PoolRun → PoolRun} (h : Steady r s) :
    Steady r (State.modPool s p g) :=
  (State.modPool_keeps (Keeps.refl _)).after h

theorem State.notifyPool_keeps {r s : State} {p : Nat} {mask : Nat → Field} {a3 : Nat} (h : Keeps r s) :
    Keeps r (State.notifyPool s p mask a3) := by
  unfold State.notifyPool
  repeat' first
    | with_reducible assumption
    | (extract_lets +onlyGivenNames x; with_reducible refine Keeps.name (r := r) (s := x) ?_ (fun hx => ?_); (on_goal 2 => clear_value x); (on_goal 1 => subst x))
    | (extract_lets +onlyGivenNames x; clear_value x)
    | with_reducible apply Keeps.ite
    | with_reducible apply State.setFld_keeps
    | with_reducible apply State.interrupt_keeps
    | split

theorem State.notifyPool_steady {r s : State} {p : Nat} {mask : Nat → Field} {a3 : Nat} (h : Steady r s) :
    Steady r (State.notifyPool s p mask a3) :=
  (State.notifyPool_keeps (Keeps.refl _)).after h

theorem State.enterCondition_keeps {r s : State} {p : Nat} {seen : Field} {mask : Nat → Field} (h : Keeps r s) :
    Keeps r (State.enterCondition s p seen mask) := by
  unfold State.enterCondition
  repeat' first
    | with_reducible assumption
    | intro _
    | with_reducible apply State.notifyPool_keeps
    | with_reducible apply State.setFld_keeps
    | with_reducible apply Keeps.foldl
    | with_reducible apply Keeps.foldl_fst

theorem State.enterCondition_steady {r s : State} {p : Nat} {seen : Field} {mask : Nat → Field} (h : Steady r s) :
    Steady r (State.enterCondition s p seen mask) :=
  (State.enterCondition_keeps (Keeps.refl _)).after h

theorem State.recheckPool_keeps {r s : State} {p : Nat} (h : Keeps r s) :
    Keeps r (State.recheckPool s p) := by
  unfold State.recheckPool
  repeat' first
    | with_reducible assumption
    | intro _
    | (extract_lets +onlyGivenNames x; with_reducible refine Keeps.name (r := r) (s := x) ?_ (fun hx => ?_); (on_goal 2 => clear_value x); (on_goal 1 => subst x))
    | (extract_lets +onlyGivenNames x; have hx : ∀ a, x a = x a := (fun _ => rfl); clear hx; subst x)
    | (extract_lets +onlyGivenNames x; clear_value x)
    | with_reducible apply Keeps.ite
    | with_reducible apply State.modPool_keeps
    | with_reducible apply State.enterCondition_keeps
    | split

theorem State.recheckPool_steady {r s : State} {p : Nat} (h : Steady r s) :
    Steady r (State.recheckPool s p) :=
  (State.recheckPool_keeps (Keeps.refl _)).after h

theorem State.recheckPools_keeps {r s : State} (h : Keeps r s) :
    Keeps r (State.recheckPools s) := by
  unfold State.recheckPools
  repeat' first
    | with_reducible assumption
    | intro _
    | with_reducible apply State.recheckPool_keeps
    | with_reducible apply Keeps.foldl
    | with_reducible apply Keeps.foldl_fst

theorem State.recheckPools_steady {r s : State} (h : Steady r s) :
    Steady r (State.recheckPools s) :=
  (State.recheckPools_keeps (Keeps.refl _)).after h

theorem State.claimGo_keeps {r s : State} {p : Nat} {a2 : List (Prod Nat (Prod Nat Nat))} (h : Keeps r s) :
    Keeps r (State.claimGo s p a2) := by
  induction a2 generalizing s with
  | nil => exact h
  | cons x l ih =>
    unfold State.claimGo
    repeat' first
      | with_reducible assumption
      | intro _
      | (extract_lets +onlyGivenNames x; with_reducible refine Keeps.name (r := r) (s := x) ?_ (fun hx => ?_); (on_goal 2 => clear_value x); (on_goal 1 => subst x))
      | (extract_lets +onlyGivenNames x; have hx : ∀ a, x a = x a := (fun _ => rfl); clear hx; subst x)
      | (extract_lets +onlyGivenNames x; clear_value x)
      | with_reducible apply ih
      | with_reducible exact Keeps.upd_job (by assumption)
      | (with_reducible refine Keeps.of_fst ?_ (by assumption))
      | (with_reducible refine Keeps.of_snd ?_ (by assumption))
      | split
      | with_reducible apply Keeps.upd_job

theorem State.claimGo_steady {r s : State} {p : Nat} {a2 : List (Prod Nat (Prod Nat Nat))} (h : Steady r s) :
    Steady r (State.claimGo s p a2) :=
  (State.claimGo_keeps (Keeps.refl _)).after h

theorem State.claimFree_keeps {r s : State} {p : Nat} (h : Keeps r s) :
    Keeps r (State.claimFree s p) := by
  unfold State.claimFree
  repeat' first
    | with_reducible assumption
    | intro _
    | with_reducible apply Keeps.ite
    | with_reducible apply State.claimGo_keeps
    | (with_reducible refine Keeps.of_fst ?_ (by assumption))
    | (with_reducible refine Keeps.of_snd ?_ (by assumption))
    | split

theorem State.claimFree_steady {r s : State} {p : Nat} (h : Steady r s) :
    Steady r (State.claimFree s p) :=
  (State.claimFree_keeps (Keeps.refl _)).after h

theorem State.notePeak_keeps {r s : State} {p : Nat} (h : Keeps r s) :
    Keeps r (State.notePeak s p) := by
  unfold State.notePeak
  repeat' first
    | with_reducible assumption
    | with_reducible apply Keeps.ite
    | with_reducible apply State.setFld_keeps
    | split

theorem State.notePeak_steady {r s : State} {p : Nat} (h : Steady r s) :
    Steady r (State.notePeak s p) :=
  (State.notePeak_keeps (Keeps.refl _)).after h

theorem State.chargeBlocks_keeps {r s : State} {p : Nat} {flow : Nat} {n : Nat} (h : Keeps r s) :
    Keeps r (State.chargeBlocks s p flow n) := by
  unfold State.chargeBlocks
  repeat' first
    | with_reducible assumption
    | intro _
    | with_reducible apply State.notePeak_keeps
    | with_reducible apply State.modPool_keeps

theorem State.chargeBlocks_steady {r s : State} {p : Nat} {flow : Nat} {n : Nat} (h : Steady r s) :
    Steady r (State.chargeBlocks s p flow n) :=
  (State.chargeBlocks_keeps (Keeps.refl _)).after h

theorem State.giveBlock_keeps {r s : State} {p : Nat} {flow : Nat} {task : Nat} (h : Keeps r s) :
    Keeps r (State.giveBlock s p flow task) := by
  unfold State.giveBlock
  repeat' first
    | with_reducible assumption
    | intro _
    | with_reducible apply State.modTask_keeps
    | with_reducible apply State.chargeBlocks_keeps

theorem State.giveBlock_steady {r s : State} {p : Nat} {flow : Nat} {task : Nat} (h : Steady r s) :
    Steady r (State.giveBlock s p flow task) :=
  (State.giveBlock_keeps (Keeps.refl _)).after h

theorem State.serveWaiters_keeps {r s : State} {a0 : Nat} {a2 : Nat} (h : Keeps r s) :
    Keeps r (State.serveWaiters a0 s a2) := by
  induction a0 generalizing s a2 with
  | zero => exact h
  | succ n ih =>
    unfold State.serveWaiters
    repeat' first
      | with_reducible assumption
      | intro _
      | (extract_lets +onlyGivenNames x; with_reducible refine Keeps.name (r := r) (s := x) ?_ (fun hx => ?_); (on_goal 2 => clear_value x); (on_goal 1 => subst x))
      | (extract_lets +onlyGivenNames x; have hx : ∀ a, x a = x a := (fun _ => rfl); clear hx; subst x)
      | (extract_lets +onlyGivenNames x; clear_value x)
      | with_reducible apply ih
      | with_reducible apply Keeps.ite
      | with_reducible apply State.modPool_keeps
      | with_reducible apply State.giveBlock_keeps
      | (with_reducible refine Keeps.of_fst ?_ (by assumption))
      | (with_reducible refine Keeps.of_snd ?_ (by assumption))
      | split

theorem State.serveWaiters_steady {r s : State} {a0 : Nat} {a2 : Nat} (h : Steady r s) :
    Steady r (State.serveWaiters a0 s a2) :=
  (State.serveWaiters_keeps (Keeps.refl _)).after h

theorem State.settlePool_keeps {r s : State} {p : Nat} (h : Keeps r s) :
    Keeps r (State.settlePool s p) := by
  unfold State.settlePool
  repeat' first
    | with_reducible assumption
    | (extract_lets +onlyGivenNames x; with_reducible refine Keeps.name (r := r) (s := x) ?_ (fun hx => ?_); (on_goal 2 => clear_value x); (on_goal 1 => subst x))
    | (extract_lets +onlyGivenNames x; clear_value x)
    | with_reducible apply State.claimFree_keeps
    | with_reducible apply State.serveWaiters_keeps

theorem State.settlePool_steady {r s : State} {p : Nat} (h : Steady r s) :
    Steady r (State.settlePool s p) :=
  (State.settlePool_keeps (Keeps.refl _)).after h

theorem State.freeBlocks_keeps {r s : State} {flow : Nat} {ps : List Nat} (h : Keeps r s) :
    Keeps r (State.freeBlocks s flow ps) := by
  unfold State.freeBlocks
  repeat' first
    | with_reducible assumption
    | intro _
    | (extract_lets +onlyGivenNames x; with_reducible refine Keeps.name (r := r) (s := x) ?_ (fun hx => ?_); (on_goal 2 => clear_value x); (on_goal 1 => subst x))
    | (extract_lets +onlyGivenNames x; with_reducible refine Keeps.name (r := r) (s := x.1) ?_ (fun hx => ?_); (on_goal 2 => clear_value x); (on_goal 1 => subst x))
    | (extract_lets +onlyGivenNames x; have hx : ∀ a, x a = x a := (fun _ => rfl); clear hx; subst x)
    | (extract_lets +onlyGivenNames x; clear_value x)
    | with_reducible apply State.modPool_keeps
    | with_reducible apply State.settlePool_keeps
    | with_reducible apply Keeps.foldl
    | with_reducible apply Keeps.foldl_fst

theorem State.freeBlocks_steady {r s : State} {flow : Nat} {ps : List Nat} (h : Steady r s) :
    Steady r (State.freeBlocks s flow ps) :=
  (State.freeBlocks_keeps (Keeps.refl _)).after h

theorem State.dropWaiter_keeps {r s : State} {task : Nat} (h : Keeps r s) :
    Keeps r (State.dropWaiter s task) := by
  unfold State.dropWaiter
  repeat' first
    | with_reducible assumption
    | intro _
    | with_reducible exact Keeps.upd_pools (by assumption)
    | with_reducible apply Keeps.upd_pools

theorem State.dropWaiter_steady {r s : State} {task : Nat} (h : Steady r s) :
    Steady r (State.dropWaiter s task) :=
  (State.dropWaiter_keeps (Keeps.refl _)).after h

theorem State.freeTask_keeps {r s : State} {task : Nat} (h : Keeps r s) :
    Keeps r (State.freeTask s task) := by
  unfold State.freeTask
  repeat' first
    | with_reducible assumption
    | intro _
    | with_reducible apply State.freeBlocks_keeps
    | with_reducible apply State.modTask_keeps
    | with_reducible apply State.dropWaiter_keeps
    | (with_reducible refine Keeps.of_fst ?_ (by assumption))
    | (with_reducible refine Keeps.of_snd ?_ (by assumption))
    | split

theorem State.freeTask_steady {r s : State} {task : Nat} (h : Steady r s) :
    Steady r (State.freeTask s task) :=
  (State.freeTask_keeps (Keeps.refl _)).after h

theorem State.releaseHandle_keeps {r s : State} {i : Nat} (h : Keeps r s) :
    Keeps r (State.releaseHandle s i) := by
  unfold State.releaseHandle
  repeat' first
    | with_reducible assumption
    | intro _
    | with_reducible exact Keeps.upd_handles (by assumption)
    | with_reducible apply State.freeBlocks_keeps
    | (with_reducible refine Keeps.of_fst ?_ (by assumption))
    | (with_reducible refine Keeps.of_snd ?_ (by assumption))
    | split
    | with_reducible apply Keeps.upd_handles

theorem State.releaseHandle_steady {r s : State} {i : Nat} (h : Steady r s) :
    Steady r (State.releaseHandle s i) :=
  (State.releaseHandle_keeps (Keeps.refl _)).after h

theorem State.updateMark_keeps {r s : State} {i : Nat} {dRef : Int} {out : Option Bool} {hold : Option Bool} {task : Nat} (h : Keeps r s) :
    Keeps r (State.updateMark s i dRef out hold task) := by
  unfold State.updateMark
  repeat' first
    | with_reducible assumption
    | intro _
    | (extract_lets +onlyGivenNames x; with_reducible refine Keeps.name (r := r) (s := x) ?_ (fun hx => ?_); (on_goal 2 => clear_value x); (on_goal 1 => subst x))
    | (extract_lets +onlyGivenNames x; have hx : ∀ a, x a = x a := (fun _ => rfl); clear hx; subst x)
    | (extract_lets +onlyGivenNames x; clear_value x)
    | with_reducible apply Keeps.ite
    | with_reducible exact Keeps.upd_handles (by assumption)
    | with_reducible apply State.raiseOn_keeps
    | with_reducible apply State.releaseHandle_keeps
    | (with_reducible refine Keeps.of_fst ?_ (by assumption))
    | (with_reducible refine Keeps.of_snd ?_ (by assumption))
    | split
    | with_reducible apply Keeps.upd_handles

theorem State.updateMark_steady {r s : State} {i : Nat} {dRef : Int} {out : Option Bool} {hold : Option Bool} {task : Nat} (h : Steady r s) :
    Steady r (State.updateMark s i dRef out hold task) :=
  (State.updateMark_keeps (Keeps.refl _)).after h

theorem State.releaseHandles_keeps {r s : State} {flow : Nat} (h : Keeps r s) :
    Keeps r (State.releaseHandles s flow) := by
  unfold State.releaseHandles
  repeat' first
    | with_reducible assumption
    | intro _
    | with_reducible apply State.releaseHandle_keeps
    | with_reducible apply Keeps.foldl
    | with_reducible apply Keeps.foldl_fst

theorem State.releaseHandles_steady {r s : State} {flow : Nat} (h : Steady r s) :
    Steady r (State.releaseHandles s flow) :=
  (State.releaseHandles_keeps (Keeps.refl _)).after h

theorem State.countUnfit_keeps {r s : State} {flow : Nat} (h : Keeps r s) :
    Keeps r (State.countUnfit s flow) := by
  unfold State.countUnfit
  repeat' first
    | with_reducible assumption
    | intro _
    | with_reducible apply State.incFld_keeps
    | (with_reducible refine Keeps.of_fst ?_ (by assumption))
    | (with_reducible refine Keeps.of_snd ?_ (by assumption))
    | split

theorem State.countUnfit_steady {r s : State} {flow : Nat} (h : Steady r s) :
    Steady r (State.countUnfit s flow) :=
  (State.countUnfit_keeps (Keeps.refl _)).after h

theorem State.requestBlock_keeps {r s : State} {fe : FlowEntry} {a2 : Task} {bytes : Nat} {galley : Bool} (h : Keeps r s) :
    Keeps r (State.requestBlock s fe a2 bytes galley).1 := by
  unfold State.requestBlock
  repeat' first
    | with_reducible assumption
    | intro _
    | (extract_lets +onlyGivenNames x; with_reducible refine Keeps.name (r := r) (s := x) ?_ (fun hx => ?_); (on_goal 2 => clear_value x); (on_goal 1 => subst x))
    | (extract_lets +onlyGivenNames x; have hx : ∀ a, x a = x a := (fun _ => rfl); clear hx; subst x)
    | (extract_lets +onlyGivenNames x; clear_value x)
    | with_reducible apply Keeps.ite
    | with_reducible apply State.raiseOn_keeps
    | with_reducible apply State.countUnfit_keeps
    | with_reducible apply State.giveBlock_keeps
    | with_reducible apply State.incFld_keeps
    | with_reducible apply State.modTask_keeps
    | with_reducible apply State.modPool_keeps
    | (with_reducible refine Keeps.of_fst ?_ (by assumption))
    | (with_reducible refine Keeps.of_snd ?_ (by assumption))
    | split

theorem State.requestBlock_steady {r s : State} {fe : FlowEntry} {a2 : Task} {bytes : Nat} {galley : Bool} (h : Steady r s) :
    Steady r (State.requestBlock s fe a2 bytes galley).1 :=
  (State.requestBlock_keeps (Keeps.refl _)).after h

theorem State.takeHandle_keeps {r s : State} {a1 : Task} {ps : List Nat} (h : Keeps r s) :
    Keeps r (State.takeHandle s a1 ps).1 := by
  unfold State.takeHandle
  repeat' first
    | with_reducible assumption
    | intro _
    | (extract_lets +onlyGivenNames x; with_reducible refine Keeps.name (r := r) (s := x) ?_ (fun hx => ?_); (on_goal 2 => clear_value x); (on_goal 1 => subst x))
    | (extract_lets +onlyGivenNames x; have hx : ∀ a, x a = x a := (fun _ => rfl); clear hx; subst x)
    | (extract_lets +onlyGivenNames x; clear_value x)
    | with_reducible exact Keeps.upd_handles (by assumption)
    | with_reducible apply State.raiseOn_keeps
    | with_reducible apply State.incFld_keeps
    | with_reducible apply State.countUnfit_keeps
    | with_reducible apply State.modTask_keeps
    | (with_reducible refine Keeps.of_fst ?_ (by assumption))
    | (with_reducible refine Keeps.of_snd ?_ (by assumption))
    | split
    | with_reducible apply Keeps.upd_handles

theorem State.takeHandle_steady {r s : State} {a1 : Task} {ps : List Nat} (h : Steady r s) :
    Steady r (State.takeHandle s a1 ps).1 :=
  (State.takeHandle_keeps (Keeps.refl _)).after h

theorem State.tryBlock_keeps {r s : State} {fe : FlowEntry} {bytes : Nat} {galley : Bool} (h : Keeps r s) :
    Keeps r (State.tryBlock s fe bytes galley).1 := by
  unfold State.tryBlock
  repeat' first
    | with_reducible assumption
    | intro _
    | (extract_lets +onlyGivenNames x; with_reducible refine Keeps.name (r := r) (s := x) ?_ (fun hx => ?_); (on_goal 2 => clear_value x); (on_goal 1 => subst x))
    | (extract_lets +onlyGivenNames x; clear_value x)
    | with_reducible apply Keeps.ite
    | with_reducible apply State.countUnfit_keeps
    | with_reducible apply State.chargeBlocks_keeps
    | with_reducible apply State.incFld_keeps
    | with_reducible apply State.raiseOn_keeps
    | (with_reducible refine Keeps.of_fst ?_ (by assumption))
    | (with_reducible refine Keeps.of_snd ?_ (by assumption))
    | split

theorem State.tryBlock_steady {r s : State} {fe : FlowEntry} {bytes : Nat} {galley : Bool} (h : Steady r s) :
    Steady r (State.tryBlock s fe bytes galley).1 :=
  (State.tryBlock_keeps (Keeps.refl _)).after h

theorem State.rebuildPools_steady {r s : State} (h : Steady r s) :
    Steady r (State.rebuildPools s) := by
  unfold State.rebuildPools
  repeat' first
    | with_reducible assumption
    | intro _
    | (extract_lets +onlyGivenNames x; with_reducible refine Steady.name (r := r) (s := x) ?_ (fun hx => ?_); (on_goal 2 => clear_value x); (on_goal 1 => subst x))
    | (extract_lets +onlyGivenNames x; have hx : ∀ a, x a = x a := (fun _ => rfl); clear hx; subst x)
    | (extract_lets +onlyGivenNames x; clear_value x)
    | with_reducible exact Steady.upd_pools_handles (by assumption)
    | with_reducible apply State.recheckPools_steady
    | with_reducible apply Steady.upd_pools_handles

theorem State.supplyThresholds_steady {r s : State} (h : Steady r s) :
    Steady r (State.supplyThresholds s) := by
  unfold State.supplyThresholds
  exact Steady.foldl _ h (fun t e ht => Steady.both ht)

end Sys2Proof.Machine
end

