-- ==== Sys2Proof/Laws/FrameTasks.lean ====
section
/-! SUPPORT. What the operations of Machine/Tasks.lean leave as it is. -/

set_option Elab.async false
set_option linter.unusedTactic false
set_option linter.unreachableTactic false

namespace Sys2Proof.Machine

open Sys2Proof.Safety

theorem State.releaseStream_keeps {r s : State} {a1 : Task} (h : Keeps r s) :
    Keeps r (State.releaseStream s a1) := by
  unfold State.releaseStream
  repeat' first
    | with_reducible assumption
    | intro _
    | with_reducible apply Keeps.ite
    | with_reducible apply State.modRun_keeps
    | split

theorem State.releaseStream_steady {r s : State} {a1 : Task} (h : Steady r s) :
    Steady r (State.releaseStream s a1) :=
  (State.releaseStream_keeps (Keeps.refl _)).after h

theorem State.unhold_keeps {r s : State} {id : Nat} (h : Keeps r s) :
    Keeps r (State.unhold s id) := by
  unfold State.unhold
  repeat' first
    | with_reducible assumption
    | intro _
    | with_reducible apply State.updateMark_keeps
    | with_reducible apply State.modTask_keeps
    | with_reducible apply Keeps.foldl
    | with_reducible apply Keeps.foldl_fst
    | (with_reducible refine Keeps.of_fst ?_ (by assumption))
    | (with_reducible refine Keeps.of_snd ?_ (by assumption))
    | split

theorem State.unhold_steady {r s : State} {id : Nat} (h : Steady r s) :
    Steady r (State.unhold s id) :=
  (State.unhold_keeps (Keeps.refl _)).after h

theorem State.dropWork_keeps {r s : State} {a1 : Task} (h : Keeps r s) :
    Keeps r (State.dropWork s a1) := by
  unfold State.dropWork
  repeat' first
    | with_reducible assumption
    | intro _
    | (extract_lets +onlyGivenNames x; with_reducible refine Keeps.name (r := r) (s := x) ?_ (fun hx => ?_); (on_goal 2 => clear_value x); (on_goal 1 => subst x))
    | (extract_lets +onlyGivenNames x; with_reducible refine Keeps.name (r := r) (s := x.1) ?_ (fun hx => ?_); (on_goal 2 => clear_value x); (on_goal 1 => subst x))
    | (extract_lets +onlyGivenNames x; have hx : ∀ a, x a = x a := (fun _ => rfl); clear hx; subst x)
    | (extract_lets +onlyGivenNames x; clear_value x)
    | with_reducible apply Keeps.ite
    | with_reducible apply State.countWindow_keeps
    | with_reducible apply Keeps.foldl
    | with_reducible apply Keeps.foldl_fst
    | (with_reducible refine Keeps.of_fst ?_ (by assumption))
    | (with_reducible refine Keeps.of_snd ?_ (by assumption))
    | split

theorem State.dropWork_steady {r s : State} {a1 : Task} (h : Steady r s) :
    Steady r (State.dropWork s a1) :=
  (State.dropWork_keeps (Keeps.refl _)).after h

theorem State.writeRecord_keeps {r s : State} {slot : Nat} {d : List Byte} (h : Keeps r s) :
    Keeps r (State.writeRecord s slot d) := by
  unfold State.writeRecord
  repeat' first
    | with_reducible assumption
    | intro _
    | with_reducible apply State.issueWrite_keeps
    | with_reducible apply Keeps.foldl
    | with_reducible apply Keeps.foldl_fst

theorem State.writeRecord_steady {r s : State} {slot : Nat} {d : List Byte} (h : Steady r s) :
    Steady r (State.writeRecord s slot d) :=
  (State.writeRecord_keeps (Keeps.refl _)).after h

theorem State.freeSlotRecord_keeps {r s : State} {slot : Option Nat} (h : Keeps r s) :
    Keeps r (State.freeSlotRecord s slot) := by
  unfold State.freeSlotRecord
  repeat' first
    | with_reducible assumption
    | with_reducible apply State.writeRecord_keeps
    | (with_reducible refine Keeps.of_fst ?_ (by assumption))
    | (with_reducible refine Keeps.of_snd ?_ (by assumption))
    | split

theorem State.freeSlotRecord_steady {r s : State} {slot : Option Nat} (h : Steady r s) :
    Steady r (State.freeSlotRecord s slot) :=
  (State.freeSlotRecord_keeps (Keeps.refl _)).after h

theorem State.closeRing_keeps {r s : State} {ring : Nat} (h : Keeps r s) :
    Keeps r (State.closeRing s ring) := by
  unfold State.closeRing
  repeat' first
    | with_reducible assumption
    | intro _
    | with_reducible apply Keeps.ite
    | with_reducible exact Keeps.upd_sqs (by assumption)
    | with_reducible apply State.issueWrite_keeps
    | (with_reducible refine Keeps.of_fst ?_ (by assumption))
    | (with_reducible refine Keeps.of_snd ?_ (by assumption))
    | split
    | with_reducible apply Keeps.upd_sqs

theorem State.closeRing_steady {r s : State} {ring : Nat} (h : Steady r s) :
    Steady r (State.closeRing s ring) :=
  (State.closeRing_keeps (Keeps.refl _)).after h

theorem State.openFences_keeps {r s : State} {ring : Nat} (h : Keeps r s) :
    Keeps r (State.openFences s ring) := by
  unfold State.openFences
  repeat' first
    | with_reducible assumption
    | intro _
    | with_reducible apply Keeps.ite
    | with_reducible apply State.modTask_keeps
    | (with_reducible refine Keeps.of_fst ?_ (by assumption))
    | (with_reducible refine Keeps.of_snd ?_ (by assumption))
    | split

theorem State.openFences_steady {r s : State} {ring : Nat} (h : Steady r s) :
    Steady r (State.openFences s ring) :=
  (State.openFences_keeps (Keeps.refl _)).after h

theorem State.retire_keeps {r s : State} {id : Nat} (h : Keeps r s) :
    Keeps r (State.retire s id) := by
  unfold State.retire
  repeat' first
    | with_reducible assumption
    | intro _
    | (extract_lets +onlyGivenNames x; with_reducible refine Keeps.name (r := r) (s := x) ?_ (fun hx => ?_); (on_goal 2 => clear_value x); (on_goal 1 => subst x))
    | (extract_lets +onlyGivenNames x; have hx : ∀ a, x a = x a := (fun _ => rfl); clear hx; subst x)
    | (extract_lets +onlyGivenNames x; clear_value x)
    | with_reducible apply Keeps.ite
    | with_reducible exact Keeps.upd_due_tasks (by assumption)
    | with_reducible apply State.releaseStream_keeps
    | with_reducible apply State.freeTask_keeps
    | with_reducible apply State.unhold_keeps
    | with_reducible apply State.dropWork_keeps
    | with_reducible apply State.freeSlotRecord_keeps
    | with_reducible apply State.closeRing_keeps
    | with_reducible apply State.openFences_keeps
    | (with_reducible refine Keeps.of_fst ?_ (by assumption))
    | (with_reducible refine Keeps.of_snd ?_ (by assumption))
    | split
    | with_reducible apply Keeps.upd_due_tasks

theorem State.retire_steady {r s : State} {id : Nat} (h : Steady r s) :
    Steady r (State.retire s id) :=
  (State.retire_keeps (Keeps.refl _)).after h

theorem State.stopTask_keeps {r s : State} {id : Nat} {status : Nat} {invalid : Bool} (h : Keeps r s) :
    Keeps r (State.stopTask s id status invalid) := by
  unfold State.stopTask
  repeat' first
    | with_reducible assumption
    | intro _
    | with_reducible apply Keeps.ite
    | with_reducible apply State.freeTask_keeps
    | with_reducible apply State.modTask_keeps
    | with_reducible apply State.unhold_keeps
    | with_reducible apply State.dropWork_keeps
    | with_reducible apply State.retire_keeps
    | (with_reducible refine Keeps.of_fst ?_ (by assumption))
    | (with_reducible refine Keeps.of_snd ?_ (by assumption))
    | split

theorem State.stopTask_steady {r s : State} {id : Nat} {status : Nat} {invalid : Bool} (h : Steady r s) :
    Steady r (State.stopTask s id status invalid) :=
  (State.stopTask_keeps (Keeps.refl _)).after h

theorem State.postEntry_keeps {r s : State} {d : DueEntry} (h : Keeps r s) :
    Keeps r (State.postEntry s d) := by
  unfold State.postEntry
  repeat' first
    | with_reducible assumption
    | with_reducible exact Keeps.upd_due (by assumption)
    | with_reducible apply Keeps.upd_due

theorem State.postEntry_steady {r s : State} {d : DueEntry} (h : Steady r s) :
    Steady r (State.postEntry s d) :=
  (State.postEntry_keeps (Keeps.refl _)).after h

theorem State.finishTask_keeps {r s : State} {id : Nat} (h : Keeps r s) :
    Keeps r (State.finishTask s id) := by
  unfold State.finishTask
  repeat' first
    | with_reducible assumption
    | intro _
    | with_reducible apply Keeps.ite
    | with_reducible apply State.releaseStream_keeps
    | with_reducible apply State.modTask_keeps
    | with_reducible apply State.retire_keeps
    | (with_reducible refine Keeps.of_fst ?_ (by assumption))
    | (with_reducible refine Keeps.of_snd ?_ (by assumption))
    | split

theorem State.finishTask_steady {r s : State} {id : Nat} (h : Steady r s) :
    Steady r (State.finishTask s id) :=
  (State.finishTask_keeps (Keeps.refl _)).after h

theorem State.countLate_keeps {r s : State} {a1 : Task} (h : Keeps r s) :
    Keeps r (State.countLate s a1) := by
  unfold State.countLate
  repeat' first
    | with_reducible assumption
    | intro _
    | (extract_lets +onlyGivenNames x; with_reducible refine Keeps.name (r := r) (s := x) ?_ (fun hx => ?_); (on_goal 2 => clear_value x); (on_goal 1 => subst x))
    | (extract_lets +onlyGivenNames x; have hx : ∀ a, x a = x a := (fun _ => rfl); clear hx; subst x)
    | (extract_lets +onlyGivenNames x; clear_value x)
    | with_reducible apply Keeps.ite
    | with_reducible apply State.modTask_keeps
    | with_reducible apply State.incFld_keeps
    | with_reducible apply State.raiseOn_keeps
    | split

theorem State.countLate_steady {r s : State} {a1 : Task} (h : Steady r s) :
    Steady r (State.countLate s a1) :=
  (State.countLate_keeps (Keeps.refl _)).after h

theorem State.placeOutputs_keeps {r s : State} {id : Nat} (h : Keeps r s) :
    Keeps r (State.placeOutputs s id) := by
  unfold State.placeOutputs
  repeat' first
    | with_reducible assumption
    | intro _
    | (extract_lets +onlyGivenNames x; with_reducible refine Keeps.name (r := r) (s := x) ?_ (fun hx => ?_); (on_goal 2 => clear_value x); (on_goal 1 => subst x))
    | (extract_lets +onlyGivenNames x; have hx : ∀ a, x a = x a := (fun _ => rfl); clear hx; subst x)
    | (extract_lets +onlyGivenNames x; clear_value x)
    | with_reducible apply Keeps.ite
    | with_reducible apply State.modTask_keeps
    | with_reducible apply State.countLate_keeps
    | (with_reducible refine Keeps.of_fst ?_ (by assumption))
    | (with_reducible refine Keeps.of_snd ?_ (by assumption))
    | split

theorem State.placeOutputs_steady {r s : State} {id : Nat} (h : Steady r s) :
    Steady r (State.placeOutputs s id) :=
  (State.placeOutputs_keeps (Keeps.refl _)).after h

theorem State.countOverclass_keeps {r s : State} {flow : Nat} (h : Keeps r s) :
    Keeps r (State.countOverclass s flow) := by
  unfold State.countOverclass
  repeat' first
    | with_reducible assumption
    | with_reducible apply State.incFld_keeps

theorem State.countOverclass_steady {r s : State} {flow : Nat} (h : Steady r s) :
    Steady r (State.countOverclass s flow) :=
  (State.countOverclass_keeps (Keeps.refl _)).after h

theorem State.holdMark_keeps {r s : State} {id : Nat} {a2 : Nat} (h : Keeps r s) :
    Keeps r (State.holdMark s id a2) := by
  unfold State.holdMark
  repeat' first
    | with_reducible assumption
    | intro _
    | with_reducible apply State.updateMark_keeps
    | with_reducible apply State.modTask_keeps

theorem State.holdMark_steady {r s : State} {id : Nat} {a2 : Nat} (h : Steady r s) :
    Steady r (State.holdMark s id a2) :=
  (State.holdMark_keeps (Keeps.refl _)).after h

theorem State.spawn_keeps {r s : State} {a1 : Task} (h : Keeps r s) :
    Keeps r (State.spawn s a1).1 := by
  unfold State.spawn
  repeat' first
    | with_reducible assumption
    | (extract_lets +onlyGivenNames x; with_reducible refine Keeps.name (r := r) (s := x) ?_ (fun hx => ?_); (on_goal 2 => clear_value x); (on_goal 1 => subst x))
    | (extract_lets +onlyGivenNames x; clear_value x)
    | with_reducible exact Keeps.upd_tasks_nextTask (by assumption)
    | with_reducible apply Keeps.upd_tasks_nextTask

theorem State.spawn_steady {r s : State} {a1 : Task} (h : Steady r s) :
    Steady r (State.spawn s a1).1 :=
  (State.spawn_keeps (Keeps.refl _)).after h

theorem State.ckptAnswered_steady {r s : State} {task : Nat} {flow : Nat} {copy : Nat} {ok : Bool} (h : Steady r s) :
    Steady r (State.ckptAnswered s task flow copy ok) := by
  unfold State.ckptAnswered
  repeat' first
    | with_reducible assumption
    | intro _
    | (extract_lets +onlyGivenNames x; with_reducible refine Steady.name (r := r) (s := x) ?_ (fun hx => ?_); (on_goal 2 => clear_value x); (on_goal 1 => subst x))
    | (extract_lets +onlyGivenNames x; have hx : ∀ a, x a = x a := (fun _ => rfl); clear hx; subst x)
    | (extract_lets +onlyGivenNames x; clear_value x)
    | with_reducible apply Steady.ite
    | with_reducible exact Steady.upd_saved (by assumption)
    | with_reducible apply State.modTask_steady
    | with_reducible apply State.modRun_steady
    | (with_reducible refine Steady.of_fst ?_ (by assumption))
    | (with_reducible refine Steady.of_snd ?_ (by assumption))
    | split
    | with_reducible apply Steady.upd_saved

theorem State.imageAnswered_steady {r s : State} {areaB : Bool} (h : Steady r s) :
    Steady r (State.imageAnswered s areaB) := by
  unfold State.imageAnswered
  repeat' first
    | with_reducible assumption
    | intro _
    | with_reducible apply Steady.ite
    | with_reducible apply State.issueWrite_steady
    | (with_reducible refine Steady.of_fst ?_ (by assumption))
    | (with_reducible refine Steady.of_snd ?_ (by assumption))
    | split

theorem State.cqInterrupt_steady {r s : State} {cq : Nat} (h : Steady r s) :
    Steady r (State.cqInterrupt s cq) := by
  unfold State.cqInterrupt
  repeat' first
    | with_reducible assumption
    | intro _
    | (extract_lets +onlyGivenNames x; with_reducible refine Steady.name (r := r) (s := x) ?_ (fun hx => ?_); (on_goal 2 => clear_value x); (on_goal 1 => subst x))
    | (extract_lets +onlyGivenNames x; have hx : ∀ a, x a = x a := (fun _ => rfl); clear hx; subst x)
    | (extract_lets +onlyGivenNames x; clear_value x)
    | with_reducible apply Steady.ite
    | with_reducible apply State.interrupt_steady
    | with_reducible apply State.modCq_steady
    | (with_reducible refine Steady.of_fst ?_ (by assumption))
    | (with_reducible refine Steady.of_snd ?_ (by assumption))
    | split

theorem State.writeCtx_steady {r s : State} {fe : FlowEntry} {task : Nat} {seq : Nat} {c : Prod Nat (Prod Nat Bool)} (h : Steady r s) :
    Steady r (State.writeCtx s fe task seq c) := by
  unfold State.writeCtx
  repeat' first
    | with_reducible assumption
    | (extract_lets +onlyGivenNames x; with_reducible refine Steady.name (r := r) (s := x) ?_ (fun hx => ?_); (on_goal 2 => clear_value x); (on_goal 1 => subst x))
    | (extract_lets +onlyGivenNames x; clear_value x)
    | with_reducible apply State.nextFree_steady
    | with_reducible apply State.issueWrite_steady
    | (with_reducible refine Steady.of_fst ?_ (by assumption))
    | (with_reducible refine Steady.of_snd ?_ (by assumption))
    | split

theorem State.checkpoint_steady {r s : State} {fe : FlowEntry} {task : Nat} (h : Steady r s) :
    Steady r (State.checkpoint s fe task) := by
  unfold State.checkpoint
  repeat' first
    | with_reducible assumption
    | intro _
    | (extract_lets +onlyGivenNames x; with_reducible refine Steady.name (r := r) (s := x) ?_ (fun hx => ?_); (on_goal 2 => clear_value x); (on_goal 1 => subst x))
    | (extract_lets +onlyGivenNames x; with_reducible refine Steady.name (r := r) (s := x.1) ?_ (fun hx => ?_); (on_goal 2 => clear_value x); (on_goal 1 => subst x))
    | (extract_lets +onlyGivenNames x; have hx : ∀ a, x a = x a := (fun _ => rfl); clear hx; subst x)
    | (extract_lets +onlyGivenNames x; clear_value x)
    | with_reducible apply Steady.ite
    | with_reducible exact Steady.upd_saved (by assumption)
    | with_reducible apply State.modRun_steady
    | with_reducible apply State.writeCtx_steady
    | with_reducible apply State.modTask_steady
    | with_reducible apply Steady.foldl
    | with_reducible apply Steady.foldl_fst
    | (with_reducible refine Steady.of_fst ?_ (by assumption))
    | (with_reducible refine Steady.of_snd ?_ (by assumption))
    | split
    | with_reducible apply Steady.upd_saved

theorem State.releaseSlot_steady {r s : State} {a1 : Option (Prod Nat Nat)} (h : Steady r s) :
    Steady r (State.releaseSlot s a1) := by
  unfold State.releaseSlot
  repeat' first
    | with_reducible assumption
    | intro _
    | with_reducible apply State.modPort_steady
    | (with_reducible refine Steady.of_fst ?_ (by assumption))
    | (with_reducible refine Steady.of_snd ?_ (by assumption))
    | split

theorem State.writeEntry_steady {r s : State} {c : CqRing} {d : DueEntry} (h : Steady r s) :
    Steady r (State.writeEntry s c d) := by
  unfold State.writeEntry
  repeat' first
    | with_reducible assumption
    | intro _
    | (extract_lets +onlyGivenNames x; with_reducible refine Steady.name (r := r) (s := x) ?_ (fun hx => ?_); (on_goal 2 => clear_value x); (on_goal 1 => subst x))
    | (extract_lets +onlyGivenNames x; have hx : ∀ a, x a = x a := (fun _ => rfl); clear hx; subst x)
    | (extract_lets +onlyGivenNames x; clear_value x)
    | with_reducible apply Steady.ite
    | with_reducible apply State.issueWrite_steady
    | with_reducible apply State.modCq_steady
    | with_reducible apply State.releaseSlot_steady
    | with_reducible apply State.cqInterrupt_steady
    | split

theorem State.writeImage_steady {r s : State} {a1 : Nat} {areaB : Bool} (h : Steady r s) :
    Steady r (State.writeImage s a1 areaB) := by
  unfold State.writeImage
  repeat' first
    | with_reducible assumption
    | with_reducible apply State.issueWrite_steady

theorem State.writeImages_steady {r s : State} (h : Steady r s) :
    Steady r (State.writeImages s) := by
  unfold State.writeImages
  repeat' first
    | with_reducible assumption
    | (extract_lets +onlyGivenNames x; with_reducible refine Steady.name (r := r) (s := x) ?_ (fun hx => ?_); (on_goal 2 => clear_value x); (on_goal 1 => subst x))
    | (extract_lets +onlyGivenNames x; have hx : ∀ a, x a = x a := (fun _ => rfl); clear hx; subst x)
    | (extract_lets +onlyGivenNames x; clear_value x)
    | with_reducible apply Steady.ite
    | with_reducible exact Steady.upd_imageSeq (by assumption)
    | with_reducible apply State.imageAnswered_steady
    | with_reducible apply State.writeImage_steady
    | (with_reducible refine Steady.of_fst ?_ (by assumption))
    | (with_reducible refine Steady.of_snd ?_ (by assumption))
    | split
    | with_reducible apply Steady.upd_imageSeq

theorem State.journal_steady {r s : State} {a1 : Task} (h : Steady r s) :
    Steady r (State.journal s a1) := by
  unfold State.journal
  repeat' first
    | with_reducible assumption
    | with_reducible apply Steady.ite
    | with_reducible apply State.writeRecord_steady
    | split

theorem State.accept_steady {r s : State} {a1 : Task} (h : Steady r s) :
    Steady r (State.accept s a1).1 := by
  unfold State.accept
  repeat' first
    | with_reducible assumption
    | intro _
    | (extract_lets +onlyGivenNames x; with_reducible refine Steady.name (r := r) (s := x) ?_ (fun hx => ?_); (on_goal 2 => clear_value x); (on_goal 1 => subst x))
    | (extract_lets +onlyGivenNames x; have hx : ∀ a, x a = x a := (fun _ => rfl); clear hx; subst x)
    | (extract_lets +onlyGivenNames x; clear_value x)
    | with_reducible exact Steady.upd_tasks_nextTask (by assumption)
    | with_reducible apply State.journal_steady
    | (with_reducible refine Steady.of_fst ?_ (by assumption))
    | (with_reducible refine Steady.of_snd ?_ (by assumption))
    | split
    | with_reducible apply Steady.upd_tasks_nextTask

theorem State.taskEnd_steady {r s : State} {id : Nat} (h : Steady r s) :
    Steady r (State.taskEnd s id) := by
  unfold State.taskEnd
  repeat' first
    | with_reducible assumption
    | intro _
    | (extract_lets +onlyGivenNames x; with_reducible refine Steady.name (r := r) (s := x) ?_ (fun hx => ?_); (on_goal 2 => clear_value x); (on_goal 1 => subst x))
    | (extract_lets +onlyGivenNames x; have hx : ∀ a, x a = x a := (fun _ => rfl); clear hx; subst x)
    | (extract_lets +onlyGivenNames x; clear_value x)
    | with_reducible apply Steady.ite
    | with_reducible exact Steady.upd_due (by assumption)
    | with_reducible apply State.releaseStream_steady
    | with_reducible apply State.freeTask_steady
    | with_reducible apply State.checkpoint_steady
    | (with_reducible refine Steady.of_fst ?_ (by assumption))
    | (with_reducible refine Steady.of_snd ?_ (by assumption))
    | split
    | with_reducible apply Steady.upd_due

theorem State.dropDue_steady {r s : State} {d : DueEntry} (h : Steady r s) :
    Steady r (State.dropDue s d) := by
  unfold State.dropDue
  repeat' first
    | with_reducible assumption
    | with_reducible exact Steady.upd_due (by assumption)
    | with_reducible apply Steady.upd_due

theorem State.endEntry_steady {r s : State} {d : DueEntry} (h : Steady r s) :
    Steady r (State.endEntry s d) := by
  unfold State.endEntry
  repeat' first
    | with_reducible assumption
    | intro _
    | with_reducible apply State.retire_steady
    | with_reducible apply State.dropDue_steady
    | (with_reducible refine Steady.of_fst ?_ (by assumption))
    | (with_reducible refine Steady.of_snd ?_ (by assumption))
    | split

theorem State.holdEntries_steady {r s : State} {c : CqRing} (h : Steady r s) :
    Steady r (State.holdEntries s c) := by
  unfold State.holdEntries
  repeat' first
    | with_reducible assumption
    | intro _
    | (extract_lets +onlyGivenNames x; with_reducible refine Steady.name (r := r) (s := x) ?_ (fun hx => ?_); (on_goal 2 => clear_value x); (on_goal 1 => subst x))
    | (extract_lets +onlyGivenNames x; with_reducible refine Steady.name (r := r) (s := x.1) ?_ (fun hx => ?_); (on_goal 2 => clear_value x); (on_goal 1 => subst x))
    | (extract_lets +onlyGivenNames x; have hx : ∀ a, x a = x a := (fun _ => rfl); clear hx; subst x)
    | (extract_lets +onlyGivenNames x; clear_value x)
    | with_reducible apply Steady.ite
    | with_reducible apply State.modTask_steady
    | with_reducible apply State.raiseOn_steady
    | with_reducible apply State.setFld_steady
    | with_reducible apply State.modCq_steady
    | with_reducible apply Steady.foldl
    | with_reducible apply Steady.foldl_fst
    | (with_reducible refine Steady.of_fst ?_ (by assumption))
    | (with_reducible refine Steady.of_snd ?_ (by assumption))
    | split

theorem State.lateIfHeld_steady {r s : State} {d : DueEntry} (h : Steady r s) :
    Steady r (State.lateIfHeld s d) := by
  unfold State.lateIfHeld
  repeat' first
    | with_reducible assumption
    | with_reducible apply Steady.ite
    | with_reducible apply State.countLate_steady
    | (with_reducible refine Steady.of_fst ?_ (by assumption))
    | (with_reducible refine Steady.of_snd ?_ (by assumption))
    | split

theorem State.completionWrite_steady {r s : State} {cq : Nat} (h : Steady r s) :
    Steady r (State.completionWrite s cq) := by
  unfold State.completionWrite
  repeat' first
    | with_reducible assumption
    | (extract_lets +onlyGivenNames x; with_reducible refine Steady.name (r := r) (s := x) ?_ (fun hx => ?_); (on_goal 2 => clear_value x); (on_goal 1 => subst x))
    | (extract_lets +onlyGivenNames x; clear_value x)
    | with_reducible apply Steady.ite
    | with_reducible apply State.setFld_steady
    | with_reducible apply State.endEntry_steady
    | with_reducible apply State.releaseSlot_steady
    | with_reducible apply State.holdEntries_steady
    | with_reducible apply State.writeEntry_steady
    | with_reducible apply State.lateIfHeld_steady
    | (with_reducible refine Steady.of_fst ?_ (by assumption))
    | (with_reducible refine Steady.of_snd ?_ (by assumption))
    | split

end Sys2Proof.Machine
end

