-- ==== Sys2Proof/Laws/FrameRings.lean ====
section
/-! SUPPORT. What the operations of Machine/Rings.lean leave as it is. -/

set_option Elab.async false
set_option linter.unusedTactic false
set_option linter.unreachableTactic false

namespace Sys2Proof.Machine

open Sys2Proof.Safety

theorem State.enqueue_steady {r s : State} {q : CsReq} {t : Nat} {off : Nat} {v : Word} {die : Bool} (h : Steady r s)
    (hn : s.stalls t = false) : Steady r (State.enqueue s q t off v die) := by
  unfold State.enqueue
  refine h.modTen (fun x _ hx _ => ?_)
  subst hx
  simp only [State.stalls, decide_eq_false_iff_not] at hn
  simp only [List.length_append, List.length_cons, List.length_nil]
  omega

theorem State.badPush_steady {r s : State} {a1 : Nat} {counter : Field} (h : Steady r s) :
    Steady r (State.badPush s a1 counter) := by
  unfold State.badPush
  repeat' first
    | with_reducible assumption
    | with_reducible apply State.raiseOn_steady
    | with_reducible apply State.setFld_steady
    | with_reducible apply State.incFld_steady

theorem State.doorbellPush_steady {r s : State} {a1 : Nat} {v : Word} (h : Steady r s) :
    Steady r (State.doorbellPush s a1 v) := by
  unfold State.doorbellPush
  repeat' first
    | with_reducible assumption
    | intro _
    | (extract_lets +onlyGivenNames x; with_reducible refine Steady.name (r := r) (s := x) ?_ (fun hx => ?_); (on_goal 2 => clear_value x); (on_goal 1 => subst x))
    | (extract_lets +onlyGivenNames x; have hx : ∀ a, x a = x a := (fun _ => rfl); clear hx; subst x)
    | (extract_lets +onlyGivenNames x; clear_value x)
    | with_reducible apply Steady.ite
    | with_reducible apply State.badPush_steady
    | with_reducible apply State.modSq_steady
    | with_reducible apply State.issueWrite_steady
    | (with_reducible refine Steady.of_fst ?_ (by assumption))
    | (with_reducible refine Steady.of_snd ?_ (by assumption))
    | split

theorem State.cqDoorbellPush_steady {r s : State} {a1 : Nat} {v : Word} (h : Steady r s) :
    Steady r (State.cqDoorbellPush s a1 v) := by
  unfold State.cqDoorbellPush
  repeat' first
    | with_reducible assumption
    | intro _
    | (extract_lets +onlyGivenNames x; with_reducible refine Steady.name (r := r) (s := x) ?_ (fun hx => ?_); (on_goal 2 => clear_value x); (on_goal 1 => subst x))
    | (extract_lets +onlyGivenNames x; have hx : ∀ a, x a = x a := (fun _ => rfl); clear hx; subst x)
    | (extract_lets +onlyGivenNames x; clear_value x)
    | with_reducible apply Steady.ite
    | with_reducible apply State.badPush_steady
    | with_reducible apply State.modCq_steady
    | with_reducible apply State.issueWrite_steady
    | (with_reducible refine Steady.of_fst ?_ (by assumption))
    | (with_reducible refine Steady.of_snd ?_ (by assumption))
    | split

theorem State.ringResult_steady {r s : State} {a1 : Nat} {ring : Nat} {a3 : RingResult} (h : Steady r s) :
    Steady r (State.ringResult s a1 ring a3) := by
  unfold State.ringResult
  repeat' first
    | with_reducible assumption
    | with_reducible apply State.setFlds_steady

theorem State.fetchRecord_steady {r s : State} {cq : Bool} {a2 : Nat} {ring : Nat} {a4 : Nat} (h : Steady r s) :
    Steady r (State.fetchRecord s cq a2 ring a4) := by
  unfold State.fetchRecord
  repeat' first
    | with_reducible assumption
    | with_reducible apply State.issueRead_steady
    | with_reducible apply State.setFlds_steady

theorem State.sqRecordCame_steady {r s : State} {a1 : Nat} {ring : Nat} {d : List Byte} (h : Steady r s) :
    Steady r (State.sqRecordCame s a1 ring d) := by
  unfold State.sqRecordCame
  repeat' first
    | with_reducible assumption
    | intro _
    | (extract_lets +onlyGivenNames x; with_reducible refine Steady.name (r := r) (s := x) ?_ (fun hx => ?_); (on_goal 2 => clear_value x); (on_goal 1 => subst x))
    | (extract_lets +onlyGivenNames x; have hx : ∀ a, x a = x a := (fun _ => rfl); clear hx; subst x)
    | (extract_lets +onlyGivenNames x; clear_value x)
    | with_reducible apply Steady.ite
    | with_reducible exact Steady.upd_sqs (by assumption)
    | with_reducible apply State.ringResult_steady
    | with_reducible apply State.issueWrite_steady
    | split
    | with_reducible apply Steady.upd_sqs

theorem State.sqEnable_steady {r s : State} {a1 : Nat} {ring : Nat} {f : Fetch} (h : Steady r s) :
    Steady r (State.sqEnable s a1 ring f) := by
  unfold State.sqEnable
  repeat' first
    | with_reducible assumption
    | (extract_lets +onlyGivenNames x; with_reducible refine Steady.name (r := r) (s := x) ?_ (fun hx => ?_); (on_goal 2 => clear_value x); (on_goal 1 => subst x))
    | (extract_lets +onlyGivenNames x; clear_value x)
    | with_reducible apply Steady.ite
    | with_reducible apply State.ringResult_steady
    | with_reducible apply State.fetchRecord_steady
    | with_reducible apply State.fetchFail_steady
    | with_reducible apply State.sqRecordCame_steady
    | (with_reducible refine Steady.of_fst ?_ (by assumption))
    | (with_reducible refine Steady.of_snd ?_ (by assumption))
    | split

theorem State.sqDisable_steady {r s : State} {a1 : Nat} {ring : Nat} (h : Steady r s) :
    Steady r (State.sqDisable s a1 ring) := by
  unfold State.sqDisable
  repeat' first
    | with_reducible assumption
    | intro _
    | (extract_lets +onlyGivenNames x; with_reducible refine Steady.name (r := r) (s := x) ?_ (fun hx => ?_); (on_goal 2 => clear_value x); (on_goal 1 => subst x))
    | (extract_lets +onlyGivenNames x; have hx : ∀ a, x a = x a := (fun _ => rfl); clear hx; subst x)
    | (extract_lets +onlyGivenNames x; clear_value x)
    | with_reducible apply Steady.ite
    | with_reducible apply State.ringResult_steady
    | with_reducible apply State.modSq_steady
    | with_reducible apply State.issueWrite_steady
    | with_reducible apply State.closeRing_steady
    | (with_reducible refine Steady.of_fst ?_ (by assumption))
    | (with_reducible refine Steady.of_snd ?_ (by assumption))
    | split

theorem State.cqRecordCame_steady {r s : State} {a1 : Nat} {ring : Nat} {d : List Byte} (h : Steady r s) :
    Steady r (State.cqRecordCame s a1 ring d) := by
  unfold State.cqRecordCame
  repeat' first
    | with_reducible assumption
    | (extract_lets +onlyGivenNames x; with_reducible refine Steady.name (r := r) (s := x) ?_ (fun hx => ?_); (on_goal 2 => clear_value x); (on_goal 1 => subst x))
    | (extract_lets +onlyGivenNames x; clear_value x)
    | with_reducible apply Steady.ite
    | with_reducible exact Steady.upd_cqs (by assumption)
    | with_reducible apply State.ringResult_steady
    | with_reducible apply State.issueWrite_steady
    | split
    | with_reducible apply Steady.upd_cqs

theorem State.cqEnable_steady {r s : State} {a1 : Nat} {ring : Nat} {f : Fetch} (h : Steady r s) :
    Steady r (State.cqEnable s a1 ring f) := by
  unfold State.cqEnable
  repeat' first
    | with_reducible assumption
    | (extract_lets +onlyGivenNames x; with_reducible refine Steady.name (r := r) (s := x) ?_ (fun hx => ?_); (on_goal 2 => clear_value x); (on_goal 1 => subst x))
    | (extract_lets +onlyGivenNames x; clear_value x)
    | with_reducible apply Steady.ite
    | with_reducible apply State.ringResult_steady
    | with_reducible apply State.fetchRecord_steady
    | with_reducible apply State.fetchFail_steady
    | with_reducible apply State.cqRecordCame_steady
    | (with_reducible refine Steady.of_fst ?_ (by assumption))
    | (with_reducible refine Steady.of_snd ?_ (by assumption))
    | split

theorem State.cqDisable_steady {r s : State} {a1 : Nat} {ring : Nat} (h : Steady r s) :
    Steady r (State.cqDisable s a1 ring) := by
  unfold State.cqDisable
  repeat' first
    | with_reducible assumption
    | intro _
    | (extract_lets +onlyGivenNames x; with_reducible refine Steady.name (r := r) (s := x) ?_ (fun hx => ?_); (on_goal 2 => clear_value x); (on_goal 1 => subst x))
    | (extract_lets +onlyGivenNames x; have hx : ∀ a, x a = x a := (fun _ => rfl); clear hx; subst x)
    | (extract_lets +onlyGivenNames x; clear_value x)
    | with_reducible apply Steady.ite
    | with_reducible exact Steady.upd_cqs (by assumption)
    | with_reducible apply State.ringResult_steady
    | with_reducible apply State.issueWrite_steady
    | split
    | with_reducible apply Steady.upd_cqs

theorem State.ringCommand_steady {r s : State} {a1 : Nat} {v : Word} {f : Fetch} (h : Steady r s) :
    Steady r (State.ringCommand s a1 v f) := by
  unfold State.ringCommand
  repeat' first
    | with_reducible assumption
    | intro _
    | (extract_lets +onlyGivenNames x; with_reducible refine Steady.name (r := r) (s := x) ?_ (fun hx => ?_); (on_goal 2 => clear_value x); (on_goal 1 => subst x))
    | (extract_lets +onlyGivenNames x; clear_value x)
    | with_reducible apply Steady.ite
    | with_reducible apply State.setFld_steady
    | with_reducible apply State.sqEnable_steady
    | with_reducible apply State.sqDisable_steady
    | with_reducible apply State.cqEnable_steady
    | with_reducible apply State.cqDisable_steady
    | split

theorem State.sqTable_steady {r s : State} {a1 : CsReq} {a2 : Nat} {v : Word} (h : Steady r s) :
    Steady r (State.sqTable s a1 a2 v) := by
  unfold State.sqTable
  repeat' first
    | with_reducible assumption
    | intro _
    | with_reducible apply Steady.ite
    | with_reducible apply State.logAccess_steady
    | with_reducible apply State.setFld_steady
    | split

theorem State.cqTable_steady {r s : State} {a1 : CsReq} {a2 : Nat} {v : Word} (h : Steady r s) :
    Steady r (State.cqTable s a1 a2 v) := by
  unfold State.cqTable
  repeat' first
    | with_reducible assumption
    | intro _
    | with_reducible apply Steady.ite
    | with_reducible apply State.logAccess_steady
    | with_reducible apply State.setFld_steady
    | split

theorem State.lostRecord_steady {r s : State} {a1 : Nat} {ring : Nat} {a3 : Nat} (h : Steady r s) :
    Steady r (State.lostRecord s a1 ring a3) := by
  unfold State.lostRecord
  repeat' first
    | with_reducible assumption
    | with_reducible apply State.ringResult_steady
    | with_reducible apply State.raise_steady

theorem State.irqDelayExpire_steady {r s : State} {cq : Nat} (h : Steady r s) :
    Steady r (State.irqDelayExpire s cq) := by
  unfold State.irqDelayExpire
  repeat' first
    | with_reducible assumption
    | intro _
    | with_reducible apply Steady.ite
    | with_reducible apply State.cqInterrupt_steady
    | with_reducible apply State.modCq_steady
    | with_reducible apply State.advance_steady
    | (with_reducible refine Steady.of_fst ?_ (by assumption))
    | (with_reducible refine Steady.of_snd ?_ (by assumption))
    | split

theorem State.gotRecord_steady {r s : State} {cq : Bool} {a2 : Nat} {ring : Nat} {d : List Byte} (h : Steady r s) :
    Steady r (State.gotRecord s cq a2 ring d) := by
  unfold State.gotRecord
  repeat' first
    | with_reducible assumption
    | with_reducible apply Steady.ite
    | with_reducible apply State.cqRecordCame_steady
    | with_reducible apply State.ringResult_steady
    | with_reducible apply State.sqRecordCame_steady
    | split

end Sys2Proof.Machine
end

