-- ==== Sys2Proof/Laws/FrameLive.lean ====
section
/-! SUPPORT. What the operations of Machine/Live.lean leave as it is. -/

set_option Elab.async false
set_option linter.unusedTactic false
set_option linter.unreachableTactic false

namespace Sys2Proof.Machine

open Sys2Proof.Safety

theorem State.setClock_steady {r s : State} {fe : FlowEntry} {tArr : Nat} (h : Steady r s) :
    Steady r (State.setClock s fe tArr) := by
  unfold State.setClock
  repeat' first
    | with_reducible assumption
    | intro _
    | with_reducible apply State.modRun_steady
    | (with_reducible refine Steady.of_fst ?_ (by assumption))
    | (with_reducible refine Steady.of_snd ?_ (by assumption))
    | split

theorem State.carryControl_steady {r s : State} {fe : FlowEntry} {e : EncEntry} {p : Nat} {sl : Nat} {f : Fetch} (h : Steady r s) :
    Steady r (State.carryControl s fe e p sl f) := by
  unfold State.carryControl
  repeat' first
    | with_reducible assumption
    | intro _
    | with_reducible apply State.fetchFail_steady
    | with_reducible apply State.modRun_steady
    | (with_reducible refine Steady.of_fst ?_ (by assumption))
    | (with_reducible refine Steady.of_snd ?_ (by assumption))
    | split

theorem State.carryPart_steady {r s : State} {a1 : Nat} {p : Nat} {d : List Byte} (h : Steady r s) :
    Steady r (State.carryPart s a1 p d) := by
  unfold State.carryPart
  repeat' first
    | with_reducible assumption
    | intro _
    | (extract_lets +onlyGivenNames x; with_reducible refine Steady.name (r := r) (s := x) ?_ (fun hx => ?_); (on_goal 2 => clear_value x); (on_goal 1 => subst x))
    | (extract_lets +onlyGivenNames x; have hx : ∀ a, x a = x a := (fun _ => rfl); clear hx; subst x)
    | (extract_lets +onlyGivenNames x; clear_value x)
    | with_reducible apply Steady.ite
    | with_reducible apply State.incFld_steady
    | with_reducible apply State.addFld_steady
    | with_reducible apply State.modPort_steady
    | (with_reducible refine Steady.of_fst ?_ (by assumption))
    | (with_reducible refine Steady.of_snd ?_ (by assumption))
    | split

theorem State.carryParts_steady {r s : State} {a1 : Nat} {p : Nat} {f : Fetch} {parts : List (Prod Nat Nat)} (h : Steady r s) :
    Steady r (State.carryParts s a1 p f parts) := by
  unfold State.carryParts
  repeat' first
    | with_reducible assumption
    | intro _
    | with_reducible apply Steady.ite
    | with_reducible apply State.incFld_steady
    | with_reducible apply State.carryPart_steady
    | with_reducible apply State.fetchFail_steady
    | with_reducible apply Steady.foldl
    | with_reducible apply Steady.foldl_fst
    | (with_reducible refine Steady.of_fst ?_ (by assumption))
    | (with_reducible refine Steady.of_snd ?_ (by assumption))
    | split

theorem State.carryKeep_steady {r s : State} {fe : FlowEntry} {p : Nat} {sl : Nat} {f : Fetch} (h : Steady r s) :
    Steady r (State.carryKeep s fe p sl f) := by
  unfold State.carryKeep
  repeat' first
    | with_reducible assumption
    | with_reducible apply Steady.ite
    | with_reducible apply State.carryControl_steady
    | with_reducible apply State.fetchFail_steady
    | with_reducible apply State.carryParts_steady
    | (with_reducible refine Steady.of_fst ?_ (by assumption))
    | (with_reducible refine Steady.of_snd ?_ (by assumption))
    | split

theorem State.livePushed_steady {r s : State} {a1 : Nat} {p : Nat} {sl : Nat} {tArr : Nat} {die : Bool} {f : Fetch} (h : Steady r s) :
    Steady r (State.livePushed s a1 p sl tArr die f) := by
  unfold State.livePushed
  repeat' first
    | with_reducible assumption
    | intro _
    | (extract_lets +onlyGivenNames x; with_reducible refine Steady.name (r := r) (s := x) ?_ (fun hx => ?_); (on_goal 2 => clear_value x); (on_goal 1 => subst x))
    | (extract_lets +onlyGivenNames x; have hx : ∀ a, x a = x a := (fun _ => rfl); clear hx; subst x)
    | (extract_lets +onlyGivenNames x; clear_value x)
    | with_reducible apply Steady.ite
    | with_reducible apply State.incFld_steady
    | with_reducible apply State.setClock_steady
    | with_reducible apply State.modPort_steady
    | with_reducible apply State.carryKeep_steady
    | with_reducible apply State.postEntry_steady
    | (with_reducible refine Steady.of_fst ?_ (by assumption))
    | (with_reducible refine Steady.of_snd ?_ (by assumption))
    | split

theorem State.liveTable_steady {r s : State} {a1 : CsReq} {a2 : Nat} {v : Word} (h : Steady r s) :
    Steady r (State.liveTable s a1 a2 v) := by
  unfold State.liveTable
  repeat' first
    | with_reducible assumption
    | intro _
    | (extract_lets +onlyGivenNames x; with_reducible refine Steady.name (r := r) (s := x) ?_ (fun hx => ?_); (on_goal 2 => clear_value x); (on_goal 1 => subst x))
    | (extract_lets +onlyGivenNames x; have hx : ∀ a, x a = x a := (fun _ => rfl); clear hx; subst x)
    | (extract_lets +onlyGivenNames x; clear_value x)
    | with_reducible apply Steady.ite
    | with_reducible apply State.logAccess_steady
    | with_reducible apply State.setFld_steady
    | (with_reducible refine Steady.of_fst ?_ (by assumption))
    | (with_reducible refine Steady.of_snd ?_ (by assumption))
    | split

theorem State.unbindPort_steady {r s : State} {p : Nat} (h : Steady r s) :
    Steady r (State.unbindPort s p) := by
  unfold State.unbindPort
  repeat' first
    | with_reducible assumption
    | intro _
    | with_reducible apply Steady.ite
    | with_reducible exact Steady.upd_due_tasks (by assumption)
    | (with_reducible refine Steady.of_fst ?_ (by assumption))
    | (with_reducible refine Steady.of_snd ?_ (by assumption))
    | split
    | with_reducible apply Steady.upd_due_tasks

theorem State.quoinPorts_steady {r s : State} {old : Forme} (h : Steady r s) :
    Steady r (State.quoinPorts s old) := by
  unfold State.quoinPorts
  repeat' first
    | with_reducible assumption
    | intro _
    | (extract_lets +onlyGivenNames x; with_reducible refine Steady.name (r := r) (s := x) ?_ (fun hx => ?_); (on_goal 2 => clear_value x); (on_goal 1 => subst x))
    | (extract_lets +onlyGivenNames x; with_reducible refine Steady.name (r := r) (s := x.1) ?_ (fun hx => ?_); (on_goal 2 => clear_value x); (on_goal 1 => subst x))
    | (extract_lets +onlyGivenNames x; have hx : ∀ a, x a = x a := (fun _ => rfl); clear hx; subst x)
    | (extract_lets +onlyGivenNames x; clear_value x)
    | with_reducible apply Steady.ite
    | with_reducible exact Steady.upd_ports (by assumption)
    | with_reducible apply State.postEntry_steady
    | with_reducible apply State.unbindPort_steady
    | with_reducible apply Steady.foldl
    | with_reducible apply Steady.foldl_fst
    | (with_reducible refine Steady.of_fst ?_ (by assumption))
    | (with_reducible refine Steady.of_snd ?_ (by assumption))
    | split
    | with_reducible apply Steady.upd_ports

theorem State.dropPort_steady {r s : State} {fe : FlowEntry} (h : Steady r s) :
    Steady r (State.dropPort s fe) := by
  unfold State.dropPort
  repeat' first
    | with_reducible assumption
    | intro _
    | (extract_lets +onlyGivenNames x; with_reducible refine Steady.name (r := r) (s := x) ?_ (fun hx => ?_); (on_goal 2 => clear_value x); (on_goal 1 => subst x))
    | (extract_lets +onlyGivenNames x; with_reducible refine Steady.name (r := r) (s := x.1) ?_ (fun hx => ?_); (on_goal 2 => clear_value x); (on_goal 1 => subst x))
    | (extract_lets +onlyGivenNames x; have hx : ∀ a, x a = x a := (fun _ => rfl); clear hx; subst x)
    | (extract_lets +onlyGivenNames x; clear_value x)
    | with_reducible exact Steady.upd_ports (by assumption)
    | with_reducible apply State.postEntry_steady
    | with_reducible apply State.unbindPort_steady
    | with_reducible apply Steady.foldl
    | with_reducible apply Steady.foldl_fst
    | (with_reducible refine Steady.of_fst ?_ (by assumption))
    | (with_reducible refine Steady.of_snd ?_ (by assumption))
    | split
    | with_reducible apply Steady.upd_ports

end Sys2Proof.Machine
end

