-- ==== Sys2Proof/Laws/FrameMillrace.lean ====
section
/-! SUPPORT. What the operations of Machine/Millrace.lean leave as it is. -/

set_option Elab.async false
set_option linter.unusedTactic false
set_option linter.unreachableTactic false

namespace Sys2Proof.Machine

open Sys2Proof.Safety

theorem State.modDec_keeps {r s : State} {f : Nat} {g : DecCtx → DecCtx} (h : Keeps r s) :
    Keeps r (State.modDec s f g) := by
  unfold State.modDec
  repeat' first
    | with_reducible assumption
    | intro _
    | with_reducible apply State.modRun_keeps

theorem State.modDec_steady {r s : State} {f : Nat} {g : DecCtx → DecCtx} (h : Steady r s) :
    Steady r (State.modDec s f g) :=
  (State.modDec_keeps (Keeps.refl _)).after h

theorem State.modPlan_keeps {r s : State} {id : Nat} {g : DecPlan → DecPlan} (h : Keeps r s) :
    Keeps r (State.modPlan s id g) := by
  unfold State.modPlan
  repeat' first
    | with_reducible assumption
    | intro _
    | with_reducible apply State.modTask_keeps

theorem State.modPlan_steady {r s : State} {id : Nat} {g : DecPlan → DecPlan} (h : Steady r s) :
    Steady r (State.modPlan s id g) :=
  (State.modPlan_keeps (Keeps.refl _)).after h

theorem State.countFault_keeps {r s : State} {fe : FlowEntry} {a2 : StreamFault} (h : Keeps r s) :
    Keeps r (State.countFault s fe a2) := by
  unfold State.countFault
  repeat' first
    | with_reducible assumption
    | (extract_lets +onlyGivenNames x; with_reducible refine Keeps.name (r := r) (s := x) ?_ (fun hx => ?_); (on_goal 2 => clear_value x); (on_goal 1 => subst x))
    | (extract_lets +onlyGivenNames x; clear_value x)
    | with_reducible apply Keeps.ite
    | with_reducible apply State.incFld_keeps
    | with_reducible apply State.countOverclass_keeps
    | with_reducible apply State.setFlds_keeps
    | (with_reducible refine Keeps.of_fst ?_ (by assumption))
    | (with_reducible refine Keeps.of_snd ?_ (by assumption))
    | split

theorem State.countFault_steady {r s : State} {fe : FlowEntry} {a2 : StreamFault} (h : Steady r s) :
    Steady r (State.countFault s fe a2) :=
  (State.countFault_keeps (Keeps.refl _)).after h

theorem State.millPeak_keeps {r s : State} {fe : FlowEntry} {e : DecEntry} (h : Keeps r s) :
    Keeps r (State.millPeak s fe e) := by
  unfold State.millPeak
  repeat' first
    | with_reducible assumption
    | (extract_lets +onlyGivenNames x; with_reducible refine Keeps.name (r := r) (s := x) ?_ (fun hx => ?_); (on_goal 2 => clear_value x); (on_goal 1 => subst x))
    | (extract_lets +onlyGivenNames x; clear_value x)
    | with_reducible apply State.setFld_keeps

theorem State.millPeak_steady {r s : State} {fe : FlowEntry} {e : DecEntry} (h : Steady r s) :
    Steady r (State.millPeak s fe e) :=
  (State.millPeak_keeps (Keeps.refl _)).after h

end Sys2Proof.Machine
end

