-- ==== Sys2Proof/Laws/FramePlaten.lean ====
section
/-! SUPPORT. What the operations of Machine/Platen.lean leave as it is. -/

set_option Elab.async false
set_option linter.unusedTactic false
set_option linter.unreachableTactic false

namespace Sys2Proof.Machine

open Sys2Proof.Safety

theorem State.dropOut_keeps {r s : State} {task : Nat} {l : List FrameBuf} (h : Keeps r s) :
    Keeps r (State.dropOut s task l) := by
  unfold State.dropOut
  repeat' first
    | with_reducible assumption
    | intro _
    | with_reducible apply State.updateMark_keeps
    | with_reducible apply Keeps.foldl
    | with_reducible apply Keeps.foldl_fst

theorem State.dropOut_steady {r s : State} {task : Nat} {l : List FrameBuf} (h : Steady r s) :
    Steady r (State.dropOut s task l) :=
  (State.dropOut_keeps (Keeps.refl _)).after h

theorem State.dropRefs_keeps {r s : State} {task : Nat} {l : List Nat} (h : Keeps r s) :
    Keeps r (State.dropRefs s task l) := by
  unfold State.dropRefs
  repeat' first
    | with_reducible assumption
    | intro _
    | with_reducible apply State.updateMark_keeps
    | with_reducible apply Keeps.foldl
    | with_reducible apply Keeps.foldl_fst

theorem State.dropRefs_steady {r s : State} {task : Nat} {l : List Nat} (h : Steady r s) :
    Steady r (State.dropRefs s task l) :=
  (State.dropRefs_keeps (Keeps.refl _)).after h

theorem State.clearRecon_keeps {r s : State} {flow : Nat} {task : Nat} (h : Keeps r s) :
    Keeps r (State.clearRecon s flow task) := by
  unfold State.clearRecon
  repeat' first
    | with_reducible assumption
    | intro _
    | (extract_lets +onlyGivenNames x; with_reducible refine Keeps.name (r := r) (s := x) ?_ (fun hx => ?_); (on_goal 2 => clear_value x); (on_goal 1 => subst x))
    | (extract_lets +onlyGivenNames x; have hx : ∀ a, x a = x a := (fun _ => rfl); clear hx; subst x)
    | (extract_lets +onlyGivenNames x; clear_value x)
    | with_reducible apply State.modDec_keeps
    | with_reducible apply State.dropOut_keeps
    | with_reducible apply State.dropRefs_keeps

theorem State.clearRecon_steady {r s : State} {flow : Nat} {task : Nat} (h : Steady r s) :
    Steady r (State.clearRecon s flow task) :=
  (State.clearRecon_keeps (Keeps.refl _)).after h

theorem State.setSlots_keeps {r s : State} {a1 : Task} {alone : Bool} {l : List (Option FrameBuf)} (h : Keeps r s) :
    Keeps r (State.setSlots s a1 alone l) := by
  unfold State.setSlots
  repeat' first
    | with_reducible assumption
    | intro _
    | with_reducible apply Keeps.ite
    | with_reducible apply State.modPlan_keeps
    | with_reducible apply State.modDec_keeps
    | split

theorem State.setSlots_steady {r s : State} {a1 : Task} {alone : Bool} {l : List (Option FrameBuf)} (h : Steady r s) :
    Steady r (State.setSlots s a1 alone l) :=
  (State.setSlots_keeps (Keeps.refl _)).after h

theorem State.emptySlots_keeps {r s : State} {a1 : Task} {p : DecPlan} {which : List Nat} (h : Keeps r s) :
    Keeps r (State.emptySlots s a1 p which) := by
  unfold State.emptySlots
  repeat' first
    | with_reducible assumption
    | intro _
    | (extract_lets +onlyGivenNames x; with_reducible refine Keeps.name (r := r) (s := x) ?_ (fun hx => ?_); (on_goal 2 => clear_value x); (on_goal 1 => subst x))
    | (extract_lets +onlyGivenNames x; have hx : ∀ a, x a = x a := (fun _ => rfl); clear hx; subst x)
    | (extract_lets +onlyGivenNames x; clear_value x)
    | with_reducible apply Keeps.ite
    | with_reducible apply State.dropRefs_keeps
    | with_reducible apply State.setSlots_keeps
    | split

theorem State.emptySlots_steady {r s : State} {a1 : Task} {p : DecPlan} {which : List Nat} (h : Steady r s) :
    Steady r (State.emptySlots s a1 p which) :=
  (State.emptySlots_keeps (Keeps.refl _)).after h

theorem State.failedTurn_keeps {r s : State} {fe : FlowEntry} {e : DecEntry} {a3 : Task} {p : DecPlan} {cls : Nat} (h : Keeps r s) :
    Keeps r (State.failedTurn s fe e a3 p cls) := by
  unfold State.failedTurn
  repeat' first
    | with_reducible assumption
    | intro _
    | (extract_lets +onlyGivenNames x; with_reducible refine Keeps.name (r := r) (s := x) ?_ (fun hx => ?_); (on_goal 2 => clear_value x); (on_goal 1 => subst x))
    | (extract_lets +onlyGivenNames x; have hx : ∀ a, x a = x a := (fun _ => rfl); clear hx; subst x)
    | (extract_lets +onlyGivenNames x; clear_value x)
    | with_reducible apply Keeps.ite
    | with_reducible apply State.clearRecon_keeps
    | with_reducible apply State.modDec_keeps
    | with_reducible apply State.emptySlots_keeps
    | split

theorem State.failedTurn_steady {r s : State} {fe : FlowEntry} {e : DecEntry} {a3 : Task} {p : DecPlan} {cls : Nat} (h : Steady r s) :
    Steady r (State.failedTurn s fe e a3 p cls) :=
  (State.failedTurn_keeps (Keeps.refl _)).after h

theorem State.freeScratch_keeps {r s : State} {id : Nat} (h : Keeps r s) :
    Keeps r (State.freeScratch s id) := by
  unfold State.freeScratch
  repeat' first
    | with_reducible assumption
    | with_reducible apply State.freeTask_keeps

theorem State.freeScratch_steady {r s : State} {id : Nat} (h : Steady r s) :
    Steady r (State.freeScratch s id) :=
  (State.freeScratch_keeps (Keeps.refl _)).after h

theorem State.releaseAlone_keeps {r s : State} {a1 : Task} {p : DecPlan} (h : Keeps r s) :
    Keeps r (State.releaseAlone s a1 p) := by
  unfold State.releaseAlone
  repeat' first
    | with_reducible assumption
    | intro _
    | with_reducible apply Keeps.ite
    | with_reducible apply State.dropOut_keeps
    | with_reducible apply State.emptySlots_keeps
    | split

theorem State.releaseAlone_steady {r s : State} {a1 : Task} {p : DecPlan} (h : Steady r s) :
    Steady r (State.releaseAlone s a1 p) :=
  (State.releaseAlone_keeps (Keeps.refl _)).after h

theorem State.dropPlan_keeps {r s : State} {id : Nat} (h : Keeps r s) :
    Keeps r (State.dropPlan s id) := by
  unfold State.dropPlan
  repeat' first
    | with_reducible assumption
    | intro _
    | with_reducible apply State.freeScratch_keeps
    | with_reducible apply State.modTask_keeps
    | with_reducible apply State.releaseAlone_keeps
    | with_reducible apply State.unhold_keeps
    | (with_reducible refine Keeps.of_fst ?_ (by assumption))
    | (with_reducible refine Keeps.of_snd ?_ (by assumption))
    | split

theorem State.dropPlan_steady {r s : State} {id : Nat} (h : Steady r s) :
    Steady r (State.dropPlan s id) :=
  (State.dropPlan_keeps (Keeps.refl _)).after h

theorem State.abandonDec_keeps {r s : State} {fe : FlowEntry} {e : DecEntry} {id : Nat} (h : Keeps r s) :
    Keeps r (State.abandonDec s fe e id) := by
  unfold State.abandonDec
  repeat' first
    | with_reducible assumption
    | intro _
    | (extract_lets +onlyGivenNames x; with_reducible refine Keeps.name (r := r) (s := x) ?_ (fun hx => ?_); (on_goal 2 => clear_value x); (on_goal 1 => subst x))
    | (extract_lets +onlyGivenNames x; have hx : ∀ a, x a = x a := (fun _ => rfl); clear hx; subst x)
    | (extract_lets +onlyGivenNames x; clear_value x)
    | with_reducible apply Keeps.ite
    | with_reducible apply State.failedTurn_keeps
    | with_reducible apply State.modDec_keeps
    | with_reducible apply State.dropPlan_keeps
    | (with_reducible refine Keeps.of_fst ?_ (by assumption))
    | (with_reducible refine Keeps.of_snd ?_ (by assumption))
    | split

theorem State.abandonDec_steady {r s : State} {fe : FlowEntry} {e : DecEntry} {id : Nat} (h : Steady r s) :
    Steady r (State.abandonDec s fe e id) :=
  (State.abandonDec_keeps (Keeps.refl _)).after h

theorem State.stopRead_keeps {r s : State} {id : Nat} (h : Keeps r s) :
    Keeps r (State.stopRead s id) := by
  unfold State.stopRead
  repeat' first
    | with_reducible assumption
    | intro _
    | with_reducible apply State.freeScratch_keeps
    | with_reducible apply State.modTask_keeps
    | with_reducible apply State.modPlan_keeps

theorem State.stopRead_steady {r s : State} {id : Nat} (h : Steady r s) :
    Steady r (State.stopRead s id) :=
  (State.stopRead_keeps (Keeps.refl _)).after h

theorem State.failDecode_keeps {r s : State} {fe : FlowEntry} {e : DecEntry} {id : Nat} {cls : Nat} (h : Keeps r s) :
    Keeps r (State.failDecode s fe e id cls) := by
  unfold State.failDecode
  repeat' first
    | with_reducible assumption
    | intro _
    | with_reducible apply Keeps.ite
    | with_reducible apply State.modPlan_keeps
    | with_reducible apply State.modTask_keeps
    | (with_reducible refine Keeps.of_fst ?_ (by assumption))
    | (with_reducible refine Keeps.of_snd ?_ (by assumption))
    | split

theorem State.failDecode_steady {r s : State} {fe : FlowEntry} {e : DecEntry} {id : Nat} {cls : Nat} (h : Steady r s) :
    Steady r (State.failDecode s fe e id cls) :=
  (State.failDecode_keeps (Keeps.refl _)).after h

theorem State.platenFail_keeps {r s : State} {fe : FlowEntry} {e : DecEntry} {id : Nat} {cls : Nat} (h : Keeps r s) :
    Keeps r (State.platenFail s fe e id cls) := by
  unfold State.platenFail
  repeat' first
    | with_reducible assumption
    | intro _
    | (extract_lets +onlyGivenNames x; with_reducible refine Keeps.name (r := r) (s := x) ?_ (fun hx => ?_); (on_goal 2 => clear_value x); (on_goal 1 => subst x))
    | (extract_lets +onlyGivenNames x; have hx : ∀ a, x a = x a := (fun _ => rfl); clear hx; subst x)
    | (extract_lets +onlyGivenNames x; clear_value x)
    | with_reducible apply Keeps.ite
    | with_reducible apply State.stopRead_keeps
    | with_reducible apply State.failedTurn_keeps
    | with_reducible apply State.failDecode_keeps
    | with_reducible apply State.countFault_keeps
    | with_reducible apply State.modTask_keeps
    | with_reducible apply State.modPlan_keeps
    | (with_reducible refine Keeps.of_fst ?_ (by assumption))
    | (with_reducible refine Keeps.of_snd ?_ (by assumption))
    | split

theorem State.platenFail_steady {r s : State} {fe : FlowEntry} {e : DecEntry} {id : Nat} {cls : Nat} (h : Steady r s) :
    Steady r (State.platenFail s fe e id cls) :=
  (State.platenFail_keeps (Keeps.refl _)).after h

theorem State.queueFull_keeps {r s : State} {fe : FlowEntry} {e : DecEntry} {a3 : Task} {p : DecPlan} (h : Keeps r s) :
    Keeps r (State.queueFull s fe e a3 p) := by
  unfold State.queueFull
  repeat' first
    | with_reducible assumption
    | intro _
    | (extract_lets +onlyGivenNames x; with_reducible refine Keeps.name (r := r) (s := x) ?_ (fun hx => ?_); (on_goal 2 => clear_value x); (on_goal 1 => subst x))
    | (extract_lets +onlyGivenNames x; have hx : ∀ a, x a = x a := (fun _ => rfl); clear hx; subst x)
    | (extract_lets +onlyGivenNames x; clear_value x)
    | with_reducible apply State.platenFail_keeps
    | with_reducible apply State.dropOut_keeps
    | with_reducible apply State.modDec_keeps

theorem State.queueFull_steady {r s : State} {fe : FlowEntry} {e : DecEntry} {a3 : Task} {p : DecPlan} (h : Steady r s) :
    Steady r (State.queueFull s fe e a3 p) :=
  (State.queueFull_keeps (Keeps.refl _)).after h

theorem State.holdFrames_keeps {r s : State} {a1 : Task} {p : DecPlan} (h : Keeps r s) :
    Keeps r (State.holdFrames s a1 p) := by
  unfold State.holdFrames
  repeat' first
    | with_reducible assumption
    | intro _
    | with_reducible apply Keeps.ite
    | with_reducible apply State.holdMark_keeps
    | with_reducible apply Keeps.foldl
    | with_reducible apply Keeps.foldl_fst
    | split

theorem State.holdFrames_steady {r s : State} {a1 : Task} {p : DecPlan} (h : Steady r s) :
    Steady r (State.holdFrames s a1 p) :=
  (State.holdFrames_keeps (Keeps.refl _)).after h

theorem State.closeParse_keeps {r s : State} {fe : FlowEntry} {e : DecEntry} {id : Nat} (h : Keeps r s) :
    Keeps r (State.closeParse s fe e id) := by
  unfold State.closeParse
  repeat' first
    | with_reducible assumption
    | intro _
    | (extract_lets +onlyGivenNames x; with_reducible refine Keeps.name (r := r) (s := x) ?_ (fun hx => ?_); (on_goal 2 => clear_value x); (on_goal 1 => subst x))
    | (extract_lets +onlyGivenNames x; have hx : ∀ a, x a = x a := (fun _ => rfl); clear hx; subst x)
    | (extract_lets +onlyGivenNames x; clear_value x)
    | with_reducible apply Keeps.ite
    | with_reducible apply State.modDec_keeps
    | with_reducible apply State.modPlan_keeps
    | with_reducible apply State.failDecode_keeps
    | with_reducible apply State.countFault_keeps
    | with_reducible apply State.stopRead_keeps
    | (with_reducible refine Keeps.of_fst ?_ (by assumption))
    | (with_reducible refine Keeps.of_snd ?_ (by assumption))
    | split

theorem State.closeParse_steady {r s : State} {fe : FlowEntry} {e : DecEntry} {id : Nat} (h : Steady r s) :
    Steady r (State.closeParse s fe e id) :=
  (State.closeParse_keeps (Keeps.refl _)).after h

theorem State.fillSlots_keeps {r s : State} {a1 : Task} {p : DecPlan} {b : FrameBuf} {out : Bool} {which : List Nat} (h : Keeps r s) :
    Keeps r (State.fillSlots s a1 p b out which) := by
  unfold State.fillSlots
  repeat' first
    | with_reducible assumption
    | intro _
    | (extract_lets +onlyGivenNames x; with_reducible refine Keeps.name (r := r) (s := x) ?_ (fun hx => ?_); (on_goal 2 => clear_value x); (on_goal 1 => subst x))
    | (extract_lets +onlyGivenNames x; have hx : ∀ a, x a = x a := (fun _ => rfl); clear hx; subst x)
    | (extract_lets +onlyGivenNames x; clear_value x)
    | with_reducible apply Keeps.ite
    | with_reducible apply State.updateMark_keeps
    | with_reducible apply State.dropRefs_keeps
    | with_reducible apply State.setSlots_keeps
    | split

theorem State.fillSlots_steady {r s : State} {a1 : Task} {p : DecPlan} {b : FrameBuf} {out : Bool} {which : List Nat} (h : Steady r s) :
    Steady r (State.fillSlots s a1 p b out which) :=
  (State.fillSlots_keeps (Keeps.refl _)).after h

theorem State.outputFrame_keeps {r s : State} {a1 : Task} {p : DecPlan} {i : Nat} {f : FrameDesc} {b : FrameBuf} (h : Keeps r s) :
    Keeps r (State.outputFrame s a1 p i f b) := by
  unfold State.outputFrame
  repeat' first
    | with_reducible assumption
    | intro _
    | (extract_lets +onlyGivenNames x; with_reducible refine Keeps.name (r := r) (s := x) ?_ (fun hx => ?_); (on_goal 2 => clear_value x); (on_goal 1 => subst x))
    | (extract_lets +onlyGivenNames x; have hx : ∀ a, x a = x a := (fun _ => rfl); clear hx; subst x)
    | (extract_lets +onlyGivenNames x; clear_value x)
    | with_reducible apply Keeps.ite
    | with_reducible apply State.modPlan_keeps
    | with_reducible apply State.modDec_keeps
    | (with_reducible refine Keeps.of_fst ?_ (by assumption))
    | (with_reducible refine Keeps.of_snd ?_ (by assumption))
    | split

theorem State.outputFrame_steady {r s : State} {a1 : Task} {p : DecPlan} {i : Nat} {f : FrameDesc} {b : FrameBuf} (h : Steady r s) :
    Steady r (State.outputFrame s a1 p i f b) :=
  (State.outputFrame_keeps (Keeps.refl _)).after h

theorem State.finishFrame_keeps {r s : State} {fe : FlowEntry} {e : DecEntry} {id : Nat} (h : Keeps r s) :
    Keeps r (State.finishFrame s fe e id) := by
  unfold State.finishFrame
  repeat' first
    | with_reducible assumption
    | intro _
    | (extract_lets +onlyGivenNames x; with_reducible refine Keeps.name (r := r) (s := x) ?_ (fun hx => ?_); (on_goal 2 => clear_value x); (on_goal 1 => subst x))
    | (extract_lets +onlyGivenNames x; have hx : ∀ a, x a = x a := (fun _ => rfl); clear hx; subst x)
    | (extract_lets +onlyGivenNames x; clear_value x)
    | with_reducible apply Keeps.ite
    | with_reducible apply State.modPlan_keeps
    | with_reducible apply State.platenFail_keeps
    | with_reducible apply State.updateMark_keeps
    | with_reducible apply State.fillSlots_keeps
    | with_reducible apply State.outputFrame_keeps
    | with_reducible apply State.incFld_keeps
    | with_reducible apply State.addFld_keeps
    | with_reducible apply State.takeHandle_keeps
    | with_reducible apply State.emptySlots_keeps
    | (with_reducible refine Keeps.of_fst ?_ (by assumption))
    | (with_reducible refine Keeps.of_snd ?_ (by assumption))
    | split

theorem State.finishFrame_steady {r s : State} {fe : FlowEntry} {e : DecEntry} {id : Nat} (h : Steady r s) :
    Steady r (State.finishFrame s fe e id) :=
  (State.finishFrame_keeps (Keeps.refl _)).after h

theorem State.enterPoint_keeps {r s : State} {e : DecEntry} {a2 : Task} {p : DecPlan} (h : Keeps r s) :
    Keeps r (State.enterPoint s e a2 p) := by
  unfold State.enterPoint
  repeat' first
    | with_reducible assumption
    | intro _
    | (extract_lets +onlyGivenNames x; with_reducible refine Keeps.name (r := r) (s := x) ?_ (fun hx => ?_); (on_goal 2 => clear_value x); (on_goal 1 => subst x))
    | (extract_lets +onlyGivenNames x; have hx : ∀ a, x a = x a := (fun _ => rfl); clear hx; subst x)
    | (extract_lets +onlyGivenNames x; clear_value x)
    | with_reducible apply Keeps.ite
    | with_reducible apply State.emptySlots_keeps
    | with_reducible apply State.modDec_keeps
    | (with_reducible refine Keeps.of_fst ?_ (by assumption))
    | (with_reducible refine Keeps.of_snd ?_ (by assumption))
    | split

theorem State.enterPoint_steady {r s : State} {e : DecEntry} {a2 : Task} {p : DecPlan} (h : Steady r s) :
    Steady r (State.enterPoint s e a2 p) :=
  (State.enterPoint_keeps (Keeps.refl _)).after h

theorem State.emitFrames_keeps {r s : State} {fe : FlowEntry} {e : DecEntry} {a3 : Task} {p : DecPlan} (h : Keeps r s) :
    Keeps r (State.emitFrames s fe e a3 p) := by
  unfold State.emitFrames
  repeat' first
    | with_reducible assumption
    | intro _
    | (extract_lets +onlyGivenNames x; with_reducible refine Keeps.name (r := r) (s := x) ?_ (fun hx => ?_); (on_goal 2 => clear_value x); (on_goal 1 => subst x))
    | (extract_lets +onlyGivenNames x; have hx : ∀ a, x a = x a := (fun _ => rfl); clear hx; subst x)
    | (extract_lets +onlyGivenNames x; clear_value x)
    | with_reducible apply Keeps.ite
    | with_reducible apply State.dropOut_keeps
    | with_reducible apply State.unhold_keeps
    | with_reducible apply State.emptySlots_keeps
    | with_reducible apply State.modDec_keeps
    | with_reducible apply State.freeScratch_keeps
    | with_reducible apply State.modTask_keeps
    | split

theorem State.emitFrames_steady {r s : State} {fe : FlowEntry} {e : DecEntry} {a3 : Task} {p : DecPlan} (h : Steady r s) :
    Steady r (State.emitFrames s fe e a3 p) :=
  (State.emitFrames_keeps (Keeps.refl _)).after h

theorem State.resetDec_steady {r s : State} {f : Nat} (h : Steady r s) :
    Steady r (State.resetDec s f) := by
  unfold State.resetDec
  repeat' first
    | with_reducible assumption
    | intro _
    | with_reducible apply State.releaseHandles_steady
    | with_reducible apply State.modDec_steady

end Sys2Proof.Machine
end

