-- ==== Sys2Proof/Laws/FrameWeir.lean ====
section
/-! SUPPORT. What the operations of Machine/Weir.lean leave as it is. -/

set_option Elab.async false
set_option linter.unusedTactic false
set_option linter.unreachableTactic false

namespace Sys2Proof.Machine

open Sys2Proof.Safety

theorem State.freeMover_keeps {r s : State} {p : Purpose} (h : Keeps r s) :
    Keeps r (State.freeMover s p) := by
  unfold State.freeMover
  repeat' first
    | with_reducible assumption
    | intro _
    | with_reducible exact Keeps.upd_dltOut (by assumption)
    | with_reducible apply Keeps.upd_dltOut

theorem State.freeMover_steady {r s : State} {p : Purpose} (h : Steady r s) :
    Steady r (State.freeMover s p) :=
  (State.freeMover_keeps (Keeps.refl _)).after h

theorem State.weirDrop_keeps {r s : State} {p : Purpose → Bool} (h : Keeps r s) :
    Keeps r (State.weirDrop s p) := by
  unfold State.weirDrop
  repeat' first
    | with_reducible assumption
    | intro _
    | (extract_lets +onlyGivenNames x; with_reducible refine Keeps.name (r := r) (s := x) ?_ (fun hx => ?_); (on_goal 2 => clear_value x); (on_goal 1 => subst x))
    | (extract_lets +onlyGivenNames x; with_reducible refine Keeps.name (r := r) (s := x.1) ?_ (fun hx => ?_); (on_goal 2 => clear_value x); (on_goal 1 => subst x))
    | (extract_lets +onlyGivenNames x; have hx : ∀ a, x a = x a := (fun _ => rfl); clear hx; subst x)
    | (extract_lets +onlyGivenNames x; clear_value x)
    | with_reducible exact Keeps.upd_weir_dltQueue (by assumption)
    | with_reducible apply State.freeMover_keeps
    | with_reducible apply Keeps.foldl
    | with_reducible apply Keeps.foldl_fst
    | with_reducible apply Keeps.upd_weir_dltQueue

theorem State.weirDrop_steady {r s : State} {p : Purpose → Bool} (h : Steady r s) :
    Steady r (State.weirDrop s p) :=
  (State.weirDrop_keeps (Keeps.refl _)).after h

theorem State.modBucket_keeps {r s : State} {a1 : Nat} {g : Nat → Nat} (h : Keeps r s) :
    Keeps r (State.modBucket s a1 g) := by
  unfold State.modBucket
  repeat' first
    | with_reducible assumption
    | intro _
    | with_reducible apply Keeps.ite
    | with_reducible exact Keeps.upd_weir (by assumption)
    | split
    | with_reducible apply Keeps.upd_weir

theorem State.modBucket_steady {r s : State} {a1 : Nat} {g : Nat → Nat} (h : Steady r s) :
    Steady r (State.modBucket s a1 g) :=
  (State.modBucket_keeps (Keeps.refl _)).after h

theorem State.weirSend_keeps {r s : State} {a1 : WeirTxn} (h : Keeps r s) :
    Keeps r (State.weirSend s a1) := by
  unfold State.weirSend
  repeat' first
    | with_reducible assumption
    | intro _
    | with_reducible apply State.issue_keeps
    | with_reducible apply State.addUnits_keeps
    | with_reducible apply State.modBucket_keeps

theorem State.weirSend_steady {r s : State} {a1 : WeirTxn} (h : Steady r s) :
    Steady r (State.weirSend s a1) :=
  (State.weirSend_keeps (Keeps.refl _)).after h

theorem State.issueFor_keeps {r s : State} {deadline : Bool} {a2 : WeirTxn} (h : Keeps r s) :
    Keeps r (State.issueFor s deadline a2) := by
  unfold State.issueFor
  repeat' first
    | with_reducible assumption
    | intro _
    | with_reducible apply Keeps.ite
    | with_reducible exact Keeps.upd_ptc_weir (by assumption)
    | with_reducible exact Keeps.upd_weir (by assumption)
    | with_reducible apply State.issue_keeps
    | with_reducible apply State.addUnits_keeps
    | with_reducible apply State.weirSend_keeps
    | split
    | with_reducible apply Keeps.upd_ptc_weir
    | with_reducible apply Keeps.upd_weir

theorem State.issueFor_steady {r s : State} {deadline : Bool} {a2 : WeirTxn} (h : Steady r s) :
    Steady r (State.issueFor s deadline a2) :=
  (State.issueFor_keeps (Keeps.refl _)).after h

theorem State.issueMover_keeps {r s : State} {e : Nat} {deadline : Bool} {a3 : WeirTxn} (h : Keeps r s) :
    Keeps r (State.issueMover s e deadline a3) := by
  unfold State.issueMover
  repeat' first
    | with_reducible assumption
    | with_reducible apply Keeps.ite
    | with_reducible exact Keeps.upd_dltOut (by assumption)
    | with_reducible exact Keeps.upd_dltQueue (by assumption)
    | with_reducible apply State.issueFor_keeps
    | split
    | with_reducible apply Keeps.upd_dltOut
    | with_reducible apply Keeps.upd_dltQueue

theorem State.issueMover_steady {r s : State} {e : Nat} {deadline : Bool} {a3 : WeirTxn} (h : Steady r s) :
    Steady r (State.issueMover s e deadline a3) :=
  (State.issueMover_keeps (Keeps.refl _)).after h

theorem State.pumpMovers_keeps {r s : State} (h : Keeps r s) :
    Keeps r (State.pumpMovers s) := by
  unfold State.pumpMovers
  repeat' first
    | with_reducible assumption
    | intro _
    | with_reducible exact Keeps.upd_dltQueue (by assumption)
    | with_reducible apply State.issueMover_keeps
    | with_reducible apply Keeps.foldl
    | with_reducible apply Keeps.foldl_fst
    | with_reducible apply Keeps.upd_dltQueue

theorem State.pumpMovers_steady {r s : State} (h : Steady r s) :
    Steady r (State.pumpMovers s) :=
  (State.pumpMovers_keeps (Keeps.refl _)).after h

theorem State.writeMover_keeps {r s : State} {e : Nat} {deadline : Bool} {ten : Nat} {a4 : Nat} {dies : Nat} {d : List Byte} {p : Purpose} (h : Keeps r s) :
    Keeps r (State.writeMover s e deadline ten a4 dies d p) := by
  unfold State.writeMover
  repeat' first
    | with_reducible assumption
    | intro _
    | with_reducible apply Keeps.ite
    | with_reducible apply State.issueMover_keeps
    | with_reducible apply Keeps.foldl
    | with_reducible apply Keeps.foldl_fst
    | split

theorem State.writeMover_steady {r s : State} {e : Nat} {deadline : Bool} {ten : Nat} {a4 : Nat} {dies : Nat} {d : List Byte} {p : Purpose} (h : Steady r s) :
    Steady r (State.writeMover s e deadline ten a4 dies d p) :=
  (State.writeMover_keeps (Keeps.refl _)).after h

theorem State.writeFor_keeps {r s : State} {deadline : Bool} {ten : Nat} {a3 : Nat} {dies : Nat} {d : List Byte} {p : Purpose} (h : Keeps r s) :
    Keeps r (State.writeFor s deadline ten a3 dies d p) := by
  unfold State.writeFor
  repeat' first
    | with_reducible assumption
    | intro _
    | with_reducible apply Keeps.ite
    | with_reducible apply State.issueFor_keeps
    | with_reducible apply Keeps.foldl
    | with_reducible apply Keeps.foldl_fst
    | split

theorem State.writeFor_steady {r s : State} {deadline : Bool} {ten : Nat} {a3 : Nat} {dies : Nat} {d : List Byte} {p : Purpose} (h : Steady r s) :
    Steady r (State.writeFor s deadline ten a3 dies d p) :=
  (State.writeFor_keeps (Keeps.refl _)).after h

theorem State.readFor_steady {r s : State} {deadline : Bool} {ten : Nat} {a3 : Nat} {n : Nat} {p : Purpose} (h : Steady r s) :
    Steady r (State.readFor s deadline ten a3 n p) := by
  unfold State.readFor
  repeat' first
    | with_reducible assumption
    | intro _
    | with_reducible apply State.issueFor_steady
    | with_reducible apply Steady.foldl
    | with_reducible apply Steady.foldl_fst

theorem weirFlush_steady {r s : State} {a0 : List WeirTxn} {a1 : List Nat} (h : Steady r s) :
    Steady r (weirFlush a0 a1 s) := by
  induction a0 generalizing s a1 with
  | nil => exact h
  | cons x l ih =>
    unfold weirFlush
    repeat' first
      | with_reducible assumption
      | with_reducible apply ih
      | with_reducible apply Steady.ite
      | with_reducible exact Steady.upd_weir (by assumption)
      | with_reducible apply State.weirSend_steady
      | (with_reducible refine Steady.of_fst ?_ (by assumption))
      | (with_reducible refine Steady.of_snd ?_ (by assumption))
      | split
      | with_reducible apply Steady.upd_weir

theorem State.weirRefill_steady {r s : State} {piece : Nat → Bool} (h : Steady r s) :
    Steady r (State.weirRefill s piece) := by
  unfold State.weirRefill
  repeat' first
    | with_reducible assumption
    | intro _
    | (extract_lets +onlyGivenNames x; with_reducible refine Steady.name (r := r) (s := x) ?_ (fun hx => ?_); (on_goal 2 => clear_value x); (on_goal 1 => subst x))
    | (extract_lets +onlyGivenNames x; with_reducible refine Steady.name (r := r) (s := x.1) ?_ (fun hx => ?_); (on_goal 2 => clear_value x); (on_goal 1 => subst x))
    | (extract_lets +onlyGivenNames x; have hx : ∀ a, x a = x a := (fun _ => rfl); clear hx; subst x)
    | (extract_lets +onlyGivenNames x; clear_value x)
    | with_reducible apply Steady.ite
    | with_reducible exact Steady.upd_weir (by assumption)
    | with_reducible apply State.addUnits_steady
    | with_reducible apply weirFlush_steady
    | with_reducible apply Steady.foldl
    | with_reducible apply Steady.foldl_fst
    | (with_reducible refine Steady.of_fst ?_ (by assumption))
    | (with_reducible refine Steady.of_snd ?_ (by assumption))
    | split
    | with_reducible apply Steady.upd_weir

end Sys2Proof.Machine
end

