-- ==== Sys2Proof/Laws/FrameEncode.lean ====
section
/-! SUPPORT. What the operations of Machine/Encode.lean leave as it is. -/

set_option Elab.async false
set_option linter.unusedTactic false
set_option linter.unreachableTactic false

namespace Sys2Proof.Machine

open Sys2Proof.Safety

theorem State.modFrame_keeps {r s : State} {id : Nat} {g : EncPlan → EncPlan} (h : Keeps r s) :
    Keeps r (State.modFrame s id g) := by
  unfold State.modFrame
  repeat' first
    | with_reducible assumption
    | intro _
    | with_reducible apply State.modTask_keeps

theorem State.modFrame_steady {r s : State} {id : Nat} {g : EncPlan → EncPlan} (h : Steady r s) :
    Steady r (State.modFrame s id g) :=
  (State.modFrame_keeps (Keeps.refl _)).after h

theorem State.modEnc_keeps {r s : State} {f : Nat} {g : EncCtx → EncCtx} (h : Keeps r s) :
    Keeps r (State.modEnc s f g) := by
  unfold State.modEnc
  repeat' first
    | with_reducible assumption
    | intro _
    | with_reducible apply State.modRun_keeps

theorem State.modEnc_steady {r s : State} {f : Nat} {g : EncCtx → EncCtx} (h : Steady r s) :
    Steady r (State.modEnc s f g) :=
  (State.modEnc_keeps (Keeps.refl _)).after h

theorem State.startFrame_keeps {r s : State} {fe : FlowEntry} {e : EncEntry} {id : Nat} (h : Keeps r s) :
    Keeps r (State.startFrame s fe e id) := by
  unfold State.startFrame
  repeat' first
    | with_reducible assumption
    | intro _
    | (extract_lets +onlyGivenNames x; with_reducible refine Keeps.name (r := r) (s := x) ?_ (fun hx => ?_); (on_goal 2 => clear_value x); (on_goal 1 => subst x))
    | (extract_lets +onlyGivenNames x; have hx : ∀ a, x a = x a := (fun _ => rfl); clear hx; subst x)
    | (extract_lets +onlyGivenNames x; clear_value x)
    | with_reducible apply Keeps.ite
    | with_reducible apply State.modFrame_keeps
    | with_reducible apply State.addFld_keeps
    | with_reducible apply State.holdMark_keeps
    | with_reducible apply State.modEnc_keeps
    | (with_reducible refine Keeps.of_fst ?_ (by assumption))
    | (with_reducible refine Keeps.of_snd ?_ (by assumption))
    | split

theorem State.startFrame_steady {r s : State} {fe : FlowEntry} {e : EncEntry} {id : Nat} (h : Steady r s) :
    Steady r (State.startFrame s fe e id) :=
  (State.startFrame_keeps (Keeps.refl _)).after h

theorem State.millraceFrame_keeps {r s : State} {fe : FlowEntry} {e : EncEntry} {id : Nat} (h : Keeps r s) :
    Keeps r (State.millraceFrame s fe e id) := by
  unfold State.millraceFrame
  repeat' first
    | with_reducible assumption
    | intro _
    | (extract_lets +onlyGivenNames x; with_reducible refine Keeps.name (r := r) (s := x) ?_ (fun hx => ?_); (on_goal 2 => clear_value x); (on_goal 1 => subst x))
    | (extract_lets +onlyGivenNames x; have hx : ∀ a, x a = x a := (fun _ => rfl); clear hx; subst x)
    | (extract_lets +onlyGivenNames x; clear_value x)
    | with_reducible apply Keeps.ite
    | with_reducible apply State.incFld_keeps
    | with_reducible apply State.addFld_keeps
    | with_reducible apply State.modEnc_keeps
    | with_reducible apply State.modTask_keeps
    | with_reducible apply State.modFrame_keeps
    | (with_reducible refine Keeps.of_fst ?_ (by assumption))
    | (with_reducible refine Keeps.of_snd ?_ (by assumption))
    | split

theorem State.millraceFrame_steady {r s : State} {fe : FlowEntry} {e : EncEntry} {id : Nat} (h : Steady r s) :
    Steady r (State.millraceFrame s fe e id) :=
  (State.millraceFrame_keeps (Keeps.refl _)).after h

theorem State.platenFrame_keeps {r s : State} {fe : FlowEntry} {e : EncEntry} {id : Nat} (h : Keeps r s) :
    Keeps r (State.platenFrame s fe e id) := by
  unfold State.platenFrame
  repeat' first
    | with_reducible assumption
    | intro _
    | (extract_lets +onlyGivenNames x; with_reducible refine Keeps.name (r := r) (s := x) ?_ (fun hx => ?_); (on_goal 2 => clear_value x); (on_goal 1 => subst x))
    | (extract_lets +onlyGivenNames x; have hx : ∀ a, x a = x a := (fun _ => rfl); clear hx; subst x)
    | (extract_lets +onlyGivenNames x; clear_value x)
    | with_reducible apply Keeps.ite
    | with_reducible apply State.incFld_keeps
    | with_reducible apply State.takeHandle_keeps
    | with_reducible apply State.unhold_keeps
    | with_reducible apply State.stopTask_keeps
    | with_reducible apply State.modEnc_keeps
    | with_reducible apply State.updateMark_keeps
    | with_reducible apply State.dropRefs_keeps
    | (with_reducible refine Keeps.of_fst ?_ (by assumption))
    | (with_reducible refine Keeps.of_snd ?_ (by assumption))
    | split

theorem State.platenFrame_steady {r s : State} {fe : FlowEntry} {e : EncEntry} {id : Nat} (h : Steady r s) :
    Steady r (State.platenFrame s fe e id) :=
  (State.platenFrame_keeps (Keeps.refl _)).after h

theorem State.pktPush_steady {r s : State} {a1 : Nat} {v : Word} (h : Steady r s) :
    Steady r (State.pktPush s a1 v) := by
  unfold State.pktPush
  repeat' first
    | with_reducible assumption
    | intro _
    | (extract_lets +onlyGivenNames x; with_reducible refine Steady.name (r := r) (s := x) ?_ (fun hx => ?_); (on_goal 2 => clear_value x); (on_goal 1 => subst x))
    | (extract_lets +onlyGivenNames x; have hx : ∀ a, x a = x a := (fun _ => rfl); clear hx; subst x)
    | (extract_lets +onlyGivenNames x; clear_value x)
    | with_reducible apply Steady.ite
    | with_reducible apply State.modEnc_steady
    | with_reducible apply State.incFld_steady
    | (with_reducible refine Steady.of_fst ?_ (by assumption))
    | (with_reducible refine Steady.of_snd ?_ (by assumption))
    | split

theorem State.ackedChunk_steady {r s : State} {flow : Nat} (h : Steady r s) :
    Steady r (State.ackedChunk s flow) := by
  unfold State.ackedChunk
  repeat' first
    | with_reducible assumption
    | intro _
    | (extract_lets +onlyGivenNames x; with_reducible refine Steady.name (r := r) (s := x) ?_ (fun hx => ?_); (on_goal 2 => clear_value x); (on_goal 1 => subst x))
    | (extract_lets +onlyGivenNames x; have hx : ∀ a, x a = x a := (fun _ => rfl); clear hx; subst x)
    | (extract_lets +onlyGivenNames x; clear_value x)
    | with_reducible apply Steady.ite
    | with_reducible apply State.modEnc_steady
    | with_reducible apply State.modTask_steady
    | with_reducible apply State.finishTask_steady
    | (with_reducible refine Steady.of_fst ?_ (by assumption))
    | (with_reducible refine Steady.of_snd ?_ (by assumption))
    | split

theorem State.codedRows_steady {r s : State} {fe : FlowEntry} {e : EncEntry} {id : Nat} {coded : Nat} (h : Steady r s) :
    Steady r (State.codedRows s fe e id coded) := by
  unfold State.codedRows
  repeat' first
    | with_reducible assumption
    | intro _
    | (extract_lets +onlyGivenNames x; with_reducible refine Steady.name (r := r) (s := x) ?_ (fun hx => ?_); (on_goal 2 => clear_value x); (on_goal 1 => subst x))
    | (extract_lets +onlyGivenNames x; have hx : ∀ a, x a = x a := (fun _ => rfl); clear hx; subst x)
    | (extract_lets +onlyGivenNames x; clear_value x)
    | with_reducible apply State.modEnc_steady
    | with_reducible apply State.modFrame_steady
    | (with_reducible refine Steady.of_fst ?_ (by assumption))
    | (with_reducible refine Steady.of_snd ?_ (by assumption))
    | split

theorem State.putChunk_steady {r s : State} {fe : FlowEntry} {e : EncEntry} {c : Chunk} {pad : Nat} (h : Steady r s) :
    Steady r (State.putChunk s fe e c pad) := by
  unfold State.putChunk
  repeat' first
    | with_reducible assumption
    | intro _
    | (extract_lets +onlyGivenNames x; with_reducible refine Steady.name (r := r) (s := x) ?_ (fun hx => ?_); (on_goal 2 => clear_value x); (on_goal 1 => subst x))
    | (extract_lets +onlyGivenNames x; have hx : ∀ a, x a = x a := (fun _ => rfl); clear hx; subst x)
    | (extract_lets +onlyGivenNames x; clear_value x)
    | with_reducible apply Steady.ite
    | with_reducible apply State.writeFor_steady
    | with_reducible apply State.modEnc_steady
    | split

theorem State.chunkWrite_steady {r s : State} {flow : Nat} (h : Steady r s) :
    Steady r (State.chunkWrite s flow) := by
  unfold State.chunkWrite
  repeat' first
    | with_reducible assumption
    | intro _
    | (extract_lets +onlyGivenNames x; with_reducible refine Steady.name (r := r) (s := x) ?_ (fun hx => ?_); (on_goal 2 => clear_value x); (on_goal 1 => subst x))
    | (extract_lets +onlyGivenNames x; have hx : ∀ a, x a = x a := (fun _ => rfl); clear hx; subst x)
    | (extract_lets +onlyGivenNames x; clear_value x)
    | with_reducible apply Steady.ite
    | with_reducible apply State.modEnc_steady
    | with_reducible apply State.stopTask_steady
    | with_reducible apply State.windowFail_steady
    | with_reducible apply State.raiseOn_steady
    | with_reducible apply State.setFld_steady
    | with_reducible apply State.putChunk_steady
    | with_reducible apply State.modTask_steady
    | with_reducible apply State.placeOutputs_steady
    | (with_reducible refine Steady.of_fst ?_ (by assumption))
    | (with_reducible refine Steady.of_snd ?_ (by assumption))
    | split

end Sys2Proof.Machine
end

