-- ==== Sys2Proof/Laws/FrameDelta.lean ====
section
/-! SUPPORT. What the operations of Machine/Delta.lean leave as it is. -/

set_option Elab.async false
set_option linter.unusedTactic false
set_option linter.unreachableTactic false

namespace Sys2Proof.Machine

open Sys2Proof.Safety

theorem State.modDelta_keeps {r s : State} {id : Nat} {g : DeltaTask → DeltaTask} (h : Keeps r s) :
    Keeps r (State.modDelta s id g) := by
  unfold State.modDelta
  repeat' first
    | with_reducible assumption
    | intro _
    | with_reducible apply State.modTask_keeps

theorem State.modDelta_steady {r s : State} {id : Nat} {g : DeltaTask → DeltaTask} (h : Steady r s) :
    Steady r (State.modDelta s id g) :=
  (State.modDelta_keeps (Keeps.refl _)).after h

theorem State.dropBlock_keeps {r s : State} {id : Nat} {p : Nat} (h : Keeps r s) :
    Keeps r (State.dropBlock s id p) := by
  unfold State.dropBlock
  repeat' first
    | with_reducible assumption
    | intro _
    | with_reducible apply Keeps.ite
    | with_reducible apply State.freeBlocks_keeps
    | with_reducible apply State.modTask_keeps
    | (with_reducible refine Keeps.of_fst ?_ (by assumption))
    | (with_reducible refine Keeps.of_snd ?_ (by assumption))
    | split

theorem State.dropBlock_steady {r s : State} {id : Nat} {p : Nat} (h : Steady r s) :
    Steady r (State.dropBlock s id p) :=
  (State.dropBlock_keeps (Keeps.refl _)).after h

theorem State.discard_keeps {r s : State} {id : Nat} {p : Xfer → Bool} (h : Keeps r s) :
    Keeps r (State.discard s id p) := by
  unfold State.discard
  repeat' first
    | with_reducible assumption
    | intro _
    | (extract_lets +onlyGivenNames x; with_reducible refine Keeps.name (r := r) (s := x) ?_ (fun hx => ?_); (on_goal 2 => clear_value x); (on_goal 1 => subst x))
    | (extract_lets +onlyGivenNames x; with_reducible refine Keeps.name (r := r) (s := x.1) ?_ (fun hx => ?_); (on_goal 2 => clear_value x); (on_goal 1 => subst x))
    | (extract_lets +onlyGivenNames x; have hx : ∀ a, x a = x a := (fun _ => rfl); clear hx; subst x)
    | (extract_lets +onlyGivenNames x; clear_value x)
    | with_reducible apply State.modDelta_keeps
    | with_reducible apply State.dropBlock_keeps
    | with_reducible apply Keeps.foldl
    | with_reducible apply Keeps.foldl_fst
    | (with_reducible refine Keeps.of_fst ?_ (by assumption))
    | (with_reducible refine Keeps.of_snd ?_ (by assumption))
    | split

theorem State.discard_steady {r s : State} {id : Nat} {p : Xfer → Bool} (h : Steady r s) :
    Steady r (State.discard s id p) :=
  (State.discard_keeps (Keeps.refl _)).after h

theorem State.haltDelta_keeps {r s : State} {id : Nat} (h : Keeps r s) :
    Keeps r (State.haltDelta s id) := by
  unfold State.haltDelta
  repeat' first
    | with_reducible assumption
    | intro _
    | (extract_lets +onlyGivenNames x; with_reducible refine Keeps.name (r := r) (s := x) ?_ (fun hx => ?_); (on_goal 2 => clear_value x); (on_goal 1 => subst x))
    | (extract_lets +onlyGivenNames x; have hx : ∀ a, x a = x a := (fun _ => rfl); clear hx; subst x)
    | (extract_lets +onlyGivenNames x; clear_value x)
    | with_reducible apply State.discard_keeps
    | with_reducible apply State.weirDrop_keeps
    | with_reducible apply State.modTask_keeps
    | (with_reducible refine Keeps.of_fst ?_ (by assumption))
    | (with_reducible refine Keeps.of_snd ?_ (by assumption))
    | split

theorem State.haltDelta_steady {r s : State} {id : Nat} (h : Steady r s) :
    Steady r (State.haltDelta s id) :=
  (State.haltDelta_keeps (Keeps.refl _)).after h

theorem State.modDlt_keeps {r s : State} {f : Nat} {g : DltCtx → DltCtx} (h : Keeps r s) :
    Keeps r (State.modDlt s f g) := by
  unfold State.modDlt
  repeat' first
    | with_reducible assumption
    | intro _
    | with_reducible apply State.modRun_keeps

theorem State.modDlt_steady {r s : State} {f : Nat} {g : DltCtx → DltCtx} (h : Steady r s) :
    Steady r (State.modDlt s f g) :=
  (State.modDlt_keeps (Keeps.refl _)).after h

theorem State.startDelta_keeps {r s : State} {a1 : Task} {d : DeltaTask} (h : Keeps r s) :
    Keeps r (State.startDelta s a1 d) := by
  unfold State.startDelta
  repeat' first
    | with_reducible assumption
    | intro _
    | (extract_lets +onlyGivenNames x; with_reducible refine Keeps.name (r := r) (s := x) ?_ (fun hx => ?_); (on_goal 2 => clear_value x); (on_goal 1 => subst x))
    | (extract_lets +onlyGivenNames x; have hx : ∀ a, x a = x a := (fun _ => rfl); clear hx; subst x)
    | (extract_lets +onlyGivenNames x; clear_value x)
    | with_reducible apply Keeps.ite
    | with_reducible apply State.modDelta_keeps
    | with_reducible apply State.modDlt_keeps
    | split

theorem State.startDelta_steady {r s : State} {a1 : Task} {d : DeltaTask} (h : Steady r s) :
    Steady r (State.startDelta s a1 d) :=
  (State.startDelta_keeps (Keeps.refl _)).after h

theorem State.startReady_keeps {r s : State} (h : Keeps r s) :
    Keeps r (State.startReady s) := by
  unfold State.startReady
  repeat' first
    | with_reducible assumption
    | intro _
    | with_reducible apply Keeps.ite
    | with_reducible apply State.startDelta_keeps
    | with_reducible apply Keeps.foldl
    | with_reducible apply Keeps.foldl_fst
    | (with_reducible refine Keeps.of_fst ?_ (by assumption))
    | (with_reducible refine Keeps.of_snd ?_ (by assumption))
    | split

theorem State.startReady_steady {r s : State} (h : Steady r s) :
    Steady r (State.startReady s) :=
  (State.startReady_keeps (Keeps.refl _)).after h

theorem State.stampWaits_keeps {r s : State} {f : Nat} (h : Keeps r s) :
    Keeps r (State.stampWaits s f) := by
  unfold State.stampWaits
  repeat' first
    | with_reducible assumption
    | intro _
    | (extract_lets +onlyGivenNames x; with_reducible refine Keeps.name (r := r) (s := x) ?_ (fun hx => ?_); (on_goal 2 => clear_value x); (on_goal 1 => subst x))
    | (extract_lets +onlyGivenNames x; have hx : ∀ a, x a = x a := (fun _ => rfl); clear hx; subst x)
    | (extract_lets +onlyGivenNames x; clear_value x)
    | with_reducible apply Keeps.ite
    | with_reducible exact Keeps.upd_tasks (by assumption)
    | split
    | with_reducible apply Keeps.upd_tasks

theorem State.stampWaits_steady {r s : State} {f : Nat} (h : Steady r s) :
    Steady r (State.stampWaits s f) :=
  (State.stampWaits_keeps (Keeps.refl _)).after h

theorem State.writeXfer_keeps {r s : State} {a1 : Task} {fe : FlowEntry} {a3 : Xfer} {desc : Desc} (h : Keeps r s) :
    Keeps r (State.writeXfer s a1 fe a3 desc) := by
  unfold State.writeXfer
  repeat' first
    | with_reducible assumption
    | intro _
    | (extract_lets +onlyGivenNames x; with_reducible refine Keeps.name (r := r) (s := x) ?_ (fun hx => ?_); (on_goal 2 => clear_value x); (on_goal 1 => subst x))
    | (extract_lets +onlyGivenNames x; with_reducible refine Keeps.name (r := r) (s := x.1) ?_ (fun hx => ?_); (on_goal 2 => clear_value x); (on_goal 1 => subst x))
    | (extract_lets +onlyGivenNames x; have hx : ∀ a, x a = x a := (fun _ => rfl); clear hx; subst x)
    | (extract_lets +onlyGivenNames x; clear_value x)
    | with_reducible apply Keeps.ite
    | with_reducible apply State.modDelta_keeps
    | with_reducible apply State.modTask_keeps
    | with_reducible apply State.addUnits_keeps
    | with_reducible apply State.writeMover_keeps
    | with_reducible apply Keeps.foldl
    | with_reducible apply Keeps.foldl_fst
    | (with_reducible refine Keeps.of_fst ?_ (by assumption))
    | (with_reducible refine Keeps.of_snd ?_ (by assumption))
    | split

theorem State.writeXfer_steady {r s : State} {a1 : Task} {fe : FlowEntry} {a3 : Xfer} {desc : Desc} (h : Steady r s) :
    Steady r (State.writeXfer s a1 fe a3 desc) :=
  (State.writeXfer_keeps (Keeps.refl _)).after h

theorem State.offerXfer_keeps {r s : State} {id : Nat} {a2 : Xfer} (h : Keeps r s) :
    Keeps r (State.offerXfer s id a2) := by
  unfold State.offerXfer
  repeat' first
    | with_reducible assumption
    | intro _
    | (extract_lets +onlyGivenNames x; with_reducible refine Keeps.name (r := r) (s := x) ?_ (fun hx => ?_); (on_goal 2 => clear_value x); (on_goal 1 => subst x))
    | (extract_lets +onlyGivenNames x; have hx : ∀ a, x a = x a := (fun _ => rfl); clear hx; subst x)
    | (extract_lets +onlyGivenNames x; clear_value x)
    | with_reducible apply Keeps.ite
    | with_reducible apply State.incFld_keeps
    | with_reducible apply State.modDelta_keeps
    | with_reducible apply State.writeXfer_keeps
    | (with_reducible refine Keeps.of_fst ?_ (by assumption))
    | (with_reducible refine Keeps.of_snd ?_ (by assumption))
    | split

theorem State.offerXfer_steady {r s : State} {id : Nat} {a2 : Xfer} (h : Steady r s) :
    Steady r (State.offerXfer s id a2) :=
  (State.offerXfer_keeps (Keeps.refl _)).after h

theorem State.runLayer_keeps {r s : State} {id : Nat} (h : Keeps r s) :
    Keeps r (State.runLayer s id) := by
  unfold State.runLayer
  repeat' first
    | with_reducible assumption
    | intro _
    | (extract_lets +onlyGivenNames x; with_reducible refine Keeps.name (r := r) (s := x) ?_ (fun hx => ?_); (on_goal 2 => clear_value x); (on_goal 1 => subst x))
    | (extract_lets +onlyGivenNames x; with_reducible refine Keeps.name (r := r) (s := x.1) ?_ (fun hx => ?_); (on_goal 2 => clear_value x); (on_goal 1 => subst x))
    | (extract_lets +onlyGivenNames x; have hx : ∀ a, x a = x a := (fun _ => rfl); clear hx; subst x)
    | (extract_lets +onlyGivenNames x; clear_value x)
    | with_reducible apply State.modTask_keeps
    | with_reducible apply State.dropWaiter_keeps
    | with_reducible apply State.modDlt_keeps
    | with_reducible apply State.offerXfer_keeps
    | with_reducible apply Keeps.foldl
    | with_reducible apply Keeps.foldl_fst
    | (with_reducible refine Keeps.of_fst ?_ (by assumption))
    | (with_reducible refine Keeps.of_snd ?_ (by assumption))
    | split

theorem State.runLayer_steady {r s : State} {id : Nat} (h : Steady r s) :
    Steady r (State.runLayer s id) :=
  (State.runLayer_keeps (Keeps.refl _)).after h

theorem State.drainCheck_keeps {r s : State} {f : Nat} (h : Keeps r s) :
    Keeps r (State.drainCheck s f) := by
  unfold State.drainCheck
  repeat' first
    | with_reducible assumption
    | intro _
    | (extract_lets +onlyGivenNames x; with_reducible refine Keeps.name (r := r) (s := x) ?_ (fun hx => ?_); (on_goal 2 => clear_value x); (on_goal 1 => subst x))
    | (extract_lets +onlyGivenNames x; with_reducible refine Keeps.name (r := r) (s := x.1) ?_ (fun hx => ?_); (on_goal 2 => clear_value x); (on_goal 1 => subst x))
    | (extract_lets +onlyGivenNames x; have hx : ∀ a, x a = x a := (fun _ => rfl); clear hx; subst x)
    | (extract_lets +onlyGivenNames x; clear_value x)
    | with_reducible apply State.modDlt_keeps
    | with_reducible apply State.runLayer_keeps
    | with_reducible apply Keeps.foldl
    | with_reducible apply Keeps.foldl_fst
    | (with_reducible refine Keeps.of_fst ?_ (by assumption))
    | (with_reducible refine Keeps.of_snd ?_ (by assumption))
    | split

theorem State.drainCheck_steady {r s : State} {f : Nat} (h : Steady r s) :
    Steady r (State.drainCheck s f) :=
  (State.drainCheck_keeps (Keeps.refl _)).after h

theorem State.dltLast_keeps {r s : State} {a1 : Task} {reason : Nat} {idx : Nat} (h : Keeps r s) :
    Keeps r (State.dltLast s a1 reason idx) := by
  unfold State.dltLast
  repeat' first
    | with_reducible assumption
    | with_reducible apply State.setFlds_keeps

theorem State.dltLast_steady {r s : State} {a1 : Task} {reason : Nat} {idx : Nat} (h : Steady r s) :
    Steady r (State.dltLast s a1 reason idx) :=
  (State.dltLast_keeps (Keeps.refl _)).after h

theorem State.chainRefuse_keeps {r s : State} {id : Nat} {status : Nat} {idx : Nat} (h : Keeps r s) :
    Keeps r (State.chainRefuse s id status idx) := by
  unfold State.chainRefuse
  repeat' first
    | with_reducible assumption
    | intro _
    | with_reducible apply Keeps.ite
    | with_reducible apply State.stopTask_keeps
    | with_reducible apply State.haltDelta_keeps
    | with_reducible apply State.modDelta_keeps
    | (with_reducible refine Keeps.of_fst ?_ (by assumption))
    | (with_reducible refine Keeps.of_snd ?_ (by assumption))
    | split

theorem State.chainRefuse_steady {r s : State} {id : Nat} {status : Nat} {idx : Nat} (h : Steady r s) :
    Steady r (State.chainRefuse s id status idx) :=
  (State.chainRefuse_keeps (Keeps.refl _)).after h

theorem State.deltaRefuse_keeps {r s : State} {id : Nat} {status : Nat} {reason : Nat} {idx : Nat} (h : Keeps r s) :
    Keeps r (State.deltaRefuse s id status reason idx) := by
  unfold State.deltaRefuse
  repeat' first
    | with_reducible assumption
    | intro _
    | with_reducible apply Keeps.ite
    | with_reducible apply State.dltLast_keeps
    | with_reducible apply State.chainRefuse_keeps
    | (with_reducible refine Keeps.of_fst ?_ (by assumption))
    | (with_reducible refine Keeps.of_snd ?_ (by assumption))
    | split

theorem State.deltaRefuse_steady {r s : State} {id : Nat} {status : Nat} {reason : Nat} {idx : Nat} (h : Steady r s) :
    Steady r (State.deltaRefuse s id status reason idx) :=
  (State.deltaRefuse_keeps (Keeps.refl _)).after h

theorem State.deltaAbort_keeps {r s : State} {id : Nat} {status : Nat} {reason : Nat} {idx : Nat} (h : Keeps r s) :
    Keeps r (State.deltaAbort s id status reason idx) := by
  unfold State.deltaAbort
  repeat' first
    | with_reducible assumption
    | intro _
    | (extract_lets +onlyGivenNames x; with_reducible refine Keeps.name (r := r) (s := x) ?_ (fun hx => ?_); (on_goal 2 => clear_value x); (on_goal 1 => subst x))
    | (extract_lets +onlyGivenNames x; have hx : ∀ a, x a = x a := (fun _ => rfl); clear hx; subst x)
    | (extract_lets +onlyGivenNames x; clear_value x)
    | with_reducible apply Keeps.ite
    | with_reducible apply State.stopTask_keeps
    | with_reducible apply State.haltDelta_keeps
    | with_reducible apply State.modDelta_keeps
    | with_reducible apply State.dltLast_keeps
    | with_reducible apply State.incFld_keeps
    | (with_reducible refine Keeps.of_fst ?_ (by assumption))
    | (with_reducible refine Keeps.of_snd ?_ (by assumption))
    | split

theorem State.deltaAbort_steady {r s : State} {id : Nat} {status : Nat} {reason : Nat} {idx : Nat} (h : Steady r s) :
    Steady r (State.deltaAbort s id status reason idx) :=
  (State.deltaAbort_keeps (Keeps.refl _)).after h

theorem State.altWindow_keeps {r s : State} {a1 : Task} {d : DeltaTask} {a3 : Nat} {access : Nat} {a5 : Nat} (h : Keeps r s) :
    Keeps r (State.altWindow s a1 d a3 access a5) := by
  unfold State.altWindow
  repeat' first
    | with_reducible assumption
    | (extract_lets +onlyGivenNames x; with_reducible refine Keeps.name (r := r) (s := x) ?_ (fun hx => ?_); (on_goal 2 => clear_value x); (on_goal 1 => subst x))
    | (extract_lets +onlyGivenNames x; clear_value x)
    | with_reducible apply Keeps.ite
    | with_reducible apply State.windowFail_keeps
    | with_reducible apply State.deltaRefuse_keeps
    | with_reducible apply State.incFld_keeps
    | with_reducible apply State.deltaAbort_keeps
    | split

theorem State.altWindow_steady {r s : State} {a1 : Task} {d : DeltaTask} {a3 : Nat} {access : Nat} {a5 : Nat} (h : Steady r s) :
    Steady r (State.altWindow s a1 d a3 access a5) :=
  (State.altWindow_keeps (Keeps.refl _)).after h

theorem State.fetchDesc_keeps {r s : State} {a1 : Task} {idx : Nat} {a3 : Nat} {isAlt : Bool} (h : Keeps r s) :
    Keeps r (State.fetchDesc s a1 idx a3 isAlt) := by
  unfold State.fetchDesc
  repeat' first
    | with_reducible assumption
    | intro _
    | with_reducible apply State.issueFor_keeps
    | with_reducible apply State.modTask_keeps
    | (with_reducible refine Keeps.of_fst ?_ (by assumption))
    | (with_reducible refine Keeps.of_snd ?_ (by assumption))
    | split

theorem State.fetchDesc_steady {r s : State} {a1 : Task} {idx : Nat} {a3 : Nat} {isAlt : Bool} (h : Steady r s) :
    Steady r (State.fetchDesc s a1 idx a3 isAlt) :=
  (State.fetchDesc_keeps (Keeps.refl _)).after h

theorem State.resetDesc_keeps {r s : State} {id : Nat} {a2 : Nat} {a3 : Desc} (h : Keeps r s) :
    Keeps r (State.resetDesc s id a2 a3) := by
  unfold State.resetDesc
  repeat' first
    | with_reducible assumption
    | intro _
    | (extract_lets +onlyGivenNames x; with_reducible refine Keeps.name (r := r) (s := x) ?_ (fun hx => ?_); (on_goal 2 => clear_value x); (on_goal 1 => subst x))
    | (extract_lets +onlyGivenNames x; have hx : ∀ a, x a = x a := (fun _ => rfl); clear hx; subst x)
    | (extract_lets +onlyGivenNames x; clear_value x)
    | with_reducible apply State.discard_keeps
    | with_reducible apply State.modDelta_keeps

theorem State.resetDesc_steady {r s : State} {id : Nat} {a2 : Nat} {a3 : Desc} (h : Steady r s) :
    Steady r (State.resetDesc s id a2 a3) :=
  (State.resetDesc_keeps (Keeps.refl _)).after h

theorem State.oneRead_keeps {r s : State} {id : Nat} (h : Keeps r s) :
    Keeps r (State.oneRead s id) := by
  unfold State.oneRead
  repeat' first
    | with_reducible assumption
    | intro _
    | with_reducible apply State.modTask_keeps

theorem State.oneRead_steady {r s : State} {id : Nat} (h : Steady r s) :
    Steady r (State.oneRead s id) :=
  (State.oneRead_keeps (Keeps.refl _)).after h

theorem State.alignDesc_keeps {r s : State} {alt : Bool} {id : Nat} {a3 : Nat} (h : Keeps r s) :
    Keeps r (State.alignDesc s alt id a3) := by
  unfold State.alignDesc
  repeat' first
    | with_reducible assumption
    | intro _
    | (extract_lets +onlyGivenNames x; with_reducible refine Keeps.name (r := r) (s := x) ?_ (fun hx => ?_); (on_goal 2 => clear_value x); (on_goal 1 => subst x))
    | (extract_lets +onlyGivenNames x; have hx : ∀ a, x a = x a := (fun _ => rfl); clear hx; subst x)
    | (extract_lets +onlyGivenNames x; clear_value x)
    | with_reducible apply Keeps.ite
    | with_reducible apply State.altWindow_keeps
    | with_reducible apply State.fetchDesc_keeps
    | with_reducible apply State.modDelta_keeps
    | with_reducible apply State.resetDesc_keeps
    | with_reducible apply State.weirDrop_keeps
    | with_reducible apply State.oneRead_keeps
    | (with_reducible refine Keeps.of_fst ?_ (by assumption))
    | (with_reducible refine Keeps.of_snd ?_ (by assumption))
    | split

theorem State.alignDesc_steady {r s : State} {alt : Bool} {id : Nat} {a3 : Nat} (h : Steady r s) :
    Steady r (State.alignDesc s alt id a3) :=
  (State.alignDesc_keeps (Keeps.refl _)).after h

theorem State.alignTask_keeps {r s : State} {a1 : Task} (h : Keeps r s) :
    Keeps r (State.alignTask s a1) := by
  unfold State.alignTask
  repeat' first
    | with_reducible assumption
    | intro _
    | with_reducible apply Keeps.ite
    | with_reducible apply State.alignDesc_keeps
    | with_reducible apply Keeps.foldl
    | with_reducible apply Keeps.foldl_fst
    | (with_reducible refine Keeps.of_fst ?_ (by assumption))
    | (with_reducible refine Keeps.of_snd ?_ (by assumption))
    | split

theorem State.alignTask_steady {r s : State} {a1 : Task} (h : Steady r s) :
    Steady r (State.alignTask s a1) :=
  (State.alignTask_keeps (Keeps.refl _)).after h

theorem State.deltaPass_keeps {r s : State} (h : Keeps r s) :
    Keeps r (State.deltaPass s) := by
  unfold State.deltaPass
  repeat' first
    | with_reducible assumption
    | intro _
    | (extract_lets +onlyGivenNames x; with_reducible refine Keeps.name (r := r) (s := x) ?_ (fun hx => ?_); (on_goal 2 => clear_value x); (on_goal 1 => subst x))
    | (extract_lets +onlyGivenNames x; with_reducible refine Keeps.name (r := r) (s := x.1) ?_ (fun hx => ?_); (on_goal 2 => clear_value x); (on_goal 1 => subst x))
    | (extract_lets +onlyGivenNames x; have hx : ∀ a, x a = x a := (fun _ => rfl); clear hx; subst x)
    | (extract_lets +onlyGivenNames x; clear_value x)
    | with_reducible apply State.startReady_keeps
    | with_reducible apply State.stampWaits_keeps
    | with_reducible apply State.drainCheck_keeps
    | with_reducible apply State.alignTask_keeps
    | with_reducible apply Keeps.foldl
    | with_reducible apply Keeps.foldl_fst

theorem State.deltaPass_steady {r s : State} (h : Steady r s) :
    Steady r (State.deltaPass s) :=
  (State.deltaPass_keeps (Keeps.refl _)).after h

theorem State.deltaSettleGo_keeps {r s : State} {a0 : Nat} (h : Keeps r s) :
    Keeps r (State.deltaSettleGo a0 s) := by
  induction a0 generalizing s with
  | zero => exact h
  | succ n ih =>
    unfold State.deltaSettleGo
    repeat' first
      | with_reducible assumption
      | with_reducible apply ih
      | with_reducible apply State.deltaPass_keeps
      | (with_reducible refine Keeps.of_fst ?_ (by assumption))
      | (with_reducible refine Keeps.of_snd ?_ (by assumption))
      | split

theorem State.deltaSettleGo_steady {r s : State} {a0 : Nat} (h : Steady r s) :
    Steady r (State.deltaSettleGo a0 s) :=
  (State.deltaSettleGo_keeps (Keeps.refl _)).after h

theorem State.deltaSettle_keeps {r s : State} (h : Keeps r s) :
    Keeps r (State.deltaSettle s) := by
  unfold State.deltaSettle
  repeat' first
    | with_reducible assumption
    | intro _
    | with_reducible apply Keeps.ite
    | with_reducible apply State.deltaSettleGo_keeps
    | with_reducible apply State.drainCheck_keeps
    | with_reducible apply Keeps.foldl
    | with_reducible apply Keeps.foldl_fst
    | split

theorem State.deltaSettle_steady {r s : State} (h : Steady r s) :
    Steady r (State.deltaSettle s) :=
  (State.deltaSettle_keeps (Keeps.refl _)).after h

theorem State.setAlt_steady {r s : State} {f : Nat} {on : Bool} (h : Steady r s) :
    Steady r (State.setAlt s f on) := by
  unfold State.setAlt
  repeat' first
    | with_reducible assumption
    | intro _
    | with_reducible apply State.modDlt_steady

theorem State.layerDone_steady {r s : State} {ten : Nat} {f : Nat} {l : Nat} {die : Nat} (h : Steady r s) :
    Steady r (State.layerDone s ten f l die) := by
  unfold State.layerDone
  repeat' first
    | with_reducible assumption
    | intro _
    | with_reducible apply Steady.ite
    | with_reducible apply State.modDlt_steady
    | with_reducible apply State.incFld_steady
    | (with_reducible refine Steady.of_fst ?_ (by assumption))
    | (with_reducible refine Steady.of_snd ?_ (by assumption))
    | split

theorem State.deltaDone_steady {r s : State} {flow : Nat} {ten : Nat} {layer : Nat} {index : Nat} {key : Nat} {die : Nat} (h : Steady r s) :
    Steady r (State.deltaDone s flow ten layer index key die) := by
  unfold State.deltaDone
  repeat' first
    | with_reducible assumption
    | with_reducible apply State.issue_steady

theorem State.countDelivered_steady {r s : State} {f : Nat} (h : Steady r s) :
    Steady r (State.countDelivered s f) := by
  unfold State.countDelivered
  repeat' first
    | with_reducible assumption
    | intro _
    | with_reducible apply State.modDlt_steady

theorem State.startXfer_steady {r s : State} {a1 : Task} {d : DeltaTask} {fe : FlowEntry} {segs : List (Prod Nat (Prod Nat Nat))} {n : Nat} {pool : Option Nat} (h : Steady r s) :
    Steady r (State.startXfer s a1 d fe segs n pool) := by
  unfold State.startXfer
  repeat' first
    | with_reducible assumption
    | intro _
    | (extract_lets +onlyGivenNames x; with_reducible refine Steady.name (r := r) (s := x) ?_ (fun hx => ?_); (on_goal 2 => clear_value x); (on_goal 1 => subst x))
    | (extract_lets +onlyGivenNames x; with_reducible refine Steady.name (r := r) (s := x.1) ?_ (fun hx => ?_); (on_goal 2 => clear_value x); (on_goal 1 => subst x))
    | (extract_lets +onlyGivenNames x; have hx : ∀ a, x a = x a := (fun _ => rfl); clear hx; subst x)
    | (extract_lets +onlyGivenNames x; clear_value x)
    | with_reducible apply State.modDelta_steady
    | with_reducible apply State.modTask_steady
    | with_reducible apply State.issueMover_steady
    | with_reducible apply Steady.foldl
    | with_reducible apply Steady.foldl_fst
    | (with_reducible refine Steady.of_fst ?_ (by assumption))
    | (with_reducible refine Steady.of_snd ?_ (by assumption))
    | split

theorem State.stageBlock_steady {r s : State} {a1 : Task} {fe : FlowEntry} {bytes : Nat} (h : Steady r s) :
    Steady r (State.stageBlock s a1 fe bytes).1 := by
  unfold State.stageBlock
  repeat' first
    | with_reducible assumption
    | intro _
    | (extract_lets +onlyGivenNames x; with_reducible refine Steady.name (r := r) (s := x) ?_ (fun hx => ?_); (on_goal 2 => clear_value x); (on_goal 1 => subst x))
    | (extract_lets +onlyGivenNames x; have hx : ∀ a, x a = x a := (fun _ => rfl); clear hx; subst x)
    | (extract_lets +onlyGivenNames x; clear_value x)
    | with_reducible apply Steady.ite
    | with_reducible apply State.modDelta_steady
    | with_reducible apply State.requestBlock_steady
    | (with_reducible refine Steady.of_fst ?_ (by assumption))
    | (with_reducible refine Steady.of_snd ?_ (by assumption))
    | split

theorem State.dispatchXfer_steady {r s : State} {a1 : Task} (h : Steady r s) :
    Steady r (State.dispatchXfer s a1) := by
  unfold State.dispatchXfer
  repeat' first
    | with_reducible assumption
    | intro _
    | (extract_lets +onlyGivenNames x; with_reducible refine Steady.name (r := r) (s := x) ?_ (fun hx => ?_); (on_goal 2 => clear_value x); (on_goal 1 => subst x))
    | (extract_lets +onlyGivenNames x; have hx : ∀ a, x a = x a := (fun _ => rfl); clear hx; subst x)
    | (extract_lets +onlyGivenNames x; clear_value x)
    | with_reducible apply Steady.ite
    | with_reducible apply State.deltaAbort_steady
    | with_reducible apply State.countOverclass_steady
    | with_reducible apply State.startXfer_steady
    | with_reducible apply State.stageBlock_steady
    | (with_reducible refine Steady.of_fst ?_ (by assumption))
    | (with_reducible refine Steady.of_snd ?_ (by assumption))
    | split

theorem State.drainTimeout_steady {r s : State} {id : Nat} (h : Steady r s) :
    Steady r (State.drainTimeout s id) := by
  unfold State.drainTimeout
  repeat' first
    | with_reducible assumption
    | intro _
    | (extract_lets +onlyGivenNames x; with_reducible refine Steady.name (r := r) (s := x) ?_ (fun hx => ?_); (on_goal 2 => clear_value x); (on_goal 1 => subst x))
    | (extract_lets +onlyGivenNames x; have hx : ∀ a, x a = x a := (fun _ => rfl); clear hx; subst x)
    | (extract_lets +onlyGivenNames x; clear_value x)
    | with_reducible apply Steady.ite
    | with_reducible apply State.modDlt_steady
    | with_reducible apply State.advance_steady
    | with_reducible apply State.stopTask_steady
    | with_reducible apply State.haltDelta_steady
    | with_reducible apply State.raiseOn_steady
    | with_reducible apply State.dltLast_steady
    | with_reducible apply State.incFld_steady
    | (with_reducible refine Steady.of_fst ?_ (by assumption))
    | (with_reducible refine Steady.of_snd ?_ (by assumption))
    | split

theorem State.releaseHeld_steady {r s : State} {p : State → Task → FlowEntry → Nat → Bool} (h : Steady r s) :
    Steady r (State.releaseHeld s p) := by
  unfold State.releaseHeld
  repeat' first
    | with_reducible assumption
    | intro _
    | with_reducible apply Steady.ite
    | with_reducible apply State.writeXfer_steady
    | with_reducible apply Steady.foldl
    | with_reducible apply Steady.foldl_fst
    | (with_reducible refine Steady.of_fst ?_ (by assumption))
    | (with_reducible refine Steady.of_snd ?_ (by assumption))
    | split

theorem State.gotAlt_steady {r s : State} {fe : FlowEntry} {a2 : Task} {d : DeltaTask} {a4 : Nat} {b : List Byte} (h : Steady r s) :
    Steady r (State.gotAlt s fe a2 d a4 b) := by
  unfold State.gotAlt
  repeat' first
    | with_reducible assumption
    | intro _
    | (extract_lets +onlyGivenNames x; with_reducible refine Steady.name (r := r) (s := x) ?_ (fun hx => ?_); (on_goal 2 => clear_value x); (on_goal 1 => subst x))
    | (extract_lets +onlyGivenNames x; have hx : ∀ a, x a = x a := (fun _ => rfl); clear hx; subst x)
    | (extract_lets +onlyGivenNames x; clear_value x)
    | with_reducible apply Steady.ite
    | with_reducible apply State.modDelta_steady
    | with_reducible apply State.deltaRefuse_steady
    | with_reducible apply State.deltaAbort_steady
    | with_reducible apply State.altWindow_steady
    | with_reducible apply State.resetDesc_steady
    | with_reducible apply State.incFld_steady
    | with_reducible apply State.modDlt_steady
    | (with_reducible refine Steady.of_fst ?_ (by assumption))
    | (with_reducible refine Steady.of_snd ?_ (by assumption))
    | split

theorem State.descWindow_steady {r s : State} {a1 : Task} {a2 : Nat} {access : Nat} {idx : Nat} (h : Steady r s) :
    Steady r (State.descWindow s a1 a2 access idx) := by
  unfold State.descWindow
  repeat' first
    | with_reducible assumption
    | with_reducible apply State.chainRefuse_steady
    | with_reducible apply State.windowFail_steady

theorem State.takeStream_steady {r s : State} {a1 : Task} {stream : Nat} (h : Steady r s) :
    Steady r (State.takeStream s a1 stream).1 := by
  unfold State.takeStream
  repeat' first
    | with_reducible assumption
    | intro _
    | with_reducible apply Steady.ite
    | with_reducible apply State.modDlt_steady
    | (with_reducible refine Steady.of_fst ?_ (by assumption))
    | (with_reducible refine Steady.of_snd ?_ (by assumption))
    | split

theorem State.gotDesc_steady {r s : State} {fe : FlowEntry} {a2 : Task} {d : DeltaTask} {idx : Nat} {b : List Byte} (h : Steady r s) :
    Steady r (State.gotDesc s fe a2 d idx b) := by
  unfold State.gotDesc
  repeat' first
    | with_reducible assumption
    | intro _
    | (extract_lets +onlyGivenNames x; with_reducible refine Steady.name (r := r) (s := x) ?_ (fun hx => ?_); (on_goal 2 => clear_value x); (on_goal 1 => subst x))
    | (extract_lets +onlyGivenNames x; have hx : ∀ a, x a = x a := (fun _ => rfl); clear hx; subst x)
    | (extract_lets +onlyGivenNames x; clear_value x)
    | with_reducible apply Steady.ite
    | with_reducible apply State.chainRefuse_steady
    | with_reducible apply State.descWindow_steady
    | with_reducible apply State.modDelta_steady
    | with_reducible apply State.takeStream_steady
    | with_reducible apply State.stopTask_steady
    | with_reducible apply State.incFld_steady
    | with_reducible apply State.modTask_steady
    | with_reducible apply State.countOverclass_steady
    | with_reducible apply State.fetchDesc_steady
    | (with_reducible refine Steady.of_fst ?_ (by assumption))
    | (with_reducible refine Steady.of_snd ?_ (by assumption))
    | split

theorem State.convertXfer_steady {r s : State} {id : Nat} {d : DeltaTask} {a3 : Xfer} (h : Steady r s) :
    Steady r (State.convertXfer s id d a3) := by
  unfold State.convertXfer
  repeat' first
    | with_reducible assumption
    | intro _
    | (extract_lets +onlyGivenNames x; with_reducible refine Steady.name (r := r) (s := x) ?_ (fun hx => ?_); (on_goal 2 => clear_value x); (on_goal 1 => subst x))
    | (extract_lets +onlyGivenNames x; have hx : ∀ a, x a = x a := (fun _ => rfl); clear hx; subst x)
    | (extract_lets +onlyGivenNames x; clear_value x)
    | with_reducible apply Steady.ite
    | with_reducible apply State.addFld_steady
    | with_reducible apply State.modDelta_steady
    | with_reducible apply State.offerXfer_steady
    | (with_reducible refine Steady.of_fst ?_ (by assumption))
    | (with_reducible refine Steady.of_snd ?_ (by assumption))
    | split

theorem State.gotSource_steady {r s : State} {id : Nat} {key : Nat} {b : List Byte} (h : Steady r s) :
    Steady r (State.gotSource s id key b) := by
  unfold State.gotSource
  repeat' first
    | with_reducible assumption
    | intro _
    | (extract_lets +onlyGivenNames x; with_reducible refine Steady.name (r := r) (s := x) ?_ (fun hx => ?_); (on_goal 2 => clear_value x); (on_goal 1 => subst x))
    | (extract_lets +onlyGivenNames x; with_reducible refine Steady.name (r := r) (s := x.1) ?_ (fun hx => ?_); (on_goal 2 => clear_value x); (on_goal 1 => subst x))
    | (extract_lets +onlyGivenNames x; have hx : ∀ a, x a = x a := (fun _ => rfl); clear hx; subst x)
    | (extract_lets +onlyGivenNames x; clear_value x)
    | with_reducible apply State.oneRead_steady
    | with_reducible apply State.modTask_steady
    | with_reducible apply State.modDelta_steady
    | with_reducible apply State.convertXfer_steady
    | with_reducible apply Steady.foldl
    | with_reducible apply Steady.foldl_fst
    | (with_reducible refine Steady.of_fst ?_ (by assumption))
    | (with_reducible refine Steady.of_snd ?_ (by assumption))
    | split

theorem State.endDelta_steady {r s : State} {a1 : Task} {d : DeltaTask} (h : Steady r s) :
    Steady r (State.endDelta s a1 d) := by
  unfold State.endDelta
  repeat' first
    | with_reducible assumption
    | intro _
    | (extract_lets +onlyGivenNames x; with_reducible refine Steady.name (r := r) (s := x) ?_ (fun hx => ?_); (on_goal 2 => clear_value x); (on_goal 1 => subst x))
    | (extract_lets +onlyGivenNames x; with_reducible refine Steady.name (r := r) (s := x.1) ?_ (fun hx => ?_); (on_goal 2 => clear_value x); (on_goal 1 => subst x))
    | (extract_lets +onlyGivenNames x; have hx : ∀ a, x a = x a := (fun _ => rfl); clear hx; subst x)
    | (extract_lets +onlyGivenNames x; clear_value x)
    | with_reducible apply Steady.ite
    | with_reducible apply State.deltaDone_steady
    | with_reducible apply State.finishTask_steady
    | with_reducible apply State.placeOutputs_steady
    | with_reducible apply State.countDelivered_steady
    | with_reducible apply Steady.foldl
    | with_reducible apply Steady.foldl_fst
    | split

theorem State.endIfDone_steady {r s : State} {id : Nat} (h : Steady r s) :
    Steady r (State.endIfDone s id) := by
  unfold State.endIfDone
  repeat' first
    | with_reducible assumption
    | with_reducible apply Steady.ite
    | with_reducible apply State.endDelta_steady
    | (with_reducible refine Steady.of_fst ?_ (by assumption))
    | (with_reducible refine Steady.of_snd ?_ (by assumption))
    | split

theorem State.ackedXfer_steady {r s : State} {id : Nat} {key : Nat} (h : Steady r s) :
    Steady r (State.ackedXfer s id key) := by
  unfold State.ackedXfer
  repeat' first
    | with_reducible assumption
    | intro _
    | (extract_lets +onlyGivenNames x; with_reducible refine Steady.name (r := r) (s := x) ?_ (fun hx => ?_); (on_goal 2 => clear_value x); (on_goal 1 => subst x))
    | (extract_lets +onlyGivenNames x; have hx : ∀ a, x a = x a := (fun _ => rfl); clear hx; subst x)
    | (extract_lets +onlyGivenNames x; clear_value x)
    | with_reducible apply Steady.ite
    | with_reducible apply State.modTask_steady
    | with_reducible apply State.modDelta_steady
    | with_reducible apply State.dropBlock_steady
    | with_reducible apply State.endIfDone_steady
    | (with_reducible refine Steady.of_fst ?_ (by assumption))
    | (with_reducible refine Steady.of_snd ?_ (by assumption))
    | split

end Sys2Proof.Machine
end

