-- ==== Sys2Proof/Laws/FrameGalley.lean ====
section
/-! SUPPORT. What the operations of Machine/Galley.lean leave as it is. -/

set_option Elab.async false
set_option linter.unusedTactic false
set_option linter.unreachableTactic false

namespace Sys2Proof.Machine

open Sys2Proof.Safety

theorem State.freeMember_keeps {r s : State} {m : Member} (h : Keeps r s) :
    Keeps r (State.freeMember s m) := by
  unfold State.freeMember
  repeat' first
    | with_reducible assumption
    | with_reducible apply State.freeBlocks_keeps
    | (with_reducible refine Keeps.of_fst ?_ (by assumption))
    | (with_reducible refine Keeps.of_snd ?_ (by assumption))
    | split

theorem State.freeMember_steady {r s : State} {m : Member} (h : Steady r s) :
    Steady r (State.freeMember s m) :=
  (State.freeMember_keeps (Keeps.refl _)).after h

theorem State.freeReserve_keeps {r s : State} {f : Nat} {l : List RowRun} (h : Keeps r s) :
    Keeps r (State.freeReserve s f l) := by
  unfold State.freeReserve
  repeat' first
    | with_reducible assumption
    | intro _
    | with_reducible apply State.freeBlocks_keeps
    | with_reducible apply Keeps.foldl
    | with_reducible apply Keeps.foldl_fst
    | (with_reducible refine Keeps.of_fst ?_ (by assumption))
    | (with_reducible refine Keeps.of_snd ?_ (by assumption))
    | split

theorem State.freeReserve_steady {r s : State} {f : Nat} {l : List RowRun} (h : Steady r s) :
    Steady r (State.freeReserve s f l) :=
  (State.freeReserve_keeps (Keeps.refl _)).after h

theorem State.modUnit_keeps {r s : State} {key : Nat} {f : BatchOut → BatchOut} (h : Keeps r s) :
    Keeps r (State.modUnit s key f) := by
  unfold State.modUnit
  repeat' first
    | with_reducible assumption
    | intro _
    | with_reducible exact Keeps.upd_batches (by assumption)
    | with_reducible apply Keeps.upd_batches

theorem State.modUnit_steady {r s : State} {key : Nat} {f : BatchOut → BatchOut} (h : Steady r s) :
    Steady r (State.modUnit s key f) :=
  (State.modUnit_keeps (Keeps.refl _)).after h

theorem State.endRow_keeps {r s : State} {id : Nat} {status : Nat} {row : Nat} {index : Nat} (h : Keeps r s) :
    Keeps r (State.endRow s id status row index) := by
  unfold State.endRow
  repeat' first
    | with_reducible assumption
    | intro _
    | (extract_lets +onlyGivenNames x; with_reducible refine Keeps.name (r := r) (s := x) ?_ (fun hx => ?_); (on_goal 2 => clear_value x); (on_goal 1 => subst x))
    | (extract_lets +onlyGivenNames x; have hx : ∀ a, x a = x a := (fun _ => rfl); clear hx; subst x)
    | (extract_lets +onlyGivenNames x; clear_value x)
    | with_reducible apply Keeps.ite
    | with_reducible apply State.modTask_keeps
    | with_reducible apply State.finishTask_keeps
    | with_reducible apply State.placeOutputs_keeps
    | with_reducible apply State.stopTask_keeps
    | (with_reducible refine Keeps.of_fst ?_ (by assumption))
    | (with_reducible refine Keeps.of_snd ?_ (by assumption))
    | split

theorem State.endRow_steady {r s : State} {id : Nat} {status : Nat} {row : Nat} {index : Nat} (h : Steady r s) :
    Steady r (State.endRow s id status row index) :=
  (State.endRow_keeps (Keeps.refl _)).after h

theorem State.dropUnit_keeps {r s : State} {u : BatchOut} (h : Keeps r s) :
    Keeps r (State.dropUnit s u) := by
  unfold State.dropUnit
  repeat' first
    | with_reducible assumption
    | intro _
    | (extract_lets +onlyGivenNames x; with_reducible refine Keeps.name (r := r) (s := x) ?_ (fun hx => ?_); (on_goal 2 => clear_value x); (on_goal 1 => subst x))
    | (extract_lets +onlyGivenNames x; have hx : ∀ a, x a = x a := (fun _ => rfl); clear hx; subst x)
    | (extract_lets +onlyGivenNames x; clear_value x)
    | with_reducible exact Keeps.upd_batches (by assumption)
    | with_reducible apply State.retire_keeps
    | (with_reducible refine Keeps.of_fst ?_ (by assumption))
    | (with_reducible refine Keeps.of_snd ?_ (by assumption))
    | split
    | with_reducible apply Keeps.upd_batches

theorem State.dropUnit_steady {r s : State} {u : BatchOut} (h : Steady r s) :
    Steady r (State.dropUnit s u) :=
  (State.dropUnit_keeps (Keeps.refl _)).after h

theorem State.endUnit_keeps {r s : State} {u : BatchOut} {status : Nat} {fail : Bool} (h : Keeps r s) :
    Keeps r (State.endUnit s u status fail) := by
  unfold State.endUnit
  repeat' first
    | with_reducible assumption
    | intro _
    | (extract_lets +onlyGivenNames x; with_reducible refine Keeps.name (r := r) (s := x) ?_ (fun hx => ?_); (on_goal 2 => clear_value x); (on_goal 1 => subst x))
    | (extract_lets +onlyGivenNames x; with_reducible refine Keeps.name (r := r) (s := x.1) ?_ (fun hx => ?_); (on_goal 2 => clear_value x); (on_goal 1 => subst x))
    | (extract_lets +onlyGivenNames x; have hx : ∀ a, x a = x a := (fun _ => rfl); clear hx; subst x)
    | (extract_lets +onlyGivenNames x; clear_value x)
    | with_reducible apply Keeps.ite
    | with_reducible apply State.postEntry_keeps
    | with_reducible apply State.endRow_keeps
    | with_reducible apply State.dropUnit_keeps
    | with_reducible apply State.modTask_keeps
    | with_reducible apply State.stopTask_keeps
    | with_reducible apply State.finishTask_keeps
    | with_reducible apply State.placeOutputs_keeps
    | with_reducible apply Keeps.foldl
    | with_reducible apply Keeps.foldl_fst
    | (with_reducible refine Keeps.of_fst ?_ (by assumption))
    | (with_reducible refine Keeps.of_snd ?_ (by assumption))
    | split

theorem State.endUnit_steady {r s : State} {u : BatchOut} {status : Nat} {fail : Bool} (h : Steady r s) :
    Steady r (State.endUnit s u status fail) :=
  (State.endUnit_keeps (Keeps.refl _)).after h

theorem State.abortUnit_keeps {r s : State} {u : BatchOut} {status : Nat} {reason : Nat} (h : Keeps r s) :
    Keeps r (State.abortUnit s u status reason) := by
  unfold State.abortUnit
  repeat' first
    | with_reducible assumption
    | intro _
    | (extract_lets +onlyGivenNames x; with_reducible refine Keeps.name (r := r) (s := x) ?_ (fun hx => ?_); (on_goal 2 => clear_value x); (on_goal 1 => subst x))
    | (extract_lets +onlyGivenNames x; have hx : ∀ a, x a = x a := (fun _ => rfl); clear hx; subst x)
    | (extract_lets +onlyGivenNames x; clear_value x)
    | with_reducible apply Keeps.ite
    | with_reducible apply State.weirDrop_keeps
    | with_reducible apply State.setFlds_keeps
    | with_reducible apply State.incFld_keeps
    | with_reducible apply State.modUnit_keeps
    | with_reducible apply State.endUnit_keeps
    | split

theorem State.abortUnit_steady {r s : State} {u : BatchOut} {status : Nat} {reason : Nat} (h : Steady r s) :
    Steady r (State.abortUnit s u status reason) :=
  (State.abortUnit_keeps (Keeps.refl _)).after h

theorem State.modGroup_keeps {r s : State} {g : Nat} {f : GroupRun → GroupRun} (h : Keeps r s) :
    Keeps r (State.modGroup s g f) := by
  unfold State.modGroup
  repeat' first
    | with_reducible assumption
    | intro _
    | with_reducible exact Keeps.upd_groups (by assumption)
    | with_reducible apply Keeps.upd_groups

theorem State.modGroup_steady {r s : State} {g : Nat} {f : GroupRun → GroupRun} (h : Steady r s) :
    Steady r (State.modGroup s g f) :=
  (State.modGroup_keeps (Keeps.refl _)).after h

theorem State.modMember_keeps {r s : State} {g : Nat} {flow : Nat} {f : Member → Member} (h : Keeps r s) :
    Keeps r (State.modMember s g flow f) := by
  unfold State.modMember
  repeat' first
    | with_reducible assumption
    | intro _
    | with_reducible apply State.modGroup_keeps

theorem State.modMember_steady {r s : State} {g : Nat} {flow : Nat} {f : Member → Member} (h : Steady r s) :
    Steady r (State.modMember s g flow f) :=
  (State.modMember_keeps (Keeps.refl _)).after h

theorem State.startUnit_keeps {r s : State} {u : BatchOut} (h : Keeps r s) :
    Keeps r (State.startUnit s u) := by
  unfold State.startUnit
  repeat' first
    | with_reducible assumption
    | intro _
    | (extract_lets +onlyGivenNames x; with_reducible refine Keeps.name (r := r) (s := x) ?_ (fun hx => ?_); (on_goal 2 => clear_value x); (on_goal 1 => subst x))
    | (extract_lets +onlyGivenNames x; have hx : ∀ a, x a = x a := (fun _ => rfl); clear hx; subst x)
    | (extract_lets +onlyGivenNames x; clear_value x)
    | with_reducible apply Keeps.ite
    | with_reducible apply State.modUnit_keeps
    | with_reducible apply State.incFld_keeps
    | with_reducible apply State.abortUnit_keeps
    | with_reducible apply State.windowFail_keeps
    | (with_reducible refine Keeps.of_fst ?_ (by assumption))
    | (with_reducible refine Keeps.of_snd ?_ (by assumption))
    | split

theorem State.startUnit_steady {r s : State} {u : BatchOut} (h : Steady r s) :
    Steady r (State.startUnit s u) :=
  (State.startUnit_keeps (Keeps.refl _)).after h

theorem State.startUnits_keeps {r s : State} (h : Keeps r s) :
    Keeps r (State.startUnits s) := by
  unfold State.startUnits
  repeat' first
    | with_reducible assumption
    | intro _
    | with_reducible apply Keeps.ite
    | with_reducible apply State.startUnit_keeps
    | with_reducible apply Keeps.foldl
    | with_reducible apply Keeps.foldl_fst
    | split

theorem State.startUnits_steady {r s : State} (h : Steady r s) :
    Steady r (State.startUnits s) :=
  (State.startUnits_keeps (Keeps.refl _)).after h

theorem State.deliverSample_keeps {r s : State} {fe : FlowEntry} {d : DeltaSettings} {a3 : Sample} {a4 : Task} (h : Keeps r s) :
    Keeps r (State.deliverSample s fe d a3 a4) := by
  unfold State.deliverSample
  repeat' first
    | with_reducible assumption
    | intro _
    | (extract_lets +onlyGivenNames x; with_reducible refine Keeps.name (r := r) (s := x) ?_ (fun hx => ?_); (on_goal 2 => clear_value x); (on_goal 1 => subst x))
    | (extract_lets +onlyGivenNames x; have hx : ∀ a, x a = x a := (fun _ => rfl); clear hx; subst x)
    | (extract_lets +onlyGivenNames x; clear_value x)
    | with_reducible apply Keeps.ite
    | with_reducible exact Keeps.upd_batches_nextBatch (by assumption)
    | with_reducible apply State.stopTask_keeps
    | with_reducible apply State.modTask_keeps
    | split
    | with_reducible apply Keeps.upd_batches_nextBatch

theorem State.deliverSample_steady {r s : State} {fe : FlowEntry} {d : DeltaSettings} {a3 : Sample} {a4 : Task} (h : Steady r s) :
    Steady r (State.deliverSample s fe d a3 a4) :=
  (State.deliverSample_keeps (Keeps.refl _)).after h

theorem State.modGal_keeps {r s : State} {f : Nat} {g : GalCtx → GalCtx} (h : Keeps r s) :
    Keeps r (State.modGal s f g) := by
  unfold State.modGal
  repeat' first
    | with_reducible assumption
    | intro _
    | with_reducible apply State.modRun_keeps

theorem State.modGal_steady {r s : State} {f : Nat} {g : GalCtx → GalCtx} (h : Steady r s) :
    Steady r (State.modGal s f g) :=
  (State.modGal_keeps (Keeps.refl _)).after h

theorem State.abortRows_keeps {r s : State} {u : BatchOut} {code : Nat} (h : Keeps r s) :
    Keeps r (State.abortRows s u code) := by
  unfold State.abortRows
  repeat' first
    | with_reducible assumption
    | intro _
    | with_reducible apply Keeps.ite
    | with_reducible apply State.endRow_keeps
    | with_reducible apply Keeps.foldl
    | with_reducible apply Keeps.foldl_fst
    | split

theorem State.abortRows_steady {r s : State} {u : BatchOut} {code : Nat} (h : Steady r s) :
    Steady r (State.abortRows s u code) :=
  (State.abortRows_keeps (Keeps.refl _)).after h

theorem State.abortBatch_keeps {r s : State} {g : GalleySettings} {u : BatchOut} {code : Nat} (h : Keeps r s) :
    Keeps r (State.abortBatch s g u code) := by
  unfold State.abortBatch
  repeat' first
    | with_reducible assumption
    | intro _
    | (extract_lets +onlyGivenNames x; with_reducible refine Keeps.name (r := r) (s := x) ?_ (fun hx => ?_); (on_goal 2 => clear_value x); (on_goal 1 => subst x))
    | (extract_lets +onlyGivenNames x; clear_value x)
    | with_reducible apply State.postEntry_keeps
    | with_reducible apply State.incFld_keeps
    | with_reducible apply State.dropUnit_keeps
    | with_reducible apply State.abortRows_keeps

theorem State.abortBatch_steady {r s : State} {g : GalleySettings} {u : BatchOut} {code : Nat} (h : Steady r s) :
    Steady r (State.abortBatch s g u code) :=
  (State.abortBatch_keeps (Keeps.refl _)).after h

theorem State.newBatch_keeps {r s : State} {fe : FlowEntry} {g : GalleySettings} {u : BatchOut} {image : List Byte} (h : Keeps r s) :
    Keeps r (State.newBatch s fe g u image) := by
  unfold State.newBatch
  repeat' first
    | with_reducible assumption
    | (extract_lets +onlyGivenNames x; with_reducible refine Keeps.name (r := r) (s := x) ?_ (fun hx => ?_); (on_goal 2 => clear_value x); (on_goal 1 => subst x))
    | (extract_lets +onlyGivenNames x; clear_value x)
    | with_reducible exact Keeps.upd_batches_nextBatch (by assumption)
    | with_reducible apply State.spawn_keeps
    | with_reducible apply State.requestBlock_keeps
    | with_reducible apply State.abortBatch_keeps
    | (with_reducible refine Keeps.of_fst ?_ (by assumption))
    | (with_reducible refine Keeps.of_snd ?_ (by assumption))
    | split
    | with_reducible apply Keeps.upd_batches_nextBatch

theorem State.newBatch_steady {r s : State} {fe : FlowEntry} {g : GalleySettings} {u : BatchOut} {image : List Byte} (h : Steady r s) :
    Steady r (State.newBatch s fe g u image) :=
  (State.newBatch_keeps (Keeps.refl _)).after h

theorem State.updateReserve_keeps {r s : State} {fe : FlowEntry} {g : GalleySettings} {rows : List RowRun} (h : Keeps r s) :
    Keeps r (State.updateReserve s fe g rows) := by
  unfold State.updateReserve
  repeat' first
    | with_reducible assumption
    | intro _
    | (extract_lets +onlyGivenNames x; with_reducible refine Keeps.name (r := r) (s := x) ?_ (fun hx => ?_); (on_goal 2 => clear_value x); (on_goal 1 => subst x))
    | (extract_lets +onlyGivenNames x; with_reducible refine Keeps.name (r := r) (s := x.1) ?_ (fun hx => ?_); (on_goal 2 => clear_value x); (on_goal 1 => subst x))
    | (extract_lets +onlyGivenNames x; have hx : ∀ a, x a = x a := (fun _ => rfl); clear hx; subst x)
    | (extract_lets +onlyGivenNames x; clear_value x)
    | with_reducible apply Keeps.ite
    | with_reducible apply State.tryBlock_keeps
    | with_reducible apply State.incFld_keeps
    | with_reducible apply State.freeReserve_keeps
    | with_reducible apply State.modGal_keeps
    | with_reducible apply Keeps.foldl
    | with_reducible apply Keeps.foldl_fst
    | (with_reducible refine Keeps.of_fst ?_ (by assumption))
    | (with_reducible refine Keeps.of_snd ?_ (by assumption))
    | split

theorem State.updateReserve_steady {r s : State} {fe : FlowEntry} {g : GalleySettings} {rows : List RowRun} (h : Steady r s) :
    Steady r (State.updateReserve s fe g rows) :=
  (State.updateReserve_keeps (Keeps.refl _)).after h

theorem State.closeBatch_keeps {r s : State} {fe : FlowEntry} {g : GalleySettings} (h : Keeps r s) :
    Keeps r (State.closeBatch s fe g) := by
  unfold State.closeBatch
  repeat' first
    | with_reducible assumption
    | intro _
    | (extract_lets +onlyGivenNames x; with_reducible refine Keeps.name (r := r) (s := x) ?_ (fun hx => ?_); (on_goal 2 => clear_value x); (on_goal 1 => subst x))
    | (extract_lets +onlyGivenNames x; have hx : ∀ a, x a = x a := (fun _ => rfl); clear hx; subst x)
    | (extract_lets +onlyGivenNames x; clear_value x)
    | with_reducible apply Keeps.ite
    | with_reducible apply State.modGal_keeps
    | with_reducible apply State.abortBatch_keeps
    | with_reducible apply State.addFld_keeps
    | with_reducible apply State.newBatch_keeps
    | with_reducible apply State.updateReserve_keeps
    | split

theorem State.closeBatch_steady {r s : State} {fe : FlowEntry} {g : GalleySettings} (h : Steady r s) :
    Steady r (State.closeBatch s fe g) :=
  (State.closeBatch_keeps (Keeps.refl _)).after h

theorem State.placeTensor_keeps {r s : State} {fe : FlowEntry} {g : GalleySettings} {a3 : HeldSample} (h : Keeps r s) :
    Keeps r (State.placeTensor s fe g a3) := by
  unfold State.placeTensor
  repeat' first
    | with_reducible assumption
    | intro _
    | (extract_lets +onlyGivenNames x; with_reducible refine Keeps.name (r := r) (s := x) ?_ (fun hx => ?_); (on_goal 2 => clear_value x); (on_goal 1 => subst x))
    | (extract_lets +onlyGivenNames x; have hx : ∀ a, x a = x a := (fun _ => rfl); clear hx; subst x)
    | (extract_lets +onlyGivenNames x; clear_value x)
    | with_reducible apply Keeps.ite
    | with_reducible apply State.modGal_keeps
    | with_reducible apply State.closeBatch_keeps
    | (with_reducible refine Keeps.of_fst ?_ (by assumption))
    | (with_reducible refine Keeps.of_snd ?_ (by assumption))
    | split

theorem State.placeTensor_steady {r s : State} {fe : FlowEntry} {g : GalleySettings} {a3 : HeldSample} (h : Steady r s) :
    Steady r (State.placeTensor s fe g a3) :=
  (State.placeTensor_keeps (Keeps.refl _)).after h

theorem State.placePacked_keeps {r s : State} {fe : FlowEntry} {g : GalleySettings} {a3 : HeldSample} (h : Keeps r s) :
    Keeps r (State.placePacked s fe g a3) := by
  unfold State.placePacked
  repeat' first
    | with_reducible assumption
    | intro _
    | (extract_lets +onlyGivenNames x; with_reducible refine Keeps.name (r := r) (s := x) ?_ (fun hx => ?_); (on_goal 2 => clear_value x); (on_goal 1 => subst x))
    | (extract_lets +onlyGivenNames x; have hx : ∀ a, x a = x a := (fun _ => rfl); clear hx; subst x)
    | (extract_lets +onlyGivenNames x; clear_value x)
    | with_reducible apply Keeps.ite
    | with_reducible apply State.closeBatch_keeps
    | with_reducible apply State.modGal_keeps
    | (with_reducible refine Keeps.of_fst ?_ (by assumption))
    | (with_reducible refine Keeps.of_snd ?_ (by assumption))
    | split

theorem State.placePacked_steady {r s : State} {fe : FlowEntry} {g : GalleySettings} {a3 : HeldSample} (h : Steady r s) :
    Steady r (State.placePacked s fe g a3) :=
  (State.placePacked_keeps (Keeps.refl _)).after h

theorem State.galAdvance_keeps {r s : State} {fe : FlowEntry} {g : GalleySettings} {a2 : Nat} (h : Keeps r s) :
    Keeps r (State.galAdvance fe g a2 s) := by
  induction a2 generalizing s with
  | zero => exact h
  | succ n ih =>
    unfold State.galAdvance
    repeat' first
      | with_reducible assumption
      | intro _
      | (extract_lets +onlyGivenNames x; with_reducible refine Keeps.name (r := r) (s := x) ?_ (fun hx => ?_); (on_goal 2 => clear_value x); (on_goal 1 => subst x))
      | (extract_lets +onlyGivenNames x; have hx : ∀ a, x a = x a := (fun _ => rfl); clear hx; subst x)
      | (extract_lets +onlyGivenNames x; clear_value x)
      | with_reducible apply ih
      | with_reducible apply Keeps.ite
      | with_reducible apply State.modGal_keeps
      | with_reducible apply State.closeBatch_keeps
      | with_reducible apply State.placeTensor_keeps
      | with_reducible apply State.placePacked_keeps
      | (with_reducible refine Keeps.of_fst ?_ (by assumption))
      | (with_reducible refine Keeps.of_snd ?_ (by assumption))
      | split

theorem State.galAdvance_steady {r s : State} {fe : FlowEntry} {g : GalleySettings} {a2 : Nat} (h : Steady r s) :
    Steady r (State.galAdvance fe g a2 s) :=
  (State.galAdvance_keeps (Keeps.refl _)).after h

theorem State.galRun_keeps {r s : State} {fe : FlowEntry} {g : GalleySettings} (h : Keeps r s) :
    Keeps r (State.galRun s fe g) := by
  unfold State.galRun
  repeat' first
    | with_reducible assumption
    | with_reducible apply State.galAdvance_keeps

theorem State.galRun_steady {r s : State} {fe : FlowEntry} {g : GalleySettings} (h : Steady r s) :
    Steady r (State.galRun s fe g) :=
  (State.galRun_keeps (Keeps.refl _)).after h

theorem State.galHold_keeps {r s : State} {fe : FlowEntry} {g : GalleySettings} {a3 : HeldSample} (h : Keeps r s) :
    Keeps r (State.galHold s fe g a3) := by
  unfold State.galHold
  repeat' first
    | with_reducible assumption
    | intro _
    | (extract_lets +onlyGivenNames x; with_reducible refine Keeps.name (r := r) (s := x) ?_ (fun hx => ?_); (on_goal 2 => clear_value x); (on_goal 1 => subst x))
    | (extract_lets +onlyGivenNames x; have hx : ∀ a, x a = x a := (fun _ => rfl); clear hx; subst x)
    | (extract_lets +onlyGivenNames x; clear_value x)
    | with_reducible apply Keeps.ite
    | with_reducible apply State.stopTask_keeps
    | with_reducible apply State.modGal_keeps
    | (with_reducible refine Keeps.of_fst ?_ (by assumption))
    | (with_reducible refine Keeps.of_snd ?_ (by assumption))
    | split

theorem State.galHold_steady {r s : State} {fe : FlowEntry} {g : GalleySettings} {a3 : HeldSample} (h : Steady r s) :
    Steady r (State.galHold s fe g a3) :=
  (State.galHold_keeps (Keeps.refl _)).after h

theorem State.galArrive_keeps {r s : State} {fe : FlowEntry} {g : GalleySettings} {a3 : Sample} {a4 : Task} (h : Keeps r s) :
    Keeps r (State.galArrive s fe g a3 a4) := by
  unfold State.galArrive
  repeat' first
    | with_reducible assumption
    | intro _
    | (extract_lets +onlyGivenNames x; with_reducible refine Keeps.name (r := r) (s := x) ?_ (fun hx => ?_); (on_goal 2 => clear_value x); (on_goal 1 => subst x))
    | (extract_lets +onlyGivenNames x; have hx : ∀ a, x a = x a := (fun _ => rfl); clear hx; subst x)
    | (extract_lets +onlyGivenNames x; clear_value x)
    | with_reducible apply Keeps.ite
    | with_reducible apply State.incFld_keeps
    | with_reducible apply State.modGal_keeps
    | with_reducible apply State.modTask_keeps
    | with_reducible apply State.retire_keeps
    | with_reducible apply State.galRun_keeps
    | with_reducible apply State.galHold_keeps
    | split

theorem State.galArrive_steady {r s : State} {fe : FlowEntry} {g : GalleySettings} {a3 : Sample} {a4 : Task} (h : Steady r s) :
    Steady r (State.galArrive s fe g a3 a4) :=
  (State.galArrive_keeps (Keeps.refl _)).after h

theorem State.memberArrive_keeps {r s : State} {fe : FlowEntry} {g : GalleySettings} {a3 : Sample} {a4 : Task} (h : Keeps r s) :
    Keeps r (State.memberArrive s fe g a3 a4) := by
  unfold State.memberArrive
  repeat' first
    | with_reducible assumption
    | intro _
    | (extract_lets +onlyGivenNames x; with_reducible refine Keeps.name (r := r) (s := x) ?_ (fun hx => ?_); (on_goal 2 => clear_value x); (on_goal 1 => subst x))
    | (extract_lets +onlyGivenNames x; have hx : ∀ a, x a = x a := (fun _ => rfl); clear hx; subst x)
    | (extract_lets +onlyGivenNames x; clear_value x)
    | with_reducible apply Keeps.ite
    | with_reducible apply State.incFld_keeps
    | with_reducible apply State.modTask_keeps
    | with_reducible apply State.retire_keeps
    | with_reducible apply State.stopTask_keeps
    | with_reducible apply State.modMember_keeps
    | (with_reducible refine Keeps.of_fst ?_ (by assumption))
    | (with_reducible refine Keeps.of_snd ?_ (by assumption))
    | split

theorem State.memberArrive_steady {r s : State} {fe : FlowEntry} {g : GalleySettings} {a3 : Sample} {a4 : Task} (h : Steady r s) :
    Steady r (State.memberArrive s fe g a3 a4) :=
  (State.memberArrive_keeps (Keeps.refl _)).after h

theorem State.memberLeave_steady {r s : State} {a1 : Nat} {flow : Nat} {op : Nat} (h : Steady r s) :
    Steady r (State.memberLeave s a1 flow op) := by
  unfold State.memberLeave
  repeat' first
    | with_reducible assumption
    | intro _
    | with_reducible apply Steady.ite
    | with_reducible apply State.modMember_steady
    | with_reducible apply State.incFld_steady
    | (with_reducible refine Steady.of_fst ?_ (by assumption))
    | (with_reducible refine Steady.of_snd ?_ (by assumption))
    | split

theorem State.applyLeave_steady {r s : State} {g : Nat} {m : Member} (h : Steady r s) :
    Steady r (State.applyLeave s g m) := by
  unfold State.applyLeave
  repeat' first
    | with_reducible assumption
    | intro _
    | (extract_lets +onlyGivenNames x; with_reducible refine Steady.name (r := r) (s := x) ?_ (fun hx => ?_); (on_goal 2 => clear_value x); (on_goal 1 => subst x))
    | (extract_lets +onlyGivenNames x; have hx : ∀ a, x a = x a := (fun _ => rfl); clear hx; subst x)
    | (extract_lets +onlyGivenNames x; clear_value x)
    | with_reducible apply Steady.ite
    | with_reducible apply State.stopTask_steady
    | with_reducible apply State.modMember_steady
    | with_reducible apply State.freeMember_steady
    | (with_reducible refine Steady.of_fst ?_ (by assumption))
    | (with_reducible refine Steady.of_snd ?_ (by assumption))
    | split

theorem State.applyJoin_steady {r s : State} {g : GalleySettings} {m : Member} (h : Steady r s) :
    Steady r (State.applyJoin s g m).1 := by
  unfold State.applyJoin
  repeat' first
    | with_reducible assumption
    | intro _
    | (extract_lets +onlyGivenNames x; with_reducible refine Steady.name (r := r) (s := x) ?_ (fun hx => ?_); (on_goal 2 => clear_value x); (on_goal 1 => subst x))
    | (extract_lets +onlyGivenNames x; have hx : ∀ a, x a = x a := (fun _ => rfl); clear hx; subst x)
    | (extract_lets +onlyGivenNames x; clear_value x)
    | with_reducible apply Steady.ite
    | with_reducible apply State.incFld_steady
    | with_reducible apply State.stopTask_steady
    | with_reducible apply State.modMember_steady
    | with_reducible apply State.chargeBlocks_steady
    | (with_reducible refine Steady.of_fst ?_ (by assumption))
    | (with_reducible refine Steady.of_snd ?_ (by assumption))
    | split

theorem State.stepGroup_steady {r s : State} {a1 : GroupRun} (h : Steady r s) :
    Steady r (State.stepGroup s a1) := by
  unfold State.stepGroup
  repeat' first
    | with_reducible assumption
    | intro _
    | (extract_lets +onlyGivenNames x; with_reducible refine Steady.name (r := r) (s := x) ?_ (fun hx => ?_); (on_goal 2 => clear_value x); (on_goal 1 => subst x))
    | (extract_lets +onlyGivenNames x; with_reducible refine Steady.name (r := r) (s := x.1) ?_ (fun hx => ?_); (on_goal 2 => clear_value x); (on_goal 1 => subst x))
    | (extract_lets +onlyGivenNames x; have hx : ∀ a, x a = x a := (fun _ => rfl); clear hx; subst x)
    | (extract_lets +onlyGivenNames x; clear_value x)
    | with_reducible apply Steady.ite
    | with_reducible apply State.applyLeave_steady
    | with_reducible apply State.applyJoin_steady
    | with_reducible apply State.modMember_steady
    | with_reducible apply State.modTask_steady
    | with_reducible apply State.modGroup_steady
    | with_reducible apply State.abortBatch_steady
    | with_reducible apply State.addFld_steady
    | with_reducible apply State.newBatch_steady
    | with_reducible apply Steady.foldl
    | with_reducible apply Steady.foldl_fst
    | (with_reducible refine Steady.of_fst ?_ (by assumption))
    | (with_reducible refine Steady.of_snd ?_ (by assumption))
    | split

theorem State.galSkip_steady {r s : State} {a1 : Nat} {flow : Nat} {upTo : Nat} {flush : Bool} (h : Steady r s) :
    Steady r (State.galSkip s a1 flow upTo flush) := by
  unfold State.galSkip
  repeat' first
    | with_reducible assumption
    | intro _
    | (extract_lets +onlyGivenNames x; with_reducible refine Steady.name (r := r) (s := x) ?_ (fun hx => ?_); (on_goal 2 => clear_value x); (on_goal 1 => subst x))
    | (extract_lets +onlyGivenNames x; have hx : ∀ a, x a = x a := (fun _ => rfl); clear hx; subst x)
    | (extract_lets +onlyGivenNames x; clear_value x)
    | with_reducible apply Steady.ite
    | with_reducible apply State.modGal_steady
    | with_reducible apply State.galRun_steady
    | with_reducible apply State.incFld_steady
    | (with_reducible refine Steady.of_fst ?_ (by assumption))
    | (with_reducible refine Steady.of_snd ?_ (by assumption))
    | split

theorem State.endUnitIfDone_steady {r s : State} {key : Nat} (h : Steady r s) :
    Steady r (State.endUnitIfDone s key) := by
  unfold State.endUnitIfDone
  repeat' first
    | with_reducible assumption
    | intro _
    | (extract_lets +onlyGivenNames x; with_reducible refine Steady.name (r := r) (s := x) ?_ (fun hx => ?_); (on_goal 2 => clear_value x); (on_goal 1 => subst x))
    | (extract_lets +onlyGivenNames x; with_reducible refine Steady.name (r := r) (s := x.1) ?_ (fun hx => ?_); (on_goal 2 => clear_value x); (on_goal 1 => subst x))
    | (extract_lets +onlyGivenNames x; have hx : ∀ a, x a = x a := (fun _ => rfl); clear hx; subst x)
    | (extract_lets +onlyGivenNames x; clear_value x)
    | with_reducible apply Steady.ite
    | with_reducible apply State.endUnit_steady
    | with_reducible apply State.deltaDone_steady
    | with_reducible apply State.countDelivered_steady
    | with_reducible apply Steady.foldl
    | with_reducible apply Steady.foldl_fst
    | (with_reducible refine Steady.of_fst ?_ (by assumption))
    | (with_reducible refine Steady.of_snd ?_ (by assumption))
    | split

theorem State.ackedUnit_steady {r s : State} {key : Nat} (h : Steady r s) :
    Steady r (State.ackedUnit s key) := by
  unfold State.ackedUnit
  repeat' first
    | with_reducible assumption
    | intro _
    | with_reducible apply State.endUnitIfDone_steady
    | with_reducible apply State.modUnit_steady

theorem State.galStale_steady {r s : State} {fe : FlowEntry} {index : Nat} (h : Steady r s) :
    Steady r (State.galStale s fe index) := by
  unfold State.galStale
  repeat' first
    | with_reducible assumption
    | with_reducible apply Steady.ite
    | with_reducible apply State.galRun_steady
    | with_reducible apply State.galHold_steady
    | (with_reducible refine Steady.of_fst ?_ (by assumption))
    | (with_reducible refine Steady.of_snd ?_ (by assumption))
    | split

theorem State.writeUnit_steady {r s : State} {fe : FlowEntry} {d : DeltaSettings} {u : BatchOut} {p : Prod Nat (List Byte)} (h : Steady r s) :
    Steady r (State.writeUnit s fe d u p) := by
  unfold State.writeUnit
  repeat' first
    | with_reducible assumption
    | intro _
    | (extract_lets +onlyGivenNames x; with_reducible refine Steady.name (r := r) (s := x) ?_ (fun hx => ?_); (on_goal 2 => clear_value x); (on_goal 1 => subst x))
    | (extract_lets +onlyGivenNames x; have hx : ∀ a, x a = x a := (fun _ => rfl); clear hx; subst x)
    | (extract_lets +onlyGivenNames x; clear_value x)
    | with_reducible apply State.modUnit_steady
    | with_reducible apply State.addUnits_steady
    | with_reducible apply State.writeMover_steady
    | (with_reducible refine Steady.of_fst ?_ (by assumption))
    | (with_reducible refine Steady.of_snd ?_ (by assumption))
    | split

theorem State.dispatchUnit_steady {r s : State} {u : BatchOut} (h : Steady r s) :
    Steady r (State.dispatchUnit s u) := by
  unfold State.dispatchUnit
  repeat' first
    | with_reducible assumption
    | intro _
    | (extract_lets +onlyGivenNames x; with_reducible refine Steady.name (r := r) (s := x) ?_ (fun hx => ?_); (on_goal 2 => clear_value x); (on_goal 1 => subst x))
    | (extract_lets +onlyGivenNames x; have hx : ∀ a, x a = x a := (fun _ => rfl); clear hx; subst x)
    | (extract_lets +onlyGivenNames x; clear_value x)
    | with_reducible apply Steady.ite
    | with_reducible apply State.modUnit_steady
    | with_reducible apply State.incFld_steady
    | with_reducible apply State.writeUnit_steady
    | (with_reducible refine Steady.of_fst ?_ (by assumption))
    | (with_reducible refine Steady.of_snd ?_ (by assumption))
    | split

theorem State.heldStep_steady {r s : State} {g : Nat} (h : Steady r s) :
    Steady r (State.heldStep s g) := by
  unfold State.heldStep
  repeat' first
    | with_reducible assumption
    | intro _
    | with_reducible apply Steady.ite
    | with_reducible apply State.stepGroup_steady
    | with_reducible apply State.modGroup_steady
    | (with_reducible refine Steady.of_fst ?_ (by assumption))
    | (with_reducible refine Steady.of_snd ?_ (by assumption))
    | split

theorem State.holdGap_steady {r s : State} {fe : FlowEntry} {g : GalleySettings} {a2 : Nat} (h : Steady r s) :
    Steady r (State.holdGap fe g a2 s) := by
  induction a2 generalizing s with
  | zero => exact h
  | succ n ih =>
    unfold State.holdGap
    repeat' first
      | with_reducible assumption
      | intro _
      | (extract_lets +onlyGivenNames x; with_reducible refine Steady.name (r := r) (s := x) ?_ (fun hx => ?_); (on_goal 2 => clear_value x); (on_goal 1 => subst x))
      | (extract_lets +onlyGivenNames x; have hx : ∀ a, x a = x a := (fun _ => rfl); clear hx; subst x)
      | (extract_lets +onlyGivenNames x; clear_value x)
      | with_reducible apply ih
      | with_reducible apply Steady.ite
      | with_reducible apply State.modGal_steady
      | with_reducible apply State.incFld_steady
      | with_reducible apply State.galRun_steady
      | (with_reducible refine Steady.of_fst ?_ (by assumption))
      | (with_reducible refine Steady.of_snd ?_ (by assumption))
      | split

theorem State.holdUsExpire_steady {r s : State} {flow : Nat} (h : Steady r s) :
    Steady r (State.holdUsExpire s flow) := by
  unfold State.holdUsExpire
  repeat' first
    | with_reducible assumption
    | intro _
    | (extract_lets +onlyGivenNames x; with_reducible refine Steady.name (r := r) (s := x) ?_ (fun hx => ?_); (on_goal 2 => clear_value x); (on_goal 1 => subst x))
    | (extract_lets +onlyGivenNames x; have hx : ∀ a, x a = x a := (fun _ => rfl); clear hx; subst x)
    | (extract_lets +onlyGivenNames x; clear_value x)
    | with_reducible apply Steady.ite
    | with_reducible apply State.galRun_steady
    | with_reducible apply State.modGal_steady
    | with_reducible apply State.advance_steady
    | with_reducible apply State.holdGap_steady
    | (with_reducible refine Steady.of_fst ?_ (by assumption))
    | (with_reducible refine Steady.of_snd ?_ (by assumption))
    | split

theorem State.holdLimitExpire_steady {r s : State} {flow : Nat} (h : Steady r s) :
    Steady r (State.holdLimitExpire s flow) := by
  unfold State.holdLimitExpire
  repeat' first
    | with_reducible assumption
    | intro _
    | (extract_lets +onlyGivenNames x; with_reducible refine Steady.name (r := r) (s := x) ?_ (fun hx => ?_); (on_goal 2 => clear_value x); (on_goal 1 => subst x))
    | (extract_lets +onlyGivenNames x; have hx : ∀ a, x a = x a := (fun _ => rfl); clear hx; subst x)
    | (extract_lets +onlyGivenNames x; clear_value x)
    | with_reducible apply Steady.ite
    | with_reducible apply State.galRun_steady
    | with_reducible apply State.advance_steady
    | (with_reducible refine Steady.of_fst ?_ (by assumption))
    | (with_reducible refine Steady.of_snd ?_ (by assumption))
    | split

theorem State.releaseUnits_steady {r s : State} {p : State → FlowEntry → BatchOut → Nat → Bool} (h : Steady r s) :
    Steady r (State.releaseUnits s p) := by
  unfold State.releaseUnits
  repeat' first
    | with_reducible assumption
    | intro _
    | with_reducible apply Steady.ite
    | with_reducible apply State.writeUnit_steady
    | with_reducible apply State.modUnit_steady
    | with_reducible apply Steady.foldl
    | with_reducible apply Steady.foldl_fst
    | (with_reducible refine Steady.of_fst ?_ (by assumption))
    | (with_reducible refine Steady.of_snd ?_ (by assumption))
    | split

end Sys2Proof.Machine
end

