-- ==== Sys2Proof/Laws/FrameIntake.lean ====
section
/-! SUPPORT. What the operations of Machine/Intake.lean leave as it is. -/

set_option Elab.async false
set_option linter.unusedTactic false
set_option linter.unreachableTactic false

namespace Sys2Proof.Machine

open Sys2Proof.Safety

theorem State.caseFault_keeps {r s : State} {fe : FlowEntry} {a2 : Reason} {off : Nat} (h : Keeps r s) :
    Keeps r (State.caseFault s fe a2 off) := by
  unfold State.caseFault
  repeat' first
    | with_reducible assumption
    | (extract_lets +onlyGivenNames x; with_reducible refine Keeps.name (r := r) (s := x) ?_ (fun hx => ?_); (on_goal 2 => clear_value x); (on_goal 1 => subst x))
    | (extract_lets +onlyGivenNames x; clear_value x)
    | with_reducible apply Keeps.ite
    | with_reducible apply State.incFld_keeps
    | with_reducible apply State.setFlds_keeps
    | (with_reducible refine Keeps.of_fst ?_ (by assumption))
    | (with_reducible refine Keeps.of_snd ?_ (by assumption))
    | split

theorem State.caseFault_steady {r s : State} {fe : FlowEntry} {a2 : Reason} {off : Nat} (h : Steady r s) :
    Steady r (State.caseFault s fe a2 off) :=
  (State.caseFault_keeps (Keeps.refl _)).after h

theorem State.guardSample_keeps {r s : State} {fe : FlowEntry} {off : Nat} {a3 : Sample} (h : Keeps r s) :
    Keeps r (State.guardSample s fe off a3).1 := by
  unfold State.guardSample
  repeat' first
    | with_reducible assumption
    | with_reducible apply Keeps.ite
    | with_reducible apply State.caseFault_keeps
    | (with_reducible refine Keeps.of_fst ?_ (by assumption))
    | (with_reducible refine Keeps.of_snd ?_ (by assumption))
    | split

theorem State.guardSample_steady {r s : State} {fe : FlowEntry} {off : Nat} {a3 : Sample} (h : Steady r s) :
    Steady r (State.guardSample s fe off a3).1 :=
  (State.guardSample_keeps (Keeps.refl _)).after h

theorem State.caseSample_keeps {r s : State} {fe : FlowEntry} {rs : RecordSettings} {a3 : Task} {index : Nat} {a5 : RawSample} (h : Keeps r s) :
    Keeps r (State.caseSample s fe rs a3 index a5).1 := by
  unfold State.caseSample
  repeat' first
    | with_reducible assumption
    | intro _
    | (extract_lets +onlyGivenNames x; with_reducible refine Keeps.name (r := r) (s := x) ?_ (fun hx => ?_); (on_goal 2 => clear_value x); (on_goal 1 => subst x))
    | (extract_lets +onlyGivenNames x; have hx : ∀ a, x a = x a := (fun _ => rfl); clear hx; subst x)
    | (extract_lets +onlyGivenNames x; clear_value x)
    | with_reducible apply Keeps.ite
    | with_reducible apply State.incFld_keeps
    | with_reducible apply State.caseFault_keeps
    | with_reducible apply State.countOverclass_keeps
    | with_reducible apply State.guardSample_keeps
    | (with_reducible refine Keeps.of_fst ?_ (by assumption))
    | (with_reducible refine Keeps.of_snd ?_ (by assumption))
    | split

theorem State.caseSample_steady {r s : State} {fe : FlowEntry} {rs : RecordSettings} {a3 : Task} {index : Nat} {a5 : RawSample} (h : Steady r s) :
    Steady r (State.caseSample s fe rs a3 index a5).1 :=
  (State.caseSample_keeps (Keeps.refl _)).after h

end Sys2Proof.Machine
end

