-- ==== Sys2Proof/Laws/FrameStations.lean ====
section
/-! SUPPORT. What the operations of Machine/Stations.lean leave as it is. -/

set_option Elab.async false
set_option linter.unusedTactic false
set_option linter.unreachableTactic false

namespace Sys2Proof.Machine

open Sys2Proof.Safety

theorem State.loseUnit_keeps {r s : State} {fe : FlowEntry} {a2 : Task} (h : Keeps r s) :
    Keeps r (State.loseUnit s fe a2) := by
  unfold State.loseUnit
  repeat' first
    | with_reducible assumption
    | with_reducible apply State.abandonDec_keeps
    | (with_reducible refine Keeps.of_fst ?_ (by assumption))
    | (with_reducible refine Keeps.of_snd ?_ (by assumption))
    | split

theorem State.loseUnit_steady {r s : State} {fe : FlowEntry} {a2 : Task} (h : Steady r s) :
    Steady r (State.loseUnit s fe a2) :=
  (State.loseUnit_keeps (Keeps.refl _)).after h

theorem State.arriveBins_keeps {r s : State} {a1 : Task} (h : Keeps r s) :
    Keeps r (State.arriveBins s a1).1 := by
  unfold State.arriveBins
  repeat' first
    | with_reducible assumption
    | with_reducible apply Keeps.ite
    | (with_reducible refine Keeps.of_fst ?_ (by assumption))
    | (with_reducible refine Keeps.of_snd ?_ (by assumption))
    | split

theorem State.arriveBins_steady {r s : State} {a1 : Task} (h : Steady r s) :
    Steady r (State.arriveBins s a1).1 :=
  (State.arriveBins_keeps (Keeps.refl _)).after h

theorem State.refusedHeader_keeps {r s : State} {fe : FlowEntry} {e : DecEntry} {a3 : Task} (h : Keeps r s) :
    Keeps r (State.refusedHeader s fe e a3) := by
  unfold State.refusedHeader
  repeat' first
    | with_reducible assumption
    | intro _
    | (extract_lets +onlyGivenNames x; with_reducible refine Keeps.name (r := r) (s := x) ?_ (fun hx => ?_); (on_goal 2 => clear_value x); (on_goal 1 => subst x))
    | (extract_lets +onlyGivenNames x; have hx : ∀ a, x a = x a := (fun _ => rfl); clear hx; subst x)
    | (extract_lets +onlyGivenNames x; clear_value x)
    | with_reducible apply Keeps.ite
    | with_reducible apply State.countFault_keeps
    | with_reducible apply State.modTask_keeps
    | with_reducible apply State.modDec_keeps
    | split

theorem State.refusedHeader_steady {r s : State} {fe : FlowEntry} {e : DecEntry} {a3 : Task} (h : Steady r s) :
    Steady r (State.refusedHeader s fe e a3) :=
  (State.refusedHeader_keeps (Keeps.refl _)).after h

theorem State.arriveMillrace_keeps {r s : State} {fe : FlowEntry} {e : DecEntry} {a3 : Task} (h : Keeps r s) :
    Keeps r (State.arriveMillrace s fe e a3).1 := by
  unfold State.arriveMillrace
  repeat' first
    | with_reducible assumption
    | intro _
    | with_reducible apply Keeps.ite
    | with_reducible apply State.refusedHeader_keeps
    | with_reducible apply State.modTask_keeps
    | (with_reducible refine Keeps.of_fst ?_ (by assumption))
    | (with_reducible refine Keeps.of_snd ?_ (by assumption))
    | split

theorem State.arriveMillrace_steady {r s : State} {fe : FlowEntry} {e : DecEntry} {a3 : Task} (h : Steady r s) :
    Steady r (State.arriveMillrace s fe e a3).1 :=
  (State.arriveMillrace_keeps (Keeps.refl _)).after h

theorem State.freeWork_keeps {r s : State} {v : Nat} (h : Keeps r s) :
    Keeps r (State.freeWork s v).1 := by
  unfold State.freeWork
  repeat' first
    | with_reducible assumption
    | (extract_lets +onlyGivenNames x; with_reducible refine Keeps.name (r := r) (s := x) ?_ (fun hx => ?_); (on_goal 2 => clear_value x); (on_goal 1 => subst x))
    | (extract_lets +onlyGivenNames x; clear_value x)
    | with_reducible apply State.nextFree_keeps
    | (with_reducible refine Keeps.of_fst ?_ (by assumption))
    | (with_reducible refine Keeps.of_snd ?_ (by assumption))
    | split

theorem State.freeWork_steady {r s : State} {v : Nat} (h : Steady r s) :
    Steady r (State.freeWork s v).1 :=
  (State.freeWork_keeps (Keeps.refl _)).after h

theorem State.laneWork_keeps {r s : State} {fe : FlowEntry} {st : Nat} (h : Keeps r s) :
    Keeps r (State.laneWork s fe st).1 := by
  unfold State.laneWork
  repeat' first
    | with_reducible assumption
    | intro _
    | (extract_lets +onlyGivenNames x; with_reducible refine Keeps.name (r := r) (s := x) ?_ (fun hx => ?_); (on_goal 2 => clear_value x); (on_goal 1 => subst x))
    | (extract_lets +onlyGivenNames x; with_reducible refine Keeps.name (r := r) (s := x.1) ?_ (fun hx => ?_); (on_goal 2 => clear_value x); (on_goal 1 => subst x))
    | (extract_lets +onlyGivenNames x; have hx : ∀ a, x a = x a := (fun _ => rfl); clear hx; subst x)
    | (extract_lets +onlyGivenNames x; clear_value x)
    | with_reducible apply State.freeWork_keeps
    | with_reducible apply Keeps.foldl
    | with_reducible apply Keeps.foldl_fst
    | (with_reducible refine Keeps.of_fst ?_ (by assumption))
    | (with_reducible refine Keeps.of_snd ?_ (by assumption))
    | split

theorem State.laneWork_steady {r s : State} {fe : FlowEntry} {st : Nat} (h : Steady r s) :
    Steady r (State.laneWork s fe st).1 :=
  (State.laneWork_keeps (Keeps.refl _)).after h

theorem State.arriveEncode_keeps {r s : State} {fe : FlowEntry} {e : EncEntry} {a3 : Task} (h : Keeps r s) :
    Keeps r (State.arriveEncode s fe e a3).1 := by
  unfold State.arriveEncode
  repeat' first
    | with_reducible assumption
    | intro _
    | (extract_lets +onlyGivenNames x; with_reducible refine Keeps.name (r := r) (s := x) ?_ (fun hx => ?_); (on_goal 2 => clear_value x); (on_goal 1 => subst x))
    | (extract_lets +onlyGivenNames x; have hx : ∀ a, x a = x a := (fun _ => rfl); clear hx; subst x)
    | (extract_lets +onlyGivenNames x; clear_value x)
    | with_reducible apply Keeps.ite
    | with_reducible apply State.startFrame_keeps
    | with_reducible apply State.laneWork_keeps
    | with_reducible apply State.freeWork_keeps
    | (with_reducible refine Keeps.of_fst ?_ (by assumption))
    | (with_reducible refine Keeps.of_snd ?_ (by assumption))
    | split

theorem State.arriveEncode_steady {r s : State} {fe : FlowEntry} {e : EncEntry} {a3 : Task} (h : Steady r s) :
    Steady r (State.arriveEncode s fe e a3).1 :=
  (State.arriveEncode_keeps (Keeps.refl _)).after h

theorem State.arrivePlaten_keeps {r s : State} {fe : FlowEntry} {e : DecEntry} {a3 : Task} (h : Keeps r s) :
    Keeps r (State.arrivePlaten s fe e a3).1 := by
  unfold State.arrivePlaten
  repeat' first
    | with_reducible assumption
    | intro _
    | (extract_lets +onlyGivenNames x; with_reducible refine Keeps.name (r := r) (s := x) ?_ (fun hx => ?_); (on_goal 2 => clear_value x); (on_goal 1 => subst x))
    | (extract_lets +onlyGivenNames x; have hx : ∀ a, x a = x a := (fun _ => rfl); clear hx; subst x)
    | (extract_lets +onlyGivenNames x; clear_value x)
    | with_reducible apply Keeps.ite
    | with_reducible apply State.dropPlan_keeps
    | with_reducible apply State.failedTurn_keeps
    | with_reducible apply State.queueFull_keeps
    | with_reducible apply State.modTask_keeps
    | with_reducible apply State.finishTask_keeps
    | with_reducible apply State.placeOutputs_keeps
    | with_reducible apply State.laneWork_keeps
    | with_reducible apply State.holdFrames_keeps
    | (with_reducible refine Keeps.of_fst ?_ (by assumption))
    | (with_reducible refine Keeps.of_snd ?_ (by assumption))
    | split

theorem State.arrivePlaten_steady {r s : State} {fe : FlowEntry} {e : DecEntry} {a3 : Task} (h : Steady r s) :
    Steady r (State.arrivePlaten s fe e a3).1 :=
  (State.arrivePlaten_keeps (Keeps.refl _)).after h

theorem State.modSample_keeps {r s : State} {id : Nat} {g : Sample → Sample} (h : Keeps r s) :
    Keeps r (State.modSample s id g) := by
  unfold State.modSample
  repeat' first
    | with_reducible assumption
    | intro _
    | with_reducible apply State.modTask_keeps

theorem State.modSample_steady {r s : State} {id : Nat} {g : Sample → Sample} (h : Steady r s) :
    Steady r (State.modSample s id g) :=
  (State.modSample_keeps (Keeps.refl _)).after h

theorem State.trimLast_keeps {r s : State} {fe : FlowEntry} {a2 : Sample} {reason : Nat} (h : Keeps r s) :
    Keeps r (State.trimLast s fe a2 reason) := by
  unfold State.trimLast
  repeat' first
    | with_reducible assumption
    | with_reducible apply State.setFlds_keeps

theorem State.trimLast_steady {r s : State} {fe : FlowEntry} {a2 : Sample} {reason : Nat} (h : Steady r s) :
    Steady r (State.trimLast s fe a2 reason) :=
  (State.trimLast_keeps (Keeps.refl _)).after h

theorem State.arriveTrim_keeps {r s : State} {fe : FlowEntry} {ts : TrimSettings} {a3 : Task} (h : Keeps r s) :
    Keeps r (State.arriveTrim s fe ts a3).1 := by
  unfold State.arriveTrim
  repeat' first
    | with_reducible assumption
    | intro _
    | (extract_lets +onlyGivenNames x; with_reducible refine Keeps.name (r := r) (s := x) ?_ (fun hx => ?_); (on_goal 2 => clear_value x); (on_goal 1 => subst x))
    | (extract_lets +onlyGivenNames x; have hx : ∀ a, x a = x a := (fun _ => rfl); clear hx; subst x)
    | (extract_lets +onlyGivenNames x; clear_value x)
    | with_reducible apply Keeps.ite
    | with_reducible apply State.modSample_keeps
    | with_reducible apply State.trimLast_keeps
    | with_reducible apply State.countOverclass_keeps
    | with_reducible apply State.incFld_keeps
    | with_reducible apply State.laneWork_keeps
    | (with_reducible refine Keeps.of_fst ?_ (by assumption))
    | (with_reducible refine Keeps.of_snd ?_ (by assumption))
    | split

theorem State.arriveTrim_steady {r s : State} {fe : FlowEntry} {ts : TrimSettings} {a3 : Task} (h : Steady r s) :
    Steady r (State.arriveTrim s fe ts a3).1 :=
  (State.arriveTrim_keeps (Keeps.refl _)).after h

theorem State.arriveCompositor_keeps {r s : State} {fe : FlowEntry} {a2 : Task} (h : Keeps r s) :
    Keeps r (State.arriveCompositor s fe a2).1 := by
  unfold State.arriveCompositor
  repeat' first
    | with_reducible assumption
    | intro _
    | (extract_lets +onlyGivenNames x; with_reducible refine Keeps.name (r := r) (s := x) ?_ (fun hx => ?_); (on_goal 2 => clear_value x); (on_goal 1 => subst x))
    | (extract_lets +onlyGivenNames x; have hx : ∀ a, x a = x a := (fun _ => rfl); clear hx; subst x)
    | (extract_lets +onlyGivenNames x; clear_value x)
    | with_reducible apply Keeps.ite
    | with_reducible apply State.modSample_keeps
    | with_reducible apply State.countOverclass_keeps
    | with_reducible apply State.incFld_keeps
    | with_reducible apply State.freeWork_keeps
    | with_reducible apply State.laneWork_keeps
    | (with_reducible refine Keeps.of_fst ?_ (by assumption))
    | (with_reducible refine Keeps.of_snd ?_ (by assumption))
    | split

theorem State.arriveCompositor_steady {r s : State} {fe : FlowEntry} {a2 : Task} (h : Steady r s) :
    Steady r (State.arriveCompositor s fe a2).1 :=
  (State.arriveCompositor_keeps (Keeps.refl _)).after h

theorem State.arriveDelivery_keeps {r s : State} {fe : FlowEntry} {d : DeltaSettings} {a3 : Task} (h : Keeps r s) :
    Keeps r (State.arriveDelivery s fe d a3) := by
  unfold State.arriveDelivery
  repeat' first
    | with_reducible assumption
    | (extract_lets +onlyGivenNames x; with_reducible refine Keeps.name (r := r) (s := x) ?_ (fun hx => ?_); (on_goal 2 => clear_value x); (on_goal 1 => subst x))
    | (extract_lets +onlyGivenNames x; clear_value x)
    | with_reducible apply Keeps.ite
    | with_reducible apply State.finishTask_keeps
    | with_reducible apply State.deliverSample_keeps
    | with_reducible apply State.countOverclass_keeps
    | (with_reducible refine Keeps.of_fst ?_ (by assumption))
    | (with_reducible refine Keeps.of_snd ?_ (by assumption))
    | split

theorem State.arriveDelivery_steady {r s : State} {fe : FlowEntry} {d : DeltaSettings} {a3 : Task} (h : Steady r s) :
    Steady r (State.arriveDelivery s fe d a3) :=
  (State.arriveDelivery_keeps (Keeps.refl _)).after h

theorem State.arriveOutfall_keeps {r s : State} {fe : FlowEntry} {a2 : Task} (h : Keeps r s) :
    Keeps r (State.arriveOutfall s fe a2).1 := by
  unfold State.arriveOutfall
  repeat' first
    | with_reducible assumption
    | intro _
    | (extract_lets +onlyGivenNames x; with_reducible refine Keeps.name (r := r) (s := x) ?_ (fun hx => ?_); (on_goal 2 => clear_value x); (on_goal 1 => subst x))
    | (extract_lets +onlyGivenNames x; have hx : ∀ a, x a = x a := (fun _ => rfl); clear hx; subst x)
    | (extract_lets +onlyGivenNames x; clear_value x)
    | with_reducible apply Keeps.ite
    | with_reducible apply State.stopTask_keeps
    | with_reducible apply State.countOverclass_keeps
    | with_reducible apply State.modSample_keeps
    | (with_reducible refine Keeps.of_fst ?_ (by assumption))
    | (with_reducible refine Keeps.of_snd ?_ (by assumption))
    | split

theorem State.arriveOutfall_steady {r s : State} {fe : FlowEntry} {a2 : Task} (h : Steady r s) :
    Steady r (State.arriveOutfall s fe a2).1 :=
  (State.arriveOutfall_keeps (Keeps.refl _)).after h

theorem State.arriveAt_keeps {r s : State} {fe : FlowEntry} {a2 : Task} {st : Nat} (h : Keeps r s) :
    Keeps r (State.arriveAt s fe a2 st).1 := by
  unfold State.arriveAt
  repeat' first
    | with_reducible assumption
    | with_reducible apply Keeps.ite
    | with_reducible apply State.arriveBins_keeps
    | with_reducible apply State.arriveMillrace_keeps
    | with_reducible apply State.arriveEncode_keeps
    | with_reducible apply State.arrivePlaten_keeps
    | with_reducible apply State.arriveTrim_keeps
    | with_reducible apply State.arriveCompositor_keeps
    | with_reducible apply State.arriveDelivery_keeps
    | with_reducible apply State.arriveOutfall_keeps
    | (with_reducible refine Keeps.of_fst ?_ (by assumption))
    | (with_reducible refine Keeps.of_snd ?_ (by assumption))
    | split

theorem State.arriveAt_steady {r s : State} {fe : FlowEntry} {a2 : Task} {st : Nat} (h : Steady r s) :
    Steady r (State.arriveAt s fe a2 st).1 :=
  (State.arriveAt_keeps (Keeps.refl _)).after h

theorem State.crossSegment_keeps {r s : State} {fe : FlowEntry} {a2 : Task} {a3 : Nat} {b : Nat} (h : Keeps r s) :
    Keeps r (State.crossSegment s fe a2 a3 b) := by
  unfold State.crossSegment
  repeat' first
    | with_reducible assumption
    | intro _
    | (extract_lets +onlyGivenNames x; with_reducible refine Keeps.name (r := r) (s := x) ?_ (fun hx => ?_); (on_goal 2 => clear_value x); (on_goal 1 => subst x))
    | (extract_lets +onlyGivenNames x; have hx : ∀ a, x a = x a := (fun _ => rfl); clear hx; subst x)
    | (extract_lets +onlyGivenNames x; clear_value x)
    | with_reducible apply Keeps.ite
    | with_reducible apply State.addUnits_keeps
    | with_reducible apply State.modTask_keeps
    | with_reducible apply State.stopTask_keeps
    | with_reducible apply State.raiseOn_keeps
    | (with_reducible refine Keeps.of_fst ?_ (by assumption))
    | (with_reducible refine Keeps.of_snd ?_ (by assumption))
    | split

theorem State.crossSegment_steady {r s : State} {fe : FlowEntry} {a2 : Task} {a3 : Nat} {b : Nat} (h : Steady r s) :
    Steady r (State.crossSegment s fe a2 a3 b) :=
  (State.crossSegment_keeps (Keeps.refl _)).after h

theorem State.blockRefused_keeps {r s : State} {fe : FlowEntry} {a2 : Task} {st : Nat} (h : Keeps r s) :
    Keeps r (State.blockRefused s fe a2 st) := by
  unfold State.blockRefused
  repeat' first
    | with_reducible assumption
    | intro _
    | (extract_lets +onlyGivenNames x; with_reducible refine Keeps.name (r := r) (s := x) ?_ (fun hx => ?_); (on_goal 2 => clear_value x); (on_goal 1 => subst x))
    | (extract_lets +onlyGivenNames x; have hx : ∀ a, x a = x a := (fun _ => rfl); clear hx; subst x)
    | (extract_lets +onlyGivenNames x; clear_value x)
    | with_reducible apply Keeps.ite
    | with_reducible apply State.stopTask_keeps
    | with_reducible apply State.modEnc_keeps
    | with_reducible apply State.platenFail_keeps
    | with_reducible apply State.trimLast_keeps
    | with_reducible apply State.modTask_keeps
    | with_reducible apply State.modSample_keeps
    | (with_reducible refine Keeps.of_fst ?_ (by assumption))
    | (with_reducible refine Keeps.of_snd ?_ (by assumption))
    | split

theorem State.blockRefused_steady {r s : State} {fe : FlowEntry} {a2 : Task} {st : Nat} (h : Steady r s) :
    Steady r (State.blockRefused s fe a2 st) :=
  (State.blockRefused_keeps (Keeps.refl _)).after h

theorem State.leaveHeadwater_keeps {r s : State} {fe : FlowEntry} {a2 : Task} (h : Keeps r s) :
    Keeps r (State.leaveHeadwater s fe a2) := by
  unfold State.leaveHeadwater
  repeat' first
    | with_reducible assumption
    | intro _
    | (extract_lets +onlyGivenNames x; with_reducible refine Keeps.name (r := r) (s := x) ?_ (fun hx => ?_); (on_goal 2 => clear_value x); (on_goal 1 => subst x))
    | (extract_lets +onlyGivenNames x; have hx : ∀ a, x a = x a := (fun _ => rfl); clear hx; subst x)
    | (extract_lets +onlyGivenNames x; clear_value x)
    | with_reducible apply Keeps.ite
    | with_reducible apply State.incFld_keeps
    | with_reducible apply State.modTask_keeps
    | (with_reducible refine Keeps.of_fst ?_ (by assumption))
    | (with_reducible refine Keeps.of_snd ?_ (by assumption))
    | split

theorem State.leaveHeadwater_steady {r s : State} {fe : FlowEntry} {a2 : Task} (h : Steady r s) :
    Steady r (State.leaveHeadwater s fe a2) :=
  (State.leaveHeadwater_keeps (Keeps.refl _)).after h

theorem State.emitSample_keeps {r s : State} {fe : FlowEntry} {rs : RecordSettings} {a3 : Task} {base : Nat} {n : Nat} {a6 : RawSample} (h : Keeps r s) :
    Keeps r (State.emitSample s fe rs a3 base n a6) := by
  unfold State.emitSample
  repeat' first
    | with_reducible assumption
    | (extract_lets +onlyGivenNames x; with_reducible refine Keeps.name (r := r) (s := x) ?_ (fun hx => ?_); (on_goal 2 => clear_value x); (on_goal 1 => subst x))
    | (extract_lets +onlyGivenNames x; clear_value x)
    | with_reducible apply State.caseSample_keeps
    | with_reducible apply State.spawn_keeps
    | (with_reducible refine Keeps.of_fst ?_ (by assumption))
    | (with_reducible refine Keeps.of_snd ?_ (by assumption))
    | split

theorem State.emitSample_steady {r s : State} {fe : FlowEntry} {rs : RecordSettings} {a3 : Task} {base : Nat} {n : Nat} {a6 : RawSample} (h : Steady r s) :
    Steady r (State.emitSample s fe rs a3 base n a6) :=
  (State.emitSample_keeps (Keeps.refl _)).after h

theorem State.caseRange_keeps {r s : State} {fe : FlowEntry} {rs : RecordSettings} {a3 : Task} (h : Keeps r s) :
    Keeps r (State.caseRange s fe rs a3) := by
  unfold State.caseRange
  repeat' first
    | with_reducible assumption
    | intro _
    | (extract_lets +onlyGivenNames x; with_reducible refine Keeps.name (r := r) (s := x) ?_ (fun hx => ?_); (on_goal 2 => clear_value x); (on_goal 1 => subst x))
    | (extract_lets +onlyGivenNames x; with_reducible refine Keeps.name (r := r) (s := x.1) ?_ (fun hx => ?_); (on_goal 2 => clear_value x); (on_goal 1 => subst x))
    | (extract_lets +onlyGivenNames x; have hx : ∀ a, x a = x a := (fun _ => rfl); clear hx; subst x)
    | (extract_lets +onlyGivenNames x; clear_value x)
    | with_reducible apply Keeps.ite
    | with_reducible apply State.addFld_keeps
    | with_reducible apply State.modRun_keeps
    | with_reducible apply State.emitSample_keeps
    | with_reducible apply State.modTask_keeps
    | with_reducible apply State.stopTask_keeps
    | with_reducible apply State.finishTask_keeps
    | with_reducible apply State.placeOutputs_keeps
    | with_reducible apply Keeps.foldl
    | with_reducible apply Keeps.foldl_fst
    | split

theorem State.caseRange_steady {r s : State} {fe : FlowEntry} {rs : RecordSettings} {a3 : Task} (h : Steady r s) :
    Steady r (State.caseRange s fe rs a3) :=
  (State.caseRange_keeps (Keeps.refl _)).after h

theorem State.leaveCase_keeps {r s : State} {fe : FlowEntry} {a2 : Task} (h : Keeps r s) :
    Keeps r (State.leaveCase s fe a2).1 := by
  unfold State.leaveCase
  repeat' first
    | with_reducible assumption
    | intro _
    | (extract_lets +onlyGivenNames x; with_reducible refine Keeps.name (r := r) (s := x) ?_ (fun hx => ?_); (on_goal 2 => clear_value x); (on_goal 1 => subst x))
    | (extract_lets +onlyGivenNames x; have hx : ∀ a, x a = x a := (fun _ => rfl); clear hx; subst x)
    | (extract_lets +onlyGivenNames x; clear_value x)
    | with_reducible apply Keeps.ite
    | with_reducible apply State.caseRange_keeps
    | with_reducible apply State.stopTask_keeps
    | with_reducible apply State.guardSample_keeps
    | with_reducible apply State.modSample_keeps
    | (with_reducible refine Keeps.of_fst ?_ (by assumption))
    | (with_reducible refine Keeps.of_snd ?_ (by assumption))
    | split

theorem State.leaveCase_steady {r s : State} {fe : FlowEntry} {a2 : Task} (h : Steady r s) :
    Steady r (State.leaveCase s fe a2).1 :=
  (State.leaveCase_keeps (Keeps.refl _)).after h

theorem State.setWork_keeps {r s : State} {id : Nat} {at_ : Nat → Bool} {w : List (Prod Nat Nat)} (h : Keeps r s) :
    Keeps r (State.setWork s id at_ w) := by
  unfold State.setWork
  repeat' first
    | with_reducible assumption
    | intro _
    | with_reducible apply State.modTask_keeps

theorem State.setWork_steady {r s : State} {id : Nat} {at_ : Nat → Bool} {w : List (Prod Nat Nat)} (h : Steady r s) :
    Steady r (State.setWork s id at_ w) :=
  (State.setWork_keeps (Keeps.refl _)).after h

theorem State.parseStep_keeps {r s : State} {fe : FlowEntry} {e : DecEntry} {a3 : Task} {p : DecPlan} (h : Keeps r s) :
    Keeps r (State.parseStep s fe e a3 p).1 := by
  unfold State.parseStep
  repeat' first
    | with_reducible assumption
    | intro _
    | with_reducible apply Keeps.ite
    | with_reducible apply State.setWork_keeps
    | with_reducible apply State.modPlan_keeps
    | with_reducible apply State.closeParse_keeps
    | with_reducible apply State.millPeak_keeps
    | split

theorem State.parseStep_steady {r s : State} {fe : FlowEntry} {e : DecEntry} {a3 : Task} {p : DecPlan} (h : Steady r s) :
    Steady r (State.parseStep s fe e a3 p).1 :=
  (State.parseStep_keeps (Keeps.refl _)).after h

theorem State.readStep_keeps {r s : State} {fe : FlowEntry} {e : DecEntry} {a3 : Task} {p : DecPlan} (h : Keeps r s) :
    Keeps r (State.readStep s fe e a3 p).1 := by
  unfold State.readStep
  repeat' first
    | with_reducible assumption
    | intro _
    | (extract_lets +onlyGivenNames x; with_reducible refine Keeps.name (r := r) (s := x) ?_ (fun hx => ?_); (on_goal 2 => clear_value x); (on_goal 1 => subst x))
    | (extract_lets +onlyGivenNames x; have hx : ∀ a, x a = x a := (fun _ => rfl); clear hx; subst x)
    | (extract_lets +onlyGivenNames x; clear_value x)
    | with_reducible apply Keeps.ite
    | with_reducible apply State.setWork_keeps
    | with_reducible apply State.finishFrame_keeps
    | with_reducible apply State.enterPoint_keeps
    | with_reducible apply State.platenFail_keeps
    | with_reducible apply State.modPlan_keeps
    | with_reducible apply State.addFld_keeps
    | with_reducible apply State.addUnits_keeps
    | with_reducible apply State.laneWork_keeps
    | with_reducible apply State.modTask_keeps
    | (with_reducible refine Keeps.of_fst ?_ (by assumption))
    | (with_reducible refine Keeps.of_snd ?_ (by assumption))
    | split

theorem State.readStep_steady {r s : State} {fe : FlowEntry} {e : DecEntry} {a3 : Task} {p : DecPlan} (h : Steady r s) :
    Steady r (State.readStep s fe e a3 p).1 :=
  (State.readStep_keeps (Keeps.refl _)).after h

theorem State.decTurn_keeps {r s : State} {fe : FlowEntry} {e : DecEntry} {a3 : Task} {p : DecPlan} (h : Keeps r s) :
    Keeps r (State.decTurn s fe e a3 p).1 := by
  unfold State.decTurn
  repeat' first
    | with_reducible assumption
    | with_reducible apply Keeps.ite
    | with_reducible apply State.parseStep_keeps
    | with_reducible apply State.readStep_keeps
    | (with_reducible refine Keeps.of_fst ?_ (by assumption))
    | (with_reducible refine Keeps.of_snd ?_ (by assumption))
    | split

theorem State.decTurn_steady {r s : State} {fe : FlowEntry} {e : DecEntry} {a3 : Task} {p : DecPlan} (h : Steady r s) :
    Steady r (State.decTurn s fe e a3 p).1 :=
  (State.decTurn_keeps (Keeps.refl _)).after h

theorem State.leavePlaten_keeps {r s : State} {fe : FlowEntry} {e : DecEntry} {a3 : Task} (h : Keeps r s) :
    Keeps r (State.leavePlaten s fe e a3) := by
  unfold State.leavePlaten
  repeat' first
    | with_reducible assumption
    | intro _
    | with_reducible apply Keeps.ite
    | with_reducible apply State.dropPlan_keeps
    | with_reducible apply State.emitFrames_keeps
    | (with_reducible refine Keeps.of_fst ?_ (by assumption))
    | (with_reducible refine Keeps.of_snd ?_ (by assumption))
    | split

theorem State.leavePlaten_steady {r s : State} {fe : FlowEntry} {e : DecEntry} {a3 : Task} (h : Steady r s) :
    Steady r (State.leavePlaten s fe e a3) :=
  (State.leavePlaten_keeps (Keeps.refl _)).after h

theorem State.leaveTrim_keeps {r s : State} {fe : FlowEntry} {ts : TrimSettings} {a3 : Task} (h : Keeps r s) :
    Keeps r (State.leaveTrim s fe ts a3) := by
  unfold State.leaveTrim
  repeat' first
    | with_reducible assumption
    | intro _
    | (extract_lets +onlyGivenNames x; with_reducible refine Keeps.name (r := r) (s := x) ?_ (fun hx => ?_); (on_goal 2 => clear_value x); (on_goal 1 => subst x))
    | (extract_lets +onlyGivenNames x; have hx : ∀ a, x a = x a := (fun _ => rfl); clear hx; subst x)
    | (extract_lets +onlyGivenNames x; clear_value x)
    | with_reducible apply Keeps.ite
    | with_reducible apply State.freeScratch_keeps
    | with_reducible apply State.addFld_keeps
    | with_reducible apply State.modRun_keeps
    | with_reducible apply State.addUnits_keeps
    | with_reducible apply State.incFld_keeps
    | with_reducible apply State.modSample_keeps
    | (with_reducible refine Keeps.of_fst ?_ (by assumption))
    | (with_reducible refine Keeps.of_snd ?_ (by assumption))
    | split

theorem State.leaveTrim_steady {r s : State} {fe : FlowEntry} {ts : TrimSettings} {a3 : Task} (h : Steady r s) :
    Steady r (State.leaveTrim s fe ts a3) :=
  (State.leaveTrim_keeps (Keeps.refl _)).after h

theorem State.leaveCompositor_keeps {r s : State} {fe : FlowEntry} {a2 : Task} (h : Keeps r s) :
    Keeps r (State.leaveCompositor s fe a2) := by
  unfold State.leaveCompositor
  repeat' first
    | with_reducible assumption
    | intro _
    | (extract_lets +onlyGivenNames x; with_reducible refine Keeps.name (r := r) (s := x) ?_ (fun hx => ?_); (on_goal 2 => clear_value x); (on_goal 1 => subst x))
    | (extract_lets +onlyGivenNames x; have hx : ∀ a, x a = x a := (fun _ => rfl); clear hx; subst x)
    | (extract_lets +onlyGivenNames x; clear_value x)
    | with_reducible apply Keeps.ite
    | with_reducible apply State.modSample_keeps
    | with_reducible apply State.nextFree_keeps
    | with_reducible apply State.addFld_keeps
    | with_reducible apply State.addUnits_keeps
    | with_reducible apply State.incFld_keeps
    | (with_reducible refine Keeps.of_fst ?_ (by assumption))
    | (with_reducible refine Keeps.of_snd ?_ (by assumption))
    | split

theorem State.leaveCompositor_steady {r s : State} {fe : FlowEntry} {a2 : Task} (h : Steady r s) :
    Steady r (State.leaveCompositor s fe a2) :=
  (State.leaveCompositor_keeps (Keeps.refl _)).after h

theorem State.leaveGalley_keeps {r s : State} {fe : FlowEntry} {g : GalleySettings} {a3 : Task} (h : Keeps r s) :
    Keeps r (State.leaveGalley s fe g a3) := by
  unfold State.leaveGalley
  repeat' first
    | with_reducible assumption
    | intro _
    | (extract_lets +onlyGivenNames x; with_reducible refine Keeps.name (r := r) (s := x) ?_ (fun hx => ?_); (on_goal 2 => clear_value x); (on_goal 1 => subst x))
    | (extract_lets +onlyGivenNames x; clear_value x)
    | with_reducible apply Keeps.ite
    | with_reducible apply State.finishTask_keeps
    | with_reducible apply State.addUnits_keeps
    | with_reducible apply State.galArrive_keeps
    | with_reducible apply State.memberArrive_keeps
    | (with_reducible refine Keeps.of_fst ?_ (by assumption))
    | (with_reducible refine Keeps.of_snd ?_ (by assumption))
    | split

theorem State.leaveGalley_steady {r s : State} {fe : FlowEntry} {g : GalleySettings} {a3 : Task} (h : Steady r s) :
    Steady r (State.leaveGalley s fe g a3) :=
  (State.leaveGalley_keeps (Keeps.refl _)).after h

theorem State.leaveOutfall_keeps {r s : State} {fe : FlowEntry} {a2 : Task} (h : Keeps r s) :
    Keeps r (State.leaveOutfall s fe a2) := by
  unfold State.leaveOutfall
  repeat' first
    | with_reducible assumption
    | intro _
    | (extract_lets +onlyGivenNames x; with_reducible refine Keeps.name (r := r) (s := x) ?_ (fun hx => ?_); (on_goal 2 => clear_value x); (on_goal 1 => subst x))
    | (extract_lets +onlyGivenNames x; have hx : ∀ a, x a = x a := (fun _ => rfl); clear hx; subst x)
    | (extract_lets +onlyGivenNames x; clear_value x)
    | with_reducible apply Keeps.ite
    | with_reducible apply State.stopTask_keeps
    | with_reducible apply State.writeFor_keeps
    | with_reducible apply State.modTask_keeps
    | with_reducible apply State.placeOutputs_keeps
    | with_reducible apply State.finishTask_keeps
    | (with_reducible refine Keeps.of_fst ?_ (by assumption))
    | (with_reducible refine Keeps.of_snd ?_ (by assumption))
    | split

theorem State.leaveOutfall_steady {r s : State} {fe : FlowEntry} {a2 : Task} (h : Steady r s) :
    Steady r (State.leaveOutfall s fe a2) :=
  (State.leaveOutfall_keeps (Keeps.refl _)).after h

theorem State.leaveFrom_keeps {r s : State} {fe : FlowEntry} {a2 : Task} {st : Nat} (h : Keeps r s) :
    Keeps r (State.leaveFrom s fe a2 st).1 := by
  unfold State.leaveFrom
  repeat' first
    | with_reducible assumption
    | intro _
    | (extract_lets +onlyGivenNames x; with_reducible refine Keeps.name (r := r) (s := x) ?_ (fun hx => ?_); (on_goal 2 => clear_value x); (on_goal 1 => subst x))
    | (extract_lets +onlyGivenNames x; have hx : ∀ a, x a = x a := (fun _ => rfl); clear hx; subst x)
    | (extract_lets +onlyGivenNames x; clear_value x)
    | with_reducible apply Keeps.ite
    | with_reducible apply State.leaveHeadwater_keeps
    | with_reducible apply State.leaveCase_keeps
    | with_reducible apply State.millraceFrame_keeps
    | with_reducible apply State.decTurn_keeps
    | with_reducible apply State.platenFrame_keeps
    | with_reducible apply State.leavePlaten_keeps
    | with_reducible apply State.leaveTrim_keeps
    | with_reducible apply State.leaveCompositor_keeps
    | with_reducible apply State.leaveGalley_keeps
    | with_reducible apply State.modTask_keeps
    | with_reducible apply State.leaveOutfall_keeps
    | (with_reducible refine Keeps.of_fst ?_ (by assumption))
    | (with_reducible refine Keeps.of_snd ?_ (by assumption))
    | split

theorem State.leaveFrom_steady {r s : State} {fe : FlowEntry} {a2 : Task} {st : Nat} (h : Steady r s) :
    Steady r (State.leaveFrom s fe a2 st).1 :=
  (State.leaveFrom_keeps (Keeps.refl _)).after h

theorem State.ackedOutput_steady {r s : State} {id : Nat} (h : Steady r s) :
    Steady r (State.ackedOutput s id) := by
  unfold State.ackedOutput
  repeat' first
    | with_reducible assumption
    | intro _
    | (extract_lets +onlyGivenNames x; with_reducible refine Steady.name (r := r) (s := x) ?_ (fun hx => ?_); (on_goal 2 => clear_value x); (on_goal 1 => subst x))
    | (extract_lets +onlyGivenNames x; have hx : ∀ a, x a = x a := (fun _ => rfl); clear hx; subst x)
    | (extract_lets +onlyGivenNames x; clear_value x)
    | with_reducible apply Steady.ite
    | with_reducible apply State.modTask_steady
    | with_reducible apply State.finishTask_steady
    | (with_reducible refine Steady.of_fst ?_ (by assumption))
    | (with_reducible refine Steady.of_snd ?_ (by assumption))
    | split

theorem State.millOver_steady {r s : State} {fe : FlowEntry} {e : DecEntry} {a3 : Task} {p : DecPlan} (h : Steady r s) :
    Steady r (State.millOver s fe e a3 p) := by
  unfold State.millOver
  repeat' first
    | with_reducible assumption
    | intro _
    | (extract_lets +onlyGivenNames x; with_reducible refine Steady.name (r := r) (s := x) ?_ (fun hx => ?_); (on_goal 2 => clear_value x); (on_goal 1 => subst x))
    | (extract_lets +onlyGivenNames x; have hx : ∀ a, x a = x a := (fun _ => rfl); clear hx; subst x)
    | (extract_lets +onlyGivenNames x; clear_value x)
    | with_reducible apply State.closeParse_steady
    | with_reducible apply State.setWork_steady
    | with_reducible apply State.modPlan_steady
    | (with_reducible refine Steady.of_fst ?_ (by assumption))
    | (with_reducible refine Steady.of_snd ?_ (by assumption))
    | split

end Sys2Proof.Machine
end

