-- ==== Sys2Proof/Laws/FramePieces.lean ====
section
/-! SUPPORT. What the operations of Machine/Pieces.lean leave as it is. -/

set_option Elab.async false
set_option linter.unusedTactic false
set_option linter.unreachableTactic false

namespace Sys2Proof.Machine

open Sys2Proof.Safety

theorem State.nextStation_keeps {r s : State} {fe : FlowEntry} {a2 : Task} (h : Keeps r s) :
    Keeps r (State.nextStation s fe a2) := by
  unfold State.nextStation
  repeat' first
    | with_reducible assumption
    | intro _
    | (extract_lets +onlyGivenNames x; with_reducible refine Keeps.name (r := r) (s := x) ?_ (fun hx => ?_); (on_goal 2 => clear_value x); (on_goal 1 => subst x))
    | (extract_lets +onlyGivenNames x; have hx : ∀ a, x a = x a := (fun _ => rfl); clear hx; subst x)
    | (extract_lets +onlyGivenNames x; clear_value x)
    | with_reducible apply State.crossSegment_keeps
    | with_reducible apply State.modTask_keeps
    | (with_reducible refine Keeps.of_fst ?_ (by assumption))
    | (with_reducible refine Keeps.of_snd ?_ (by assumption))
    | split

theorem State.nextStation_steady {r s : State} {fe : FlowEntry} {a2 : Task} (h : Steady r s) :
    Steady r (State.nextStation s fe a2) :=
  (State.nextStation_keeps (Keeps.refl _)).after h

theorem State.askBlock_keeps {r s : State} {fe : FlowEntry} {a2 : Task} {bytes : Nat} {galley : Bool} (h : Keeps r s) :
    Keeps r (State.askBlock s fe a2 bytes galley) := by
  unfold State.askBlock
  repeat' first
    | with_reducible assumption
    | intro _
    | with_reducible apply State.requestBlock_keeps
    | with_reducible apply State.blockRefused_keeps
    | with_reducible apply State.stopTask_keeps
    | with_reducible apply State.loseUnit_keeps
    | (with_reducible refine Keeps.of_fst ?_ (by assumption))
    | (with_reducible refine Keeps.of_snd ?_ (by assumption))
    | split

theorem State.askBlock_steady {r s : State} {fe : FlowEntry} {a2 : Task} {bytes : Nat} {galley : Bool} (h : Steady r s) :
    Steady r (State.askBlock s fe a2 bytes galley) :=
  (State.askBlock_keeps (Keeps.refl _)).after h

theorem State.runTask_keeps {r s : State} {id : Nat} {a1 : Nat} (h : Keeps r s) :
    Keeps r (State.runTask id a1 s) := by
  induction a1 generalizing s with
  | zero => exact h
  | succ n ih =>
    unfold State.runTask
    repeat' first
      | with_reducible assumption
      | intro _
      | (extract_lets +onlyGivenNames x; with_reducible refine Keeps.name (r := r) (s := x) ?_ (fun hx => ?_); (on_goal 2 => clear_value x); (on_goal 1 => subst x))
      | (extract_lets +onlyGivenNames x; have hx : ∀ a, x a = x a := (fun _ => rfl); clear hx; subst x)
      | (extract_lets +onlyGivenNames x; clear_value x)
      | with_reducible apply ih
      | with_reducible apply Keeps.ite
      | with_reducible apply State.finishTask_keeps
      | with_reducible apply State.placeOutputs_keeps
      | with_reducible apply State.arriveAt_keeps
      | with_reducible apply State.nextStation_keeps
      | with_reducible apply State.modTask_keeps
      | with_reducible apply State.askBlock_keeps
      | with_reducible apply State.leaveFrom_keeps
      | (with_reducible refine Keeps.of_fst ?_ (by assumption))
      | (with_reducible refine Keeps.of_snd ?_ (by assumption))
      | split

theorem State.runTask_steady {r s : State} {id : Nat} {a1 : Nat} (h : Steady r s) :
    Steady r (State.runTask id a1 s) :=
  (State.runTask_keeps (Keeps.refl _)).after h

theorem State.moveTasks_keeps {r s : State} {l : List Task} (h : Keeps r s) :
    Keeps r (State.moveTasks s l) := by
  unfold State.moveTasks
  repeat' first
    | with_reducible assumption
    | intro _
    | with_reducible apply State.runTask_keeps
    | with_reducible apply Keeps.foldl
    | with_reducible apply Keeps.foldl_fst

theorem State.moveTasks_steady {r s : State} {l : List Task} (h : Steady r s) :
    Steady r (State.moveTasks s l) :=
  (State.moveTasks_keeps (Keeps.refl _)).after h

theorem State.settleStations_keeps {r s : State} (h : Keeps r s) :
    Keeps r (State.settleStations s) := by
  unfold State.settleStations
  repeat' first
    | with_reducible assumption
    | (extract_lets +onlyGivenNames x; with_reducible refine Keeps.name (r := r) (s := x) ?_ (fun hx => ?_); (on_goal 2 => clear_value x); (on_goal 1 => subst x))
    | (extract_lets +onlyGivenNames x; clear_value x)
    | with_reducible apply Keeps.ite
    | with_reducible apply State.moveTasks_keeps
    | split

theorem State.settleStations_steady {r s : State} (h : Steady r s) :
    Steady r (State.settleStations s) :=
  (State.settleStations_keeps (Keeps.refl _)).after h

theorem State.trimStop_steady {r s : State} {fe : FlowEntry} {a2 : Task} (h : Steady r s) :
    Steady r (State.trimStop s fe a2) := by
  unfold State.trimStop
  repeat' first
    | with_reducible assumption
    | intro _
    | (extract_lets +onlyGivenNames x; with_reducible refine Steady.name (r := r) (s := x) ?_ (fun hx => ?_); (on_goal 2 => clear_value x); (on_goal 1 => subst x))
    | (extract_lets +onlyGivenNames x; have hx : ∀ a, x a = x a := (fun _ => rfl); clear hx; subst x)
    | (extract_lets +onlyGivenNames x; clear_value x)
    | with_reducible apply State.addUnits_steady
    | with_reducible apply State.trimLast_steady
    | with_reducible apply State.incFld_steady
    | with_reducible apply State.modSample_steady
    | (with_reducible refine Steady.of_fst ?_ (by assumption))
    | (with_reducible refine Steady.of_snd ?_ (by assumption))
    | split

theorem State.overBudget_steady {r s : State} {fe : FlowEntry} {a2 : Task} {v : Nat} (h : Steady r s) :
    Steady r (State.overBudget s fe a2 v) := by
  unfold State.overBudget
  repeat' first
    | with_reducible assumption
    | intro _
    | (extract_lets +onlyGivenNames x; with_reducible refine Steady.name (r := r) (s := x) ?_ (fun hx => ?_); (on_goal 2 => clear_value x); (on_goal 1 => subst x))
    | (extract_lets +onlyGivenNames x; have hx : ∀ a, x a = x a := (fun _ => rfl); clear hx; subst x)
    | (extract_lets +onlyGivenNames x; clear_value x)
    | with_reducible apply Steady.ite
    | with_reducible apply State.stopTask_steady
    | with_reducible apply State.modEnc_steady
    | with_reducible apply State.countOverclass_steady
    | with_reducible apply State.millOver_steady
    | with_reducible apply State.platenFail_steady
    | with_reducible apply State.trimStop_steady
    | with_reducible apply State.incFld_steady
    | with_reducible apply State.modTask_steady
    | with_reducible apply State.modSample_steady
    | (with_reducible refine Steady.of_fst ?_ (by assumption))
    | (with_reducible refine Steady.of_snd ?_ (by assumption))
    | split

theorem State.countServed_steady {r s : State} {fe : FlowEntry} {v : Nat} {n : Nat} (h : Steady r s) :
    Steady r (State.countServed s fe v n) := by
  unfold State.countServed
  repeat' first
    | with_reducible assumption
    | intro _
    | with_reducible apply Steady.ite
    | with_reducible exact Steady.upd_weir (by assumption)
    | with_reducible apply State.countWindow_steady
    | split
    | with_reducible apply Steady.upd_weir

theorem State.unitPiece_steady {r s : State} {fe : FlowEntry} {a2 : Task} {d : Nat} {n : Nat} (h : Steady r s) :
    Steady r (State.unitPiece s fe a2 d n) := by
  unfold State.unitPiece
  repeat' first
    | with_reducible assumption
    | intro _
    | (extract_lets +onlyGivenNames x; with_reducible refine Steady.name (r := r) (s := x) ?_ (fun hx => ?_); (on_goal 2 => clear_value x); (on_goal 1 => subst x))
    | (extract_lets +onlyGivenNames x; have hx : ∀ a, x a = x a := (fun _ => rfl); clear hx; subst x)
    | (extract_lets +onlyGivenNames x; clear_value x)
    | with_reducible apply Steady.ite
    | with_reducible apply State.incFld_steady
    | with_reducible apply State.modPlan_steady
    | split

theorem State.doTask_steady {r s : State} {fe : FlowEntry} {a2 : Task} {v : Nat} (h : Steady r s) :
    Steady r (State.doTask s fe a2 v) := by
  unfold State.doTask
  repeat' first
    | with_reducible assumption
    | intro _
    | (extract_lets +onlyGivenNames x; with_reducible refine Steady.name (r := r) (s := x) ?_ (fun hx => ?_); (on_goal 2 => clear_value x); (on_goal 1 => subst x))
    | (extract_lets +onlyGivenNames x; have hx : ∀ a, x a = x a := (fun _ => rfl); clear hx; subst x)
    | (extract_lets +onlyGivenNames x; clear_value x)
    | with_reducible apply Steady.ite
    | with_reducible apply State.overBudget_steady
    | with_reducible apply State.countServed_steady
    | with_reducible apply State.setTask_steady
    | with_reducible apply State.unitPiece_steady
    | with_reducible apply State.codedRows_steady
    | (with_reducible refine Steady.of_fst ?_ (by assumption))
    | (with_reducible refine Steady.of_snd ?_ (by assumption))
    | split

theorem State.doAsm_steady {r s : State} {u : BatchOut} (h : Steady r s) :
    Steady r (State.doAsm s u) := by
  unfold State.doAsm
  repeat' first
    | with_reducible assumption
    | intro _
    | (extract_lets +onlyGivenNames x; with_reducible refine Steady.name (r := r) (s := x) ?_ (fun hx => ?_); (on_goal 2 => clear_value x); (on_goal 1 => subst x))
    | (extract_lets +onlyGivenNames x; have hx : ∀ a, x a = x a := (fun _ => rfl); clear hx; subst x)
    | (extract_lets +onlyGivenNames x; clear_value x)
    | with_reducible apply Steady.ite
    | with_reducible apply State.modUnit_steady
    | with_reducible apply State.modGroup_steady
    | (with_reducible refine Steady.of_fst ?_ (by assumption))
    | (with_reducible refine Steady.of_snd ?_ (by assumption))
    | split

theorem State.dispatch_steady {r s : State} {v : Nat} (h : Steady r s) :
    Steady r (State.dispatch s v) := by
  unfold State.dispatch
  repeat' first
    | with_reducible assumption
    | intro _
    | with_reducible apply Steady.ite
    | with_reducible apply State.doTask_steady
    | with_reducible apply State.countServed_steady
    | with_reducible apply State.dispatchXfer_steady
    | with_reducible apply State.dispatchUnit_steady
    | with_reducible apply State.doAsm_steady
    | (with_reducible refine Steady.of_fst ?_ (by assumption))
    | (with_reducible refine Steady.of_snd ?_ (by assumption))
    | split

theorem State.rereadImages_steady {r s : State} {v : Nat} {f : Fetch} (h : Steady r s) :
    Steady r (State.rereadImages s v f) := by
  unfold State.rereadImages
  repeat' first
    | with_reducible assumption
    | intro _
    | with_reducible apply Steady.ite
    | with_reducible exact Steady.upd_forme (by assumption)
    | (with_reducible refine Steady.of_fst ?_ (by assumption))
    | (with_reducible refine Steady.of_snd ?_ (by assumption))
    | split
    | with_reducible apply Steady.upd_forme

theorem State.unpark_steady {r s : State} {f : Nat} (h : Steady r s) :
    Steady r (State.unpark s f) := by
  unfold State.unpark
  repeat' first
    | with_reducible assumption
    | intro _
    | with_reducible apply State.incFld_steady
    | with_reducible apply State.modPlan_steady
    | (with_reducible refine Steady.of_fst ?_ (by assumption))
    | (with_reducible refine Steady.of_snd ?_ (by assumption))
    | split

theorem State.poolTimeout_steady {r s : State} {p : Nat} (h : Steady r s) :
    Steady r (State.poolTimeout s p) := by
  unfold State.poolTimeout
  repeat' first
    | with_reducible assumption
    | intro _
    | (extract_lets +onlyGivenNames x; with_reducible refine Steady.name (r := r) (s := x) ?_ (fun hx => ?_); (on_goal 2 => clear_value x); (on_goal 1 => subst x))
    | (extract_lets +onlyGivenNames x; have hx : ∀ a, x a = x a := (fun _ => rfl); clear hx; subst x)
    | (extract_lets +onlyGivenNames x; clear_value x)
    | with_reducible apply Steady.ite
    | with_reducible apply State.raiseOn_steady
    | with_reducible apply State.incFld_steady
    | with_reducible apply State.advance_steady
    | with_reducible apply State.freeTask_steady
    | with_reducible apply State.modDelta_steady
    | with_reducible apply State.abortBatch_steady
    | with_reducible apply State.blockRefused_steady
    | with_reducible apply State.dropWaiter_steady
    | (with_reducible refine Steady.of_fst ?_ (by assumption))
    | (with_reducible refine Steady.of_snd ?_ (by assumption))
    | split

end Sys2Proof.Machine
end

