-- ==== Sys2Proof/Laws/FrameBerths.lean ====
section
/-! SUPPORT. What the operations of Machine/Berths.lean leave as it is. -/

set_option Elab.async false
set_option linter.unusedTactic false
set_option linter.unreachableTactic false

namespace Sys2Proof.Machine

open Sys2Proof.Safety

theorem State.refreshBerths_keeps {r s : State} (h : Keeps r s) :
    Keeps r (State.refreshBerths s) := by
  unfold State.refreshBerths
  repeat' first
    | with_reducible assumption
    | intro _
    | (extract_lets +onlyGivenNames x; with_reducible refine Keeps.name (r := r) (s := x) ?_ (fun hx => ?_); (on_goal 2 => clear_value x); (on_goal 1 => subst x))
    | (extract_lets +onlyGivenNames x; have hx : ∀ a, x a = x a := (fun _ => rfl); clear hx; subst x)
    | (extract_lets +onlyGivenNames x; clear_value x)
    | with_reducible apply Keeps.ite
    | with_reducible exact Keeps.upd_berths (by assumption)
    | (with_reducible refine Keeps.of_fst ?_ (by assumption))
    | (with_reducible refine Keeps.of_snd ?_ (by assumption))
    | split
    | with_reducible apply Keeps.upd_berths

theorem State.refreshBerths_steady {r s : State} (h : Steady r s) :
    Steady r (State.refreshBerths s) :=
  (State.refreshBerths_keeps (Keeps.refl _)).after h

theorem State.quoinBerths_steady {r s : State} {keep : Nat → Bool} (h : Steady r s) :
    Steady r (State.quoinBerths s keep) := by
  unfold State.quoinBerths
  repeat' first
    | with_reducible assumption
    | intro _
    | (extract_lets +onlyGivenNames x; with_reducible refine Steady.name (r := r) (s := x) ?_ (fun hx => ?_); (on_goal 2 => clear_value x); (on_goal 1 => subst x))
    | (extract_lets +onlyGivenNames x; have hx : ∀ a, x a = x a := (fun _ => rfl); clear hx; subst x)
    | (extract_lets +onlyGivenNames x; clear_value x)
    | with_reducible exact Steady.upd_berths_swapBusy_swapQueue (by assumption)
    | with_reducible apply Steady.upd_berths_swapBusy_swapQueue

theorem State.startSwap_steady {r s : State} {out : Prod Nat Nat} {inc : Prod Nat Nat} (h : Steady r s) :
    Steady r (State.startSwap s out inc) := by
  unfold State.startSwap
  repeat' first
    | with_reducible assumption
    | intro _
    | with_reducible apply Steady.ite
    | with_reducible exact Steady.upd_berths_swapBusy (by assumption)
    | split
    | with_reducible apply Steady.upd_berths_swapBusy

theorem State.decideSwap_steady {r s : State} {out : BerthCtx} {inc : BerthCtx} (h : Steady r s) :
    Steady r (State.decideSwap s out inc) := by
  unfold State.decideSwap
  repeat' first
    | with_reducible assumption
    | with_reducible apply Steady.ite
    | with_reducible exact Steady.upd_swapQueue (by assumption)
    | with_reducible apply State.startSwap_steady
    | split
    | with_reducible apply Steady.upd_swapQueue

theorem State.sliceCtx_steady {r s : State} {flow : Nat} {part : Nat} (h : Steady r s) :
    Steady r (State.sliceCtx s flow part) := by
  unfold State.sliceCtx
  repeat' first
    | with_reducible assumption
    | intro _
    | with_reducible apply Steady.ite
    | with_reducible apply State.decideSwap_steady
    | (with_reducible refine Steady.of_fst ?_ (by assumption))
    | (with_reducible refine Steady.of_snd ?_ (by assumption))
    | split

theorem State.sliceSwap_steady {r s : State} {a1 : Task} (h : Steady r s) :
    Steady r (State.sliceSwap s a1) := by
  unfold State.sliceSwap
  repeat' first
    | with_reducible assumption
    | with_reducible apply Steady.ite
    | with_reducible apply State.sliceCtx_steady
    | (with_reducible refine Steady.of_fst ?_ (by assumption))
    | (with_reducible refine Steady.of_snd ?_ (by assumption))
    | split

theorem State.boundary_steady {r s : State} {id : Nat} (h : Steady r s) :
    Steady r (State.boundary s id) := by
  unfold State.boundary
  repeat' first
    | with_reducible assumption
    | intro _
    | with_reducible apply Steady.ite
    | with_reducible apply State.sliceSwap_steady
    | with_reducible apply State.taskEnd_steady
    | (with_reducible refine Steady.of_fst ?_ (by assumption))
    | (with_reducible refine Steady.of_snd ?_ (by assumption))
    | split

theorem State.berthEvict_steady {r s : State} (h : Steady r s) :
    Steady r (State.berthEvict s) := by
  unfold State.berthEvict
  repeat' first
    | with_reducible assumption
    | with_reducible apply Steady.ite
    | with_reducible apply State.decideSwap_steady
    | (with_reducible refine Steady.of_fst ?_ (by assumption))
    | (with_reducible refine Steady.of_snd ?_ (by assumption))
    | split

theorem State.nextSwap_steady {r s : State} (h : Steady r s) :
    Steady r (State.nextSwap s) := by
  unfold State.nextSwap
  repeat' first
    | with_reducible assumption
    | with_reducible exact Steady.upd_swapQueue (by assumption)
    | with_reducible apply State.startSwap_steady
    | (with_reducible refine Steady.of_fst ?_ (by assumption))
    | (with_reducible refine Steady.of_snd ?_ (by assumption))
    | split
    | with_reducible apply Steady.upd_swapQueue

theorem State.swapComplete_steady {r s : State} (h : Steady r s) :
    Steady r (State.swapComplete s) := by
  unfold State.swapComplete
  repeat' first
    | with_reducible assumption
    | intro _
    | (extract_lets +onlyGivenNames x; with_reducible refine Steady.name (r := r) (s := x) ?_ (fun hx => ?_); (on_goal 2 => clear_value x); (on_goal 1 => subst x))
    | (extract_lets +onlyGivenNames x; have hx : ∀ a, x a = x a := (fun _ => rfl); clear hx; subst x)
    | (extract_lets +onlyGivenNames x; clear_value x)
    | with_reducible exact Steady.upd_berths_swapBusy (by assumption)
    | with_reducible apply State.nextSwap_steady
    | with_reducible apply State.setFld_steady
    | with_reducible apply State.incFld_steady
    | (with_reducible refine Steady.of_fst ?_ (by assumption))
    | (with_reducible refine Steady.of_snd ?_ (by assumption))
    | split
    | with_reducible apply Steady.upd_berths_swapBusy

theorem State.offloadWindow_steady {r s : State} (h : Steady r s) :
    Steady r (State.offloadWindow s) := by
  unfold State.offloadWindow
  repeat' first
    | with_reducible assumption
    | intro _
    | (extract_lets +onlyGivenNames x; with_reducible refine Steady.name (r := r) (s := x) ?_ (fun hx => ?_); (on_goal 2 => clear_value x); (on_goal 1 => subst x))
    | (extract_lets +onlyGivenNames x; with_reducible refine Steady.name (r := r) (s := x.1) ?_ (fun hx => ?_); (on_goal 2 => clear_value x); (on_goal 1 => subst x))
    | (extract_lets +onlyGivenNames x; have hx : ∀ a, x a = x a := (fun _ => rfl); clear hx; subst x)
    | (extract_lets +onlyGivenNames x; clear_value x)
    | with_reducible apply Steady.ite
    | with_reducible exact Steady.upd_window1ms (by assumption)
    | with_reducible apply State.setFld_steady
    | with_reducible apply Steady.foldl
    | with_reducible apply Steady.foldl_fst
    | split
    | with_reducible apply Steady.upd_window1ms

end Sys2Proof.Machine
end

