-- ==== Sys2Proof/Laws/FrameTake.lean ====
section
/-! SUPPORT. What the operations of Machine/Take.lean leave as it is. -/

set_option Elab.async false
set_option linter.unusedTactic false
set_option linter.unreachableTactic false

namespace Sys2Proof.Machine

open Sys2Proof.Safety

theorem State.startChain_steady {r s : State} {fe : FlowEntry} {id : Nat} {a3 : Nat} (h : Steady r s) :
    Steady r (State.startChain s fe id a3) := by
  unfold State.startChain
  repeat' first
    | with_reducible assumption
    | intro _
    | (extract_lets +onlyGivenNames x; with_reducible refine Steady.name (r := r) (s := x) ?_ (fun hx => ?_); (on_goal 2 => clear_value x); (on_goal 1 => subst x))
    | (extract_lets +onlyGivenNames x; have hx : ∀ a, x a = x a := (fun _ => rfl); clear hx; subst x)
    | (extract_lets +onlyGivenNames x; clear_value x)
    | with_reducible apply State.modRun_steady
    | with_reducible apply State.modTask_steady
    | with_reducible apply State.fetchDesc_steady
    | (with_reducible refine Steady.of_fst ?_ (by assumption))
    | (with_reducible refine Steady.of_snd ?_ (by assumption))
    | split

theorem State.fetchRange_steady {r s : State} {fe : FlowEntry} {id : Nat} {a3 : Prod Nat Nat} (h : Steady r s) :
    Steady r (State.fetchRange s fe id a3) := by
  unfold State.fetchRange
  repeat' first
    | with_reducible assumption
    | intro _
    | with_reducible apply State.readFor_steady
    | with_reducible apply State.modTask_steady

theorem State.headOver_steady {r s : State} {fe : FlowEntry} {id : Nat} {record : Nat} (h : Steady r s) :
    Steady r (State.headOver s fe id record) := by
  unfold State.headOver
  repeat' first
    | with_reducible assumption
    | intro _
    | (extract_lets +onlyGivenNames x; with_reducible refine Steady.name (r := r) (s := x) ?_ (fun hx => ?_); (on_goal 2 => clear_value x); (on_goal 1 => subst x))
    | (extract_lets +onlyGivenNames x; have hx : ∀ a, x a = x a := (fun _ => rfl); clear hx; subst x)
    | (extract_lets +onlyGivenNames x; clear_value x)
    | with_reducible apply Steady.ite
    | with_reducible apply State.countOverclass_steady
    | with_reducible apply State.stopTask_steady
    | with_reducible apply State.modTask_steady
    | (with_reducible refine Steady.of_fst ?_ (by assumption))
    | (with_reducible refine Steady.of_snd ?_ (by assumption))
    | split

theorem State.startReads_steady {r s : State} {fe : FlowEntry} {id : Nat} (h : Steady r s) :
    Steady r (State.startReads s fe id) := by
  unfold State.startReads
  repeat' first
    | with_reducible assumption
    | intro _
    | (extract_lets +onlyGivenNames x; with_reducible refine Steady.name (r := r) (s := x) ?_ (fun hx => ?_); (on_goal 2 => clear_value x); (on_goal 1 => subst x))
    | (extract_lets +onlyGivenNames x; with_reducible refine Steady.name (r := r) (s := x.1) ?_ (fun hx => ?_); (on_goal 2 => clear_value x); (on_goal 1 => subst x))
    | (extract_lets +onlyGivenNames x; have hx : ∀ a, x a = x a := (fun _ => rfl); clear hx; subst x)
    | (extract_lets +onlyGivenNames x; clear_value x)
    | with_reducible apply Steady.ite
    | with_reducible apply State.modTask_steady
    | with_reducible apply State.fetchRange_steady
    | with_reducible apply State.headOver_steady
    | with_reducible apply Steady.foldl
    | with_reducible apply Steady.foldl_fst
    | (with_reducible refine Steady.of_fst ?_ (by assumption))
    | (with_reducible refine Steady.of_snd ?_ (by assumption))
    | split

theorem State.startEntry_steady {r s : State} {fe : FlowEntry} {id : Nat} (h : Steady r s) :
    Steady r (State.startEntry s fe id) := by
  unfold State.startEntry
  repeat' first
    | with_reducible assumption
    | intro _
    | (extract_lets +onlyGivenNames x; with_reducible refine Steady.name (r := r) (s := x) ?_ (fun hx => ?_); (on_goal 2 => clear_value x); (on_goal 1 => subst x))
    | (extract_lets +onlyGivenNames x; have hx : ∀ a, x a = x a := (fun _ => rfl); clear hx; subst x)
    | (extract_lets +onlyGivenNames x; clear_value x)
    | with_reducible apply Steady.ite
    | with_reducible apply State.stopTask_steady
    | with_reducible apply State.windowFail_steady
    | with_reducible apply State.countOverclass_steady
    | with_reducible apply State.startChain_steady
    | with_reducible apply State.modRun_steady
    | with_reducible apply State.modTask_steady
    | with_reducible apply State.startReads_steady
    | (with_reducible refine Steady.of_fst ?_ (by assumption))
    | (with_reducible refine Steady.of_snd ?_ (by assumption))
    | split

theorem State.takeEntry_steady {r s : State} {a1 : SqRing} {d : List Byte} (h : Steady r s) :
    Steady r (State.takeEntry s a1 d) := by
  unfold State.takeEntry
  repeat' first
    | with_reducible assumption
    | intro _
    | (extract_lets +onlyGivenNames x; with_reducible refine Steady.name (r := r) (s := x) ?_ (fun hx => ?_); (on_goal 2 => clear_value x); (on_goal 1 => subst x))
    | (extract_lets +onlyGivenNames x; have hx : ∀ a, x a = x a := (fun _ => rfl); clear hx; subst x)
    | (extract_lets +onlyGivenNames x; clear_value x)
    | with_reducible apply Steady.ite
    | with_reducible apply State.modSq_steady
    | with_reducible apply State.accept_steady
    | with_reducible apply State.stopTask_steady
    | with_reducible apply State.finishTask_steady
    | with_reducible apply State.openFences_steady
    | with_reducible apply State.startEntry_steady
    | (with_reducible refine Steady.of_fst ?_ (by assumption))
    | (with_reducible refine Steady.of_snd ?_ (by assumption))
    | split

theorem State.takeGo_steady {r s : State} {ring : Nat} {f : Fetch} {a2 : Nat} (h : Steady r s) :
    Steady r (State.takeGo ring f a2 s) := by
  induction a2 generalizing s with
  | zero => exact h
  | succ n ih =>
    unfold State.takeGo
    repeat' first
      | with_reducible assumption
      | with_reducible apply ih
      | with_reducible apply Steady.ite
      | with_reducible apply State.fetchFail_steady
      | with_reducible apply State.takeEntry_steady
      | (with_reducible refine Steady.of_fst ?_ (by assumption))
      | (with_reducible refine Steady.of_snd ?_ (by assumption))
      | split

theorem State.fetchEntries_steady {r s : State} {f : Fetch} (h : Steady r s) :
    Steady r (State.fetchEntries s f) := by
  unfold State.fetchEntries
  repeat' first
    | with_reducible assumption
    | intro _
    | (extract_lets +onlyGivenNames x; with_reducible refine Steady.name (r := r) (s := x) ?_ (fun hx => ?_); (on_goal 2 => clear_value x); (on_goal 1 => subst x))
    | (extract_lets +onlyGivenNames x; have hx : ∀ a, x a = x a := (fun _ => rfl); clear hx; subst x)
    | (extract_lets +onlyGivenNames x; clear_value x)
    | with_reducible apply Steady.ite
    | with_reducible exact Steady.upd_scanRot (by assumption)
    | with_reducible apply State.modSq_steady
    | with_reducible apply State.takeGo_steady
    | with_reducible apply State.issueWrite_steady
    | (with_reducible refine Steady.of_fst ?_ (by assumption))
    | (with_reducible refine Steady.of_snd ?_ (by assumption))
    | split
    | with_reducible apply Steady.upd_scanRot

theorem State.dropStale_steady {r s : State} {fe : FlowEntry} {a2 : Task} (h : Steady r s) :
    Steady r (State.dropStale s fe a2) := by
  unfold State.dropStale
  repeat' first
    | with_reducible assumption
    | intro _
    | (extract_lets +onlyGivenNames x; with_reducible refine Steady.name (r := r) (s := x) ?_ (fun hx => ?_); (on_goal 2 => clear_value x); (on_goal 1 => subst x))
    | (extract_lets +onlyGivenNames x; clear_value x)
    | with_reducible apply State.incFld_steady
    | with_reducible apply State.carryParts_steady
    | with_reducible apply State.galStale_steady
    | with_reducible apply State.stopTask_steady
    | (with_reducible refine Steady.of_fst ?_ (by assumption))
    | (with_reducible refine Steady.of_snd ?_ (by assumption))
    | split

theorem State.giveCarry_steady {r s : State} {id : Nat} (h : Steady r s) :
    Steady r (State.giveCarry s id) := by
  unfold State.giveCarry
  repeat' first
    | with_reducible assumption
    | intro _
    | (extract_lets +onlyGivenNames x; with_reducible refine Steady.name (r := r) (s := x) ?_ (fun hx => ?_); (on_goal 2 => clear_value x); (on_goal 1 => subst x))
    | (extract_lets +onlyGivenNames x; have hx : ∀ a, x a = x a := (fun _ => rfl); clear hx; subst x)
    | (extract_lets +onlyGivenNames x; clear_value x)
    | with_reducible apply State.modTask_steady
    | with_reducible apply State.modPort_steady
    | (with_reducible refine Steady.of_fst ?_ (by assumption))
    | (with_reducible refine Steady.of_snd ?_ (by assumption))
    | split

theorem State.releaseTask_steady {r s : State} {a1 : Task} {fe : FlowEntry} {due : Nat} (h : Steady r s) :
    Steady r (State.releaseTask s a1 fe due) := by
  unfold State.releaseTask
  repeat' first
    | with_reducible assumption
    | intro _
    | (extract_lets +onlyGivenNames x; with_reducible refine Steady.name (r := r) (s := x) ?_ (fun hx => ?_); (on_goal 2 => clear_value x); (on_goal 1 => subst x))
    | (extract_lets +onlyGivenNames x; have hx : ∀ a, x a = x a := (fun _ => rfl); clear hx; subst x)
    | (extract_lets +onlyGivenNames x; clear_value x)
    | with_reducible apply Steady.ite
    | with_reducible apply State.advance_steady
    | with_reducible apply State.dropStale_steady
    | with_reducible apply State.modRun_steady
    | with_reducible apply State.modTask_steady
    | with_reducible apply State.startReads_steady
    | with_reducible apply State.giveCarry_steady
    | split

theorem State.taskRelease_steady {r s : State} (h : Steady r s) :
    Steady r (State.taskRelease s) := by
  unfold State.taskRelease
  repeat' first
    | with_reducible assumption
    | with_reducible apply Steady.ite
    | with_reducible apply State.releaseTask_steady
    | (with_reducible refine Steady.of_fst ?_ (by assumption))
    | (with_reducible refine Steady.of_snd ?_ (by assumption))
    | split

theorem State.postLost_steady {r s : State} {fe : FlowEntry} {b : LiveBinding} {sl : Nat} {f : Fetch} {part : Prod Nat Nat} (h : Steady r s) :
    Steady r (State.postLost s fe b sl f part) := by
  unfold State.postLost
  repeat' first
    | with_reducible assumption
    | intro _
    | (extract_lets +onlyGivenNames x; with_reducible refine Steady.name (r := r) (s := x) ?_ (fun hx => ?_); (on_goal 2 => clear_value x); (on_goal 1 => subst x))
    | (extract_lets +onlyGivenNames x; clear_value x)
    | with_reducible apply State.accept_steady
    | with_reducible apply State.stopTask_steady
    | with_reducible apply State.fetchFail_steady
    | (with_reducible refine Steady.of_fst ?_ (by assumption))
    | (with_reducible refine Steady.of_snd ?_ (by assumption))
    | split

theorem State.popPost_steady {r s : State} {p : Nat} {age : Nat} (h : Steady r s) :
    Steady r (State.popPost s p age) := by
  unfold State.popPost
  repeat' first
    | with_reducible assumption
    | intro _
    | with_reducible apply State.modPort_steady

theorem State.badSlot_steady {r s : State} {fe : FlowEntry} {b : LiveBinding} {sl : Nat} (h : Steady r s) :
    Steady r (State.badSlot s fe b sl) := by
  unfold State.badSlot
  repeat' first
    | with_reducible assumption
    | with_reducible apply State.postEntry_steady

theorem State.stamp_steady {r s : State} {a1 : SlotRec} {tArr : Nat} (h : Steady r s) :
    Steady r (State.stamp s a1 tArr).1 := by
  unfold State.stamp
  repeat' first
    | with_reducible assumption
    | with_reducible apply Steady.ite
    | with_reducible apply State.incFld_steady
    | split

theorem State.postTaken_steady {r s : State} {fe : FlowEntry} {b : LiveBinding} {sl : Nat} {c : Nat} {a5 : SlotRec} {f : Fetch} (h : Steady r s) :
    Steady r (State.postTaken s fe b sl c a5 f) := by
  unfold State.postTaken
  repeat' first
    | with_reducible assumption
    | intro _
    | (extract_lets +onlyGivenNames x; with_reducible refine Steady.name (r := r) (s := x) ?_ (fun hx => ?_); (on_goal 2 => clear_value x); (on_goal 1 => subst x))
    | (extract_lets +onlyGivenNames x; have hx : ∀ a, x a = x a := (fun _ => rfl); clear hx; subst x)
    | (extract_lets +onlyGivenNames x; clear_value x)
    | with_reducible apply Steady.ite
    | with_reducible apply State.postEntry_steady
    | with_reducible apply State.accept_steady
    | with_reducible apply State.stopTask_steady
    | with_reducible apply State.countOverclass_steady
    | with_reducible apply State.startChain_steady
    | with_reducible apply State.modRun_steady
    | with_reducible apply State.startReads_steady
    | with_reducible apply State.giveCarry_steady
    | (with_reducible refine Steady.of_fst ?_ (by assumption))
    | (with_reducible refine Steady.of_snd ?_ (by assumption))
    | split

theorem State.takePost_steady {r s : State} {p : Nat} {f : Fetch} (h : Steady r s) :
    Steady r (State.takePost s p f) := by
  unfold State.takePost
  repeat' first
    | with_reducible assumption
    | intro _
    | (extract_lets +onlyGivenNames x; with_reducible refine Steady.name (r := r) (s := x) ?_ (fun hx => ?_); (on_goal 2 => clear_value x); (on_goal 1 => subst x))
    | (extract_lets +onlyGivenNames x; clear_value x)
    | with_reducible apply Steady.ite
    | with_reducible apply State.postLost_steady
    | with_reducible apply State.popPost_steady
    | with_reducible apply State.badSlot_steady
    | with_reducible apply State.stamp_steady
    | with_reducible apply State.incFld_steady
    | with_reducible apply State.carryParts_steady
    | with_reducible apply State.postEntry_steady
    | with_reducible apply State.accept_steady
    | with_reducible apply State.stopTask_steady
    | with_reducible apply State.postTaken_steady
    | (with_reducible refine Steady.of_fst ?_ (by assumption))
    | (with_reducible refine Steady.of_snd ?_ (by assumption))
    | split

theorem State.skipTick_steady {r s : State} {f : Nat} (h : Steady r s) :
    Steady r (State.skipTick s f) := by
  unfold State.skipTick
  repeat' first
    | with_reducible assumption
    | with_reducible apply State.incFld_steady

theorem State.acceptFrame_steady {r s : State} {fe : FlowEntry} {a2 : Task} {sk : Nat} (h : Steady r s) :
    Steady r (State.acceptFrame s fe a2 sk).1 := by
  unfold State.acceptFrame
  repeat' first
    | with_reducible assumption
    | intro _
    | (extract_lets +onlyGivenNames x; with_reducible refine Steady.name (r := r) (s := x) ?_ (fun hx => ?_); (on_goal 2 => clear_value x); (on_goal 1 => subst x))
    | (extract_lets +onlyGivenNames x; have hx : ∀ a, x a = x a := (fun _ => rfl); clear hx; subst x)
    | (extract_lets +onlyGivenNames x; clear_value x)
    | with_reducible apply Steady.ite
    | with_reducible apply State.modRun_steady
    | with_reducible apply State.accept_steady
    | with_reducible apply State.modTask_steady
    | (with_reducible refine Steady.of_fst ?_ (by assumption))
    | (with_reducible refine Steady.of_snd ?_ (by assumption))
    | split

theorem State.synthRepeat_steady {r s : State} {fe : FlowEntry} {b : LiveBinding} {a3 : Nat} {sk : Nat} (h : Steady r s) :
    Steady r (State.synthRepeat s fe b a3 sk) := by
  unfold State.synthRepeat
  repeat' first
    | with_reducible assumption
    | (extract_lets +onlyGivenNames x; with_reducible refine Steady.name (r := r) (s := x) ?_ (fun hx => ?_); (on_goal 2 => clear_value x); (on_goal 1 => subst x))
    | (extract_lets +onlyGivenNames x; clear_value x)
    | with_reducible apply Steady.ite
    | with_reducible apply State.skipTick_steady
    | with_reducible apply State.acceptFrame_steady
    | with_reducible apply State.startReads_steady
    | (with_reducible refine Steady.of_fst ?_ (by assumption))
    | (with_reducible refine Steady.of_snd ?_ (by assumption))
    | split

theorem State.takeFrame_steady {r s : State} {fe : FlowEntry} {e : EncEntry} {b : LiveBinding} {q : Post} {c : Nat} {a6 : SlotRec} {a7 : Nat} {sk : Nat} {f : Fetch} (h : Steady r s) :
    Steady r (State.takeFrame s fe e b q c a6 a7 sk f) := by
  unfold State.takeFrame
  repeat' first
    | with_reducible assumption
    | intro _
    | (extract_lets +onlyGivenNames x; with_reducible refine Steady.name (r := r) (s := x) ?_ (fun hx => ?_); (on_goal 2 => clear_value x); (on_goal 1 => subst x))
    | (extract_lets +onlyGivenNames x; have hx : ∀ a, x a = x a := (fun _ => rfl); clear hx; subst x)
    | (extract_lets +onlyGivenNames x; clear_value x)
    | with_reducible apply Steady.ite
    | with_reducible apply State.postLost_steady
    | with_reducible apply State.popPost_steady
    | with_reducible apply State.acceptFrame_steady
    | with_reducible apply State.stopTask_steady
    | with_reducible apply State.skipTick_steady
    | with_reducible apply State.modEnc_steady
    | with_reducible apply State.startReads_steady
    | (with_reducible refine Steady.of_fst ?_ (by assumption))
    | (with_reducible refine Steady.of_snd ?_ (by assumption))
    | split

theorem State.encodeStart_steady {r s : State} {flow : Nat} {f : Fetch} (h : Steady r s) :
    Steady r (State.encodeStart s flow f) := by
  unfold State.encodeStart
  repeat' first
    | with_reducible assumption
    | intro _
    | (extract_lets +onlyGivenNames x; with_reducible refine Steady.name (r := r) (s := x) ?_ (fun hx => ?_); (on_goal 2 => clear_value x); (on_goal 1 => subst x))
    | (extract_lets +onlyGivenNames x; have hx : ∀ a, x a = x a := (fun _ => rfl); clear hx; subst x)
    | (extract_lets +onlyGivenNames x; clear_value x)
    | with_reducible apply Steady.ite
    | with_reducible apply State.modEnc_steady
    | with_reducible apply State.advance_steady
    | with_reducible apply State.skipTick_steady
    | with_reducible apply State.synthRepeat_steady
    | with_reducible apply State.postLost_steady
    | with_reducible apply State.popPost_steady
    | with_reducible apply State.badSlot_steady
    | with_reducible apply State.stamp_steady
    | with_reducible apply State.incFld_steady
    | with_reducible apply State.postEntry_steady
    | with_reducible apply State.carryControl_steady
    | with_reducible apply State.takeFrame_steady
    | (with_reducible refine Steady.of_fst ?_ (by assumption))
    | (with_reducible refine Steady.of_snd ?_ (by assumption))
    | split

theorem State.gotAll_steady {r s : State} {fe : FlowEntry} {a2 : Task} (h : Steady r s) :
    Steady r (State.gotAll s fe a2) := by
  unfold State.gotAll
  repeat' first
    | with_reducible assumption
    | intro _
    | (extract_lets +onlyGivenNames x; with_reducible refine Steady.name (r := r) (s := x) ?_ (fun hx => ?_); (on_goal 2 => clear_value x); (on_goal 1 => subst x))
    | (extract_lets +onlyGivenNames x; with_reducible refine Steady.name (r := r) (s := x.1) ?_ (fun hx => ?_); (on_goal 2 => clear_value x); (on_goal 1 => subst x))
    | (extract_lets +onlyGivenNames x; have hx : ∀ a, x a = x a := (fun _ => rfl); clear hx; subst x)
    | (extract_lets +onlyGivenNames x; clear_value x)
    | with_reducible apply Steady.ite
    | with_reducible apply State.stopTask_steady
    | with_reducible apply State.headOver_steady
    | with_reducible apply State.modTask_steady
    | with_reducible apply State.fetchRange_steady
    | with_reducible apply Steady.foldl
    | with_reducible apply Steady.foldl_fst
    | split

theorem State.gotBytes_steady {r s : State} {id : Nat} {a2 : Nat} {d : List Byte} (h : Steady r s) :
    Steady r (State.gotBytes s id a2 d) := by
  unfold State.gotBytes
  repeat' first
    | with_reducible assumption
    | intro _
    | (extract_lets +onlyGivenNames x; with_reducible refine Steady.name (r := r) (s := x) ?_ (fun hx => ?_); (on_goal 2 => clear_value x); (on_goal 1 => subst x))
    | (extract_lets +onlyGivenNames x; clear_value x)
    | with_reducible apply Steady.ite
    | with_reducible apply State.setTask_steady
    | with_reducible apply State.gotAll_steady
    | (with_reducible refine Steady.of_fst ?_ (by assumption))
    | (with_reducible refine Steady.of_snd ?_ (by assumption))
    | split

end Sys2Proof.Machine
end

