-- ==== Sys2Proof/Laws/FrameFabric.lean ====
section
/-! SUPPORT. What the operations of Machine/Fabric.lean leave as it is. -/

set_option Elab.async false
set_option linter.unusedTactic false
set_option linter.unreachableTactic false

namespace Sys2Proof.Machine

open Sys2Proof.Safety

theorem State.triggerStep_steady {r s s' : State} {t g : Nat} (h : Steady r s) (ht : s.triggerStep t g = some s') :
    Steady r s' := by
  unfold State.triggerStep at ht
  split at ht
  · cases ht
  · split at ht
    · cases ht; exact State.stepGroup_steady h
    · split at ht
      · cases ht; exact State.modGroup_steady h
      · cases ht; exact State.incFld_steady h

theorem State.stepTrigger_steady {r s : State} {t g : Nat} (h : Steady r s) : Steady r (State.stepTrigger s t g) := by
  unfold State.stepTrigger
  split
  · exact State.triggerStep_steady h ‹_›
  · exact State.incFld_steady h

theorem State.altOp_steady {r s : State} {a1 : Nat} {f : Nat} {op : Nat} (h : Steady r s) :
    Steady r (State.altOp s a1 f op) := by
  unfold State.altOp
  repeat' first
    | with_reducible assumption
    | intro _
    | with_reducible apply Steady.ite
    | with_reducible apply State.setAlt_steady
    | with_reducible apply State.incFld_steady
    | (with_reducible refine Steady.of_fst ?_ (by assumption))
    | (with_reducible refine Steady.of_snd ?_ (by assumption))
    | split

theorem State.deltaDonePush_steady {r s : State} {a1 : Nat} {v : Word} (h : Steady r s) :
    Steady r (State.deltaDonePush s a1 v) := by
  unfold State.deltaDonePush
  repeat' first
    | with_reducible assumption
    | with_reducible apply State.layerDone_steady
    | with_reducible apply State.incFld_steady
    | (with_reducible refine Steady.of_fst ?_ (by assumption))
    | (with_reducible refine Steady.of_snd ?_ (by assumption))
    | split

theorem State.handlePush_steady {r s : State} {a1 : Nat} {p : Push} {f : Fetch} (h : Steady r s) :
    Steady r (State.handlePush s a1 p f) := by
  unfold State.handlePush
  repeat' first
    | with_reducible assumption
    | (extract_lets +onlyGivenNames x; with_reducible refine Steady.name (r := r) (s := x) ?_ (fun hx => ?_); (on_goal 2 => clear_value x); (on_goal 1 => subst x))
    | (extract_lets +onlyGivenNames x; clear_value x)
    | with_reducible apply Steady.ite
    | with_reducible apply State.doorbellPush_steady
    | with_reducible apply State.cqDoorbellPush_steady
    | with_reducible apply State.livePushed_steady
    | with_reducible apply State.pktPush_steady
    | with_reducible apply State.memberLeave_steady
    | with_reducible apply State.stepTrigger_steady
    | with_reducible apply State.galSkip_steady
    | with_reducible apply State.altOp_steady
    | with_reducible apply State.deltaDonePush_steady
    | split

theorem State.drainOne_steady {r s : State} {a1 : Nat} {f : Fetch} (h : Steady r s) :
    Steady r (State.drainOne s a1 f) := by
  unfold State.drainOne
  split
  · exact h
  · rename_i p rest hp
    refine State.handlePush_steady (h.modTen (fun x _ hx hl => ?_))
    subst hx
    rw [hp] at hl
    simp only [List.length_cons] at hl
    exact Nat.le_of_lt hl

theorem State.pushWrite_steady {r s : State} {q : CsReq} {t : Nat} {off : Nat} {v : Word} {die : Bool} {f : Fetch} (h : Steady r s)
    (hn : s.stalls t = false) : Steady r (State.pushWrite s q t off v die f) := by
  unfold State.pushWrite
  have hx := State.enqueue_steady (q := q) (off := off) (v := v) (die := die) h hn
  exact Steady.ite (State.drainOne_steady hx) hx

theorem State.deltaLost_steady {r s : State} {id : Nat} {idx : Nat} {a3 : Txn} (h : Steady r s) :
    Steady r (State.deltaLost s id idx a3) := by
  unfold State.deltaLost
  repeat' first
    | with_reducible assumption
    | intro _
    | with_reducible apply Steady.ite
    | with_reducible apply State.deltaAbort_steady
    | with_reducible apply State.raise_steady
    | split

theorem State.taskLost_steady {r s : State} {id : Nat} {a2 : Txn} (h : Steady r s) :
    Steady r (State.taskLost s id a2) := by
  unfold State.taskLost
  repeat' first
    | with_reducible assumption
    | intro _
    | with_reducible apply Steady.ite
    | with_reducible apply State.stopTask_steady
    | with_reducible apply State.raise_steady
    | split

theorem State.gotError_steady {r s : State} {a1 : Txn} (h : Steady r s) :
    Steady r (State.gotError s a1) := by
  unfold State.gotError
  repeat' first
    | with_reducible assumption
    | intro _
    | (extract_lets +onlyGivenNames x; with_reducible refine Steady.name (r := r) (s := x) ?_ (fun hx => ?_); (on_goal 2 => clear_value x); (on_goal 1 => subst x))
    | (extract_lets +onlyGivenNames x; have hx : ∀ a, x a = x a := (fun _ => rfl); clear hx; subst x)
    | (extract_lets +onlyGivenNames x; clear_value x)
    | with_reducible apply Steady.ite
    | with_reducible apply State.oneRead_steady
    | with_reducible apply State.deltaLost_steady
    | with_reducible apply State.taskLost_steady
    | with_reducible apply State.haltDelta_steady
    | with_reducible apply State.modTask_steady
    | with_reducible apply State.ackedOutput_steady
    | with_reducible apply State.raise_steady
    | with_reducible apply State.ackedUnit_steady
    | with_reducible apply State.abortUnit_steady
    | with_reducible apply State.ackedChunk_steady
    | with_reducible apply State.ckptAnswered_steady
    | with_reducible apply State.incFld_steady
    | with_reducible apply State.imageAnswered_steady
    | with_reducible apply State.cqInterrupt_steady
    | with_reducible apply State.freeSlotRecord_steady
    | with_reducible apply State.lostRecord_steady
    | (with_reducible refine Steady.of_fst ?_ (by assumption))
    | (with_reducible refine Steady.of_snd ?_ (by assumption))
    | split

theorem State.fencePort_steady {r s : State} {p : Nat} (h : Steady r s) :
    Steady r (State.fencePort s p) := by
  unfold State.fencePort
  repeat' first
    | with_reducible assumption
    | intro _
    | (extract_lets +onlyGivenNames x; with_reducible refine Steady.name (r := r) (s := x) ?_ (fun hx => ?_); (on_goal 2 => clear_value x); (on_goal 1 => subst x))
    | (extract_lets +onlyGivenNames x; with_reducible refine Steady.name (r := r) (s := x.1) ?_ (fun hx => ?_); (on_goal 2 => clear_value x); (on_goal 1 => subst x))
    | (extract_lets +onlyGivenNames x; have hx : ∀ a, x a = x a := (fun _ => rfl); clear hx; subst x)
    | (extract_lets +onlyGivenNames x; clear_value x)
    | with_reducible apply Steady.ite
    | with_reducible exact Steady.upd_crcFails_fencedUnits (by assumption)
    | with_reducible exact Steady.upd_txns (by assumption)
    | with_reducible apply State.setFlds_steady
    | with_reducible apply State.incFld_steady
    | with_reducible apply State.raise_steady
    | with_reducible apply State.freeMover_steady
    | with_reducible apply State.gotError_steady
    | with_reducible apply Steady.foldl
    | with_reducible apply Steady.foldl_fst
    | split
    | with_reducible apply Steady.upd_crcFails_fencedUnits
    | with_reducible apply Steady.upd_txns

theorem State.badMsg_steady {r s : State} (h : Steady r s) :
    Steady r (State.badMsg s) := by
  unfold State.badMsg
  repeat' first
    | with_reducible assumption
    | with_reducible exact Steady.upd_resp (by assumption)
    | with_reducible apply State.incFld_steady
    | with_reducible apply Steady.upd_resp

theorem State.diePush_steady {r s : State} {a1 : Nat} {w : Nat} {f : Fetch} (h : Steady r s) :
    Steady r (State.diePush s a1 w f) := by
  unfold State.diePush
  extract_lets a b c
  clear_value a b c
  split
  · exact h.modTen (fun x _ _ hl => hl)
  · rename_i hc
    simp only [Bool.or_eq_true, not_or, Bool.not_eq_true] at hc
    exact State.pushWrite_steady h hc.1

theorem State.message_steady {r s : State} {node : Nat} {type : Nat} {p : List Byte} {f : Fetch} (h : Steady r s) :
    Steady r (State.message s node type p f) := by
  unfold State.message
  repeat' first
    | with_reducible assumption
    | intro _
    | (extract_lets +onlyGivenNames x; with_reducible refine Steady.name (r := r) (s := x) ?_ (fun hx => ?_); (on_goal 2 => clear_value x); (on_goal 1 => subst x))
    | (extract_lets +onlyGivenNames x; clear_value x)
    | with_reducible apply Steady.ite
    | with_reducible exact Steady.upd_resp (by assumption)
    | with_reducible apply State.badMsg_steady
    | with_reducible apply State.diePush_steady
    | with_reducible apply State.stepTrigger_steady
    | with_reducible apply State.layerDone_steady
    | with_reducible apply State.altOp_steady
    | (with_reducible refine Steady.of_fst ?_ (by assumption))
    | (with_reducible refine Steady.of_snd ?_ (by assumption))
    | split
    | with_reducible apply Steady.upd_resp

theorem State.freeHeld_steady {r s : State} (h : Steady r s) :
    Steady r (State.freeHeld s) := by
  unfold State.freeHeld
  repeat' first
    | with_reducible assumption
    | intro _
    | (extract_lets +onlyGivenNames x; with_reducible refine Steady.name (r := r) (s := x) ?_ (fun hx => ?_); (on_goal 2 => clear_value x); (on_goal 1 => subst x))
    | (extract_lets +onlyGivenNames x; have hx : ∀ a, x a = x a := (fun _ => rfl); clear hx; subst x)
    | (extract_lets +onlyGivenNames x; clear_value x)
    | with_reducible apply State.releaseHeld_steady
    | with_reducible apply State.releaseUnits_steady

theorem State.groupStart_steady {r s : State} {g : Nat} (h : Steady r s) :
    Steady r (State.groupStart s g) := by
  unfold State.groupStart
  repeat' first
    | with_reducible assumption
    | with_reducible apply State.freeHeld_steady
    | with_reducible apply State.advance_steady
    | (with_reducible refine Steady.of_fst ?_ (by assumption))
    | (with_reducible refine Steady.of_snd ?_ (by assumption))
    | split

theorem State.retireTxn_steady {r s : State} {a1 : Txn} (h : Steady r s) :
    Steady r (State.retireTxn s a1) := by
  unfold State.retireTxn
  repeat' first
    | with_reducible assumption
    | intro _
    | with_reducible exact Steady.upd_txns_crcFails (by assumption)
    | with_reducible apply State.freeMover_steady
    | with_reducible apply Steady.upd_txns_crcFails

theorem State.lateRead_steady {r s : State} {a1 : Txn} (h : Steady r s) :
    Steady r (State.lateRead s a1) := by
  unfold State.lateRead
  repeat' first
    | with_reducible assumption
    | with_reducible apply Steady.ite
    | with_reducible apply State.incFld_steady
    | (with_reducible refine Steady.of_fst ?_ (by assumption))
    | (with_reducible refine Steady.of_snd ?_ (by assumption))
    | split

theorem State.gotData_steady {r s : State} {a1 : Txn} {d : List Byte} (h : Steady r s) :
    Steady r (State.gotData s a1 d) := by
  unfold State.gotData
  repeat' first
    | with_reducible assumption
    | intro _
    | (extract_lets +onlyGivenNames x; with_reducible refine Steady.name (r := r) (s := x) ?_ (fun hx => ?_); (on_goal 2 => clear_value x); (on_goal 1 => subst x))
    | (extract_lets +onlyGivenNames x; clear_value x)
    | with_reducible apply Steady.ite
    | with_reducible apply State.oneRead_steady
    | with_reducible apply State.gotAlt_steady
    | with_reducible apply State.gotDesc_steady
    | with_reducible apply State.gotSource_steady
    | with_reducible apply State.gotBytes_steady
    | with_reducible apply State.gotRecord_steady
    | (with_reducible refine Steady.of_fst ?_ (by assumption))
    | (with_reducible refine Steady.of_snd ?_ (by assumption))
    | split

theorem State.gotAck_steady {r s : State} {a1 : Txn} (h : Steady r s) :
    Steady r (State.gotAck s a1) := by
  unfold State.gotAck
  repeat' first
    | with_reducible assumption
    | with_reducible apply Steady.ite
    | with_reducible apply State.ackedXfer_steady
    | with_reducible apply State.ackedOutput_steady
    | with_reducible apply State.ackedUnit_steady
    | with_reducible apply State.cqInterrupt_steady
    | with_reducible apply State.freeSlotRecord_steady
    | with_reducible apply State.ackedChunk_steady
    | with_reducible apply State.ckptAnswered_steady
    | with_reducible apply State.imageAnswered_steady
    | (with_reducible refine Steady.of_fst ?_ (by assumption))
    | (with_reducible refine Steady.of_snd ?_ (by assumption))
    | split

theorem State.response_steady {r s : State} {tag : Nat} {isRead : Bool} {ok : Bool} {d : List Byte} (h : Steady r s) :
    Steady r (State.response s tag isRead ok d) := by
  unfold State.response
  repeat' first
    | with_reducible assumption
    | intro _
    | (extract_lets +onlyGivenNames x; with_reducible refine Steady.name (r := r) (s := x) ?_ (fun hx => ?_); (on_goal 2 => clear_value x); (on_goal 1 => subst x))
    | (extract_lets +onlyGivenNames x; have hx : ∀ a, x a = x a := (fun _ => rfl); clear hx; subst x)
    | (extract_lets +onlyGivenNames x; clear_value x)
    | with_reducible apply Steady.ite
    | with_reducible apply State.retireTxn_steady
    | with_reducible apply State.lateRead_steady
    | with_reducible apply State.gotError_steady
    | with_reducible apply State.gotData_steady
    | with_reducible apply State.gotAck_steady
    | (with_reducible refine Steady.of_fst ?_ (by assumption))
    | (with_reducible refine Steady.of_snd ?_ (by assumption))
    | split

theorem State.fabricTimeout_steady {r s : State} {tag : Nat} (h : Steady r s) :
    Steady r (State.fabricTimeout s tag) := by
  unfold State.fabricTimeout
  repeat' first
    | with_reducible assumption
    | intro _
    | (extract_lets +onlyGivenNames x; with_reducible refine Steady.name (r := r) (s := x) ?_ (fun hx => ?_); (on_goal 2 => clear_value x); (on_goal 1 => subst x))
    | (extract_lets +onlyGivenNames x; have hx : ∀ a, x a = x a := (fun _ => rfl); clear hx; subst x)
    | (extract_lets +onlyGivenNames x; clear_value x)
    | with_reducible apply Steady.ite
    | with_reducible exact Steady.upd_txns (by assumption)
    | with_reducible apply State.incFld_steady
    | with_reducible apply State.advance_steady
    | with_reducible apply State.freeMover_steady
    | with_reducible apply State.gotError_steady
    | (with_reducible refine Steady.of_fst ?_ (by assumption))
    | (with_reducible refine Steady.of_snd ?_ (by assumption))
    | split
    | with_reducible apply Steady.upd_txns

theorem State.linkFail_steady {r s : State} {p : Nat} (h : Steady r s) :
    Steady r (State.linkFail s p) := by
  unfold State.linkFail
  repeat' first
    | with_reducible assumption
    | intro _
    | (extract_lets +onlyGivenNames x; with_reducible refine Steady.name (r := r) (s := x) ?_ (fun hx => ?_); (on_goal 2 => clear_value x); (on_goal 1 => subst x))
    | (extract_lets +onlyGivenNames x; have hx : ∀ a, x a = x a := (fun _ => rfl); clear hx; subst x)
    | (extract_lets +onlyGivenNames x; clear_value x)
    | with_reducible apply Steady.ite
    | with_reducible exact Steady.upd_crcFails (by assumption)
    | with_reducible apply State.fencePort_steady
    | with_reducible apply State.incFld_steady
    | split
    | with_reducible apply Steady.upd_crcFails

theorem State.openStagger_steady {r s : State} (h : Steady r s) :
    Steady r (State.openStagger s) := by
  unfold State.openStagger
  repeat' first
    | with_reducible assumption
    | (extract_lets +onlyGivenNames x; with_reducible refine Steady.name (r := r) (s := x) ?_ (fun hx => ?_); (on_goal 2 => clear_value x); (on_goal 1 => subst x))
    | (extract_lets +onlyGivenNames x; clear_value x)
    | with_reducible apply Steady.ite
    | with_reducible exact Steady.upd_stagger (by assumption)
    | split
    | with_reducible apply Steady.upd_stagger

theorem State.staggerLimit_steady {r s : State} (h : Steady r s) :
    Steady r (State.staggerLimit s) := by
  unfold State.staggerLimit
  repeat' first
    | with_reducible assumption
    | intro _
    | with_reducible apply State.freeHeld_steady
    | with_reducible apply State.advance_steady
    | (with_reducible refine Steady.of_fst ?_ (by assumption))
    | (with_reducible refine Steady.of_snd ?_ (by assumption))
    | split

theorem State.staggerClose_steady {r s : State} (h : Steady r s) :
    Steady r (State.staggerClose s) := by
  unfold State.staggerClose
  repeat' first
    | with_reducible assumption
    | with_reducible exact Steady.upd_stagger (by assumption)
    | with_reducible apply State.freeHeld_steady
    | with_reducible apply State.advance_steady
    | (with_reducible refine Steady.of_fst ?_ (by assumption))
    | (with_reducible refine Steady.of_snd ?_ (by assumption))
    | split
    | with_reducible apply Steady.upd_stagger

end Sys2Proof.Machine
end

