-- ==== Sys2Proof/Laws/FramePower.lean ====
section
/-! SUPPORT. What the operations of Machine/Power.lean leave as it is. -/

set_option Elab.async false
set_option linter.unusedTactic false
set_option linter.unreachableTactic false

namespace Sys2Proof.Machine

open Sys2Proof.Safety

theorem State.modPtc_steady {r s : State} {g : PtcRun → PtcRun} (h : Steady r s) :
    Steady r (State.modPtc s g) := by
  unfold State.modPtc
  repeat' first
    | with_reducible assumption
    | with_reducible exact Steady.upd_ptc (by assumption)
    | with_reducible apply Steady.upd_ptc

theorem State.record_steady {r s : State} {i : Nat} (h : Steady r s) :
    Steady r (State.record s i) := by
  unfold State.record
  repeat' first
    | with_reducible assumption
    | intro _
    | (extract_lets +onlyGivenNames x; with_reducible refine Steady.name (r := r) (s := x) ?_ (fun hx => ?_); (on_goal 2 => clear_value x); (on_goal 1 => subst x))
    | (extract_lets +onlyGivenNames x; have hx : ∀ a, x a = x a := (fun _ => rfl); clear hx; subst x)
    | (extract_lets +onlyGivenNames x; clear_value x)
    | with_reducible apply Steady.ite
    | with_reducible exact Steady.upd_ptc (by assumption)
    | with_reducible apply State.setFld_steady
    | (with_reducible refine Steady.of_fst ?_ (by assumption))
    | (with_reducible refine Steady.of_snd ?_ (by assumption))
    | split
    | with_reducible apply Steady.upd_ptc

theorem State.bankBoost_steady {r s : State} (h : Steady r s) :
    Steady r (State.bankBoost s) := by
  unfold State.bankBoost
  repeat' first
    | with_reducible assumption
    | intro _
    | with_reducible apply Steady.ite
    | with_reducible apply State.modPtc_steady
    | (with_reducible refine Steady.of_fst ?_ (by assumption))
    | (with_reducible refine Steady.of_snd ?_ (by assumption))
    | split

theorem State.enterState_steady {r s : State} {p : Nat} (h : Steady r s) :
    Steady r (State.enterState s p) := by
  unfold State.enterState
  repeat' first
    | with_reducible assumption
    | intro _
    | (extract_lets +onlyGivenNames x; with_reducible refine Steady.name (r := r) (s := x) ?_ (fun hx => ?_); (on_goal 2 => clear_value x); (on_goal 1 => subst x))
    | (extract_lets +onlyGivenNames x; have hx : ∀ a, x a = x a := (fun _ => rfl); clear hx; subst x)
    | (extract_lets +onlyGivenNames x; clear_value x)
    | with_reducible apply Steady.ite
    | with_reducible apply State.bankBoost_steady
    | with_reducible apply State.modPtc_steady
    | split

theorem State.askVoltage_steady {r s : State} {mv : Nat} {step : Option Nat} (h : Steady r s) :
    Steady r (State.askVoltage s mv step) := by
  unfold State.askVoltage
  repeat' first
    | with_reducible assumption
    | with_reducible exact Steady.upd_ptc_pmOut (by assumption)
    | with_reducible apply Steady.upd_ptc_pmOut

theorem State.followVoltage_steady {r s : State} (h : Steady r s) :
    Steady r (State.followVoltage s) := by
  unfold State.followVoltage
  repeat' first
    | with_reducible assumption
    | (extract_lets +onlyGivenNames x; with_reducible refine Steady.name (r := r) (s := x) ?_ (fun hx => ?_); (on_goal 2 => clear_value x); (on_goal 1 => subst x))
    | (extract_lets +onlyGivenNames x; clear_value x)
    | with_reducible apply Steady.ite
    | with_reducible apply State.askVoltage_steady
    | split

theorem State.settlePtc_steady {r s : State} (h : Steady r s) :
    Steady r (State.settlePtc s) := by
  unfold State.settlePtc
  repeat' first
    | with_reducible assumption
    | intro _
    | (extract_lets +onlyGivenNames x; with_reducible refine Steady.name (r := r) (s := x) ?_ (fun hx => ?_); (on_goal 2 => clear_value x); (on_goal 1 => subst x))
    | (extract_lets +onlyGivenNames x; with_reducible refine Steady.name (r := r) (s := x.1) ?_ (fun hx => ?_); (on_goal 2 => clear_value x); (on_goal 1 => subst x))
    | (extract_lets +onlyGivenNames x; have hx : ∀ a, x a = x a := (fun _ => rfl); clear hx; subst x)
    | (extract_lets +onlyGivenNames x; clear_value x)
    | with_reducible apply Steady.ite
    | with_reducible apply State.modPtc_steady
    | with_reducible apply State.record_steady
    | with_reducible apply State.enterState_steady
    | with_reducible apply State.followVoltage_steady
    | with_reducible apply Steady.foldl
    | with_reducible apply Steady.foldl_fst
    | split

theorem State.takeLimits_steady {r s : State} (h : Steady r s) :
    Steady r (State.takeLimits s) := by
  unfold State.takeLimits
  repeat' first
    | with_reducible assumption
    | intro _
    | with_reducible apply State.modPtc_steady

theorem State.stepHot_steady {r s : State} (h : Steady r s) :
    Steady r (State.stepHot s) := by
  unfold State.stepHot
  repeat' first
    | with_reducible assumption
    | intro _
    | with_reducible apply State.modPtc_steady
    | (with_reducible refine Steady.of_fst ?_ (by assumption))
    | (with_reducible refine Steady.of_snd ?_ (by assumption))
    | split

theorem State.ptcLocal_steady {r s : State} {src : Nat} (h : Steady r s) :
    Steady r (State.ptcLocal s src) := by
  unfold State.ptcLocal
  repeat' first
    | with_reducible assumption
    | intro _
    | with_reducible apply Steady.ite
    | with_reducible apply State.settlePtc_steady
    | with_reducible apply State.modPtc_steady
    | with_reducible apply State.stepHot_steady
    | split

theorem State.startTable_steady {r s : State} (h : Steady r s) :
    Steady r (State.startTable s) := by
  unfold State.startTable
  repeat' first
    | with_reducible assumption
    | intro _
    | (extract_lets +onlyGivenNames x; with_reducible refine Steady.name (r := r) (s := x) ?_ (fun hx => ?_); (on_goal 2 => clear_value x); (on_goal 1 => subst x))
    | (extract_lets +onlyGivenNames x; have hx : ∀ a, x a = x a := (fun _ => rfl); clear hx; subst x)
    | (extract_lets +onlyGivenNames x; clear_value x)
    | with_reducible apply State.takeLimits_steady
    | with_reducible apply State.modPtc_steady
    | with_reducible apply State.setFld_steady
    | with_reducible apply State.raiseOn_steady
    | (with_reducible refine Steady.of_fst ?_ (by assumption))
    | (with_reducible refine Steady.of_snd ?_ (by assumption))
    | split

theorem State.writeBins_steady {r s : State} (h : Steady r s) :
    Steady r (State.writeBins s) := by
  unfold State.writeBins
  repeat' first
    | with_reducible assumption
    | (extract_lets +onlyGivenNames x; with_reducible refine Steady.name (r := r) (s := x) ?_ (fun hx => ?_); (on_goal 2 => clear_value x); (on_goal 1 => subst x))
    | (extract_lets +onlyGivenNames x; clear_value x)
    | with_reducible exact Steady.upd_retained (by assumption)
    | with_reducible apply State.bankBoost_steady
    | with_reducible apply Steady.upd_retained

theorem State.tableWritten_steady {r s : State} (h : Steady r s) :
    Steady r (State.tableWritten s) := by
  unfold State.tableWritten
  repeat' first
    | with_reducible assumption
    | intro _
    | (extract_lets +onlyGivenNames x; with_reducible refine Steady.name (r := r) (s := x) ?_ (fun hx => ?_); (on_goal 2 => clear_value x); (on_goal 1 => subst x))
    | (extract_lets +onlyGivenNames x; have hx : ∀ a, x a = x a := (fun _ => rfl); clear hx; subst x)
    | (extract_lets +onlyGivenNames x; clear_value x)
    | with_reducible apply Steady.ite
    | with_reducible apply State.modPtc_steady
    | with_reducible apply State.setFld_steady
    | with_reducible apply State.followVoltage_steady
    | with_reducible apply State.settlePtc_steady
    | with_reducible apply State.raiseOn_steady
    | (with_reducible refine Steady.of_fst ?_ (by assumption))
    | (with_reducible refine Steady.of_snd ?_ (by assumption))
    | split

theorem State.powerNow_steady {r s : State} (h : Steady r s) :
    Steady r (State.powerNow s).2 := by
  unfold State.powerNow
  repeat' first
    | with_reducible assumption
    | intro _
    | (extract_lets +onlyGivenNames x; with_reducible refine Steady.name (r := r) (s := x) ?_ (fun hx => ?_); (on_goal 2 => clear_value x); (on_goal 1 => subst x))
    | (extract_lets +onlyGivenNames x; have hx : ∀ a, x a = x a := (fun _ => rfl); clear hx; subst x)
    | (extract_lets +onlyGivenNames x; clear_value x)
    | with_reducible apply State.nextFree_steady
    | (with_reducible refine Steady.of_fst ?_ (by assumption))
    | (with_reducible refine Steady.of_snd ?_ (by assumption))
    | split

theorem State.meas_steady {r s : State} {m : Nat} (h : Steady r s) :
    Steady r (State.meas s m) := by
  unfold State.meas
  repeat' first
    | with_reducible assumption
    | intro _
    | (extract_lets +onlyGivenNames x; with_reducible refine Steady.name (r := r) (s := x) ?_ (fun hx => ?_); (on_goal 2 => clear_value x); (on_goal 1 => subst x))
    | (extract_lets +onlyGivenNames x; have hx : ∀ a, x a = x a := (fun _ => rfl); clear hx; subst x)
    | (extract_lets +onlyGivenNames x; clear_value x)
    | with_reducible apply Steady.ite
    | with_reducible apply State.powerNow_steady
    | with_reducible apply State.modPtc_steady
    | with_reducible apply State.raiseOn_steady
    | with_reducible apply State.settlePtc_steady
    | (with_reducible refine Steady.of_fst ?_ (by assumption))
    | (with_reducible refine Steady.of_snd ?_ (by assumption))
    | split

theorem State.vack_steady {r s : State} {mv : Nat} (h : Steady r s) :
    Steady r (State.vack s mv) := by
  unfold State.vack
  repeat' first
    | with_reducible assumption
    | intro _
    | (extract_lets +onlyGivenNames x; with_reducible refine Steady.name (r := r) (s := x) ?_ (fun hx => ?_); (on_goal 2 => clear_value x); (on_goal 1 => subst x))
    | (extract_lets +onlyGivenNames x; have hx : ∀ a, x a = x a := (fun _ => rfl); clear hx; subst x)
    | (extract_lets +onlyGivenNames x; clear_value x)
    | with_reducible apply Steady.ite
    | with_reducible apply State.modPtc_steady
    | with_reducible apply State.followVoltage_steady
    | with_reducible apply State.settlePtc_steady
    | with_reducible apply State.enterState_steady
    | (with_reducible refine Steady.of_fst ?_ (by assumption))
    | (with_reducible refine Steady.of_snd ?_ (by assumption))
    | split

theorem State.alertFall_steady {r s : State} (h : Steady r s) :
    Steady r (State.alertFall s) := by
  unfold State.alertFall
  repeat' first
    | with_reducible assumption
    | intro _
    | with_reducible apply State.settlePtc_steady
    | with_reducible apply State.modPtc_steady

theorem State.alertRise_steady {r s : State} (h : Steady r s) :
    Steady r (State.alertRise s) := by
  unfold State.alertRise
  repeat' first
    | with_reducible assumption
    | intro _
    | with_reducible apply Steady.ite
    | with_reducible apply State.modPtc_steady
    | split

theorem State.alertExpire_steady {r s : State} (h : Steady r s) :
    Steady r (State.alertExpire s) := by
  unfold State.alertExpire
  repeat' first
    | with_reducible assumption
    | intro _
    | with_reducible apply State.settlePtc_steady
    | with_reducible apply State.modPtc_steady
    | with_reducible apply State.advance_steady
    | (with_reducible refine Steady.of_fst ?_ (by assumption))
    | (with_reducible refine Steady.of_snd ?_ (by assumption))
    | split

theorem State.barrierHint_steady {r s : State} (h : Steady r s) :
    Steady r (State.barrierHint s) := by
  unfold State.barrierHint
  repeat' first
    | with_reducible assumption
    | intro _
    | with_reducible apply Steady.ite
    | with_reducible apply State.modPtc_steady
    | split

theorem State.startRamp_steady {r s : State} (h : Steady r s) :
    Steady r (State.startRamp s) := by
  unfold State.startRamp
  repeat' first
    | with_reducible assumption
    | intro _
    | (extract_lets +onlyGivenNames x; with_reducible refine Steady.name (r := r) (s := x) ?_ (fun hx => ?_); (on_goal 2 => clear_value x); (on_goal 1 => subst x))
    | (extract_lets +onlyGivenNames x; have hx : ∀ a, x a = x a := (fun _ => rfl); clear hx; subst x)
    | (extract_lets +onlyGivenNames x; clear_value x)
    | with_reducible apply Steady.ite
    | with_reducible apply State.modPtc_steady
    | split

theorem State.barrierRelease_steady {r s : State} (h : Steady r s) :
    Steady r (State.barrierRelease s) := by
  unfold State.barrierRelease
  repeat' first
    | with_reducible assumption
    | intro _
    | with_reducible apply Steady.ite
    | with_reducible apply State.openStagger_steady
    | with_reducible apply State.startRamp_steady
    | split

theorem State.rampStep_steady {r s : State} (h : Steady r s) :
    Steady r (State.rampStep s) := by
  unfold State.rampStep
  repeat' first
    | with_reducible assumption
    | intro _
    | (extract_lets +onlyGivenNames x; with_reducible refine Steady.name (r := r) (s := x) ?_ (fun hx => ?_); (on_goal 2 => clear_value x); (on_goal 1 => subst x))
    | (extract_lets +onlyGivenNames x; have hx : ∀ a, x a = x a := (fun _ => rfl); clear hx; subst x)
    | (extract_lets +onlyGivenNames x; clear_value x)
    | with_reducible apply Steady.ite
    | with_reducible apply State.advance_steady
    | with_reducible apply State.modPtc_steady
    | (with_reducible refine Steady.of_fst ?_ (by assumption))
    | (with_reducible refine Steady.of_snd ?_ (by assumption))
    | split

theorem State.hintExpire_steady {r s : State} (h : Steady r s) :
    Steady r (State.hintExpire s) := by
  unfold State.hintExpire
  repeat' first
    | with_reducible assumption
    | with_reducible apply Steady.ite
    | with_reducible apply State.startRamp_steady
    | with_reducible apply State.advance_steady
    | split

theorem State.measStale_steady {r s : State} (h : Steady r s) :
    Steady r (State.measStale s) := by
  unfold State.measStale
  repeat' first
    | with_reducible assumption
    | intro _
    | (extract_lets +onlyGivenNames x; with_reducible refine Steady.name (r := r) (s := x) ?_ (fun hx => ?_); (on_goal 2 => clear_value x); (on_goal 1 => subst x))
    | (extract_lets +onlyGivenNames x; have hx : ∀ a, x a = x a := (fun _ => rfl); clear hx; subst x)
    | (extract_lets +onlyGivenNames x; clear_value x)
    | with_reducible apply Steady.ite
    | with_reducible apply State.advance_steady
    | with_reducible apply State.raiseOn_steady
    | with_reducible apply State.modPtc_steady
    | split

theorem State.agreeExpire_steady {r s : State} (h : Steady r s) :
    Steady r (State.agreeExpire s) := by
  unfold State.agreeExpire
  repeat' first
    | with_reducible assumption
    | intro _
    | (extract_lets +onlyGivenNames x; with_reducible refine Steady.name (r := r) (s := x) ?_ (fun hx => ?_); (on_goal 2 => clear_value x); (on_goal 1 => subst x))
    | (extract_lets +onlyGivenNames x; have hx : ∀ a, x a = x a := (fun _ => rfl); clear hx; subst x)
    | (extract_lets +onlyGivenNames x; clear_value x)
    | with_reducible apply Steady.ite
    | with_reducible apply State.advance_steady
    | with_reducible apply State.settlePtc_steady
    | with_reducible apply State.modPtc_steady
    | (with_reducible refine Steady.of_fst ?_ (by assumption))
    | (with_reducible refine Steady.of_snd ?_ (by assumption))
    | split

theorem State.vreqTimeout_steady {r s : State} (h : Steady r s) :
    Steady r (State.vreqTimeout s) := by
  unfold State.vreqTimeout
  repeat' first
    | with_reducible assumption
    | intro _
    | (extract_lets +onlyGivenNames x; with_reducible refine Steady.name (r := r) (s := x) ?_ (fun hx => ?_); (on_goal 2 => clear_value x); (on_goal 1 => subst x))
    | (extract_lets +onlyGivenNames x; have hx : ∀ a, x a = x a := (fun _ => rfl); clear hx; subst x)
    | (extract_lets +onlyGivenNames x; clear_value x)
    | with_reducible apply State.advance_steady
    | with_reducible apply State.modPtc_steady
    | (with_reducible refine Steady.of_fst ?_ (by assumption))
    | (with_reducible refine Steady.of_snd ?_ (by assumption))
    | split

theorem State.beginStep_steady {r s : State} (h : Steady r s) :
    Steady r (State.beginStep s) := by
  unfold State.beginStep
  repeat' first
    | with_reducible assumption
    | with_reducible apply State.askVoltage_steady

theorem State.vreqRetry_steady {r s : State} (h : Steady r s) :
    Steady r (State.vreqRetry s) := by
  unfold State.vreqRetry
  repeat' first
    | with_reducible assumption
    | intro _
    | (extract_lets +onlyGivenNames x; with_reducible refine Steady.name (r := r) (s := x) ?_ (fun hx => ?_); (on_goal 2 => clear_value x); (on_goal 1 => subst x))
    | (extract_lets +onlyGivenNames x; have hx : ∀ a, x a = x a := (fun _ => rfl); clear hx; subst x)
    | (extract_lets +onlyGivenNames x; clear_value x)
    | with_reducible apply Steady.ite
    | with_reducible apply State.modPtc_steady
    | with_reducible apply State.advance_steady
    | with_reducible apply State.beginStep_steady
    | (with_reducible refine Steady.of_fst ?_ (by assumption))
    | (with_reducible refine Steady.of_snd ?_ (by assumption))
    | split

theorem State.stepUp_steady {r s : State} (h : Steady r s) :
    Steady r (State.stepUp s) := by
  unfold State.stepUp
  repeat' first
    | with_reducible assumption
    | with_reducible apply Steady.ite
    | with_reducible apply State.beginStep_steady
    | with_reducible apply State.advance_steady
    | (with_reducible refine Steady.of_fst ?_ (by assumption))
    | (with_reducible refine Steady.of_snd ?_ (by assumption))
    | split

theorem State.capEvaluate_steady {r s : State} (h : Steady r s) :
    Steady r (State.capEvaluate s) := by
  unfold State.capEvaluate
  repeat' first
    | with_reducible assumption
    | intro _
    | (extract_lets +onlyGivenNames x; with_reducible refine Steady.name (r := r) (s := x) ?_ (fun hx => ?_); (on_goal 2 => clear_value x); (on_goal 1 => subst x))
    | (extract_lets +onlyGivenNames x; have hx : ∀ a, x a = x a := (fun _ => rfl); clear hx; subst x)
    | (extract_lets +onlyGivenNames x; clear_value x)
    | with_reducible apply Steady.ite
    | with_reducible apply State.nextFree_steady
    | with_reducible apply State.takeLimits_steady
    | with_reducible apply State.raiseOn_steady
    | with_reducible apply State.settlePtc_steady
    | with_reducible apply State.modPtc_steady
    | (with_reducible refine Steady.of_fst ?_ (by assumption))
    | (with_reducible refine Steady.of_snd ?_ (by assumption))
    | split

theorem State.critTemp_steady {r s : State} (h : Steady r s) :
    Steady r (State.critTemp s) := by
  unfold State.critTemp
  repeat' first
    | with_reducible assumption
    | intro _
    | with_reducible apply Steady.ite
    | with_reducible apply State.raiseOn_steady
    | with_reducible apply State.modPtc_steady
    | split

theorem State.tempSample_steady {r s : State} {tj : Int} (h : Steady r s) :
    Steady r (State.tempSample s tj) := by
  unfold State.tempSample
  repeat' first
    | with_reducible assumption
    | intro _
    | (extract_lets +onlyGivenNames x; with_reducible refine Steady.name (r := r) (s := x) ?_ (fun hx => ?_); (on_goal 2 => clear_value x); (on_goal 1 => subst x))
    | (extract_lets +onlyGivenNames x; have hx : ∀ a, x a = x a := (fun _ => rfl); clear hx; subst x)
    | (extract_lets +onlyGivenNames x; clear_value x)
    | with_reducible apply Steady.ite
    | with_reducible apply State.modPtc_steady
    | with_reducible apply State.setFld_steady
    | with_reducible apply State.stepHot_steady
    | with_reducible apply State.raiseOn_steady
    | with_reducible apply State.critTemp_steady
    | with_reducible apply State.followVoltage_steady
    | with_reducible apply State.settlePtc_steady
    | split

theorem State.tjMaxStep_steady {r s : State} (h : Steady r s) :
    Steady r (State.tjMaxStep s) := by
  unfold State.tjMaxStep
  repeat' first
    | with_reducible assumption
    | with_reducible apply Steady.ite
    | with_reducible apply State.settlePtc_steady
    | with_reducible apply State.stepHot_steady
    | with_reducible apply State.advance_steady
    | (with_reducible refine Steady.of_fst ?_ (by assumption))
    | (with_reducible refine Steady.of_snd ?_ (by assumption))
    | split

theorem State.currentEstimate_steady {r s : State} (h : Steady r s) :
    Steady r (State.currentEstimate s) := by
  unfold State.currentEstimate
  repeat' first
    | with_reducible assumption
    | intro _
    | (extract_lets +onlyGivenNames x; with_reducible refine Steady.name (r := r) (s := x) ?_ (fun hx => ?_); (on_goal 2 => clear_value x); (on_goal 1 => subst x))
    | (extract_lets +onlyGivenNames x; have hx : ∀ a, x a = x a := (fun _ => rfl); clear hx; subst x)
    | (extract_lets +onlyGivenNames x; clear_value x)
    | with_reducible apply Steady.ite
    | with_reducible apply State.powerNow_steady
    | with_reducible apply State.modPtc_steady
    | with_reducible apply State.settlePtc_steady
    | (with_reducible refine Steady.of_fst ?_ (by assumption))
    | (with_reducible refine Steady.of_snd ?_ (by assumption))
    | split

theorem State.edcTimerExpire_steady {r s : State} (h : Steady r s) :
    Steady r (State.edcTimerExpire s) := by
  unfold State.edcTimerExpire
  repeat' first
    | with_reducible assumption
    | intro _
    | with_reducible apply Steady.ite
    | with_reducible apply State.settlePtc_steady
    | with_reducible apply State.modPtc_steady
    | split

theorem State.droop_steady {r s : State} (h : Steady r s) :
    Steady r (State.droop s) := by
  unfold State.droop
  repeat' first
    | with_reducible assumption
    | intro _
    | with_reducible apply Steady.ite
    | with_reducible apply State.settlePtc_steady
    | with_reducible apply State.modPtc_steady
    | split

theorem State.droopEnd_steady {r s : State} (h : Steady r s) :
    Steady r (State.droopEnd s) := by
  unfold State.droopEnd
  repeat' first
    | with_reducible assumption
    | intro _
    | with_reducible apply State.settlePtc_steady
    | with_reducible apply State.modPtc_steady
    | with_reducible apply State.advance_steady
    | (with_reducible refine Steady.of_fst ?_ (by assumption))
    | (with_reducible refine Steady.of_snd ?_ (by assumption))
    | split

theorem State.budgetEnd_steady {r s : State} (h : Steady r s) :
    Steady r (State.budgetEnd s) := by
  unfold State.budgetEnd
  repeat' first
    | with_reducible assumption
    | intro _
    | (extract_lets +onlyGivenNames x; with_reducible refine Steady.name (r := r) (s := x) ?_ (fun hx => ?_); (on_goal 2 => clear_value x); (on_goal 1 => subst x))
    | (extract_lets +onlyGivenNames x; have hx : ∀ a, x a = x a := (fun _ => rfl); clear hx; subst x)
    | (extract_lets +onlyGivenNames x; clear_value x)
    | with_reducible apply State.settlePtc_steady
    | with_reducible apply State.modPtc_steady
    | with_reducible apply State.advance_steady
    | (with_reducible refine Steady.of_fst ?_ (by assumption))
    | (with_reducible refine Steady.of_snd ?_ (by assumption))
    | split

theorem State.binRoll_steady {r s : State} (h : Steady r s) :
    Steady r (State.binRoll s) := by
  unfold State.binRoll
  repeat' first
    | with_reducible assumption
    | intro _
    | (extract_lets +onlyGivenNames x; with_reducible refine Steady.name (r := r) (s := x) ?_ (fun hx => ?_); (on_goal 2 => clear_value x); (on_goal 1 => subst x))
    | (extract_lets +onlyGivenNames x; have hx : ∀ a, x a = x a := (fun _ => rfl); clear hx; subst x)
    | (extract_lets +onlyGivenNames x; clear_value x)
    | with_reducible apply Steady.ite
    | with_reducible apply State.bankBoost_steady
    | with_reducible apply State.advance_steady
    | with_reducible apply State.modPtc_steady
    | with_reducible apply State.settlePtc_steady
    | split

theorem State.saveBins_steady {r s : State} (h : Steady r s) :
    Steady r (State.saveBins s) := by
  unfold State.saveBins
  repeat' first
    | with_reducible assumption
    | with_reducible apply Steady.ite
    | with_reducible apply State.writeBins_steady
    | split

end Sys2Proof.Machine
end

