-- ==== Sys2Proof/Laws/FrameFaults.lean ====
section
/-! SUPPORT. What the operations of Machine/Faults.lean leave as it is. -/

set_option Elab.async false
set_option linter.unusedTactic false
set_option linter.unreachableTactic false

namespace Sys2Proof.Machine

open Sys2Proof.Safety

theorem State.setSrc_keeps {r s : State} {a1 : SrcRun} (h : Keeps r s) :
    Keeps r (State.setSrc s a1) := by
  unfold State.setSrc
  repeat' first
    | with_reducible assumption
    | intro _
    | with_reducible exact Keeps.upd_srcs (by assumption)
    | with_reducible apply Keeps.upd_srcs

theorem State.setSrc_steady {r s : State} {a1 : SrcRun} (h : Steady r s) :
    Steady r (State.setSrc s a1) :=
  (State.setSrc_keeps (Keeps.refl _)).after h

theorem State.countEvent_keeps {r s : State} {src : Nat} (h : Keeps r s) :
    Keeps r (State.countEvent s src).1 := by
  unfold State.countEvent
  repeat' first
    | with_reducible assumption
    | intro _
    | (extract_lets +onlyGivenNames x; with_reducible refine Keeps.name (r := r) (s := x) ?_ (fun hx => ?_); (on_goal 2 => clear_value x); (on_goal 1 => subst x))
    | (extract_lets +onlyGivenNames x; have hx : ∀ a, x a = x a := (fun _ => rfl); clear hx; subst x)
    | (extract_lets +onlyGivenNames x; clear_value x)
    | with_reducible apply Keeps.ite
    | with_reducible apply State.incFld_keeps
    | with_reducible apply State.setSrc_keeps
    | split

theorem State.countEvent_steady {r s : State} {src : Nat} (h : Steady r s) :
    Steady r (State.countEvent s src).1 :=
  (State.countEvent_keeps (Keeps.refl _)).after h

theorem State.capture_keeps {r s : State} {src : Nat} {i : FaultInfo} {c : Nat} (h : Keeps r s) :
    Keeps r (State.capture s src i c) := by
  unfold State.capture
  repeat' first
    | with_reducible assumption
    | (extract_lets +onlyGivenNames x; with_reducible refine Keeps.name (r := r) (s := x) ?_ (fun hx => ?_); (on_goal 2 => clear_value x); (on_goal 1 => subst x))
    | (extract_lets +onlyGivenNames x; clear_value x)
    | with_reducible apply Keeps.ite
    | with_reducible apply State.incFld_keeps
    | with_reducible apply State.setFlds_keeps
    | with_reducible apply State.interrupt_keeps
    | split

theorem State.capture_steady {r s : State} {src : Nat} {i : FaultInfo} {c : Nat} (h : Steady r s) :
    Steady r (State.capture s src i c) :=
  (State.capture_keeps (Keeps.refl _)).after h

theorem State.haltNow_keeps {r s : State} (h : Keeps r s) :
    Keeps r (State.haltNow s) := by
  unfold State.haltNow
  extract_lets +onlyGivenNames x
  have hx : Keeps r x := by
    with_reducible apply Keeps.ite
    · exact State.setFld_keeps h
    · exact h
  clear_value x
  exact State.setFlds_keeps (hx.trans ⟨rfl, fun h => (by cases h), fun k => ⟨fun h => (by cases h), k.2⟩⟩)

theorem State.haltNow_steady {r s : State} (h : Steady r s) :
    Steady r (State.haltNow s) :=
  (State.haltNow_keeps (Keeps.refl _)).after h

theorem State.halt_keeps {r s : State} (h : Keeps r s) :
    Keeps r (State.halt s) := by
  unfold State.halt
  repeat' first
    | with_reducible assumption
    | with_reducible apply Keeps.ite
    | with_reducible apply State.haltNow_keeps
    | split

theorem State.halt_steady {r s : State} (h : Steady r s) :
    Steady r (State.halt s) :=
  (State.halt_keeps (Keeps.refl _)).after h

theorem State.tenFault_keeps {r s : State} {a1 : Nat} {bit_ : Nat → Field} (h : Keeps r s) :
    Keeps r (State.tenFault s a1 bit_) := by
  unfold State.tenFault
  repeat' first
    | with_reducible assumption
    | (extract_lets +onlyGivenNames x; with_reducible refine Keeps.name (r := r) (s := x) ?_ (fun hx => ?_); (on_goal 2 => clear_value x); (on_goal 1 => subst x))
    | (extract_lets +onlyGivenNames x; clear_value x)
    | with_reducible apply Keeps.ite
    | with_reducible apply State.setFld_keeps
    | with_reducible apply State.interrupt_keeps
    | split

theorem State.tenFault_steady {r s : State} {a1 : Nat} {bit_ : Nat → Field} (h : Steady r s) :
    Steady r (State.tenFault s a1 bit_) :=
  (State.tenFault_keeps (Keeps.refl _)).after h

theorem State.dropRings_keeps {r s : State} {a1 : Nat} (h : Keeps r s) :
    Keeps r (State.dropRings s a1) := by
  unfold State.dropRings
  repeat' first
    | with_reducible assumption
    | intro _
    | (extract_lets +onlyGivenNames x; with_reducible refine Keeps.name (r := r) (s := x) ?_ (fun hx => ?_); (on_goal 2 => clear_value x); (on_goal 1 => subst x))
    | (extract_lets +onlyGivenNames x; with_reducible refine Keeps.name (r := r) (s := x.1) ?_ (fun hx => ?_); (on_goal 2 => clear_value x); (on_goal 1 => subst x))
    | (extract_lets +onlyGivenNames x; have hx : ∀ a, x a = x a := (fun _ => rfl); clear hx; subst x)
    | (extract_lets +onlyGivenNames x; clear_value x)
    | with_reducible exact Keeps.upd_sqs_cqs (by assumption)
    | with_reducible apply State.issueWrite_keeps
    | with_reducible apply Keeps.foldl
    | with_reducible apply Keeps.foldl_fst
    | with_reducible apply Keeps.upd_sqs_cqs

theorem State.dropRings_steady {r s : State} {a1 : Nat} (h : Steady r s) :
    Steady r (State.dropRings s a1) :=
  (State.dropRings_keeps (Keeps.refl _)).after h

theorem State.freshFlow_keeps {r s : State} {fe : FlowEntry} (h : Keeps r s) :
    Keeps r (State.freshFlow s fe) := by
  unfold State.freshFlow
  repeat' first
    | with_reducible assumption
    | (extract_lets +onlyGivenNames x; with_reducible refine Keeps.name (r := r) (s := x) ?_ (fun hx => ?_); (on_goal 2 => clear_value x); (on_goal 1 => subst x))
    | (extract_lets +onlyGivenNames x; clear_value x)
    | with_reducible apply State.setRun_keeps
    | with_reducible apply State.releaseHandles_keeps

theorem State.freshFlow_steady {r s : State} {fe : FlowEntry} (h : Steady r s) :
    Steady r (State.freshFlow s fe) :=
  (State.freshFlow_keeps (Keeps.refl _)).after h

theorem State.tenancyReset_keeps {r s : State} {a1 : Nat} (h : Keeps r s) :
    Keeps r (State.tenancyReset s a1) := by
  unfold State.tenancyReset
  repeat' first
    | with_reducible assumption
    | intro _
    | (extract_lets +onlyGivenNames x; with_reducible refine Keeps.name (r := r) (s := x) ?_ (fun hx => ?_); (on_goal 2 => clear_value x); (on_goal 1 => subst x))
    | (extract_lets +onlyGivenNames x; with_reducible refine Keeps.name (r := r) (s := x.1) ?_ (fun hx => ?_); (on_goal 2 => clear_value x); (on_goal 1 => subst x))
    | (extract_lets +onlyGivenNames x; have hx : ∀ a, x a = x a := (fun _ => rfl); clear hx; subst x)
    | (extract_lets +onlyGivenNames x; clear_value x)
    | with_reducible apply Keeps.ite
    | with_reducible exact Keeps.upd_due (by assumption)
    | with_reducible exact Keeps.upd_ports_due_batches_weir (by assumption)
    | with_reducible exact Keeps.upd_groups (by assumption)
    | with_reducible apply State.dropRings_keeps
    | with_reducible apply State.retire_keeps
    | with_reducible apply State.haltDelta_keeps
    | with_reducible apply State.freeMember_keeps
    | with_reducible apply State.freeReserve_keeps
    | with_reducible apply State.freshFlow_keeps
    | with_reducible apply State.setFlds_keeps
    | with_reducible apply Keeps.foldl
    | with_reducible apply Keeps.foldl_fst
    | (with_reducible refine Keeps.of_fst ?_ (by assumption))
    | (with_reducible refine Keeps.of_snd ?_ (by assumption))
    | split
    | with_reducible apply Keeps.upd_due
    | with_reducible apply Keeps.upd_ports_due_batches_weir
    | with_reducible apply Keeps.upd_groups

theorem State.tenancyReset_steady {r s : State} {a1 : Nat} (h : Steady r s) :
    Steady r (State.tenancyReset s a1) :=
  (State.tenancyReset_keeps (Keeps.refl _)).after h

theorem State.takeCopy_keeps {r s : State} {fe : FlowEntry} {f : Option Fetch} {a3 : Nat} (h : Keeps r s) :
    Keeps r (State.takeCopy s fe f a3).1 := by
  unfold State.takeCopy
  repeat' first
    | with_reducible assumption
    | intro _
    | (extract_lets +onlyGivenNames x; with_reducible refine Keeps.name (r := r) (s := x) ?_ (fun hx => ?_); (on_goal 2 => clear_value x); (on_goal 1 => subst x))
    | (extract_lets +onlyGivenNames x; with_reducible refine Keeps.name (r := r) (s := x.1) ?_ (fun hx => ?_); (on_goal 2 => clear_value x); (on_goal 1 => subst x))
    | (extract_lets +onlyGivenNames x; have hx : ∀ a, x a = x a := (fun _ => rfl); clear hx; subst x)
    | (extract_lets +onlyGivenNames x; clear_value x)
    | with_reducible apply Keeps.ite
    | with_reducible apply State.lackAnswer_keeps
    | with_reducible apply State.incFld_keeps
    | with_reducible apply State.raise_keeps
    | with_reducible apply Keeps.foldl
    | with_reducible apply Keeps.foldl_fst
    | (with_reducible refine Keeps.of_fst ?_ (by assumption))
    | (with_reducible refine Keeps.of_snd ?_ (by assumption))
    | split

theorem State.takeCopy_steady {r s : State} {fe : FlowEntry} {f : Option Fetch} {a3 : Nat} (h : Steady r s) :
    Steady r (State.takeCopy s fe f a3).1 :=
  (State.takeCopy_keeps (Keeps.refl _)).after h

theorem State.restoreFlow_keeps {r s : State} {fe : FlowEntry} {f : Option Fetch} {ring : Bool} (h : Keeps r s) :
    Keeps r (State.restoreFlow s fe f ring) := by
  unfold State.restoreFlow
  repeat' first
    | with_reducible assumption
    | intro _
    | (extract_lets +onlyGivenNames x; with_reducible refine Keeps.name (r := r) (s := x) ?_ (fun hx => ?_); (on_goal 2 => clear_value x); (on_goal 1 => subst x))
    | (extract_lets +onlyGivenNames x; with_reducible refine Keeps.name (r := r) (s := x.1) ?_ (fun hx => ?_); (on_goal 2 => clear_value x); (on_goal 1 => subst x))
    | (extract_lets +onlyGivenNames x; have hx : ∀ a, x a = x a := (fun _ => rfl); clear hx; subst x)
    | (extract_lets +onlyGivenNames x; clear_value x)
    | with_reducible apply Keeps.ite
    | with_reducible apply State.freeReserve_keeps
    | with_reducible apply State.releaseHandles_keeps
    | with_reducible apply State.takeCopy_keeps
    | with_reducible apply State.setRun_keeps
    | with_reducible apply Keeps.foldl
    | with_reducible apply Keeps.foldl_fst
    | (with_reducible refine Keeps.of_fst ?_ (by assumption))
    | (with_reducible refine Keeps.of_snd ?_ (by assumption))
    | split

theorem State.restoreFlow_steady {r s : State} {fe : FlowEntry} {f : Option Fetch} {ring : Bool} (h : Steady r s) :
    Steady r (State.restoreFlow s fe f ring) :=
  (State.restoreFlow_keeps (Keeps.refl _)).after h

theorem State.faultStop_keeps {r s : State} {id : Nat} (h : Keeps r s) :
    Keeps r (State.faultStop s id) := by
  unfold State.faultStop
  repeat' first
    | with_reducible assumption
    | intro _
    | (extract_lets +onlyGivenNames x; with_reducible refine Keeps.name (r := r) (s := x) ?_ (fun hx => ?_); (on_goal 2 => clear_value x); (on_goal 1 => subst x))
    | (extract_lets +onlyGivenNames x; clear_value x)
    | with_reducible apply Keeps.ite
    | with_reducible apply State.haltDelta_keeps
    | with_reducible apply State.loseUnit_keeps
    | with_reducible apply State.stopTask_keeps
    | (with_reducible refine Keeps.of_fst ?_ (by assumption))
    | (with_reducible refine Keeps.of_snd ?_ (by assumption))
    | split

theorem State.faultStop_steady {r s : State} {id : Nat} (h : Steady r s) :
    Steady r (State.faultStop s id) :=
  (State.faultStop_keeps (Keeps.refl _)).after h

theorem State.memberOut_keeps {r s : State} {g : Nat} {flow : Nat} (h : Keeps r s) :
    Keeps r (State.memberOut s g flow) := by
  unfold State.memberOut
  repeat' first
    | with_reducible assumption
    | intro _
    | with_reducible apply State.modMember_keeps
    | with_reducible apply State.freeMember_keeps
    | (with_reducible refine Keeps.of_fst ?_ (by assumption))
    | (with_reducible refine Keeps.of_snd ?_ (by assumption))
    | split

theorem State.memberOut_steady {r s : State} {g : Nat} {flow : Nat} (h : Steady r s) :
    Steady r (State.memberOut s g flow) :=
  (State.memberOut_keeps (Keeps.refl _)).after h

theorem State.leaveGroup_keeps {r s : State} {fe : FlowEntry} (h : Keeps r s) :
    Keeps r (State.leaveGroup s fe) := by
  unfold State.leaveGroup
  repeat' first
    | with_reducible assumption
    | with_reducible apply Keeps.ite
    | with_reducible apply State.memberOut_keeps
    | (with_reducible refine Keeps.of_fst ?_ (by assumption))
    | (with_reducible refine Keeps.of_snd ?_ (by assumption))
    | split

theorem State.leaveGroup_steady {r s : State} {fe : FlowEntry} (h : Steady r s) :
    Steady r (State.leaveGroup s fe) :=
  (State.leaveGroup_keeps (Keeps.refl _)).after h

theorem State.stopFlow_keeps {r s : State} {fe : FlowEntry} (h : Keeps r s) :
    Keeps r (State.stopFlow s fe) := by
  unfold State.stopFlow
  repeat' first
    | with_reducible assumption
    | intro _
    | (extract_lets +onlyGivenNames x; with_reducible refine Keeps.name (r := r) (s := x) ?_ (fun hx => ?_); (on_goal 2 => clear_value x); (on_goal 1 => subst x))
    | (extract_lets +onlyGivenNames x; with_reducible refine Keeps.name (r := r) (s := x.1) ?_ (fun hx => ?_); (on_goal 2 => clear_value x); (on_goal 1 => subst x))
    | (extract_lets +onlyGivenNames x; have hx : ∀ a, x a = x a := (fun _ => rfl); clear hx; subst x)
    | (extract_lets +onlyGivenNames x; clear_value x)
    | with_reducible apply State.faultStop_keeps
    | with_reducible apply State.abortUnit_keeps
    | with_reducible apply State.leaveGroup_keeps
    | with_reducible apply Keeps.foldl
    | with_reducible apply Keeps.foldl_fst

theorem State.stopFlow_steady {r s : State} {fe : FlowEntry} (h : Steady r s) :
    Steady r (State.stopFlow s fe) :=
  (State.stopFlow_keeps (Keeps.refl _)).after h

theorem State.flowFault_keeps {r s : State} {fe : FlowEntry} (h : Keeps r s) :
    Keeps r (State.flowFault s fe) := by
  unfold State.flowFault
  repeat' first
    | with_reducible assumption
    | intro _
    | with_reducible apply State.restoreFlow_keeps
    | with_reducible apply State.stopFlow_keeps

theorem State.flowFault_steady {r s : State} {fe : FlowEntry} (h : Steady r s) :
    Steady r (State.flowFault s fe) :=
  (State.flowFault_keeps (Keeps.refl _)).after h

theorem State.act_keeps {r s : State} {src : Nat} {c : Charge} {level : Nat} (h : Keeps r s) :
    Keeps r (State.act s src c level) := by
  unfold State.act
  repeat' first
    | with_reducible assumption
    | intro _
    | (extract_lets +onlyGivenNames x; with_reducible refine Keeps.name (r := r) (s := x) ?_ (fun hx => ?_); (on_goal 2 => clear_value x); (on_goal 1 => subst x))
    | (extract_lets +onlyGivenNames x; have hx : ∀ a, x a = x a := (fun _ => rfl); clear hx; subst x)
    | (extract_lets +onlyGivenNames x; clear_value x)
    | with_reducible apply Keeps.ite
    | with_reducible apply State.setFld_keeps
    | with_reducible apply State.halt_keeps
    | with_reducible apply State.tenFault_keeps
    | with_reducible apply State.tenancyReset_keeps
    | with_reducible apply State.flowFault_keeps
    | with_reducible apply State.faultStop_keeps
    | (with_reducible refine Keeps.of_fst ?_ (by assumption))
    | (with_reducible refine Keeps.of_snd ?_ (by assumption))
    | split

theorem State.act_steady {r s : State} {src : Nat} {c : Charge} {level : Nat} (h : Steady r s) :
    Steady r (State.act s src c level) :=
  (State.act_keeps (Keeps.refl _)).after h

theorem State.processRaised_keeps {r s : State} (h : Keeps r s) :
    Keeps r (State.processRaised s) := by
  unfold State.processRaised
  repeat' first
    | with_reducible assumption
    | intro _
    | (extract_lets +onlyGivenNames x; with_reducible refine Keeps.name (r := r) (s := x) ?_ (fun hx => ?_); (on_goal 2 => clear_value x); (on_goal 1 => subst x))
    | (extract_lets +onlyGivenNames x; with_reducible refine Keeps.name (r := r) (s := x.1) ?_ (fun hx => ?_); (on_goal 2 => clear_value x); (on_goal 1 => subst x))
    | (extract_lets +onlyGivenNames x; have hx : ∀ a, x a = x a := (fun _ => rfl); clear hx; subst x)
    | (extract_lets +onlyGivenNames x; clear_value x)
    | with_reducible apply Keeps.ite
    | with_reducible exact Keeps.upd_raised (by assumption)
    | with_reducible apply State.countEvent_keeps
    | with_reducible apply State.capture_keeps
    | with_reducible apply State.act_keeps
    | with_reducible apply Keeps.foldl
    | with_reducible apply Keeps.foldl_fst
    | (with_reducible refine Keeps.of_fst ?_ (by assumption))
    | (with_reducible refine Keeps.of_snd ?_ (by assumption))
    | split
    | with_reducible apply Keeps.upd_raised

theorem State.processRaised_steady {r s : State} (h : Steady r s) :
    Steady r (State.processRaised s) :=
  (State.processRaised_keeps (Keeps.refl _)).after h

theorem State.moveAll_keeps {r s : State} (h : Keeps r s) :
    Keeps r (State.moveAll s) := by
  unfold State.moveAll
  repeat' first
    | with_reducible assumption
    | with_reducible apply Keeps.ite
    | with_reducible apply State.pumpMovers_keeps
    | with_reducible apply State.startUnits_keeps
    | with_reducible apply State.deltaSettle_keeps
    | with_reducible apply State.settleStations_keeps
    | split

theorem State.moveAll_steady {r s : State} (h : Steady r s) :
    Steady r (State.moveAll s) :=
  (State.moveAll_keeps (Keeps.refl _)).after h

theorem State.settle_keeps {r s : State} (h : Keeps r s) :
    Keeps r (State.settle s) := by
  unfold State.settle
  repeat' first
    | with_reducible assumption
    | with_reducible apply State.refreshBerths_keeps
    | with_reducible apply State.recheckPools_keeps
    | with_reducible apply State.processRaised_keeps
    | with_reducible apply State.moveAll_keeps

theorem State.settle_steady {r s : State} (h : Steady r s) :
    Steady r (State.settle s) :=
  (State.settle_keeps (Keeps.refl _)).after h

theorem State.noteFence_steady {r s : State} {unit : Nat} {kind : Nat} {spare : Bool} (h : Steady r s) :
    Steady r (State.noteFence s unit kind spare) := by
  unfold State.noteFence
  repeat' first
    | with_reducible assumption
    | (extract_lets +onlyGivenNames x; with_reducible refine Steady.name (r := r) (s := x) ?_ (fun hx => ?_); (on_goal 2 => clear_value x); (on_goal 1 => subst x))
    | (extract_lets +onlyGivenNames x; clear_value x)
    | with_reducible apply Steady.ite
    | with_reducible apply State.nextFree_steady
    | with_reducible apply State.setFlds_steady
    | (with_reducible refine Steady.of_fst ?_ (by assumption))
    | (with_reducible refine Steady.of_snd ?_ (by assumption))
    | split

theorem State.suspend_steady {r s : State} {fe : FlowEntry} (h : Steady r s) :
    Steady r (State.suspend s fe) := by
  unfold State.suspend
  repeat' first
    | with_reducible assumption
    | intro _
    | (extract_lets +onlyGivenNames x; with_reducible refine Steady.name (r := r) (s := x) ?_ (fun hx => ?_); (on_goal 2 => clear_value x); (on_goal 1 => subst x))
    | (extract_lets +onlyGivenNames x; have hx : ∀ a, x a = x a := (fun _ => rfl); clear hx; subst x)
    | (extract_lets +onlyGivenNames x; clear_value x)
    | with_reducible apply State.modRun_steady
    | with_reducible apply State.stopFlow_steady
    | with_reducible apply State.tenFault_steady

theorem State.recheckServer_steady {r s : State} {v : Nat} {a1 : Nat} (h : Steady r s) :
    Steady r (State.recheckServer v a1 s) := by
  induction a1 generalizing s with
  | zero => exact h
  | succ n ih =>
    unfold State.recheckServer
    repeat' first
      | with_reducible assumption
      | intro _
      | (extract_lets +onlyGivenNames x; with_reducible refine Steady.name (r := r) (s := x) ?_ (fun hx => ?_); (on_goal 2 => clear_value x); (on_goal 1 => subst x))
      | (extract_lets +onlyGivenNames x; have hx : ∀ a, x a = x a := (fun _ => rfl); clear hx; subst x)
      | (extract_lets +onlyGivenNames x; clear_value x)
      | with_reducible apply ih
      | with_reducible apply Steady.ite
      | with_reducible apply State.suspend_steady
      | (with_reducible refine Steady.of_fst ?_ (by assumption))
      | (with_reducible refine Steady.of_snd ?_ (by assumption))
      | split

theorem State.lostUnit_steady {r s : State} {v : Nat} (h : Steady r s) :
    Steady r (State.lostUnit s v) := by
  unfold State.lostUnit
  repeat' first
    | with_reducible assumption
    | with_reducible apply State.recheckServer_steady

theorem State.fenceLane_steady {r s : State} {i : Nat} (h : Steady r s) :
    Steady r (State.fenceLane s i) := by
  unfold State.fenceLane
  repeat' first
    | with_reducible assumption
    | (extract_lets +onlyGivenNames x; with_reducible refine Steady.name (r := r) (s := x) ?_ (fun hx => ?_); (on_goal 2 => clear_value x); (on_goal 1 => subst x))
    | (extract_lets +onlyGivenNames x; clear_value x)
    | with_reducible apply Steady.ite
    | with_reducible exact Steady.upd_lanesGood (by assumption)
    | with_reducible exact Steady.upd_fencedLanes (by assumption)
    | with_reducible apply State.incFld_steady
    | with_reducible apply State.noteFence_steady
    | with_reducible apply State.lostUnit_steady
    | (with_reducible refine Steady.of_fst ?_ (by assumption))
    | (with_reducible refine Steady.of_snd ?_ (by assumption))
    | with_reducible apply Steady.lowerLanes
    | split
    | with_reducible apply Steady.upd_lanesGood
    | with_reducible apply Steady.upd_fencedLanes

theorem State.fenceEngine_steady {r s : State} {i : Nat} (h : Steady r s) :
    Steady r (State.fenceEngine s i) := by
  unfold State.fenceEngine
  repeat' first
    | with_reducible assumption
    | intro _
    | (extract_lets +onlyGivenNames x; with_reducible refine Steady.name (r := r) (s := x) ?_ (fun hx => ?_); (on_goal 2 => clear_value x); (on_goal 1 => subst x))
    | (extract_lets +onlyGivenNames x; clear_value x)
    | with_reducible apply Steady.ite
    | with_reducible exact Steady.upd_entropyGood (by assumption)
    | with_reducible exact Steady.upd_fencedEngines (by assumption)
    | with_reducible apply State.incFld_steady
    | with_reducible apply State.noteFence_steady
    | with_reducible apply State.lostUnit_steady
    | with_reducible apply Steady.lowerEngines
    | split
    | with_reducible apply Steady.upd_entropyGood
    | with_reducible apply Steady.upd_fencedEngines

theorem State.fenceOther_steady {r s : State} {u : FenceUnit} {i : Nat} {n : Nat} {v : Nat} (h : Steady r s) :
    Steady r (State.fenceOther s u i n v) := by
  unfold State.fenceOther
  repeat' first
    | with_reducible assumption
    | intro _
    | with_reducible apply Steady.ite
    | with_reducible exact Steady.upd_fencedUnits (by assumption)
    | with_reducible apply State.lostUnit_steady
    | with_reducible apply State.noteFence_steady
    | with_reducible apply State.incFld_steady
    | split
    | with_reducible apply Steady.upd_fencedUnits

theorem State.fence_steady {r s : State} {u : FenceUnit} (h : Steady r s) :
    Steady r (State.fence s u) := by
  unfold State.fence
  repeat' first
    | with_reducible assumption
    | with_reducible apply Steady.ite
    | with_reducible apply State.fenceLane_steady
    | with_reducible apply State.fenceEngine_steady
    | with_reducible apply State.fenceOther_steady
    | with_reducible apply State.fencePort_steady
    | (with_reducible refine Steady.of_fst ?_ (by assumption))
    | (with_reducible refine Steady.of_snd ?_ (by assumption))
    | split

theorem State.localHandling_steady {r s : State} {src : Nat} {i : FaultInfo} (h : Steady r s) :
    Steady r (State.localHandling s src i) := by
  unfold State.localHandling
  repeat' first
    | with_reducible assumption
    | intro _
    | with_reducible apply Steady.ite
    | with_reducible apply State.fence_steady
    | with_reducible apply State.incFld_steady
    | with_reducible apply State.faultStop_steady
    | with_reducible apply State.ptcLocal_steady
    | (with_reducible refine Steady.of_fst ?_ (by assumption))
    | (with_reducible refine Steady.of_snd ?_ (by assumption))
    | split

theorem State.railFault_steady {r s : State} {src : Nat} {i : FaultInfo} (h : Steady r s) :
    Steady r (State.railFault s src i) := by
  unfold State.railFault
  repeat' first
    | with_reducible assumption
    | (extract_lets +onlyGivenNames x; with_reducible refine Steady.name (r := r) (s := x) ?_ (fun hx => ?_); (on_goal 2 => clear_value x); (on_goal 1 => subst x))
    | (extract_lets +onlyGivenNames x; clear_value x)
    | with_reducible apply Steady.ite
    | with_reducible apply State.incFld_steady
    | with_reducible apply State.setSrc_steady
    | with_reducible apply State.raise_steady
    | with_reducible apply State.localHandling_steady
    | split

theorem State.faultEvent_steady {r s : State} {src : Nat} {i : FaultInfo} (h : Steady r s) :
    Steady r (State.faultEvent s src i) := by
  unfold State.faultEvent
  repeat' first
    | with_reducible assumption
    | with_reducible apply Steady.ite
    | with_reducible apply State.fencePort_steady
    | with_reducible apply State.raise_steady
    | with_reducible apply State.localHandling_steady
    | (with_reducible refine Steady.of_fst ?_ (by assumption))
    | (with_reducible refine Steady.of_snd ?_ (by assumption))
    | split

theorem State.railEnd_steady {r s : State} {src : Nat} (h : Steady r s) :
    Steady r (State.railEnd s src) := by
  unfold State.railEnd
  repeat' first
    | with_reducible assumption
    | with_reducible apply Steady.ite
    | with_reducible apply State.setSrc_steady
    | split

theorem State.escDecay_steady {r s : State} {src : Nat} (h : Steady r s) :
    Steady r (State.escDecay s src) := by
  unfold State.escDecay
  repeat' first
    | with_reducible assumption
    | (extract_lets +onlyGivenNames x; with_reducible refine Steady.name (r := r) (s := x) ?_ (fun hx => ?_); (on_goal 2 => clear_value x); (on_goal 1 => subst x))
    | (extract_lets +onlyGivenNames x; clear_value x)
    | with_reducible apply Steady.ite
    | with_reducible apply State.setSrc_steady
    | with_reducible apply State.advance_steady
    | split

theorem State.watchdog_steady {r s : State} {id : Nat} (h : Steady r s) :
    Steady r (State.watchdog s id) := by
  unfold State.watchdog
  repeat' first
    | with_reducible assumption
    | intro _
    | with_reducible apply Steady.ite
    | with_reducible apply State.faultStop_steady
    | with_reducible apply State.raiseOn_steady
    | (with_reducible refine Steady.of_fst ?_ (by assumption))
    | (with_reducible refine Steady.of_snd ?_ (by assumption))
    | split

theorem State.resetSrc_steady {r s : State} {src : Nat} (h : Steady r s) :
    Steady r (State.resetSrc s src) := by
  unfold State.resetSrc
  repeat' first
    | with_reducible assumption
    | intro _
    | (extract_lets +onlyGivenNames x; with_reducible refine Steady.name (r := r) (s := x) ?_ (fun hx => ?_); (on_goal 2 => clear_value x); (on_goal 1 => subst x))
    | (extract_lets +onlyGivenNames x; have hx : ∀ a, x a = x a := (fun _ => rfl); clear hx; subst x)
    | (extract_lets +onlyGivenNames x; clear_value x)
    | with_reducible apply Steady.ite
    | with_reducible exact Steady.upd_srcs (by assumption)
    | with_reducible apply State.setSrc_steady
    | split
    | with_reducible apply Steady.upd_srcs

theorem State.flushTimeout_steady {r s : State} (h : Steady r s) :
    Steady r (State.flushTimeout s) := by
  unfold State.flushTimeout
  repeat' first
    | with_reducible assumption
    | with_reducible apply Steady.ite
    | with_reducible apply State.haltNow_steady
    | with_reducible apply State.raiseOn_steady
    | split

end Sys2Proof.Machine
end

