-- ==== Sys2Proof/Laws/FrameCommit.lean ====
section
/-! SUPPORT. What the operations of Machine/Commit.lean leave as it is. -/

set_option Elab.async false
set_option linter.unusedTactic false
set_option linter.unreachableTactic false

namespace Sys2Proof.Machine

open Sys2Proof.Safety

theorem State.endCommit_steady {r s : State} {a1 : Region} {result : Nat} {rule : Nat} (h : Steady r s) :
    Steady r (State.endCommit s a1 result rule) := by
  unfold State.endCommit
  repeat' first
    | with_reducible assumption
    | with_reducible apply State.setFlds_steady

theorem State.saveSettings_steady {r s : State} (h : Steady r s) :
    Steady r (State.saveSettings s) := by
  unfold State.saveSettings
  repeat' first
    | with_reducible assumption
    | intro _
    | with_reducible exact Steady.upd_retained (by assumption)
    | with_reducible apply Steady.upd_retained

theorem State.afterCommit_steady {r s : State} {a1 : Region} (h : Steady r s) :
    Steady r (State.afterCommit s a1) := by
  unfold State.afterCommit
  repeat' first
    | with_reducible assumption
    | with_reducible apply State.recheckPools_steady
    | with_reducible apply State.settlePtc_steady
    | (with_reducible refine Steady.of_fst ?_ (by assumption))
    | (with_reducible refine Steady.of_snd ?_ (by assumption))
    | split

theorem State.makeLive_steady {r s : State} {a1 : Region} {c : RegFile} (h : Steady r s) :
    Steady r (State.makeLive s a1 c) := by
  unfold State.makeLive
  repeat' first
    | with_reducible assumption
    | intro _
    | (extract_lets +onlyGivenNames x; with_reducible refine Steady.name (r := r) (s := x) ?_ (fun hx => ?_); (on_goal 2 => clear_value x); (on_goal 1 => subst x))
    | (extract_lets +onlyGivenNames x; with_reducible refine Steady.name (r := r) (s := x.1) ?_ (fun hx => ?_); (on_goal 2 => clear_value x); (on_goal 1 => subst x))
    | (extract_lets +onlyGivenNames x; have hx : ∀ a, x a = x a := (fun _ => rfl); clear hx; subst x)
    | (extract_lets +onlyGivenNames x; clear_value x)
    | with_reducible apply State.setReg_steady
    | with_reducible apply State.saveSettings_steady
    | with_reducible apply State.afterCommit_steady
    | with_reducible apply State.endCommit_steady
    | with_reducible apply Steady.foldl
    | with_reducible apply Steady.foldl_fst

theorem State.commitGo_steady {r s : State} {a1 : Region} (h : Steady r s) :
    Steady r (State.commitGo s a1) := by
  unfold State.commitGo
  repeat' first
    | with_reducible assumption
    | (extract_lets +onlyGivenNames x; with_reducible refine Steady.name (r := r) (s := x) ?_ (fun hx => ?_); (on_goal 2 => clear_value x); (on_goal 1 => subst x))
    | (extract_lets +onlyGivenNames x; clear_value x)
    | with_reducible apply Steady.ite
    | with_reducible exact Steady.upd_captures (by assumption)
    | with_reducible apply State.setFld_steady
    | with_reducible apply State.endCommit_steady
    | with_reducible apply State.makeLive_steady
    | (with_reducible refine Steady.of_fst ?_ (by assumption))
    | (with_reducible refine Steady.of_snd ?_ (by assumption))
    | split
    | with_reducible apply Steady.upd_captures

theorem State.applyCapture_steady {r s : State} {a1 : Region} (h : Steady r s) :
    Steady r (State.applyCapture s a1) := by
  unfold State.applyCapture
  repeat' first
    | with_reducible assumption
    | intro _
    | with_reducible exact Steady.upd_captures (by assumption)
    | with_reducible apply State.makeLive_steady
    | (with_reducible refine Steady.of_fst ?_ (by assumption))
    | (with_reducible refine Steady.of_snd ?_ (by assumption))
    | split
    | with_reducible apply Steady.upd_captures

theorem State.applyCaptures_steady {r s : State} (h : Steady r s) :
    Steady r (State.applyCaptures s) := by
  unfold State.applyCaptures
  repeat' first
    | with_reducible assumption
    | intro _
    | with_reducible apply State.applyCapture_steady
    | with_reducible apply Steady.foldl
    | with_reducible apply Steady.foldl_fst

theorem State.commitApply_steady {r s : State} {a1 : Region} (h : Steady r s) :
    Steady r (State.commitApply s a1) := by
  unfold State.commitApply
  repeat' first
    | with_reducible assumption
    | with_reducible apply Steady.ite
    | with_reducible apply State.applyCapture_steady
    | split

end Sys2Proof.Machine
end

