-- ==== Sys2Proof/Laws/FrameFormePort.lean ====
section
/-! SUPPORT. What the operations of Machine/FormePort.lean leave as it is. -/

set_option Elab.async false
set_option linter.unusedTactic false
set_option linter.unreachableTactic false

namespace Sys2Proof.Machine

open Sys2Proof.Safety

theorem State.freshStations_steady {r s : State} {old : Forme} (h : Steady r s) :
    Steady r (State.freshStations s old) := by
  unfold State.freshStations
  repeat' first
    | with_reducible assumption
    | intro _
    | (extract_lets +onlyGivenNames x; with_reducible refine Steady.name (r := r) (s := x) ?_ (fun hx => ?_); (on_goal 2 => clear_value x); (on_goal 1 => subst x))
    | (extract_lets +onlyGivenNames x; have hx : ∀ a, x a = x a := (fun _ => rfl); clear hx; subst x)
    | (extract_lets +onlyGivenNames x; clear_value x)
    | with_reducible exact Steady.upd_flows_groups_batches_weir (by assumption)
    | with_reducible apply State.quoinBerths_steady
    | with_reducible apply State.quoinPorts_steady
    | with_reducible apply State.rebuildPools_steady
    | with_reducible apply Steady.upd_flows_groups_batches_weir

theorem State.endAttempt_steady {r s : State} {result : Nat} (h : Steady r s) :
    Steady r (State.endAttempt s result) := by
  unfold State.endAttempt
  repeat' first
    | with_reducible assumption
    | with_reducible exact Steady.upd_job (by assumption)
    | with_reducible apply State.setFlds_steady
    | with_reducible apply Steady.upd_job

theorem State.recordRefusal_steady {r s : State} {a1 : RefusalRec} (h : Steady r s) :
    Steady r (State.recordRefusal s a1) := by
  unfold State.recordRefusal
  repeat' first
    | with_reducible assumption
    | (extract_lets +onlyGivenNames x; with_reducible refine Steady.name (r := r) (s := x) ?_ (fun hx => ?_); (on_goal 2 => clear_value x); (on_goal 1 => subst x))
    | (extract_lets +onlyGivenNames x; clear_value x)
    | with_reducible apply State.setFlds_steady
    | (with_reducible refine Steady.of_fst ?_ (by assumption))
    | (with_reducible refine Steady.of_snd ?_ (by assumption))
    | split

theorem State.refuse_steady {r s : State} {a1 : RefusalRec} (h : Steady r s) :
    Steady r (State.refuse s a1) := by
  unfold State.refuse
  repeat' first
    | with_reducible assumption
    | with_reducible apply State.endAttempt_steady
    | with_reducible apply State.recordRefusal_steady

theorem State.toQuoin_steady {r s : State} {j : Job} (h : Steady r s) :
    Steady r (State.toQuoin s j) := by
  unfold State.toQuoin
  repeat' first
    | with_reducible assumption
    | with_reducible exact Steady.upd_job (by assumption)
    | with_reducible apply State.setFld_steady
    | with_reducible apply Steady.upd_job

theorem State.reserve_steady {r s : State} {j : Job} (h : Steady r s) :
    Steady r (State.reserve s j) := by
  unfold State.reserve
  repeat' first
    | with_reducible assumption
    | intro _
    | (extract_lets +onlyGivenNames x; with_reducible refine Steady.name (r := r) (s := x) ?_ (fun hx => ?_); (on_goal 2 => clear_value x); (on_goal 1 => subst x))
    | (extract_lets +onlyGivenNames x; with_reducible refine Steady.name (r := r) (s := x.1) ?_ (fun hx => ?_); (on_goal 2 => clear_value x); (on_goal 1 => subst x))
    | (extract_lets +onlyGivenNames x; have hx : ∀ a, x a = x a := (fun _ => rfl); clear hx; subst x)
    | (extract_lets +onlyGivenNames x; clear_value x)
    | with_reducible apply Steady.ite
    | with_reducible exact Steady.upd_job (by assumption)
    | with_reducible apply State.refuse_steady
    | with_reducible apply State.setFld_steady
    | with_reducible apply State.claimFree_steady
    | with_reducible apply State.toQuoin_steady
    | with_reducible apply Steady.foldl
    | with_reducible apply Steady.foldl_fst
    | (with_reducible refine Steady.of_fst ?_ (by assumption))
    | (with_reducible refine Steady.of_snd ?_ (by assumption))
    | split
    | with_reducible apply Steady.upd_job

theorem State.attempt_steady {r s : State} {amend : Bool} {f : Fetch} (h : Steady r s) :
    Steady r (State.attempt s amend f) := by
  unfold State.attempt
  repeat' first
    | with_reducible assumption
    | intro _
    | (extract_lets +onlyGivenNames x; with_reducible refine Steady.name (r := r) (s := x) ?_ (fun hx => ?_); (on_goal 2 => clear_value x); (on_goal 1 => subst x))
    | (extract_lets +onlyGivenNames x; clear_value x)
    | with_reducible apply Steady.ite
    | with_reducible apply State.setFld_steady
    | with_reducible apply State.fetchFail_steady
    | with_reducible apply State.refuse_steady
    | with_reducible apply State.reserve_steady
    | (with_reducible refine Steady.of_fst ?_ (by assumption))
    | (with_reducible refine Steady.of_snd ?_ (by assumption))
    | split

theorem State.rejectBusy_steady {r s : State} (h : Steady r s) :
    Steady r (State.rejectBusy s) := by
  unfold State.rejectBusy
  repeat' first
    | with_reducible assumption
    | with_reducible apply Steady.ite
    | with_reducible apply State.setFld_steady
    | split

theorem State.releaseClaims_steady {r s : State} (h : Steady r s) :
    Steady r (State.releaseClaims s) := by
  unfold State.releaseClaims
  repeat' first
    | with_reducible assumption
    | intro _
    | with_reducible apply State.settlePool_steady
    | with_reducible apply Steady.foldl
    | with_reducible apply Steady.foldl_fst

theorem State.cancelAttempt_steady {r s : State} (h : Steady r s) :
    Steady r (State.cancelAttempt s) := by
  unfold State.cancelAttempt
  repeat' first
    | with_reducible assumption
    | with_reducible apply Steady.ite
    | with_reducible exact Steady.upd_job (by assumption)
    | with_reducible apply State.releaseClaims_steady
    | with_reducible apply State.endAttempt_steady
    | (with_reducible refine Steady.of_fst ?_ (by assumption))
    | (with_reducible refine Steady.of_snd ?_ (by assumption))
    | split
    | with_reducible apply Steady.upd_job

theorem State.abortTask_steady {r s : State} {id : Nat} (h : Steady r s) :
    Steady r (State.abortTask s id) := by
  unfold State.abortTask
  repeat' first
    | with_reducible assumption
    | intro _
    | (extract_lets +onlyGivenNames x; with_reducible refine Steady.name (r := r) (s := x) ?_ (fun hx => ?_); (on_goal 2 => clear_value x); (on_goal 1 => subst x))
    | (extract_lets +onlyGivenNames x; have hx : ∀ a, x a = x a := (fun _ => rfl); clear hx; subst x)
    | (extract_lets +onlyGivenNames x; clear_value x)
    | with_reducible apply Steady.ite
    | with_reducible exact Steady.upd_due (by assumption)
    | with_reducible apply State.haltDelta_steady
    | with_reducible apply State.stopTask_steady
    | with_reducible apply State.freeTask_steady
    | with_reducible apply State.modTask_steady
    | (with_reducible refine Steady.of_fst ?_ (by assumption))
    | (with_reducible refine Steady.of_snd ?_ (by assumption))
    | split
    | with_reducible apply Steady.upd_due

theorem State.abortTasks_steady {r s : State} {p : Task → Bool} (h : Steady r s) :
    Steady r (State.abortTasks s p) := by
  unfold State.abortTasks
  repeat' first
    | with_reducible assumption
    | intro _
    | with_reducible apply State.abortTask_steady
    | with_reducible apply Steady.foldl
    | with_reducible apply Steady.foldl_fst

theorem State.removeFlow_steady {r s : State} {fe : FlowEntry} (h : Steady r s) :
    Steady r (State.removeFlow s fe) := by
  unfold State.removeFlow
  repeat' first
    | with_reducible assumption
    | intro _
    | (extract_lets +onlyGivenNames x; with_reducible refine Steady.name (r := r) (s := x) ?_ (fun hx => ?_); (on_goal 2 => clear_value x); (on_goal 1 => subst x))
    | (extract_lets +onlyGivenNames x; with_reducible refine Steady.name (r := r) (s := x.1) ?_ (fun hx => ?_); (on_goal 2 => clear_value x); (on_goal 1 => subst x))
    | (extract_lets +onlyGivenNames x; have hx : ∀ a, x a = x a := (fun _ => rfl); clear hx; subst x)
    | (extract_lets +onlyGivenNames x; clear_value x)
    | with_reducible apply Steady.ite
    | with_reducible exact Steady.upd_flows_batches_taken_saved (by assumption)
    | with_reducible apply State.abortTasks_steady
    | with_reducible apply State.retire_steady
    | with_reducible apply State.freeReserve_steady
    | with_reducible apply State.dropPort_steady
    | with_reducible apply State.releaseHandles_steady
    | with_reducible apply State.modMember_steady
    | with_reducible apply Steady.foldl
    | with_reducible apply Steady.foldl_fst
    | (with_reducible refine Steady.of_fst ?_ (by assumption))
    | (with_reducible refine Steady.of_snd ?_ (by assumption))
    | split
    | with_reducible apply Steady.upd_flows_batches_taken_saved

theorem State.freshCounters_steady {r s : State} {f : Nat} (h : Steady r s) :
    Steady r (State.freshCounters s f) := by
  unfold State.freshCounters
  repeat' first
    | with_reducible assumption
    | with_reducible apply State.setFlds_steady

theorem State.takeEpoch_steady {r s : State} {f : Nat} (h : Steady r s) :
    Steady r (State.takeEpoch s f) := by
  unfold State.takeEpoch
  repeat' first
    | with_reducible assumption
    | with_reducible apply State.setFld_steady
    | (with_reducible refine Steady.of_fst ?_ (by assumption))
    | (with_reducible refine Steady.of_snd ?_ (by assumption))
    | split

theorem State.beginFlow_steady {r s : State} {fe : FlowEntry} (h : Steady r s) :
    Steady r (State.beginFlow s fe) := by
  unfold State.beginFlow
  repeat' first
    | with_reducible assumption
    | (extract_lets +onlyGivenNames x; with_reducible refine Steady.name (r := r) (s := x) ?_ (fun hx => ?_); (on_goal 2 => clear_value x); (on_goal 1 => subst x))
    | (extract_lets +onlyGivenNames x; clear_value x)
    | with_reducible exact Steady.upd_ports_flows (by assumption)
    | with_reducible apply State.freshCounters_steady
    | with_reducible apply State.takeEpoch_steady
    | (with_reducible refine Steady.of_fst ?_ (by assumption))
    | (with_reducible refine Steady.of_snd ?_ (by assumption))
    | split
    | with_reducible apply Steady.upd_ports_flows

theorem State.mendGroups_steady {r s : State} (h : Steady r s) :
    Steady r (State.mendGroups s) := by
  unfold State.mendGroups
  repeat' first
    | with_reducible assumption
    | intro _
    | (extract_lets +onlyGivenNames x; with_reducible refine Steady.name (r := r) (s := x) ?_ (fun hx => ?_); (on_goal 2 => clear_value x); (on_goal 1 => subst x))
    | (extract_lets +onlyGivenNames x; with_reducible refine Steady.name (r := r) (s := x.1) ?_ (fun hx => ?_); (on_goal 2 => clear_value x); (on_goal 1 => subst x))
    | (extract_lets +onlyGivenNames x; have hx : ∀ a, x a = x a := (fun _ => rfl); clear hx; subst x)
    | (extract_lets +onlyGivenNames x; clear_value x)
    | with_reducible apply Steady.ite
    | with_reducible exact Steady.upd_groups (by assumption)
    | with_reducible apply State.modUnit_steady
    | with_reducible apply State.dropUnit_steady
    | with_reducible apply State.freeMember_steady
    | with_reducible apply Steady.foldl
    | with_reducible apply Steady.foldl_fst
    | (with_reducible refine Steady.of_fst ?_ (by assumption))
    | (with_reducible refine Steady.of_snd ?_ (by assumption))
    | split
    | with_reducible apply Steady.upd_groups

theorem State.clearPeerTook_steady {r s : State} (h : Steady r s) :
    Steady r (State.clearPeerTook s) := by
  unfold State.clearPeerTook
  repeat' first
    | with_reducible assumption
    | with_reducible apply Steady.ite
    | with_reducible apply State.setFld_steady
    | split

theorem State.quoined_steady {r s : State} (h : Steady r s) :
    Steady r (State.quoined s) := by
  unfold State.quoined
  repeat' first
    | with_reducible assumption
    | (extract_lets +onlyGivenNames x; with_reducible refine Steady.name (r := r) (s := x) ?_ (fun hx => ?_); (on_goal 2 => clear_value x); (on_goal 1 => subst x))
    | (extract_lets +onlyGivenNames x; clear_value x)
    | with_reducible exact Steady.upd_retaining_retained_weir_ckptAreas (by assumption)
    | with_reducible apply State.setFlds_steady
    | with_reducible apply State.saveSettings_steady
    | with_reducible apply State.clearPeerTook_steady
    | with_reducible apply Steady.upd_retaining_retained_weir_ckptAreas

theorem State.quoinAmend_steady {r s : State} {j : Job} (h : Steady r s) :
    Steady r (State.quoinAmend s j) := by
  unfold State.quoinAmend
  repeat' first
    | with_reducible assumption
    | intro _
    | (extract_lets +onlyGivenNames x; with_reducible refine Steady.name (r := r) (s := x) ?_ (fun hx => ?_); (on_goal 2 => clear_value x); (on_goal 1 => subst x))
    | (extract_lets +onlyGivenNames x; with_reducible refine Steady.name (r := r) (s := x.1) ?_ (fun hx => ?_); (on_goal 2 => clear_value x); (on_goal 1 => subst x))
    | (extract_lets +onlyGivenNames x; have hx : ∀ a, x a = x a := (fun _ => rfl); clear hx; subst x)
    | (extract_lets +onlyGivenNames x; clear_value x)
    | with_reducible exact Steady.upd_forme_amends_adm_servers_job (by assumption)
    | with_reducible apply State.applyCaptures_steady
    | with_reducible apply State.removeFlow_steady
    | with_reducible apply State.beginFlow_steady
    | with_reducible apply State.mendGroups_steady
    | with_reducible apply State.quoinBerths_steady
    | with_reducible apply State.quoined_steady
    | with_reducible apply State.releaseClaims_steady
    | with_reducible apply Steady.foldl
    | with_reducible apply Steady.foldl_fst
    | with_reducible apply Steady.upd_forme_amends_adm_servers_job

theorem State.quoinFull_steady {r s : State} {j : Job} (h : Steady r s) :
    Steady r (State.quoinFull s j) := by
  unfold State.quoinFull
  repeat' first
    | with_reducible assumption
    | intro _
    | (extract_lets +onlyGivenNames x; with_reducible refine Steady.name (r := r) (s := x) ?_ (fun hx => ?_); (on_goal 2 => clear_value x); (on_goal 1 => subst x))
    | (extract_lets +onlyGivenNames x; with_reducible refine Steady.name (r := r) (s := x.1) ?_ (fun hx => ?_); (on_goal 2 => clear_value x); (on_goal 1 => subst x))
    | (extract_lets +onlyGivenNames x; have hx : ∀ a, x a = x a := (fun _ => rfl); clear hx; subst x)
    | (extract_lets +onlyGivenNames x; clear_value x)
    | with_reducible exact Steady.upd_tasks (by assumption)
    | with_reducible exact Steady.upd_forme_amends_adm_servers_fencedLanes_fencedEngines_taken_saved (by assumption)
    | with_reducible apply State.abortTasks_steady
    | with_reducible apply State.applyCaptures_steady
    | with_reducible apply State.supplyThresholds_steady
    | with_reducible apply State.freshStations_steady
    | with_reducible apply State.freshCounters_steady
    | with_reducible apply State.takeEpoch_steady
    | with_reducible apply State.endAttempt_steady
    | with_reducible apply State.quoined_steady
    | with_reducible apply State.setFld_steady
    | with_reducible apply Steady.foldl
    | with_reducible apply Steady.foldl_fst
    | with_reducible apply Steady.upd_tasks
    | with_reducible apply Steady.upd_forme_amends_adm_servers_fencedLanes_fencedEngines_taken_saved

theorem State.step8_steady {r s : State} {j : Job} (h : Steady r s) :
    Steady r (State.step8 s j) := by
  unfold State.step8
  repeat' first
    | with_reducible assumption
    | with_reducible apply Steady.ite
    | with_reducible apply State.releaseClaims_steady
    | with_reducible apply State.refuse_steady
    | with_reducible apply State.endAttempt_steady
    | with_reducible apply State.quoinAmend_steady
    | with_reducible apply State.quoinFull_steady
    | (with_reducible refine Steady.of_fst ?_ (by assumption))
    | (with_reducible refine Steady.of_snd ?_ (by assumption))
    | split

theorem State.recheckAll_steady {r s : State} (h : Steady r s) :
    Steady r (State.recheckAll s) := by
  unfold State.recheckAll
  repeat' first
    | with_reducible assumption
    | intro _
    | with_reducible apply Steady.ite
    | with_reducible apply State.lostUnit_steady
    | with_reducible apply Steady.foldl
    | with_reducible apply Steady.foldl_fst
    | split

theorem State.claimTimeout_steady {r s : State} (h : Steady r s) :
    Steady r (State.claimTimeout s) := by
  unfold State.claimTimeout
  repeat' first
    | with_reducible assumption
    | with_reducible apply Steady.ite
    | with_reducible apply State.releaseClaims_steady
    | with_reducible apply State.refuse_steady
    | with_reducible apply State.advance_steady
    | (with_reducible refine Steady.of_fst ?_ (by assumption))
    | (with_reducible refine Steady.of_snd ?_ (by assumption))
    | split

theorem State.retainDone_steady {r s : State} (h : Steady r s) :
    Steady r (State.retainDone s) := by
  unfold State.retainDone
  repeat' first
    | with_reducible assumption
    | with_reducible apply Steady.ite
    | with_reducible exact Steady.upd_retaining_retained (by assumption)
    | with_reducible apply State.setFld_steady
    | with_reducible apply State.writeImages_steady
    | split
    | with_reducible apply Steady.upd_retaining_retained

end Sys2Proof.Machine
end

