-- ==== Sys2Proof/Laws/FrameRestore.lean ====
section
/-! SUPPORT. What the operations of Machine/Restore.lean leave as it is. -/

set_option Elab.async false
set_option linter.unusedTactic false
set_option linter.unreachableTactic false

namespace Sys2Proof.Machine

open Sys2Proof.Safety

theorem State.resume_steady {r s : State} {old : List FlowRun} {f : Fetch} {fe : FlowEntry} (h : Steady r s) :
    Steady r (State.resume s old f fe) := by
  unfold State.resume
  repeat' first
    | with_reducible assumption
    | intro _
    | (extract_lets +onlyGivenNames x; with_reducible refine Steady.name (r := r) (s := x) ?_ (fun hx => ?_); (on_goal 2 => clear_value x); (on_goal 1 => subst x))
    | (extract_lets +onlyGivenNames x; have hx : ∀ a, x a = x a := (fun _ => rfl); clear hx; subst x)
    | (extract_lets +onlyGivenNames x; clear_value x)
    | with_reducible apply Steady.ite
    | with_reducible apply State.modRun_steady
    | with_reducible apply State.tenFault_steady
    | with_reducible apply State.restoreFlow_steady
    | split

theorem State.restoreSettings_steady {r s : State} (h : Steady r s) :
    Steady r (State.restoreSettings s) := by
  unfold State.restoreSettings
  split
  · exact State.supplyThresholds_steady h
  · refine Steady.foldl _ h (fun t e ht => ?_)
    split
    · exact ht.trans ⟨rfl, id, fun k => ⟨k.1, k.2.1, k.2.2.1, RegFile.wf_set k.2.2.2.1, RegFile.wf_set k.2.2.2.2⟩⟩
    · exact ht

theorem State.putLive_steady {r s : State} {forme : Forme} {amends : Nat} {ps : Nat} (h : Steady r s) :
    Steady r (State.putLive s forme amends ps) := by
  unfold State.putLive
  repeat' first
    | with_reducible assumption
    | (extract_lets +onlyGivenNames x; with_reducible refine Steady.name (r := r) (s := x) ?_ (fun hx => ?_); (on_goal 2 => clear_value x); (on_goal 1 => subst x))
    | (extract_lets +onlyGivenNames x; clear_value x)
    | with_reducible exact Steady.upd_forme_amends_adm_servers_fencedLanes_fencedEngines (by assumption)
    | with_reducible apply State.setFld_steady
    | with_reducible apply State.freshStations_steady
    | with_reducible apply Steady.upd_forme_amends_adm_servers_fencedLanes_fencedEngines

theorem State.putBlank_steady {r s : State} (h : Steady r s) :
    Steady r (State.putBlank s) := by
  unfold State.putBlank
  repeat' first
    | with_reducible assumption
    | with_reducible exact Steady.upd_taken_saved (by assumption)
    | with_reducible apply State.putLive_steady
    | with_reducible apply Steady.upd_taken_saved

theorem State.restoreForme_steady {r s : State} {f : Fetch} (h : Steady r s) :
    Steady r (State.restoreForme s f) := by
  unfold State.restoreForme
  repeat' first
    | with_reducible assumption
    | intro _
    | (extract_lets +onlyGivenNames x; with_reducible refine Steady.name (r := r) (s := x) ?_ (fun hx => ?_); (on_goal 2 => clear_value x); (on_goal 1 => subst x))
    | (extract_lets +onlyGivenNames x; with_reducible refine Steady.name (r := r) (s := x.1) ?_ (fun hx => ?_); (on_goal 2 => clear_value x); (on_goal 1 => subst x))
    | (extract_lets +onlyGivenNames x; have hx : ∀ a, x a = x a := (fun _ => rfl); clear hx; subst x)
    | (extract_lets +onlyGivenNames x; clear_value x)
    | with_reducible exact Steady.upd_taken (by assumption)
    | with_reducible apply State.putBlank_steady
    | with_reducible apply State.fetchFail_steady
    | with_reducible apply State.setFld_steady
    | with_reducible apply State.recordRefusal_steady
    | with_reducible apply State.putLive_steady
    | with_reducible apply State.resume_steady
    | with_reducible apply Steady.foldl
    | with_reducible apply Steady.foldl_fst
    | (with_reducible refine Steady.of_fst ?_ (by assumption))
    | (with_reducible refine Steady.of_snd ?_ (by assumption))
    | split
    | with_reducible apply Steady.upd_taken

theorem State.restoreAll_steady {r s : State} (h : Steady r s) :
    Steady r (State.restoreAll s) := by
  unfold State.restoreAll
  repeat' first
    | with_reducible assumption
    | (extract_lets +onlyGivenNames x; with_reducible refine Steady.name (r := r) (s := x) ?_ (fun hx => ?_); (on_goal 2 => clear_value x); (on_goal 1 => subst x))
    | (extract_lets +onlyGivenNames x; clear_value x)
    | with_reducible exact Steady.upd_forme (by assumption)
    | with_reducible apply State.restoreSettings_steady
    | (with_reducible refine Steady.of_fst ?_ (by assumption))
    | (with_reducible refine Steady.of_snd ?_ (by assumption))
    | split
    | with_reducible apply Steady.upd_forme

theorem State.finishReload_steady {r s : State} {j : Job} (h : Steady r s) :
    Steady r (State.finishReload s j) := by
  unfold State.finishReload
  repeat' first
    | with_reducible assumption
    | (extract_lets +onlyGivenNames x; with_reducible refine Steady.name (r := r) (s := x) ?_ (fun hx => ?_); (on_goal 2 => clear_value x); (on_goal 1 => subst x))
    | (extract_lets +onlyGivenNames x; clear_value x)
    | with_reducible apply Steady.ite
    | with_reducible exact Steady.upd_job_tasks_weir_ckptAreas (by assumption)
    | with_reducible apply State.abortTasks_steady
    | with_reducible apply State.applyCaptures_steady
    | with_reducible apply State.raise_steady
    | with_reducible apply State.restoreForme_steady
    | with_reducible apply State.restoreAll_steady
    | with_reducible apply State.setFld_steady
    | with_reducible apply State.setFlds_steady
    | split
    | with_reducible apply Steady.upd_job_tasks_weir_ckptAreas

theorem State.checkParts_steady {r s : State} (h : Steady r s) :
    Steady r (State.checkParts s) := by
  unfold State.checkParts
  repeat' first
    | with_reducible assumption
    | (extract_lets +onlyGivenNames x; with_reducible refine Steady.name (r := r) (s := x) ?_ (fun hx => ?_); (on_goal 2 => clear_value x); (on_goal 1 => subst x))
    | (extract_lets +onlyGivenNames x; have hx : ∀ a, x a = x a := (fun _ => rfl); clear hx; subst x)
    | (extract_lets +onlyGivenNames x; clear_value x)
    | with_reducible apply Steady.ite
    | with_reducible apply State.raise_steady
    | split

end Sys2Proof.Machine
end

