-- ==== Sys2Proof/Laws/FrameTakeover.lean ====
section
/-! SUPPORT. What the operations of Machine/Takeover.lean leave as it is. -/

set_option Elab.async false
set_option linter.unusedTactic false
set_option linter.unreachableTactic false

namespace Sys2Proof.Machine

open Sys2Proof.Safety

theorem State.peerContext_steady {r s : State} {f : Fetch} {fe : FlowEntry} {a3 : Nat} (h : Steady r s) :
    Steady r (State.peerContext s f fe a3).1 := by
  unfold State.peerContext
  repeat' first
    | with_reducible assumption
    | intro _
    | (extract_lets +onlyGivenNames x; with_reducible refine Steady.name (r := r) (s := x) ?_ (fun hx => ?_); (on_goal 2 => clear_value x); (on_goal 1 => subst x))
    | (extract_lets +onlyGivenNames x; with_reducible refine Steady.name (r := r) (s := x.1) ?_ (fun hx => ?_); (on_goal 2 => clear_value x); (on_goal 1 => subst x))
    | (extract_lets +onlyGivenNames x; have hx : ∀ a, x a = x a := (fun _ => rfl); clear hx; subst x)
    | (extract_lets +onlyGivenNames x; clear_value x)
    | with_reducible apply State.lackAnswer_steady
    | with_reducible apply State.raise_steady
    | with_reducible apply Steady.foldl
    | with_reducible apply Steady.foldl_fst
    | (with_reducible refine Steady.of_fst ?_ (by assumption))
    | (with_reducible refine Steady.of_snd ?_ (by assumption))
    | split

theorem State.restorePeer_steady {r s : State} {f : Fetch} {fe : FlowEntry} (h : Steady r s) :
    Steady r (State.restorePeer s f fe) := by
  unfold State.restorePeer
  repeat' first
    | with_reducible assumption
    | intro _
    | (extract_lets +onlyGivenNames x; with_reducible refine Steady.name (r := r) (s := x) ?_ (fun hx => ?_); (on_goal 2 => clear_value x); (on_goal 1 => subst x))
    | (extract_lets +onlyGivenNames x; with_reducible refine Steady.name (r := r) (s := x.1) ?_ (fun hx => ?_); (on_goal 2 => clear_value x); (on_goal 1 => subst x))
    | (extract_lets +onlyGivenNames x; have hx : ∀ a, x a = x a := (fun _ => rfl); clear hx; subst x)
    | (extract_lets +onlyGivenNames x; clear_value x)
    | with_reducible apply Steady.ite
    | with_reducible exact Steady.upd_nextTask (by assumption)
    | with_reducible apply State.peerContext_steady
    | with_reducible apply State.setRun_steady
    | with_reducible apply State.checkpoint_steady
    | with_reducible apply Steady.foldl
    | with_reducible apply Steady.foldl_fst
    | (with_reducible refine Steady.of_fst ?_ (by assumption))
    | (with_reducible refine Steady.of_snd ?_ (by assumption))
    | split
    | with_reducible apply Steady.upd_nextTask

theorem State.showTko_steady {r s : State} {l : List (Prod Nat (Prod Nat (Prod Nat Nat)))} (h : Steady r s) :
    Steady r (State.showTko s l) := by
  unfold State.showTko
  repeat' first
    | with_reducible assumption
    | intro _
    | (extract_lets +onlyGivenNames x; with_reducible refine Steady.name (r := r) (s := x) ?_ (fun hx => ?_); (on_goal 2 => clear_value x); (on_goal 1 => subst x))
    | (extract_lets +onlyGivenNames x; with_reducible refine Steady.name (r := r) (s := x.1) ?_ (fun hx => ?_); (on_goal 2 => clear_value x); (on_goal 1 => subst x))
    | (extract_lets +onlyGivenNames x; have hx : ∀ a, x a = x a := (fun _ => rfl); clear hx; subst x)
    | (extract_lets +onlyGivenNames x; clear_value x)
    | with_reducible apply State.setFlds_steady
    | with_reducible apply Steady.foldl
    | with_reducible apply Steady.foldl_fst
    | (with_reducible refine Steady.of_fst ?_ (by assumption))
    | (with_reducible refine Steady.of_snd ?_ (by assumption))
    | split

theorem State.postTakenRecord_steady {r s : State} {d : List Byte} (h : Steady r s) :
    Steady r (State.postTakenRecord s d) := by
  unfold State.postTakenRecord
  repeat' first
    | with_reducible assumption
    | intro _
    | (extract_lets +onlyGivenNames x; with_reducible refine Steady.name (r := r) (s := x) ?_ (fun hx => ?_); (on_goal 2 => clear_value x); (on_goal 1 => subst x))
    | (extract_lets +onlyGivenNames x; have hx : ∀ a, x a = x a := (fun _ => rfl); clear hx; subst x)
    | (extract_lets +onlyGivenNames x; clear_value x)
    | with_reducible apply Steady.ite
    | with_reducible apply State.incFld_steady
    | with_reducible apply State.writeEntry_steady
    | (with_reducible refine Steady.of_fst ?_ (by assumption))
    | (with_reducible refine Steady.of_snd ?_ (by assumption))
    | split

theorem State.finishTakeover_steady {r s : State} {a1 : TkoRun} {j : Job} (h : Steady r s) :
    Steady r (State.finishTakeover s a1 j) := by
  unfold State.finishTakeover
  repeat' first
    | with_reducible assumption
    | intro _
    | (extract_lets +onlyGivenNames x; with_reducible refine Steady.name (r := r) (s := x) ?_ (fun hx => ?_); (on_goal 2 => clear_value x); (on_goal 1 => subst x))
    | (extract_lets +onlyGivenNames x; with_reducible refine Steady.name (r := r) (s := x.1) ?_ (fun hx => ?_); (on_goal 2 => clear_value x); (on_goal 1 => subst x))
    | (extract_lets +onlyGivenNames x; have hx : ∀ a, x a = x a := (fun _ => rfl); clear hx; subst x)
    | (extract_lets +onlyGivenNames x; clear_value x)
    | with_reducible apply Steady.ite
    | with_reducible exact Steady.upd_job (by assumption)
    | with_reducible exact Steady.upd_taken (by assumption)
    | with_reducible exact Steady.upd_tko (by assumption)
    | with_reducible apply State.quoinAmend_steady
    | with_reducible apply State.restorePeer_steady
    | with_reducible apply State.recheckAll_steady
    | with_reducible apply State.showTko_steady
    | with_reducible apply State.postTakenRecord_steady
    | with_reducible apply State.setFlds_steady
    | with_reducible apply State.tenFault_steady
    | with_reducible apply Steady.foldl
    | with_reducible apply Steady.foldl_fst
    | split
    | with_reducible apply Steady.upd_job
    | with_reducible apply Steady.upd_taken
    | with_reducible apply Steady.upd_tko

theorem State.takeoverHeld_steady {r s : State} (h : Steady r s) :
    Steady r (State.takeoverHeld s) := by
  unfold State.takeoverHeld
  repeat' first
    | with_reducible assumption
    | with_reducible apply Steady.ite
    | with_reducible apply State.finishTakeover_steady
    | (with_reducible refine Steady.of_fst ?_ (by assumption))
    | (with_reducible refine Steady.of_snd ?_ (by assumption))
    | split

theorem State.clearTko_steady {r s : State} (h : Steady r s) :
    Steady r (State.clearTko s) := by
  unfold State.clearTko
  refine State.setFlds_steady ?_
  exact h.regs (fun hq => RegFile.wf_filter hq)

theorem State.takeover_steady {r s : State} {f : Fetch} (h : Steady r s) :
    Steady r (State.takeover s f) := by
  unfold State.takeover
  repeat' first
    | with_reducible assumption
    | intro _
    | (extract_lets +onlyGivenNames x; with_reducible refine Steady.name (r := r) (s := x) ?_ (fun hx => ?_); (on_goal 2 => clear_value x); (on_goal 1 => subst x))
    | (extract_lets +onlyGivenNames x; with_reducible refine Steady.name (r := r) (s := x.1) ?_ (fun hx => ?_); (on_goal 2 => clear_value x); (on_goal 1 => subst x))
    | (extract_lets +onlyGivenNames x; have hx : ∀ a, x a = x a := (fun _ => rfl); clear hx; subst x)
    | (extract_lets +onlyGivenNames x; clear_value x)
    | with_reducible apply Steady.ite
    | with_reducible exact Steady.upd_job_tko (by assumption)
    | with_reducible apply State.raiseOn_steady
    | with_reducible apply State.finishReload_steady
    | with_reducible apply State.releaseClaims_steady
    | with_reducible apply State.endAttempt_steady
    | with_reducible apply State.setFld_steady
    | with_reducible apply State.clearTko_steady
    | with_reducible apply State.lackAnswer_steady
    | with_reducible apply State.recordRefusal_steady
    | with_reducible apply State.showTko_steady
    | with_reducible apply State.takeoverHeld_steady
    | with_reducible apply State.claimFree_steady
    | with_reducible apply Steady.foldl
    | with_reducible apply Steady.foldl_fst
    | (with_reducible refine Steady.of_fst ?_ (by assumption))
    | (with_reducible refine Steady.of_snd ?_ (by assumption))
    | split
    | with_reducible apply Steady.upd_job_tko

theorem State.writeTko_steady {r s : State} {v : Word} {f : Fetch} (h : Steady r s) :
    Steady r (State.writeTko s v f) := by
  unfold State.writeTko
  repeat' first
    | with_reducible assumption
    | (extract_lets +onlyGivenNames x; with_reducible refine Steady.name (r := r) (s := x) ?_ (fun hx => ?_); (on_goal 2 => clear_value x); (on_goal 1 => subst x))
    | (extract_lets +onlyGivenNames x; clear_value x)
    | with_reducible apply Steady.ite
    | with_reducible apply State.setFld_steady
    | with_reducible apply State.takeover_steady
    | split

theorem State.takeoverTimeout_steady {r s : State} (h : Steady r s) :
    Steady r (State.takeoverTimeout s) := by
  unfold State.takeoverTimeout
  repeat' first
    | with_reducible assumption
    | intro _
    | (extract_lets +onlyGivenNames x; with_reducible refine Steady.name (r := r) (s := x) ?_ (fun hx => ?_); (on_goal 2 => clear_value x); (on_goal 1 => subst x))
    | (extract_lets +onlyGivenNames x; have hx : ∀ a, x a = x a := (fun _ => rfl); clear hx; subst x)
    | (extract_lets +onlyGivenNames x; clear_value x)
    | with_reducible apply Steady.ite
    | with_reducible exact Steady.upd_job_tko (by assumption)
    | with_reducible apply State.advance_steady
    | with_reducible apply State.finishTakeover_steady
    | (with_reducible refine Steady.of_fst ?_ (by assumption))
    | (with_reducible refine Steady.of_snd ?_ (by assumption))
    | split
    | with_reducible apply Steady.upd_job_tko

end Sys2Proof.Machine
end

