-- ==== Sys2Proof/Laws/FrameClocks.lean ====
section
/-! SUPPORT. What the operations of Machine/Clocks.lean leave as it is. -/

set_option Elab.async false
set_option linter.unusedTactic false
set_option linter.unreachableTactic false

namespace Sys2Proof.Machine

open Sys2Proof.Safety

theorem State.wakeAll_steady {r s : State} (h : Steady r s) : Steady r (State.wakeAll s) := by
  unfold State.wakeAll
  exact State.wake_steady (State.wake_steady (State.wake_steady h))

theorem State.wakeForWork_keeps {r s : State} (h : Keeps r s) :
    Keeps r (State.wakeForWork s) := by
  unfold State.wakeForWork
  repeat' first
    | with_reducible assumption
    | intro _
    | with_reducible apply Keeps.ite
    | with_reducible apply State.wake_keeps
    | with_reducible apply Keeps.foldl
    | with_reducible apply Keeps.foldl_fst
    | split

theorem State.wakeForWork_steady {r s : State} (h : Steady r s) :
    Steady r (State.wakeForWork s) :=
  (State.wakeForWork_keeps (Keeps.refl _)).after h

theorem State.inDomain_steady {r s : State} {d : Domain} {op : State → State} (h : Steady r s) (hop : ∀ x, Steady r x → Steady r (op x)) :
    Steady r (State.inDomain s d op) := by
  unfold State.inDomain
  repeat' first
    | with_reducible assumption
    | intro _
    | with_reducible apply Steady.ite
    | with_reducible apply State.wake_steady
    | with_reducible apply hop
    | split

theorem State.takeShare_steady {r s : State} {v : Nat} (h : Steady r s) :
    Steady r (State.takeShare s v) := by
  unfold State.takeShare
  repeat' first
    | with_reducible assumption
    | intro _
    | with_reducible apply State.modPtc_steady

theorem State.applyHeld_steady {r s : State} (h : Steady r s) :
    Steady r (State.applyHeld s) := by
  unfold State.applyHeld
  repeat' first
    | with_reducible assumption
    | (extract_lets +onlyGivenNames x; with_reducible refine Steady.name (r := r) (s := x) ?_ (fun hx => ?_); (on_goal 2 => clear_value x); (on_goal 1 => subst x))
    | (extract_lets +onlyGivenNames x; clear_value x)
    | with_reducible exact Steady.upd_pmHeld (by assumption)
    | with_reducible apply State.takeShare_steady
    | with_reducible apply State.meas_steady
    | with_reducible apply State.vack_steady
    | (with_reducible refine Steady.of_fst ?_ (by assumption))
    | (with_reducible refine Steady.of_snd ?_ (by assumption))
    | split
    | with_reducible apply Steady.upd_pmHeld

theorem State.clkRun_steady {r s : State} {d : Domain} (h : Steady r s) :
    Steady r (State.clkRun s d) := by
  unfold State.clkRun
  repeat' first
    | with_reducible assumption
    | (extract_lets +onlyGivenNames x; with_reducible refine Steady.name (r := r) (s := x) ?_ (fun hx => ?_); (on_goal 2 => clear_value x); (on_goal 1 => subst x))
    | (extract_lets +onlyGivenNames x; clear_value x)
    | with_reducible apply State.setClk_steady
    | with_reducible apply State.setFlds_steady
    | (with_reducible refine Steady.of_fst ?_ (by assumption))
    | (with_reducible refine Steady.of_snd ?_ (by assumption))
    | split

theorem State.clkIdle_steady {r s : State} {d : Domain} (h : Steady r s) :
    Steady r (State.clkIdle s d) := by
  unfold State.clkIdle
  repeat' first
    | with_reducible assumption
    | intro _
    | with_reducible apply Steady.ite
    | with_reducible apply State.setClk_steady
    | split

theorem State.clkWakeTimeout_steady {r s : State} {d : Domain} (h : Steady r s) :
    Steady r (State.clkWakeTimeout s d) := by
  unfold State.clkWakeTimeout
  repeat' first
    | with_reducible assumption
    | with_reducible apply State.raiseOn_steady
    | with_reducible apply State.advance_steady
    | (with_reducible refine Steady.of_fst ?_ (by assumption))
    | (with_reducible refine Steady.of_snd ?_ (by assumption))
    | split

theorem State.clockLoss_steady {r s : State} {d : Domain} (h : Steady r s) :
    Steady r (State.clockLoss s d) := by
  unfold State.clockLoss
  repeat' first
    | with_reducible assumption
    | with_reducible apply Steady.ite
    | with_reducible apply State.raiseOn_steady
    | with_reducible apply State.setClk_steady
    | split

theorem State.timeSync_steady {r s : State} {v : Nat} (h : Steady r s) :
    Steady r (State.timeSync s v) := by
  unfold State.timeSync
  repeat' first
    | with_reducible assumption
    | (extract_lets +onlyGivenNames x; with_reducible refine Steady.name (r := r) (s := x) ?_ (fun hx => ?_); (on_goal 2 => clear_value x); (on_goal 1 => subst x))
    | (extract_lets +onlyGivenNames x; clear_value x)
    | with_reducible apply Steady.ite
    | with_reducible exact Steady.upd_time (by assumption)
    | with_reducible apply State.incFld_steady
    | with_reducible apply State.setFlds_steady
    | (with_reducible refine Steady.of_fst ?_ (by assumption))
    | (with_reducible refine Steady.of_snd ?_ (by assumption))
    | split
    | with_reducible apply Steady.upd_time

theorem State.syncLoss_steady {r s : State} (h : Steady r s) :
    Steady r (State.syncLoss s) := by
  unfold State.syncLoss
  repeat' first
    | with_reducible assumption
    | (extract_lets +onlyGivenNames x; with_reducible refine Steady.name (r := r) (s := x) ?_ (fun hx => ?_); (on_goal 2 => clear_value x); (on_goal 1 => subst x))
    | (extract_lets +onlyGivenNames x; clear_value x)
    | with_reducible apply Steady.ite
    | with_reducible apply State.setFld_steady
    | with_reducible apply State.advance_steady
    | (with_reducible refine Steady.of_fst ?_ (by assumption))
    | (with_reducible refine Steady.of_snd ?_ (by assumption))
    | split

theorem State.peerEdge_steady {r s : State} (h : Steady r s) :
    Steady r (State.peerEdge s) := by
  unfold State.peerEdge
  repeat' first
    | with_reducible assumption
    | with_reducible apply Steady.ite
    | with_reducible exact Steady.upd_peerSeen_peerAt (by assumption)
    | split
    | with_reducible apply Steady.upd_peerSeen_peerAt

theorem State.peerExpire_steady {r s : State} (h : Steady r s) :
    Steady r (State.peerExpire s) := by
  unfold State.peerExpire
  repeat' first
    | with_reducible assumption
    | with_reducible apply Steady.ite
    | with_reducible exact Steady.upd_peerSeen (by assumption)
    | with_reducible apply State.advance_steady
    | split
    | with_reducible apply Steady.upd_peerSeen

theorem State.aliveToggle_steady {r s : State} (h : Steady r s) :
    Steady r (State.aliveToggle s) := by
  unfold State.aliveToggle
  repeat' first
    | with_reducible assumption
    | (extract_lets +onlyGivenNames x; with_reducible refine Steady.name (r := r) (s := x) ?_ (fun hx => ?_); (on_goal 2 => clear_value x); (on_goal 1 => subst x))
    | (extract_lets +onlyGivenNames x; clear_value x)
    | with_reducible apply Steady.ite
    | with_reducible exact Steady.upd_alive_aliveAt (by assumption)
    | with_reducible apply State.advance_steady
    | split
    | with_reducible apply Steady.upd_alive_aliveAt

theorem State.powerMessage_steady {r s : State} {keep : State → State} {take : State → State} (h : Steady r s) (hkeep : ∀ x, Steady r x → Steady r (keep x)) (htake : ∀ x, Steady r x → Steady r (take x)) :
    Steady r (State.powerMessage s keep take) := by
  unfold State.powerMessage
  repeat' first
    | with_reducible assumption
    | with_reducible apply Steady.ite
    | with_reducible apply hkeep
    | with_reducible apply htake
    | split

theorem State.gotShare_steady {r s : State} {v : Nat} (h : Steady r s) :
    Steady r (State.gotShare s v) := by
  unfold State.gotShare
  repeat' first
    | with_reducible assumption
    | intro _
    | with_reducible exact Steady.upd_pmHeld (by assumption)
    | with_reducible apply State.powerMessage_steady
    | with_reducible apply State.takeShare_steady
    | with_reducible apply Steady.upd_pmHeld

theorem State.gotMeas_steady {r s : State} {v : Nat} (h : Steady r s) :
    Steady r (State.gotMeas s v) := by
  unfold State.gotMeas
  repeat' first
    | with_reducible assumption
    | intro _
    | with_reducible exact Steady.upd_pmHeld (by assumption)
    | with_reducible apply State.powerMessage_steady
    | with_reducible apply State.meas_steady
    | with_reducible apply Steady.upd_pmHeld

theorem State.gotVack_steady {r s : State} {v : Nat} (h : Steady r s) :
    Steady r (State.gotVack s v) := by
  unfold State.gotVack
  repeat' first
    | with_reducible assumption
    | intro _
    | with_reducible exact Steady.upd_pmHeld (by assumption)
    | with_reducible apply State.powerMessage_steady
    | with_reducible apply State.vack_steady
    | with_reducible apply Steady.upd_pmHeld

end Sys2Proof.Machine
end

