-- ==== Sys2Proof/Laws/FrameResets.lean ====
section
/-! SUPPORT. What the operations of Machine/Resets.lean leave as it is. -/

set_option Elab.async false
set_option linter.unusedTactic false
set_option linter.unreachableTactic false

namespace Sys2Proof.Machine

open Sys2Proof.Safety

theorem State.endAccesses_steady {r s : State} {l : List (CsReq × Nat)} (h : Steady r s) :
    Steady r (State.endAccesses s l) := by
  unfold State.endAccesses
  repeat' first
    | with_reducible assumption
    | intro _
    | with_reducible exact Steady.upd_resp (by assumption)
    | with_reducible apply State.logAccess_steady
    | with_reducible apply Steady.foldl
    | with_reducible apply Steady.foldl_fst
    | with_reducible apply Steady.upd_resp

theorem State.resetRegs_steady {r s : State} (h : Steady r s) :
    Steady r (State.resetRegs s) := by
  unfold State.resetRegs
  refine State.setFlds_steady ?_
  exact h.trans ⟨rfl, id, fun k => ⟨k.1, k.2.1, k.2.2.1, RegFile.wf_filter k.2.2.2.1, rfl⟩⟩

theorem State.dropAll_steady {r s : State} {life : Life} (h : Steady r s) :
    Steady r (State.dropAll s life) := by
  unfold State.dropAll
  extract_lets k t
  have hk : Steady r k := State.setFlds_steady (State.resetRegs_steady h)
  clear_value k
  exact Steady.dropped h hk rfl rfl rfl rfl rfl rfl rfl

theorem State.enterWarm_steady {r s : State} (h : Steady r s) : Steady r (State.enterWarm s) :=
  State.endAccesses_steady (Steady.upd_heldCs (State.dropAll_steady h))

theorem State.resetDomainRegs_steady {r s : State} {d : Domain} (h : Steady r s) :
    Steady r (State.resetDomainRegs s d) := by
  unfold State.resetDomainRegs
  extract_lets mine kept x
  refine Steady.foldl _ ?_ (fun t e ht => ?_)
  · exact h.trans ⟨rfl, id, fun k => ⟨k.1, k.2.1, k.2.2.1, RegFile.wf_filter k.2.2.2.1, RegFile.wf_filter k.2.2.2.2⟩⟩
  · exact ht.trans ⟨rfl, id, fun k => ⟨k.1, k.2.1, k.2.2.1, RegFile.wf_set k.2.2.2.1, RegFile.wf_set k.2.2.2.2⟩⟩

theorem State.loseStaging_steady {r s : State} {a1 : Task} (h : Steady r s) :
    Steady r (State.loseStaging s a1) := by
  unfold State.loseStaging
  repeat' first
    | with_reducible assumption
    | intro _
    | (extract_lets +onlyGivenNames x; with_reducible refine Steady.name (r := r) (s := x) ?_ (fun hx => ?_); (on_goal 2 => clear_value x); (on_goal 1 => subst x))
    | (extract_lets +onlyGivenNames x; have hx : ∀ a, x a = x a := (fun _ => rfl); clear hx; subst x)
    | (extract_lets +onlyGivenNames x; clear_value x)
    | with_reducible apply State.modDelta_steady
    | with_reducible apply State.discard_steady
    | (with_reducible refine Steady.of_fst ?_ (by assumption))
    | (with_reducible refine Steady.of_snd ?_ (by assumption))
    | split

theorem State.resetPclk_steady {r s : State} {f : Fetch} (h : Steady r s) :
    Steady r (State.resetPclk s f) := by
  unfold State.resetPclk
  repeat' first
    | with_reducible assumption
    | intro _
    | (extract_lets +onlyGivenNames x; with_reducible refine Steady.name (r := r) (s := x) ?_ (fun hx => ?_); (on_goal 2 => clear_value x); (on_goal 1 => subst x))
    | (extract_lets +onlyGivenNames x; with_reducible refine Steady.name (r := r) (s := x.1) ?_ (fun hx => ?_); (on_goal 2 => clear_value x); (on_goal 1 => subst x))
    | (extract_lets +onlyGivenNames x; have hx : ∀ a, x a = x a := (fun _ => rfl); clear hx; subst x)
    | (extract_lets +onlyGivenNames x; clear_value x)
    | with_reducible apply State.restoreFlow_steady
    | with_reducible apply State.stopFlow_steady
    | with_reducible apply State.abortUnit_steady
    | with_reducible apply State.resetDomainRegs_steady
    | with_reducible apply State.loseStaging_steady
    | with_reducible apply Steady.foldl
    | with_reducible apply Steady.foldl_fst

theorem State.resetEclk_steady {r s : State} (h : Steady r s) :
    Steady r (State.resetEclk s) := by
  unfold State.resetEclk
  repeat' first
    | with_reducible assumption
    | intro _
    | (extract_lets +onlyGivenNames x; with_reducible refine Steady.name (r := r) (s := x) ?_ (fun hx => ?_); (on_goal 2 => clear_value x); (on_goal 1 => subst x))
    | (extract_lets +onlyGivenNames x; with_reducible refine Steady.name (r := r) (s := x.1) ?_ (fun hx => ?_); (on_goal 2 => clear_value x); (on_goal 1 => subst x))
    | (extract_lets +onlyGivenNames x; have hx : ∀ a, x a = x a := (fun _ => rfl); clear hx; subst x)
    | (extract_lets +onlyGivenNames x; clear_value x)
    | with_reducible apply State.faultStop_steady
    | with_reducible apply State.modEnc_steady
    | with_reducible apply State.resetDec_steady
    | with_reducible apply State.resetDomainRegs_steady
    | with_reducible apply Steady.foldl
    | with_reducible apply Steady.foldl_fst

theorem State.restartFlows_steady {r s : State} {f : Fetch} (h : Steady r s) :
    Steady r (State.restartFlows s f) := by
  unfold State.restartFlows
  repeat' first
    | with_reducible assumption
    | intro _
    | (extract_lets +onlyGivenNames x; with_reducible refine Steady.name (r := r) (s := x) ?_ (fun hx => ?_); (on_goal 2 => clear_value x); (on_goal 1 => subst x))
    | (extract_lets +onlyGivenNames x; with_reducible refine Steady.name (r := r) (s := x.1) ?_ (fun hx => ?_); (on_goal 2 => clear_value x); (on_goal 1 => subst x))
    | (extract_lets +onlyGivenNames x; have hx : ∀ a, x a = x a := (fun _ => rfl); clear hx; subst x)
    | (extract_lets +onlyGivenNames x; clear_value x)
    | with_reducible apply State.freshStations_steady
    | with_reducible apply State.resume_steady
    | with_reducible apply Steady.foldl
    | with_reducible apply Steady.foldl_fst

theorem State.clearWork_steady {r s : State} (h : Steady r s) :
    Steady r (State.clearWork s) := by
  unfold State.clearWork
  repeat' first
    | with_reducible assumption
    | with_reducible exact Steady.upd_sqs_cqs_ports_due_tasks_batches_berths_swapBusy_swapQueue_txns_crcFails_weir_dltOut_dltQueue_stagger (by assumption)
    | with_reducible apply Steady.upd_sqs_cqs_ports_due_tasks_batches_berths_swapBusy_swapQueue_txns_crcFails_weir_dltOut_dltQueue_stagger

theorem State.resetFclk_steady {r s : State} {f : Fetch} (h : Steady r s) :
    Steady r (State.resetFclk s f) := by
  unfold State.resetFclk
  repeat' first
    | with_reducible assumption
    | with_reducible apply State.restartFlows_steady
    | with_reducible apply State.resetDomainRegs_steady
    | with_reducible apply State.clearWork_steady

theorem State.resetQclk_steady {r s : State} {f : Fetch} (h : Steady r s) :
    Steady r (State.resetQclk s f) := by
  unfold State.resetQclk
  extract_lets stalled time live q p x y z
  have hq : Steady r q := State.resetRegs_steady (State.clearWork_steady h)
  clear_value q
  have hx : Steady r x := Steady.emptied hq rfl rfl rfl rfl rfl rfl rfl rfl rfl rfl
  clear_value x
  have hy : Steady r y := Steady.foldl _ hx (fun t e ht => State.setReg_steady ht)
  clear_value y
  have hz : Steady r z := State.restoreSettings_steady (State.setFld_steady hy)
  clear_value z
  exact State.followVoltage_steady (State.settlePtc_steady (State.takeLimits_steady (State.endAccesses_steady (State.restartFlows_steady hz))))

theorem State.resetTclk_steady {r s : State} (h : Steady r s) :
    Steady r (State.resetTclk s) := by
  unfold State.resetTclk
  repeat' first
    | with_reducible assumption
    | with_reducible exact Steady.upd_time (by assumption)
    | with_reducible apply State.resetDomainRegs_steady
    | with_reducible apply Steady.upd_time

theorem State.domainReset_steady {r s : State} {domains : Nat} {f : Fetch} (h : Steady r s) :
    Steady r (State.domainReset s domains f) := by
  unfold State.domainReset
  repeat' first
    | with_reducible assumption
    | (extract_lets +onlyGivenNames x; with_reducible refine Steady.name (r := r) (s := x) ?_ (fun hx => ?_); (on_goal 2 => clear_value x); (on_goal 1 => subst x))
    | (extract_lets +onlyGivenNames x; clear_value x)
    | with_reducible apply Steady.ite
    | with_reducible apply State.wakeAll_steady
    | with_reducible apply State.resetPclk_steady
    | with_reducible apply State.resetEclk_steady
    | with_reducible apply State.resetFclk_steady
    | with_reducible apply State.resetQclk_steady
    | with_reducible apply State.resetTclk_steady
    | split

theorem State.startReload_steady {r s : State} {f : Fetch} (h : Steady r s) :
    Steady r (State.startReload s f) := by
  unfold State.startReload
  repeat' first
    | with_reducible assumption
    | intro _
    | with_reducible exact Steady.upd_job (by assumption)
    | with_reducible apply Steady.upd_job

theorem State.glbReset_steady {r s : State} {a1 : CsReq} {v : Word} {f : Fetch} (h : Steady r s) :
    Steady r (State.glbReset s a1 v f) := by
  unfold State.glbReset
  repeat' first
    | with_reducible assumption
    | (extract_lets +onlyGivenNames x; with_reducible refine Steady.name (r := r) (s := x) ?_ (fun hx => ?_); (on_goal 2 => clear_value x); (on_goal 1 => subst x))
    | (extract_lets +onlyGivenNames x; clear_value x)
    | with_reducible apply Steady.ite
    | with_reducible apply State.logAccess_steady
    | with_reducible apply State.setFld_steady
    | with_reducible apply State.enterWarm_steady
    | with_reducible apply State.domainReset_steady
    | with_reducible apply State.startReload_steady
    | split

theorem State.noCredits_steady {r s : State} {p : Nat} (h : Steady r s) :
    Steady r (State.noCredits s p) := by
  unfold State.noCredits
  repeat' first
    | with_reducible assumption
    | (extract_lets +onlyGivenNames x; with_reducible refine Steady.name (r := r) (s := x) ?_ (fun hx => ?_); (on_goal 2 => clear_value x); (on_goal 1 => subst x))
    | (extract_lets +onlyGivenNames x; clear_value x)
    | with_reducible apply Steady.ite
    | with_reducible exact Steady.upd_fencedUnits (by assumption)
    | with_reducible apply State.incFld_steady
    | with_reducible apply State.setFlds_steady
    | split
    | with_reducible apply Steady.upd_fencedUnits

theorem State.exchange_steady {r s : State} (h : Steady r s) :
    Steady r (State.exchange s) := by
  unfold State.exchange
  repeat' first
    | with_reducible assumption
    | intro _
    | with_reducible apply Steady.ite
    | with_reducible apply State.noCredits_steady
    | with_reducible apply Steady.foldl
    | with_reducible apply Steady.foldl_fst
    | split

theorem State.coldReset_steady {r s : State} (h : Steady r s) :
    Steady r (State.coldReset s) := by
  unfold State.coldReset
  exact Steady.blank h rfl rfl rfl rfl rfl rfl rfl

theorem State.coldStart_steady {r s : State} {lanes entropy credits : Nat} (h : Steady r s) (hl : lanes ≤ 144)
    (he : entropy ≤ 52) : Steady r (State.coldStart s lanes entropy credits) := by
  unfold State.coldStart
  split
  · rename_i hc
    refine h.trans ⟨rfl, id, fun k => ⟨fun hr => ?_, k.2.1, ⟨hl, he⟩, k.2.2.2⟩⟩
    have := (k.1 hr).1
    rw [hc] at this; cases this
  · exact h

theorem State.tmodeChange_steady {r s : State} {level : Bool} (h : Steady r s) :
    Steady r (State.tmodeChange s level) := by
  unfold State.tmodeChange
  split
  · exact h
  · unfold State.coldReset
    exact Steady.blank h rfl rfl rfl rfl rfl rfl rfl

theorem State.instLowEdge_steady {r s : State} (h : Steady r s) :
    Steady r (State.instLowEdge s) := by
  unfold State.instLowEdge
  repeat' first
    | with_reducible assumption
    | (extract_lets +onlyGivenNames x; with_reducible refine Steady.name (r := r) (s := x) ?_ (fun hx => ?_); (on_goal 2 => clear_value x); (on_goal 1 => subst x))
    | (extract_lets +onlyGivenNames x; clear_value x)
    | with_reducible exact Steady.upd_instLow (by assumption)
    | with_reducible apply State.enterWarm_steady
    | (with_reducible refine Steady.of_fst ?_ (by assumption))
    | (with_reducible refine Steady.of_snd ?_ (by assumption))
    | split
    | with_reducible apply Steady.upd_instLow

theorem State.clearRc_steady {r s : State} {off : Nat} (h : Steady r s) :
    Steady r (State.clearRc s off) := by
  unfold State.clearRc
  repeat' first
    | with_reducible assumption
    | intro _
    | with_reducible apply State.setFld_steady
    | with_reducible apply Steady.foldl
    | with_reducible apply Steady.foldl_fst
    | (with_reducible refine Steady.of_fst ?_ (by assumption))
    | (with_reducible refine Steady.of_snd ?_ (by assumption))
    | split

theorem State.csReadNow_steady {r s : State} {a1 : CsReq} {off : Nat} {len : Nat} (h : Steady r s) :
    Steady r (State.csReadNow s a1 off len) := by
  unfold State.csReadNow
  repeat' first
    | with_reducible assumption
    | (extract_lets +onlyGivenNames x; with_reducible refine Steady.name (r := r) (s := x) ?_ (fun hx => ?_); (on_goal 2 => clear_value x); (on_goal 1 => subst x))
    | (extract_lets +onlyGivenNames x; clear_value x)
    | with_reducible apply Steady.ite
    | with_reducible exact Steady.upd_heldCs (by assumption)
    | with_reducible exact Steady.upd_resp (by assumption)
    | with_reducible apply State.logAccess_steady
    | with_reducible apply State.clearRc_steady
    | (with_reducible refine Steady.of_fst ?_ (by assumption))
    | (with_reducible refine Steady.of_snd ?_ (by assumption))
    | split
    | with_reducible apply Steady.upd_heldCs
    | with_reducible apply Steady.upd_resp

theorem State.csRead_steady {r s : State} {a1 : CsReq} {off : Nat} {len : Nat} (h : Steady r s) :
    Steady r (State.csRead s a1 off len) := by
  unfold State.csRead
  split
  · exact h
  · split
    · exact State.holdAccess_steady h
    · split
      · exact State.wake_steady (State.holdAccess_steady h)
      · exact State.csReadNow_steady h

theorem State.replayHeld_steady {r s : State} (h : Steady r s) :
    Steady r (State.replayHeld s) := by
  unfold State.replayHeld
  refine Steady.foldl _ (Steady.upd_heldCs h) (fun t e ht => ?_)
  split
  · exact State.csWriteNow_steady ht (fun x hx => hx)
  · exact State.csReadNow_steady ht

theorem State.restoreBins_steady {r s : State} (h : Steady r s) :
    Steady r (State.restoreBins s) := by
  unfold State.restoreBins
  repeat' first
    | with_reducible assumption
    | intro _
    | (extract_lets +onlyGivenNames x; with_reducible refine Steady.name (r := r) (s := x) ?_ (fun hx => ?_); (on_goal 2 => clear_value x); (on_goal 1 => subst x))
    | (extract_lets +onlyGivenNames x; have hx : ∀ a, x a = x a := (fun _ => rfl); clear hx; subst x)
    | (extract_lets +onlyGivenNames x; clear_value x)
    | with_reducible apply State.takeLimits_steady
    | with_reducible apply State.modPtc_steady
    | (with_reducible refine Steady.of_fst ?_ (by assumption))
    | (with_reducible refine Steady.of_snd ?_ (by assumption))
    | split

theorem State.supplyLoss_steady {r s : State} (h : Steady r s) :
    Steady r (State.supplyLoss s) := by
  unfold State.supplyLoss
  split
  · exact h
  · exact Steady.upd_heldCs_aliveOn_clk (State.dropAll_steady h)

end Sys2Proof.Machine
end

