-- ==== Sys2Proof/Laws/FrameGuardPort.lean ====
section
/-! SUPPORT. What the operations of Machine/GuardPort.lean leave as it is. -/

set_option Elab.async false
set_option linter.unusedTactic false
set_option linter.unreachableTactic false

namespace Sys2Proof.Machine

open Sys2Proof.Safety

theorem State.guardFail_steady {r s : State} {status : Nat} (h : Steady r s) :
    Steady r (State.guardFail s status) := by
  unfold State.guardFail
  repeat' first
    | with_reducible assumption
    | with_reducible exact Steady.upd_guardResp (by assumption)
    | with_reducible apply State.raiseOn_steady
    | with_reducible apply Steady.upd_guardResp

theorem State.forget_steady {r s : State} (h : Steady r s) :
    Steady r (State.forget s) := by
  unfold State.forget
  exact h.trans ⟨rfl, id, fun k => ⟨k.1, k.2.1, k.2.2.1, RegFile.wf_filter k.2.2.2.1, k.2.2.2.2⟩⟩

theorem State.afterGuard_steady {r s : State} {off : Nat} (h : Steady r s) :
    Steady r (State.afterGuard s off) := by
  unfold State.afterGuard
  repeat' first
    | with_reducible assumption
    | with_reducible apply Steady.ite
    | with_reducible apply State.tableWritten_steady
    | with_reducible apply State.resetSrc_steady
    | split

theorem State.guardRead_steady {r s : State} {a1 : BitVec 32} (h : Steady r s) :
    Steady r (State.guardRead s a1) := by
  unfold State.guardRead
  repeat' first
    | with_reducible assumption
    | with_reducible apply Steady.ite
    | with_reducible exact Steady.upd_guardResp (by assumption)
    | with_reducible apply State.guardFail_steady
    | split
    | with_reducible apply Steady.upd_guardResp

theorem State.guardRepair_steady {r s : State} {a1 : BitVec 32} {ws : List (BitVec 32)} (h : Steady r s) :
    Steady r (State.guardRepair s a1 ws) := by
  unfold State.guardRepair
  repeat' first
    | with_reducible assumption
    | with_reducible apply Steady.ite
    | with_reducible exact Steady.upd_repair_guardResp (by assumption)
    | with_reducible apply State.guardFail_steady
    | split
    | with_reducible apply Steady.upd_repair_guardResp

theorem State.guardGap_steady {r s : State} (h : Steady r s) :
    Steady r (State.guardGap s) := by
  unfold State.guardGap
  repeat' first
    | with_reducible assumption
    | with_reducible apply Steady.ite
    | with_reducible apply State.guardFail_steady
    | split

end Sys2Proof.Machine
end

