-- ==== Sys2Proof/Laws/FrameBoundary.lean ====
section
/-! SUPPORT. What the operations of Machine/Boundary.lean leave as it is. -/

set_option Elab.async false
set_option linter.unusedTactic false
set_option linter.unreachableTactic false

namespace Sys2Proof.Machine

open Sys2Proof.Safety

theorem State.clearCapture_steady {r s : State} {off : Nat} (h : Steady r s) :
    Steady r (State.clearCapture s off) := by
  unfold State.clearCapture
  exact h.regs (fun hq => RegFile.wf_erase (RegFile.wf_erase (RegFile.wf_erase (RegFile.wf_erase hq))))

theorem State.writeReg_steady {r s : State} {off : Nat} {v : Word} (h : Steady r s) :
    Steady r (State.writeReg s off v) := by
  unfold State.writeReg
  split
  · exact h
  · split
    · exact h
    · split
      · exact h.trans ⟨rfl, id, fun k => ⟨k.1, k.2.1, k.2.2.1, k.2.2.2.1, RegFile.wf_set k.2.2.2.2⟩⟩
      · split
        · split
          · exact State.clearCapture_steady h
          · exact h
        · split
          · exact State.saveSettings_steady (State.setReg_steady h)
          · exact State.setReg_steady h

theorem State.pageEffect_steady {r s : State} {q : CsReq} {t : Fin 16} {off : Nat} {v : Word} {f : Fetch} (h : Steady r s)
    (hn : s.stalls t = false) : Steady r (State.pageEffect s q t off v f) := by
  unfold State.pageEffect
  extract_lets o
  clear_value o
  repeat' first
    | with_reducible assumption
    | with_reducible apply State.pushWrite_steady
    | with_reducible apply Steady.ite
    | with_reducible apply State.tenancyReset_steady
    | with_reducible apply State.ringCommand_steady
    | with_reducible apply State.sqTable_steady
    | with_reducible apply State.cqTable_steady
    | with_reducible apply State.liveTable_steady
    | with_reducible apply State.commitGo_steady
    | with_reducible apply State.writeReg_steady

theorem State.onPage_steady {r s : State} {a1 : CsReq} {a2 : Fin 16} {off : Nat} {v : Word} {f : Fetch} (h : Steady r s) :
    Steady r (State.onPage s a1 a2 off v f) := by
  unfold State.onPage
  split
  · exact h.modTen (fun x _ _ hl => hl)
  · rename_i hc
    simp only [Bool.or_eq_true, not_or, Bool.not_eq_true] at hc
    exact State.pageEffect_steady h hc.1

theorem State.writeFrm_steady {r s : State} {a1 : CsReq} {v : Word} {f : Fetch} (h : Steady r s) :
    Steady r (State.writeFrm s a1 v f) := by
  unfold State.writeFrm
  repeat' first
    | with_reducible assumption
    | intro _
    | (extract_lets +onlyGivenNames x; with_reducible refine Steady.name (r := r) (s := x) ?_ (fun hx => ?_); (on_goal 2 => clear_value x); (on_goal 1 => subst x))
    | (extract_lets +onlyGivenNames x; clear_value x)
    | with_reducible apply Steady.ite
    | with_reducible apply State.attempt_steady
    | with_reducible apply State.rejectBusy_steady
    | with_reducible apply State.logAccess_steady
    | with_reducible apply State.cancelAttempt_steady
    | split

theorem State.writeKat_steady {r s : State} {v : Word} (h : Steady r s) :
    Steady r (State.writeKat s v) := by
  unfold State.writeKat
  repeat' first
    | with_reducible assumption
    | (extract_lets +onlyGivenNames x; with_reducible refine Steady.name (r := r) (s := x) ?_ (fun hx => ?_); (on_goal 2 => clear_value x); (on_goal 1 => subst x))
    | (extract_lets +onlyGivenNames x; clear_value x)
    | with_reducible apply Steady.ite
    | with_reducible exact Steady.upd_katDue (by assumption)
    | with_reducible apply State.setReg_steady
    | with_reducible apply State.setFld_steady
    | split
    | with_reducible apply Steady.upd_katDue

theorem State.injectedInfo_steady {r s : State} {src : Nat} (h : Steady r s) :
    Steady r (State.injectedInfo s src).2 := by
  unfold State.injectedInfo
  repeat' first
    | with_reducible assumption
    | (extract_lets +onlyGivenNames x; with_reducible refine Steady.name (r := r) (s := x) ?_ (fun hx => ?_); (on_goal 2 => clear_value x); (on_goal 1 => subst x))
    | (extract_lets +onlyGivenNames x; clear_value x)
    | with_reducible apply State.nextFree_steady
    | (with_reducible refine Steady.of_fst ?_ (by assumption))
    | (with_reducible refine Steady.of_snd ?_ (by assumption))
    | split

theorem State.usedInjection_steady {r s : State} (h : Steady r s) :
    Steady r (State.usedInjection s) := by
  unfold State.usedInjection
  repeat' first
    | with_reducible assumption
    | (extract_lets +onlyGivenNames x; with_reducible refine Steady.name (r := r) (s := x) ?_ (fun hx => ?_); (on_goal 2 => clear_value x); (on_goal 1 => subst x))
    | (extract_lets +onlyGivenNames x; clear_value x)
    | with_reducible apply Steady.ite
    | with_reducible apply State.setFlds_steady
    | split

theorem State.injectRail_steady {r s : State} (h : Steady r s) :
    Steady r (State.injectRail s) := by
  unfold State.injectRail
  repeat' first
    | with_reducible assumption
    | (extract_lets +onlyGivenNames x; with_reducible refine Steady.name (r := r) (s := x) ?_ (fun hx => ?_); (on_goal 2 => clear_value x); (on_goal 1 => subst x))
    | (extract_lets +onlyGivenNames x; clear_value x)
    | with_reducible apply State.injectedInfo_steady
    | with_reducible apply State.usedInjection_steady
    | with_reducible apply State.railFault_steady
    | (with_reducible refine Steady.of_fst ?_ (by assumption))
    | (with_reducible refine Steady.of_snd ?_ (by assumption))
    | split

theorem injectEvents_steady {r s : State} {src : Nat} {a1 : Nat} (h : Steady r s) :
    Steady r (injectEvents src a1 s) := by
  induction a1 generalizing s with
  | zero => exact h
  | succ n ih =>
    unfold injectEvents
    repeat' first
      | with_reducible assumption
      | (extract_lets +onlyGivenNames x; with_reducible refine Steady.name (r := r) (s := x) ?_ (fun hx => ?_); (on_goal 2 => clear_value x); (on_goal 1 => subst x))
      | (extract_lets +onlyGivenNames x; clear_value x)
      | with_reducible apply ih
      | with_reducible apply State.injectedInfo_steady
      | with_reducible apply State.usedInjection_steady
      | with_reducible apply State.faultEvent_steady
      | (with_reducible refine Steady.of_fst ?_ (by assumption))
      | (with_reducible refine Steady.of_snd ?_ (by assumption))
      | split

theorem State.writeInj_steady {r s : State} {v : Word} (h : Steady r s) :
    Steady r (State.writeInj s v) := by
  unfold State.writeInj
  repeat' first
    | with_reducible assumption
    | (extract_lets +onlyGivenNames x; with_reducible refine Steady.name (r := r) (s := x) ?_ (fun hx => ?_); (on_goal 2 => clear_value x); (on_goal 1 => subst x))
    | (extract_lets +onlyGivenNames x; clear_value x)
    | with_reducible apply Steady.ite
    | with_reducible apply State.setReg_steady
    | with_reducible apply State.setFld_steady
    | with_reducible apply State.injectRail_steady
    | with_reducible apply injectEvents_steady
    | split

theorem State.topEffect_steady {r s : State} {a1 : CsReq} {off : Nat} {v : Word} {f : Fetch} (h : Steady r s) :
    Steady r (State.topEffect s a1 off v f) := by
  unfold State.topEffect
  repeat' first
    | with_reducible assumption
    | intro _
    | with_reducible apply Steady.ite
    | with_reducible apply State.glbReset_steady
    | with_reducible apply State.writeFrm_steady
    | with_reducible apply State.writeKat_steady
    | with_reducible apply State.writeInj_steady
    | with_reducible apply State.commitGo_steady
    | with_reducible apply State.writeReg_steady
    | (with_reducible refine Steady.of_fst ?_ (by assumption))
    | (with_reducible refine Steady.of_snd ?_ (by assumption))
    | split

theorem State.writeEffect_steady {r s : State} {a1 : CsReq} {off : Nat} {v : Word} {f : Fetch} (h : Steady r s) :
    Steady r (State.writeEffect s a1 off v f) := by
  unfold State.writeEffect
  repeat' first
    | with_reducible assumption
    | intro _
    | with_reducible apply State.onPage_steady
    | with_reducible apply State.topEffect_steady
    | (with_reducible refine Steady.of_fst ?_ (by assumption))
    | (with_reducible refine Steady.of_snd ?_ (by assumption))
    | split

theorem State.hostWrite_steady {r s : State} {a1 : CsReq} {off : Nat} {len : Nat} {v : Word} {f : Fetch} (h : Steady r s) :
    Steady r (State.hostWrite s a1 off len v f) := by
  unfold State.hostWrite
  repeat' first
    | with_reducible assumption
    | intro _
    | with_reducible apply State.csWrite_steady
    | with_reducible apply State.writeEffect_steady

theorem State.performHeld_steady {r s : State} {a : HeldAccess} (h : Steady r s) : Steady r (State.performHeld s a) := by
  unfold State.performHeld
  split
  · exact State.csWriteNow_steady h (fun x hx => State.writeEffect_steady hx)
  · exact State.csReadNow_steady h

theorem State.performAll_steady {r s : State} {n : Nat} (h : Steady r s) : Steady r (State.performAll n s) := by
  induction n generalizing s with
  | zero => exact h
  | succ n ih =>
    unfold State.performAll
    split
    · exact h
    · split
      · exact State.wake_steady h
      · exact ih (State.performHeld_steady (Steady.upd_heldCs h))

theorem State.clockUp_steady {r s : State} {d : Domain} (h : Steady r s) : Steady r (State.clockUp s d) := by
  have hx : Steady r (s.clkRun d) := State.clkRun_steady h
  unfold State.clockUp
  extract_lets x
  split
  · exact hx
  · exact State.performAll_steady hx

theorem State.hostPage_steady {r s : State} {a1 : CsReq} {a2 : Fin 16} {row : RegRow} {v : Word} {f : Fetch} (h : Steady r s) :
    Steady r (State.hostPage s a1 a2 row v f) := by
  unfold State.hostPage
  repeat' first
    | with_reducible assumption
    | with_reducible apply State.hostWrite_steady

theorem State.unstall_steady {r s : State} {t : Fin 16} {f : Fetch} {n : Nat} (h : Steady r s) :
    Steady r (State.unstall t f n s) := by
  induction n generalizing s with
  | zero => exact h
  | succ n ih =>
    unfold State.unstall
    split
    · exact h
    · rename_i hn
      split
      · exact h
      · rename_i p rest hp
        have hx : Steady r (s.modTen t (fun x => { x with stalled := rest })) := h.modTen (fun x _ _ hl => hl)
        have hy : (s.modTen t (fun x => { x with stalled := rest })).stalls t = false := by
          simp only [Bool.not_eq_true, State.stalls, decide_eq_false_iff_not, State.tenRun, State.modTen,
            List.getD_eq_getElem?_getD, List.getElem?_mapIdx] at hn ⊢
          cases hx : s.tens[t.val]? with
          | none => simp
          | some x => rw [hx] at hn; simpa using hn
        refine ih (Steady.ite (State.pushWrite_steady hx hy) (State.pageEffect_steady hx hy))

theorem State.pushDrain_steady {r s : State} {f : Fetch} (h : Steady r s) :
    Steady r (State.pushDrain s f) := by
  unfold State.pushDrain
  repeat' first
    | with_reducible assumption
    | (extract_lets +onlyGivenNames x; with_reducible refine Steady.name (r := r) (s := x) ?_ (fun hx => ?_); (on_goal 2 => clear_value x); (on_goal 1 => subst x))
    | (extract_lets +onlyGivenNames x; clear_value x)
    | with_reducible apply Steady.ite
    | with_reducible exact Steady.upd_pushRot (by assumption)
    | with_reducible apply State.drainOne_steady
    | with_reducible apply State.unstall_steady
    | (with_reducible refine Steady.of_fst ?_ (by assumption))
    | (with_reducible refine Steady.of_snd ?_ (by assumption))
    | split
    | with_reducible apply Steady.upd_pushRot

theorem State.railFaultEnd_steady {r s : State} {src : Nat} (h : Steady r s) :
    Steady r (State.railFaultEnd s src) := by
  unfold State.railFaultEnd
  repeat' first
    | with_reducible assumption
    | (extract_lets +onlyGivenNames x; with_reducible refine Steady.name (r := r) (s := x) ?_ (fun hx => ?_); (on_goal 2 => clear_value x); (on_goal 1 => subst x))
    | (extract_lets +onlyGivenNames x; clear_value x)
    | with_reducible apply Steady.ite
    | with_reducible apply State.railEnd_steady
    | with_reducible apply State.injectRail_steady
    | split

theorem State.katDone_steady {r s : State} (h : Steady r s) :
    Steady r (State.katDone s) := by
  unfold State.katDone
  repeat' first
    | with_reducible assumption
    | (extract_lets +onlyGivenNames x; with_reducible refine Steady.name (r := r) (s := x) ?_ (fun hx => ?_); (on_goal 2 => clear_value x); (on_goal 1 => subst x))
    | (extract_lets +onlyGivenNames x; clear_value x)
    | with_reducible exact Steady.upd_katDue (by assumption)
    | with_reducible apply State.setFlds_steady
    | (with_reducible refine Steady.of_fst ?_ (by assumption))
    | (with_reducible refine Steady.of_snd ?_ (by assumption))
    | split
    | with_reducible apply Steady.upd_katDue

end Sys2Proof.Machine
end

