-- ==== Sys2Proof/Laws/FrameMoments.lean ====
section
/-! SUPPORT. What the operations of Machine/Moments.lean leave as it is. -/

set_option Elab.async false
set_option linter.unusedTactic false
set_option linter.unreachableTactic false

namespace Sys2Proof.Machine

open Sys2Proof.Safety

theorem State.finish_keeps {r s : State} (h : Keeps r s) :
    Keeps r (State.finish s) := by
  unfold State.finish
  repeat' first
    | with_reducible assumption
    | with_reducible apply State.wakeForWork_keeps
    | with_reducible apply State.settle_keeps

theorem State.finish_steady {r s : State} (h : Steady r s) :
    Steady r (State.finish s) :=
  (State.finish_keeps (Keeps.refl _)).after h

theorem State.whenUp_steady {r s : State} {op : State → State} (h : Steady r s) (hop : ∀ x, Steady r x → Steady r (op x)) :
    Steady r (State.whenUp s op) := by
  unfold State.whenUp
  repeat' first
    | with_reducible assumption
    | intro _
    | with_reducible apply Steady.ite
    | with_reducible apply hop
    | split

theorem State.quoinNow_steady {r s : State} {j : Job} (h : Steady r s) :
    Steady r (State.quoinNow s j) := by
  unfold State.quoinNow
  repeat' first
    | with_reducible assumption
    | with_reducible apply Steady.ite
    | with_reducible apply State.releaseClaims_steady
    | with_reducible apply State.endAttempt_steady
    | with_reducible apply State.step8_steady
    | with_reducible apply State.finishReload_steady
    | (with_reducible refine Steady.of_fst ?_ (by assumption))
    | (with_reducible refine Steady.of_snd ?_ (by assumption))
    | split

theorem State.quoin_steady {r s : State} (h : Steady r s) :
    Steady r (State.quoin s) := by
  unfold State.quoin
  repeat' first
    | with_reducible assumption
    | with_reducible apply Steady.ite
    | with_reducible apply State.quoinNow_steady
    | (with_reducible refine Steady.of_fst ?_ (by assumption))
    | (with_reducible refine Steady.of_snd ?_ (by assumption))
    | split

theorem State.quoinExpire_steady {r s : State} (h : Steady r s) :
    Steady r (State.quoinExpire s) := by
  unfold State.quoinExpire
  repeat' first
    | with_reducible assumption
    | with_reducible apply State.quoinNow_steady
    | with_reducible apply State.advance_steady
    | (with_reducible refine Steady.of_fst ?_ (by assumption))
    | (with_reducible refine Steady.of_snd ?_ (by assumption))
    | split

theorem State.amendPoint_steady {r s : State} (h : Steady r s) :
    Steady r (State.amendPoint s) := by
  unfold State.amendPoint
  repeat' first
    | with_reducible assumption
    | with_reducible apply Steady.ite
    | with_reducible apply State.quoinNow_steady
    | (with_reducible refine Steady.of_fst ?_ (by assumption))
    | (with_reducible refine Steady.of_snd ?_ (by assumption))
    | split

theorem State.reservationsHeld_steady {r s : State} (h : Steady r s) :
    Steady r (State.reservationsHeld s) := by
  unfold State.reservationsHeld
  repeat' first
    | with_reducible assumption
    | with_reducible apply Steady.ite
    | with_reducible apply State.toQuoin_steady
    | with_reducible apply State.takeoverHeld_steady
    | (with_reducible refine Steady.of_fst ?_ (by assumption))
    | (with_reducible refine Steady.of_snd ?_ (by assumption))
    | split

theorem State.onFabric_steady {r s : State} {op : State → State} (h : Steady r s) (hop : ∀ x, Steady r x → Steady r (op x)) :
    Steady r (State.onFabric s op) := by
  unfold State.onFabric
  repeat' first
    | with_reducible assumption
    | intro _
    | with_reducible apply Steady.ite
    | with_reducible apply hop
    | split

theorem State.whileOn_steady {r s : State} {op : State → State} (h : Steady r s) (hop : ∀ x, Steady r x → Steady r (op x)) :
    Steady r (State.whileOn s op) := by
  unfold State.whileOn
  repeat' first
    | with_reducible assumption
    | intro _
    | with_reducible apply Steady.ite
    | with_reducible apply hop
    | split

end Sys2Proof.Machine
end

