-- ==== Sys2Proof/Laws/FrameExecBatches.lean ====
section
/-! SUPPORT. What the operations of Machine/ExecBatches.lean leave as it is. -/

set_option Elab.async false
set_option linter.unusedTactic false
set_option linter.unreachableTactic false

namespace Sys2Proof.Machine

open Sys2Proof.Safety

theorem execTenGalleyStep_steady {r s t : State} {a0 : CsReq} {a1 : Fin 16} {v : Word} (h : Steady r s)
    (ht : execTenGalleyStep a0 a1 v s = .next t) : Steady r t := by
  cases ht
  repeat' first
    | with_reducible assumption
    | with_reducible apply State.finish_steady
    | with_reducible apply State.hostPage_steady

theorem execStep_steady {r s t : State} {node : Nat} {payload : BitVec 16} (h : Steady r s)
    (ht : execStep node payload s = .next t) : Steady r t := by
  cases ht
  repeat' first
    | with_reducible assumption
    | intro _
    | with_reducible apply State.finish_steady
    | with_reducible apply State.onFabric_steady
    | with_reducible apply State.message_steady

theorem execHeldStepStart_steady {r s t : State} {group : Fin 64} (h : Steady r s)
    (ht : execHeldStepStart group s = .next t) : Steady r t := by
  cases ht
  repeat' first
    | with_reducible assumption
    | intro _
    | with_reducible apply State.finish_steady
    | with_reducible apply State.whenUp_steady
    | with_reducible apply State.heldStep_steady

theorem execGalleyLeave_steady {r s t : State} {a0 : CsReq} {a1 : Fin 16} {v : Word} (h : Steady r s)
    (ht : execGalleyLeave a0 a1 v s = .next t) : Steady r t := by
  cases ht
  repeat' first
    | with_reducible assumption
    | with_reducible apply State.finish_steady
    | with_reducible apply State.hostPage_steady

theorem execGalleySkip_steady {r s t : State} {a0 : CsReq} {a1 : Fin 16} {v : Word} (h : Steady r s)
    (ht : execGalleySkip a0 a1 v s = .next t) : Steady r t := by
  cases ht
  repeat' first
    | with_reducible assumption
    | with_reducible apply State.finish_steady
    | with_reducible apply State.hostPage_steady

theorem execGalleyFlush_steady {r s t : State} {a0 : CsReq} {a1 : Fin 16} {v : Word} (h : Steady r s)
    (ht : execGalleyFlush a0 a1 v s = .next t) : Steady r t := by
  cases ht
  repeat' first
    | with_reducible assumption
    | with_reducible apply State.finish_steady
    | with_reducible apply State.hostPage_steady

theorem execHoldUsExpire_steady {r s t : State} {flow : BitVec 12} (h : Steady r s)
    (ht : execHoldUsExpire flow s = .next t) : Steady r t := by
  cases ht
  repeat' first
    | with_reducible assumption
    | intro _
    | with_reducible apply State.finish_steady
    | with_reducible apply State.whenUp_steady
    | with_reducible apply State.holdUsExpire_steady

theorem execHoldLimit_steady {r s t : State} {flow : BitVec 12} (h : Steady r s)
    (ht : execHoldLimit flow s = .next t) : Steady r t := by
  cases ht
  repeat' first
    | with_reducible assumption
    | intro _
    | with_reducible apply State.finish_steady
    | with_reducible apply State.whenUp_steady
    | with_reducible apply State.holdLimitExpire_steady

theorem execDeltaAltSet_steady {r s t : State} {a0 : CsReq} {a1 : Fin 16} {v : Word} (h : Steady r s)
    (ht : execDeltaAltSet a0 a1 v s = .next t) : Steady r t := by
  cases ht
  repeat' first
    | with_reducible assumption
    | with_reducible apply State.finish_steady
    | with_reducible apply State.hostPage_steady

theorem execDeltaAltClear_steady {r s t : State} {a0 : CsReq} {a1 : Fin 16} {v : Word} (h : Steady r s)
    (ht : execDeltaAltClear a0 a1 v s = .next t) : Steady r t := by
  cases ht
  repeat' first
    | with_reducible assumption
    | with_reducible apply State.finish_steady
    | with_reducible apply State.hostPage_steady

theorem execFallback_steady {r s t : State} {node : Nat} {payload : BitVec 24} (h : Steady r s)
    (ht : execFallback node payload s = .next t) : Steady r t := by
  cases ht
  repeat' first
    | with_reducible assumption
    | intro _
    | with_reducible apply State.finish_steady
    | with_reducible apply State.onFabric_steady
    | with_reducible apply State.message_steady

theorem execLayerDone_steady {r s t : State} {node : Nat} {payload : BitVec 32} (h : Steady r s)
    (ht : execLayerDone node payload s = .next t) : Steady r t := by
  cases ht
  repeat' first
    | with_reducible assumption
    | intro _
    | with_reducible apply State.finish_steady
    | with_reducible apply State.onFabric_steady
    | with_reducible apply State.message_steady

theorem execTenDeltaDone_steady {r s t : State} {a0 : CsReq} {a1 : Fin 16} {v : Word} (h : Steady r s)
    (ht : execTenDeltaDone a0 a1 v s = .next t) : Steady r t := by
  cases ht
  repeat' first
    | with_reducible assumption
    | with_reducible apply State.finish_steady
    | with_reducible apply State.hostPage_steady

theorem execDrainTimeout_steady {r s t : State} {id : Nat} (h : Steady r s)
    (ht : execDrainTimeout id s = .next t) : Steady r t := by
  cases ht
  repeat' first
    | with_reducible assumption
    | intro _
    | with_reducible apply State.finish_steady
    | with_reducible apply State.whenUp_steady
    | with_reducible apply State.drainTimeout_steady

theorem execStaggerGroupStart_steady {r s t : State} {group : Fin 16} (h : Steady r s)
    (ht : execStaggerGroupStart group s = .next t) : Steady r t := by
  cases ht
  repeat' first
    | with_reducible assumption
    | intro _
    | with_reducible apply State.finish_steady
    | with_reducible apply State.whenUp_steady
    | with_reducible apply State.groupStart_steady

theorem execWeirBucketRefill_steady {r s t : State} (h : Steady r s)
    (ht : execWeirBucketRefill s = .next t) : Steady r t := by
  cases ht
  repeat' first
    | with_reducible assumption
    | intro _
    | with_reducible apply State.whenUp_steady
    | with_reducible apply State.weirRefill_steady

theorem execStaggerHoldLimit_steady {r s t : State} (h : Steady r s)
    (ht : execStaggerHoldLimit s = .next t) : Steady r t := by
  cases ht
  repeat' first
    | with_reducible assumption
    | with_reducible apply State.finish_steady
    | with_reducible apply State.whenUp_steady
    | with_reducible apply State.staggerLimit_steady

theorem execStaggerWindowClose_steady {r s t : State} (h : Steady r s)
    (ht : execStaggerWindowClose s = .next t) : Steady r t := by
  cases ht
  repeat' first
    | with_reducible assumption
    | with_reducible apply State.finish_steady
    | with_reducible apply State.whenUp_steady
    | with_reducible apply State.staggerClose_steady

end Sys2Proof.Machine
end

