-- ==== Sys2Proof/Laws/FrameExecBoundary.lean ====
section
/-! SUPPORT. What the operations of Machine/ExecBoundary.lean leave as it is. -/

set_option Elab.async false
set_option linter.unusedTactic false
set_option linter.unreachableTactic false

namespace Sys2Proof.Machine

open Sys2Proof.Safety

theorem execKatGo_steady {r s t : State} {a0 : CsReq} {v : Word} (h : Steady r s)
    (ht : execKatGo a0 v s = .next t) : Steady r t := by
  cases ht
  repeat' first
    | with_reducible assumption
    | with_reducible apply State.finish_steady
    | with_reducible apply State.hostWrite_steady

theorem execKatDone_steady {r s t : State} (h : Steady r s)
    (ht : execKatDone s = .next t) : Steady r t := by
  cases ht
  repeat' first
    | with_reducible assumption
    | with_reducible apply State.whenUp_steady
    | with_reducible apply State.katDone_steady

theorem execTstInj_steady {r s t : State} {a0 : CsReq} {v : Word} (h : Steady r s)
    (ht : execTstInj a0 v s = .next t) : Steady r t := by
  cases ht
  repeat' first
    | with_reducible assumption
    | with_reducible apply State.finish_steady
    | with_reducible apply State.hostWrite_steady

theorem execRegisterWrite_steady {r s t : State} {a0 : CsReq} {off : Nat} {len : Nat} {v : Word} (h : Steady r s)
    (ht : execRegisterWrite a0 off len v s = .next t) : Steady r t := by
  cases ht
  repeat' first
    | with_reducible assumption
    | with_reducible apply State.finish_steady
    | with_reducible apply State.hostWrite_steady

theorem execRegisterRead_steady {r s t : State} {a0 : CsReq} {off : Nat} {len : Nat} (h : Steady r s)
    (ht : execRegisterRead a0 off len s = .next t) : Steady r t := by
  cases ht
  repeat' first
    | with_reducible assumption
    | with_reducible apply State.finish_steady
    | with_reducible apply State.csRead_steady

end Sys2Proof.Machine
end

