-- ==== Sys2Proof/Laws/FrameExecFaults.lean ====
section
/-! SUPPORT. What the operations of Machine/ExecFaults.lean leave as it is. -/

set_option Elab.async false
set_option linter.unusedTactic false
set_option linter.unreachableTactic false

namespace Sys2Proof.Machine

open Sys2Proof.Safety

theorem execRdData_steady {r s t : State} {tag : BitVec 16} {status : RespStatus} {data : List Byte} (h : Steady r s)
    (ht : execRdData tag status data s = .next t) : Steady r t := by
  cases ht
  repeat' first
    | with_reducible assumption
    | intro _
    | with_reducible apply State.finish_steady
    | with_reducible apply State.onFabric_steady
    | with_reducible apply State.response_steady

theorem execAck_steady {r s t : State} {tag : BitVec 16} {status : RespStatus} (h : Steady r s)
    (ht : execAck tag status s = .next t) : Steady r t := by
  cases ht
  repeat' first
    | with_reducible assumption
    | intro _
    | with_reducible apply State.finish_steady
    | with_reducible apply State.onFabric_steady
    | with_reducible apply State.response_steady

theorem execFabricTimeout_steady {r s t : State} {tag : BitVec 16} (h : Steady r s)
    (ht : execFabricTimeout tag s = .next t) : Steady r t := by
  cases ht
  repeat' first
    | with_reducible assumption
    | intro _
    | with_reducible apply State.finish_steady
    | with_reducible apply State.onFabric_steady
    | with_reducible apply State.fabricTimeout_steady

theorem execLinkCrcFail_steady {r s t : State} {port : Fin 16} (h : Steady r s)
    (ht : execLinkCrcFail port s = .next t) : Steady r t := by
  cases ht
  repeat' first
    | with_reducible assumption
    | intro _
    | with_reducible apply State.finish_steady
    | with_reducible apply State.onFabric_steady
    | with_reducible apply State.linkFail_steady

theorem execCreditViolation_steady {r s t : State} {port : Fin 16} (h : Steady r s)
    (ht : execCreditViolation port s = .next t) : Steady r t := by
  cases ht
  repeat' first
    | with_reducible assumption
    | intro _
    | with_reducible apply State.finish_steady
    | with_reducible apply State.onFabric_steady
    | with_reducible apply State.fencePort_steady

theorem execFaultEvent_steady {r s t : State} {source : BitVec 8} {info : FaultInfo} (h : Steady r s)
    (ht : execFaultEvent source info s = .next t) : Steady r t := by
  cases ht
  repeat' first
    | with_reducible assumption
    | intro _
    | with_reducible apply State.finish_steady
    | with_reducible apply State.whileOn_steady
    | with_reducible apply State.faultEvent_steady

theorem execRailFault_steady {r s t : State} {source : BitVec 8} {info : FaultInfo} (h : Steady r s)
    (ht : execRailFault source info s = .next t) : Steady r t := by
  cases ht
  repeat' first
    | with_reducible assumption
    | intro _
    | with_reducible apply State.finish_steady
    | with_reducible apply State.whileOn_steady
    | with_reducible apply State.railFault_steady

theorem execRailFaultEnd_steady {r s t : State} {source : BitVec 8} (h : Steady r s)
    (ht : execRailFaultEnd source s = .next t) : Steady r t := by
  cases ht
  repeat' first
    | with_reducible assumption
    | intro _
    | with_reducible apply State.finish_steady
    | with_reducible apply State.whileOn_steady
    | with_reducible apply State.railFaultEnd_steady

theorem execEscalationDecay_steady {r s t : State} {source : BitVec 8} (h : Steady r s)
    (ht : execEscalationDecay source s = .next t) : Steady r t := by
  cases ht
  repeat' first
    | with_reducible assumption
    | intro _
    | with_reducible apply State.whileOn_steady
    | with_reducible apply State.escDecay_steady

theorem execCollectorSelfCheck_steady {r s t : State} {pass : Bool} (h : Steady r s)
    (ht : execCollectorSelfCheck pass s = .next t) : Steady r t := by
  cases ht
  repeat' first
    | with_reducible assumption
    | intro _
    | with_reducible exact Steady.upd_selfFail (by assumption)
    | with_reducible apply State.whileOn_steady
    | with_reducible apply Steady.upd_selfFail

theorem execWatchdog_steady {r s t : State} {id : Nat} (h : Steady r s)
    (ht : execWatchdog id s = .next t) : Steady r t := by
  cases ht
  repeat' first
    | with_reducible assumption
    | with_reducible apply State.finish_steady
    | with_reducible apply State.watchdog_steady

theorem execTakeoverClaimTimeout_steady {r s t : State} (h : Steady r s)
    (ht : execTakeoverClaimTimeout s = .next t) : Steady r t := by
  cases ht
  repeat' first
    | with_reducible assumption
    | with_reducible apply State.finish_steady
    | with_reducible apply State.whenUp_steady
    | with_reducible apply State.takeoverTimeout_steady

theorem execBadMsg_steady {r s t : State} {node : Nat} {type : BitVec 16} {payload : List Byte} (h : Steady r s)
    (ht : execBadMsg node type payload s = .next t) : Steady r t := by
  cases ht
  repeat' first
    | with_reducible assumption
    | intro _
    | with_reducible apply State.finish_steady
    | with_reducible apply State.onFabric_steady
    | with_reducible apply State.message_steady

end Sys2Proof.Machine
end

