-- ==== Sys2Proof/Laws/FrameExecForme.lean ====
section
/-! SUPPORT. What the operations of Machine/ExecForme.lean leave as it is. -/

set_option Elab.async false
set_option linter.unusedTactic false
set_option linter.unreachableTactic false

namespace Sys2Proof.Machine

open Sys2Proof.Safety

theorem execLockUp_steady {r s t : State} {a0 : CsReq} {f : Fetch} (h : Steady r s)
    (ht : execLockUp a0 f s = .next t) : Steady r t := by
  cases ht
  repeat' first
    | with_reducible assumption
    | with_reducible apply State.finish_steady
    | with_reducible apply State.hostWrite_steady

theorem execAmendment_steady {r s t : State} {a0 : CsReq} {f : Fetch} (h : Steady r s)
    (ht : execAmendment a0 f s = .next t) : Steady r t := by
  cases ht
  repeat' first
    | with_reducible assumption
    | with_reducible apply State.finish_steady
    | with_reducible apply State.hostWrite_steady

theorem execCancel_steady {r s t : State} {a0 : CsReq} (h : Steady r s)
    (ht : execCancel a0 s = .next t) : Steady r t := by
  cases ht
  repeat' first
    | with_reducible assumption
    | with_reducible apply State.finish_steady
    | with_reducible apply State.hostWrite_steady

theorem execQuoin_steady {r s t : State} (h : Steady r s)
    (ht : execQuoin s = .next t) : Steady r t := by
  cases ht
  repeat' first
    | with_reducible assumption
    | with_reducible apply State.finish_steady
    | with_reducible apply State.whenUp_steady
    | with_reducible apply State.quoin_steady

theorem execQuoinTimeout_steady {r s t : State} (h : Steady r s)
    (ht : execQuoinTimeout s = .next t) : Steady r t := by
  cases ht
  repeat' first
    | with_reducible assumption
    | with_reducible apply State.finish_steady
    | with_reducible apply State.whenUp_steady
    | with_reducible apply State.quoinExpire_steady

theorem execAmendQuoin_steady {r s t : State} (h : Steady r s)
    (ht : execAmendQuoin s = .next t) : Steady r t := by
  cases ht
  repeat' first
    | with_reducible assumption
    | with_reducible apply State.finish_steady
    | with_reducible apply State.whenUp_steady
    | with_reducible apply State.amendPoint_steady

theorem execAmendReservationsHeld_steady {r s t : State} (h : Steady r s)
    (ht : execAmendReservationsHeld s = .next t) : Steady r t := by
  cases ht
  repeat' first
    | with_reducible assumption
    | with_reducible apply State.finish_steady
    | with_reducible apply State.whenUp_steady
    | with_reducible apply State.reservationsHeld_steady

theorem execAmendClaimTimeout_steady {r s t : State} (h : Steady r s)
    (ht : execAmendClaimTimeout s = .next t) : Steady r t := by
  cases ht
  repeat' first
    | with_reducible assumption
    | with_reducible apply State.finish_steady
    | with_reducible apply State.whenUp_steady
    | with_reducible apply State.claimTimeout_steady

theorem execRetainDone_steady {r s t : State} (h : Steady r s)
    (ht : execRetainDone s = .next t) : Steady r t := by
  cases ht
  repeat' first
    | with_reducible assumption
    | with_reducible apply State.retainDone_steady

theorem execCommitGo_steady {r s t : State} {a0 : CsReq} {region : Region} (h : Steady r s)
    (ht : execCommitGo a0 region s = .next t) : Steady r t := by
  cases ht
  repeat' first
    | with_reducible assumption
    | with_reducible apply State.finish_steady
    | with_reducible apply State.hostWrite_steady

theorem execCommitApply_steady {r s t : State} {region : Region} (h : Steady r s)
    (ht : execCommitApply region s = .next t) : Steady r t := by
  cases ht
  repeat' first
    | with_reducible assumption
    | with_reducible apply State.finish_steady
    | with_reducible apply State.commitApply_steady

end Sys2Proof.Machine
end

