-- ==== Sys2Proof/Laws/FrameExecGuard.lean ====
section
/-! SUPPORT. What the operations of Machine/ExecGuard.lean leave as it is. -/

set_option Elab.async false
set_option linter.unusedTactic false
set_option linter.unreachableTactic false

namespace Sys2Proof.Machine

open Sys2Proof.Safety

theorem execGuardRead_steady {r s t : State} {header : BitVec 32} (h : Steady r s)
    (ht : execGuardRead header s = .next t) : Steady r t := by
  cases ht
  repeat' first
    | with_reducible assumption
    | with_reducible apply State.finish_steady
    | with_reducible apply State.guardRead_steady

theorem execGuardRepair_steady {r s t : State} {header : BitVec 32} {words : List (BitVec 32)} (h : Steady r s)
    (ht : execGuardRepair header words s = .next t) : Steady r t := by
  cases ht
  repeat' first
    | with_reducible assumption
    | with_reducible apply State.finish_steady
    | with_reducible apply State.guardRepair_steady

theorem execGuardTransactionGap_steady {r s t : State} (h : Steady r s)
    (ht : execGuardTransactionGap s = .next t) : Steady r t := by
  cases ht
  repeat' first
    | with_reducible assumption
    | with_reducible apply State.finish_steady
    | with_reducible apply State.guardGap_steady

end Sys2Proof.Machine
end

