-- ==== Sys2Proof/Laws/FrameExecPower.lean ====
section
/-! SUPPORT. What the operations of Machine/ExecPower.lean leave as it is. -/

set_option Elab.async false
set_option linter.unusedTactic false
set_option linter.unreachableTactic false

namespace Sys2Proof.Machine

open Sys2Proof.Safety

theorem execVrAlertNFall_steady {r s t : State} (h : Steady r s)
    (ht : execVrAlertNFall s = .next t) : Steady r t := by
  injection ht with ht
  subst ht
  exact State.finish_steady (State.alertFall_steady h)

theorem execVrAlertNRise_steady {r s t : State} (h : Steady r s)
    (ht : execVrAlertNRise s = .next t) : Steady r t := by
  cases ht
  repeat' first
    | with_reducible assumption
    | with_reducible apply State.finish_steady
    | with_reducible apply State.alertRise_steady

theorem execAlertHoldExpire_steady {r s t : State} (h : Steady r s)
    (ht : execAlertHoldExpire s = .next t) : Steady r t := by
  cases ht
  repeat' first
    | with_reducible assumption
    | with_reducible apply State.finish_steady
    | with_reducible apply State.alertExpire_steady

theorem execBarrierHint_steady {r s t : State} (h : Steady r s)
    (ht : execBarrierHint s = .next t) : Steady r t := by
  cases ht
  repeat' first
    | with_reducible assumption
    | with_reducible apply State.finish_steady
    | with_reducible apply State.barrierHint_steady

theorem execBarrierRelease_steady {r s t : State} (h : Steady r s)
    (ht : execBarrierRelease s = .next t) : Steady r t := by
  cases ht
  repeat' first
    | with_reducible assumption
    | with_reducible apply State.finish_steady
    | with_reducible apply State.barrierRelease_steady

theorem execRampStep_steady {r s t : State} (h : Steady r s)
    (ht : execRampStep s = .next t) : Steady r t := by
  cases ht
  repeat' first
    | with_reducible assumption
    | with_reducible apply State.finish_steady
    | with_reducible apply State.whenUp_steady
    | with_reducible apply State.rampStep_steady

theorem execHintMaxExpire_steady {r s t : State} (h : Steady r s)
    (ht : execHintMaxExpire s = .next t) : Steady r t := by
  cases ht
  repeat' first
    | with_reducible assumption
    | with_reducible apply State.finish_steady
    | with_reducible apply State.whenUp_steady
    | with_reducible apply State.hintExpire_steady

theorem execShare_steady {r s t : State} {v : BitVec 28} (h : Steady r s)
    (ht : execShare v s = .next t) : Steady r t := by
  cases ht
  repeat' first
    | with_reducible assumption
    | with_reducible apply State.gotShare_steady

theorem execMeas_steady {r s t : State} {v : BitVec 28} (h : Steady r s)
    (ht : execMeas v s = .next t) : Steady r t := by
  cases ht
  repeat' first
    | with_reducible assumption
    | with_reducible apply State.finish_steady
    | with_reducible apply State.gotMeas_steady

theorem execMeasStale_steady {r s t : State} (h : Steady r s)
    (ht : execMeasStale s = .next t) : Steady r t := by
  cases ht
  repeat' first
    | with_reducible assumption
    | with_reducible apply State.finish_steady
    | with_reducible apply State.measStale_steady

theorem execAgreeExpire_steady {r s t : State} (h : Steady r s)
    (ht : execAgreeExpire s = .next t) : Steady r t := by
  cases ht
  repeat' first
    | with_reducible assumption
    | with_reducible apply State.finish_steady
    | with_reducible apply State.agreeExpire_steady

theorem execVack_steady {r s t : State} {v : BitVec 28} (h : Steady r s)
    (ht : execVack v s = .next t) : Steady r t := by
  cases ht
  repeat' first
    | with_reducible assumption
    | with_reducible apply State.finish_steady
    | with_reducible apply State.gotVack_steady

theorem execVreqTimeout_steady {r s t : State} (h : Steady r s)
    (ht : execVreqTimeout s = .next t) : Steady r t := by
  cases ht
  repeat' first
    | with_reducible assumption
    | with_reducible apply State.finish_steady
    | with_reducible apply State.vreqTimeout_steady

theorem execVreqRetry_steady {r s t : State} (h : Steady r s)
    (ht : execVreqRetry s = .next t) : Steady r t := by
  cases ht
  repeat' first
    | with_reducible assumption
    | with_reducible apply State.finish_steady
    | with_reducible apply State.vreqRetry_steady

theorem execStepUp_steady {r s t : State} (h : Steady r s)
    (ht : execStepUp s = .next t) : Steady r t := by
  cases ht
  repeat' first
    | with_reducible assumption
    | with_reducible apply State.finish_steady
    | with_reducible apply State.stepUp_steady

theorem execCapEvaluate_steady {r s t : State} (h : Steady r s)
    (ht : execCapEvaluate s = .next t) : Steady r t := by
  cases ht
  repeat' first
    | with_reducible assumption
    | with_reducible apply State.finish_steady
    | with_reducible apply State.capEvaluate_steady

theorem execTempSample_steady {r s t : State} {tj : BitVec 16} (h : Steady r s)
    (ht : execTempSample tj s = .next t) : Steady r t := by
  cases ht
  repeat' first
    | with_reducible assumption
    | with_reducible apply State.finish_steady
    | with_reducible apply State.tempSample_steady

theorem execTjMaxStep_steady {r s t : State} (h : Steady r s)
    (ht : execTjMaxStep s = .next t) : Steady r t := by
  cases ht
  repeat' first
    | with_reducible assumption
    | with_reducible apply State.finish_steady
    | with_reducible apply State.tjMaxStep_steady

theorem execCurrentEstimate_steady {r s t : State} (h : Steady r s)
    (ht : execCurrentEstimate s = .next t) : Steady r t := by
  cases ht
  repeat' first
    | with_reducible assumption
    | with_reducible apply State.finish_steady
    | with_reducible apply State.currentEstimate_steady

theorem execEdcTimerExpire_steady {r s t : State} (h : Steady r s)
    (ht : execEdcTimerExpire s = .next t) : Steady r t := by
  cases ht
  repeat' first
    | with_reducible assumption
    | with_reducible apply State.finish_steady
    | with_reducible apply State.edcTimerExpire_steady

theorem execDroop_steady {r s t : State} (h : Steady r s)
    (ht : execDroop s = .next t) : Steady r t := by
  cases ht
  repeat' first
    | with_reducible assumption
    | intro _
    | with_reducible apply State.finish_steady
    | with_reducible apply State.droop_steady

theorem execDroopEnd_steady {r s t : State} (h : Steady r s)
    (ht : execDroopEnd s = .next t) : Steady r t := by
  cases ht
  repeat' first
    | with_reducible assumption
    | intro _
    | with_reducible apply State.finish_steady
    | with_reducible apply State.droopEnd_steady

theorem execBoostBudgetEnd_steady {r s t : State} (h : Steady r s)
    (ht : execBoostBudgetEnd s = .next t) : Steady r t := by
  cases ht
  repeat' first
    | with_reducible assumption
    | with_reducible apply State.finish_steady
    | with_reducible apply State.budgetEnd_steady

theorem execBoostBinRoll_steady {r s t : State} (h : Steady r s)
    (ht : execBoostBinRoll s = .next t) : Steady r t := by
  cases ht
  repeat' first
    | with_reducible assumption
    | with_reducible apply State.finish_steady
    | with_reducible apply State.binRoll_steady

theorem execBoostBinsSave_steady {r s t : State} (h : Steady r s)
    (ht : execBoostBinsSave s = .next t) : Steady r t := by
  cases ht
  repeat' first
    | with_reducible assumption
    | with_reducible apply State.saveBins_steady

theorem execOffloadWindow_steady {r s t : State} (h : Steady r s)
    (ht : execOffloadWindow s = .next t) : Steady r t := by
  cases ht
  repeat' first
    | with_reducible assumption
    | with_reducible apply State.offloadWindow_steady

end Sys2Proof.Machine
end

