-- ==== Sys2Proof/Laws/FrameExecQueues.lean ====
section
/-! SUPPORT. What the operations of Machine/ExecQueues.lean leave as it is. -/

set_option Elab.async false
set_option linter.unusedTactic false
set_option linter.unreachableTactic false

namespace Sys2Proof.Machine

open Sys2Proof.Safety

theorem execTenancyReset_steady {r s t : State} {a0 : CsReq} {a1 : Fin 16} (h : Steady r s)
    (ht : execTenancyReset a0 a1 s = .next t) : Steady r t := by
  cases ht
  repeat' first
    | with_reducible assumption
    | with_reducible apply State.finish_steady
    | with_reducible apply State.hostPage_steady

theorem execRingEnableSq_steady {r s t : State} {a0 : CsReq} {a1 : Fin 16} {ring : BitVec 20} {f : Fetch} (h : Steady r s)
    (ht : execRingEnableSq a0 a1 ring f s = .next t) : Steady r t := by
  cases ht
  repeat' first
    | with_reducible assumption
    | with_reducible apply State.finish_steady
    | with_reducible apply State.hostPage_steady

theorem execRingDisableSq_steady {r s t : State} {a0 : CsReq} {a1 : Fin 16} {ring : BitVec 20} (h : Steady r s)
    (ht : execRingDisableSq a0 a1 ring s = .next t) : Steady r t := by
  cases ht
  repeat' first
    | with_reducible assumption
    | with_reducible apply State.finish_steady
    | with_reducible apply State.hostPage_steady

theorem execRingEnableCq_steady {r s t : State} {a0 : CsReq} {a1 : Fin 16} {ring : BitVec 20} {f : Fetch} (h : Steady r s)
    (ht : execRingEnableCq a0 a1 ring f s = .next t) : Steady r t := by
  cases ht
  repeat' first
    | with_reducible assumption
    | with_reducible apply State.finish_steady
    | with_reducible apply State.hostPage_steady

theorem execRingDisableCq_steady {r s t : State} {a0 : CsReq} {a1 : Fin 16} {ring : BitVec 20} (h : Steady r s)
    (ht : execRingDisableCq a0 a1 ring s = .next t) : Steady r t := by
  cases ht
  repeat' first
    | with_reducible assumption
    | with_reducible apply State.finish_steady
    | with_reducible apply State.hostPage_steady

theorem execTenSqTable_steady {r s t : State} {a0 : CsReq} {a1 : Fin 16} {v : Word} (h : Steady r s)
    (ht : execTenSqTable a0 a1 v s = .next t) : Steady r t := by
  cases ht
  repeat' first
    | with_reducible assumption
    | with_reducible apply State.finish_steady
    | with_reducible apply State.hostPage_steady

theorem execTenCqTable_steady {r s t : State} {a0 : CsReq} {a1 : Fin 16} {v : Word} (h : Steady r s)
    (ht : execTenCqTable a0 a1 v s = .next t) : Steady r t := by
  cases ht
  repeat' first
    | with_reducible assumption
    | with_reducible apply State.finish_steady
    | with_reducible apply State.hostPage_steady

theorem execTenLiveTable_steady {r s t : State} {a0 : CsReq} {a1 : Fin 16} {v : Word} (h : Steady r s)
    (ht : execTenLiveTable a0 a1 v s = .next t) : Steady r t := by
  cases ht
  repeat' first
    | with_reducible assumption
    | with_reducible apply State.finish_steady
    | with_reducible apply State.hostPage_steady

theorem execDoorbell_steady {r s t : State} {a0 : CsReq} {a1 : Fin 16} {v : Word} (h : Steady r s)
    (ht : execDoorbell a0 a1 v s = .next t) : Steady r t := by
  cases ht
  repeat' first
    | with_reducible assumption
    | with_reducible apply State.finish_steady
    | with_reducible apply State.hostPage_steady

theorem execCqDoorbell_steady {r s t : State} {a0 : CsReq} {a1 : Fin 16} {v : Word} (h : Steady r s)
    (ht : execCqDoorbell a0 a1 v s = .next t) : Steady r t := by
  cases ht
  repeat' first
    | with_reducible assumption
    | with_reducible apply State.finish_steady
    | with_reducible apply State.hostPage_steady

theorem execPushDrain_steady {r s t : State} {f : Fetch} (h : Steady r s)
    (ht : execPushDrain f s = .next t) : Steady r t := by
  cases ht
  repeat' first
    | with_reducible assumption
    | with_reducible apply State.finish_steady
    | with_reducible apply State.pushDrain_steady

theorem execSqEntryFetch_steady {r s t : State} {f : Fetch} (h : Steady r s)
    (ht : execSqEntryFetch f s = .next t) : Steady r t := by
  cases ht
  repeat' first
    | with_reducible assumption
    | intro _
    | with_reducible apply State.finish_steady
    | with_reducible apply State.whenUp_steady
    | with_reducible apply State.inDomain_steady
    | with_reducible apply State.fetchEntries_steady

theorem execTaskRelease_steady {r s t : State} (h : Steady r s)
    (ht : execTaskRelease s = .next t) : Steady r t := by
  cases ht
  repeat' first
    | with_reducible assumption
    | with_reducible apply State.finish_steady
    | with_reducible apply State.taskRelease_steady

theorem execLiveDoorbell_steady {r s t : State} {a0 : CsReq} {a1 : Fin 16} {v : Word} {f : Fetch} (h : Steady r s)
    (ht : execLiveDoorbell a0 a1 v f s = .next t) : Steady r t := by
  cases ht
  repeat' first
    | with_reducible assumption
    | with_reducible apply State.finish_steady
    | with_reducible apply State.hostPage_steady

theorem execLivePush_steady {r s t : State} {node : Nat} {payload : BitVec 16} {f : Fetch} (h : Steady r s)
    (ht : execLivePush node payload f s = .next t) : Steady r t := by
  cases ht
  repeat' first
    | with_reducible assumption
    | intro _
    | with_reducible apply State.finish_steady
    | with_reducible apply State.onFabric_steady
    | with_reducible apply State.message_steady

theorem execLivePostTake_steady {r s t : State} {port : Fin 512} {f : Fetch} (h : Steady r s)
    (ht : execLivePostTake port f s = .next t) : Steady r t := by
  cases ht
  repeat' first
    | with_reducible assumption
    | intro _
    | with_reducible apply State.finish_steady
    | with_reducible apply State.whenUp_steady
    | with_reducible apply State.inDomain_steady
    | with_reducible apply State.takePost_steady

theorem execEncodeStart_steady {r s t : State} {flow : BitVec 12} {f : Fetch} (h : Steady r s)
    (ht : execEncodeStart flow f s = .next t) : Steady r t := by
  cases ht
  repeat' first
    | with_reducible assumption
    | intro _
    | with_reducible apply State.finish_steady
    | with_reducible apply State.whenUp_steady
    | with_reducible apply State.encodeStart_steady

theorem execPieceDispatch_steady {r s t : State} {server : Fin 41} {f : Fetch} (h : Steady r s)
    (ht : execPieceDispatch server f s = .next t) : Steady r t := by
  cases ht
  repeat' first
    | with_reducible assumption
    | intro _
    | with_reducible apply State.finish_steady
    | with_reducible apply State.whenUp_steady
    | with_reducible apply State.inDomain_steady
    | with_reducible apply State.dispatch_steady
    | with_reducible apply State.rereadImages_steady

theorem execParkedUnitReady_steady {r s t : State} {flow : BitVec 12} (h : Steady r s)
    (ht : execParkedUnitReady flow s = .next t) : Steady r t := by
  cases ht
  repeat' first
    | with_reducible assumption
    | intro _
    | with_reducible apply State.finish_steady
    | with_reducible apply State.whenUp_steady
    | with_reducible apply State.unpark_steady

theorem execChunkWrite_steady {r s t : State} {flow : BitVec 12} (h : Steady r s)
    (ht : execChunkWrite flow s = .next t) : Steady r t := by
  cases ht
  repeat' first
    | with_reducible assumption
    | intro _
    | with_reducible apply State.finish_steady
    | with_reducible apply State.whenUp_steady
    | with_reducible apply State.inDomain_steady
    | with_reducible apply State.chunkWrite_steady

theorem execPktDoorbell_steady {r s t : State} {a0 : CsReq} {a1 : Fin 16} {v : Word} (h : Steady r s)
    (ht : execPktDoorbell a0 a1 v s = .next t) : Steady r t := by
  cases ht
  repeat' first
    | with_reducible assumption
    | with_reducible apply State.finish_steady
    | with_reducible apply State.hostPage_steady

theorem execTaskEnd_steady {r s t : State} {id : Nat} (h : Steady r s)
    (ht : execTaskEnd id s = .next t) : Steady r t := by
  cases ht
  repeat' first
    | with_reducible assumption
    | intro _
    | with_reducible apply State.finish_steady
    | with_reducible apply State.whenUp_steady
    | with_reducible apply State.boundary_steady

theorem execCompletionWrite_steady {r s t : State} {cq : BitVec 16} (h : Steady r s)
    (ht : execCompletionWrite cq s = .next t) : Steady r t := by
  cases ht
  repeat' first
    | with_reducible assumption
    | intro _
    | with_reducible apply State.finish_steady
    | with_reducible apply State.whenUp_steady
    | with_reducible apply State.inDomain_steady
    | with_reducible apply State.completionWrite_steady

theorem execIrqDelayExpire_steady {r s t : State} {cq : BitVec 16} (h : Steady r s)
    (ht : execIrqDelayExpire cq s = .next t) : Steady r t := by
  cases ht
  repeat' first
    | with_reducible assumption
    | intro _
    | with_reducible apply State.whenUp_steady
    | with_reducible apply State.irqDelayExpire_steady

theorem execBerthEvict_steady {r s t : State} (h : Steady r s)
    (ht : execBerthEvict s = .next t) : Steady r t := by
  cases ht
  repeat' first
    | with_reducible assumption
    | with_reducible apply State.berthEvict_steady

theorem execSwapComplete_steady {r s t : State} (h : Steady r s)
    (ht : execSwapComplete s = .next t) : Steady r t := by
  cases ht
  repeat' first
    | with_reducible assumption
    | with_reducible apply State.finish_steady
    | with_reducible apply State.whenUp_steady
    | with_reducible apply State.swapComplete_steady

theorem execPoolWaitTimeout_steady {r s t : State} {pool : Fin 32} (h : Steady r s)
    (ht : execPoolWaitTimeout pool s = .next t) : Steady r t := by
  cases ht
  repeat' first
    | with_reducible assumption
    | intro _
    | with_reducible apply State.finish_steady
    | with_reducible apply State.whenUp_steady
    | with_reducible apply State.poolTimeout_steady

end Sys2Proof.Machine
end

