-- ==== Sys2Proof/Laws/FrameExecResets.lean ====
section
/-! SUPPORT. What the operations of Machine/ExecResets.lean leave as it is. -/

set_option Elab.async false
set_option linter.unusedTactic false
set_option linter.unreachableTactic false

namespace Sys2Proof.Machine

open Sys2Proof.Safety

theorem execAonRstNLow_steady {r s t : State} (h : Steady r s)
    (ht : execAonRstNLow s = .next t) : Steady r t := by
  cases ht
  repeat' first
    | with_reducible assumption
    | with_reducible apply State.coldReset_steady

theorem execColdStart_steady {r s t : State} {lanesGood : Fin 145} {entropyGood : Fin 53} {credits : BitVec 16} (h : Steady r s)
    (ht : execColdStart lanesGood entropyGood credits s = .next t) : Steady r t := by
  injection ht with ht
  subst ht
  exact State.coldStart_steady h (Nat.le_of_lt_succ lanesGood.isLt) (Nat.le_of_lt_succ entropyGood.isLt)

theorem execTmodeChange_steady {r s t : State} {level : Bool} (h : Steady r s)
    (ht : execTmodeChange level s = .next t) : Steady r t := by
  cases ht
  repeat' first
    | with_reducible assumption
    | with_reducible apply State.tmodeChange_steady

theorem execInstRstNLow_steady {r s t : State} (h : Steady r s)
    (ht : execInstRstNLow s = .next t) : Steady r t := by
  cases ht
  repeat' first
    | with_reducible assumption
    | with_reducible apply State.finish_steady
    | with_reducible apply State.instLowEdge_steady

theorem execGlbResetWarm_steady {r s t : State} {a0 : CsReq} {v : Word} (h : Steady r s)
    (ht : execGlbResetWarm a0 v s = .next t) : Steady r t := by
  cases ht
  repeat' first
    | with_reducible assumption
    | with_reducible apply State.finish_steady
    | with_reducible apply State.hostWrite_steady

theorem execPerDomainReset_steady {r s t : State} {a0 : CsReq} {v : Word} {f : Fetch} (h : Steady r s)
    (ht : execPerDomainReset a0 v f s = .next t) : Steady r t := by
  cases ht
  repeat' first
    | with_reducible assumption
    | with_reducible apply State.finish_steady
    | with_reducible apply State.hostWrite_steady

theorem execFormeReload_steady {r s t : State} {a0 : CsReq} {v : Word} {f : Fetch} (h : Steady r s)
    (ht : execFormeReload a0 v f s = .next t) : Steady r t := by
  cases ht
  repeat' first
    | with_reducible assumption
    | with_reducible apply State.finish_steady
    | with_reducible apply State.hostWrite_steady

theorem execFlushTimeout_steady {r s t : State} (h : Steady r s)
    (ht : execFlushTimeout s = .next t) : Steady r t := by
  cases ht
  repeat' first
    | with_reducible assumption
    | with_reducible apply State.finish_steady
    | with_reducible apply State.flushTimeout_steady

theorem execClkRun_steady {r s t : State} {d : Domain} (h : Steady r s)
    (ht : execClkRun d s = .next t) : Steady r t := by
  cases ht
  repeat' first
    | with_reducible assumption
    | with_reducible apply State.finish_steady
    | with_reducible apply State.clockUp_steady

theorem execClkIdle_steady {r s t : State} {d : Domain} (h : Steady r s)
    (ht : execClkIdle d s = .next t) : Steady r t := by
  cases ht
  repeat' first
    | with_reducible assumption
    | with_reducible apply State.clkIdle_steady

theorem execClkWakeTimeout_steady {r s t : State} {d : Domain} (h : Steady r s)
    (ht : execClkWakeTimeout d s = .next t) : Steady r t := by
  cases ht
  repeat' first
    | with_reducible assumption
    | with_reducible apply State.finish_steady
    | with_reducible apply State.clkWakeTimeout_steady

theorem execClockLoss_steady {r s t : State} {d : Domain} (h : Steady r s)
    (ht : execClockLoss d s = .next t) : Steady r t := by
  cases ht
  repeat' first
    | with_reducible assumption
    | with_reducible apply State.finish_steady
    | with_reducible apply State.clockLoss_steady

theorem execTimeSync_steady {r s t : State} {time : Word} (h : Steady r s)
    (ht : execTimeSync time s = .next t) : Steady r t := by
  cases ht
  repeat' first
    | with_reducible assumption
    | with_reducible apply State.timeSync_steady

theorem execSyncLoss_steady {r s t : State} (h : Steady r s)
    (ht : execSyncLoss s = .next t) : Steady r t := by
  cases ht
  repeat' first
    | with_reducible assumption
    | with_reducible apply State.syncLoss_steady

theorem execPeerAliveEdge_steady {r s t : State} (h : Steady r s)
    (ht : execPeerAliveEdge s = .next t) : Steady r t := by
  cases ht
  repeat' first
    | with_reducible assumption
    | with_reducible apply State.peerEdge_steady

theorem execPeerSeenExpire_steady {r s t : State} (h : Steady r s)
    (ht : execPeerSeenExpire s = .next t) : Steady r t := by
  cases ht
  repeat' first
    | with_reducible assumption
    | with_reducible apply State.peerExpire_steady

theorem execAliveToggle_steady {r s t : State} (h : Steady r s)
    (ht : execAliveToggle s = .next t) : Steady r t := by
  cases ht
  repeat' first
    | with_reducible assumption
    | with_reducible apply State.aliveToggle_steady

theorem execInstanceSupplyLoss_steady {r s t : State} (h : Steady r s)
    (ht : execInstanceSupplyLoss s = .next t) : Steady r t := by
  cases ht
  repeat' first
    | with_reducible assumption
    | with_reducible apply State.supplyLoss_steady

theorem execAlwaysOnSupplyLoss_steady {r s t : State} (h : Steady r s)
    (ht : execAlwaysOnSupplyLoss s = .next t) : Steady r t := by
  cases ht
  repeat' first
    | with_reducible assumption
    | with_reducible apply State.coldReset_steady

end Sys2Proof.Machine
end

