-- ==== Sys2Proof/WellFormed.lean ====
section
/-! DEFINITION. Which commands are well formed: every operand fits the field that carries it on the wire
(R500, R503, R506). A well-formed command may still be refused by the instance; an ill-formed one cannot be sent. -/

namespace Sys2Proof

/-- SRC is one byte and VIEW is [4:0] of its byte (R503). -/
def CsReq.wf (r : CsReq) : Bool := r.node < 256 && r.view < 32

/-- A fetch answer names a 52-bit address (R503). -/
def FetchItem.wf (x : FetchItem) : Bool := x.addr < 2 ^ 52

/-- Every answer of a fetch list is well formed. -/
def Fetch.wf (f : Fetch) : Bool := f.all FetchItem.wf

/-- The failing address is a 52-bit address and the access fields fit their bits of R446. -/
def FaultInfo.wf (x : FaultInfo) : Bool := x.addr < 2 ^ 52 && x.access < 256 && x.station < 256 && x.thread < 256

/-- Every operand of the command fits the field that carries it. -/
def Instr.wf : Instr → Bool
  | .lockUp r f | .amendment r f => r.wf && f.wf
  | .cancel r | .commitGo r _ | .tenancyReset r _ => r.wf
  | .ringEnableSq r _ _ f | .ringEnableCq r _ _ f => r.wf && f.wf
  | .ringDisableSq r _ _ | .ringDisableCq r _ _ => r.wf
  | .tenSqTable r _ _ | .tenCqTable r _ _ | .tenLiveTable r _ _ | .doorbell r _ _ | .cqDoorbell r _ _
  | .pktDoorbell r _ _ | .tenGalleyStep r _ _ | .galleyLeave r _ _ | .galleySkip r _ _ | .galleyFlush r _ _
  | .deltaAltSet r _ _ | .deltaAltClear r _ _ | .tenDeltaDone r _ _ => r.wf
  | .liveDoorbell r _ _ f => r.wf && f.wf
  | .pushDrain f | .sqEntryFetch f | .livePostTake _ f | .encodeStart _ f | .pieceDispatch _ f => f.wf
  | .livePush n _ f => n < 256 && f.wf
  | .step n _ | .fallback n _ | .layerDone n _ => n < 256
  | .rdData _ _ d => d.length ≤ 4096
  | .faultEvent _ x | .railFault _ x => x.wf
  | .grdTko _ f | .warmStart f _ => f.wf
  | .glbResetWarm r _ | .katGo r _ | .tstInj r _ => r.wf
  | .perDomainReset r _ f | .formeReload r _ f => r.wf && f.wf
  | .guardRepair _ ws => ws.length < 65536
  | .registerWrite r off len _ | .registerRead r off len => r.wf && off < 2 ^ 26 && len < 2 ^ 16
  | .badMsg n _ p => n < 256 && p.length ≤ 24
  | .quoin | .quoinTimeout | .amendQuoin | .amendReservationsHeld | .amendClaimTimeout | .retainDone
  | .commitApply _ | .taskRelease | .parkedUnitReady _ | .chunkWrite _ | .taskEnd _ | .completionWrite _
  | .irqDelayExpire _ | .berthEvict | .swapComplete | .poolWaitTimeout _ | .heldStepStart _ | .holdUsExpire _
  | .holdLimit _ | .drainTimeout _ | .staggerGroupStart _ | .ack _ _ | .fabricTimeout _ | .linkCrcFail _
  | .creditViolation _ | .railFaultEnd _ | .escalationDecay _ | .collectorSelfCheck _ | .watchdog _
  | .takeoverClaimTimeout | .guardRead _ | .guardWrite _ _ | .grdVtableCrc _ | .forget | .delivered _
  | .grdFltSrc _ _ | .aonRstNLow | .coldStart _ _ _ | .tmodeChange _ | .instRstNLow | .flushTimeout | .clkRun _
  | .clkIdle _ | .clkWakeTimeout _ | .clockLoss _ | .vrAlertNFall | .vrAlertNRise | .alertHoldExpire
  | .barrierHint | .barrierRelease | .rampStep | .hintMaxExpire | .timeSync _ | .syncLoss | .peerAliveEdge
  | .peerSeenExpire | .aliveToggle | .share _ | .meas _ | .measStale | .agreeExpire | .vack _ | .vreqTimeout
  | .vreqRetry | .stepUp | .capEvaluate | .tempSample _ | .tjMaxStep | .currentEstimate | .edcTimerExpire | .droop
  | .droopEnd | .boostBudgetEnd | .boostBinRoll | .boostBinsSave | .offloadWindow | .katDone
  | .guardTransactionGap | .weirBucketRefill | .staggerHoldLimit | .staggerWindowClose | .instanceSupplyLoss
  | .alwaysOnSupplyLoss => true

end Sys2Proof
end

