-- ==== Sys2Proof/Laws/PerInstr.lean ====
section
/-! SUPPORT. One lemma per command about its operands: a well-formed command names a requester that a header flit can carry
(R503), and the answers to its fetches lie at 52-bit addresses. -/

set_option Elab.async false

namespace Sys2Proof.Laws

/-- The requester of a command that is a host access. -/
def requester? : Instr → Option CsReq
  | .lockUp r _ => some r
  | .amendment r _ => some r
  | .cancel r => some r
  | .commitGo r _ => some r
  | .tenancyReset r _ => some r
  | .ringEnableSq r _ _ _ => some r
  | .ringDisableSq r _ _ => some r
  | .ringEnableCq r _ _ _ => some r
  | .ringDisableCq r _ _ => some r
  | .tenSqTable r _ _ => some r
  | .tenCqTable r _ _ => some r
  | .tenLiveTable r _ _ => some r
  | .doorbell r _ _ => some r
  | .cqDoorbell r _ _ => some r
  | .liveDoorbell r _ _ _ => some r
  | .pktDoorbell r _ _ => some r
  | .tenGalleyStep r _ _ => some r
  | .galleyLeave r _ _ => some r
  | .galleySkip r _ _ => some r
  | .galleyFlush r _ _ => some r
  | .deltaAltSet r _ _ => some r
  | .deltaAltClear r _ _ => some r
  | .tenDeltaDone r _ _ => some r
  | .glbResetWarm r _ => some r
  | .perDomainReset r _ _ => some r
  | .formeReload r _ _ => some r
  | .katGo r _ => some r
  | .tstInj r _ => some r
  | .registerWrite r _ _ _ => some r
  | .registerRead r _ _ => some r
  | _ => none

/-- The answers that a command carries to the fetches of its step. -/
def answers : Instr → Fetch
  | .lockUp _ f => f
  | .amendment _ f => f
  | .ringEnableSq _ _ _ f => f
  | .ringEnableCq _ _ _ f => f
  | .pushDrain f => f
  | .sqEntryFetch f => f
  | .liveDoorbell _ _ _ f => f
  | .livePush _ _ f => f
  | .livePostTake _ f => f
  | .encodeStart _ f => f
  | .pieceDispatch _ f => f
  | .grdTko _ f => f
  | .warmStart f _ => f
  | .perDomainReset _ _ f => f
  | .formeReload _ _ f => f
  | _ => []

/-- What well-formedness says of the operands. -/
def Shape.Statement (i : Instr) : Prop :=
  i.wf = true → (∀ r, requester? i = some r → r.node < 256 ∧ r.view < 32) ∧ (∀ x ∈ answers i, x.addr < 2 ^ 52)

theorem requester_of_wf {r : CsReq} (h : r.wf = true) : r.node < 256 ∧ r.view < 32 := by
  simpa [CsReq.wf] using h

theorem answers_of_wf {f : Fetch} (h : f.wf = true) : ∀ x ∈ f, x.addr < 2 ^ 52 := by
  intro x hx
  have := List.all_eq_true.mp h x hx
  simpa [FetchItem.wf] using this

theorem Shape.lockUp (r : CsReq) (f : Fetch) : Shape.Statement (.lockUp r f) := by
  intro h; simp only [Instr.wf, Bool.and_eq_true] at h; exact ⟨fun _ e => by simp only [requester?, Option.some.injEq] at e; exact e ▸ requester_of_wf h.1, fun x e => answers_of_wf h.2 x e⟩
theorem Shape.amendment (r : CsReq) (f : Fetch) : Shape.Statement (.amendment r f) := by
  intro h; simp only [Instr.wf, Bool.and_eq_true] at h; exact ⟨fun _ e => by simp only [requester?, Option.some.injEq] at e; exact e ▸ requester_of_wf h.1, fun x e => answers_of_wf h.2 x e⟩
theorem Shape.cancel (r : CsReq) : Shape.Statement (.cancel r) := by
  intro h; simp only [Instr.wf] at h; exact ⟨fun _ e => by simp only [requester?, Option.some.injEq] at e; exact e ▸ requester_of_wf h, fun _ e => by simp [answers] at e⟩
theorem Shape.quoin : Shape.Statement (.quoin) := by
  intro _; exact ⟨fun _ h => by simp [requester?] at h, fun _ h => by simp [answers] at h⟩
theorem Shape.quoinTimeout : Shape.Statement (.quoinTimeout) := by
  intro _; exact ⟨fun _ h => by simp [requester?] at h, fun _ h => by simp [answers] at h⟩
theorem Shape.amendQuoin : Shape.Statement (.amendQuoin) := by
  intro _; exact ⟨fun _ h => by simp [requester?] at h, fun _ h => by simp [answers] at h⟩
theorem Shape.amendReservationsHeld : Shape.Statement (.amendReservationsHeld) := by
  intro _; exact ⟨fun _ h => by simp [requester?] at h, fun _ h => by simp [answers] at h⟩
theorem Shape.amendClaimTimeout : Shape.Statement (.amendClaimTimeout) := by
  intro _; exact ⟨fun _ h => by simp [requester?] at h, fun _ h => by simp [answers] at h⟩
theorem Shape.retainDone : Shape.Statement (.retainDone) := by
  intro _; exact ⟨fun _ h => by simp [requester?] at h, fun _ h => by simp [answers] at h⟩
theorem Shape.commitGo (r : CsReq) (region : Region) : Shape.Statement (.commitGo r region) := by
  intro h; simp only [Instr.wf] at h; exact ⟨fun _ e => by simp only [requester?, Option.some.injEq] at e; exact e ▸ requester_of_wf h, fun _ e => by simp [answers] at e⟩
theorem Shape.commitApply (region : Region) : Shape.Statement (.commitApply region) := by
  intro _; exact ⟨fun _ h => by simp [requester?] at h, fun _ h => by simp [answers] at h⟩
theorem Shape.tenancyReset (r : CsReq) (t : Fin 16) : Shape.Statement (.tenancyReset r t) := by
  intro h; simp only [Instr.wf] at h; exact ⟨fun _ e => by simp only [requester?, Option.some.injEq] at e; exact e ▸ requester_of_wf h, fun _ e => by simp [answers] at e⟩
theorem Shape.ringEnableSq (r : CsReq) (t : Fin 16) (ring : BitVec 20) (f : Fetch) : Shape.Statement (.ringEnableSq r t ring f) := by
  intro h; simp only [Instr.wf, Bool.and_eq_true] at h; exact ⟨fun _ e => by simp only [requester?, Option.some.injEq] at e; exact e ▸ requester_of_wf h.1, fun x e => answers_of_wf h.2 x e⟩
theorem Shape.ringDisableSq (r : CsReq) (t : Fin 16) (ring : BitVec 20) : Shape.Statement (.ringDisableSq r t ring) := by
  intro h; simp only [Instr.wf] at h; exact ⟨fun _ e => by simp only [requester?, Option.some.injEq] at e; exact e ▸ requester_of_wf h, fun _ e => by simp [answers] at e⟩
theorem Shape.ringEnableCq (r : CsReq) (t : Fin 16) (ring : BitVec 20) (f : Fetch) : Shape.Statement (.ringEnableCq r t ring f) := by
  intro h; simp only [Instr.wf, Bool.and_eq_true] at h; exact ⟨fun _ e => by simp only [requester?, Option.some.injEq] at e; exact e ▸ requester_of_wf h.1, fun x e => answers_of_wf h.2 x e⟩
theorem Shape.ringDisableCq (r : CsReq) (t : Fin 16) (ring : BitVec 20) : Shape.Statement (.ringDisableCq r t ring) := by
  intro h; simp only [Instr.wf] at h; exact ⟨fun _ e => by simp only [requester?, Option.some.injEq] at e; exact e ▸ requester_of_wf h, fun _ e => by simp [answers] at e⟩
theorem Shape.tenSqTable (r : CsReq) (t : Fin 16) (v : Word) : Shape.Statement (.tenSqTable r t v) := by
  intro h; simp only [Instr.wf] at h; exact ⟨fun _ e => by simp only [requester?, Option.some.injEq] at e; exact e ▸ requester_of_wf h, fun _ e => by simp [answers] at e⟩
theorem Shape.tenCqTable (r : CsReq) (t : Fin 16) (v : Word) : Shape.Statement (.tenCqTable r t v) := by
  intro h; simp only [Instr.wf] at h; exact ⟨fun _ e => by simp only [requester?, Option.some.injEq] at e; exact e ▸ requester_of_wf h, fun _ e => by simp [answers] at e⟩
theorem Shape.tenLiveTable (r : CsReq) (t : Fin 16) (v : Word) : Shape.Statement (.tenLiveTable r t v) := by
  intro h; simp only [Instr.wf] at h; exact ⟨fun _ e => by simp only [requester?, Option.some.injEq] at e; exact e ▸ requester_of_wf h, fun _ e => by simp [answers] at e⟩
theorem Shape.doorbell (r : CsReq) (t : Fin 16) (v : Word) : Shape.Statement (.doorbell r t v) := by
  intro h; simp only [Instr.wf] at h; exact ⟨fun _ e => by simp only [requester?, Option.some.injEq] at e; exact e ▸ requester_of_wf h, fun _ e => by simp [answers] at e⟩
theorem Shape.cqDoorbell (r : CsReq) (t : Fin 16) (v : Word) : Shape.Statement (.cqDoorbell r t v) := by
  intro h; simp only [Instr.wf] at h; exact ⟨fun _ e => by simp only [requester?, Option.some.injEq] at e; exact e ▸ requester_of_wf h, fun _ e => by simp [answers] at e⟩
theorem Shape.pushDrain (f : Fetch) : Shape.Statement (.pushDrain f) := by
  intro h; simp only [Instr.wf] at h; exact ⟨fun _ e => by simp [requester?] at e, fun x e => answers_of_wf h x e⟩
theorem Shape.sqEntryFetch (f : Fetch) : Shape.Statement (.sqEntryFetch f) := by
  intro h; simp only [Instr.wf] at h; exact ⟨fun _ e => by simp [requester?] at e, fun x e => answers_of_wf h x e⟩
theorem Shape.taskRelease : Shape.Statement (.taskRelease) := by
  intro _; exact ⟨fun _ h => by simp [requester?] at h, fun _ h => by simp [answers] at h⟩
theorem Shape.liveDoorbell (r : CsReq) (t : Fin 16) (v : Word) (f : Fetch) : Shape.Statement (.liveDoorbell r t v f) := by
  intro h; simp only [Instr.wf, Bool.and_eq_true] at h; exact ⟨fun _ e => by simp only [requester?, Option.some.injEq] at e; exact e ▸ requester_of_wf h.1, fun x e => answers_of_wf h.2 x e⟩
theorem Shape.livePush (node : Nat) (payload : BitVec 16) (f : Fetch) : Shape.Statement (.livePush node payload f) := by
  intro h; simp only [Instr.wf, Bool.and_eq_true] at h; exact ⟨fun _ e => by simp [requester?] at e, fun x e => answers_of_wf h.2 x e⟩
theorem Shape.livePostTake (port : Fin 512) (f : Fetch) : Shape.Statement (.livePostTake port f) := by
  intro h; simp only [Instr.wf] at h; exact ⟨fun _ e => by simp [requester?] at e, fun x e => answers_of_wf h x e⟩
theorem Shape.encodeStart (flow : BitVec 12) (f : Fetch) : Shape.Statement (.encodeStart flow f) := by
  intro h; simp only [Instr.wf] at h; exact ⟨fun _ e => by simp [requester?] at e, fun x e => answers_of_wf h x e⟩
theorem Shape.pieceDispatch (server : Fin 41) (f : Fetch) : Shape.Statement (.pieceDispatch server f) := by
  intro h; simp only [Instr.wf] at h; exact ⟨fun _ e => by simp [requester?] at e, fun x e => answers_of_wf h x e⟩
theorem Shape.parkedUnitReady (flow : BitVec 12) : Shape.Statement (.parkedUnitReady flow) := by
  intro _; exact ⟨fun _ h => by simp [requester?] at h, fun _ h => by simp [answers] at h⟩
theorem Shape.chunkWrite (flow : BitVec 12) : Shape.Statement (.chunkWrite flow) := by
  intro _; exact ⟨fun _ h => by simp [requester?] at h, fun _ h => by simp [answers] at h⟩
theorem Shape.pktDoorbell (r : CsReq) (t : Fin 16) (v : Word) : Shape.Statement (.pktDoorbell r t v) := by
  intro h; simp only [Instr.wf] at h; exact ⟨fun _ e => by simp only [requester?, Option.some.injEq] at e; exact e ▸ requester_of_wf h, fun _ e => by simp [answers] at e⟩
theorem Shape.taskEnd (id : Nat) : Shape.Statement (.taskEnd id) := by
  intro _; exact ⟨fun _ h => by simp [requester?] at h, fun _ h => by simp [answers] at h⟩
theorem Shape.completionWrite (cq : BitVec 16) : Shape.Statement (.completionWrite cq) := by
  intro _; exact ⟨fun _ h => by simp [requester?] at h, fun _ h => by simp [answers] at h⟩
theorem Shape.irqDelayExpire (cq : BitVec 16) : Shape.Statement (.irqDelayExpire cq) := by
  intro _; exact ⟨fun _ h => by simp [requester?] at h, fun _ h => by simp [answers] at h⟩
theorem Shape.berthEvict : Shape.Statement (.berthEvict) := by
  intro _; exact ⟨fun _ h => by simp [requester?] at h, fun _ h => by simp [answers] at h⟩
theorem Shape.swapComplete : Shape.Statement (.swapComplete) := by
  intro _; exact ⟨fun _ h => by simp [requester?] at h, fun _ h => by simp [answers] at h⟩
theorem Shape.poolWaitTimeout (pool : Fin 32) : Shape.Statement (.poolWaitTimeout pool) := by
  intro _; exact ⟨fun _ h => by simp [requester?] at h, fun _ h => by simp [answers] at h⟩
theorem Shape.tenGalleyStep (r : CsReq) (t : Fin 16) (v : Word) : Shape.Statement (.tenGalleyStep r t v) := by
  intro h; simp only [Instr.wf] at h; exact ⟨fun _ e => by simp only [requester?, Option.some.injEq] at e; exact e ▸ requester_of_wf h, fun _ e => by simp [answers] at e⟩
theorem Shape.step (node : Nat) (payload : BitVec 16) : Shape.Statement (.step node payload) := by
  intro _; exact ⟨fun _ h => by simp [requester?] at h, fun _ h => by simp [answers] at h⟩
theorem Shape.heldStepStart (group : Fin 64) : Shape.Statement (.heldStepStart group) := by
  intro _; exact ⟨fun _ h => by simp [requester?] at h, fun _ h => by simp [answers] at h⟩
theorem Shape.galleyLeave (r : CsReq) (t : Fin 16) (v : Word) : Shape.Statement (.galleyLeave r t v) := by
  intro h; simp only [Instr.wf] at h; exact ⟨fun _ e => by simp only [requester?, Option.some.injEq] at e; exact e ▸ requester_of_wf h, fun _ e => by simp [answers] at e⟩
theorem Shape.galleySkip (r : CsReq) (t : Fin 16) (v : Word) : Shape.Statement (.galleySkip r t v) := by
  intro h; simp only [Instr.wf] at h; exact ⟨fun _ e => by simp only [requester?, Option.some.injEq] at e; exact e ▸ requester_of_wf h, fun _ e => by simp [answers] at e⟩
theorem Shape.galleyFlush (r : CsReq) (t : Fin 16) (v : Word) : Shape.Statement (.galleyFlush r t v) := by
  intro h; simp only [Instr.wf] at h; exact ⟨fun _ e => by simp only [requester?, Option.some.injEq] at e; exact e ▸ requester_of_wf h, fun _ e => by simp [answers] at e⟩
theorem Shape.holdUsExpire (flow : BitVec 12) : Shape.Statement (.holdUsExpire flow) := by
  intro _; exact ⟨fun _ h => by simp [requester?] at h, fun _ h => by simp [answers] at h⟩
theorem Shape.holdLimit (flow : BitVec 12) : Shape.Statement (.holdLimit flow) := by
  intro _; exact ⟨fun _ h => by simp [requester?] at h, fun _ h => by simp [answers] at h⟩
theorem Shape.deltaAltSet (r : CsReq) (t : Fin 16) (v : Word) : Shape.Statement (.deltaAltSet r t v) := by
  intro h; simp only [Instr.wf] at h; exact ⟨fun _ e => by simp only [requester?, Option.some.injEq] at e; exact e ▸ requester_of_wf h, fun _ e => by simp [answers] at e⟩
theorem Shape.deltaAltClear (r : CsReq) (t : Fin 16) (v : Word) : Shape.Statement (.deltaAltClear r t v) := by
  intro h; simp only [Instr.wf] at h; exact ⟨fun _ e => by simp only [requester?, Option.some.injEq] at e; exact e ▸ requester_of_wf h, fun _ e => by simp [answers] at e⟩
theorem Shape.fallback (node : Nat) (payload : BitVec 24) : Shape.Statement (.fallback node payload) := by
  intro _; exact ⟨fun _ h => by simp [requester?] at h, fun _ h => by simp [answers] at h⟩
theorem Shape.layerDone (node : Nat) (payload : BitVec 32) : Shape.Statement (.layerDone node payload) := by
  intro _; exact ⟨fun _ h => by simp [requester?] at h, fun _ h => by simp [answers] at h⟩
theorem Shape.tenDeltaDone (r : CsReq) (t : Fin 16) (v : Word) : Shape.Statement (.tenDeltaDone r t v) := by
  intro h; simp only [Instr.wf] at h; exact ⟨fun _ e => by simp only [requester?, Option.some.injEq] at e; exact e ▸ requester_of_wf h, fun _ e => by simp [answers] at e⟩
theorem Shape.drainTimeout (id : Nat) : Shape.Statement (.drainTimeout id) := by
  intro _; exact ⟨fun _ h => by simp [requester?] at h, fun _ h => by simp [answers] at h⟩
theorem Shape.staggerGroupStart (group : Fin 16) : Shape.Statement (.staggerGroupStart group) := by
  intro _; exact ⟨fun _ h => by simp [requester?] at h, fun _ h => by simp [answers] at h⟩
theorem Shape.rdData (tag : BitVec 16) (status : RespStatus) (data : List Byte) : Shape.Statement (.rdData tag status data) := by
  intro _; exact ⟨fun _ h => by simp [requester?] at h, fun _ h => by simp [answers] at h⟩
theorem Shape.ack (tag : BitVec 16) (status : RespStatus) : Shape.Statement (.ack tag status) := by
  intro _; exact ⟨fun _ h => by simp [requester?] at h, fun _ h => by simp [answers] at h⟩
theorem Shape.fabricTimeout (tag : BitVec 16) : Shape.Statement (.fabricTimeout tag) := by
  intro _; exact ⟨fun _ h => by simp [requester?] at h, fun _ h => by simp [answers] at h⟩
theorem Shape.linkCrcFail (port : Fin 16) : Shape.Statement (.linkCrcFail port) := by
  intro _; exact ⟨fun _ h => by simp [requester?] at h, fun _ h => by simp [answers] at h⟩
theorem Shape.creditViolation (port : Fin 16) : Shape.Statement (.creditViolation port) := by
  intro _; exact ⟨fun _ h => by simp [requester?] at h, fun _ h => by simp [answers] at h⟩
theorem Shape.faultEvent (source : BitVec 8) (info : FaultInfo) : Shape.Statement (.faultEvent source info) := by
  intro _; exact ⟨fun _ h => by simp [requester?] at h, fun _ h => by simp [answers] at h⟩
theorem Shape.railFault (source : BitVec 8) (info : FaultInfo) : Shape.Statement (.railFault source info) := by
  intro _; exact ⟨fun _ h => by simp [requester?] at h, fun _ h => by simp [answers] at h⟩
theorem Shape.railFaultEnd (source : BitVec 8) : Shape.Statement (.railFaultEnd source) := by
  intro _; exact ⟨fun _ h => by simp [requester?] at h, fun _ h => by simp [answers] at h⟩
theorem Shape.escalationDecay (source : BitVec 8) : Shape.Statement (.escalationDecay source) := by
  intro _; exact ⟨fun _ h => by simp [requester?] at h, fun _ h => by simp [answers] at h⟩
theorem Shape.collectorSelfCheck (pass : Bool) : Shape.Statement (.collectorSelfCheck pass) := by
  intro _; exact ⟨fun _ h => by simp [requester?] at h, fun _ h => by simp [answers] at h⟩
theorem Shape.watchdog (id : Nat) : Shape.Statement (.watchdog id) := by
  intro _; exact ⟨fun _ h => by simp [requester?] at h, fun _ h => by simp [answers] at h⟩
theorem Shape.grdTko (v : Word) (f : Fetch) : Shape.Statement (.grdTko v f) := by
  intro h; simp only [Instr.wf] at h; exact ⟨fun _ e => by simp [requester?] at e, fun x e => answers_of_wf h x e⟩
theorem Shape.takeoverClaimTimeout : Shape.Statement (.takeoverClaimTimeout) := by
  intro _; exact ⟨fun _ h => by simp [requester?] at h, fun _ h => by simp [answers] at h⟩
theorem Shape.guardRead (header : BitVec 32) : Shape.Statement (.guardRead header) := by
  intro _; exact ⟨fun _ h => by simp [requester?] at h, fun _ h => by simp [answers] at h⟩
theorem Shape.guardWrite (header : BitVec 32) (v : Word) : Shape.Statement (.guardWrite header v) := by
  intro _; exact ⟨fun _ h => by simp [requester?] at h, fun _ h => by simp [answers] at h⟩
theorem Shape.guardRepair (header : BitVec 32) (words : List (BitVec 32)) : Shape.Statement (.guardRepair header words) := by
  intro _; exact ⟨fun _ h => by simp [requester?] at h, fun _ h => by simp [answers] at h⟩
theorem Shape.grdVtableCrc (v : Word) : Shape.Statement (.grdVtableCrc v) := by
  intro _; exact ⟨fun _ h => by simp [requester?] at h, fun _ h => by simp [answers] at h⟩
theorem Shape.forget : Shape.Statement (.forget) := by
  intro _; exact ⟨fun _ h => by simp [requester?] at h, fun _ h => by simp [answers] at h⟩
theorem Shape.delivered (peerTook : Bool) : Shape.Statement (.delivered peerTook) := by
  intro _; exact ⟨fun _ h => by simp [requester?] at h, fun _ h => by simp [answers] at h⟩
theorem Shape.grdFltSrc (source : Fin 64) (v : Word) : Shape.Statement (.grdFltSrc source v) := by
  intro _; exact ⟨fun _ h => by simp [requester?] at h, fun _ h => by simp [answers] at h⟩
theorem Shape.aonRstNLow : Shape.Statement (.aonRstNLow) := by
  intro _; exact ⟨fun _ h => by simp [requester?] at h, fun _ h => by simp [answers] at h⟩
theorem Shape.coldStart (lanesGood : Fin 145) (entropyGood : Fin 53) (credits : BitVec 16) : Shape.Statement (.coldStart lanesGood entropyGood credits) := by
  intro _; exact ⟨fun _ h => by simp [requester?] at h, fun _ h => by simp [answers] at h⟩
theorem Shape.tmodeChange (level : Bool) : Shape.Statement (.tmodeChange level) := by
  intro _; exact ⟨fun _ h => by simp [requester?] at h, fun _ h => by simp [answers] at h⟩
theorem Shape.instRstNLow : Shape.Statement (.instRstNLow) := by
  intro _; exact ⟨fun _ h => by simp [requester?] at h, fun _ h => by simp [answers] at h⟩
theorem Shape.warmStart (f : Fetch) (credits : BitVec 16) : Shape.Statement (.warmStart f credits) := by
  intro h; simp only [Instr.wf] at h; exact ⟨fun _ e => by simp [requester?] at e, fun x e => answers_of_wf h x e⟩
theorem Shape.glbResetWarm (r : CsReq) (v : Word) : Shape.Statement (.glbResetWarm r v) := by
  intro h; simp only [Instr.wf] at h; exact ⟨fun _ e => by simp only [requester?, Option.some.injEq] at e; exact e ▸ requester_of_wf h, fun _ e => by simp [answers] at e⟩
theorem Shape.perDomainReset (r : CsReq) (v : Word) (f : Fetch) : Shape.Statement (.perDomainReset r v f) := by
  intro h; simp only [Instr.wf, Bool.and_eq_true] at h; exact ⟨fun _ e => by simp only [requester?, Option.some.injEq] at e; exact e ▸ requester_of_wf h.1, fun x e => answers_of_wf h.2 x e⟩
theorem Shape.formeReload (r : CsReq) (v : Word) (f : Fetch) : Shape.Statement (.formeReload r v f) := by
  intro h; simp only [Instr.wf, Bool.and_eq_true] at h; exact ⟨fun _ e => by simp only [requester?, Option.some.injEq] at e; exact e ▸ requester_of_wf h.1, fun x e => answers_of_wf h.2 x e⟩
theorem Shape.flushTimeout : Shape.Statement (.flushTimeout) := by
  intro _; exact ⟨fun _ h => by simp [requester?] at h, fun _ h => by simp [answers] at h⟩
theorem Shape.clkRun (d : Domain) : Shape.Statement (.clkRun d) := by
  intro _; exact ⟨fun _ h => by simp [requester?] at h, fun _ h => by simp [answers] at h⟩
theorem Shape.clkIdle (d : Domain) : Shape.Statement (.clkIdle d) := by
  intro _; exact ⟨fun _ h => by simp [requester?] at h, fun _ h => by simp [answers] at h⟩
theorem Shape.clkWakeTimeout (d : Domain) : Shape.Statement (.clkWakeTimeout d) := by
  intro _; exact ⟨fun _ h => by simp [requester?] at h, fun _ h => by simp [answers] at h⟩
theorem Shape.clockLoss (d : Domain) : Shape.Statement (.clockLoss d) := by
  intro _; exact ⟨fun _ h => by simp [requester?] at h, fun _ h => by simp [answers] at h⟩
theorem Shape.vrAlertNFall : Shape.Statement (.vrAlertNFall) := by
  intro _; exact ⟨fun _ h => by simp [requester?] at h, fun _ h => by simp [answers] at h⟩
theorem Shape.vrAlertNRise : Shape.Statement (.vrAlertNRise) := by
  intro _; exact ⟨fun _ h => by simp [requester?] at h, fun _ h => by simp [answers] at h⟩
theorem Shape.alertHoldExpire : Shape.Statement (.alertHoldExpire) := by
  intro _; exact ⟨fun _ h => by simp [requester?] at h, fun _ h => by simp [answers] at h⟩
theorem Shape.barrierHint : Shape.Statement (.barrierHint) := by
  intro _; exact ⟨fun _ h => by simp [requester?] at h, fun _ h => by simp [answers] at h⟩
theorem Shape.barrierRelease : Shape.Statement (.barrierRelease) := by
  intro _; exact ⟨fun _ h => by simp [requester?] at h, fun _ h => by simp [answers] at h⟩
theorem Shape.rampStep : Shape.Statement (.rampStep) := by
  intro _; exact ⟨fun _ h => by simp [requester?] at h, fun _ h => by simp [answers] at h⟩
theorem Shape.hintMaxExpire : Shape.Statement (.hintMaxExpire) := by
  intro _; exact ⟨fun _ h => by simp [requester?] at h, fun _ h => by simp [answers] at h⟩
theorem Shape.timeSync (time : Word) : Shape.Statement (.timeSync time) := by
  intro _; exact ⟨fun _ h => by simp [requester?] at h, fun _ h => by simp [answers] at h⟩
theorem Shape.syncLoss : Shape.Statement (.syncLoss) := by
  intro _; exact ⟨fun _ h => by simp [requester?] at h, fun _ h => by simp [answers] at h⟩
theorem Shape.peerAliveEdge : Shape.Statement (.peerAliveEdge) := by
  intro _; exact ⟨fun _ h => by simp [requester?] at h, fun _ h => by simp [answers] at h⟩
theorem Shape.peerSeenExpire : Shape.Statement (.peerSeenExpire) := by
  intro _; exact ⟨fun _ h => by simp [requester?] at h, fun _ h => by simp [answers] at h⟩
theorem Shape.aliveToggle : Shape.Statement (.aliveToggle) := by
  intro _; exact ⟨fun _ h => by simp [requester?] at h, fun _ h => by simp [answers] at h⟩
theorem Shape.share (v : BitVec 28) : Shape.Statement (.share v) := by
  intro _; exact ⟨fun _ h => by simp [requester?] at h, fun _ h => by simp [answers] at h⟩
theorem Shape.meas (v : BitVec 28) : Shape.Statement (.meas v) := by
  intro _; exact ⟨fun _ h => by simp [requester?] at h, fun _ h => by simp [answers] at h⟩
theorem Shape.measStale : Shape.Statement (.measStale) := by
  intro _; exact ⟨fun _ h => by simp [requester?] at h, fun _ h => by simp [answers] at h⟩
theorem Shape.agreeExpire : Shape.Statement (.agreeExpire) := by
  intro _; exact ⟨fun _ h => by simp [requester?] at h, fun _ h => by simp [answers] at h⟩
theorem Shape.vack (v : BitVec 28) : Shape.Statement (.vack v) := by
  intro _; exact ⟨fun _ h => by simp [requester?] at h, fun _ h => by simp [answers] at h⟩
theorem Shape.vreqTimeout : Shape.Statement (.vreqTimeout) := by
  intro _; exact ⟨fun _ h => by simp [requester?] at h, fun _ h => by simp [answers] at h⟩
theorem Shape.vreqRetry : Shape.Statement (.vreqRetry) := by
  intro _; exact ⟨fun _ h => by simp [requester?] at h, fun _ h => by simp [answers] at h⟩
theorem Shape.stepUp : Shape.Statement (.stepUp) := by
  intro _; exact ⟨fun _ h => by simp [requester?] at h, fun _ h => by simp [answers] at h⟩
theorem Shape.capEvaluate : Shape.Statement (.capEvaluate) := by
  intro _; exact ⟨fun _ h => by simp [requester?] at h, fun _ h => by simp [answers] at h⟩
theorem Shape.tempSample (tj : BitVec 16) : Shape.Statement (.tempSample tj) := by
  intro _; exact ⟨fun _ h => by simp [requester?] at h, fun _ h => by simp [answers] at h⟩
theorem Shape.tjMaxStep : Shape.Statement (.tjMaxStep) := by
  intro _; exact ⟨fun _ h => by simp [requester?] at h, fun _ h => by simp [answers] at h⟩
theorem Shape.currentEstimate : Shape.Statement (.currentEstimate) := by
  intro _; exact ⟨fun _ h => by simp [requester?] at h, fun _ h => by simp [answers] at h⟩
theorem Shape.edcTimerExpire : Shape.Statement (.edcTimerExpire) := by
  intro _; exact ⟨fun _ h => by simp [requester?] at h, fun _ h => by simp [answers] at h⟩
theorem Shape.droop : Shape.Statement (.droop) := by
  intro _; exact ⟨fun _ h => by simp [requester?] at h, fun _ h => by simp [answers] at h⟩
theorem Shape.droopEnd : Shape.Statement (.droopEnd) := by
  intro _; exact ⟨fun _ h => by simp [requester?] at h, fun _ h => by simp [answers] at h⟩
theorem Shape.boostBudgetEnd : Shape.Statement (.boostBudgetEnd) := by
  intro _; exact ⟨fun _ h => by simp [requester?] at h, fun _ h => by simp [answers] at h⟩
theorem Shape.boostBinRoll : Shape.Statement (.boostBinRoll) := by
  intro _; exact ⟨fun _ h => by simp [requester?] at h, fun _ h => by simp [answers] at h⟩
theorem Shape.boostBinsSave : Shape.Statement (.boostBinsSave) := by
  intro _; exact ⟨fun _ h => by simp [requester?] at h, fun _ h => by simp [answers] at h⟩
theorem Shape.offloadWindow : Shape.Statement (.offloadWindow) := by
  intro _; exact ⟨fun _ h => by simp [requester?] at h, fun _ h => by simp [answers] at h⟩
theorem Shape.katGo (r : CsReq) (v : Word) : Shape.Statement (.katGo r v) := by
  intro h; simp only [Instr.wf] at h; exact ⟨fun _ e => by simp only [requester?, Option.some.injEq] at e; exact e ▸ requester_of_wf h, fun _ e => by simp [answers] at e⟩
theorem Shape.katDone : Shape.Statement (.katDone) := by
  intro _; exact ⟨fun _ h => by simp [requester?] at h, fun _ h => by simp [answers] at h⟩
theorem Shape.tstInj (r : CsReq) (v : Word) : Shape.Statement (.tstInj r v) := by
  intro h; simp only [Instr.wf] at h; exact ⟨fun _ e => by simp only [requester?, Option.some.injEq] at e; exact e ▸ requester_of_wf h, fun _ e => by simp [answers] at e⟩
theorem Shape.registerWrite (r : CsReq) (off : Nat) (len : Nat) (v : Word) : Shape.Statement (.registerWrite r off len v) := by
  intro h; simp only [Instr.wf, Bool.and_eq_true] at h; exact ⟨fun _ e => by simp only [requester?, Option.some.injEq] at e; exact e ▸ requester_of_wf h.1.1, fun _ e => by simp [answers] at e⟩
theorem Shape.registerRead (r : CsReq) (off : Nat) (len : Nat) : Shape.Statement (.registerRead r off len) := by
  intro h; simp only [Instr.wf, Bool.and_eq_true] at h; exact ⟨fun _ e => by simp only [requester?, Option.some.injEq] at e; exact e ▸ requester_of_wf h.1.1, fun _ e => by simp [answers] at e⟩
theorem Shape.badMsg (node : Nat) (type : BitVec 16) (payload : List Byte) : Shape.Statement (.badMsg node type payload) := by
  intro _; exact ⟨fun _ h => by simp [requester?] at h, fun _ h => by simp [answers] at h⟩
theorem Shape.guardTransactionGap : Shape.Statement (.guardTransactionGap) := by
  intro _; exact ⟨fun _ h => by simp [requester?] at h, fun _ h => by simp [answers] at h⟩
theorem Shape.weirBucketRefill : Shape.Statement (.weirBucketRefill) := by
  intro _; exact ⟨fun _ h => by simp [requester?] at h, fun _ h => by simp [answers] at h⟩
theorem Shape.staggerHoldLimit : Shape.Statement (.staggerHoldLimit) := by
  intro _; exact ⟨fun _ h => by simp [requester?] at h, fun _ h => by simp [answers] at h⟩
theorem Shape.staggerWindowClose : Shape.Statement (.staggerWindowClose) := by
  intro _; exact ⟨fun _ h => by simp [requester?] at h, fun _ h => by simp [answers] at h⟩
theorem Shape.instanceSupplyLoss : Shape.Statement (.instanceSupplyLoss) := by
  intro _; exact ⟨fun _ h => by simp [requester?] at h, fun _ h => by simp [answers] at h⟩
theorem Shape.alwaysOnSupplyLoss : Shape.Statement (.alwaysOnSupplyLoss) := by
  intro _; exact ⟨fun _ h => by simp [requester?] at h, fun _ h => by simp [answers] at h⟩

end Sys2Proof.Laws
end

