-- ==== Sys2Proof/Laws/Power.lean ====
section
/-! SUPPORT. What taking up the ceilings (State.settlePtc) can do: the records of the reasons, a step down to the slowest ceiling with
its request for voltage, and the times since when each state is allowed. The rest of PTC stays as it is, and the state in force is
then no faster than the slowest ceiling. -/

set_option Elab.async false

namespace Sys2Proof.Machine

/-- PTC without what settlePtc writes. -/
def PtcRun.rest (c : PtcRun) : PtcRun :=
  { c with
    pstate := 0, reasons := [], allowedAt := [], vreq := none, vreqAt := 0, stepTo := none, retryAt := none, bins := [],
    budgetOut := false, p0Since := none, p0Start := 0, lastMs := 0, endWhy := 0 }

/-- A register of the throttle records (PTC_THR_DUR, PTC_THR_COUNT and PTC_THR_LAST of the six reasons). -/
def isRecord (off : Nat) : Prop := 0xa00100 ≤ off ∧ off < 0xa001c0

/-- t comes from s by records alone. -/
structure Recorded (s t : State) : Prop where
  ptc      : { t.ptc with reasons := [] } = { s.ptc with reasons := [] }
  time     : t.time = s.time
  regs     : ∀ off, ¬ isRecord off → t.regs.get off = s.regs.get off
  ceilings : t.ceilings = s.ceilings

theorem Recorded.refl (s : State) : Recorded s s := ⟨rfl, rfl, fun _ _ => rfl, rfl⟩

theorem Recorded.trans {r s t : State} (h : Recorded r s) (k : Recorded s t) : Recorded r t :=
  ⟨k.ptc.trans h.ptc, k.time.trans h.time, fun off ho => (k.regs off ho).trans (h.regs off ho), k.ceilings.trans h.ceilings⟩

theorem Recorded.fld {s t : State} (h : Recorded s t) (f : Field) (hf : ¬ isRecord f.off) : t.fld f = s.fld f := by
  unfold State.fld
  rw [h.regs _ hf]

theorem State.setFld_get {s : State} {f : Field} {v off : Nat} (h : off ≠ f.off) : (s.setFld f v).regs.get off = s.regs.get off :=
  RegFile.get_set_other _ _ h

/-- A reason that is put again with its own ceiling is held as before. -/
theorem reasons_put {l : List Ceiling} {i k : Nat} {c : Option Nat} {x : Option Nat}
    (h : k = i → c.isSome = (l.getD i Ceiling.off).held) :
    ((l.mapIdx (fun j r => if j = i then (⟨c.isSome, c.getD 0, x⟩ : Ceiling) else r)).getD k Ceiling.off).held =
      (l.getD k Ceiling.off).held := by
  simp only [List.getD_eq_getElem?_getD, List.getElem?_mapIdx]
  cases hk : l[k]? with
  | none => simp
  | some r =>
    simp only [Option.map_some, Option.getD_some]
    split
    · rename_i e
      have := h e
      rw [List.getD_eq_getElem?_getD, ← e, hk] at this
      exact this
    · rfl

theorem reasons_put_state {l : List Ceiling} {i k : Nat} {c : Option Nat} {x : Option Nat}
    (h : k = i → c = if (l.getD i Ceiling.off).held then some (l.getD i Ceiling.off).state else none)
    (hh : (l.getD k Ceiling.off).held = true) :
    ((l.mapIdx (fun j r => if j = i then (⟨c.isSome, c.getD 0, x⟩ : Ceiling) else r)).getD k Ceiling.off).state =
      (l.getD k Ceiling.off).state := by
  simp only [List.getD_eq_getElem?_getD, List.getElem?_mapIdx] at hh ⊢
  cases hk : l[k]? with
  | none => simp
  | some r =>
    rw [hk] at hh
    simp only [Option.map_some, Option.getD_some] at hh ⊢
    split
    · rename_i e
      have := h e
      rw [List.getD_eq_getElem?_getD, ← e, hk] at this
      simp only [Option.getD_some, hh, if_true] at this
      rw [this]
      rfl
    · rfl

theorem State.requested_eq {s t : State} (h : t.regs.get 0xa00000 = s.regs.get 0xa00000) : t.requested = s.requested := by
  unfold State.requested State.flag State.fld
  simp only [show F.PTC_CTRL_STEADY.off = 0xa00000 from rfl, show F.PTC_CTRL_REQ_PSTATE.off = 0xa00000 from rfl,
    show F.PTC_CTRL_STEADY_STATE.off = 0xa00000 from rfl, h]

/-- One reason's record. -/
theorem State.record_recorded (s : State) {i : Nat} (hi : i < 6) : Recorded s (s.record i) := by
  have hput : ∀ (x : Option Nat) (q : RegFile), (∀ off, ¬ isRecord off → q.get off = s.regs.get off) →
      Recorded s { s with
        regs := q
        ptc := { s.ptc with reasons := s.ptc.reasons.mapIdx (fun k r =>
          if k = i then ⟨(s.ceilings.getD i none).isSome, (s.ceilings.getD i none).getD 0, x⟩ else r) } } := by
    intro x q hq
    refine ⟨rfl, rfl, hq, ?_⟩
    have hreq := State.requested_eq (s := s) (t := { s with
      regs := q
      ptc := { s.ptc with reasons := s.ptc.reasons.mapIdx (fun k r =>
        if k = i then ⟨(s.ceilings.getD i none).isSome, (s.ceilings.getD i none).getD 0, x⟩ else r) } })
      (hq _ (by unfold isRecord; omega))
    have h2 : i = 2 → s.ceilings.getD i none =
        if (s.ptc.reasons.getD i Ceiling.off).held then some (s.ptc.reasons.getD i Ceiling.off).state else none := by
      rintro rfl; rfl
    have h5 : i = 5 → s.ceilings.getD i none =
        if (s.ptc.reasons.getD i Ceiling.off).held then some (min 4 (s.requested + 1)) else none := by
      rintro rfl; rfl
    have e2 := reasons_put (l := s.ptc.reasons) (i := i) (k := 2) (c := s.ceilings.getD i none) (x := x)
      (fun e => by subst e; rw [h2 rfl]; cases (s.ptc.reasons.getD 2 Ceiling.off).held <;> rfl)
    have e5 := reasons_put (l := s.ptc.reasons) (i := i) (k := 5) (c := s.ceilings.getD i none) (x := x)
      (fun e => by subst e; rw [h5 rfl]; cases (s.ptc.reasons.getD 5 Ceiling.off).held <;> rfl)
    have e3 := reasons_put_state (l := s.ptc.reasons) (i := i) (k := 2) (c := s.ceilings.getD i none) (x := x)
      (fun e => by subst e; exact h2 rfl)
    generalize hc : s.ceilings.getD i none = c at *
    unfold State.ceilings
    simp only [e2, e5, hreq]
    cases hh : (s.ptc.reasons.getD 2 Ceiling.off).held with
    | false => rfl
    | true => rw [e3 hh]; rfl
  have hn : ∀ off, ¬ isRecord off → off ≠ (F.PTC_THR_DUR_NS i).off ∧ off ≠ (F.PTC_THR_COUNT_EVENTS i).off ∧
      off ≠ (F.PTC_THR_LAST_TIME i).off := by
    intro off ho
    simp only [show (F.PTC_THR_DUR_NS i).off = 0xa00100 + 0x20 * i from rfl,
      show (F.PTC_THR_COUNT_EVENTS i).off = 0xa00108 + 0x20 * i from rfl,
      show (F.PTC_THR_LAST_TIME i).off = 0xa00110 + 0x20 * i from rfl]
    unfold isRecord at ho
    omega
  unfold State.record
  extract_lets old c on now put
  split
  · exact hput (some now) _ (fun off ho =>
      (RegFile.get_set_other _ _ (hn off ho).2.2).trans (RegFile.get_set_other _ _ (hn off ho).2.1))
  · exact hput none _ (fun off ho => RegFile.get_set_other _ _ (hn off ho).1)
  · exact hput _ s.regs (fun _ _ => rfl)

theorem State.records_recorded (s : State) : Recorded s ((List.range 6).foldl State.record s) := by
  have h : ∀ (l : List Nat) (t : State), (∀ i ∈ l, i < 6) → Recorded t (l.foldl State.record t) := by
    intro l
    induction l with
    | nil => exact fun t _ => Recorded.refl t
    | cons a l ih => exact fun t hl => (State.record_recorded t (hl a (by simp))).trans (ih _ (fun i hi => hl i (by simp [hi])))
  exact h _ s (fun i hi => List.mem_range.1 hi)

theorem foldl_max_mono (l : List Nat) {a b : Nat} (h : a ≤ b) : l.foldl max a ≤ l.foldl max b := by
  induction l generalizing a b with
  | nil => exact h
  | cons x l ih => exact ih (max_le_max_right x h)

theorem maxL_mono {a b c : Nat} {l : List Nat} (h : b ≤ c) : maxL (a :: b :: l) ≤ maxL (a :: c :: l) :=
  foldl_max_mono l (max_le_max_left _ h)

theorem le_foldl_max (l : List Nat) (a : Nat) : a ≤ l.foldl max a := by
  induction l generalizing a with
  | nil => exact Nat.le_refl a
  | cons x l ih => exact (Nat.le_max_left a x).trans (ih _)

theorem le_maxL {l : List Nat} {x : Nat} (h : x ∈ l) : x ≤ maxL l := by
  have : ∀ a, x ≤ l.foldl max a := by
    induction l with
    | nil => cases h
    | cons y l ih =>
      intro a
      rcases List.mem_cons.1 h with rfl | h
      · exact (Nat.le_max_right a x).trans (le_foldl_max l _)
      · exact ih h _
  exact this 0

/-- A ceiling that lowers the state bounds what is allowed. -/
theorem State.ceiling_le_allowed {s : State} {i c : Nat} (hi : i < 6) (hl : s.lowers i = true)
    (hc : s.ceilings.getD i none = some c) : c ≤ s.allowed := by
  unfold State.allowed
  refine le_maxL (List.mem_cons_of_mem _ (List.mem_cons_of_mem _ (List.mem_cons_of_mem _ ?_)))
  rw [List.mem_mapIdx]
  have hlen : s.ceilings.length = 6 := rfl
  refine ⟨i, by omega, ?_⟩
  rw [List.getD_eq_getElem?_getD, List.getElem?_eq_getElem (by omega)] at hc
  simp only [Option.getD_some] at hc
  rw [hl, hc]
  rfl

/-- Without its conditions, P0 is not allowed. -/
theorem State.boost_le_allowed {s : State} (h : s.boostOk = false) : 1 ≤ s.allowed := by
  unfold State.allowed
  exact le_maxL (List.mem_cons_of_mem _ (by rw [h]; exact List.mem_cons_self))

/-- What the slowest ceiling reads. -/
theorem State.allowed_eq {s t : State} (hc : t.ceilings = s.ceilings) (hr : ∀ off, ¬ isRecord off → t.regs.get off = s.regs.get off)
    (hb : s.boostOk = true → t.boostOk = true) (hf : t.ptc.fallback = s.ptc.fallback) : t.allowed ≤ s.allowed := by
  have hl : ∀ i, t.lowers i = s.lowers i := by
    intro i
    unfold State.lowers State.flag State.fld
    rw [hr _ (by unfold isRecord; decide)]
  have hq := State.requested_eq (s := s) (t := t) (hr _ (by unfold isRecord; omega))
  unfold State.allowed
  simp only [hc, hl, hq, hf]
  refine maxL_mono ?_
  cases hs : s.boostOk with
  | false => cases t.boostOk <;> decide
  | true => rw [hb hs]

theorem sumL_cons (a : Nat) (l : List Nat) : sumL (a :: l) = a + sumL l := by
  have : ∀ (l : List Nat) (x y : Nat), l.foldl (· + ·) (x + y) = x + l.foldl (· + ·) y := by
    intro l
    induction l with
    | nil => exact fun x y => rfl
    | cons b l ih => intro x y; simp only [List.foldl_cons, Nat.add_assoc]; exact ih x (y + b)
  unfold sumL
  simp only [List.foldl_cons]
  rw [Nat.zero_add]
  exact this l a 0

/-- Banking the residency changes the bins alone, and the sum by no more than what runs. -/
theorem State.bankBoost_used (s : State) :
    ∃ b p, s.bankBoost.ptc = { s.ptc with bins := b, p0Since := p } ∧ sumL b ≤ s.boostUsed ∧
      (s.ptc.p0Since = none → b = s.ptc.bins ∧ p = none) := by
  unfold State.bankBoost State.boostUsed
  cases hp : s.ptc.p0Since with
  | none => exact ⟨s.ptc.bins, none, by cases hc : s.ptc; rw [hc] at hp; simp only at hp; subst hp; rfl, Nat.le_add_right _ _, fun _ => ⟨rfl, rfl⟩⟩
  | some t =>
    refine ⟨_, _, rfl, ?_, by simp⟩
    cases s.ptc.bins with
    | nil => exact Nat.zero_le _
    | cons a l =>
      have : ∀ l : List Nat, l.mapIdx (fun i b => if i + 1 = 0 then b + (s.now - t) else b) = l := by
        intro l
        apply List.ext_getElem <;> simp
      simp only [List.mapIdx_cons, if_true, sumL_cons]
      rw [this l]
      omega

/-- The state in force changes to a slower one: the state, the boost residency and its record alone. -/
theorem State.enterState_ptc (s : State) {p : Nat} (hp : p ≠ 0) :
    ∃ b q w m, s.enterState p = { s with ptc := { s.ptc with
      pstate := p, bins := b, p0Since := q, endWhy := w, lastMs := m } } ∧
      sumL b + (match q with | some t => s.now - t | none => 0) ≤ s.boostUsed ∧
      (s.ptc.p0Since = none → b = s.ptc.bins ∧ q = none) := by
  unfold State.enterState
  split
  · rename_i h
    refine ⟨s.ptc.bins, s.ptc.p0Since, s.ptc.endWhy, s.ptc.lastMs, ?_, Nat.le_refl _, fun h => ⟨rfl, h⟩⟩
    subst h
    rfl
  · extract_lets why x y
    by_cases h0 : s.ptc.pstate = 0
    · obtain ⟨b, q, hb, hs, hn⟩ := State.bankBoost_used s
      have hx : x = { s with ptc := { s.ptc with bins := b, p0Since := q } } := by
        have : x = { s with ptc := x.ptc } := by
          simp only [x, State.bankBoost]
          split <;> rfl
        rw [this, show x.ptc = _ from hb]
      have hy : y = { s with ptc := { s.ptc with
          bins := b, p0Since := none, endWhy := why, lastMs := min (2 ^ 20 - 1) ((s.now - s.ptc.p0Start) / 1000000) } } := by
        simp only [y, if_pos h0, State.modPtc]
        rw [hx]
        rfl
      rw [hy]
      refine ⟨b, none, why, min (2 ^ 20 - 1) ((s.now - s.ptc.p0Start) / 1000000), ?_, by simpa using hs, fun h => ⟨(hn h).1, rfl⟩⟩
      simp only [State.modPtc]
      rfl
    · have hy : y = s := if_neg h0
      rw [hy]
      refine ⟨s.ptc.bins, s.ptc.p0Since, s.ptc.endWhy, s.ptc.lastMs, ?_, Nat.le_refl _, fun h => ⟨rfl, h⟩⟩
      simp only [State.modPtc]
      rfl

/-- What followVoltage may change. -/
theorem State.followVoltage_ptc (s : State) : ∃ m v a st, s.followVoltage = { s with
    pmOut := m, ptc := { s.ptc with vreq := v, vreqAt := a, stepTo := st } } := by
  unfold State.followVoltage
  simp only
  split
  · exact ⟨s.pmOut, s.ptc.vreq, s.ptc.vreqAt, s.ptc.stepTo, rfl⟩
  · exact ⟨_, _, _, _, rfl⟩

/-- Is P0 out of its budget after the ceilings are taken up (R423)? -/
def State.budgetNext (s : State) : Bool :=
  (s.ptc.budgetOut && !decide (100 * s.boostUsed < 95 * s.boostBudget)) ||
    (decide (s.boostBudget ≤ s.boostUsed) && s.ptc.pstate == 0)

/-- The step of settlePtc that follows the records: down to the slowest ceiling, or a step up given up. -/
def State.takeAllowed (y : State) : State :=
  if y.ptc.pstate < y.allowed then
    ((y.enterState y.allowed).modPtc (fun c => { c with stepTo := none, retryAt := none })).followVoltage
  else if y.ptc.stepTo.any (fun k => decide (k < y.allowed)) then (y.modPtc (fun c => { c with stepTo := none })).followVoltage
  else y

/-- All that taking up the ceilings can do. -/
theorem State.settlePtc_spec (s : State) :
    s.settlePtc.ptc.rest = s.ptc.rest ∧ s.settlePtc.time = s.time ∧ s.settlePtc.ceilings = s.ceilings ∧
      (∀ off, ¬ isRecord off → s.settlePtc.regs.get off = s.regs.get off) ∧
      s.ptc.pstate ≤ s.settlePtc.ptc.pstate ∧ s.settlePtc.allowed ≤ s.settlePtc.ptc.pstate ∧
      s.settlePtc.ptc.budgetOut = s.budgetNext ∧
      (s.ptc.p0Since = none → s.settlePtc.ptc.bins = s.ptc.bins) := by
  obtain ⟨w, hw⟩ : ∃ w : State, w = s.modPtc (fun c => { c with
    budgetOut := (c.budgetOut && !decide (100 * s.boostUsed < 95 * s.boostBudget)) ||
      (decide (s.boostBudget ≤ s.boostUsed) && c.pstate == 0) }) := ⟨_, rfl⟩
  have hr := State.records_recorded w
  obtain ⟨y, hy⟩ : ∃ y : State, y = (List.range 6).foldl State.record w := ⟨_, rfl⟩
  have hs : s.settlePtc = (y.takeAllowed).modPtc (fun c => { c with
      allowedAt := c.allowedAt.mapIdx (fun k t => if y.allowed ≤ k then t.orElse (fun _ => some y.takeAllowed.now) else none) }) := by
    rw [hy, hw]
    rfl
  rw [hs]
  rw [← hy] at hr
  clear hs hy
  unfold State.takeAllowed
  obtain ⟨a, ha⟩ : ∃ a, a = y.allowed := ⟨_, rfl⟩
  rw [← ha]
  have hwc : w.ceilings = s.ceilings := by rw [hw]; rfl
  have hps : y.ptc.pstate = s.ptc.pstate := by
    have := congrArg PtcRun.pstate hr.ptc
    rw [hw] at this
    exact this
  have hbo : y.ptc.budgetOut = s.budgetNext := by
    have := congrArg PtcRun.budgetOut hr.ptc
    rw [hw] at this
    exact this
  have hbi : y.ptc.bins = s.ptc.bins := by
    have := congrArg PtcRun.bins hr.ptc
    rw [hw] at this
    exact this
  have hp0 : y.ptc.p0Since = s.ptc.p0Since := by
    have := congrArg PtcRun.p0Since hr.ptc
    rw [hw] at this
    exact this
  have hrest : y.ptc.rest = s.ptc.rest := by
    have := congrArg PtcRun.rest hr.ptc
    rw [hw] at this
    exact this
  have htime : y.time = s.time := hr.time.trans (by rw [hw]; rfl)
  have hregs : ∀ off, ¬ isRecord off → y.regs.get off = s.regs.get off :=
    fun off ho => (hr.regs off ho).trans (by rw [hw]; rfl)
  have hceil : y.ceilings = s.ceilings := hr.ceilings.trans hwc
  have step : ∀ c : PtcRun, ∀ m, c.rest = y.ptc.rest → c.reasons = y.ptc.reasons → c.budgetOut = y.ptc.budgetOut →
      sumL c.bins + (match c.p0Since with | some t => y.now - t | none => 0) ≤ y.boostUsed →
      a ≤ c.pstate → y.ptc.pstate ≤ c.pstate → (y.ptc.p0Since = none → c.bins = y.ptc.bins) →
      let t : State := { y with pmOut := m, ptc := c }
      t.ptc.rest = s.ptc.rest ∧ t.time = s.time ∧ t.ceilings = s.ceilings ∧
        (∀ off, ¬ isRecord off → t.regs.get off = s.regs.get off) ∧ s.ptc.pstate ≤ t.ptc.pstate ∧ t.allowed ≤ t.ptc.pstate ∧
        t.ptc.budgetOut = s.budgetNext ∧
        (s.ptc.p0Since = none → t.ptc.bins = s.ptc.bins) := by
    intro c m h1 h2 h3 h4 h5 h6 h7 t
    have f {α : Type} (g : PtcRun → α) (hg : ∀ c : PtcRun, g c.rest = g c) : g c = g y.ptc := by rw [← hg c, ← hg y.ptc, h1]
    have hc : t.ceilings = y.ceilings := by
      have e1 : c.therm = y.ptc.therm := f PtcRun.therm (fun _ => rfl)
      have e2 : c.edc = y.ptc.edc := f PtcRun.edc (fun _ => rfl)
      have e3 : c.alertLow = y.ptc.alertLow := f PtcRun.alertLow (fun _ => rfl)
      have e4 : c.alertEnd = y.ptc.alertEnd := f PtcRun.alertEnd (fun _ => rfl)
      have e5 : c.droopAt = y.ptc.droopAt := f PtcRun.droopAt (fun _ => rfl)
      unfold State.ceilings
      simp only [t, e1, e2, e3, e4, e5, h2]
      rfl
    have hb : y.boostOk = true → t.boostOk = true := by
      have e1 : c.edcTimer = y.ptc.edcTimer := f PtcRun.edcTimer (fun _ => rfl)
      have e2 : c.tj = y.ptc.tj := f PtcRun.tj (fun _ => rfl)
      have hu : t.boostUsed ≤ y.boostUsed := h4
      have e0 : c.limits = y.ptc.limits := f PtcRun.limits (fun _ => rfl)
      have hlim : ∀ fl, t.limit fl = y.limit fl := fun fl => by
        unfold State.limit
        show fl.of (c.limits.getD _ 0) = _
        rw [e0]
      have hbb : t.boostBudget = y.boostBudget := by unfold State.boostBudget; rw [hlim]
      have htl : t.tempLimit F.GRD_PWR_LIMITS_TJ_BOOST = y.tempLimit F.GRD_PWR_LIMITS_TJ_BOOST := by
        unfold State.tempLimit; rw [hlim]
      unfold State.boostOk
      simp only [Bool.and_eq_true, decide_eq_true_eq, hbb, htl, hlim]
      intro ⟨⟨⟨k1, k2⟩, k3⟩, k4⟩
      refine ⟨⟨⟨?_, ?_⟩, ?_⟩, Nat.lt_of_le_of_lt hu k4⟩
      · show c.edcTimer < _
        rw [e1]; exact k1
      · show c.tj < _
        rw [e2]; exact k2
      · show (!c.budgetOut) = true
        rw [h3]; exact k3
    have hle : t.allowed ≤ a := by
      rw [ha]
      exact State.allowed_eq (s := y) (t := t) hc (fun _ _ => rfl) hb (f PtcRun.fallback (fun _ => rfl))
    have h8 : s.ptc.pstate ≤ c.pstate := hps.symm.trans_le h6
    exact ⟨h1.trans hrest, htime, hc.trans hceil, hregs, h8, hle.trans h5, h3.trans hbo, fun h => (h7 (hp0.trans h)).trans hbi⟩
  by_cases hlt : y.ptc.pstate < a
  · obtain ⟨b, q, e, l, he, hu, hn⟩ := State.enterState_ptc y (p := a) (by omega)
    obtain ⟨m, v, at_, st, hf⟩ := State.followVoltage_ptc ((y.enterState a).modPtc (fun c => { c with
      stepTo := none, retryAt := none }))
    rw [if_pos hlt, hf, he]
    exact step _ m rfl rfl rfl hu (Nat.le_refl a) (by show _ ≤ a; omega) (fun h => (hn h).1)
  · have hle : a ≤ y.ptc.pstate := Nat.not_lt.1 hlt
    have hu : sumL y.ptc.bins + (match y.ptc.p0Since with | some t => y.now - t | none => 0) ≤ y.boostUsed := Nat.le_refl _
    rw [if_neg hlt]
    by_cases hst : (y.ptc.stepTo.any (fun k => decide (k < a))) = true
    · obtain ⟨m, v, at_, st, hf⟩ := State.followVoltage_ptc (y.modPtc (fun c => { c with stepTo := none }))
      rw [if_pos hst, hf]
      exact step { y.ptc with vreq := v, vreqAt := at_, stepTo := st } m rfl rfl rfl hu hle (Nat.le_refl _) (fun _ => rfl)
    · rw [if_neg hst]
      exact step y.ptc y.pmOut rfl rfl rfl hu hle (Nat.le_refl _) (fun _ => rfl)

end Sys2Proof.Machine
end

