-- ==== Sys2Proof/Laws/Queues.lean ====
section
/-! SUPPORT. Tenancy pages and rings: a page write that stalls, a ring command, the enabling of a ring by the way its tests
end, and the fetch of entries. -/

namespace Sys2Proof.Machine

open Sys2Proof.Safety

variable {s : State} {t ring : Nat} {f : Fetch}

/-- A page write that finds its tenancy's push queue full, or writes stalled there, stalls behind them. -/
theorem State.hostPage_stalled {r : CsReq} {t : Fin 16} {row : RegRow} {v : Word} (hf : FromHost r)
    (hv : r.view = 16 ∨ r.view = t.val) (hs : Serving s) (hh : s.heldCs = []) (hrow : row ∈ pageRows)
    (hst : 256 ≤ (s.tenRun t).pushes.length ∨ (s.tenRun t).stalled ≠ []) : s.hostPage r t row v f =
      (answered s).modTen t (fun x => { x with stalled := x.stalled ++ [⟨r, pageOff t row, v, s.time.now, false⟩] }) := by
  have hk := List.all_eq_true.1 pageRows_known row hrow
  have hk := List.all_eq_true.1 hk t.val (by simp [t.isLt])
  simp only [Bool.and_eq_true, beq_iff_eq, decide_eq_true_eq] at hk
  obtain ⟨⟨hr, ha⟩, hg⟩ := hk
  have hm : viewRefuses r.view (regionOf (pageOff t row)) = false := by
    rw [hg]
    rcases hv with hv | hv <;> simp [viewRefuses, hv]
  have ht : (Fin.ofNat 16 t.val) = t := by simp
  unfold State.hostPage State.hostWrite
  rw [State.csWrite_now hs hh (State.hostPage_domain hrow)]
  unfold State.csWriteNow
  rw [State.accessFails_none hs hf (by rcases hv with hv | hv <;> omega) ha hr hm]
  simp only [if_false, hg, reduceCtorEq, false_and]
  unfold State.writeEffect State.onPage
  simp only [hg, ht]
  have : ((answered s).stalls t || !((answered s).tenRun t).stalled.isEmpty) = true := by
    rcases hst with h | h
    · have : (answered s).stalls t = true := by simp [State.stalls, answered, State.tenRun] at h ⊢; exact h
      simp [this]
    · have : ((answered s).tenRun t).stalled.isEmpty = false := by
        have : ((answered s).tenRun t).stalled ≠ [] := h
        simp [this]
      simp [this]
  exact if_pos this

/-- A ring command: OVERRUN alone while another runs, else the command that KIND and OP name. -/
theorem State.ringCommand_eq {kind op : Nat} (hk : kind < 2) (ho : op = 1 ∨ op = 2) (hr : ring < 2 ^ 20) :
    s.ringCommand t (ringCmdWord kind op ring) f =
      if s.flag (F.TEN_RING_STATUS_BUSY t) then s.setFld (F.TEN_RING_STATUS_OVERRUN t) 1
      else if kind = 0 then (if op = 1 then s.sqEnable t ring f else s.sqDisable t ring)
      else if op = 1 then s.cqEnable t ring f else s.cqDisable t ring := by
  obtain ⟨a, b, c⟩ := ringCmdWord_fields hk (show op < 4 by omega) hr
  unfold State.ringCommand
  rw [a, b, c, if_neg (by omega)]

/-- Enabling a submission ring reads its record once RANGE, STATE and WINDOW are passed. -/
theorem State.sqEnable_reads (h1 : (s.tenEntry t).sqIn ring = true) (h2 : s.sq? ring = none)
    (h3 : inWindows (s.windows t) true true (s.sqRecord t ring) 32 = true) :
    s.sqEnable t ring f = match fetchBytes f (s.sqRecord t ring) 32 with
      | none => if noAnswer f (s.sqRecord t ring) 32 then s.fetchRecord false t ring (s.sqRecord t ring)
          else (s.fetchFail f (s.sqRecord t ring) 32 (Charge.ten t) 0).ringResult t ring .fetch
      | some d => s.sqRecordCame t ring d := by
  unfold State.sqEnable
  rw [if_neg (by simp [h1]), if_neg (by simp [h2])]
  dsimp only
  exact (if_neg (by simp [h3])).trans rfl

/-- Enabling a completion ring reads its record once RANGE, STATE and WINDOW are passed. -/
theorem State.cqEnable_reads (h1 : (s.tenEntry t).cqIn ring = true) (h2 : s.cq? ring = none)
    (h3 : inWindows (s.windows t) true true (s.cqRecord t ring) 32 = true) :
    s.cqEnable t ring f = match fetchBytes f (s.cqRecord t ring) 32 with
      | none => if noAnswer f (s.cqRecord t ring) 32 then s.fetchRecord true t ring (s.cqRecord t ring)
          else (s.fetchFail f (s.cqRecord t ring) 32 (Charge.ten t) 0).ringResult t ring .fetch
      | some d => s.cqRecordCame t ring d := by
  unfold State.cqEnable
  rw [if_neg (by simp [h1]), if_neg (by simp [h2])]
  dsimp only
  exact (if_neg (by simp [h3])).trans rfl

/-- A record in order, of a ring in a window, of a live flow and an enabled completion ring of the tenancy: the submission ring is
listed. -/
theorem State.sqRecordCame_lists {d : List Byte} (h1 : recordOk d = true) (h2 : fieldAt d 12 2 < 4096) (h3 : fieldAt d 14 2 = 0)
    (h4 : fieldAt d 28 4 = 0) (h5 : inWindows (s.windows t) true false (fieldAt d 0 8) (64 * 2 ^ byteAt d 8) = true)
    (h6 : (s.flowOf? t (fieldAt d 12 2)).isSome = true) (h7 : s.cqs.any (fun c => c.cq == fieldAt d 10 2 && c.ten == t) = true) :
    s.sqRecordCame t ring d = ((({ s with sqs := s.sqs ++ [
      { ring := ring, ten := t, base := fieldAt d 0 8, log2 := byteAt d 8, cq := fieldAt d 10 2,
        flow := fieldAt d 12 2, head := 0, tail := 0, state := 1, bit := false }] } : State).issueWrite (s.sqRecord t ring + 16)
      (leBytes 4 0 ++ leBytes 4 0 ++ leBytes 4 1) (.ringRecord ring)).ringResult t ring .done) := by
  unfold State.sqRecordCame
  have h6' : (s.flowOf? t (fieldAt d 12 2)).isNone = false := by cases hx : s.flowOf? t (fieldAt d 12 2) <;> simp_all
  simp only [h1, h2, h3, h4, h5, h6', h7]
  rfl

/-- A record in order, with a vector of the tenancy, of a ring in a window: the completion ring is listed. -/
theorem State.cqRecordCame_lists {d : List Byte} (h1 : recordOk d = true) (h2 : fieldAt d 10 2 < (s.tenEntry t).msiVectors)
    (h3 : inWindows (s.windows t) false true (fieldAt d 0 8) (32 * 2 ^ byteAt d 8) = true) :
    s.cqRecordCame t ring d = ((({ s with cqs := s.cqs ++ [
      { cq := ring, ten := t, base := fieldAt d 0 8, log2 := byteAt d 8, vector := fieldAt d 10 2,
        irqCount := fieldAt d 12 2, irqDelay := fieldAt d 14 2, head := 0, tail := 0, seq := 0, phase := true,
        unann := 0, oldest := none, irqDue := false, holding := false }] } : State).issueWrite (s.cqRecord t ring + 16)
      (leBytes 12 0 ++ leBytes 4 1) (.ringRecord ring)).ringResult t ring .done) := by
  unfold State.cqRecordCame
  simp only [h1, h2, h3]
  rfl

/-- The fetch of entries from the ring that is next. -/
theorem State.fetchEntries_eq {r : SqRing} (hn : s.nextRing = some r) : s.fetchEntries f =
    let a := s.modSq r.ring (fun r => { r with bit := false })
    let u := State.takeGo r.ring f (min 64 (min ((r.tail + 2 ^ r.log2 - r.head) % 2 ^ r.log2) (s.slotsFor r.ten r.flow)))
      (if (s.flowOf? r.ten r.flow).any (·.deadline) then a else { a with scanRot := (r.ring + 1) % 2 ^ 20 })
    match u.sq? r.ring with
    | none => u
    | some q =>
      let v := u.modSq r.ring (fun q => { q with bit := q.bit || q.head != q.tail })
      if q.head = r.head then v else v.issueWrite (v.ringRecordAddr q + 16) (leBytes 4 q.head) (.ringRecord r.ring) := by
  unfold State.fetchEntries
  rw [hn]
  dsimp only
  cases s.flowOf? r.ten r.flow <;> rfl

end Sys2Proof.Machine
end

