-- ==== Sys2Proof/Laws/Settle.lean ====
section
/-! SUPPORT. What every command ends with, on a state with nothing under way: it leaves the state as it is. -/

namespace Sys2Proof.Machine

open Sys2Proof.Safety

theorem State.processRaised_nil {s : State} (h : s.raised = []) : s.processRaised = s := by
  unfold State.processRaised
  rw [h]
  rfl

theorem State.refreshBerths_nil {s : State} (h : s.berths = []) : s.refreshBerths = s := by
  unfold State.refreshBerths
  rw [h]
  rfl

theorem State.settleStations_nil {s : State} (h : s.tasks = []) : s.settleStations = s := by
  unfold State.settleStations
  rw [h]
  rfl

theorem State.deltaSettle_nil {s : State} (h : s.tasks = []) (hf : s.forme.flows.all (fun f => !f.streaming) = true) :
    s.deltaSettle = s := by
  unfold State.deltaSettle
  rw [h]
  have hn : s.forme.flows.filter (fun f => f.streaming) = [] := by
    rw [List.filter_eq_nil_iff]
    intro f hm
    have := List.all_eq_true.1 hf f hm
    simpa using this
  simp only [List.any_nil, Bool.false_eq_true, if_false, hn, List.foldl_nil]

theorem State.startUnits_nil {s : State} (h : s.batches = []) : s.startUnits = s := by
  unfold State.startUnits
  rw [h]
  rfl

theorem State.pumpMovers_nil {s : State} (h : s.dltQueue = []) : s.pumpMovers = s := by
  unfold State.pumpMovers
  rw [h, List.foldl_nil, ← h]

theorem State.recheckPools_nil {s : State} (h : s.forme.defs = []) : s.recheckPools = s := by
  unfold State.recheckPools
  rw [h]
  rfl

theorem State.moveAll_calm {s : State} (h : Calm s) : s.moveAll = s := by
  unfold State.moveAll
  split
  · rename_i hr
    obtain ⟨ht, hb, hd, hf, -⟩ := h.2.2.2 hr
    rw [State.settleStations_nil ht, State.deltaSettle_nil ht hf, State.startUnits_nil hb, State.pumpMovers_nil hd]
  · rfl

theorem State.wake_idle {s : State} {d : Domain} (h : s.runs d = true ∨ s.wanted d = true) : s.wake d = s := by
  unfold State.wake
  exact if_pos h

theorem State.wakeForWork_calm {s : State} (h : Calm s) : s.wakeForWork = s := by
  unfold State.wakeForWork
  split
  · rfl
  · rename_i hr
    have hr : s.ready = true := by simpa [State.active] using hr
    have hd := (h.2.2.2 hr).2.2.2.2
    simp only [List.foldl_cons, List.foldl_nil, State.wake_idle (hd .pclk (by simp)), State.wake_idle (hd .eclk (by simp)),
      State.wake_idle (hd .fclk (by simp)), ite_self]

/-- On a calm state the work that follows a command changes nothing. -/
theorem State.finish_calm {s : State} (h : Calm s) : s.finish = s := by
  unfold State.finish State.settle
  simp only [State.processRaised_nil h.1, State.moveAll_calm h, State.recheckPools_nil h.2.2.1, State.refreshBerths_nil h.2.1,
    State.wakeForWork_calm h]

end Sys2Proof.Machine
end

