-- ==== Sys2Proof/Laws/Starts.lean ====
section
/-! SUPPORT. The starts, which alone set READY, and the guard commands that can let a waiting start go on: they leave the queue
as it is and keep the invariant. -/

set_option Elab.async false

namespace Sys2Proof.Machine

open Sys2Proof.Safety

/-- t comes from s with the queue as it was and the invariant kept. -/
structure Holds (s t : State) : Prop where
  pending : t.pending = s.pending
  sound   : Sound s → Sound t

theorem Steady.holds {s t : State} (h : Steady s t) : Holds s t := ⟨h.pending, h.sound⟩

theorem Holds.refl (s : State) : Holds s s := ⟨rfl, id⟩

theorem Holds.trans {r s t : State} (h : Holds r s) (k : Holds s t) : Holds r t :=
  ⟨k.pending.trans h.pending, fun x => k.sound (h.sound x)⟩

/-- A steady operation after others. -/
theorem Holds.then {r s t : State} (h : Holds r s) (k : Steady s t) : Holds r t := h.trans k.holds

/-- While READY is 0, the life may change, and the credits. -/
theorem Sound.of_not_ready {s t : State} (h : Sound s) (hr : t.ready = false) (ht : t.tens = s.tens)
    (hl : t.lanesGood = s.lanesGood) (he : t.entropyGood = s.entropyGood) (hq : t.regs = s.regs) (hs : t.shadow = s.shadow) :
    Sound t := by
  refine ⟨ReadyHolds.of_not hr, ?_, UnitsHold.of_eq h.2.2.1 hl he, ?_⟩
  · unfold QueuesHold
    rw [ht]
    exact h.2.1
  · unfold RegsHold
    rw [hq, hs]
    exact h.2.2.2

/-- READY is 0 outside a life that is up. -/
theorem Sound.not_ready {s : State} (h : Sound s) (hl : s.life ≠ .up) : s.ready = false := by
  cases hr : s.ready
  · rfl
  · exact absurd (h.1 hr).1 hl

theorem Steady.not_ready {s t : State} (h : Steady s t) (hr : s.ready = false) : t.ready = false := by
  cases ht : t.ready
  · rfl
  · rw [h.up ht] at hr; cases hr

theorem State.endStart_holds {s : State} {kind : Nat} : Holds s (s.endStart kind) := by
  unfold State.endStart
  extract_lets ok x y
  have hx : Holds s x := by
    refine ⟨rfl, fun h => ⟨fun hr => ?_, h.2⟩⟩
    have hr : ok = true := hr
    simp only [ok, Bool.and_eq_true, decide_eq_true_eq, Bool.not_eq_true'] at hr
    exact ⟨rfl, hr⟩
  have hy : Holds s y := by
    refine Holds.then hx ?_
    exact Steady.ite (Steady.upd_aliveOn_alive_aliveAt (Steady.refl x)) (Steady.refl x)
  exact hy.then (State.followVoltage_steady (State.settlePtc_steady (State.writeBins_steady (State.saveSettings_steady
    (Steady.refl y)))))

/-- A start that began with READY 0 and is steady up to its last step. -/
theorem State.endStart_after {s t : State} {kind : Nat} (h : Steady s t) : Holds s (t.endStart kind) :=
  h.holds.trans State.endStart_holds

theorem State.finishCold_holds {r s : State} (h : Holds r s) (hn : Sound r → s.ready = false) : Holds r s.finishCold := by
  unfold State.finishCold
  extract_lets x
  have hx : Steady s x := State.exchange_steady (State.startTable_steady (Steady.refl s))
  clear_value x
  split
  · exact ⟨hx.pending.trans h.pending, fun k =>
      Sound.of_not_ready ((h.then hx).sound k) (hx.not_ready (hn k)) rfl rfl rfl rfl rfl⟩
  · split
    · exact h.then (State.enterWarm_steady hx)
    · exact h.trans (State.endStart_after (Steady.upd_retained (State.putBlank_steady hx)))

theorem State.finishWarm_holds {r s : State} (h : Holds r s) (hn : Sound r → s.ready = false) : Holds r s.finishWarm := by
  unfold State.finishWarm
  extract_lets x
  have hx : Steady s x :=
    State.exchange_steady (State.restoreForme_steady (State.restoreAll_steady (State.startTable_steady (Steady.refl s))))
  clear_value x
  split
  · exact ⟨hx.pending.trans h.pending, fun k =>
      Sound.of_not_ready ((h.then hx).sound k) (hx.not_ready (hn k)) rfl rfl rfl rfl rfl⟩
  · exact h.trans (State.endStart_after hx)

theorem State.continueStart_holds {s : State} : Holds s s.continueStart := by
  unfold State.continueStart
  split
  · rename_i hl
    exact State.finishCold_holds (Holds.refl s) (fun h => Sound.not_ready h (by rw [hl]; decide))
  · rename_i hl
    exact State.finishWarm_holds (Holds.refl s) (fun h => Sound.not_ready h (by rw [hl]; decide))
  all_goals exact Holds.refl s

theorem State.warmStart_holds {s : State} {f : Fetch} {credits : Nat} : Holds s (s.warmStart f credits) := by
  unfold State.warmStart
  split
  · rename_i hl
    extract_lets x y z w
    have hr : Sound s → s.ready = false := fun h => Sound.not_ready h (by rw [hl]; decide)
    have hx : Holds s x := ⟨rfl, fun h => Sound.of_not_ready h (hr h) rfl rfl rfl rfl rfl⟩
    have hw : Steady x w :=
      State.restoreBins_steady (Steady.upd_retainedOk (State.checkParts_steady (State.applyHeld_steady
        (State.replayHeld_steady (Steady.refl x)))))
    have hn : Sound s → w.ready = false := fun h => hw.not_ready (hr h)
    have hxw : Holds s w := hx.then hw
    clear_value w
    split
    · exact State.finishWarm_holds hxw hn
    · exact hxw
  · exact (Steady.upd_instLow (Steady.refl s)).holds
  · exact (Steady.upd_instLow (Steady.refl s)).holds
  · exact (Steady.upd_instLow (Steady.refl s)).holds
  all_goals exact Holds.refl s

theorem State.writeGrdCtrl_holds {s : State} {v : Word} : Holds s (s.writeGrdCtrl v) := by
  unfold State.writeGrdCtrl
  split
  · split
    · exact (Steady.upd_guardResp (State.forget_steady (Steady.refl s))).holds
    · exact (State.guardFail_steady (Steady.refl s)).holds
  · extract_lets x
    have hx : Steady s x := State.setFlds_steady (Steady.upd_guardResp (Steady.refl s))
    clear_value x
    split
    · exact hx.holds.trans State.continueStart_holds
    · exact hx.holds

theorem State.guardPut_holds {s : State} {off : Nat} {v : Word} {f : Fetch} : Holds s (s.guardPut off v f) := by
  unfold State.guardPut
  split
  · exact (State.guardFail_steady (Steady.refl s)).holds
  · split
    · exact State.writeGrdCtrl_holds
    · split
      · exact (State.writeTko_steady (Steady.upd_guardResp (Steady.refl s))).holds
      · exact (State.afterGuard_steady (State.setReg_steady (Steady.upd_guardResp (Steady.refl s)))).holds

theorem State.guardPutNamed_holds {s : State} {off : Nat} {v : Word} {f : Fetch} : Holds s (s.guardPutNamed off v f) := by
  unfold State.guardPutNamed
  split
  · exact State.guardPut_holds
  · exact Holds.refl s

theorem State.guardWrite_holds {s : State} {q : BitVec 32} {v : Word} : Holds s (s.guardWrite q v) := by
  unfold State.guardWrite
  split
  · exact Holds.refl s
  · split
    · exact (State.guardFail_steady (Steady.refl s)).holds
    · exact State.guardPut_holds

/-- What every command ends with, after an operation that holds. -/
theorem Holds.finish {s t : State} (h : Holds s t) : Holds s t.finish := h.then (State.finish_steady (Steady.refl t))

end Sys2Proof.Machine
end

