-- ==== Sys2Proof/Tests/Slice0.lean ====
section
/-! SUPPORT. Small tests of one step or of one check, and for every statement with hypotheses a witness: concrete states
and operands that meet them. A witness is no claim about the spec; what the statements say of it is for their proofs. -/

set_option Elab.async false
set_option maxRecDepth 100000

namespace Sys2Proof.Tests

open Sys2Proof.Machine Sys2Proof.Safety

/-! ### Small states -/

/-- A host through the management view. -/
def host : CsReq := ⟨0x28, 16⟩

/-- An instance that serves, with the blank forme. -/
def up : State :=
  { State.reset with life := .up, ready := true, credits := 0xFFFF, clk := ClkRun.all, lanesGood := 144, entropyGood := 52 }

/-- Tenancy 0 with rings and flows of its own. -/
def ten0 : TenEntry := ⟨true, false, 0, 0, 4, 0, 4, 2, 8, 4, 8, 4, 64, 64, 100⟩

/-- A bulk flow of tenancy 0 by ring, from Headwater to Outfall. -/
def bulk : FlowEntry :=
  { flow := 1, ten := 0, deadline := false, protected_ := false, stateful := false, remove := false, partitions := 1,
    path := [1, 10], entryMask := 15, policy := 0, outFormat := 0, outLayout := 0, groupMask := 0, periodNs := 0, deadlineNs := 0,
    outC := 1, outH := 1, outW := 1, maxW := 1, maxH := 1, depth := 4, paramLen := 0, entryOff := 0,
    cls := ⟨0, 4096, 4096, 0, 0, 0, 0⟩, live := none, record := none, trim := none, text := none, patch := none,
    galley := none, delta := none, subOffs := [] }

/-- A deadline flow of tenancy 0 with live port 511. -/
def post : FlowEntry :=
  { bulk with flow := 4095, deadline := true, periodNs := 1000000, deadlineNs := 500000, live := some ⟨511, 1, false, true, 0, 0⟩ }

/-- The instance with flows of tenancy 0. -/
def serving (fs : List FlowEntry) : State :=
  { up with forme := { Forme.blank with id := 1, tens := ten0 :: List.replicate 15 TenEntry.blank, flows := fs } }

/-- Window 0 of tenancy 0 open for reads and writes of the first 16 MiB. -/
def open0 (s : State) : State :=
  s.setFlds [(F.TEN_WIN_BASE_ENABLE 0 0, 1), (F.TEN_WIN_BASE_READ 0 0, 1), (F.TEN_WIN_BASE_WRITE 0 0, 1),
    (F.TEN_WIN_LIMIT_LIMIT 0 0, 4095)]

/-- An enabled submission ring of 16 entries and an enabled completion ring. -/
def sq0 : SqRing :=
  { ring := 0, ten := 0, base := 0x10000, log2 := 4, cq := 0, flow := 1, head := 15, tail := 2, state := 1, bit := true }

/-- See sq0. -/
def cq0 : CqRing :=
  { cq := 0, ten := 0, base := 0x20000, log2 := 4, vector := 0, irqCount := 2, irqDelay := 10, head := 0, tail := 15, seq := 15,
    phase := true, unann := 1, oldest := some 0, irqDue := false, holding := false }

/-- A task of a flow at its first station. -/
def taskOf (fe : FlowEntry) : Task := { Task.blank with id := 7, ten := fe.ten, flow := fe.flow, opcode := 1, cq := 0 }

theorem host_manages : ManagementMay host up := ⟨.inl rfl, rfl, ⟨rfl, rfl⟩, rfl⟩

theorem up_calm : Calm up := by unfold Calm; decide +kernel

theorem up_sound : Sound up := by unfold Sound ReadyHolds QueuesHold UnitsHold RegsHold; decide +kernel

/-! ### Well-formedness: an ill-formed term for each check is refused -/

/-- SRC is one byte, VIEW five bits (R503); in every command that a requester sends. -/
theorem test_wf_requester : ([Instr.cancel ⟨256, 16⟩, .cancel ⟨0x28, 32⟩, .lockUp ⟨256, 16⟩ [], .amendment ⟨256, 16⟩ [],
    .commitGo ⟨256, 16⟩ .trim, .tenancyReset ⟨0x28, 32⟩ 0, .ringEnableSq ⟨256, 0⟩ 0 0 [], .ringEnableCq ⟨256, 0⟩ 0 0 [],
    .ringDisableSq ⟨256, 0⟩ 0 0, .ringDisableCq ⟨256, 0⟩ 0 0, .tenSqTable ⟨256, 0⟩ 0 0, .tenCqTable ⟨256, 0⟩ 0 0,
    .tenLiveTable ⟨256, 0⟩ 0 0, .doorbell ⟨256, 0⟩ 0 0, .cqDoorbell ⟨256, 0⟩ 0 0, .pktDoorbell ⟨256, 0⟩ 0 0,
    .tenGalleyStep ⟨256, 0⟩ 0 0, .galleyLeave ⟨256, 0⟩ 0 0, .galleySkip ⟨256, 0⟩ 0 0, .galleyFlush ⟨256, 0⟩ 0 0,
    .deltaAltSet ⟨256, 0⟩ 0 0, .deltaAltClear ⟨256, 0⟩ 0 0, .tenDeltaDone ⟨256, 0⟩ 0 0, .liveDoorbell ⟨256, 0⟩ 0 0 [],
    .glbResetWarm ⟨256, 16⟩ 0, .katGo ⟨256, 16⟩ 0, .tstInj ⟨256, 16⟩ 0, .perDomainReset ⟨256, 16⟩ 0 [],
    .formeReload ⟨256, 16⟩ 0 [], .registerWrite ⟨256, 16⟩ 0 8 0, .registerRead ⟨256, 16⟩ 0 8].any Instr.wf) = false := by
  decide +kernel

/-- Addresses of fetches have 52 bits (R503). -/
theorem test_wf_fetch : ([Instr.lockUp host [⟨2 ^ 52, none⟩], .amendment host [⟨2 ^ 52, none⟩], .ringEnableSq host 0 0 [⟨2 ^ 52, none⟩],
    .ringEnableCq host 0 0 [⟨2 ^ 52, none⟩], .liveDoorbell host 0 0 [⟨2 ^ 52, none⟩], .pushDrain [⟨2 ^ 52, none⟩],
    .sqEntryFetch [⟨2 ^ 52, none⟩], .livePostTake 0 [⟨2 ^ 52, none⟩], .encodeStart 0 [⟨2 ^ 52, none⟩],
    .pieceDispatch 0 [⟨2 ^ 52, none⟩], .livePush 0 0 [⟨2 ^ 52, none⟩], .grdTko 0 [⟨2 ^ 52, none⟩],
    .warmStart [⟨2 ^ 52, none⟩] 0, .perDomainReset host 0 [⟨2 ^ 52, none⟩], .formeReload host 0 [⟨2 ^ 52, none⟩]].any
    Instr.wf) = false := by decide +kernel

/-- Nodes, payloads, words, offsets and what a fault reports fit their fields (R446, R500, R503, R506). -/
theorem test_wf_fields : ([Instr.livePush 256 0 [], .step 256 0, .fallback 256 0, .layerDone 256 0, .badMsg 256 5 [],
    .badMsg 0 5 (List.replicate 25 0), .rdData 0 .ok (List.replicate 4097 0), .guardRepair 0 (List.replicate 65536 0),
    .registerWrite host (2 ^ 26) 8 0, .registerWrite host 0 (2 ^ 16) 0, .registerRead host (2 ^ 26) 8,
    .registerRead host 0 (2 ^ 16), .faultEvent 1 ⟨.instance_, 2 ^ 52, 0, 0, none, 0, 0, none⟩,
    .faultEvent 1 ⟨.instance_, 0, 256, 0, none, 0, 0, none⟩, .railFault 1 ⟨.instance_, 0, 0, 256, none, 0, 0, none⟩,
    .railFault 1 ⟨.instance_, 0, 0, 0, none, 256, 0, none⟩].any Instr.wf) = false := by decide +kernel

/-- Well-formed commands pass. -/
theorem test_wf_pass : ([Instr.lockUp host [⟨0, none⟩], .quoin, .registerWrite host (2 ^ 26 - 8) 8 0, .step 31 0].all Instr.wf) = true := by
  decide +kernel

/-! ### Values of the spec's worked examples -/

/-- Offsets of the worked example after R519: TEN_WIN_LIMIT of window 9 of tenancy 5, RSV_POOL_STATE of pool 26, LKP_WORK of flow
0x012, slot 3; and each offset has a register. -/
theorem test_offsets : (F.TEN_WIN_LIMIT_LIMIT 5 9).off = 0x1501098 ∧ (regAt 0x1501098).isSome = true ∧
    ((regAt 0x0301698).map (fun x => (x.1.base, x.2))) = some (Row.RSV_POOL_STATE.base, [26]) ∧
    ((regAt 0x0220918).map (fun x => (x.1.base, x.2))) = some (Row.LKP_WORK.base, [18, 3]) ∧ regAt 0xD00000 = none := by
  decide +kernel

/-- The guard header of the worked example after R502: OP 1, unit 0x604, which is GRD_TKO. -/
theorem test_guard_header : headerOk 0x6041 1 = true ∧ guardOff 0x6041 = 0x2000000 + 0x3020 ∧ Row.GRD_TKO.base = 0x2003020 := by
  decide +kernel

/-- The BPE image of the worked example after R350. -/
def exampleImage : TokImage :=
  { addr := 0, size := 0, crc := 0, kind := 0, vocab := 261,
    classes := (List.range 256).map (fun b => if b = 0x20 then 0x10 else if b = 0x2E then 0x22 else 1),
    byteIds := List.range 256, merges := [⟨0x61, 0x62, 256, 0⟩, ⟨0x20, 0x63, 257, 1⟩, ⟨257, 256, 258, 2⟩], strings := [] }

/-- "ab  cab." becomes 256, 32, 258, 46 between its BOS and EOS. -/
theorem test_bpe : ((pretokens exampleImage 64 [0x61, 0x62, 0x20, 0x20, 0x63, 0x61, 0x62, 0x2E]).1.flatMap (bpe exampleImage)) =
    [256, 32, 258, 46] := by decide +kernel

/-- Three elements of the MXFP8 block of the worked example after R310, with scale 2^-7: 3.25, 0.0380859375 and -2^-10. -/
theorem test_mx : quantise 0x40500000 (-7) true 3 (-6) 0 none = (13, 5) ∧ floatCode false 13 5 3 7 4 0x7E = (0x7D, false) ∧
    quantise 0x3D1C0000 (-7) true 3 (-6) 0 none = (10, -1) ∧ floatCode false 10 (-1) 3 7 4 0x7E = (0x4A, false) ∧
    quantise 0x3D1C0000 (-7) true 3 (-6) 0 (some 0x3FFF) = (9, -1) ∧ floatCode true 8 (-6) 3 7 4 0x7E = (0xA0, false) := by
  decide +kernel

/-- The share of element j is the draw rotated right by 16 j bits: bits [95:80] of the draw for j = 5 (worked example after R335). -/
theorem test_share : shareOf (0xABCD * 2 ^ 80) 5 % 2 ^ 16 = 0xABCD := by decide +kernel

/-- CRC-32C of the nine digits, the check value that the code's definition gives (R45). -/
theorem test_crc : crc32c [0x31, 0x32, 0x33, 0x34, 0x35, 0x36, 0x37, 0x38, 0x39] = 0xE3069283 := by decide +kernel

/-- SHA-384 of "abc", the example of FIPS 180-4 (R46). -/
theorem test_sha : sha384 [0x61, 0x62, 0x63] =
    0xCB00753F45A35E8BB5A03D699AC65007272C32AB0EDED1631A8B605A43FF5BED8086072BA1E7CC2358BAECA134C825A7 := by decide +kernel

/-! ### Witnesses: steps, registers -/

/-- StepRunsFront and IdleStepPassesTime: a queue with a command in front, and one with none. -/
theorem witness_steps : ({ up with pending := [.quoin] } : State).pending = .quoin :: [] ∧ up.pending = [] ∧ up.life ≠ .cold ∧
    up.life ≠ .noSupply ∧ up.life ≠ .warmLow := by decide +kernel

/-- CommandsLeaveQueue and StepKeepsInvariant: steps that answer next from a sound state. -/
theorem witness_next : (∃ t, exec .peerAliveEdge up = .next t) ∧ Sound up ∧ ∃ t, step up = .next t :=
  ⟨⟨_, rfl⟩, up_sound, ⟨_, rfl⟩⟩

/-- HostAccessRefused: each clause of its order, at the edges of the ranges. -/
theorem witness_access_refused : Serving up ∧ up.heldCs = [] ∧ regAt 0 ≠ none ∧ 7 ≠ 8 ∧ 4 % 8 ≠ 0 ∧ 16 < (⟨0x28, 17⟩ : CsReq).view ∧
    ¬ FromHost ⟨0x27, 16⟩ ∧ FromHost ⟨0x29, 16⟩ ∧ regAt 0xD00000 = none ∧ (regAt 0x100000).isSome = true ∧
    viewRefuses 0 (regionOf 0x100000) = true ∧ viewRefuses 16 (regionOf 0x100000) = false := by
  unfold Serving; decide +kernel

/-- An instance whose PCLK is stopped. -/
def stopped : State := up.setClk .pclk false false none

/-- HostAccessWaits: QCLK in reset, an access before it, and the first and the last offset of a slot in a stopped domain. -/
theorem witness_access_waits : ({ up with life := .warmLow, ready := false } : State).life = .warmLow ∧ Serving stopped ∧
    (stopped.holdAccess ⟨host, 0, 8, false, 0, []⟩).heldCs ≠ [] ∧ stopped.heldCs = [] ∧
    stopped.slotStopped Row.STN_TRIM_CFG.base = true ∧ stopped.accessFails host Row.STN_TRIM_CFG.base 8 true = none ∧
    stopped.accessFails host Row.STN_TRIM_CFG.base 8 false = none ∧ stopped.slotStopped (commitOff .trim) = true ∧
    stopped.slotStopped Row.STN_DLT_CFG.base = false := by unfold Serving; decide +kernel

/-- RegisterReadAnswers: the first and the last register of the space. -/
theorem witness_read : ManagementMay host up ∧ up.slotStopped 0 = false ∧ up.slotStopped Row.TST_INJ.base = false ∧ (0 : Nat) % 8 = 0 ∧ (regAt 0).isSome = true ∧ Row.TST_INJ.base % 8 = 0 ∧
    (regAt Row.TST_INJ.base).isSome = true := ⟨host_manages, by decide +kernel⟩

/-- RegisterWriteStores: a shadowed register, a setting, and a plain one. -/
theorem witness_write : ManagementMay host up ∧ Calm up ∧
    (∀ row ∈ [Row.STN_DLT_STAGGER, Row.LKP_ADMIT_CFG, Row.FRM_SRC_ADDR], up.slotStopped row.base = false ∧ row.base % 8 = 0 ∧ 0x100000 ≤ row.base ∧
      row.base < 0x1000000 ∧ row.base ≠ Row.FRM_CTRL.base ∧ row.base ≠ Row.RFL_KAT_CTRL.base ∧
      row.base ∉ fixedRegions.map commitOff ∧ regAt row.base = some (row, []) ∧ up.writeIgnored row [] = false ∧
      row.base ≠ Row.FLT_CAP_ADDR.base) ∧
    Row.STN_DLT_STAGGER.shadowed = true ∧ Row.LKP_ADMIT_CFG.shadowed = false ∧ isSetting Row.LKP_ADMIT_CFG.base = true ∧
    Row.FRM_SRC_ADDR.shadowed = false ∧ isSetting Row.FRM_SRC_ADDR.base = false :=
  ⟨host_manages, up_calm, by decide +kernel⟩

/-! ### Witnesses: the forme port -/

/-- The words of a public key in slot 0 of the guard's keys, with its VALID bit. -/
def withKey (s : State) : State :=
  s.setFlds ((F.GRD_KEY_STATUS_VALID 0, 1) ::
    ((List.range 6).map (fun j => (F.GRD_KEY_KEY 0 j, 0x7ae9e1db1160794c70c1ef071be5191f6c66240f4608fbe8a44ecd36c3ed5db97500f2e4d84e3fb45850fd6f4303302b / 2 ^ (64 * j) % 2 ^ 64)) ++
     (List.range 6).map (fun j => (F.GRD_KEY_KEY 0 (j + 6), 0xd8ac21444cd80d241538d8034b399a0dee3636eb5cb00b9499d061a571db0f14bb47ed79453948ed63f3a6ccbbf6e74f / 2 ^ (64 * j) % 2 ^ 64))))

/-- A full forme of eight sections that names no flow, laid out by hand, with the signature that its SHA-384 gets under the key above. -/
def fullImage : List Byte :=
    [77, 82, 70, 72, 0, 1, 8, 0, 128, 12, 0, 0, 0, 0, 0, 0, 5] ++ List.replicate 16 0 ++ [12, 0, 0, 0, 0, 0, 0, 141, 11, 187,
    140] ++ List.replicate 20 0 ++ [1, 0, 0, 0, 192, 0, 0, 0, 16, 0, 0, 0, 207, 110, 201, 149, 2, 0, 0, 0, 0, 1, 0, 0, 96, 1, 0,
    0, 204, 65, 78, 250, 3, 0, 0, 0, 128, 2, 0, 0] ++ [16, 0, 0, 0, 42, 204, 6, 44, 4, 0, 0, 0, 192, 2, 0, 0, 16, 8, 0, 0, 231,
    179, 124, 141, 5, 0, 0, 0, 0, 11, 0, 0, 16, 0, 0, 0, 103, 163, 246, 28] ++ [6, 0, 0, 0, 64, 11, 0, 0, 16, 0, 0, 0, 197, 138,
    13, 106, 7, 0, 0, 0, 128, 11, 0, 0, 16, 0, 0, 0, 106, 206, 2, 253, 8, 0, 0, 0, 192, 11, 0, 0] ++ [16, 0, 0, 0, 120, 65, 109,
    40, 1, 1, 0, 0, 0, 0, 0, 0, 8] ++ List.replicate 55 0 ++ [2, 1, 0, 0, 1, 0, 0, 0, 80, 1] ++ List.replicate 374 0 ++ [3, 1,
    0, 0, 0, 0, 0, 0, 64] ++ List.replicate 55 0 ++ [4, 1, 0, 0, 16, 0, 0, 0, 128] ++ List.replicate 136 0 ++ [1] ++
    List.replicate 127 0 ++ [2] ++ List.replicate 127 0 ++ [3] ++ List.replicate 127 0 ++ [4] ++ List.replicate 127 0 ++ [5] ++
    List.replicate 127 0 ++ [6] ++ List.replicate 127 0 ++ [7] ++ List.replicate 127 0 ++ [8] ++ List.replicate 127 0 ++ [9] ++
    List.replicate 127 0 ++ [10] ++ List.replicate 127 0 ++ [11] ++ List.replicate 127 0 ++ [12] ++ List.replicate 127 0 ++ [13]
    ++ List.replicate 127 0 ++ [14] ++ List.replicate 127 0 ++ [15] ++ List.replicate 174 0 ++ [5, 1, 0, 0, 0, 0, 0, 0, 32] ++
    List.replicate 55 0 ++ [6, 1, 0, 0, 0, 0, 0, 0, 0, 1] ++ List.replicate 54 0 ++ [7, 1, 0, 0, 0, 0, 0, 0, 32] ++
    List.replicate 55 0 ++ [8, 1, 0, 0, 0, 0, 0, 0, 16] ++ List.replicate 55 0 ++ leBytes 48
    0xcfd059bd45f031bc27e7559f38d78691259602afcb392437bf10e918a9b45b3e56da2eb9a7f37fa83442b43d210eb259 ++ leBytes 48
    0xcebc7e01ebfcf21e0b923b40316f2f82ae7f222434b8f4b83ad53e9f61af7baad2836363c0114c34d4b28d045fc9bf0f ++ List.replicate 32 0

/-- An amendment of one section that removes flow 4095 of tenancy 0, signed likewise. -/
def amendImage : List Byte :=
    [77, 82, 70, 72, 0, 1, 1, 0, 128, 1, 0, 0, 1, 0, 0, 0, 6, 0, 0, 0, 0, 0, 0, 0, 1] ++ List.replicate 8 0 ++ [1, 0, 0, 0, 0,
    1, 0, 161, 209, 22, 162] ++ List.replicate 20 0 ++ [3, 0, 0, 0, 128, 0, 0, 0, 80, 0, 0, 0, 38, 222, 137, 111] ++
    List.replicate 48 0 ++ [3, 1, 0, 0, 1, 0, 0, 0, 64, 0, 0, 0, 0, 0, 0, 0, 255, 15, 128] ++ List.replicate 109 0 ++ leBytes 48
    0xcfd059bd45f031bc27e7559f38d78691259602afcb392437bf10e918a9b45b3e56da2eb9a7f37fa83442b43d210eb259 ++ leBytes 48
    0xfbcb0002a6125a984e5a198040b0893eb62c4e9cfff536d4f9792c4ce10cb82e89903699aa18cd5922f33ced85956324 ++ List.replicate 32 0

/-- An instance with the key, and with the source size of an image at address 0. -/
def toSign (s : State) (size : Nat) : State := (withKey s).setFlds [(F.FRM_SRC_SIZE_SIZE, size)]

/-- Does an attempt on the image parse, verify and get through admission? -/
def passes (s : State) (amend : Bool) (image : List Byte) : Bool :=
  match parseForme ((answered s).parseCtx amend [⟨0, some image⟩]) (s.fld F.FRM_SRC_SIZE_SIZE) with
  | .error _ => false
  | .ok p => (answered s).verifies p &&
    (let m := if amend then mergeForme s.forme p.forme p.rems else p.forme.withSlots Forme.blank
     let ps := if amend then s.fld F.LKP_ADMIT_CFG_PSTATE_LIVE else max (s.fld F.LKP_ADMIT_CFG_PSTATE) s.allowed
     (match admission m ps s.lanesGood s.entropyGood (!amend) with | .error _ => false | .ok _ => decide (m.size ≤ 16515072)))

/-- What `passes` says. -/
theorem passes_full (s : State) (d : List Byte) (h : passes s false d = true) : ∃ p ts,
    parseForme ((answered s).parseCtx false [⟨0, some d⟩]) (s.fld F.FRM_SRC_SIZE_SIZE) = .ok p ∧ (answered s).verifies p = true ∧
    admission (p.forme.withSlots Forme.blank) (max (s.fld F.LKP_ADMIT_CFG_PSTATE) s.allowed) s.lanesGood s.entropyGood true =
      .ok ts := by
  unfold passes at h
  split at h
  · cases h
  · rename_i p hp
    simp only [Bool.and_eq_true, Bool.false_eq_true, if_false, Bool.not_false] at h
    obtain ⟨hv, h⟩ := h
    split at h
    · cases h
    · rename_i ts ht; exact ⟨p, ts, hp, hv, ht⟩

/-- See passes_full. -/
theorem passes_amend (s : State) (d : List Byte) (h : passes s true d = true) : ∃ p ts,
    parseForme ((answered s).parseCtx true [⟨0, some d⟩]) (s.fld F.FRM_SRC_SIZE_SIZE) = .ok p ∧ (answered s).verifies p = true ∧
    admission (mergeForme s.forme p.forme p.rems) (s.fld F.LKP_ADMIT_CFG_PSTATE_LIVE) s.lanesGood s.entropyGood false = .ok ts ∧
    (mergeForme s.forme p.forme p.rems).size ≤ 16515072 := by
  unfold passes at h
  split at h
  · cases h
  · rename_i p hp
    simp only [Bool.and_eq_true, if_true, Bool.not_true] at h
    obtain ⟨hv, h⟩ := h
    split at h
    · cases h
    · rename_i ts ht; exact ⟨p, ts, hp, hv, ht, of_decide_eq_true h⟩

/-- LockUpReserves: a signed forme without flows. -/
theorem witness_lock_up : ManagementMay host (toSign up 3200) ∧ (toSign up 3200).job = none ∧ (toSign up 3200).tko = none ∧
    passes (toSign up 3200) false fullImage = true := by
  unfold ManagementMay Serving; decide +kernel

/-- AmendmentReserves: a signed amendment of a live forme. -/
theorem witness_amendment : ManagementMay host (toSign (serving [post]) 384) ∧ (toSign (serving [post]) 384).job = none ∧
    (toSign (serving [post]) 384).tko = none ∧ passes (toSign (serving [post]) 384) true amendImage = true := by
  unfold ManagementMay Serving; decide +kernel

/-- The instance without a key, with the source size of the image. -/
def noKey : State := up.setFlds [(F.FRM_SRC_SIZE_SIZE, 3200)]

/-- Its signatures never verify. -/
theorem noKey_verifies (p : Parsed) : (answered noKey).verifies p = false := by
  have h : ∀ k < 4, (answered noKey).flag (F.GRD_KEY_STATUS_VALID k) = false := by decide +kernel
  have hk : (answered noKey).keySlot p.key = none := by
    unfold State.keySlot
    split
    · rename_i hs; rw [h _ hs.1] at hs; exact absurd hs.2 (by decide)
    · rfl
  unfold State.verifies
  rw [hk]

/-- LockUpRefuses: a header of zeros, and the forme above on an instance without a key. -/
theorem witness_lock_up_refused : ManagementMay host up ∧ up.job = none ∧ up.tko = none ∧
    (match parseForme ((answered up).parseCtx false [⟨0, some (List.replicate 64 0)⟩]) (up.fld F.FRM_SRC_SIZE_SIZE) with
      | .error e => e.fetch == none | .ok _ => false) = true ∧
    ({ up with tko := some ⟨0, 0, []⟩ } : State).tko.isSome = true ∧
    ManagementMay host noKey ∧ noKey.job = none ∧ noKey.tko = none ∧
    ∃ p, parseForme ((answered noKey).parseCtx false [⟨0, some fullImage⟩]) (noKey.fld F.FRM_SRC_SIZE_SIZE) = .ok p ∧
      (answered noKey).verifies p = false := by
  obtain ⟨p, _, hp, -, -⟩ := passes_full _ _ witness_lock_up.2.2.2
  have hc : (answered noKey).parseCtx false [⟨0, some []⟩] = (answered (toSign up 3200)).parseCtx false [⟨0, some []⟩] ∧
      noKey.fld F.FRM_SRC_SIZE_SIZE = (toSign up 3200).fld F.FRM_SRC_SIZE_SIZE := by decide +kernel
  have hd (f : Fetch) : (answered noKey).parseCtx false f = (answered (toSign up 3200)).parseCtx false f := by
    have h1 := hc.1
    simp only [State.parseCtx, PCtx.mk.injEq] at h1 ⊢
    simp_all
  refine ⟨host_manages, rfl, rfl, by decide +kernel, rfl, ⟨.inl rfl, rfl, ⟨rfl, rfl⟩, rfl⟩, rfl, rfl, p, ?_, noKey_verifies p⟩
  rw [hd, hc.2]
  exact hp

/-- Does an amendment on the image parse and verify, and does admission then refuse it? -/
def fails (s : State) (image : List Byte) : Bool :=
  match parseForme ((answered s).parseCtx true [⟨0, some image⟩]) (s.fld F.FRM_SRC_SIZE_SIZE) with
  | .error _ => false
  | .ok p => (answered s).verifies p && (match admission (mergeForme s.forme p.forme p.rems)
      (s.fld F.LKP_ADMIT_CFG_PSTATE_LIVE) s.lanesGood s.entropyGood false with | .error _ => true | .ok _ => false)

/-- A live forme that leaves no spare of the good engines. -/
def noSpare : State :=
  toSign { serving [post] with forme := { (serving [post]).forme with engines := [1] }, entropyGood := 4 } 384

/-- LockUpRefuses: an amendment that admission refuses. -/
theorem witness_admission_refused : ManagementMay host noSpare ∧ noSpare.job = none ∧ noSpare.tko = none ∧
    (∃ p x, parseForme ((answered noSpare).parseCtx true [⟨0, some amendImage⟩]) (noSpare.fld F.FRM_SRC_SIZE_SIZE) = .ok p ∧
      (answered noSpare).verifies p = true ∧ admission (mergeForme noSpare.forme p.forme p.rems)
        (noSpare.fld F.LKP_ADMIT_CFG_PSTATE_LIVE) noSpare.lanesGood noSpare.entropyGood false = .error x) := by
  refine ⟨⟨.inl rfl, rfl, ⟨rfl, rfl⟩, rfl⟩, rfl, rfl, ?_⟩
  have h : fails noSpare amendImage = true := by decide +kernel
  unfold fails at h
  split at h
  · cases h
  · rename_i p hp
    rw [Bool.and_eq_true] at h
    obtain ⟨hv, h⟩ := h
    split at h
    · rename_i x hx; exact ⟨p, x, hp, hv, hx⟩
    · cases h

/-- A job of the forme port in its quoin phase. -/
def jobOf (k : JobKind) (phase : Nat) : Job :=
  { kind := k, phase := phase, forme := { Forme.blank with id := 9 }, adm := [], servers := [], removed := [4095], added := [],
    pstate := 4, claimed := [], good := (144, 52), started := 0, fetch := [], cancelled := false }

/-- CancelEndsAttempt: no attempt, attempts of each kind before and in their quoin phase, and two that are marked at their quoin. -/
theorem witness_cancel : let a (j : Job) : State := { up with job := some j, tasks := [taskOf bulk] }
    ManagementMay host up ∧ up.job = none ∧ ManagementMay host (a (jobOf .full 4)) ∧ (a (jobOf .full 4)).job = some (jobOf .full 4) ∧
    (jobOf .amend 4).phase ≠ 5 ∧ (jobOf .full 5).phase = 5 ∧ (jobOf .reload 5).kind ≠ .full ∧ (jobOf .reload 5).kind ≠ .amend ∧
    (a { jobOf .amend 5 with cancelled := true }).ready = true ∧ ({ jobOf .full 5 with cancelled := true } : Job).phase = 5 ∧
    (∀ k ∈ up.tasks, k.isTask = false) ∧ (∀ k ∈ (a { jobOf .amend 5 with cancelled := true }).tasks, k.isTask = true → k.flow ∉
      ({ jobOf .amend 5 with cancelled := true } : Job).removed) := by
  unfold ManagementMay Serving; decide +kernel

/-- QuoinReplacesForme: a full attempt and an amendment at their quoin phase, one of them with a task of a flow that stays; a
reload; and a forme whose spares are gone. -/
theorem witness_quoin : let s : State := { up with job := some (jobOf .full 5) }
    let a : State := { up with job := some (jobOf .amend 5), tasks := [taskOf bulk] }
    let r : State := { up with job := some (jobOf .reload 5) }
    let e : Job := { jobOf .full 5 with forme := { Forme.blank with engines := [1] } }
    let g : State := { up with entropyGood := 4, job := some e }
    s.ready = true ∧ (jobOf .full 5).phase = 5 ∧ (jobOf .full 5).cancelled = false ∧ s.sparesGone (jobOf .full 5) = false ∧
    (∀ k ∈ s.tasks, k.isTask = false) ∧ a.ready = true ∧ a.sparesGone (jobOf .amend 5) = false ∧
    (∀ k ∈ a.tasks, k.isTask = true → k.flow ∉ (jobOf .amend 5).removed) ∧ r.ready = true ∧ (jobOf .reload 5).kind = .reload ∧
    g.ready = true ∧ g.sparesGone e = true := by
  decide +kernel

/-- AmendClaimsEnd: claims held, and claims not yet held. -/
theorem witness_claims : (jobOf .amend 4).held = true ∧ (let c : PoolClaim := ⟨1, 4095, 0, 2, 0⟩
    ({ jobOf .amend 4 with forme := { Forme.blank with claims := [c] }, claimed := [(4095, 1, 1)] } : Job).held) = false := by
  decide +kernel

/-- RetainDoneKeepsForme: a copy under way, with one area in force and a forme to write; and none under way. -/
theorem witness_retain : let s : State := { serving [bulk] with
      retaining := true, ckptAreas := (some 0x40000, none), forme := { (serving [bulk]).forme with size := 3200 } }
    s.ready = true ∧ s.retaining = true ∧ s.regs.wf = true ∧ s.ckptAreas = (some 0x40000, none) ∧ s.forme.size ≠ 0 ∧
    up.ready = true ∧ up.retaining = false := by decide +kernel

/-- Trim with a captured value, and with a commit of it pending. -/
def trimCommit : State := { up with shadow := [(Row.WEIR_CFG.base, 1)], captures := [⟨.delta, []⟩] }

/-- CommitGoCaptures: a pending commit, a pairing rule that fails, and a region with a station whose rules hold; of a page too. -/
theorem witness_commit_go : CommitMay host .trim up ∧ CommitMay host (.page 0) up ∧
    (up.setFld (commitField .trim 0 1) 1).flag (commitField .trim 0 1) = true ∧ up.flag (commitField .ptc 0 1) = false ∧
    ({ up with shadow := up.shadow.set (F.TEN_WIN_BASE_ENABLE 0 0).off 1 } : State).brokenRule
      (({ up with shadow := up.shadow.set (F.TEN_WIN_BASE_ENABLE 0 0).off 1 } : State).captured (.page 0)) (.page 0) = some 2 ∧
    up.brokenRule (up.captured .trim) .trim = none ∧ regionWaits .trim = true := by
  refine ⟨⟨host_manages, by decide +kernel⟩, ⟨.inl rfl, .inl rfl, ⟨rfl, rfl⟩, rfl, by decide, rfl⟩, ?_⟩
  decide +kernel

/-- CommitMakesLive and MakeLiveSetsRegion: a region without a station, a capture that waits, and the region's registers. -/
theorem witness_commit : CommitMay host (.page 15) up ∧ up.flag (commitField (.page 15) 0 1) = false ∧ regionWaits (.page 15) = false ∧
    up.brokenRule (up.captured (.page 15)) (.page 15) = none ∧ trimCommit.ready = true ∧ trimCommit.betweenTasks .delta = true ∧
    trimCommit.captures.find? (fun c => c.region == .delta) = some ⟨.delta, []⟩ ∧ up.regs.wf = true ∧
    Row.TEN_LIVE_TABLE.base ∉ regionRegs .trim ∧ Row.TEN_LIVE_TABLE.base ≠ commitOff .trim + 8 ∧ regionRegs .delta ≠ [] := by
  refine ⟨⟨.inl rfl, .inl rfl, ⟨rfl, rfl⟩, rfl, by decide, rfl⟩, ?_⟩
  decide +kernel

/-! ### Witnesses: tenancies and rings -/

/-- TenancyResetClears: of the first and the last tenancy, with a ring and a task of the first. -/
theorem witness_tenancy_reset :
    let s : State := { serving [bulk] with sqs := [sq0], cqs := [cq0], tasks := [taskOf bulk] }
    TenancyMay host 0 s ∧ TenancyMay ⟨0x29, 15⟩ 15 s ∧ Sound s := by
  unfold TenancyMay Serving Sound ReadyHolds QueuesHold UnitsHold RegsHold; decide +kernel

/-- The record of a ring: its base, 16 or 65,536 entries, completion ring or vector, flow or interrupt count. -/
def ringRecord (base log2 a b : Nat) : List Byte := leBytes 8 base ++ leBytes 2 log2 ++ leBytes 2 a ++ leBytes 2 b ++ List.replicate 18 0

/-- RingEnableLists: a submission ring of 16 entries, and a completion ring of 65,536, the smallest and the largest. -/
theorem witness_ring_enable :
    let s : State := open0 { serving [bulk] with cqs := [cq0] }
    let d := ringRecord 0x10000 4 0 1
    let e := ringRecord 0x200000 16 1 2
    TenancyMay host 0 s ∧ s.flag (F.TEN_RING_STATUS_BUSY 0) = false ∧ (s.tenEntry 0).sqIn 3 = true ∧ s.sq? 3 = none ∧
    inWindows (s.windows 0) true true (s.sqRecord 0 3) 32 = true ∧ fetchBytes [⟨s.sqRecord 0 3, some d⟩] (s.sqRecord 0 3) 32 = some d ∧
    recordOk d = true ∧ fieldAt d 12 2 < 4096 ∧ fieldAt d 14 2 = 0 ∧ fieldAt d 28 4 = 0 ∧ fetchBytes [] (s.sqRecord 0 3) 32 = none ∧
    noAnswer [] (s.sqRecord 0 3) 32 = true ∧ fetchBytes [] (s.cqRecord 0 3) 32 = none ∧ noAnswer [] (s.cqRecord 0 3) 32 = true ∧
    (s.setFld (F.TEN_RING_STATUS_BUSY 0) 1).flag (F.TEN_RING_STATUS_BUSY 0) = true ∧
    inWindows (s.windows 0) true false (fieldAt d 0 8) (64 * 2 ^ byteAt d 8) = true ∧ (s.flowOf? 0 (fieldAt d 12 2)).isSome = true ∧
    s.cqs.any (fun c => c.cq == fieldAt d 10 2 && c.ten == 0) = true ∧
    (s.tenEntry 0).cqIn 3 = true ∧ s.cq? 3 = none ∧ inWindows (s.windows 0) true true (s.cqRecord 0 3) 32 = true ∧
    fetchBytes [⟨s.cqRecord 0 3, some e⟩] (s.cqRecord 0 3) 32 = some e ∧ recordOk e = true ∧
    fieldAt e 10 2 < (s.tenEntry 0).msiVectors ∧ inWindows (s.windows 0) false true (fieldAt e 0 8) (32 * 2 ^ byteAt e 8) = true := by
  unfold TenancyMay Serving; decide +kernel

/-- RingDisableDrains: a submission ring, a completion ring that it uses, and one that nothing uses. -/
theorem witness_ring_disable :
    let s : State := { serving [bulk] with sqs := [sq0], cqs := [cq0, { cq0 with cq := 3 }] }
    TenancyMay host 0 s ∧ s.flag (F.TEN_RING_STATUS_BUSY 0) = false ∧ (s.tenEntry 0).sqIn 0 = true ∧ s.sq? 0 = some sq0 ∧
    sq0.state = 1 ∧ (s.tenEntry 0).cqIn 0 = true ∧ s.cq? 0 = some cq0 ∧ s.cqBound 0 = true ∧ (s.cq? 3).isSome = true ∧
    s.cqBound 3 = false := by
  unfold TenancyMay Serving; decide +kernel

/-- TableWriteTakesAddress: with nothing in use, and with rings and a pending live post of the tenancy. -/
theorem witness_tables :
    let p : State := { serving [post] with ports := [⟨511, [0], [⟨0, 0⟩], [], 0⟩], sqs := [sq0], cqs := [cq0] }
    TenancyMay host 15 up ∧ Calm up ∧ up.sqs = [] ∧ up.cqs = [] ∧ up.ports = [] ∧ TenancyMay host 0 p ∧
    p.sqs.any (fun q => q.ten == 0) = true ∧ p.cqs.any (fun q => q.ten == 0) = true ∧
    p.ports.any (fun q => (!q.pending.isEmpty || !q.busy.isEmpty) &&
      (match p.portFlow? q.port with | some (fe, _) => fe.ten == 0 | none => false)) = true := by
  unfold TenancyMay Serving Calm; decide +kernel

/-- 256 pushes that wait. -/
def fullQueue : TenRun := ⟨List.replicate 256 ⟨host, 0x1000000, 0, 0, false⟩, []⟩

/-- DoorbellQueues: an empty queue and a full one. -/
theorem witness_doorbell : FromHost host ∧ host.view = 16 ∧ Serving up ∧ up.heldCs = [] ∧ Calm up ∧ (up.tenRun 15).pushes.length < 256 ∧
    (up.tenRun 15).stalled = [] ∧ 256 ≤ (({ up with tens := fullQueue :: up.tens.tail } : State).tenRun 0).pushes.length ∧
    (({ up with tens := ⟨[], [⟨host, 0x1000000, 0, 0, false⟩]⟩ :: up.tens.tail } : State).tenRun 0).stalled ≠ [] := by
  unfold Serving Calm; decide +kernel

/-- The instance with one push to a register of tenancy 0 in its queue. -/
def pushed (s : State) (v : Word) : State :=
  { s with tens := ⟨[⟨host, pageOff 0 Row.TEN_DOORBELL, v, 0, false⟩], []⟩ :: s.tens.tail }

/-- PushDrainHandlesOldest: a ring outside the range, one that is not enabled, one that drains, a tail at the ring's size, and the last tail
below it. -/
theorem witness_push_drain :
    let s : State := { serving [bulk] with sqs := [sq0, { sq0 with ring := 1, state := 2 }] }
    s.ready = true ∧ (pushed s 0).nextPusher = some 0 ∧ (pushed s 0).tenRun 0 = ⟨[⟨host, pageOff 0 Row.TEN_DOORBELL, 0, 0, false⟩], []⟩ ∧
    (s.tenEntry 0).sqIn (getBits 4 0 20) = false ∧ (s.tenEntry 0).sqIn (getBits 3 0 20) = true ∧ s.sq? 3 = none ∧
    (s.sq? 1).map (·.state) = some 2 ∧ pageOff 0 Row.TEN_CQ_DOORBELL ≠ pageOff 0 Row.TEN_DOORBELL ∧ 2 ^ sq0.log2 ≤ getBits (16 <<< 20) 20 16 ∧ getBits (15 <<< 20) 20 16 < 2 ^ sq0.log2 := by
  decide +kernel

/-- CqDoorbellReturnsEntries: a ring outside the range, a head at the ring's size, and the last head below it. -/
theorem witness_cq_doorbell : let s : State := { serving [bulk] with cqs := [cq0] }
    TenancyMay host 0 s ∧ QueuesHold s ∧ (s.tenRun 0).pushes = [] ∧ (s.tenEntry 0).cqIn (getBits 4 0 16) = false ∧
    (s.cq? (getBits 0 0 16)) = some cq0 ∧ 2 ^ cq0.log2 ≤ getBits (16 <<< 16) 16 16 ∧ getBits (15 <<< 16) 16 16 < 2 ^ cq0.log2 := by
  unfold TenancyMay Serving QueuesHold; decide +kernel

/-! ### Witnesses: live ports, releases, entries -/

/-- The run of port 511, with pending posts. -/
def portRun (ps : List Post) : PortRun := ⟨511, ps.map (·.slot), ps, [], 0⟩

/-- The instance with the deadline flow of port 511. -/
def live (ps : List Post) : State := { serving [post] with ports := [portRun ps], cqs := [cq0] }

/-- LivePushPends: a push to an empty port from a host, and from a die; one of a busy slot; and one to a full port, whose oldest post
gives way or not. -/
theorem witness_live_push :
    let full : PortRun := portRun [⟨0, 0⟩]
    Serving (live []) ∧ (live []).portFlow? 511 = some (post, ⟨511, 1, false, true, 0, 0⟩) ∧ (live []).port? 511 = some (portRun []) ∧
    post.ten = (0 : Fin 16).val ∧ ((live []).cq? 0).isSome = true ∧ (portRun []).busy.contains 7 = false ∧ (portRun []).pending.length ≠ 1 ∧
    TenancyMay host 0 (live []) ∧ QueuesHold (live []) ∧ ((live []).tenRun 0).pushes = [] ∧ ((live []).tenRun 0).stalled = [] ∧
    getBits (511 ||| (7 <<< 9)) 0 9 = 511 ∧ getBits (511 ||| (7 <<< 9)) 9 3 = 7 ∧ (0x1F : Nat) < 0x20 ∧ (0xFFF0#16).toNat % 16 = 0 ∧
    (0xFFF0#16).toNat / 16 % 512 = 511 ∧ (0xFFF0#16).toNat / 8192 = 7 ∧ (live [⟨0, 0⟩]).port? 511 = some full ∧ full.pending.length = 1 ∧
    full.busy.contains 7 = false ∧ full.busy.contains 0 = true ∧
    ({ serving [{ post with live := some ⟨511, 1, true, true, 0, 0⟩ }] with ports := [full] } : State).portFlow? 511 =
      some ({ post with live := some ⟨511, 1, true, true, 0, 0⟩ }, ⟨511, 1, true, true, 0, 0⟩) := by
  unfold TenancyMay Serving QueuesHold; decide +kernel

/-- A slot with one part of 4,096 bytes at address 0. -/
def slotOf (lay : Nat) : List Byte :=
  leBytes 4 0 ++ [BitVec.ofNat 8 lay, 1, 0, 0] ++ List.replicate 40 0 ++ leBytes 4 4096 ++ List.replicate 12 0

/-- LivePostBecomesTask: a slot with a part in the window, and one with a field that fails its check. -/
theorem witness_live_take :
    let s : State := open0 (live [⟨0, 0⟩])
    let f : Fetch := [⟨s.slotAddr 0 511 0, some (slotOf 0)⟩]
    s.ready = true ∧ s.runs .fclk = true ∧ s.portFlow? 511 = some (post, ⟨511, 1, false, true, 0, 0⟩) ∧
    (s.port? 511).map (·.pending) = some [⟨0, 0⟩] ∧ s.enc? 4095 = none ∧ s.mayTake post = true ∧
    fetchBytes f (s.slotAddr 0 511 0) 64 = some (slotOf 0) ∧ (parseSlot (s.windows 0) (slotOf 0)).isSome = true ∧
    (parseSlot (s.windows 0) (slotOf 2)).isNone = true ∧ (s.run 4095).suspended = false ∧ post.streaming = false ∧
    post.deadline = true := by
  decide +kernel

/-- LivePostBecomesTask: a post that came at 0, of a port whose posts are fresh for 1 µs, taken at 5 µs. -/
theorem witness_live_stale :
    let b : LiveBinding := ⟨511, 1, false, true, 1000, 0⟩
    let fe : FlowEntry := { post with live := some b }
    let s : State := open0 { serving [fe] with ports := [portRun [⟨0, 0⟩]], cqs := [cq0], time := ⟨5000, 0, none⟩ }
    s.runs .fclk = true ∧ s.portFlow? 511 = some (fe, b) ∧ s.mayTake fe = true ∧ b.freshNs ≠ 0 ∧
    ((parseSlot (s.windows 0) (slotOf 0)).map (fun r => decide (b.freshNs < s.now - (s.stamp r 0).2))) = some true ∧
    s.now - 4000 ≤ b.freshNs := by
  decide +kernel

/-- DeadlineTaskReleases: a waiting task, accepted at 5 ns. -/
theorem witness_release : let s : State := { serving [post] with tasks := [{ taskOf post with accept := 5 }] }
    s.ready = true ∧ (s.nextRelease.map (fun x => (x.1.id, x.2.1.flow, x.2.2))) = some (7, 4095, 5) ∧ up.nextRelease = none := by decide +kernel

/-- RingEntriesTaken: a bulk ring with entries across its end; a NOP, an entry with a reserved bit, and a clean entry. -/
theorem witness_ring_entries :
    let s : State := { serving [bulk] with sqs := [sq0], cqs := [cq0] }
    let e (op : Nat) : List Byte := List.replicate 8 0 ++ [BitVec.ofNat 8 op, 4] ++ List.replicate 14 0 ++ leBytes 4 4096 ++ List.replicate 36 0
    s.ready = true ∧ s.runs .fclk = true ∧ s.nextRing = some sq0 ∧
    entryClean (List.replicate 64 0) = true ∧ byteAt (List.replicate 64 0) 8 = 0 ∧ entryClean (List.replicate 64 0xFF) = false ∧
    entryClean (e 1) = true ∧ byteAt (e 1) 8 = 1 ∧ s.flowOf? 0 1 = some bulk ∧ (s.run 1).suspended = false ∧
    taskClean bulk (entryTask s sq0 (e 1) 0) = true := by
  decide +kernel

/-- An encode entry with a packet ring of 4,096 bytes. -/
def encEntry : EncEntry :=
  { codec := 1, profile := 0, level := 0, depth := 8, rcMode := 0, picW := 64, picH := 64, tileCols := 1, tileRows := 1, grid := 64,
    flags := 0, refFrames := 1, goldenInt := 0, searchRange := 0, hintMin := 0, hintTrust := 0, trail := 0, qpMin := 0, qpMax := 255,
    qInit := 100, qKey := 100, qInter := 100, keyBoost := 0, keyInterval := 0, rateKbps := 1000, bufKbits := 100, initFull := 0,
    latBytes := 4096, keyLatBytes := 4096, aInit := 0, stripeBins := 4096, startOff := 0, pktBase := 0x30000, pktSize := 4096 }

/-- The instance with an encode flow whose frame clock has started. -/
def encoding (ps : List Post) (c : EncCtx) : State :=
  open0 { serving [post] with
    forme := { (serving [post]).forme with codecs := [⟨4095, 0, .enc encEntry, 0⟩] }, ports := [portRun ps],
    flows := [{ FlowRun.fresh 4095 with enc := c }] }

/-- EncodeTickStarts: with no slot left, with no post, and with a fresh post that its slot describes well. -/
theorem witness_encode :
    let c : EncCtx := { (FlowRun.fresh 4095).enc with t0 := some 1000, tick := 3 }
    let s : State := encoding [⟨0, 0⟩] c
    let u : State := (s.advance 3001000).modEnc 4095 (fun c => { c with tick := 4 })
    s.ready = true ∧ s.flow? 4095 = some post ∧ s.enc? 4095 = some encEntry ∧ (s.run 4095).enc.t0 = some 1000 ∧
    u.freeSlots post ≠ 0 ∧ u.starting 4095 = true ∧ u.resetting 0 = false ∧ (u.port? 511).map (·.pending) = some [⟨0, 0⟩] ∧
    u.poolHolds post = false ∧ fetchBytes [⟨u.slotAddr 0 511 0, some (slotOf 0)⟩] (u.slotAddr 0 511 0) 64 = some (slotOf 0) ∧
    (parseSlot (u.windows 0) (slotOf 0)).isSome = true ∧ 0 ≤ 3001000 ∧ 3001000 < (⟨0, 3001001⟩ : Post).tArr ∧ ((encoding [] c).port? 511).map (·.pending) = some [] ∧
    ({ s with tasks := List.replicate 4 (taskOf post) } : State).freeSlots post = 0 := by decide +kernel

/-- A chunk of n bytes of task 7. -/
def chunkOf (n : Nat) : Chunk := ⟨0, 0, 3, List.replicate n 0, 7⟩

/-- PacketRingMoves: read offsets that return space and that do not, a chunk that fits, and one that does not. -/
theorem witness_packets :
    let c : EncCtx := { (FlowRun.fresh 4095).enc with wrOff := 2048, rdOff := 1024, chunks := [chunkOf 32] }
    let s : State := { encoding [] c with tasks := [{ taskOf post with phase := .chunking, windows := [⟨true, true, 0, 4095⟩] }] }
    Serving s ∧ TenancyMay host 0 s ∧ QueuesHold s ∧ (s.tenRun 0).pushes = [] ∧ s.flowOf? 0 4095 = some post ∧
    getBits (4095 ||| (2048 <<< 12)) 12 30 = 2048 ∧ (2048 + 4096 - c.rdOff) % 4096 ≤ c.usedBytes 4096 ∧
    ¬ (2064 + 4096 - c.rdOff) % 4096 ≤ c.usedBytes 4096 ∧ s.runs .fclk = true ∧ s.flow? 4095 = some post ∧ c.chunkOut = 0 ∧
    (s.task? 7).map (fun t => (t.stopping, t.phase)) = some (false, .chunking) ∧
    inWindows [⟨true, true, 0, 4095⟩] false true encEntry.pktBase encEntry.pktSize = true ∧
    (c.place 4096 (chunkOf 32).image.length).isSome = true ∧ c.place 4096 (chunkOf 3072).image.length = none := by
  unfold TenancyMay Serving QueuesHold; decide +kernel

/-! ### Witnesses: pieces, boundaries, entries and residency -/

/-- A streaming flow with 64 KiB of staging, on Delta. -/
def stream : FlowEntry :=
  { bulk with flow := 2, path := [1, 9], entryMask := 8, delta := some ⟨0, false, 64, 0, 1, 0, 0, 0, 0, 0⟩ }

/-- A descriptor of 16 elements from package memory to die 0. -/
def desc0 : Desc :=
  { flow := 2, ten := 0, stream := 0, dir := 0, order := false, fence := false, doneWait := true, notify := false, deadline := false,
    fmtIn := 1, fmtOut := 1, layer := 0, dieMask := 1, sdims := 1, ddims := 1, src := 0x1000, dst := 0x2000, next := 0, alt := 0,
    scount := [16], dcount := [16], sstride := [1], dstride := [1], bytes := 16 }

/-- Its task at Delta. -/
def streamTask : Task :=
  { taskOf stream with phase := .ready, stage := 1, delta := some { DeltaTask.blank with
      prim := [desc0], descs := [desc0], todo := [(0, 0, 16)], started := true } }

/-- A delivery unit with assembly work, or with a write, left. -/
def unitOf (asm : Nat) (left : List (Nat × List Byte)) : BatchOut :=
  { key := 3, flow := 1, head := 1, ten := 0, batch := true, group := none, index := 0, asm := asm, left := left, held := [], writes := 0,
    rows := [], subst := 0, masked := 0, status := 0, aborted := false, started := true, staggered := false, holder := none, engine := 0,
    release := 0, windows := [] }

/-- PieceDispatched: a piece of a task at Case, a transfer and a unit's write at Delta, and assembly at Galley. -/
theorem witness_pieces :
    let t : Task := { taskOf bulk with phase := .ready, entered := true, work := [(0x21, 4, 0)] }
    let a : State := { serving [bulk] with tasks := [t] }
    let x : State := { serving [stream] with
      tasks := [streamTask], forme := { (serving [stream]).forme with movers := [some 0] },
      weir := { WeirRun.reset with bucket := List.replicate 16 65536 } }
    let u : State := { serving [bulk] with
      forme := { (serving [bulk]).forme with movers := [some 0] }, batches := [unitOf 0 [(0, [1])]], weir := { WeirRun.reset with bucket := List.replicate 16 65536 } }
    let g : State := { serving [bulk] with batches := [unitOf 8 []] }
    a.ready = true ∧ a.runs (a.serverDomain 0x21) = true ∧ up.pickPiece 0x21 = none ∧ up.runs (up.serverDomain 0x21) = true ∧ (a.pickPiece 0x21).map (·.piece) = some (.task 7) ∧ (a.task? 7).isSome = true ∧
    x.runs (x.serverDomain 0x27) = true ∧ (x.pickPiece 0x27).map (·.piece) = some (.xfer 7) ∧ (x.task? 7).isSome = true ∧
    u.runs (u.serverDomain 0x27) = true ∧ (u.pickPiece 0x27).map (·.piece) = some (.unit 3) ∧
    u.batches.find? (fun x => x.key == 3) = some (unitOf 0 [(0, [1])]) ∧
    g.runs (g.serverDomain 0x26) = true ∧ (g.pickPiece 0x26).map (·.piece) = some (.asm 3) ∧
    g.batches.find? (fun x => x.key == 3) = some (unitOf 8 []) := by decide +kernel

/-- EntriesComplete: a task at its boundary, an entry that is due, and an announcement that waits. -/
theorem witness_entries :
    let t : Task := { taskOf bulk with phase := .ended }
    let s : State := { serving [bulk] with tasks := [t], cqs := [cq0] }
    s.ready = true ∧ s.task? 7 = some t ∧ t.atBoundary = true ∧ s.due.any (fun d => d.task == some 7) = false ∧ s.runs .fclk = true ∧
    ({ s with due := [(t.dueEntry 0)] } : State).nextEntry 0 = some (t.dueEntry 0) ∧ s.cq? 0 = some cq0 ∧ cq0.oldest = some 0 ∧
    cq0.irqDelay ≠ 0 ∧ cq0.irqCount ≠ 0 ∧ ({ cq0 with head := 0, tail := 15 } : CqRing).full = true ∧
    ({ up with due := [(t.dueEntry 0)] } : State).nextEntry 0 = some (t.dueEntry 0) ∧ up.cq? 0 = none := by decide +kernel

/-- A decode plan with one frame of 64 rows that is parsed, and parked units. -/
def planOf (parked : Nat) : DecPlan :=
  { aus := [], hist := [], fault := none, good := 0, closed := true, status := 0, cls := 0, alone := false, skip := false,
    frames := [(0, { (default : FrameDesc) with h := 64, grid := 16 })], pick := [some 0], parsed := 1, parsing := false,
    parked := parked, next := 0, reading := false, slots := [], sel := [], cutNow := none, cut := none, joined := 0 }

/-- A bulk request of task 7 that waits in pool 31. -/
def waitOf : PoolRun := ⟨31, [], [⟨7, 1, 0, 0, 0⟩], false, false, false⟩

/-- WaitsEnd: a parked unit with room, a swap due at once and behind another, one that ends with and without a next, and a piece
that makes no progress. -/
theorem witness_waits :
    let fe : FlowEntry := { bulk with cls := { bulk.cls with entropyPar := 4 } }
    let s : State := { serving [fe] with
      forme := { (serving [fe]).forme with engines := [1, 1] },
      tasks := [{ taskOf fe with phase := .ready, dec := some (planOf 1) }] }
    let inc : BerthCtx := ⟨1, 0, false, true, none, 0⟩
    let out : BerthCtx := ⟨1, 1, true, false, none, 0⟩
    let b : State := { serving [bulk] with berths := [inc, out] }
    s.ready = true ∧ s.flow? 1 = some fe ∧
    s.tasks.any (fun t => t.flow == 1 && (match t.dec with | some p => p.parked != 0 | none => false) && s.millRoom fe t) = true ∧
    b.swapBusy = none ∧ b.waitingOut = some inc ∧ leastBy BerthCtx.evictBefore b.blockedIn = some out ∧
    ({ b with swapBusy := some (1, 0, 5), swapQueue := [((1, 1), (1, 0))] } : State).swapBusy = some (1, 0, 5) ∧ b.swapQueue = [] ∧
    (s.task? 7).map (fun t => (t.phase, t.stopping)) = some (.ready, false) := by
  decide +kernel

/-- WaitsEnd: bulk requests whose wait ends, of a task on its way, of a streaming task, and of the block that holds a batch. -/
theorem witness_pool_waits :
    let p : State := { serving [bulk] with tasks := [taskOf bulk], pools := [waitOf] }
    let d : State := { serving [stream] with tasks := [streamTask], pools := [⟨31, [], [⟨7, 2, 0, 0, 0⟩], false, false, false⟩] }
    let fe : FlowEntry := { bulk with galley := some ⟨0, 0, 63, false, false, 4, 0, 16, 0, 0, 0, 0, 100, 0, 0, 0, 10, 0⟩ }
    let t : Task := { taskOf fe with phase := .batched }
    let b : State := { serving [fe] with
      tasks := [t], pools := [waitOf], batches := [{ unitOf 0 [] with holder := some 7 }] }
    (p.waitDue 31).map (·.1) = some ⟨7, 1, 0, 0, 0⟩ ∧ p.task? 7 = some (taskOf bulk) ∧ p.flow? 1 = some bulk ∧
    (taskOf bulk).delta = none ∧ (taskOf bulk).phase ≠ .batched ∧ (d.waitDue 31).map (·.1) = some ⟨7, 2, 0, 0, 0⟩ ∧
    d.task? 7 = some streamTask ∧ d.flow? 2 = some stream ∧ streamTask.delta.isSome = true ∧ b.task? 7 = some t ∧ b.flow? 1 = some fe ∧
    t.delta = none ∧ t.phase = .batched ∧ (b.batches.find? (fun x => x.holder == some t.id)).isSome = true ∧ fe.galley.isSome = true := by
  decide +kernel

/-! ### Witnesses: Galley and Delta -/

/-- GalleyStepTriggers: no group, one that does not assemble, one that does, one that holds a trigger already; a held trigger. -/
theorem witness_galley_step :
    let g (a h : Bool) : GroupRun := ⟨63, 0, 0, a, h, []⟩
    Serving up ∧ TenancyMay host 0 up ∧ QueuesHold up ∧ (up.tenRun 0).pushes = [] ∧ getBits 63 0 6 = 63 ∧ (0x3F0#16).toNat % 16 = 0 ∧
    (0x3F0#16).toNat / 16 % 64 = 63 ∧ up.groups.find? (fun x => x.group == 63 && x.ten == 0) = none ∧
    ([g false false, g true false, g true true, g false true].all (fun x =>
      (({ up with groups := [x] } : State).groups.find? (fun x => x.group == 63 && x.ten == 0)) == some x)) = true := by
  unfold TenancyMay Serving QueuesHold; decide +kernel

/-- Galley settings. -/
def gal (mode : Nat) : GalleySettings := ⟨mode, 0, 63, false, false, 4, 0, 16, 0, 0, 0, 0, 100, 0, 0, 0, 10, 0⟩

/-- A flow with Galley, and its context. -/
def galFlow (mode : Nat) : FlowEntry := { bulk with path := [1, 8], policy := 2, galley := some (gal mode) }

/-- A sample that is held, of an index and status. -/
def heldOf (index status limit : Nat) : HeldSample :=
  ⟨⟨index, 0, status, false, 0, [], [], none, none, [], [], none, [], false, [], none⟩, none, 0, 0, limit⟩

/-- The instance with a MODE 0 flow in a context. -/
def galState (c : GalCtx) : State := { serving [galFlow 0] with flows := [{ FlowRun.fresh 1 with gal := c }] }

/-- GalleyResolves: register writes of both modes, an idle open batch, an index that is missing, and a sample that is kept open. -/
theorem witness_galley :
    let b : GalCtx := (FlowRun.fresh 1).gal
    let r : RowRun := ⟨1, 0, 0, 0, 0, 0, 0, 0, 0, [], none, 0, none⟩
    let idle : GalCtx := { b with eNext := 1, rows := [(0, r)], lastIn := some 5 }
    let gap : GalCtx := { b with held := [heldOf 3 0 0] }
    let kept : GalCtx := { b with held := [heldOf 0 0x20 1000] }
    let s0 : State := serving [galFlow 0]
    let s1 : State := serving [galFlow 1]
    TenancyMay host 0 s0 ∧ TenancyMay host 0 s1 ∧ QueuesHold s0 ∧ QueuesHold s1 ∧ (s0.tenRun 0).pushes = [] ∧
    s0.flowOf? 0 (getBits 1 0 12) = some (galFlow 0) ∧ s1.flowOf? 0 (getBits 0x1001 0 12) = some (galFlow 1) ∧ getBits 0x1001 12 2 = 1 ∧
    getBits 1 60 1 = 0 ∧ s0.flowOf? 0 (getBits (1 ||| (1 <<< 60)) 0 12) = some (galFlow 0) ∧ getBits (1 ||| (1 <<< 60)) 60 1 = 1 ∧
    (galState idle).ready = true ∧ (galState idle).flow? 1 = some (galFlow 0) ∧ idle.gapDue 10000 = none ∧ idle.idleDue 10000 = some 10005 ∧
    gap.gapDue 10000 = some 10000 ∧ gap.idleDue 10000 = none ∧
    kept.held.find? (fun h => h.sample.index == kept.eNext) = some (heldOf 0 0x20 1000) ∧
    (galState kept).keptOpen (galFlow 0) (gal 0) (heldOf 0 0x20 1000) = true := by
  unfold TenancyMay Serving QueuesHold; decide +kernel

/-- DeltaAlternateSet: a streaming flow, and none. -/
theorem witness_alternate : let s := serving [stream]
    Serving s ∧ TenancyMay host 0 s ∧ QueuesHold s ∧ (s.tenRun 0).pushes = [] ∧ (s.streamingOf? 0 2).isSome = true ∧
    (s.streamingOf? 0 3).isSome = false ∧ getBits 0x1002 0 12 = 2 ∧ getBits 0x1002 12 2 = 1 ∧ getBits 0x2002 12 2 = 2 ∧
    (0x010002#24).toNat % 65536 / 4096 = 0 ∧ (0x010002#24).toNat % 4096 = 2 ∧ (0x010002#24).toNat / 65536 = 1 ∧
    (0x020002#24).toNat / 65536 = 2 := by
  unfold TenancyMay Serving QueuesHold; decide +kernel

/-- DeltaLayersDrain: the present layer and another, by both ways, and a task whose wait has started. -/
theorem witness_layers :
    let s : State := { serving [stream] with
      flows := [{ FlowRun.fresh 2 with dlt := { (FlowRun.fresh 2).dlt with present := some 5, needDone := 2 ^ 31 } }] }
    let k : Task := { streamTask with delta := streamTask.delta.map (fun d => { d with layerWait := true, waitFrom := some 7 }) }
    Serving s ∧ TenancyMay host 0 s ∧ QueuesHold s ∧ (s.tenRun 0).pushes = [] ∧ (s.streamingOf? 0 2).isSome = true ∧
    (s.run 2).dlt.present = some 5 ∧ (0x00050002#32).toNat % 65536 / 4096 = 0 ∧ (0x00050002#32).toNat % 4096 = 2 ∧
    (0x00050002#32).toNat / 65536 = 5 ∧ getBits (2 ||| (31 <<< 12) ||| (5 <<< 32)) 0 12 = 2 ∧
    getBits (2 ||| (31 <<< 12) ||| (5 <<< 32)) 12 5 = 31 ∧ getBits (2 ||| (31 <<< 12) ||| (5 <<< 32)) 32 16 = 5 ∧
    (({ s with tasks := [k] } : State).task? 7).bind (·.delta.map (fun d => (d.waitFrom, d.layerWait))) = some (some 7, true) ∧
    k.stopping = false := by
  unfold TenancyMay Serving QueuesHold; decide +kernel

/-- StaggerAndWeir: an open window, a held deadline write with its last moment, and a cycle in which nothing waits. -/
theorem witness_stagger :
    let fe : FlowEntry := { stream with deadline := true, periodNs := 1000, deadlineNs := 500 }
    let x : Xfer := ⟨0, [], .held, 0, 0, [], 0, 0, [], 0, none⟩
    let t : Task := { taskOf fe with delta := some { DeltaTask.blank with xfers := [x] } }
    let s : State := { serving [fe] with tasks := [t], stagger := some ⟨0, 2000, 8, 1, 2⟩ }
    s.ready = true ∧ s.stagger = some ⟨0, 2000, 8, 1, 2⟩ ∧ (leastBy (fun a b : Nat => decide (a < b)) s.heldLimits).isSome = true ∧
    (∀ t < 16, up.weirWaits t = false ∧ up.waitsAtDelta t = false) ∧ up.weir.queue = [] := by decide +kernel

/-! ### Witnesses: fabric, faults, takeover, guard port -/

/-- A transaction that waits for its response. -/
def txn (op : TxnOp) : Txn := ⟨0xFFFF, op, 0x1000, 64, 0, 0, 0, [], .source 7 0, 0, 15⟩

/-- FabricResponses: a read, a write, and none. -/
theorem witness_responses :
    let r : State := { up with txns := [txn .rd] }
    let w : State := { up with txns := [txn .wr] }
    Serving r ∧ Serving w ∧ r.txns.find? (fun x => x.tag == 0xFFFF && (x.op == .rd) == true) = some (txn .rd) ∧
    w.txns.find? (fun x => x.tag == 0xFFFF && (x.op == .rd) == false) = some (txn .wr) ∧ Calm up ∧ up.txns = [] ∧
    r.txns.find? (fun x => x.tag == 0xFFFF) = some (txn .rd) := by
  unfold Serving Calm; decide +kernel

/-- LinkErrors: the eighth and the ninth failure, and messages of a bad node and of bad types. -/
theorem witness_link : Serving up ∧ up.portFenced 0 = false ∧ ({ up with fencedUnits := [.port 15] } : State).portFenced 15 = true ∧ byteAt [0, 0, 3] 2 = 3 ∧ up.portFenced 15 = false ∧ up.txns = [] ∧
    (((([(15, 7)] : List (Nat × Nat)).find? (fun c => c.1 == 15)).map (·.2)).getD 0) < 8 ∧
    8 ≤ (((([(15, 8)] : List (Nat × Nat)).find? (fun c => c.1 == 15)).map (·.2)).getD 0) ∧ 0x20 ≤ 0x20 ∧ (0#16).toNat = 0 ∧
    4 < (5#16).toNat := by
  unfold Serving; decide +kernel

/-- FaultEventsAct: a source with and without a rail fault, one whose first event is enough, and one that decays. -/
theorem witness_faults :
    let s : State := { up with srcs := [⟨0x08, 3, [], 100, 0, false⟩, ⟨0x09, 1, [], 0, 0, true⟩] }
    s.life ≠ .cold ∧ (fltDefaults 0x08).isSome = true ∧ (fltDefaults 0x2A).isSome = true ∧ s.portFenced 15 = false ∧ s.armed 0x09 = false ∧
    (({ s with testMode := true } : State).setFlds [(F.TST_INJ_ARM, 1), (F.TST_INJ_RAIL, 1), (F.TST_INJ_SOURCE, 9),
      (F.TST_INJ_COUNT, 1)]).armed 0x09 = true ∧ (0x08 : Nat) ≠ 0x2A ∧ (s.srcRun 0x08).rail = false ∧ (s.srcRun 0x09).rail = true ∧
    (fltDefaults 0x09).isSome = true ∧ s.testMode = false ∧ Calm s ∧ s.raised = [] ∧ (s.srcRun 0x28).rail = false ∧
    (fltDefaults 0x28).isSome = true ∧ (s.srcRun 0x28).level ≠ 0 ∧ s.fld (F.GRD_FLT_SRC_ESC_N 0x28) = 0 ∧ s.escWindow 0x08 ≠ 0 ∧
    s.fld (F.GRD_FLT_SRC_SEV 0x08) < (s.srcRun 0x08).level ∧ (s.srcRun 0x08).since < s.fld (F.GRD_FLT_SRC_ESC_N 0x08) := by
  unfold Calm; decide +kernel

/-- A takeover that claims two of three blocks of its one flow. -/
def claiming : State :=
  let c : PoolClaim := ⟨1, 4095, 0, 3, 0⟩
  { up with
    tko := some ⟨0, 0, []⟩,
    job := some { jobOf .takeover 4 with
      forme := { Forme.blank with claims := [c] }, added := [4095], claimed := [(4095, 1, 2)] } }

/-- TakeoverRuns: no GO, a GO with no area of the peer, a second GO, and claims that stay short. -/
theorem witness_takeover : Serving up ∧ getBits 0 0 1 = 0 ∧ getBits 1 0 1 = 1 ∧ claiming.tko.isSome = true ∧ up.tko = none ∧ up.job = none ∧
    ((up.clearTko.setFld F.FLT_TKO_STATUS_STATE 1).peerHome []) = none ∧
    claiming.job.map (fun j => (decide (j.kind = .takeover), j.held, decide (∀ x ∈ j.added, j.short x ≠ []))) = some (true, false, true) := by
  unfold Serving; decide +kernel

/-- GuardTransactions: headers of each form, and of none. -/
theorem witness_guard :
    let w : State := { State.reset with life := .coldWait }
    up.life ≠ .cold ∧ Calm up ∧ headerOk 0 0 = true ∧ (regAt (guardOff 0)).isSome = true ∧ headerOk 0xFFFFFF0 0 = false ∧
    headerOk 0x1FFFFF0 0 = true ∧ regAt (guardOff 0x1FFFFF0) = none ∧ headerOk 4 0 = false ∧
    headerOk (1 ||| BitVec.ofNat 32 (16 * ((Row.GRD_ALIVE.base - 0x2000000) / 8))) 1 = true ∧
    (regAt (guardOff (1 ||| BitVec.ofNat 32 (16 * ((Row.GRD_ALIVE.base - 0x2000000) / 8))))).map (·.1.base) = some Row.GRD_ALIVE.base ∧
    Row.GRD_ALIVE.base ≠ Row.GRD_CTRL.base ∧ Row.GRD_ALIVE.base ≠ Row.GRD_TKO.base ∧ Row.GRD_ALIVE.base ≠ Row.GRD_VTABLE_CRC.base ∧
    ¬ (Row.GRD_FLT_SRC.base ≤ Row.GRD_ALIVE.base ∧ Row.GRD_ALIVE.base < Row.GRD_FLT_SRC.base + 0x200) ∧
    ¬ (Row.GRD_PWR_LIMITS.base ≤ Row.GRD_ALIVE.base ∧ Row.GRD_ALIVE.base ≤ Row.GRD_PWR_ALERT.base) ∧ headerOk 0 1 = false ∧
    repairOk 0x12 1 = true ∧ w.life = .coldWait ∧ w.flag F.GRD_CTRL_DELIVERED = false ∧ Calm w ∧ repairOk 0x12 2 = false ∧
    up.life ≠ .coldWait ∧ headerOk (1 ||| BitVec.ofNat 32 (16 * ((Row.GRD_CTRL.base - 0x2000000) / 8))) 1 = true ∧
    guardOff (1 ||| BitVec.ofNat 32 (16 * ((Row.GRD_CTRL.base - 0x2000000) / 8))) = Row.GRD_CTRL.base ∧ getBits 2 1 1 = 1 ∧
    getBits 5 1 1 = 0 ∧ getBits 5 0 1 = 1 := by
  unfold Calm; decide +kernel

/-- GuardWritesAct: a table that checks and one that does not, FORGET with INST_RST_N low and high, and the first and last source. -/
theorem witness_guard_writes :
    let u (v : Word) : State := ({ up with guardResp := ⟨0, none⟩ } : State).setReg Row.GRD_VTABLE_CRC.base
      (storeFields .gw Row.GRD_VTABLE_CRC.fields (up.regs.get Row.GRD_VTABLE_CRC.base) v)
    let low : State := { up with life := .warmLow, ready := false, instLow := true }
    up.life ≠ .cold ∧ (u 1).guardTable = none ∧ ((u (BitVec.ofNat 64 (crc32c ((u 0).tableWords.flatMap (fun x => leBytes 8 x.toNat))))).guardTable).isSome = true ∧
    low.ready = false ∧ low.instLow = true ∧ Calm low ∧ up.instLow = false ∧ (up.srcRun 0).rail = false ∧ (up.srcRun 63).rail = false ∧
    Calm up := by
  unfold Calm; decide +kernel

/-! ### Witnesses: resets, starts, clocks, time -/

/-- ColdResetClears: a change of TMODE, and a start out of a cold reset. -/
theorem witness_cold : true ≠ up.tmode ∧ State.reset.life = .cold := by decide +kernel

/-- StartsProceed: a cold start that waits, with credits of all ports and without, and a warm start. -/
theorem witness_starts :
    let c (n : Nat) : State := { State.reset with life := .coldWait, credits := n }
    let w : State := { State.reset with life := .warmLow, instLow := true, retained := ⟨some (Forme.blank, 0, 0), some [], some []⟩ }
    (c 0xFFFF).life = .coldWait ∧ (c 0xFFFF).tmode = false ∧ (c 0xFFFF).instLow = false ∧ (c 0xFFFF).regs.wf = true ∧
    (c 0x7FFF).life = .coldWait ∧ w.life = .warmLow ∧ w.heldCs = [] ∧ w.pmHeld = (none, none, none) := by decide +kernel

/-- WarmResetClears: an instance that serves, with tasks, rings and settings; and a write of GLB_RESET with its key. -/
theorem witness_warm :
    let s : State := { serving [bulk] with tasks := [taskOf bulk], sqs := [sq0], cqs := [cq0], txns := [txn .rd] }
    s.regs.wf = true ∧ s.heldCs = [] ∧ s.tens.all (fun t => t.stalled.isEmpty) = true ∧ s.life = .up ∧ ManagementMay host s ∧
    getBits (0xB1FA0001 : Word) 16 16 = 0xB1FA ∧ getBits (0xB1FA0001 : Word) 0 2 = 1 ∧ s.reloading = false ∧ s.life ≠ .cold ∧
    keptReg Row.FRM_SRC_ADDR.base = false ∧ keptReg Row.GRD_ALIVE.base = true := by
  unfold ManagementMay Serving; decide +kernel

/-- DomainResetsAndReload: one domain, all five, a reload, a reload while an attempt runs, and a write without the key. -/
theorem witness_domain :
    let a : State := { up with job := some (jobOf .full 5) }
    ManagementMay host up ∧ getBits (0xB1FA0012 : Word) 16 16 = 0xB1FA ∧ getBits (0xB1FA0012 : Word) 35 1 = 0 ∧ up.reloading = false ∧
    getBits (0xB1FA0012 : Word) 0 2 = 2 ∧ getBits (0xB1FA0012 : Word) 4 5 = 1 ∧ getBits (0xB1FA01F2 : Word) 4 5 = 31 ∧
    getBits (0xB1FA0003 : Word) 0 2 = 3 ∧ getBits (0xB1FA0003 : Word) 16 16 = 0xB1FA ∧ getBits (0xB1FA0003 : Word) 35 1 = 0 ∧ up.job = none ∧
    up.tko = none ∧ ManagementMay host a ∧ a.reloading = false ∧ a.job.isSome = true ∧ getBits (3 : Word) 16 16 ≠ 0xB1FA ∧ up.life = .up := by
  unfold ManagementMay Serving; decide +kernel

/-- ClocksRunAndStop: a clock nothing asked for, one that was asked for, an idle one, and one that stops while it is wanted;
and an access that waits for a stopped one. -/
theorem witness_clocks :
    let h : HeldAccess := ⟨host, Row.STN_TRIM_CFG.base, 8, true, 5, []⟩
    Serving (stopped.holdAccess h) ∧ (stopped.holdAccess h).heldCs = [h] ∧ Domain.pclk.bit < (stopped.holdAccess h).clk.running.length ∧
    regDomain h.off = .pclk ∧ up.heldCs = [] ∧
    let a : State := { up with clk := ⟨List.replicate 6 true, List.replicate 6 false, List.replicate 6 (some 5)⟩ }
    let i : State := { up with clk := ⟨[false, false, false, true, true, true], List.replicate 6 true, List.replicate 6 none⟩ }
    up.clk.askedAt.getD Domain.gclk.bit none = none ∧ a.clk.askedAt.getD Domain.pclk.bit none = some 5 ∧ up.ready = true ∧
    canStop .fclk = true ∧ up.runs .fclk = true ∧ up.domainBusy .fclk = false ∧ up.domainHeld .fclk = false ∧ up.ptc.comp = false ∧
    up.ptc.ramp = none ∧ up.wanted .pclk = true ∧ up.runs .pclk = true ∧ i.wanted .pclk = false := by unfold Serving; decide +kernel

/-- TimeAndAlive: no strobe yet, one 999 ns ago, one 1,000 ns ago; LOCKED; the peer seen; BIRFA_ALIVE on. -/
theorem witness_time :
    let t (n : Option Nat) : State := { up with time := ⟨5, 0, n⟩ }
    up.life = .up ∧ up.life ≠ .cold ∧ ¬ (∃ x, up.time.since = some x ∧ x < 1000) ∧ (∃ x, (t (some 999)).time.since = some x ∧ x < 1000) ∧
    ¬ (∃ x, (t (some 1000)).time.since = some x ∧ x < 1000) ∧
    ((t (some 7)).setFld F.TIM_STATUS_LOCKED 1).flag F.TIM_STATUS_LOCKED = true ∧
    ((t (some 7)).setFld F.TIM_STATUS_LOCKED 1).time.since = some 7 ∧ ({ up with peerSeen := true } : State).peerSeen = true ∧
    ({ up with aliveOn := true } : State).aliveOn = true := by
  refine ⟨rfl, by decide, ?_, ⟨999, rfl, by decide⟩, ?_, by decide +kernel, by decide +kernel, rfl, rfl⟩
  · rintro ⟨x, h, -⟩; cases h
  · rintro ⟨x, h, hx⟩; cases h; exact absurd hx (by decide)

/-! ### Witnesses: power, known answers, injection -/

/-- The instance with another state of PTC. -/
def withPtc (g : PtcRun → PtcRun) : State := { up with ptc := g up.ptc }

/-- AlertHoldsSlowest: an alert that is low, a hold that ends, no droop, and a droop. -/
theorem witness_alert : (withPtc (fun p => { p with alertLow := true })).ptc.alertLow = true ∧
    Calm (withPtc (fun p => { p with alertLow := true })) ∧ (withPtc (fun p => { p with alertEnd := some 5 })).ptc.alertEnd = some 5 ∧
    up.ptc.droopAt = none ∧ (withPtc (fun p => { p with droopAt := some 5 })).ptc.droopAt = some 5 := by
  unfold Calm; decide +kernel

/-- ComplementRamps: complement enabled, running, and in the middle and at the end of a ramp of 8 groups. -/
theorem witness_complement : up.ready = true ∧ (up.setFld F.PTC_COMP_CFG_EN 1).flag F.PTC_COMP_CFG_EN = true ∧
    (withPtc (fun p => { p with comp := true })).ptc.comp = true ∧ (withPtc (fun p => { p with comp := true })).ptc.ramp = none ∧
    (withPtc (fun p => { p with comp := true })).inForce 3 = false ∧ up.fld F.STN_DLT_STAGGER_RAMP_NS ≠ 0 ∧ (up.setFld F.STN_DLT_STAGGER_RAMP_NS 0).fld F.STN_DLT_STAGGER_RAMP_NS = 0 ∧
    (withPtc (fun p => { p with ramp := some ⟨0, 2000, 8, 7⟩ })).ptc.ramp = some ⟨0, 2000, 8, 7⟩ ∧
    (⟨0, 2000, 8, 7⟩ : Ramp).next < (⟨0, 2000, 8, 7⟩ : Ramp).groups := by decide +kernel

/-- MeasurementsCompared: an instance that is up, one in warm reset, fresh measurements, and agreement. -/
theorem witness_measurements : up.life = .up ∧ ({ up with life := .warmLow } : State).life = .warmLow ∧ up.ready = true ∧
    up.ptc.stale = false ∧ (withPtc (fun p => { p with agreeFrom := some 5 })).ptc.agreeFrom = some 5 := by decide +kernel

/-- VoltageSteps: a step up that is due, VACK below and at the asked voltage, with and without a state to enter, a retry. -/
theorem witness_voltage :
    let s := withPtc (fun p => { p with allowedAt := List.replicate 5 (some 0) })
    let v (k : Option Nat) := withPtc (fun p => { p with vreq := some 800, stepTo := k })
    s.life = .up ∧ s.ready = true ∧ s.ptc.pstate ≠ 0 ∧ s.ptc.stepTo = none ∧ s.ptc.retryAt = none ∧ s.ptc.vreq = none ∧ (s.stepDue (s.ptc.pstate - 1)).isSome = true ∧
    (v none).ptc.vreq = some 800 ∧ (799#28).toNat < 800 ∧ Calm (v none) ∧ 800 ≤ (800#28).toNat ∧ (v none).ptc.stepTo = none ∧
    (v (some 3)).ptc.stepTo = some 3 ∧ (withPtc (fun p => { p with retryAt := some 5 })).ptc.retryAt = some 5 := by
  unfold Calm; decide +kernel

/-- LimitsLowerState: samples at TJ_BOOST and TJ_CRIT, a step at TJ_MAX, the EDC timer at its end, six reasons and no Steady mode. -/
theorem witness_limits :
    let m := withPtc (fun p => { p with tjMaxAt := some 5, thermMax := some 3 })
    let e := withPtc (fun p => { p with edcTimer := 2 ^ 40, edcLong := none })
    up.ready = true ∧ up.tempLimit F.GRD_PWR_LIMITS_TJ_BOOST ≤ (BitVec.ofInt 16 (up.tempLimit F.GRD_PWR_LIMITS_TJ_BOOST)).toInt ∧
    up.tempLimit F.GRD_PWR_LIMITS_TJ_CRIT ≤ (BitVec.ofInt 16 (up.tempLimit F.GRD_PWR_LIMITS_TJ_CRIT)).toInt ∧ m.ptc.tjMaxAt = some 5 ∧
    m.ptc.thermMax = some 3 ∧ e.limit F.GRD_PWR_LIMITS_EDC_MS * 1000000 ≤ e.ptc.edcTimer ∧ e.ptc.edcLong = none ∧
    up.flag F.PTC_CTRL_STEADY = false ∧ up.ptc.reasons.length = 6 := by decide +kernel

/-- BoostIsBudgeted: at P0 and not, and a field of the advice. -/
theorem witness_boost : up.ready = true ∧ (withPtc (fun p => { p with p0Since := some 5 })).ptc.p0Since = some 5 ∧ up.ptc.p0Since = none ∧
    up.ptc.bins = 0 :: List.replicate 59 0 ∧
    up.regs.wf = true ∧ (0 : Nat) ∉ (List.range 10).map (fun i => (F.LKP_OFFLOAD_ADVICE_ADVICE i).off) := by decide +kernel

/-- KnownAnswersAndInjection: a GO, a pending evaluation, and a write of TST_INJ outside test mode. -/
theorem witness_kat : ManagementMay host up ∧ up.slotStopped Row.RFL_KAT_CTRL.base = false ∧ Calm up ∧ up.regs.wf = true ∧ getBits (0x10000 : Word) 16 1 = 1 ∧ up.katDue = none ∧
    ({ up with katDue := some (1, 2, 3, 4, 0, 0) } : State).katDue = some (1, 2, 3, 4, 0, 0) ∧ up.testMode = false ∧ up.ready = true :=
  ⟨host_manages, by decide +kernel, up_calm, by decide +kernel⟩

/-- KnownAnswersAndInjection: writes of TST_INJ in test mode that arm nothing, that start a rail fault, and that raise events. -/
theorem witness_injection :
    let t : State := { up with life := .testHold, ready := false, testMode := true, tmode := true }
    let w (l : List (Field × Nat)) : Word := (t.setFlds l).regs.get Row.TST_INJ.base
    let u (v : Word) : State := (answered t).setReg Row.TST_INJ.base
      (storeFields .rw Row.TST_INJ.fields (t.regs.get Row.TST_INJ.base) v)
    let rail := u (w [(F.TST_INJ_ARM, 1), (F.TST_INJ_COUNT, 255), (F.TST_INJ_RAIL, 1)])
    let once := u (w [(F.TST_INJ_ARM, 1), (F.TST_INJ_COUNT, 1)])
    FromHost host ∧ host.view = 16 ∧ t.testMode = true ∧ t.dead = false ∧ t.qclkHeld = false ∧ t.heldCs = [] ∧ (u 0).flag F.TST_INJ_ARM = false ∧
    rail.flag F.TST_INJ_ARM = true ∧ rail.fld F.TST_INJ_COUNT = 255 ∧ rail.flag F.TST_INJ_RAIL = true ∧
    once.flag F.TST_INJ_ARM = true ∧ once.fld F.TST_INJ_COUNT = 1 ∧ once.flag F.TST_INJ_RAIL = false := by decide +kernel
/-! ### One step -/

/-- What a step answers, read at the next state. -/
def after {α : Type} (o : Host.Outcome State Fault Refusal) (f : State → α) : Option α :=
  match o with
  | .next t => some (f t)
  | _ => none

/-- A write of a slot in a stopped domain waits and wakes the domain (R474). -/
theorem test_slot_write_waits :
    after (exec (.registerWrite host Row.STN_TRIM_CFG.base 8 3) stopped) (fun u =>
      decide (u.heldCs.length = 1 ∧ u.wanted .pclk = true ∧ u.shadow = [])) = some true := by decide +kernel

/-- It is performed when the clock runs (R474). -/
theorem test_slot_write_proceeds :
    after (exec (.clkRun .pclk) ((stopped.holdAccess ⟨host, Row.STN_TRIM_CFG.base, 8, true, 3, []⟩).wake .pclk)) (fun u =>
      decide (u.heldCs = [] ∧ u.shadow.get Row.STN_TRIM_CFG.base = 3 ∧ u.fld F.GLB_CLK_WAKES = 1)) = some true := by decide +kernel

/-- A cold start takes its good units and waits for DELIVERED (R482, R483). -/
theorem test_cold_start : after (exec (.coldStart 143 52 0xFFFF) State.reset) (fun t => (t.life, t.lanesGood, t.ready)) =
    some (.coldWait, 143, false) := by decide +kernel

/-- DELIVERED ends it: READY with the credits of all ports, LAST_START cold (R18, R33); a port short of credits keeps READY at 0. -/
theorem test_delivered : after (exec (.delivered false) { State.reset with life := .coldWait, credits := 0xFFFF })
    (fun t => (t.ready, t.lastStart)) = some (true, 1) ∧
    after (exec (.delivered false) { State.reset with life := .coldWait, credits := 0x7FFF }) (fun t => t.ready) = some false := by
  decide +kernel

/-- A forward difference of TIME_BUS is applied at once; a backward one of 3,000 ns is absorbed (R479). -/
theorem test_time_sync : after (exec (.timeSync 5000) up) (fun t => (t.time.now, t.time.behind)) = some (5000, 0) ∧
    after (exec (.timeSync 5000) { up with time := ⟨8000, 0, some 1000⟩ }) (fun t => (t.time.now, t.time.behind)) = some (8000, 3000) := by
  decide +kernel

/-- The push (ring 0, tail 5) sets TAIL and the doorbell bit; the tail 16 of a ring of 16 entries is BAD_TAIL (R130). -/
theorem test_push_drain :
    let s : State := { serving [bulk] with sqs := [{ sq0 with bit := false }] }
    after (exec (.pushDrain []) (pushed s (5 <<< 20))) (fun t => t.sqs.map (fun q => (q.tail, q.bit))) = some [(5, true)] ∧
    after (exec (.pushDrain []) (pushed s (16 <<< 20))) (fun t => (t.sqs.map (·.tail), t.fld (F.TEN_DB_ERRORS_BAD_TAIL 0))) =
      some ([2], 1) := by decide +kernel

/-- Head 7 pushed to completion ring 0 (R141). -/
theorem test_cq_doorbell : after (exec (.cqDoorbell host 0 (7 <<< 16)) { serving [bulk] with cqs := [cq0] })
    (fun t => t.cqs.map (·.head)) = some [7] := by decide +kernel

/-- GLB_FABRIC.BAD_MSG reads 3 through a tenancy view and stays; the management view's read clears it (R514, worked example after R519). -/
theorem test_read_clear :
    let s : State := up.setFld F.GLB_FABRIC_BAD_MSG 3
    after (exec (.registerRead ⟨0x28, 5⟩ Row.GLB_FABRIC.base 8) s) (fun t => t.fld F.GLB_FABRIC_BAD_MSG) = some 3 ∧
    after (exec (.registerRead host Row.GLB_FABRIC.base 8) s) (fun t => (t.resp.status, t.fld F.GLB_FABRIC_BAD_MSG)) = some (0, 0) := by
  decide +kernel

/-- VR_ALERT_N low holds P4 (R421). -/
theorem test_alert : after (exec .vrAlertNFall (withPtc (fun p => { p with pstate := 1 }))) (fun t => (t.ptc.pstate, t.ptc.alertLow)) =
    some (4, true) := by decide +kernel

/-- A word that the table spells for no row leaves the queue as it is. -/
theorem test_fetch_word : decodeTableWord 64 0 = none ∧ (up.withFetchWord 64 0).pending = [] := by decide +kernel

end Sys2Proof.Tests
end

section
/-! PROOFS of the statements about host accesses, plain register writes, commits that become live, and the reset state: what a
check makes of an access (R505, R514), what a plain write and a commit change (R8, R71, R488), and what they leave as it was. -/

namespace Sys2Proof.Machine

open Sys2Proof.Safety

/-! ### The two commands of a host access -/

theorem exec_registerWrite (r : CsReq) (off len : Nat) (v : Word) (s : State) :
    exec (.registerWrite r off len v) s = .next (s.hostWrite r off len v []).finish := rfl

theorem exec_registerRead (r : CsReq) (off len : Nat) (s : State) :
    exec (.registerRead r off len) s = .next (s.csRead r off len).finish := rfl

/-! ### The checks of a host access (R505) -/

/-- The management view may use every region (R514). -/
theorem viewRefuses_management (g : RegRegion) : viewRefuses 16 g = false := by
  cases g <;> rfl

/-- While READY is set the checks of R505 alone decide, for reads and writes alike: no access is refused for the state. -/
theorem Serving.accessFails_eq {s : State} (hs : Serving s) (r : CsReq) (off len : Nat) (w : Bool) :
    s.accessFails r off len w =
      if len ≠ 8 ∨ off % 8 ≠ 0 ∨ 16 < r.view ∨ ¬ FromHost r then some 2
      else if regAt off = none then some 1
      else if viewRefuses r.view (regionOf off) = true then some 2 else none := by
  unfold State.accessFails
  rw [Serving.refuses hs, Bool.or_false]
  simp only [FromHost, not_or, Option.isNone_iff_eq_none]

/-- The status of a refused access, where 0 stands for none, is what the checks answer. -/
theorem Serving.accessFails_refused {s : State} {r : CsReq} {off len code : Nat} {w : Bool} (hs : Serving s)
    (hc : code = if len ≠ 8 ∨ off % 8 ≠ 0 ∨ 16 < r.view ∨ ¬ FromHost r then 2 else if regAt off = none then 1
      else if viewRefuses r.view (regionOf off) = true then 2 else 0) (h0 : code ≠ 0) :
    s.accessFails r off len w = some code := by
  rw [Serving.accessFails_eq hs]
  split_ifs at hc ⊢
  · rw [hc]
  · rw [hc]
  · rw [hc]
  · exact absurd hc h0

/-- An access that a check stops does not wait for the clock of its domain. -/
theorem State.waitsFor_refused {s : State} {r : CsReq} {off len code : Nat} {w : Bool}
    (hf : s.accessFails r off len w = some code) : s.waitsFor r off len w = false := by
  unfold State.waitsFor
  rw [hf]
  rfl

/-- A refused write leaves nothing but its status and REG_ACCESS. -/
theorem State.csWrite_refused {s : State} {r : CsReq} {off len code : Nat} {v : Word} {f : Fetch} {op : State → State}
    (hs : Serving s) (hh : s.heldCs = []) (hf : s.accessFails r off len true = some code) :
    s.csWrite r off len v f op = ({ s with resp := ⟨code, 0⟩ } : State).logAccess r off := by
  unfold State.csWrite State.csWriteNow
  rw [Serving.not_dead hs, Serving.not_waiting hs hh, State.waitsFor_refused hf, hf]
  rfl

/-- A read that waits for no clock is performed, with no access held before it. -/
theorem State.csRead_now {s : State} {r : CsReq} {off len : Nat} (hs : Serving s) (hh : s.heldCs = [])
    (hw : s.waitsFor r off len false = false) : s.csRead r off len = s.csReadNow r off len := by
  unfold State.csRead
  rw [Serving.not_dead hs, Serving.not_waiting hs hh, hw]
  rfl

/-- A refused read leaves nothing but its status and REG_ACCESS. -/
theorem State.csRead_refused {s : State} {r : CsReq} {off len code : Nat} (hs : Serving s) (hh : s.heldCs = [])
    (hf : s.accessFails r off len false = some code) :
    s.csRead r off len = ({ s with resp := ⟨code, 0⟩ } : State).logAccess r off := by
  rw [State.csRead_now hs hh (State.waitsFor_refused hf)]
  unfold State.csReadNow
  rw [hf]

/-- A management read of a register in a domain that runs answers its word and clears its RC fields (R8). -/
theorem State.csRead_management {s : State} {r : CsReq} {off : Nat} (h : ManagementMay r s) (hd : s.slotStopped off = false)
    (ha : off % 8 = 0) (hr : (regAt off).isSome = true) :
    s.csRead r off 8 = ({ s with resp := ⟨0, s.readWord off⟩ } : State).clearRc off := by
  obtain ⟨hn, hv, hs, hh⟩ := h
  rw [State.csRead_now hs hh (State.waitsFor_running hd r 8 false)]
  unfold State.csReadNow
  rw [State.accessFails_none hs hn (by omega) ha hr (by rw [hv]; exact viewRefuses_management _)]
  exact if_neg (by omega)

/-! ### A plain register write (R8) -/

/-- A write in the management region of a register without an operation of its own acts as the register's access codes say. -/
theorem State.writeEffect_plain {s : State} {r : CsReq} {off : Nat} {v : Word} {f : Fetch} (hlo : 0x100000 ≤ off)
    (hhi : off < 0x1000000) (hfrm : off ≠ Row.FRM_CTRL.base) (hkat : off ≠ Row.RFL_KAT_CTRL.base)
    (hcom : off ∉ fixedRegions.map commitOff) : s.writeEffect r off v f = s.writeReg off v := by
  have hregion : regionOf off = .management := by
    unfold regionOf
    rw [if_neg (by omega), if_pos hhi]
  have hreset : off ≠ Row.GLB_RESET.base := by
    have : Row.GLB_RESET.base < 0x100000 := by decide
    omega
  have hinj : off ≠ Row.TST_INJ.base := by
    have : 0x1000000 ≤ Row.TST_INJ.base := by decide
    omega
  have hnone : fixedRegions.find? (fun c => commitOff c == off) = none := by
    rw [List.find?_eq_none]
    intro c hc he
    exact hcom (List.mem_map.2 ⟨c, hc, beq_iff_eq.1 he⟩)
  unfold State.writeEffect
  rw [hregion]
  unfold State.topEffect
  rw [if_neg hreset, if_neg hfrm, if_neg hkat, if_neg hinj, hnone]

/-- What a write of a register stores, by the kind of the register. -/
theorem State.writeReg_eq {s : State} {off : Nat} {v : Word} {row : RegRow} {ix : List Nat} (h : regAt off = some (row, ix)) :
    s.writeReg off v =
      if s.writeIgnored row ix = true then s
      else if row.shadowed then { s with shadow := s.shadow.set off (storeFields .rws row.fields (s.shadow.get off) v) }
      else if row.base = Row.FLT_CAP_ADDR.base then (if getBits v 63 1 = 1 then s.clearCapture off else s)
      else if isSetting off then
        (s.setReg off (clearOnes row.fields (storeFields .rw row.fields (s.regs.get off) v) v)).saveSettings
      else s.setReg off (clearOnes row.fields (storeFields .rw row.fields (s.regs.get off) v) v) := by
  unfold State.writeReg
  rw [h]

/-- A write of a register reaches the two copies of the register file and retained memory alone. -/
theorem State.writeReg_frame (s : State) (off : Nat) (v : Word) :
    ∃ q x m, s.writeReg off v = { s with regs := q, shadow := x, retained := m } := by
  cases hr : regAt off with
  | none => exact ⟨s.regs, s.shadow, s.retained, by unfold State.writeReg; rw [hr]⟩
  | some p =>
    rw [State.writeReg_eq hr]
    split
    · exact ⟨_, _, _, rfl⟩
    split
    · exact ⟨_, _, _, rfl⟩
    split
    · split <;> exact ⟨_, _, _, rfl⟩
    · split <;> exact ⟨_, _, _, rfl⟩

/-- A write of a register starts no work. -/
theorem State.writeReg_calm {s : State} (h : Calm s) (off : Nat) (v : Word) : Calm (s.writeReg off v) := by
  obtain ⟨q, x, m, e⟩ := s.writeReg_frame off v
  rw [e]
  exact h

/-! ### A commit that becomes live (R71) -/

/-- A register file with the values that another one has at some offsets. -/
def RegFile.setAll (r c : RegFile) (l : List Nat) : RegFile := l.foldl (fun q o => q.set o (c.get o)) r

theorem RegFile.wf_setAll {r : RegFile} (c : RegFile) (l : List Nat) (h : r.wf = true) : (r.setAll c l).wf = true := by
  induction l generalizing r with
  | nil => exact h
  | cons o l ih => exact ih (RegFile.wf_set h)

theorem RegFile.get_setAll_other (r c : RegFile) {l : List Nat} {a : Nat} (ha : a ∉ l) : (r.setAll c l).get a = r.get a := by
  induction l generalizing r with
  | nil => rfl
  | cons o l ih =>
    rw [List.mem_cons, not_or] at ha
    exact (ih (r.set o (c.get o)) ha.2).trans (RegFile.get_set_other r _ ha.1)

theorem RegFile.get_setAll_mem {r : RegFile} (c : RegFile) {l : List Nat} {a : Nat} (h : r.wf = true) (ha : a ∈ l) :
    (r.setAll c l).get a = c.get a := by
  induction l generalizing r with
  | nil => cases ha
  | cons o l ih =>
    by_cases hl : a ∈ l
    · exact ih (RegFile.wf_set h) hl
    · obtain rfl : a = o := (List.mem_cons.1 ha).resolve_right hl
      exact (RegFile.get_setAll_other _ c hl).trans (RegFile.get_set_same h a _)

/-- Writing registers one after the other reaches the live register file alone. -/
theorem State.foldl_setReg_eq (s : State) (c : RegFile) (l : List Nat) :
    l.foldl (fun (s : State) o => s.setReg o (c.get o)) s = { s with regs := s.regs.setAll c l } := by
  induction l generalizing s with
  | nil => rfl
  | cons o l ih => exact ih (s.setReg o (c.get o))

/-- Writing fields leaves the registers that hold none of them. -/
theorem State.get_setFlds_other (s : State) {l : List (Field × Nat)} {a : Nat} (ha : ∀ x ∈ l, x.1.off ≠ a) :
    (s.setFlds l).regs.get a = s.regs.get a := by
  induction l generalizing s with
  | nil => rfl
  | cons x l ih =>
    exact (ih (s.setFld x.1 x.2) (fun y hy => ha y (List.mem_cons_of_mem x hy))).trans
      (RegFile.get_set_other s.regs _ (ha x List.mem_cons_self).symm)

/-- The end of a commit writes COMMIT_STATUS alone (R73). -/
theorem State.endCommit_eq (s : State) (g : Region) (result rule : Nat) :
    s.endCommit g result rule = { s with regs := (s.endCommit g result rule).regs } := by
  obtain ⟨q, e⟩ : ∃ q, s.endCommit g result rule = { s with regs := q } := State.setFlds_eq s _
  rw [e]

theorem State.get_endCommit_other (s : State) (g : Region) (result rule : Nat) {a : Nat} (ha : a ≠ commitOff g + 8) :
    (s.endCommit g result rule).regs.get a = s.regs.get a := by
  refine s.get_setFlds_other (fun x hx => ?_)
  have hoff : x.1.off = commitOff g + 8 := by
    simp only [List.mem_cons, List.not_mem_nil, or_false] at hx
    rcases hx with rfl | rfl | rfl | rfl <;> rfl
  rw [hoff]
  exact ha.symm

/-- COMMIT_STATUS is no register of its region. -/
theorem commitStatus_not_mem (g : Region) : commitOff g + 8 ∉ regionRegs g := by
  cases g with
  | page t =>
    simp only [regionRegs, commitOff, pageOff, Row.TEN_COMMIT, F.TEN_WIN_BASE_BASE, F.TEN_WIN_LIMIT_LIMIT, List.mem_flatMap,
      List.mem_cons, List.not_mem_nil, or_false, List.mem_range]
    rintro ⟨i, -, h⟩
    omega
  | reservoir => decide
  | platen => decide
  | trim => decide
  | delta => decide
  | ptc => decide

/-- The live register file once captured values have become live and COMMIT_STATUS says so (R71, R73). -/
def State.liveRegs (s : State) (g : Region) (c : RegFile) : RegFile :=
  (State.endCommit { s with regs := s.regs.setAll c (regionRegs g) } g 1 0).regs

/-- Becoming live changes the live register file and part 2 of retained memory alone, where nothing is evaluated at once. -/
theorem State.makeLive_eq (s : State) {g : Region} (c : RegFile) (hr : g ≠ .reservoir) (hp : g ≠ .ptc) :
    s.makeLive g c = { s with
      regs := s.liveRegs g c
      retained := { s.retained with part2 := some ((s.liveRegs g c).filter (fun e => isSetting e.1)) } } := by
  have hafter : ∀ u : State, u.afterCommit g = u := by
    cases g with
    | reservoir => exact absurd rfl hr
    | ptc => exact absurd rfl hp
    | page _ | platen | trim | delta => exact fun _ => rfl
  unfold State.makeLive
  simp only [hafter, State.foldl_setReg_eq]
  rw [State.endCommit_eq]
  rfl

/-- Registers outside the region, COMMIT_STATUS aside, stay as they are. -/
theorem State.get_liveRegs_other (s : State) {g : Region} (c : RegFile) {a : Nat} (ha : a ∉ regionRegs g)
    (hc : a ≠ commitOff g + 8) : (s.liveRegs g c).get a = s.regs.get a :=
  (State.get_endCommit_other _ g 1 0 hc).trans (RegFile.get_setAll_other s.regs c ha)

/-- The region's registers take the captured values. -/
theorem State.get_liveRegs_mem {s : State} {g : Region} (c : RegFile) {a : Nat} (h : s.regs.wf = true) (ha : a ∈ regionRegs g) :
    (s.liveRegs g c).get a = c.get a :=
  (State.get_endCommit_other _ g 1 0 (fun e => commitStatus_not_mem g (e ▸ ha))).trans (RegFile.get_setAll_mem c h ha)

/-! ### The reset state (R11, R480) -/

/-- Every register of the empty file reads its reset word. -/
theorem RegFile.get_nil (off : Nat) : RegFile.get [] off = resetWord off := rfl

theorem State.reset_sound : Sound State.reset := by
  refine ⟨fun h => ?_, ⟨List.length_replicate, fun x hx => ?_⟩, ⟨Nat.zero_le _, Nat.zero_le _⟩, rfl, rfl⟩
  · exact absurd h Bool.false_ne_true
  · rw [List.eq_of_mem_replicate hx]
    exact Nat.zero_le _

/-! ### The statements -/

/-- Settles O6: while READY is set the first check that fails gives the status, and no clock is awaited for it. -/
theorem hostAccessRefused : Obligations.HostAccessRefused := by
  intro s r off len v code hs hh hc h0
  constructor
  · rw [exec_registerWrite, State.hostWrite, State.csWrite_refused hs hh (Serving.accessFails_refused hs hc h0)]
  · rw [exec_registerRead, State.csRead_refused hs hh (Serving.accessFails_refused hs hc h0)]

/-- Settles O8: no check stops the management view, and the read is performed at once. -/
theorem registerReadAnswers : Obligations.RegisterReadAnswers := by
  intro s r off h hd ha hr
  rw [exec_registerRead, State.csRead_management h hd ha hr]

/-- Settles O9: the write acts as the access codes say, and on a calm state nothing follows it. -/
theorem registerWriteStores : Obligations.RegisterWriteStores := by
  intro s r off v row ix h hd ha hlo hhi hfrm hkat hcom hreg q t
  have ht : (answered s).writeReg off v = t := State.writeReg_eq hreg
  have hexec : exec (.registerWrite r off 8 v) s = .next t.finish := by
    rw [exec_registerWrite, State.hostWrite_eq h ha (by rw [hreg]; rfl) (viewRefuses_management _) hd,
      State.writeEffect_plain hlo hhi hfrm hkat hcom, ht]
  refine ⟨hexec, fun hcalm => ?_⟩
  have htcalm : Calm t := ht ▸ State.writeReg_calm (s := answered s) hcalm off v
  rw [hexec, State.finish_calm htcalm]

/-- Settles O19: the next live file is the old one with the captured values and COMMIT_STATUS in it. -/
theorem makeLiveSetsRegion : Obligations.MakeLiveSetsRegion := by
  intro s g c hr hp
  refine ⟨s.liveRegs g c, _, s.makeLive_eq c hr hp, rfl, rfl, rfl, ?_, ?_⟩
  · exact fun _ off hoff hst => s.get_liveRegs_other c hoff hst
  · exact fun hw off hoff => State.get_liveRegs_mem c hw hoff

/-- Settles O3: the reset state holds no entry in either register file, and is sound. -/
theorem resetState : Obligations.ResetState :=
  ⟨rfl, rfl, rfl, fun off => ⟨RegFile.get_nil off, RegFile.get_nil off⟩, rfl, rfl, rfl, rfl, rfl, rfl, State.reset_sound⟩

end Sys2Proof.Machine
end

section
/-! PROOFS of the statements about every step's invariant, the starts, the work that follows a command, and time: what any command
leaves sound (R18, R33, R132), what a start ends in (R74, R482 to R488), and what a strobe moves (R449, R479, R497). -/

namespace Sys2Proof.Machine

open Sys2Proof.Safety

/-! ### Every step is sound -/

/-- A command whose meaning ends with the work after every command. -/
theorem Holds.of_finish {s x t : State} (h : Holds s x) (ht : (.next x.finish : Host.Outcome State Fault Refusal) = .next t) :
    Holds s t := by
  injection ht with ht
  exact ht ▸ h.finish

/-- Every command leaves the queue as it is and keeps the invariant: the starts, and the guard writes that may let one go on, by
their own rules, and any other because it is steady. -/
theorem exec_holds (c : Instr) {s t : State} (h : exec c s = .next t) : Holds s t := by
  cases c with
  | lockUp _ _ => exact (execLockUp_steady (Steady.refl s) h).holds
  | amendment _ _ => exact (execAmendment_steady (Steady.refl s) h).holds
  | cancel _ => exact (execCancel_steady (Steady.refl s) h).holds
  | quoin => exact (execQuoin_steady (Steady.refl s) h).holds
  | quoinTimeout => exact (execQuoinTimeout_steady (Steady.refl s) h).holds
  | amendQuoin => exact (execAmendQuoin_steady (Steady.refl s) h).holds
  | amendReservationsHeld => exact (execAmendReservationsHeld_steady (Steady.refl s) h).holds
  | amendClaimTimeout => exact (execAmendClaimTimeout_steady (Steady.refl s) h).holds
  | retainDone => exact (execRetainDone_steady (Steady.refl s) h).holds
  | commitGo _ _ => exact (execCommitGo_steady (Steady.refl s) h).holds
  | commitApply _ => exact (execCommitApply_steady (Steady.refl s) h).holds
  | tenancyReset _ _ => exact (execTenancyReset_steady (Steady.refl s) h).holds
  | ringEnableSq _ _ _ _ => exact (execRingEnableSq_steady (Steady.refl s) h).holds
  | ringDisableSq _ _ _ => exact (execRingDisableSq_steady (Steady.refl s) h).holds
  | ringEnableCq _ _ _ _ => exact (execRingEnableCq_steady (Steady.refl s) h).holds
  | ringDisableCq _ _ _ => exact (execRingDisableCq_steady (Steady.refl s) h).holds
  | tenSqTable _ _ _ => exact (execTenSqTable_steady (Steady.refl s) h).holds
  | tenCqTable _ _ _ => exact (execTenCqTable_steady (Steady.refl s) h).holds
  | tenLiveTable _ _ _ => exact (execTenLiveTable_steady (Steady.refl s) h).holds
  | doorbell _ _ _ => exact (execDoorbell_steady (Steady.refl s) h).holds
  | cqDoorbell _ _ _ => exact (execCqDoorbell_steady (Steady.refl s) h).holds
  | pushDrain _ => exact (execPushDrain_steady (Steady.refl s) h).holds
  | sqEntryFetch _ => exact (execSqEntryFetch_steady (Steady.refl s) h).holds
  | taskRelease => exact (execTaskRelease_steady (Steady.refl s) h).holds
  | liveDoorbell _ _ _ _ => exact (execLiveDoorbell_steady (Steady.refl s) h).holds
  | livePush _ _ _ => exact (execLivePush_steady (Steady.refl s) h).holds
  | livePostTake _ _ => exact (execLivePostTake_steady (Steady.refl s) h).holds
  | encodeStart _ _ => exact (execEncodeStart_steady (Steady.refl s) h).holds
  | pieceDispatch _ _ => exact (execPieceDispatch_steady (Steady.refl s) h).holds
  | parkedUnitReady _ => exact (execParkedUnitReady_steady (Steady.refl s) h).holds
  | chunkWrite _ => exact (execChunkWrite_steady (Steady.refl s) h).holds
  | pktDoorbell _ _ _ => exact (execPktDoorbell_steady (Steady.refl s) h).holds
  | taskEnd _ => exact (execTaskEnd_steady (Steady.refl s) h).holds
  | completionWrite _ => exact (execCompletionWrite_steady (Steady.refl s) h).holds
  | irqDelayExpire _ => exact (execIrqDelayExpire_steady (Steady.refl s) h).holds
  | berthEvict => exact (execBerthEvict_steady (Steady.refl s) h).holds
  | swapComplete => exact (execSwapComplete_steady (Steady.refl s) h).holds
  | poolWaitTimeout _ => exact (execPoolWaitTimeout_steady (Steady.refl s) h).holds
  | tenGalleyStep _ _ _ => exact (execTenGalleyStep_steady (Steady.refl s) h).holds
  | step _ _ => exact (execStep_steady (Steady.refl s) h).holds
  | heldStepStart _ => exact (execHeldStepStart_steady (Steady.refl s) h).holds
  | galleyLeave _ _ _ => exact (execGalleyLeave_steady (Steady.refl s) h).holds
  | galleySkip _ _ _ => exact (execGalleySkip_steady (Steady.refl s) h).holds
  | galleyFlush _ _ _ => exact (execGalleyFlush_steady (Steady.refl s) h).holds
  | holdUsExpire _ => exact (execHoldUsExpire_steady (Steady.refl s) h).holds
  | holdLimit _ => exact (execHoldLimit_steady (Steady.refl s) h).holds
  | deltaAltSet _ _ _ => exact (execDeltaAltSet_steady (Steady.refl s) h).holds
  | deltaAltClear _ _ _ => exact (execDeltaAltClear_steady (Steady.refl s) h).holds
  | fallback _ _ => exact (execFallback_steady (Steady.refl s) h).holds
  | layerDone _ _ => exact (execLayerDone_steady (Steady.refl s) h).holds
  | tenDeltaDone _ _ _ => exact (execTenDeltaDone_steady (Steady.refl s) h).holds
  | drainTimeout _ => exact (execDrainTimeout_steady (Steady.refl s) h).holds
  | staggerGroupStart _ => exact (execStaggerGroupStart_steady (Steady.refl s) h).holds
  | rdData _ _ _ => exact (execRdData_steady (Steady.refl s) h).holds
  | ack _ _ => exact (execAck_steady (Steady.refl s) h).holds
  | fabricTimeout _ => exact (execFabricTimeout_steady (Steady.refl s) h).holds
  | linkCrcFail _ => exact (execLinkCrcFail_steady (Steady.refl s) h).holds
  | creditViolation _ => exact (execCreditViolation_steady (Steady.refl s) h).holds
  | faultEvent _ _ => exact (execFaultEvent_steady (Steady.refl s) h).holds
  | railFault _ _ => exact (execRailFault_steady (Steady.refl s) h).holds
  | railFaultEnd _ => exact (execRailFaultEnd_steady (Steady.refl s) h).holds
  | escalationDecay _ => exact (execEscalationDecay_steady (Steady.refl s) h).holds
  | collectorSelfCheck _ => exact (execCollectorSelfCheck_steady (Steady.refl s) h).holds
  | watchdog _ => exact (execWatchdog_steady (Steady.refl s) h).holds
  | grdTko _ _ => exact Holds.of_finish State.guardPutNamed_holds h
  | takeoverClaimTimeout => exact (execTakeoverClaimTimeout_steady (Steady.refl s) h).holds
  | guardRead _ => exact (execGuardRead_steady (Steady.refl s) h).holds
  | guardWrite _ _ => exact Holds.of_finish State.guardWrite_holds h
  | guardRepair _ _ => exact (execGuardRepair_steady (Steady.refl s) h).holds
  | grdVtableCrc _ => exact Holds.of_finish State.guardPutNamed_holds h
  | forget => exact Holds.of_finish State.guardPutNamed_holds h
  | delivered _ => exact Holds.of_finish State.guardPutNamed_holds h
  | grdFltSrc _ _ => exact Holds.of_finish State.guardPutNamed_holds h
  | aonRstNLow => exact (execAonRstNLow_steady (Steady.refl s) h).holds
  | coldStart _ _ _ => exact (execColdStart_steady (Steady.refl s) h).holds
  | tmodeChange _ => exact (execTmodeChange_steady (Steady.refl s) h).holds
  | instRstNLow => exact (execInstRstNLow_steady (Steady.refl s) h).holds
  | warmStart _ _ => exact Holds.of_finish State.warmStart_holds h
  | glbResetWarm _ _ => exact (execGlbResetWarm_steady (Steady.refl s) h).holds
  | perDomainReset _ _ _ => exact (execPerDomainReset_steady (Steady.refl s) h).holds
  | formeReload _ _ _ => exact (execFormeReload_steady (Steady.refl s) h).holds
  | flushTimeout => exact (execFlushTimeout_steady (Steady.refl s) h).holds
  | clkRun _ => exact (execClkRun_steady (Steady.refl s) h).holds
  | clkIdle _ => exact (execClkIdle_steady (Steady.refl s) h).holds
  | clkWakeTimeout _ => exact (execClkWakeTimeout_steady (Steady.refl s) h).holds
  | clockLoss _ => exact (execClockLoss_steady (Steady.refl s) h).holds
  | vrAlertNFall => exact (execVrAlertNFall_steady (Steady.refl s) h).holds
  | vrAlertNRise => exact (execVrAlertNRise_steady (Steady.refl s) h).holds
  | alertHoldExpire => exact (execAlertHoldExpire_steady (Steady.refl s) h).holds
  | barrierHint => exact (execBarrierHint_steady (Steady.refl s) h).holds
  | barrierRelease => exact (execBarrierRelease_steady (Steady.refl s) h).holds
  | rampStep => exact (execRampStep_steady (Steady.refl s) h).holds
  | hintMaxExpire => exact (execHintMaxExpire_steady (Steady.refl s) h).holds
  | timeSync _ => exact (execTimeSync_steady (Steady.refl s) h).holds
  | syncLoss => exact (execSyncLoss_steady (Steady.refl s) h).holds
  | peerAliveEdge => exact (execPeerAliveEdge_steady (Steady.refl s) h).holds
  | peerSeenExpire => exact (execPeerSeenExpire_steady (Steady.refl s) h).holds
  | aliveToggle => exact (execAliveToggle_steady (Steady.refl s) h).holds
  | share _ => exact (execShare_steady (Steady.refl s) h).holds
  | meas _ => exact (execMeas_steady (Steady.refl s) h).holds
  | measStale => exact (execMeasStale_steady (Steady.refl s) h).holds
  | agreeExpire => exact (execAgreeExpire_steady (Steady.refl s) h).holds
  | vack _ => exact (execVack_steady (Steady.refl s) h).holds
  | vreqTimeout => exact (execVreqTimeout_steady (Steady.refl s) h).holds
  | vreqRetry => exact (execVreqRetry_steady (Steady.refl s) h).holds
  | stepUp => exact (execStepUp_steady (Steady.refl s) h).holds
  | capEvaluate => exact (execCapEvaluate_steady (Steady.refl s) h).holds
  | tempSample _ => exact (execTempSample_steady (Steady.refl s) h).holds
  | tjMaxStep => exact (execTjMaxStep_steady (Steady.refl s) h).holds
  | currentEstimate => exact (execCurrentEstimate_steady (Steady.refl s) h).holds
  | edcTimerExpire => exact (execEdcTimerExpire_steady (Steady.refl s) h).holds
  | droop => exact (execDroop_steady (Steady.refl s) h).holds
  | droopEnd => exact (execDroopEnd_steady (Steady.refl s) h).holds
  | boostBudgetEnd => exact (execBoostBudgetEnd_steady (Steady.refl s) h).holds
  | boostBinRoll => exact (execBoostBinRoll_steady (Steady.refl s) h).holds
  | boostBinsSave => exact (execBoostBinsSave_steady (Steady.refl s) h).holds
  | offloadWindow => exact (execOffloadWindow_steady (Steady.refl s) h).holds
  | katGo _ _ => exact (execKatGo_steady (Steady.refl s) h).holds
  | katDone => exact (execKatDone_steady (Steady.refl s) h).holds
  | tstInj _ _ => exact (execTstInj_steady (Steady.refl s) h).holds
  | registerWrite _ _ _ _ => exact (execRegisterWrite_steady (Steady.refl s) h).holds
  | registerRead _ _ _ => exact (execRegisterRead_steady (Steady.refl s) h).holds
  | badMsg _ _ _ => exact (execBadMsg_steady (Steady.refl s) h).holds
  | guardTransactionGap => exact (execGuardTransactionGap_steady (Steady.refl s) h).holds
  | weirBucketRefill => exact (execWeirBucketRefill_steady (Steady.refl s) h).holds
  | staggerHoldLimit => exact (execStaggerHoldLimit_steady (Steady.refl s) h).holds
  | staggerWindowClose => exact (execStaggerWindowClose_steady (Steady.refl s) h).holds
  | instanceSupplyLoss => exact (execInstanceSupplyLoss_steady (Steady.refl s) h).holds
  | alwaysOnSupplyLoss => exact (execAlwaysOnSupplyLoss_steady (Steady.refl s) h).holds

/-- A cycle of TCLK moves local time alone. -/
theorem State.tclkCycle_steady (s : State) : Steady s s.tclkCycle := by
  unfold State.tclkCycle
  split
  · exact Steady.refl s
  · extract_lets since
    split
    · exact Steady.upd_time (Steady.refl s)
    · exact Steady.upd_time (Steady.refl s)

/-! ### What a start is judged by -/

/-- What the outcome of a start is stated of. -/
structure StartView where
  life      : Life
  ready     : Bool
  lastStart : Nat
  credits   : Nat
  tmode     : Bool
  instLow   : Bool
  forme     : Forme
  part1     : Option (Forme × Nat × Nat)

/-- The state as a start's outcome sees it. -/
def State.startView (s : State) : StartView :=
  ⟨s.life, s.ready, s.lastStart, s.credits, s.tmode, s.instLow, s.forme, s.retained.part1⟩

section
variable (s : State)

theorem State.setFld_startView (f : Field) (v : Nat) : (s.setFld f v).startView = s.startView := rfl

theorem State.incFld_startView (f : Field) : (s.incFld f).startView = s.startView := rfl

theorem State.raise_startView (n : Nat) (i : FaultInfo) : (s.raise n i).startView = s.startView := rfl

theorem State.raiseOn_startView (n : Nat) (c : Charge) : (s.raiseOn n c).startView = s.startView := rfl

theorem State.modPtc_startView (g : PtcRun → PtcRun) : (s.modPtc g).startView = s.startView := rfl

theorem State.takeLimits_startView : s.takeLimits.startView = s.startView := rfl

theorem State.withPtc_startView (c : PtcRun) : ({ s with ptc := c } : State).startView = s.startView := rfl

theorem State.withFenced_startView (l : List FenceUnit) : ({ s with fencedUnits := l } : State).startView = s.startView := rfl

theorem State.withPart2_startView (l : Option RegFile) :
    ({ s with retained := { s.retained with part2 := l } } : State).startView = s.startView := rfl

theorem State.withPart3_startView (l : Option (List Nat)) :
    ({ s with retained := { s.retained with part3 := l } } : State).startView = s.startView := rfl

end

theorem State.foldl_startView {α : Type} {f : State → α → State} (hf : ∀ t x, (f t x).startView = t.startView) (l : List α)
    (s : State) : (l.foldl f s).startView = s.startView := by
  induction l generalizing s with
  | nil => rfl
  | cons x l ih => exact (ih (f s x)).trans (hf s x)

theorem State.setFlds_startView (s : State) (l : List (Field × Nat)) : (s.setFlds l).startView = s.startView := by
  obtain ⟨q, h⟩ := s.setFlds_eq l
  rw [h]
  rfl

/-! ### Power at a start (R417, R482, R484) -/

theorem State.startTable_startView (s : State) : s.startTable.startView = s.startView := by
  unfold State.startTable
  extract_lets +onlyGivenNames x
  split
  · rw [State.modPtc_startView, State.setFld_startView, State.takeLimits_startView]
  · extract_lets y
    rw [State.raiseOn_startView, State.modPtc_startView, State.setFld_startView, State.takeLimits_startView]

theorem State.record_startView (s : State) (i : Nat) : (s.record i).startView = s.startView := by
  unfold State.record
  extract_lets +onlyGivenNames old c on now base put
  split
  · extract_lets y
    rw [State.setFld_startView, State.setFld_startView, State.withPtc_startView]
  · extract_lets y
    rw [State.setFld_startView, State.withPtc_startView]
  · rw [State.withPtc_startView]

theorem State.bankBoost_startView (s : State) : s.bankBoost.startView = s.startView := by
  unfold State.bankBoost
  split
  · exact s.modPtc_startView _
  · rfl

theorem State.enterState_startView (s : State) (p : Nat) : (s.enterState p).startView = s.startView := by
  unfold State.enterState
  split
  · rfl
  · extract_lets why x y
    rw [State.modPtc_startView]
    simp only [y]
    split
    · exact (x.modPtc_startView _).trans s.bankBoost_startView
    · rfl

theorem State.followVoltage_startView (s : State) : s.followVoltage.startView = s.startView := by
  obtain ⟨m, v, a, k, h⟩ := s.followVoltage_ptc
  rw [h]
  rfl

theorem State.settlePtc_startView (s : State) : s.settlePtc.startView = s.startView := by
  unfold State.settlePtc
  extract_lets used low x y a e z
  have hy : y.startView = s.startView :=
    (State.foldl_startView State.record_startView _ x).trans (s.modPtc_startView _)
  rw [State.modPtc_startView, ← hy]
  simp only [z]
  split
  · exact (State.followVoltage_startView e).trans (((y.enterState a).modPtc_startView _).trans (y.enterState_startView a))
  · split
    · exact (State.followVoltage_startView _).trans (y.modPtc_startView _)
    · rfl

theorem State.writeBins_startView (s : State) : s.writeBins.startView = s.startView :=
  (s.bankBoost.withPart3_startView _).trans s.bankBoost_startView

theorem State.restoreBins_startView (s : State) : s.restoreBins.startView = s.startView := by
  unfold State.restoreBins
  extract_lets x
  split
  · exact (x.modPtc_startView _).trans s.takeLimits_startView
  · exact (x.modPtc_startView _).trans s.takeLimits_startView

/-! ### Ports, retained memory, and the blank forme (R74, R483, R488) -/

theorem State.noCredits_startView (s : State) (p : Nat) : (s.noCredits p).startView = s.startView := by
  unfold State.noCredits
  split
  · rfl
  · rw [State.setFlds_startView, State.incFld_startView, State.withFenced_startView]

theorem State.exchange_startView (s : State) : s.exchange.startView = s.startView := by
  unfold State.exchange
  refine State.foldl_startView (fun t p => ?_) _ s
  split
  · rfl
  · exact t.noCredits_startView p

theorem State.checkParts_startView (s : State) : s.checkParts.startView = s.startView := by
  have hraise : ∀ (c : Prop) [Decidable c] (t : State) (i : FaultInfo),
      (if c then t.raise 0x2E i else t).startView = t.startView := fun c _ t i => by
    split
    · exact t.raise_startView _ _
    · rfl
  exact (hraise _ _ _).trans ((hraise _ _ _).trans (hraise _ s _))

theorem State.postEntry_startView (s : State) (d : DueEntry) : (s.postEntry d).startView = s.startView := rfl

theorem State.unbindPort_startView (s : State) (p : Nat) : (s.unbindPort p).startView = s.startView := rfl

theorem State.quoinPorts_startView (s : State) (old : Forme) : (s.quoinPorts old).startView = s.startView := by
  unfold State.quoinPorts
  extract_lets bound same x
  have hx : x.startView = s.startView := by
    refine State.foldl_startView (fun t r => ?_) _ s
    split
    · rfl
    · split
      · exact (State.foldl_startView (fun u q => u.postEntry_startView _) r.pending _).trans (t.unbindPort_startView _)
      · rfl
  exact hx

/-- Under a forme without pools the stations start anew, and nothing that a start is judged by changes. -/
theorem State.freshStations_startView {s : State} (h : s.forme.defs = []) (old : Forme) :
    (s.freshStations old).startView = s.startView := by
  have hpools : ∀ t : State, t.forme.defs = [] → t.rebuildPools.startView = t.startView := fun t ht => by
    unfold State.rebuildPools
    rw [State.recheckPools_nil (by exact ht)]
    rfl
  exact (State.quoinPorts_startView _ old).trans (hpools _ h)

theorem State.putBlank_startView (s : State) : s.putBlank.startView = { s.startView with forme := Forme.blank } :=
  State.freshStations_startView (s := { s with
    forme := Forme.blank, amends := 0, adm := flowAdms Forme.blank (takenFresh Forme.blank 1)
    servers := serverAdms Forme.blank 1 (takenFresh Forme.blank 1), fencedLanes := [], fencedEngines := [] }) rfl s.forme

/-! ### The ends of the starts (R18, R482, R484) -/

/-- The last step of a start: the life is up, and READY is set when every port has credits outside test mode. -/
theorem State.endStart_startView (s : State) (kind : Nat) : (s.endStart kind).startView = { s.startView with
    life := .up, ready := decide (s.credits = 0xFFFF) && !s.tmode, lastStart := kind } := by
  unfold State.endStart
  extract_lets ok x y
  have hy : y.startView = x.startView := by
    simp only [y]
    split
    · rfl
    · rfl
  exact ((State.followVoltage_startView _).trans ((State.settlePtc_startView _).trans ((State.writeBins_startView _).trans
    (y.withPart2_startView _)))).trans hy

/-- A cold start that TMODE and INST_RST_N let end: the blank forme is live and retained. -/
theorem State.finishCold_startView {s : State} (ht : s.tmode = false) (hi : s.instLow = false) :
    ∃ ps, s.finishCold.startView = { s.startView with
      life := .up, ready := decide (s.credits = 0xFFFF), lastStart := 1, forme := Forme.blank, part1 := some (Forme.blank, ps) } := by
  unfold State.finishCold
  extract_lets +onlyGivenNames x
  have hx : x.startView = s.startView := (State.exchange_startView _).trans s.startTable_startView
  clear_value x
  rw [if_neg (by rw [show x.tmode = s.tmode from congrArg StartView.tmode hx, ht]; decide),
    if_neg (by rw [show x.instLow = s.instLow from congrArg StartView.instLow hx, hi]; decide)]
  extract_lets +onlyGivenNames y old z
  have hy : y.startView = { s.startView with forme := Forme.blank } := by rw [← hx]; exact x.putBlank_startView
  clear_value y
  have hf : y.forme = Forme.blank := congrArg StartView.forme hy
  have hz : z.startView = { s.startView with
      forme := Forme.blank, part1 := some (Forme.blank, y.amends, y.fld F.LKP_ADMIT_CFG_PSTATE_LIVE) } := by
    show { y.startView with part1 := some (y.forme, y.amends, y.fld F.LKP_ADMIT_CFG_PSTATE_LIVE) } = _
    rw [hy, hf]
  clear_value z
  refine ⟨(y.amends, y.fld F.LKP_ADMIT_CFG_PSTATE_LIVE), (z.endStart_startView 1).trans ?_⟩
  rw [hz, show z.credits = s.credits from congrArg StartView.credits hz,
    show z.tmode = false from (congrArg StartView.tmode hz).trans ht, Bool.not_false, Bool.and_true]

/-! ### The two commands -/

theorem exec_delivered (b : Bool) (s : State) : exec (.delivered b) s =
    .next (s.guardPutNamed Row.GRD_CTRL.base (BitVec.ofNat 64 (1 + 4 * b2n b)) []).finish := rfl

theorem exec_warmStart (f : Fetch) (credits : BitVec 16) (s : State) :
    exec (.warmStart f credits) s = .next (s.warmStart f credits.toNat).finish := rfl

/-- The state once DELIVERED is stored, with PEER_TOOK beside it. -/
def State.deliver (s : State) (b : Bool) : State :=
  ({ s with guardResp := ⟨0, none⟩ } : State).setFlds [(F.GRD_CTRL_DELIVERED, 1), (F.GRD_CTRL_PEER_TOOK, b2n b)]

theorem State.deliver_startView (s : State) (b : Bool) : (s.deliver b).startView = s.startView :=
  State.setFlds_startView _ _

theorem State.deliver_flag {s : State} (h : s.regs.wf = true) (b : Bool) : (s.deliver b).flag F.GRD_CTRL_DELIVERED = true := by
  have hfld : (s.deliver b).fld F.GRD_CTRL_DELIVERED = 1 :=
    State.fld_setFlds_head (s := { s with guardResp := ⟨0, none⟩ }) h (by decide) (by
      intro x hx
      obtain rfl := List.mem_singleton.1 hx
      exact ⟨(by decide : F.GRD_CTRL_PEER_TOOK.lo + F.GRD_CTRL_PEER_TOOK.width ≤ 64),
        (by decide : F.GRD_CTRL_DELIVERED.apart F.GRD_CTRL_PEER_TOOK)⟩)
  unfold State.flag
  rw [hfld]
  rfl

/-- DELIVERED is stored, and a cold start that waits goes on. -/
theorem State.guardPutNamed_delivered {s : State} (hl : s.life = .coldWait) (hw : s.regs.wf = true) (b : Bool) :
    s.guardPutNamed Row.GRD_CTRL.base (BitVec.ofNat 64 (1 + 4 * b2n b)) [] = (s.deliver b).finishCold := by
  have hbits : getBits (BitVec.ofNat 64 (1 + 4 * b2n b)) 1 1 = 0 ∧ getBits (BitVec.ofNat 64 (1 + 4 * b2n b)) 0 1 = 1 ∧
      getBits (BitVec.ofNat 64 (1 + 4 * b2n b)) 2 1 = b2n b := by
    cases b <;> decide
  obtain ⟨hforget, hone, hpeer⟩ := hbits
  have hup : s.guardUp = true := by
    unfold State.guardUp
    rw [hl]
    rfl
  have hcont : (s.deliver b).continueStart = (s.deliver b).finishCold := by
    unfold State.continueStart
    rw [show (s.deliver b).life = .coldWait from (congrArg StartView.life (s.deliver_startView b)).trans hl]
  have hctrl : s.writeGrdCtrl (BitVec.ofNat 64 (1 + 4 * b2n b)) = (s.deliver b).finishCold := by
    unfold State.writeGrdCtrl
    rw [if_neg (by omega), hone, hpeer]
    exact (if_pos (State.deliver_flag hw b)).trans hcont
  unfold State.guardPutNamed State.guardPut
  obtain ⟨row, hrow⟩ : ∃ row, regAt Row.GRD_CTRL.base = some row := Option.isSome_iff_exists.1 (by decide +kernel)
  rw [if_pos hup, ← hctrl, hrow]
  exact if_pos rfl

/-- With no message kept for the release of QCLK, none is applied. -/
theorem State.applyHeld_none {s : State} (h : s.pmHeld = (none, none, none)) : s.applyHeld = s := by
  unfold State.applyHeld
  rw [h]
  show ({ s with pmHeld := (none, none, none) } : State) = s
  rw [← h]

/-- With no access held, none is performed. -/
theorem State.replayHeld_nil {s : State} (h : s.heldCs = []) : s.replayHeld = s := by
  unfold State.replayHeld
  rw [h, List.foldl_nil, ← h]

/-- A warm start before it looks at DELIVERED: the parts of retained memory are checked, and the boost bins restored. -/
def State.warmChecked (s : State) (f : Fetch) (credits : Nat) : State :=
  let x := ({ s with
    instLow := false, life := .warmWait, startFetch := f, credits := credits, clk := ClkRun.all } : State).checkParts
  ({ x with retainedOk := x.retained.part1.isSome && x.retained.part2.isSome && x.retained.part3.isSome } : State).restoreBins

theorem State.warmChecked_startView (s : State) (f : Fetch) (credits : Nat) : (s.warmChecked f credits).startView =
    { s.startView with life := .warmWait, instLow := false, credits := credits } := by
  unfold State.warmChecked
  extract_lets +onlyGivenNames x
  exact (State.restoreBins_startView _).trans (State.checkParts_startView _)

theorem State.warmStart_eq {s : State} (hl : s.life = .warmLow) (hh : s.heldCs = []) (hp : s.pmHeld = (none, none, none))
    (f : Fetch) (credits : Nat) : s.warmStart f credits =
      if (s.warmChecked f credits).flag F.GRD_CTRL_DELIVERED = true then (s.warmChecked f credits).finishWarm
      else s.warmChecked f credits := by
  unfold State.warmStart
  rw [hl]
  extract_lets +onlyGivenNames x y z w
  have hy : y = x.checkParts := by simp only [y, State.replayHeld_nil (s := x) hh, State.applyHeld_none (s := x) hp]
  have hw : w = s.warmChecked f credits := by
    simp only [w, z, hy]
    rfl
  rw [hw]

/-! ### Strobes, their absence, and the alive signals (R33, R449, R479, R497) -/

/-- The local time unit is in reset in three lives alone. -/
theorem State.tclkHeld_eq_false {s : State} (hc : s.life ≠ .cold) (hn : s.life ≠ .noSupply) (hw : s.life ≠ .warmLow) :
    s.tclkHeld = false := by
  unfold State.tclkHeld State.dead State.qclkHeld
  simp [hc, hn, hw]

/-- The registers after a strobe is counted and the fields of a list are written. -/
def State.syncRegs (s : State) (l : List (Field × Nat)) : RegFile := ((s.incFld F.TIM_STATUS_SYNCS).setFlds l).regs

/-- The fields that a strobe in time writes beside its count: LOCKED, and the difference to TIME_BUS v. -/
def State.syncFlds (s : State) (v : Nat) : List (Field × Nat) :=
  [(F.TIM_STATUS_LOCKED, 1), (F.TIM_STATUS_LAST_STEP_NS, stepNs ((v : Int) - (s.time.now : Int)))]

/-- A strobe less than 1 µs after the one before is counted, and starts the spacing anew. -/
theorem State.timeSync_early {s : State} {x : Nat} (h : s.tclkHeld = false) (hx : s.time.since = some x) (hlt : x < 1000) (v : Nat) :
    s.timeSync v = { s with regs := s.syncRegs [], time := { s.time with since := some 0 } } := by
  have hearly : (s.incFld F.TIM_STATUS_SYNCS).time.since = some x := hx
  unfold State.timeSync
  simp only [h, hearly, hlt, decide_true, if_true, Bool.false_eq_true, if_false]
  rfl

/-- Writing fields and setting local time commute. -/
theorem State.setFlds_time (s : State) (x : TimeRun) (l : List (Field × Nat)) :
    ({ s with time := x } : State).setFlds l = { s.setFlds l with time := x } := by
  induction l generalizing s with
  | nil => rfl
  | cons y l ih => exact ih (s.setFld y.1 y.2)

/-- Any other strobe moves local time forward at once, or leaves the difference to be absorbed. -/
theorem State.timeSync_late {s : State} (h : s.tclkHeld = false) (hn : ¬ ∃ x, s.time.since = some x ∧ x < 1000) (v : Nat) :
    s.timeSync v = { s with
      regs := s.syncRegs (s.syncFlds v), time := ⟨max s.time.now v, s.time.now - v, some 0⟩ } := by
  unfold State.timeSync
  rw [if_neg (by rw [h]; exact Bool.false_ne_true)]
  extract_lets u early w d
  have hlate : early = false := by
    simp only [early]
    split
    · rename_i x hx
      exact decide_eq_false (fun hlt => hn ⟨x, hx, hlt⟩)
    · rfl
  rw [if_neg (by rw [hlate]; exact Bool.false_ne_true)]
  refine (u.setFlds_time _ (s.syncFlds v)).trans ?_
  obtain ⟨q, hq⟩ := u.setFlds_eq (s.syncFlds v)
  have hregs : s.syncRegs (s.syncFlds v) = q := congrArg State.regs hq
  rw [hq, hregs]
  rfl

/-- A strobe writes TIM_STATUS alone. -/
theorem State.get_syncRegs_other (s : State) {l : List (Field × Nat)} (hl : ∀ x ∈ l, x.1.off = Row.TIM_STATUS.base) {off : Nat}
    (ho : off ≠ Row.TIM_STATUS.base) : (s.syncRegs l).get off = s.regs.get off :=
  (State.get_setFlds_other _ (fun x hx e => ho (e.symm.trans (hl x hx)))).trans (State.setFld_get ho)

theorem State.syncFlds_off (s : State) (v : Nat) : ∀ x ∈ s.syncFlds v, x.1.off = Row.TIM_STATUS.base := by
  intro x hx
  simp only [State.syncFlds, List.mem_cons, List.not_mem_nil, or_false] at hx
  rcases hx with rfl | rfl <;> rfl

/-- An early strobe leaves LOCKED as it was. -/
theorem State.locked_syncRegs_nil {s : State} (h : s.regs.wf = true) :
    F.TIM_STATUS_LOCKED.of ((s.syncRegs []).get Row.TIM_STATUS.base) = s.fld F.TIM_STATUS_LOCKED :=
  State.fld_setFld_apart (f := F.TIM_STATUS_SYNCS) (g := F.TIM_STATUS_LOCKED) h (by decide) (by decide)

/-- Any other strobe sets LOCKED. -/
theorem State.locked_syncRegs {s : State} (h : s.regs.wf = true) (v : Nat) :
    F.TIM_STATUS_LOCKED.of ((s.syncRegs (s.syncFlds v)).get Row.TIM_STATUS.base) = 1 :=
  State.fld_setFlds_head (s := s.incFld F.TIM_STATUS_SYNCS) (State.setFld_wf h) (by decide) (by
    intro x hx
    obtain rfl := List.mem_singleton.1 hx
    exact ⟨(by decide : F.TIM_STATUS_LAST_STEP_NS.lo + F.TIM_STATUS_LAST_STEP_NS.width ≤ 64),
      (by decide : F.TIM_STATUS_LOCKED.apart F.TIM_STATUS_LAST_STEP_NS)⟩)

/-- 10 ms after the last strobe, counted in local time that absorbs what is left of a backward difference, LOCKED is 0. -/
theorem State.syncLoss_eq {s : State} {x : Nat} (h : s.tclkHeld = false) (hl : s.flag F.TIM_STATUS_LOCKED = true)
    (hx : s.time.since = some x) : s.syncLoss =
      (s.advance (s.time.now + (10000000 - x - min s.time.behind ((10000000 - x) / 2)))).setFld F.TIM_STATUS_LOCKED 0 := by
  unfold State.syncLoss
  rw [if_neg (by simp [h, hl]), hx]

theorem exec_timeSync (v : Word) (s : State) : exec (.timeSync v) s = .next (s.timeSync v.toNat) := rfl

theorem exec_syncLoss (s : State) : exec .syncLoss s = .next s.syncLoss := rfl

/-- An edge of PEER_ALIVE is seen, but for a cold reset. -/
theorem exec_peerAliveEdge {s : State} (hc : s.life ≠ .cold) :
    exec .peerAliveEdge s = .next { s with peerSeen := true, peerAt := s.time.now } :=
  congrArg Host.Outcome.next (if_neg hc)

/-- The peer is no more seen after two of its periods. -/
theorem exec_peerSeenExpire {s : State} (h : s.peerSeen = true) : exec .peerSeenExpire s =
    .next { s.advance (s.peerAt + 2 * s.fld F.GRD_ALIVE_PEER_PERIOD_US * 1000) with peerSeen := false } :=
  congrArg Host.Outcome.next (if_pos h)

theorem exec_aliveToggle (s : State) : exec .aliveToggle s = .next s.aliveToggle := rfl

/-! ### The statements -/

/-- Settles O5: an idle step is steady, and any other runs a command, which keeps the invariant. -/
theorem stepKeepsInvariant : Obligations.StepKeepsInvariant := by
  intro s t hs h
  unfold step at h
  split at h
  · injection h with h
    exact h ▸ s.tclkCycle_steady.sound hs
  · exact (exec_holds _ h).sound hs

/-- Settles O48: the ends of both starts, by what the outcome of a start is stated of. -/
theorem startsProceed : Obligations.StartsProceed := by
  intro s
  refine ⟨fun b hl ht hi hw => ?_, fun f credits hl hh hp => ?_⟩
  · have hd := s.deliver_startView b
    obtain ⟨ps, hv⟩ := State.finishCold_startView (s := s.deliver b)
      ((congrArg StartView.tmode hd).trans ht) ((congrArg StartView.instLow hd).trans hi)
    rw [hd, show (s.deliver b).credits = s.credits from congrArg StartView.credits hd] at hv
    refine ⟨(s.deliver b).finishCold, ?_, congrArg StartView.life hv, congrArg StartView.ready hv,
      congrArg StartView.lastStart hv, congrArg StartView.forme hv, congrArg (fun v => v.part1.map (·.1)) hv⟩
    rw [exec_delivered, State.guardPutNamed_delivered hl hw]
  · have hy := s.warmChecked_startView f credits.toNat
    refine ⟨?_, congrArg StartView.ready hy, congrArg StartView.life hy⟩
    rw [exec_warmStart, State.warmStart_eq hl hh hp]
    rfl

/-- Settles O60: the frame of the work after a command, and its rest on a calm state. -/
theorem workAfterCommandKeeps : Obligations.WorkAfterCommandKeeps := by
  intro s
  have h : Keeps s s.finish := State.finish_keeps (Keeps.refl s)
  exact ⟨h.pending_eq, h.shadow_eq, h.captures_eq, h.resp_eq, h.heldCs_eq, h.forme_eq, h.amends_eq, h.adm_eq, h.servers_eq,
    h.retained_eq, h.tens_eq, h.pushRot_eq, h.scanRot_eq, h.swapBusy_eq, h.swapQueue_eq, h.fencedUnits_eq, h.fencedLanes_eq,
    h.lanesGood_eq, h.entropyGood_eq, h.time_eq, h.stagger_eq, h.peerSeen_eq, h.peerAt_eq, h.alive_eq, h.guardResp_eq,
    h.pmOut_eq, h.pmHeld_eq, h.tmode_eq, h.instLow_eq, h.repair_eq, h.imageSeq_eq, h.ckptAreas_eq, h.katDue_eq, h.ptc_eq, h.up,
    h.sound, State.finish_calm⟩

/-- Settles O52: a strobe is early or moves time; the other four commands each act as one branch of their meaning says. -/
theorem timeAndAlive : Obligations.TimeAndAlive := by
  intro s hc hn hw
  have ht : s.tclkHeld = false := State.tclkHeld_eq_false hc hn hw
  refine ⟨fun v => ?_, fun x hl hx => ?_, exec_peerAliveEdge hc, exec_peerSeenExpire, exec_aliveToggle s⟩
  · intro early
    rw [exec_timeSync]
    by_cases he : early
    · simp only [he, if_true]
      obtain ⟨x, hx, hlt⟩ := he
      rw [State.timeSync_early ht hx hlt]
      exact ⟨_, rfl, fun off => s.get_syncRegs_other (by simp), State.locked_syncRegs_nil⟩
    · simp only [he, if_false]
      rw [State.timeSync_late ht he]
      exact ⟨_, rfl, fun off => s.get_syncRegs_other (s.syncFlds_off _), fun hwf => State.locked_syncRegs hwf _⟩
  · rw [exec_syncLoss, State.syncLoss_eq ht hl hx]

end Sys2Proof.Machine
end

section
/-! PROOFS of the statements about commits: what a COMMIT.GO does by the way its checks end (R71 to R73), and what a commit that
becomes live leaves in its region, in COMMIT_STATUS and in part 2 of retained memory (R488). -/

namespace Sys2Proof.Machine

open Sys2Proof.Safety

/-! ### The write of a region's COMMIT register (R518) -/

theorem exec_commitGo (r : CsReq) (g : Region) (s : State) :
    exec (.commitGo r g) s = .next (s.hostWrite r (commitOff g) 8 1 []).finish := rfl

theorem exec_commitApply (g : Region) (s : State) : exec (.commitApply g) s = .next (s.commitApply g).finish := rfl

/-- The COMMIT register of a region outside the tenancy pages is a management register, apart from those with an operation of their
own. -/
theorem commitOff_fixed {g : Region} (hg : g ∈ fixedRegions) :
    commitOff g % 8 = 0 ∧ (regAt (commitOff g)).isSome = true ∧ regionOf (commitOff g) = .management ∧
      commitOff g ∉ [Row.GLB_RESET.base, Row.FRM_CTRL.base, Row.RFL_KAT_CTRL.base, Row.TST_INJ.base] ∧
      fixedRegions.find? (fun c => commitOff c == commitOff g) = some g := by
  revert g
  decide +kernel

/-- A management write of GO that nothing stops reaches the region's commit. -/
theorem State.hostWrite_fixedCommit {s : State} {r : CsReq} {g : Region} (hg : g ∈ fixedRegions) (h : ManagementMay r s)
    (hd : s.slotStopped (commitOff g) = false) : s.hostWrite r (commitOff g) 8 1 [] = (answered s).commitGo g := by
  obtain ⟨halign, hreg, hregion, hother, hfind⟩ := commitOff_fixed hg
  simp only [List.mem_cons, List.not_mem_nil, or_false, not_or] at hother
  obtain ⟨hreset, hfrm, hkat, hinj⟩ := hother
  rw [State.hostWrite_eq h halign hreg (viewRefuses_management _) hd]
  unfold State.writeEffect
  rw [hregion]
  unfold State.topEffect
  rw [if_neg hreset, if_neg hfrm, if_neg hkat, if_neg hinj, hfind]
  exact if_pos (by decide)

/-- A write of GO that nothing stops or stalls reaches the region's commit. -/
theorem State.hostWrite_commit {s : State} {r : CsReq} {g : Region} (h : CommitMay r g s) :
    s.hostWrite r (commitOff g) 8 1 [] = (answered s).commitGo g := by
  cases g with
  | page t => exact (State.hostPage_commit h).trans (if_pos (by decide))
  | reservoir => exact State.hostWrite_fixedCommit (by decide) h.1 h.2
  | platen => exact State.hostWrite_fixedCommit (by decide) h.1 h.2
  | trim => exact State.hostWrite_fixedCommit (by decide) h.1 h.2
  | delta => exact State.hostWrite_fixedCommit (by decide) h.1 h.2
  | ptc => exact State.hostWrite_fixedCommit (by decide) h.1 h.2

/-- While the last commit is pending, GO sets OVERRUN alone (R72). -/
theorem State.commitGo_overrun {s : State} {g : Region} (h : s.flag (commitField g 0 1) = true) :
    s.commitGo g = s.setFld (commitField g 3 1) 1 := if_pos h

/-- A capture that waits becomes live between two tasks of its station (R71). -/
theorem State.commitApply_live {s : State} {g : Region} {c : Capture} (hr : s.ready = true) (hb : s.betweenTasks g = true)
    (hc : s.captures.find? (fun c => c.region == g) = some c) : s.commitApply g =
      ({ s with captures := s.captures.filter (fun x => x.region != g) } : State).makeLive g c.regs := by
  refine (if_pos ⟨hr, hb⟩).trans ?_
  unfold State.applyCapture
  rw [hc]

/-! ### What the ceilings of PTC write when they are taken up again -/

/-- t comes from s by writes of live registers, of PTC's state and of the message to the package alone. -/
def PowerWrites (s t : State) : Prop := ∃ q m c, t = { s with regs := q, pmOut := m, ptc := c }

theorem PowerWrites.refl (s : State) : PowerWrites s s := ⟨s.regs, s.pmOut, s.ptc, rfl⟩

theorem PowerWrites.trans {r s t : State} (h : PowerWrites r s) (k : PowerWrites s t) : PowerWrites r t := by
  obtain ⟨_, _, _, rfl⟩ := h
  obtain ⟨q, m, c, rfl⟩ := k
  exact ⟨q, m, c, rfl⟩

theorem PowerWrites.foldl {α : Type} {f : State → α → State} (hf : ∀ t x, PowerWrites t (f t x)) (l : List α) (s : State) :
    PowerWrites s (l.foldl f s) := by
  induction l generalizing s with
  | nil => exact PowerWrites.refl s
  | cons x l ih => exact (hf s x).trans (ih (f s x))

theorem State.modPtc_power (s : State) (g : PtcRun → PtcRun) : PowerWrites s (s.modPtc g) := ⟨s.regs, s.pmOut, g s.ptc, rfl⟩

theorem State.followVoltage_power (s : State) : PowerWrites s s.followVoltage := by
  obtain ⟨m, v, a, k, h⟩ := s.followVoltage_ptc
  exact ⟨s.regs, m, _, h⟩

theorem State.record_power (s : State) (i : Nat) : PowerWrites s (s.record i) := by
  unfold State.record
  extract_lets old c on now base put
  split
  · exact ⟨_, s.pmOut, put (some now), rfl⟩
  · exact ⟨_, s.pmOut, put none, rfl⟩
  · exact ⟨s.regs, s.pmOut, _, rfl⟩

theorem State.bankBoost_power (s : State) : PowerWrites s s.bankBoost := by
  unfold State.bankBoost
  split
  · exact s.modPtc_power _
  · exact PowerWrites.refl s

theorem State.enterState_power (s : State) (p : Nat) : PowerWrites s (s.enterState p) := by
  unfold State.enterState
  split
  · exact PowerWrites.refl s
  · extract_lets why x y
    have hy : PowerWrites s y := by
      simp only [y]
      split
      · exact s.bankBoost_power.trans (x.modPtc_power _)
      · exact PowerWrites.refl s
    exact hy.trans (y.modPtc_power _)

theorem State.settlePtc_power (s : State) : PowerWrites s s.settlePtc := by
  unfold State.settlePtc
  extract_lets used low x y a e z
  have hy : PowerWrites s y := (s.modPtc_power _).trans (PowerWrites.foldl State.record_power _ x)
  have hz : PowerWrites y z := by
    simp only [z]
    split
    · exact (y.enterState_power a).trans (((y.enterState a).modPtc_power _).trans e.followVoltage_power)
    · split
      · exact (y.modPtc_power _).trans (State.followVoltage_power _)
      · exact PowerWrites.refl y
  exact hy.trans (hz.trans (z.modPtc_power _))

/-! ### What becoming live leaves as it is -/

/-- What a quoin point makes live, and local time. -/
structure QuoinView where
  forme   : Forme
  amends  : Nat
  adm     : List FlowAdm
  servers : List ServerAdm
  time    : TimeRun

/-- The state as the statements about quoin points see it. -/
def State.quoinView (s : State) : QuoinView := ⟨s.forme, s.amends, s.adm, s.servers, s.time⟩

theorem Keeps.quoinView_eq {s t : State} (h : Keeps s t) : t.quoinView = s.quoinView := by
  unfold State.quoinView
  rw [h.forme_eq, h.amends_eq, h.adm_eq, h.servers_eq, h.time_eq]

/-- The evaluations that follow a commit leave the live forme and the shadow copies as they are. -/
theorem State.afterCommit_frame (s : State) (g : Region) :
    (s.afterCommit g).quoinView = s.quoinView ∧ (s.afterCommit g).shadow = s.shadow := by
  cases g with
  | reservoir =>
    have h : Keeps s s.recheckPools := State.recheckPools_keeps (Keeps.refl s)
    exact ⟨h.quoinView_eq, h.shadow_eq⟩
  | ptc =>
    obtain ⟨q, m, c, h⟩ := s.settlePtc_power
    have h : s.afterCommit .ptc = { s with regs := q, pmOut := m, ptc := c } := h
    rw [h]
    exact ⟨rfl, rfl⟩
  | page _ | platen | trim | delta => exact ⟨rfl, rfl⟩

/-- The state once captured values are in the live registers (R71). -/
def State.takeCaptured (s : State) (g : Region) (c : RegFile) : State := { s with regs := s.regs.setAll c (regionRegs g) }

/-- Becoming live: the captured values, COMMIT_STATUS, what is evaluated at once, and part 2 of retained memory. -/
theorem State.makeLive_steps (s : State) (g : Region) (c : RegFile) :
    s.makeLive g c = (((s.takeCaptured g c).endCommit g 1 0).afterCommit g).saveSettings := by
  unfold State.makeLive State.takeCaptured
  rw [State.foldl_setReg_eq]

/-- The end of a commit reaches the live registers alone. -/
theorem State.endCommit_frame (s : State) (g : Region) (result rule : Nat) :
    (s.endCommit g result rule).quoinView = s.quoinView ∧ (s.endCommit g result rule).shadow = s.shadow := by
  obtain ⟨q, h⟩ : ∃ q, s.endCommit g result rule = { s with regs := q } := s.setFlds_eq _
  rw [h]
  exact ⟨rfl, rfl⟩

/-- A commit that becomes live leaves the live forme and the shadow copies as they are. -/
theorem State.makeLive_frame (s : State) (g : Region) (c : RegFile) :
    (s.makeLive g c).quoinView = s.quoinView ∧ (s.makeLive g c).shadow = s.shadow := by
  obtain ⟨hafter, hashadow⟩ := ((s.takeCaptured g c).endCommit g 1 0).afterCommit_frame g
  obtain ⟨hend, heshadow⟩ := (s.takeCaptured g c).endCommit_frame g 1 0
  rw [State.makeLive_steps]
  exact ⟨hafter.trans hend, hashadow.trans heshadow⟩

/-! ### What COMMIT_STATUS shows (R73) -/

/-- Captured values that become live leave COMMIT_STATUS as it is. -/
theorem State.fld_takeCaptured (s : State) (g : Region) (c : RegFile) (lo width : Nat) :
    (s.takeCaptured g c).fld (commitField g lo width) = s.fld (commitField g lo width) :=
  congrArg (commitField g lo width).of (RegFile.get_setAll_other s.regs c (commitStatus_not_mem g))

/-- The end of a commit shows its result, and SEQ counts it. -/
theorem State.endCommit_fields {s : State} {g : Region} {result rule : Nat} (h : s.regs.wf = true) :
    (s.endCommit g result rule).fld (commitField g 1 2) = result % 4 ∧
      (s.endCommit g result rule).fld (commitField g 16 16) = (s.fld (commitField g 16 16) + 1) % 65536 := by
  unfold State.endCommit
  constructor
  · rw [State.fld_setFlds_skip]
    exact State.fld_setFlds_head (State.setFld_wf h) (show 1 + 2 ≤ 64 by decide)
      (by simp [Field.apart, commitField])
  · rw [State.fld_setFlds_skip, State.fld_setFlds_skip, State.fld_setFlds_skip]
    exact State.fld_setFlds_head (State.setFld_wf (State.setFld_wf (State.setFld_wf h))) (show 16 + 16 ≤ 64 by decide) (by simp)

/-- Of a commit that becomes live with nothing evaluated at once, RESULT is 1 and SEQ counts it. -/
theorem State.makeLive_fields {s : State} {g : Region} (c : RegFile) (h : s.regs.wf = true) (hr : g ≠ .reservoir)
    (hp : g ≠ .ptc) : (s.makeLive g c).fld (commitField g 1 2) = 1 ∧
      (s.makeLive g c).fld (commitField g 16 16) = (s.fld (commitField g 16 16) + 1) % 65536 := by
  have hregs : (s.makeLive g c).regs = ((s.takeCaptured g c).endCommit g 1 0).regs := by
    rw [s.makeLive_eq c hr hp]
    rfl
  have hfld : ∀ f : Field, (s.makeLive g c).fld f = ((s.takeCaptured g c).endCommit g 1 0).fld f :=
    fun f => congrArg (fun q : RegFile => f.of (q.get f.off)) hregs
  obtain ⟨hresult, hseq⟩ := State.endCommit_fields (g := g) (result := 1) (rule := 0)
    (show (s.takeCaptured g c).regs.wf = true from RegFile.wf_setAll c _ h)
  rw [s.fld_takeCaptured] at hseq
  exact ⟨(hfld _).trans hresult, (hfld _).trans hseq⟩

/-! ### The statements -/

/-- Settles O17: GO reaches the region's commit, which is one of overrun, broken and waiting. -/
theorem commitGoCaptures : Obligations.CommitGoCaptures := by
  intro s r g h u
  rw [exec_commitGo, State.hostWrite_commit h]
  refine ⟨fun hp => ?_, fun hp n hn => ?_, fun hp hn hw => ?_⟩
  · rw [State.commitGo_overrun (s := answered s) hp]
  · rw [State.commitGo_broken (s := answered s) hp hn]
    rfl
  · rw [State.commitGo_waits (s := answered s) hp hn hw]
    rfl

/-- Settles O18: the two commands that make a commit live, and what that leaves. -/
theorem commitMakesLive : Obligations.CommitMakesLive := by
  intro s r g
  refine ⟨fun h hp hw hn => ?_, fun c hr hb hc => ?_, fun c => ?_⟩
  · rw [exec_commitGo, State.hostWrite_commit h, State.commitGo_live (s := answered s) hp hn hw]
    rfl
  · rw [exec_commitApply, State.commitApply_live hr hb hc]
  · obtain ⟨hview, hshadow⟩ := s.makeLive_frame g c
    exact ⟨rfl, congrArg QuoinView.forme hview, hshadow, State.makeLive_fields c⟩

end Sys2Proof.Machine
end

section
/-! PROOFS of the statements about attempts at the forme port: how one starts, is refused, is cancelled, and ends its claims (R56 to
R62, R66 to R70, R82, R83). -/

namespace Sys2Proof.Machine

open Sys2Proof.Safety

/-! ### The commands of the forme port -/

/-- A write of OP 0b01, without CANCEL. -/
theorem State.writeFrm_lockUp (s : State) (r : CsReq) (f : Fetch) : s.writeFrm r 1 f = s.attempt false f := by
  unfold State.writeFrm
  exact (if_neg (by decide)).trans (if_pos (by decide))

/-- A write of OP 0b10, without CANCEL. -/
theorem State.writeFrm_amendment (s : State) (r : CsReq) (f : Fetch) : s.writeFrm r 2 f = s.attempt true f := by
  unfold State.writeFrm
  exact (if_neg (by decide)).trans ((if_neg (by decide)).trans (if_pos (by decide)))

/-- A write of CANCEL, without OP. -/
theorem State.writeFrm_cancel (s : State) (r : CsReq) : s.writeFrm r 16 [] = s.cancelAttempt := by
  unfold State.writeFrm
  refine (if_pos (by decide)).trans (congrArg State.cancelAttempt ?_)
  exact (if_neg (by decide)).trans ((if_neg (by decide)).trans (if_neg (by decide)))

theorem exec_lockUp {s : State} {r : CsReq} (h : ManagementMay r s) (f : Fetch) :
    exec (.lockUp r f) s = .next ((answered s).attempt false f).finish := by
  show Host.Outcome.next (s.hostWrite r Row.FRM_CTRL.base 8 1 f).finish = _
  rw [State.hostWrite_frm h, State.writeFrm_lockUp]

theorem exec_amendment {s : State} {r : CsReq} (h : ManagementMay r s) (f : Fetch) :
    exec (.amendment r f) s = .next ((answered s).attempt true f).finish := by
  show Host.Outcome.next (s.hostWrite r Row.FRM_CTRL.base 8 2 f).finish = _
  rw [State.hostWrite_frm h, State.writeFrm_amendment]

theorem exec_cancel {s : State} {r : CsReq} (h : ManagementMay r s) :
    exec (.cancel r) s = .next (answered s).cancelAttempt.finish := by
  show Host.Outcome.next (s.hostWrite r Row.FRM_CTRL.base 8 16 []).finish = _
  rw [State.hostWrite_frm h, State.writeFrm_cancel]

/-- Either command that starts an attempt. -/
theorem exec_attempt {s : State} {r : CsReq} (h : ManagementMay r s) (f : Fetch) (amend : Bool) :
    exec (if amend = true then .amendment r f else .lockUp r f) s = .next ((answered s).attempt amend f).finish := by
  cases amend with
  | true => exact exec_amendment h f
  | false => exact exec_lockUp h f

/-- While READY is set, a command of a block that runs acts. -/
theorem State.whenUp_ready {s : State} (h : s.ready = true) (op : State → State) : s.whenUp op = op s := if_pos h

theorem exec_quoin {s : State} (h : s.ready = true) : exec .quoin s = .next s.quoin.finish :=
  congrArg (fun t : State => Host.Outcome.next t.finish) (s.whenUp_ready h State.quoin)

theorem exec_quoinTimeout {s : State} (h : s.ready = true) : exec .quoinTimeout s = .next s.quoinExpire.finish :=
  congrArg (fun t : State => Host.Outcome.next t.finish) (s.whenUp_ready h State.quoinExpire)

theorem exec_amendQuoin {s : State} (h : s.ready = true) : exec .amendQuoin s = .next s.amendPoint.finish :=
  congrArg (fun t : State => Host.Outcome.next t.finish) (s.whenUp_ready h State.amendPoint)

theorem exec_amendReservationsHeld {s : State} (h : s.ready = true) :
    exec .amendReservationsHeld s = .next s.reservationsHeld.finish :=
  congrArg (fun t : State => Host.Outcome.next t.finish) (s.whenUp_ready h State.reservationsHeld)

theorem exec_amendClaimTimeout {s : State} (h : s.ready = true) : exec .amendClaimTimeout s = .next s.claimTimeout.finish :=
  congrArg (fun t : State => Host.Outcome.next t.finish) (s.whenUp_ready h State.claimTimeout)

/-! ### How an attempt starts and ends (R57, R62, R82, R83) -/

theorem State.lockupBusy_eq_false {s : State} (hj : s.job = none) (ht : s.tko = none) : s.lockupBusy = false := by
  unfold State.lockupBusy
  rw [hj, ht]
  rfl

/-- A refusal is recorded in registers alone. -/
theorem State.recordRefusal_eq (s : State) (x : RefusalRec) : ∃ q, s.recordRefusal x = { s with regs := q } := by
  unfold State.recordRefusal
  extract_lets u
  obtain ⟨q, hq⟩ : ∃ q, u = { s with regs := q } := s.setFlds_eq _
  split
  · obtain ⟨p, hp⟩ := u.setFlds_eq _
    exact ⟨p, by rw [hp, hq]⟩
  · exact ⟨q, hq⟩

/-- The end of an attempt reaches the registers, and no attempt runs any more. -/
theorem State.endAttempt_eq (s : State) (n : Nat) : ∃ q, s.endAttempt n = { s with job := none, regs := q } :=
  State.setFlds_eq { s with job := none } _

theorem State.endAttempt_quoinView (s : State) (n : Nat) : (s.endAttempt n).quoinView = s.quoinView := by
  obtain ⟨q, h⟩ := s.endAttempt_eq n
  rw [h]
  rfl

theorem State.refuse_eq (s : State) (x : RefusalRec) : ∃ q, s.refuse x = { s with job := none, regs := q } := by
  obtain ⟨p, hp⟩ := s.recordRefusal_eq x
  obtain ⟨q, hq⟩ := (s.recordRefusal x).endAttempt_eq 2
  exact ⟨q, by unfold State.refuse; rw [hq, hp]⟩

/-! ### Claims that an attempt gives back (R62, R68) -/

theorem State.notePeak_job (s : State) (p : Nat) : (s.notePeak p).job = s.job := by
  unfold State.notePeak
  split
  · rfl
  · exact State.setFld_job _ _ _

/-- Blocks that a pool grants to its queue are no claims of an attempt. -/
theorem State.serveWaiters_job (n : Nat) (s : State) (p : Nat) : (State.serveWaiters n s p).job = s.job := by
  induction n generalizing s with
  | zero => rfl
  | succ n ih =>
    unfold State.serveWaiters
    split
    · rfl
    · split
      · exact (ih _).trans (State.notePeak_job _ p)
      · rfl

/-- Without an attempt, no pool starts one. -/
theorem State.settlePool_job {s : State} (h : s.job = none) (p : Nat) : (s.settlePool p).job = none := by
  have hfree : s.claimFree p = s := by
    unfold State.claimFree
    rw [h]
  unfold State.settlePool
  rw [hfree]
  exact (State.serveWaiters_job _ s p).trans h

theorem State.releaseClaims_job {s : State} (h : s.job = none) : s.releaseClaims.job = none := by
  unfold State.releaseClaims
  generalize s.forme.defs = l
  induction l generalizing s with
  | nil => exact h
  | cons d l ih => exact ih (State.settlePool_job h d.index)

theorem State.releaseClaims_keeps (s : State) : Keeps s s.releaseClaims :=
  Keeps.foldl _ (Keeps.refl s) (fun _ _ h => State.settlePool_keeps h)

/-- An attempt that ends with its claims given back leaves the live forme, and no attempt runs. -/
theorem State.endAttempt_release_frame (s : State) (n : Nat) :
    (s.endAttempt n).releaseClaims.forme = s.forme ∧ (s.endAttempt n).releaseClaims.job = none := by
  obtain ⟨q, h⟩ := s.endAttempt_eq n
  refine ⟨(State.releaseClaims_keeps _).forme_eq.trans ?_, State.releaseClaims_job ?_⟩
  · rw [h]
  · rw [h]

/-! ### Which moment a command finds (R60, R62, R64, R69) -/

section
variable {s : State} {j : Job}

theorem State.quoinJob_eq (hj : s.job = some j) (hp : j.phase = 5) : s.quoinJob = some j := by
  unfold State.quoinJob
  rw [hj, Option.filter_some, if_pos (by rw [hp]; rfl)]

/-- With no task in flight, a full attempt and a forme reload are at their quoin point. -/
theorem State.quoin_now (hj : s.job = some j) (hp : j.phase = 5) (hk : j.kind = .full ∨ j.kind = .reload)
    (ht : ∀ k ∈ s.tasks, k.isTask = false) : s.quoin = s.quoinNow j := by
  have hany : s.tasks.any Task.isTask = false := List.any_eq_false.2 (fun k hm => by rw [ht k hm]; decide)
  have hdrain : s.draining j = false := by
    unfold State.draining
    rcases hk with hk | hk <;> rw [hk] <;> exact hany
  unfold State.quoin
  rw [State.quoinJob_eq hj hp]
  exact if_pos ⟨hk, by rw [hdrain]; rfl⟩

/-- With no task of a removed flow in flight, an amendment is at its quoin point. -/
theorem State.amendPoint_now (hj : s.job = some j) (hp : j.phase = 5) (hk : j.kind = .amend)
    (ht : ∀ k ∈ s.tasks, k.isTask = true → k.flow ∉ j.removed) : s.amendPoint = s.quoinNow j := by
  have hdrain : s.draining j = false := by
    unfold State.draining
    rw [hk]
    refine List.any_eq_false.2 (fun k hm hd => ?_)
    obtain ⟨htask, hflow⟩ := Bool.and_eq_true_iff.1 hd
    exact ht k hm htask (List.contains_iff_mem.1 hflow)
  unfold State.amendPoint
  rw [State.quoinJob_eq hj hp]
  exact if_pos ⟨hk, by rw [hdrain]; rfl⟩

theorem State.quoinExpire_now (hj : s.job = some j) (hp : j.phase = 5) :
    s.quoinExpire = (s.advance (j.started + s.quoinTimeoutNs)).quoinNow j := by
  unfold State.quoinExpire
  rw [State.quoinJob_eq hj hp]

/-- At its quoin point a cancelled attempt ends (R62). -/
theorem State.quoinNow_cancelled (hk : j.kind = .full ∨ j.kind = .amend) (hc : j.cancelled = true) :
    s.quoinNow j = (s.endAttempt 3).releaseClaims := by
  unfold State.quoinNow
  rcases hk with hk | hk <;> rw [hk] <;> exact if_pos hc

/-- Any other attempt goes on to step 8. -/
theorem State.quoinNow_step8 (hk : j.kind = .full ∨ j.kind = .amend) (hc : j.cancelled = false) : s.quoinNow j = s.step8 j := by
  unfold State.quoinNow
  rcases hk with hk | hk <;> rw [hk] <;> exact if_neg (by rw [hc]; decide)

theorem State.quoinNow_reload (hk : j.kind = .reload) : s.quoinNow j = s.finishReload j := by
  unfold State.quoinNow
  rw [hk]

theorem State.step8_spareless (hg : s.sparesGone j = true) : s.step8 j = (s.refuse (refusal 0x05 none none 2)).releaseClaims :=
  if_pos hg

theorem State.step8_full (hg : s.sparesGone j = false) (hk : j.kind = .full) : s.step8 j = s.quoinFull j := by
  unfold State.step8
  rw [if_neg (by rw [hg]; decide), hk]

theorem State.step8_amend (hg : s.sparesGone j = false) (hk : j.kind = .amend) : s.step8 j = (s.quoinAmend j).endAttempt 1 := by
  unfold State.step8
  rw [if_neg (by rw [hg]; decide), hk]

end

/-! ### The statements -/

/-- Settles O10: the attempt is admitted, and its reserve step starts the quoin phase. -/
theorem lockUpReserves : Obligations.LockUpReserves := by
  intro s r f p ts h hj ht u m ps hp hv ha
  have hadmitted := State.attempt_admitted (s := u) (amend := false) (State.lockupBusy_eq_false hj ht) hp hv ha
  rw [exec_lockUp h, hadmitted]
  rfl

/-- Settles O11: the amendment is admitted, and its reserve step claims in the pools of the live forme, which merging keeps. -/
theorem amendmentReserves : Obligations.AmendmentReserves := by
  intro s r f p ts h hj ht u m ps hp hv ha hsize
  have hadmitted := State.attempt_admitted (s := u) (amend := true) (State.lockupBusy_eq_false hj ht) hp hv ha
  rw [exec_amendment h, hadmitted]
  exact congrArg (fun t : State => Host.Outcome.next t.finish) (if_neg (Nat.not_lt.2 hsize))

/-- Settles O12: a failed attempt is refused by State.refuse, and one that finds the port busy only marks the write. -/
theorem lockUpRefuses : Obligations.LockUpRefuses := by
  intro s r f amend h u op parsed
  refine ⟨fun hj ht x hx => ?_, fun hb => ?_⟩
  · refine ⟨u.refuse x, ?_, rfl, ?_, ?_, fun hw => ?_⟩
    · rw [← State.attempt_refused (s := u) (State.lockupBusy_eq_false hj ht) hx]
      exact exec_attempt h f amend
    · obtain ⟨q, hq⟩ := u.refuse_eq x
      rw [hq]
      rfl
    · obtain ⟨q, hq⟩ := u.refuse_eq x
      rw [hq]
    · obtain ⟨hcode, hseq, hwf⟩ := State.recordRefusal_fields (s := u) (x := x) hw
      obtain ⟨hresult, hcount, hkept⟩ := State.endAttempt_fields (n := 2) hwf
      exact ⟨hkept.trans hcode, hresult, hcount.trans (by rw [hseq]; rfl)⟩
  · have hbusy : u.lockupBusy = true := Bool.or_eq_true_iff.2 hb
    rw [← State.attempt_busy hbusy]
    exact exec_attempt h f amend

/-- Settles O13: a CANCEL acts by the attempt it finds, and a marked attempt ends at its quoin point. -/
theorem cancelEndsAttempt : Obligations.CancelEndsAttempt := by
  intro s
  refine ⟨fun r h => ⟨fun hj => ?_, fun j hj => ?_⟩, fun j hr hj hp hc => ?_⟩
  · rw [exec_cancel h]
    unfold State.cancelAttempt
    rw [show (answered s).job = none from hj]
  · rw [exec_cancel h]
    unfold State.cancelAttempt
    rw [show (answered s).job = some j from hj]
  · obtain ⟨hforme, hjob⟩ := s.endAttempt_release_frame 3
    refine ⟨hforme, hjob, fun hk ht => ?_, fun hk ht => ?_⟩
    · rw [exec_quoin hr, State.quoin_now hj hp (.inl hk) ht, State.quoinNow_cancelled (.inl hk) hc]
    · rw [exec_amendQuoin hr, State.amendPoint_now hj hp hk ht, State.quoinNow_cancelled (.inr hk) hc]

/-- Settles O15: held claims start the quoin phase, and short ones at the timeout are refused and given back. -/
theorem amendClaimsEnd : Obligations.AmendClaimsEnd := by
  intro s j hr hj hk hp
  refine ⟨fun hh => ?_, fun hh => ⟨s.claimTimeout, exec_amendClaimTimeout hr, ?_⟩⟩
  · rw [exec_amendReservationsHeld hr]
    unfold State.reservationsHeld
    rw [hj]
    exact congrArg (fun t : State => Host.Outcome.next t.finish) (if_pos ⟨hk, hp, hh⟩)
  · unfold State.claimTimeout
    rw [hj]
    refine (if_pos ⟨hk, hp, by rw [hh]; rfl⟩).trans ?_
    obtain ⟨q, hq⟩ := (s.advance (j.started + s.quoinTimeoutNs)).refuse_eq j.shortRefusal
    have hdefs : ((s.advance (j.started + s.quoinTimeoutNs)).refuse j.shortRefusal).forme = s.forme := by
      rw [hq]
      rfl
    unfold State.releaseClaims
    rw [hdefs]
    rfl

end Sys2Proof.Machine
end

section
/-! PROOFS of the statements about quoin points and the retained copy: what a quoin point makes live or refuses (R60, R64, R65,
R69), and what the copy and its image hold (R76, R451). -/

namespace Sys2Proof.Machine

open Sys2Proof.Safety

/-! ### What the parts of a quoin point leave of the view -/

theorem State.foldl_quoinView {α : Type} {f : State → α → State} (hf : ∀ t x, (f t x).quoinView = t.quoinView) (l : List α)
    (s : State) : (l.foldl f s).quoinView = s.quoinView := by
  induction l generalizing s with
  | nil => rfl
  | cons x l ih => exact (ih (f s x)).trans (hf s x)

theorem State.setFld_quoinView (s : State) (f : Field) (v : Nat) : (s.setFld f v).quoinView = s.quoinView := rfl

theorem State.withRegs_quoinView (s : State) (q x : RegFile) :
    ({ s with regs := q, shadow := x } : State).quoinView = s.quoinView := rfl

theorem State.setFlds_quoinView (s : State) (l : List (Field × Nat)) : (s.setFlds l).quoinView = s.quoinView := by
  obtain ⟨q, h⟩ := s.setFlds_eq l
  rw [h]
  rfl

theorem State.applyCapture_quoinView (s : State) (g : Region) : (s.applyCapture g).quoinView = s.quoinView := by
  unfold State.applyCapture
  split
  · exact (State.makeLive_frame _ g _).1
  · rfl

theorem State.applyCaptures_quoinView (s : State) : s.applyCaptures.quoinView = s.quoinView :=
  State.foldl_quoinView State.applyCapture_quoinView _ s

/-- A task that is aborted is stopped, and its entry is due. -/
theorem State.abortTask_keeps {r s : State} {id : Nat} (h : Keeps r s) : Keeps r (s.abortTask id) := by
  unfold State.abortTask
  split
  · exact h
  · rename_i t _
    extract_lets x y
    have hy : Keeps r y := State.stopTask_keeps (Keeps.ite (State.haltDelta_keeps h) h)
    clear_value y
    split
    · exact Keeps.ite hy (Keeps.upd_due (State.freeTask_keeps (State.modTask_keeps hy)))
    · exact hy

theorem State.abortTasks_keeps {r s : State} {p : Task → Bool} (h : Keeps r s) : Keeps r (s.abortTasks p) :=
  Keeps.foldl _ h (fun _ _ => State.abortTask_keeps)

/-- A change of the live ports alone. -/
theorem Keeps.upd_ports {r s : State} {x0 : List PortRun} (h : Keeps r s) : Keeps r { s with ports := x0 } :=
  h.trans ⟨rfl, fun k => ⟨k, rfl⟩, id⟩

theorem State.unbindPort_keeps {r s : State} {p : Nat} (h : Keeps r s) : Keeps r (s.unbindPort p) := Keeps.upd_due_tasks h

/-- A port's posts complete, and its binding ends. -/
theorem State.unbindPosts_keeps {r s : State} {p : Nat} {l : List Post} {fe : FlowEntry} {b : LiveBinding} (h : Keeps r s) :
    Keeps r (l.foldl (fun (s : State) (q : Post) => s.postEntry (discardedEntry fe b q.slot)) (s.unbindPort p)) :=
  Keeps.foldl _ (State.unbindPort_keeps h) (fun _ _ => State.postEntry_keeps)

theorem State.dropPort_keeps {r s : State} {fe : FlowEntry} (h : Keeps r s) : Keeps r (s.dropPort fe) := by
  unfold State.dropPort
  split
  · exact h
  · extract_lets x
    refine Keeps.upd_ports ?_
    simp only [x]
    split
    · exact State.unbindPosts_keeps h
    · exact h

theorem State.quoinPorts_keeps {r s : State} {old : Forme} (h : Keeps r s) : Keeps r (s.quoinPorts old) := by
  unfold State.quoinPorts
  extract_lets bound same x
  refine Keeps.upd_ports (Keeps.foldl _ h (fun t p ht => ?_))
  split
  · exact ht
  · split
    · exact State.unbindPosts_keeps ht
    · exact ht

theorem State.rebuildPools_keeps {r s : State} (h : Keeps r s) : Keeps r s.rebuildPools := by
  unfold State.rebuildPools
  extract_lets fresh
  exact State.recheckPools_keeps (h.trans ⟨rfl, fun k => ⟨k, rfl⟩, id⟩)

theorem State.freshStations_quoinView (s : State) (old : Forme) : (s.freshStations old).quoinView = s.quoinView := by
  unfold State.freshStations
  extract_lets w x
  exact (State.quoinPorts_keeps (State.rebuildPools_keeps (Keeps.refl x))).quoinView_eq

theorem State.supplyThresholds_quoinView (s : State) : s.supplyThresholds.quoinView = s.quoinView := by
  unfold State.supplyThresholds
  exact State.foldl_quoinView (fun t _ => t.withRegs_quoinView _ _) _ s

theorem State.takeEpoch_quoinView (s : State) (f : Nat) : (s.takeEpoch f).quoinView = s.quoinView := by
  unfold State.takeEpoch
  split
  · exact s.setFld_quoinView _ _
  · rfl

/-- The registers of a flow that a quoin point admits. -/
theorem State.flowRegs_quoinView (s : State) (f : Nat) : ((s.takeEpoch f).freshCounters f).quoinView = s.quoinView :=
  (State.setFlds_quoinView _ _).trans (s.takeEpoch_quoinView f)

theorem State.clearPeerTook_quoinView (s : State) : s.clearPeerTook.quoinView = s.quoinView := by
  unfold State.clearPeerTook
  split
  · rfl
  · exact s.setFld_quoinView _ _

theorem State.quoined_quoinView (s : State) : s.quoined.quoinView = s.quoinView := by
  unfold State.quoined
  extract_lets w m x
  exact (State.setFlds_quoinView _ _).trans x.clearPeerTook_quoinView

/-- What follows every command leaves the view as it is. -/
theorem State.finish_quoinView (s : State) : s.finish.quoinView = s.quoinView :=
  (State.finish_keeps (Keeps.refl s)).quoinView_eq

/-! ### The quoin points (R60, R65, R69) -/

/-- A full attempt's forme replaces the live one whole. -/
theorem State.quoinFull_quoinView (s : State) (j : Job) :
    (s.quoinFull j).quoinView = ⟨j.forme, 0, j.adm, j.servers, s.time⟩ := by
  unfold State.quoinFull
  extract_lets x y old z w u v
  have hx : x.quoinView = s.quoinView :=
    (State.abortTasks_keeps (Keeps.refl s.applyCaptures)).quoinView_eq.trans s.applyCaptures_quoinView
  have hz : z.quoinView = ⟨j.forme, 0, j.adm, j.servers, s.time⟩ := by
    rw [← show x.time = s.time from congrArg QuoinView.time hx]
    rfl
  clear_value z
  have hu : u.quoinView = z.quoinView := (w.freshStations_quoinView old).trans z.supplyThresholds_quoinView
  clear_value u
  have hv : v.quoinView = u.quoinView := State.foldl_quoinView (fun t (fe : FlowEntry) => t.flowRegs_quoinView fe.flow) _ u
  clear_value v
  calc _ = (v.setFld F.LKP_ADMIT_CFG_PSTATE_LIVE j.pstate).quoinView :=
      (State.endAttempt_quoinView _ 1).trans (State.quoined_quoinView _)
    _ = v.quoinView := v.setFld_quoinView _ _
    _ = _ := hv.trans (hu.trans hz)

/-- A flow that an amendment removes takes nothing of the live forme with it. -/
theorem State.removeFlow_quoinView (s : State) (fe : FlowEntry) : (s.removeFlow fe).quoinView = s.quoinView := by
  unfold State.removeFlow
  extract_lets x gone kept y z w u
  have hx : Keeps s x := State.abortTasks_keeps (Keeps.refl s)
  have hy : Keeps s y := Keeps.foldl _ hx (fun _ _ => State.retire_keeps)
  have hw : Keeps s w := State.dropPort_keeps (State.releaseHandles_keeps (State.freeReserve_keeps hy))
  have hu : Keeps s u := by
    simp only [u]
    split
    · exact Keeps.ite (State.modMember_keeps hw) hw
    · exact hw
  exact hu.quoinView_eq

theorem State.beginFlow_quoinView (s : State) (fe : FlowEntry) : (s.beginFlow fe).quoinView = s.quoinView := by
  unfold State.beginFlow
  extract_lets x
  exact x.flowRegs_quoinView fe.flow

theorem State.mendGroups_keeps (s : State) : Keeps s s.mendGroups := by
  unfold State.mendGroups
  extract_lets live lead x y
  have hx : Keeps s x := Keeps.foldl _ (Keeps.refl s) (fun t u ht => by
    split
    · split
      · exact ht
      · split
        · exact State.modUnit_keeps ht
        · exact State.dropUnit_keeps ht
    · exact ht)
  have hy : Keeps s y := Keeps.foldl _ hx (fun _ _ ht => Keeps.foldl _ ht (fun _ _ => State.freeMember_keeps))
  exact Keeps.upd_groups hy

/-- The merged forme of an amendment is live, and the amendment is counted. -/
theorem State.quoinAmend_quoinView (s : State) (j : Job) :
    (s.quoinAmend j).quoinView = ⟨j.forme, min 65535 (s.amends + 1), j.adm, j.servers, s.time⟩ := by
  unfold State.quoinAmend
  extract_lets x gone y z w u v
  have hy : y.quoinView = s.quoinView := (State.foldl_quoinView State.removeFlow_quoinView gone x).trans s.applyCaptures_quoinView
  have hz : z.quoinView = ⟨j.forme, min 65535 (s.amends + 1), j.adm, j.servers, s.time⟩ := by
    rw [← show y.time = s.time from congrArg QuoinView.time hy, ← show y.amends = s.amends from congrArg QuoinView.amends hy]
    rfl
  calc _ = v.quoinView := (State.quoined_quoinView _).trans v.releaseClaims_keeps.quoinView_eq
    _ = w.quoinView := w.mendGroups_keeps.quoinView_eq
    _ = z.quoinView := State.foldl_quoinView State.beginFlow_quoinView _ z
    _ = _ := hz

/-! ### The takeover image (R76, R451) -/

theorem State.imageAnswered_eq (s : State) (b : Bool) : ∃ x n, s.imageAnswered b = { s with txns := x, nextTag := n } := by
  unfold State.imageAnswered
  split
  · exact ⟨s.txns, s.nextTag, rfl⟩
  · split
    · exact s.issueWrite_eq _ _ _
    · exact ⟨s.txns, s.nextTag, rfl⟩

/-- Writing the image takes the next SEQ and issues transactions, and no more. -/
theorem State.writeImages_eq (s : State) :
    ∃ x n, s.writeImages = { s with imageSeq := s.imageSeq + 1, txns := x, nextTag := n } := by
  unfold State.writeImages
  extract_lets u put
  have hput : ∀ (t : State) a b, ∃ x n, put t a b = { t with txns := x, nextTag := n } := fun t a b => by
    simp only [put]
    split
    · split
      · exact t.imageAnswered_eq b
      · exact t.issueWrite_eq _ _ _
    · exact ⟨t.txns, t.nextTag, rfl⟩
  obtain ⟨x, n, hx⟩ := hput u u.ckptAreas.1 false
  obtain ⟨y, m, hy⟩ := hput (put u u.ckptAreas.1 false) u.ckptAreas.2 true
  exact ⟨y, m, by rw [hy, hx]⟩

/-- With one area in force and a forme to write, its image goes to that area. -/
theorem State.writeImages_one {s : State} {a : Nat} (ha : s.ckptAreas = (some a, none)) (hf : s.forme.size ≠ 0) :
    s.writeImages = ({ s with imageSeq := s.imageSeq + 1 } : State).writeImage a false := by
  unfold State.writeImages
  extract_lets u put
  have hsome : put u (some a) false = u.writeImage a false := if_neg hf
  rw [show u.ckptAreas.1 = some a from congrArg Prod.fst ha, show u.ckptAreas.2 = none from congrArg Prod.snd ha, hsome]

/-- The state when the retained copy is complete, before its image is written. -/
def State.retainedCopy (s : State) : State :=
  { s with
    retaining := false,
    retained := { s.retained with part1 := some (s.forme, s.amends, s.fld F.LKP_ADMIT_CFG_PSTATE_LIVE) } }

theorem exec_retainDone (s : State) : exec .retainDone s = .next s.retainDone := rfl

theorem State.retainDone_eq {s : State} (hr : s.ready = true) (hc : s.retaining = true) :
    s.retainDone = s.retainedCopy.writeImages.setFld F.FRM_STATUS_RETAIN_DONE 1 := if_pos ⟨hr, hc⟩

theorem State.retainDone_idle {s : State} (h : s.ready = false ∨ s.retaining = false) : s.retainDone = s := by
  refine if_neg (fun hc => ?_)
  rcases h with h | h
  · exact absurd (h.symm.trans hc.1) Bool.false_ne_true
  · exact absurd (h.symm.trans hc.2) Bool.false_ne_true

/-! ### The statements -/

/-- Settles O14: the moment that each command finds, and what the quoin point shows of the forme that becomes live. -/
theorem quoinReplacesForme : Obligations.QuoinReplacesForme := by
  intro s j hr hj hp hc live
  have hshows : ∀ {t : State} {n : Nat} {x : TimeRun}, t.quoinView = ⟨j.forme, n, j.adm, j.servers, x⟩ →
      live t.finish ∧ t.finish.amends = n ∧ t.finish.time = x := fun {t n x} hv => by
    have hf := t.finish_quoinView.trans hv
    exact ⟨⟨congrArg QuoinView.forme hf, congrArg QuoinView.adm hf, congrArg QuoinView.servers hf⟩,
      congrArg QuoinView.amends hf, congrArg QuoinView.time hf⟩
  refine ⟨fun hg => ⟨fun hk ht => ?_, fun hk => ?_, fun hk ht => ?_⟩, fun hk ht => ?_,
    fun hg => ⟨fun hk ht => ?_, fun hk ht => ?_⟩⟩
  · obtain ⟨hlive, hamends, -⟩ := hshows (s.quoinFull_quoinView j)
    exact ⟨_, by rw [exec_quoin hr, State.quoin_now hj hp (.inl hk) ht, State.quoinNow_step8 (.inl hk) hc,
      State.step8_full hg hk], hlive, hamends⟩
  · obtain ⟨hlive, hamends, htime⟩ := hshows ((s.advance (j.started + s.quoinTimeoutNs)).quoinFull_quoinView j)
    refine ⟨_, by rw [exec_quoinTimeout hr, State.quoinExpire_now hj hp, State.quoinNow_step8 (.inl hk) hc,
      State.step8_full (s := s.advance _) hg hk], hlive, hamends, ?_⟩
    rw [htime]
    show s.time.now + (j.started + s.quoinTimeoutNs - s.time.now) = max s.time.now (j.started + s.quoinTimeoutNs)
    omega
  · obtain ⟨hlive, hamends, -⟩ := hshows ((State.endAttempt_quoinView _ 1).trans (s.quoinAmend_quoinView j))
    exact ⟨_, by rw [exec_amendQuoin hr, State.amendPoint_now hj hp hk ht, State.quoinNow_step8 (.inr hk) hc,
      State.step8_amend hg hk], hlive, hamends⟩
  · rw [exec_quoin hr, State.quoin_now hj hp (.inr hk) ht, State.quoinNow_reload hk]
  · rw [exec_quoin hr, State.quoin_now hj hp (.inl hk) ht, State.quoinNow_step8 (.inl hk) hc, State.step8_spareless hg]
  · rw [exec_amendQuoin hr, State.amendPoint_now hj hp hk ht, State.quoinNow_step8 (.inr hk) hc, State.step8_spareless hg]

/-- Settles O16: the copy, the image of the next SEQ, and RETAIN_DONE. -/
theorem retainDoneKeepsForme : Obligations.RetainDoneKeepsForme := by
  intro s
  refine ⟨fun hr hc => ?_, fun h => ?_⟩
  · obtain ⟨x, n, hx⟩ := s.retainedCopy.writeImages_eq
    refine ⟨s.retainDone, exec_retainDone s, ?_⟩
    rw [State.retainDone_eq hr hc]
    refine ⟨?_, ?_, ?_, ?_, fun hw => ?_, fun a ha hf => ?_⟩
    · rw [State.setFld_retaining, hx]
      rfl
    · rw [State.setFld_imageSeq, hx]
      rfl
    · rw [State.setFld_forme, hx]
      rfl
    · rw [State.setFld_retained, hx]
      rfl
    · have hwf : s.retainedCopy.writeImages.regs.wf = true := by rw [hx]; exact hw
      unfold State.flag
      rw [State.fld_setFld hwf (by decide)]
      rfl
    · rw [State.writeImages_one (s := s.retainedCopy) ha hf]
      rfl
  · rw [exec_retainDone, State.retainDone_idle h]

end Sys2Proof.Machine
end

section
/-! PROOFS of the statements about scheduling: the release of a deadline task, the piece that a free unit takes, and the residency of
P0 with its bins and the advice of a window (R97, R99, R100, R105, R191, R345, R422, R423, R488). -/

namespace Sys2Proof.Machine

/-- A command that acts only while READY is set acts then. -/
theorem State.else_active {α : Type} {s : State} (h : s.ready = true) (a b : α) : (if !s.active then a else b) = b :=
  if_neg (by rw [State.active, h]; decide)

/-! ### The release of a deadline task (R97, R191) -/

theorem exec_taskRelease (s : State) : exec .taskRelease s = .next s.taskRelease.finish := rfl

theorem State.taskRelease_due {s : State} {t : Task} {fe : FlowEntry} {due : Nat} (hr : s.ready = true)
    (hn : s.nextRelease = some (t, fe, due)) : s.taskRelease = s.releaseTask t fe due := by
  unfold State.taskRelease
  rw [State.else_active hr, hn]

theorem State.taskRelease_idle {s : State} (hn : s.nextRelease = none) : s.taskRelease = s := by
  unfold State.taskRelease
  rw [hn, ite_self]

/-! ### The piece that a free unit takes (R99, R100, R345) -/

/-- Images are read again at the text server alone, and only where the fabric answers. -/
theorem State.rereadImages_idle {s : State} {v : Nat} {f : Fetch} (h : v ≠ 0x25 ∨ f = []) : s.rereadImages v f = s :=
  if_pos (h.imp_right List.isEmpty_iff.2)

theorem State.rereadImages_ready (s : State) (v : Nat) (f : Fetch) : (s.rereadImages v f).ready = s.ready := by
  unfold State.rereadImages
  split <;> rfl

theorem exec_pieceDispatch {s : State} {v : Fin 41} (hr : s.ready = true) (hd : s.runs (s.serverDomain v.val) = true) (f : Fetch) :
    exec (.pieceDispatch v f) s = .next ((s.rereadImages v.val f).dispatch v.val).finish :=
  congrArg (fun t : State => Host.Outcome.next t.finish) ((s.whenUp_ready hr _).trans (if_pos hd))

section
variable {s : State} {v : Nat} {r : Ready} {id k : Nat} {t : Task} {x : BatchOut}

theorem State.dispatch_idle (hp : s.pickPiece v = none) : s.dispatch v = s := by
  unfold State.dispatch
  rw [hp, ite_self]

theorem State.dispatch_task (hr : s.ready = true) (hp : s.pickPiece v = some r) (hk : r.piece = .task id) (ht : s.task? id = some t) :
    s.dispatch v = s.doTask r.fe t v := by
  unfold State.dispatch
  simp only [State.else_active hr, hp, hk, ht]

theorem State.dispatch_xfer (hr : s.ready = true) (hp : s.pickPiece v = some r) (hk : r.piece = .xfer id) (ht : s.task? id = some t) :
    s.dispatch v = (s.dispatchXfer t).countServed r.fe v ((t.delta.bind DeltaTask.cutBytes).getD 0) := by
  unfold State.dispatch
  simp only [State.else_active hr, hp, hk, ht]

theorem State.dispatch_unit (hr : s.ready = true) (hp : s.pickPiece v = some r) (hk : r.piece = .unit k)
    (hx : s.batches.find? (fun x => x.key == k) = some x) : s.dispatch v = (s.dispatchUnit x).countServed r.fe v r.bytes := by
  unfold State.dispatch
  simp only [State.else_active hr, hp, hk, hx]

theorem State.dispatch_asm (hr : s.ready = true) (hp : s.pickPiece v = some r) (hk : r.piece = .asm k)
    (hx : s.batches.find? (fun x => x.key == k) = some x) : s.dispatch v = (s.doAsm x).countServed r.fe v (min 65536 x.asm) := by
  unfold State.dispatch
  simp only [State.else_active hr, hp, hk, hx]

end

/-! ### Boost residency (R422, R423, R488) -/

/-- The work after a command changes no more of PTC than the bytes that it counts. -/
theorem State.finish_ptc {α : Type} (s : State) (g : PtcRun → α) (hg : ∀ c : PtcRun, g { c with dlMoved := 0 } = g c) :
    g s.finish.ptc = g s.ptc := by
  rw [← hg s.finish.ptc, (State.finish_keeps (Keeps.refl s)).ptc_eq, hg]

theorem State.finish_time (s : State) : s.finish.time = s.time := (State.finish_keeps (Keeps.refl s)).time_eq

theorem State.advance_now (s : State) (due : Nat) : (s.advance due).time.now = max s.time.now due := by
  show s.time.now + (due - s.time.now) = _
  omega

/-- When the rest of the budget has passed since the start of P0, the residency has reached it. -/
theorem State.budget_le_boostUsed {s : State} {a : Nat} (hp : s.ptc.p0Since = some a)
    (hn : a + (s.boostBudget - sumL s.ptc.bins) ≤ s.time.now) : s.boostBudget ≤ s.boostUsed := by
  unfold State.boostUsed
  rw [hp]
  show _ ≤ _ + (s.time.now - a)
  omega

/-- The budget is read from the power settings in effect alone. -/
theorem State.boostBudget_congr {s t : State} (h : t.ptc.limits = s.ptc.limits) : t.boostBudget = s.boostBudget := by
  unfold State.boostBudget State.limit
  rw [h]

/-- P0 that is out of its budget stays so while the residency is at the budget. -/
theorem State.budgetNext_of_used {s : State} (ho : s.ptc.budgetOut = true) (hu : s.boostBudget ≤ s.boostUsed) :
    s.budgetNext = true := by
  have hlow : ¬ 100 * s.boostUsed < 95 * s.boostBudget := by omega
  unfold State.budgetNext
  rw [ho, decide_eq_false hlow]
  rfl

theorem State.boostOk_of_budgetOut {s : State} (h : s.ptc.budgetOut = true) : s.boostOk = false := by
  unfold State.boostOk
  rw [h]
  simp

/-- With the budget spent and P0 marked as out of it, P0 is not in force after the ceilings are taken up. -/
theorem State.settlePtc_out {s : State} (hu : s.boostBudget ≤ s.boostUsed) :
    let t := (s.modPtc (fun c => { c with budgetOut := true })).settlePtc
    t.ptc.budgetOut = true ∧ 1 ≤ t.ptc.pstate ∧ t.time = s.time := by
  intro t
  obtain ⟨-, htime, -, -, -, hle, hnext, -⟩ := (s.modPtc (fun c => { c with budgetOut := true })).settlePtc_spec
  have hout : t.ptc.budgetOut = true := hnext.trans (State.budgetNext_of_used rfl hu)
  exact ⟨hout, (State.boost_le_allowed (State.boostOk_of_budgetOut hout)).trans hle, htime⟩

theorem State.bankBoost_idle {s : State} (hp : s.ptc.p0Since = none) : s.bankBoost = s := by
  unfold State.bankBoost
  rw [hp]

/-- The residency that runs goes into the newest bin. -/
theorem State.bankBoost_running {s : State} {a b : Nat} {rest : List Nat} (hp : s.ptc.p0Since = some a) (hb : s.ptc.bins = b :: rest) :
    s.bankBoost = { s with ptc := { s.ptc with bins := (b + (s.time.now - a)) :: rest, p0Since := some s.time.now } } := by
  have hrest : rest.mapIdx (fun i x => if i + 1 = 0 then x + (s.now - a) else x) = rest := by
    apply List.ext_getElem <;> simp
  unfold State.bankBoost State.modPtc
  rw [hp]
  simp only [hb, List.mapIdx_cons, if_true, hrest]
  rfl

theorem exec_boostBudgetEnd (s : State) : exec .boostBudgetEnd s = .next s.budgetEnd.finish := rfl

theorem exec_boostBinRoll (s : State) : exec .boostBinRoll s = .next s.binRoll.finish := rfl

theorem exec_boostBinsSave {s : State} (hr : s.ready = true) : exec .boostBinsSave s = .next s.writeBins :=
  congrArg Host.Outcome.next (if_pos hr)

theorem State.budgetEnd_eq {s : State} {a : Nat} (hp : s.ptc.p0Since = some a) :
    s.budgetEnd = ((s.advance (a + (s.boostBudget - sumL s.ptc.bins))).modPtc (fun c => { c with budgetOut := true })).settlePtc := by
  unfold State.budgetEnd
  rw [hp]

theorem State.budgetEnd_spec {s : State} {a : Nat} (hp : s.ptc.p0Since = some a) :
    s.budgetEnd.ptc.budgetOut = true ∧ 1 ≤ s.budgetEnd.ptc.pstate ∧
      s.budgetEnd.time.now = max s.time.now (a + (s.boostBudget - sumL s.ptc.bins)) := by
  have hspent := State.budget_le_boostUsed (s := s.advance (a + (s.boostBudget - sumL s.ptc.bins))) (a := a)
    (by rw [State.advance_ptc]; exact hp) (by
      rw [State.advance_now, State.boostBudget_congr (s := s) (by rw [State.advance_ptc]), State.advance_ptc]
      exact Nat.le_max_right _ _)
  obtain ⟨hout, hstate, htime⟩ := State.settlePtc_out hspent
  rw [State.budgetEnd_eq hp]
  exact ⟨hout, hstate, (congrArg TimeRun.now htime).trans (s.advance_now _)⟩

theorem PtcRun.rest_binAt (c : PtcRun) : c.rest.binAt = c.binAt := rfl

/-- The state after a roll at due, before the ceilings are taken up; low: the residency is below 95 % of the budget. -/
def State.rolled (s : State) (due : Nat) (low : Bool) : State :=
  (s.modPtc (fun c => { c with bins := 0 :: c.bins.take 59, binAt := due })).modPtc (fun c => { c with
    budgetOut := c.budgetOut && !low })

theorem State.rolled_settled {s : State} (hp : s.ptc.p0Since = none) (due : Nat) (low : Bool) :
    (s.rolled due low).settlePtc.ptc.bins = 0 :: s.ptc.bins.take 59 ∧ (s.rolled due low).settlePtc.ptc.binAt = due ∧
      (s.rolled due low).settlePtc.time = s.time := by
  obtain ⟨hrest, htime, -, -, -, -, -, hbins⟩ := (s.rolled due low).settlePtc_spec
  exact ⟨hbins hp, (PtcRun.rest_binAt _).symm.trans ((congrArg PtcRun.binAt hrest).trans (PtcRun.rest_binAt _)), htime⟩

theorem State.binRoll_eq {s : State} (hr : s.ready = true) (hp : s.ptc.p0Since = none) : ∃ low,
    s.binRoll = ((s.advance (s.ptc.binAt + 60000000000)).rolled (s.ptc.binAt + 60000000000) low).settlePtc := by
  unfold State.binRoll State.rolled
  rw [State.else_active hr]
  dsimp only
  rw [State.bankBoost_idle (by rw [State.advance_ptc]; exact hp)]
  exact ⟨_, rfl⟩

/-- Without a P0 that runs, the bins move by one, and the oldest ages out. -/
theorem State.binRoll_spec {s : State} (hr : s.ready = true) (hp : s.ptc.p0Since = none) :
    s.binRoll.ptc.bins = 0 :: s.ptc.bins.take 59 ∧ s.binRoll.ptc.binAt = s.ptc.binAt + 60000000000 ∧
      s.binRoll.time.now = max s.time.now (s.ptc.binAt + 60000000000) := by
  obtain ⟨low, he⟩ := State.binRoll_eq hr hp
  obtain ⟨hbins, hat, htime⟩ := State.rolled_settled (s := s.advance (s.ptc.binAt + 60000000000))
    (by rw [State.advance_ptc]; exact hp) (s.ptc.binAt + 60000000000) low
  rw [he]
  refine ⟨?_, hat, ?_⟩
  · rw [hbins, State.advance_ptc]
  · rw [htime, State.advance_now]

/-! ### The advice of a window (R105) -/

/-- Of fields that share no bit, each reads the value written to it. -/
theorem State.fld_setFlds_mem {s : State} {l : List (Field × Nat)} {f : Field} {v : Nat} (h : s.regs.wf = true)
    (hl : ∀ x ∈ l, x.1.lo + x.1.width ≤ 64) (ha : l.Pairwise (fun x y => x.1.apart y.1)) (hm : (f, v) ∈ l) :
    (s.setFlds l).fld f = v % 2 ^ f.width := by
  induction l generalizing s with
  | nil => cases hm
  | cons x l ih =>
    obtain ⟨hx, hrest⟩ := List.pairwise_cons.1 ha
    have hl' : ∀ y ∈ l, y.1.lo + y.1.width ≤ 64 := fun y hy => hl y (List.mem_cons_of_mem x hy)
    rcases List.mem_cons.1 hm with rfl | hm
    · exact State.fld_setFlds_head h (hl _ List.mem_cons_self) (fun y hy => ⟨hl' y hy, hx y hy⟩)
    · exact ih (s := s.setFld x.1 x.2) (State.setFld_wf h) hl' hrest hm

/-- The ten fields of the advice, with what a window that ends writes to them. -/
def State.adviceFlds (s : State) : List (Field × Nat) :=
  (List.range 10).map (fun i => (F.LKP_OFFLOAD_ADVICE_ADVICE i, s.adviceOf (i + 1)))

/-- The advice of a station does not read the registers that the advice is written to. -/
theorem State.setFld_adviceOf (s : State) (f : Field) (v st : Nat) : (s.setFld f v).adviceOf st = s.adviceOf st := rfl

theorem State.foldl_advice (s : State) (l : List Nat) :
    l.foldl (fun (s : State) i => s.setFld (F.LKP_OFFLOAD_ADVICE_ADVICE i) (s.adviceOf (i + 1))) s =
      s.setFlds (l.map (fun i => (F.LKP_OFFLOAD_ADVICE_ADVICE i, s.adviceOf (i + 1)))) := by
  induction l generalizing s with
  | nil => rfl
  | cons i l ih =>
    rw [List.foldl_cons, ih]
    simp only [State.setFld_adviceOf]
    rfl

theorem State.offloadWindow_eq {s : State} (hr : s.ready = true) :
    s.offloadWindow = { s.setFlds s.adviceFlds with window1ms := [] } := by
  unfold State.offloadWindow
  rw [State.else_active hr, State.foldl_advice]
  rfl

theorem exec_offloadWindow {s : State} (hr : s.ready = true) :
    exec .offloadWindow s = .next { s with regs := (s.setFlds s.adviceFlds).regs, window1ms := [] } := by
  refine (congrArg Host.Outcome.next (State.offloadWindow_eq hr)).trans ?_
  obtain ⟨q, hq⟩ := s.setFlds_eq s.adviceFlds
  rw [hq]

theorem State.get_adviceFlds_other {s : State} {off : Nat}
    (h : off ∉ (List.range 10).map (fun i => (F.LKP_OFFLOAD_ADVICE_ADVICE i).off)) :
    (s.setFlds s.adviceFlds).regs.get off = s.regs.get off := by
  refine s.get_setFlds_other (fun x hx e => h ?_)
  obtain ⟨i, hi, rfl⟩ := List.mem_map.1 hx
  exact List.mem_map.2 ⟨i, hi, e⟩

theorem State.fld_adviceFlds {s : State} (h : s.regs.wf = true) {i : Nat} (hi : i < 10) :
    (s.setFlds s.adviceFlds).fld (F.LKP_OFFLOAD_ADVICE_ADVICE i) = s.adviceOf (i + 1) % 512 := by
  refine State.fld_setFlds_mem h ?_ ?_ (List.mem_map.2 ⟨i, List.mem_range.2 hi, rfl⟩)
  · intro x hx
    obtain ⟨j, -, rfl⟩ := List.mem_map.1 hx
    exact (by decide : 0 + 9 ≤ 64)
  · refine List.pairwise_map.2 (List.pairwise_lt_range.imp (fun {j k} hjk => Or.inl ?_))
    show 0x200108 + 0x8 * j ≠ 0x200108 + 0x8 * k
    omega

/-! ### The statements -/

/-- Settles O29: the release of the task that is due is State.releaseTask, whose two ends are the two cases. -/
theorem deadlineTaskReleases : Obligations.DeadlineTaskReleases := by
  intro s hr
  refine ⟨fun t fe due hn => ?_, fun hn => ?_⟩
  · rw [exec_taskRelease, State.taskRelease_due hr hn]
    rfl
  · rw [exec_taskRelease, State.taskRelease_idle hn]

/-- Settles O33: after the images are read again the unit takes the piece that is next, one case for each kind of piece. -/
theorem pieceDispatched : Obligations.PieceDispatched := by
  intro s v f hr hd u
  have hu : u.ready = true := (s.rereadImages_ready v.val f).trans hr
  have hx : exec (.pieceDispatch v f) s = .next (u.dispatch v.val).finish := exec_pieceDispatch hr hd f
  rw [hx]
  refine ⟨State.rereadImages_idle, fun hp => ?_, fun r hp => ⟨fun id t hk ht => ?_, fun id t hk ht => ?_,
    fun k x hf => ⟨fun hk => ?_, fun hk => ?_⟩⟩⟩
  · rw [State.dispatch_idle hp]
  · rw [State.dispatch_task hu hp hk ht]
  · rw [State.dispatch_xfer hu hp hk ht]
  · rw [State.dispatch_unit hu hp hk hf]
  · rw [State.dispatch_asm hu hp hk hf]

/-- Settles O58: the end of the budget, the roll and the saving of the bins, and the advice at the end of a window. -/
theorem boostIsBudgeted : Obligations.BoostIsBudgeted := by
  intro s hr
  refine ⟨fun a hp => ?_, fun hp => ?_, fun hp => ?_, fun a b rest hp hb => ?_, ?_⟩
  · obtain ⟨hout, hstate, hnow⟩ := State.budgetEnd_spec hp
    exact ⟨_, exec_boostBudgetEnd s, (State.finish_ptc _ PtcRun.budgetOut (fun _ => rfl)).trans hout,
      hstate.trans_eq (State.finish_ptc _ PtcRun.pstate (fun _ => rfl)).symm,
      (congrArg TimeRun.now (State.finish_time _)).trans hnow⟩
  · obtain ⟨hbins, hat, hnow⟩ := State.binRoll_spec hr hp
    exact ⟨_, exec_boostBinRoll s, (State.finish_ptc _ PtcRun.bins (fun _ => rfl)).trans hbins,
      (State.finish_ptc _ PtcRun.binAt (fun _ => rfl)).trans hat, (congrArg TimeRun.now (State.finish_time _)).trans hnow⟩
  · rw [exec_boostBinsSave hr, State.writeBins, State.bankBoost_idle hp]
  · rw [exec_boostBinsSave hr, State.writeBins, State.bankBoost_running hp hb]
  · exact ⟨_, exec_offloadWindow hr, fun _ => State.get_adviceFlds_other, fun hw _ => State.fld_adviceFlds hw⟩

end Sys2Proof.Machine
end

section
/-! PROOFS of the statements about the registers of a tenancy's page: ring commands, record tables, the push queue and the pushes that
it holds (R124, R128 to R132, R135, R141, R215). -/

namespace Sys2Proof.Machine

open Sys2Proof.Safety

/-- Equal states before the work that follows a command give equal outcomes. -/
theorem next_finish_congr {u v : State} (h : u = v) : (.next u.finish : Host.Outcome State Fault Refusal) = .next v.finish :=
  congrArg (fun s : State => Host.Outcome.next s.finish) h

/-! ### Ring commands (R128, R129, R135) -/

section
variable {s : State} {r : CsReq} {t : Fin 16} {ring : BitVec 20}

/-- A ring command that is written while another runs sets OVERRUN alone; else it is run. -/
theorem exec_ringEnableSq (h : TenancyMay r t s) (f : Fetch) : exec (.ringEnableSq r t ring f) s =
    .next (if s.flag (F.TEN_RING_STATUS_BUSY t.val) then (answered s).setFld (F.TEN_RING_STATUS_OVERRUN t.val) 1
      else (answered s).sqEnable t ring.toNat f).finish :=
  next_finish_congr ((State.hostPage_ringCmd h).trans (State.ringCommand_eq (by decide) (.inl rfl) ring.isLt))

theorem exec_ringEnableCq (h : TenancyMay r t s) (f : Fetch) : exec (.ringEnableCq r t ring f) s =
    .next (if s.flag (F.TEN_RING_STATUS_BUSY t.val) then (answered s).setFld (F.TEN_RING_STATUS_OVERRUN t.val) 1
      else (answered s).cqEnable t ring.toNat f).finish :=
  next_finish_congr ((State.hostPage_ringCmd h).trans (State.ringCommand_eq (by decide) (.inl rfl) ring.isLt))

theorem exec_ringDisableSq (h : TenancyMay r t s) : exec (.ringDisableSq r t ring) s =
    .next (if s.flag (F.TEN_RING_STATUS_BUSY t.val) then (answered s).setFld (F.TEN_RING_STATUS_OVERRUN t.val) 1
      else (answered s).sqDisable t ring.toNat).finish :=
  next_finish_congr ((State.hostPage_ringCmd h).trans (State.ringCommand_eq (by decide) (.inr rfl) ring.isLt))

theorem exec_ringDisableCq (h : TenancyMay r t s) : exec (.ringDisableCq r t ring) s =
    .next (if s.flag (F.TEN_RING_STATUS_BUSY t.val) then (answered s).setFld (F.TEN_RING_STATUS_OVERRUN t.val) 1
      else (answered s).cqDisable t ring.toNat).finish :=
  next_finish_congr ((State.hostPage_ringCmd h).trans (State.ringCommand_eq (by decide) (.inr rfl) ring.isLt))

end

section
variable {s : State} {t ring : Nat} {f : Fetch}

/-- Enabling a submission ring whose record's read has no answer leaves the command waiting for it. -/
theorem State.sqEnable_waits (h1 : (s.tenEntry t).sqIn ring = true) (h2 : s.sq? ring = none)
    (h3 : inWindows (s.windows t) true true (s.sqRecord t ring) 32 = true) (hb : fetchBytes f (s.sqRecord t ring) 32 = none)
    (hn : noAnswer f (s.sqRecord t ring) 32 = true) : s.sqEnable t ring f = s.fetchRecord false t ring (s.sqRecord t ring) := by
  rw [State.sqEnable_reads h1 h2 h3, hb]
  exact if_pos hn

theorem State.cqEnable_waits (h1 : (s.tenEntry t).cqIn ring = true) (h2 : s.cq? ring = none)
    (h3 : inWindows (s.windows t) true true (s.cqRecord t ring) 32 = true) (hb : fetchBytes f (s.cqRecord t ring) 32 = none)
    (hn : noAnswer f (s.cqRecord t ring) 32 = true) : s.cqEnable t ring f = s.fetchRecord true t ring (s.cqRecord t ring) := by
  rw [State.cqEnable_reads h1 h2 h3, hb]
  exact if_pos hn

/-- Disabling an enabled submission ring sets it draining, and ends it at once when no task of it is in flight. -/
theorem State.sqDisable_enabled {q : SqRing} (h1 : (s.tenEntry t).sqIn ring = true) (h2 : s.sq? ring = some q) (h3 : q.state = 1) :
    s.sqDisable t ring = (((s.modSq ring (fun q => { q with state := 2, bit := false })).issueWrite (s.sqRecord t ring + 24)
      (leBytes 4 2) (.ringRecord ring)).closeRing ring).ringResult t ring .done := by
  have hd : q.state ≠ 2 := by omega
  unfold State.sqDisable
  rw [if_neg (by simp [h1]), h2]
  dsimp only
  rw [if_neg hd]
  rfl

/-- Disabling an enabled completion ring removes it unless something uses it. -/
theorem State.cqDisable_enabled {c : CqRing} (h1 : (s.tenEntry t).cqIn ring = true) (h2 : s.cq? ring = some c) :
    s.cqDisable t ring = if s.cqBound ring then s.ringResult t ring .bound else
      (({ s with cqs := s.cqs.filter (fun c => c.cq != ring) } : State).issueWrite (s.cqRecord t ring + 28) (leBytes 4 0)
        (.ringRecord ring)).ringResult t ring .done := by
  unfold State.cqDisable
  rw [h1, h2]
  rfl

end

/-! ### The record tables (R129, R215) -/

section
variable {s : State} {r : CsReq} {t : Fin 16} {v : Word}

theorem exec_tenSqTable (h : TenancyMay r t s) : exec (.tenSqTable r t v) s = .next ((answered s).sqTable r t v).finish :=
  next_finish_congr (State.hostPage_sqTable h)

theorem exec_tenCqTable (h : TenancyMay r t s) : exec (.tenCqTable r t v) s = .next ((answered s).cqTable r t v).finish :=
  next_finish_congr (State.hostPage_cqTable h)

theorem exec_tenLiveTable (h : TenancyMay r t s) : exec (.tenLiveTable r t v) s = .next ((answered s).liveTable r t v).finish :=
  next_finish_congr (State.hostPage_liveTable h)

/-- The response and a register are no part of what Calm asks for. -/
theorem State.finish_setFld_calm (h : Calm s) (x : Field) (n : Nat) : ((answered s).setFld x n).finish = (answered s).setFld x n :=
  State.finish_calm (s := (answered s).setFld x n) h

end

/-! ### The push queue (R130, R132) -/

section
variable {s : State} {r : CsReq} {t : Fin 16} {v : Word} {f : Fetch}

/-- The response and a push queue are no part of what Calm asks for. -/
theorem State.finish_modTen_calm (h : Calm s) (i : Nat) (g : TenRun → TenRun) :
    ((answered s).modTen i g).finish = (answered s).modTen i g :=
  State.finish_calm (s := (answered s).modTen i g) h

/-- A drain takes the oldest push of the tenancy that is next, and then the writes that its room lets go on. -/
theorem State.pushDrain_eq (hr : s.ready = true) (hn : s.nextPusher = some t.val) : s.pushDrain f =
    State.unstall t f ((s.drainOne t f).tenRun t).stalled.length { s.drainOne t f with pushRot := (t.val + 1) % 16 } := by
  unfold State.pushDrain
  rw [State.else_active hr, hn]
  have ht : Fin.ofNat 16 t.val = t := by simp
  simp only [ht]

theorem State.drainOne_eq {p : Push} {rest : List Push} {i : Nat} (hp : (s.tenRun i).pushes = p :: rest) :
    s.drainOne i f = (s.modTen i (fun x => { x with pushes := rest })).handlePush i p f := by
  unfold State.drainOne
  rw [hp]

/-- A push of TEN_DOORBELL is a doorbell push. -/
theorem State.handlePush_doorbell {p : Push} (h : p.off = pageOff t Row.TEN_DOORBELL) : s.handlePush t p f = s.doorbellPush t p.v := by
  unfold State.handlePush
  rw [h, pageOff_sub]
  exact if_pos rfl

/-- The four cases of R130. -/
theorem State.doorbellPush_eq (s : State) (i : Nat) (v : Word) : s.doorbellPush i v =
    if (s.tenEntry i).sqIn (getBits v 0 20) = false then s.badPush i (F.TEN_DB_ERRORS_BAD_RING i)
    else match s.sq? (getBits v 0 20) with
      | none => s.badPush i (F.TEN_DB_ERRORS_DISABLED_RING i)
      | some q => if q.state ≠ 1 then s.badPush i (F.TEN_DB_ERRORS_DISABLED_RING i)
        else if 2 ^ q.log2 ≤ getBits v 20 16 then s.badPush i (F.TEN_DB_ERRORS_BAD_TAIL i)
        else (s.modSq (getBits v 0 20) (fun q => { q with tail := getBits v 20 16, bit := true })).issueWrite
          (s.sqRecord i (getBits v 0 20) + 20) (leBytes 4 (getBits v 20 16)) (.ringRecord (getBits v 0 20)) := by
  unfold State.doorbellPush
  simp only [Bool.not_eq_true']
  rfl

theorem exec_doorbell_queued (h : TenancyMay r t s) : exec (.doorbell r t v) s =
    .next ((answered s).enqueue r t (pageOff t Row.TEN_DOORBELL) v false).finish :=
  next_finish_congr (State.doorbell_queued h)

theorem exec_pushDrain (s : State) (f : Fetch) : exec (.pushDrain f) s = .next (s.pushDrain f).finish := rfl

theorem exec_cqDoorbell (h : TenancyMay r t s) (hq : QueuesHold s) (he : (s.tenRun t).pushes = []) : exec (.cqDoorbell r t v) s =
    .next ((answered s).cqDoorbellPush t v).finish :=
  next_finish_congr (State.hostPage_cqDoorbell h hq he)

end

/-! ### The statements -/

/-- Settles O21: the tests of R128 are passed one after the other, by what each way of the record's read leads to. -/
theorem ringEnableLists : Obligations.RingEnableLists := by
  intro s r t ring f h u a b sq cq
  refine ⟨fun hb h1 h2 h3 => ⟨fun d hd e1 e2 e3 e4 e5 e6 e7 => ?_, fun hd hn => ?_⟩,
    fun hb h1 h2 h3 => ⟨fun d hd e1 e2 e3 => ?_, fun hd hn => ?_⟩, fun hb c hc => ?_⟩
  · rw [exec_ringEnableSq h, hb, State.sqEnable_reads (s := answered s) h1 h2 h3]
    have hd' : fetchBytes f ((answered s).sqRecord t ring.toNat) 32 = some d := hd
    rw [hd']
    exact next_finish_congr (State.sqRecordCame_lists (s := answered s) e1 e2 e3 e4 e5 e6 e7)
  · rw [exec_ringEnableSq h, hb]
    exact next_finish_congr (State.sqEnable_waits (s := answered s) h1 h2 h3 hd hn)
  · rw [exec_ringEnableCq h, hb, State.cqEnable_reads (s := answered s) h1 h2 h3]
    have hd' : fetchBytes f ((answered s).cqRecord t ring.toNat) 32 = some d := hd
    rw [hd']
    exact next_finish_congr (State.cqRecordCame_lists (s := answered s) e1 e2 e3)
  · rw [exec_ringEnableCq h, hb]
    exact next_finish_congr (State.cqEnable_waits (s := answered s) h1 h2 h3 hd hn)
  · simp only [List.mem_cons, List.not_mem_nil, or_false] at hc
    rcases hc with rfl | rfl | rfl | rfl
    · rw [exec_ringEnableSq h, if_pos hb]
    · rw [exec_ringEnableCq h, if_pos hb]
    · rw [exec_ringDisableSq h, if_pos hb]
    · rw [exec_ringDisableCq h, if_pos hb]

/-- Settles O22: each kind of ring is disabled as its rule says of a ring that is enabled. -/
theorem ringDisableDrains : Obligations.RingDisableDrains := by
  intro s r t ring h hb u
  refine ⟨fun q h1 h2 h3 => ?_, fun c h1 h2 => ?_⟩
  · rw [exec_ringDisableSq h, hb]
    exact next_finish_congr (State.sqDisable_enabled (s := answered s) h1 h2 h3)
  · rw [exec_ringDisableCq h, hb]
    exact next_finish_congr (State.cqDisable_enabled (s := answered s) h1 h2)

/-- Settles O23: each table's write is one choice, and on a calm state nothing follows the taken address. -/
theorem tableWriteTakesAddress : Obligations.TableWriteTakesAddress := by
  intro s r t v h u a sq cq live liveUsed
  have hsq : exec (.tenSqTable r t v) s =
      .next (if s.sqs.any (fun q => q.ten == t.val) = true then u.logAccess r (pageOff t Row.TEN_SQ_TABLE) else sq).finish :=
    exec_tenSqTable h
  have hcq : exec (.tenCqTable r t v) s =
      .next (if s.cqs.any (fun q => q.ten == t.val) = true then u.logAccess r (pageOff t Row.TEN_CQ_TABLE) else cq).finish :=
    exec_tenCqTable h
  have hlive : exec (.tenLiveTable r t v) s =
      .next (if liveUsed = true then u.logAccess r (pageOff t Row.TEN_LIVE_TABLE) else live).finish :=
    exec_tenLiveTable h
  refine ⟨hsq, hcq, hlive, fun hc => ⟨fun hn => ?_, fun hn => ?_, fun hn => ?_⟩⟩
  · rw [hsq, hn]
    exact congrArg Host.Outcome.next (State.finish_setFld_calm hc _ _)
  · rw [hcq, hn]
    exact congrArg Host.Outcome.next (State.finish_setFld_calm hc _ _)
  · rw [hlive, hn]
    exact congrArg Host.Outcome.next (State.finish_setFld_calm hc _ _)

/-- Settles O24: with room and nothing stalled the push enters its queue, and each of the twelve commands is a page write, which
stalls otherwise. -/
theorem doorbellQueues : Obligations.DoorbellQueues := by
  intro s r t v hf hv hs hh put queued stalled
  refine ⟨fun hp hst => ?_, fun hst ring f x hx => ?_⟩
  · have hq : exec (.doorbell r t v) s = .next queued.finish := exec_doorbell_queued ⟨hf, hv, hs, hh, hp, hst⟩
    exact ⟨hq, fun hc => hq.trans (congrArg Host.Outcome.next (State.finish_modTen_calm hc _ _))⟩
  · obtain ⟨g, hpage, hrow⟩ : ∃ g, exec x.1 s = .next (s.hostPage r t x.2.1 x.2.2 g).finish ∧ x.2.1 ∈ pageRows := by
      simp only [List.mem_cons, List.not_mem_nil, or_false] at hx
      rcases hx with rfl | rfl | rfl | rfl | rfl | rfl | rfl | rfl | rfl | rfl | rfl | rfl <;>
        exact ⟨_, rfl, by dsimp only; decide⟩
    have hq : exec x.1 s = .next (stalled x.2.1 x.2.2).finish :=
      hpage.trans (next_finish_congr (State.hostPage_stalled hf hv hs hh hrow hst))
    exact ⟨hq, fun hc => hq.trans (congrArg Host.Outcome.next (State.finish_modTen_calm hc _ _))⟩

/-- Settles O25: a drain handles the oldest push, by its register. -/
theorem pushDrainHandlesOldest : Obligations.PushDrainHandlesOldest := by
  intro s t p rest f hr hn hp u ring tail bad handled
  have hd : s.drainOne t f = handled := by
    rw [State.drainOne_eq hp]
    by_cases ho : p.off = pageOff t Row.TEN_DOORBELL
    · exact ((State.handlePush_doorbell ho).trans (u.doorbellPush_eq t p.v)).trans (if_neg (not_not.2 ho)).symm
    · exact (if_pos ho).symm
  refine ⟨?_, by decide⟩
  rw [exec_pushDrain, State.pushDrain_eq hr hn, hd]

/-- Settles O26: the three causes of R141, in order. -/
theorem cqDoorbellReturnsEntries : Obligations.CqDoorbellReturnsEntries := by
  intro s r t v h hq he u ring head bad
  rw [exec_cqDoorbell h hq he]
  refine next_finish_congr ?_
  show u.cqDoorbellPush t v = _
  unfold State.cqDoorbellPush
  have hc : u.cq? (getBits v 0 16) = s.cq? ring := rfl
  have ht : (u.tenEntry t).cqIn (getBits v 0 16) = (s.tenEntry t).cqIn ring := rfl
  simp only [hc, ht]
  cases hin : (s.tenEntry t).cqIn ring with
  | false => cases s.cq? ring <;> rfl
  | true => cases s.cq? ring <;> rfl

end Sys2Proof.Machine
end

section
/-! PROOFS of the statement about a tenancy's reset: no step of it adds a ring or an entry that is due, and the steps that end
those of the tenancy end all of them (R118, R119). -/

namespace Sys2Proof.Machine

open Sys2Proof.Safety

/-! ### What leaves the rings and the due entries as they are -/

/-- The submission rings, the completion rings and the entries that are due. -/
def State.rings (s : State) : List SqRing × List CqRing × List DueEntry := (s.sqs, s.cqs, s.due)

theorem State.foldl_rings {α : Type} {f : State → α → State} (hf : ∀ s x, (f s x).rings = s.rings) (l : List α) (s : State) :
    (l.foldl f s).rings = s.rings := by
  induction l generalizing s with
  | nil => rfl
  | cons x l ih => rw [List.foldl_cons, ih, hf]

section
variable (s : State)

@[simp] theorem State.setFld_rings (f : Field) (v : Nat) : (s.setFld f v).rings = s.rings := rfl

@[simp] theorem State.raiseOn_rings (src : Nat) (c : Charge) : (s.raiseOn src c).rings = s.rings := rfl

@[simp] theorem State.modTask_rings (id : Nat) (g : Task → Task) : (s.modTask id g).rings = s.rings := rfl

@[simp] theorem State.modRun_rings (f : Nat) (g : FlowRun → FlowRun) : (s.modRun f g).rings = s.rings := rfl

@[simp] theorem State.setRun_rings (r : FlowRun) : (s.setRun r).rings = s.rings := rfl

@[simp] theorem State.modPool_rings (p : Nat) (g : PoolRun → PoolRun) : (s.modPool p g).rings = s.rings := rfl

@[simp] theorem State.countWindow_rings (st n m : Nat) : (s.countWindow st n m).rings = s.rings := rfl

@[simp] theorem State.dropWaiter_rings (task : Nat) : (s.dropWaiter task).rings = s.rings := rfl

@[simp] theorem State.freeMover_rings (p : Purpose) : (s.freeMover p).rings = s.rings := rfl

@[simp] theorem State.modDelta_rings (id : Nat) (g : DeltaTask → DeltaTask) : (s.modDelta id g).rings = s.rings := rfl

@[simp] theorem State.releaseStream_rings (t : Task) : (s.releaseStream t).rings = s.rings :=
  s.modRun_rings _ _

@[simp] theorem State.issueWrite_rings (a : Nat) (d : List Byte) (p : Purpose) : (s.issueWrite a d p).rings = s.rings := by
  obtain ⟨x, n, h⟩ := s.issueWrite_eq a d p
  rw [h]
  rfl

@[simp] theorem State.setFlds_rings (l : List (Field × Nat)) : (s.setFlds l).rings = s.rings :=
  State.foldl_rings (fun s _ => s.setFld_rings _ _) l s

/-! Pools and handles (R167, R174 to R176). -/

@[simp] theorem State.notePeak_rings (p : Nat) : (s.notePeak p).rings = s.rings := by
  unfold State.notePeak
  split
  · rfl
  · exact State.setFld_rings _ _ _

@[simp] theorem State.giveBlock_rings (p flow task : Nat) : (s.giveBlock p flow task).rings = s.rings := by
  unfold State.giveBlock State.chargeBlocks
  simp

@[simp] theorem State.claimGo_rings (p : Nat) (l : List (Nat × Nat × Nat)) : (s.claimGo p l).rings = s.rings := by
  induction l generalizing s with
  | nil => rfl
  | cons c l ih =>
    unfold State.claimGo
    split
    · rfl
    · exact ih _

@[simp] theorem State.claimFree_rings (p : Nat) : (s.claimFree p).rings = s.rings := by
  unfold State.claimFree
  split
  · split <;> simp
  · rfl

@[simp] theorem State.serveWaiters_rings (n p : Nat) : (State.serveWaiters n s p).rings = s.rings := by
  induction n generalizing s with
  | zero => rfl
  | succ n ih =>
    unfold State.serveWaiters
    split
    · rfl
    · split
      · simp [ih]
      · rfl

@[simp] theorem State.freeBlocks_rings (flow : Nat) (ps : List Nat) : (s.freeBlocks flow ps).rings = s.rings := by
  unfold State.freeBlocks State.settlePool
  rw [State.foldl_rings (fun s p => by simp), State.foldl_rings (fun s p => by simp)]

@[simp] theorem State.freeTask_rings (task : Nat) : (s.freeTask task).rings = s.rings := by
  unfold State.freeTask
  split <;> simp

@[simp] theorem State.releaseHandle_rings (i : Nat) : (s.releaseHandle i).rings = s.rings := by
  unfold State.releaseHandle
  split
  · rfl
  · exact State.freeBlocks_rings _ _ _

@[simp] theorem State.updateMark_rings (i : Nat) (d : Int) (out hold : Option Bool) (task : Nat) :
    (s.updateMark i d out hold task).rings = s.rings := by
  unfold State.updateMark
  split
  · rfl
  · dsimp only
    split
    · exact State.raiseOn_rings _ _ _
    · split
      · exact State.releaseHandle_rings _ _
      · rfl

/-! The parts of the end of a task (R402, R452). -/

@[simp] theorem State.unhold_rings (id : Nat) : (s.unhold id).rings = s.rings := by
  unfold State.unhold
  split
  · rw [State.foldl_rings (fun s h => s.updateMark_rings _ _ _ _ _), State.modTask_rings]
  · rfl

@[simp] theorem State.dropWork_rings (t : Task) : (s.dropWork t).rings = s.rings := by
  have hfold : ∀ s : State, (t.work.foldl (fun (s : State) w => s.countWindow (serverStation s.forme w.1) 0 w.2.1) s).rings = s.rings :=
    State.foldl_rings (fun s w => s.countWindow_rings _ _ _) t.work
  unfold State.dropWork
  split
  · split
    · rfl
    · dsimp only
      split
      · split
        · rw [State.countWindow_rings, hfold]
        · exact hfold s
      · exact hfold s
  · rfl

@[simp] theorem State.freeSlotRecord_rings (slot : Option Nat) : (s.freeSlotRecord slot).rings = s.rings := by
  unfold State.freeSlotRecord State.writeRecord
  split
  · exact State.foldl_rings (fun s a => s.issueWrite_rings _ _ _) _ _
  · rfl

@[simp] theorem State.openFences_rings (ring : Nat) : (s.openFences ring).rings = s.rings := by
  unfold State.openFences
  split
  · split <;> simp
  · rfl

@[simp] theorem State.dropBlock_rings (id p : Nat) : (s.dropBlock id p).rings = s.rings := by
  unfold State.dropBlock
  split
  · split <;> simp
  · rfl

@[simp] theorem State.discard_rings (id : Nat) (p : Xfer → Bool) : (s.discard id p).rings = s.rings := by
  unfold State.discard
  split
  · split
    · rw [State.foldl_rings, State.modDelta_rings]
      intro s x
      split <;> simp
    · rfl
  · rfl

@[simp] theorem State.weirDrop_rings (p : Purpose → Bool) : (s.weirDrop p).rings = s.rings := by
  unfold State.weirDrop
  exact State.foldl_rings (fun s x => s.freeMover_rings _) _ _

@[simp] theorem State.haltDelta_rings (id : Nat) : (s.haltDelta id).rings = s.rings := by
  unfold State.haltDelta
  simp

/-! Groups and flows of a tenancy (R118). -/

@[simp] theorem State.freeMember_rings (m : Member) : (s.freeMember m).rings = s.rings := by
  unfold State.freeMember
  split <;> simp

@[simp] theorem State.freeReserve_rings (f : Nat) (l : List RowRun) : (s.freeReserve f l).rings = s.rings := by
  unfold State.freeReserve
  refine State.foldl_rings (fun s r => ?_) l s
  split <;> simp

@[simp] theorem State.freshFlow_rings (fe : FlowEntry) : (s.freshFlow fe).rings = s.rings := by
  unfold State.freshFlow State.releaseHandles
  rw [State.setRun_rings, State.foldl_rings (fun s i => s.releaseHandle_rings i)]

end

/-! ### What takes rings and entries away -/

/-- No ring and no due entry of u is new over s. -/
structure FewerRings (s u : State) : Prop where
  sqs : u.sqs ⊆ s.sqs
  cqs : u.cqs ⊆ s.cqs
  due : u.due ⊆ s.due

theorem FewerRings.trans {s u v : State} (h : FewerRings s u) (k : FewerRings u v) : FewerRings s v :=
  ⟨List.Subset.trans k.sqs h.sqs, List.Subset.trans k.cqs h.cqs, List.Subset.trans k.due h.due⟩

theorem FewerRings.of_rings {s u : State} (e : u.rings = s.rings) : FewerRings s u := by
  obtain ⟨hs, hc, hd⟩ : u.sqs = s.sqs ∧ u.cqs = s.cqs ∧ u.due = s.due := by simpa [State.rings] using e
  exact ⟨hs ▸ List.Subset.refl _, hc ▸ List.Subset.refl _, hd ▸ List.Subset.refl _⟩

/-- A submission ring that closes is gone. -/
theorem State.closeRing_fewer (s : State) (ring : Nat) : FewerRings s (s.closeRing ring) := by
  unfold State.closeRing
  split
  · split
    · have hf : FewerRings s { s with sqs := s.sqs.filter (fun x => x.ring != ring) } :=
        ⟨List.filter_sublist.subset, List.Subset.refl _, List.Subset.refl _⟩
      exact hf.trans (.of_rings (State.issueWrite_rings _ _ _ _))
    · exact .of_rings rfl
  · exact .of_rings rfl

/-- A task that is taken out takes its entries with it, and at most its ring. -/
theorem State.retire_fewer (s : State) (id : Nat) : FewerRings s (s.retire id) := by
  unfold State.retire
  split
  · exact .of_rings rfl
  · rename_i t _
    have ha : FewerRings s ((((s.dropWork t).unhold id).freeTask id).releaseStream t) := .of_rings (by simp)
    generalize (((s.dropWork t).unhold id).freeTask id).releaseStream t = a at ha ⊢
    have hb : FewerRings s { a with
        tasks := a.tasks.filter (fun x => x.id != id), due := a.due.filter (fun d => d.task != some id) } :=
      ha.trans ⟨List.Subset.refl _, List.Subset.refl _, List.filter_sublist.subset⟩
    extract_lets a' b slot c
    have hc : FewerRings s c := by
      show FewerRings s (if _ then _ else _)
      split
      · exact hb.trans (.of_rings (State.freeSlotRecord_rings _ _))
      · exact hb
    clear_value c
    split
    · exact (hc.trans (.of_rings (State.openFences_rings _ _))).trans (State.closeRing_fewer _ _)
    · exact hc

/-! ### The rings and entries of one tenancy (R118, R119) -/

/-- u comes from s by work that leaves s's frame (Keeps), and holds no ring of tenancy t and no entry due to it. -/
structure Cleared (s : State) (t : Nat) (u : State) : Prop where
  keeps : Keeps s u
  sqs : ∀ q ∈ u.sqs, q.ten ≠ t
  cqs : ∀ q ∈ u.cqs, q.ten ≠ t
  due : ∀ d ∈ u.due, d.ten ≠ t

section
variable {s u v : State} {t : Nat}

theorem Cleared.fewer (h : Cleared s t u) (k : Keeps s v) (e : FewerRings u v) : Cleared s t v :=
  ⟨k, fun q hq => h.sqs q (e.sqs hq), fun q hq => h.cqs q (e.cqs hq), fun d hd => h.due d (e.due hd)⟩

theorem Cleared.foldl {α : Type} {f : State → α → State} (l : List α) (h : Cleared s t u)
    (hf : ∀ v x, Cleared s t v → Cleared s t (f v x)) : Cleared s t (l.foldl f u) := by
  induction l generalizing u with
  | nil => exact h
  | cons x l ih => exact ih (hf u x h)

/-- Disabling every ring of a tenancy leaves none of it. -/
theorem Cleared.dropRings (k : Keeps s u) (hd : ∀ d ∈ u.due, d.ten ≠ t) : Cleared s t (u.dropRings t) := by
  have e : (u.dropRings t).rings = (u.sqs.filter (fun r => r.ten != t), u.cqs.filter (fun c => c.ten != t), u.due) := by
    unfold State.dropRings
    dsimp only
    rw [State.foldl_rings (fun s c => s.issueWrite_rings _ _ _), State.foldl_rings (fun s r => s.issueWrite_rings _ _ _)]
    rfl
  simp only [State.rings, Prod.mk.injEq] at e
  obtain ⟨hs, hc, hu⟩ := e
  refine ⟨State.dropRings_keeps k, ?_, ?_, ?_⟩
  · rw [hs]
    exact fun q hq => bne_iff_ne.1 (List.mem_filter.1 hq).2
  · rw [hc]
    exact fun q hq => bne_iff_ne.1 (List.mem_filter.1 hq).2
  · rw [hu]
    exact hd

/-- A task of the tenancy is stopped at Delta and taken out. -/
theorem Cleared.taskOut (h : Cleared s t u) (id : Nat) :
    Cleared s t ((if ((u.task? id).bind (·.delta)).isSome then u.haltDelta id else u).retire id) := by
  have hh : Cleared s t (if ((u.task? id).bind (·.delta)).isSome then u.haltDelta id else u) := by
    split
    · exact h.fewer (State.haltDelta_keeps h.keeps) (.of_rings (u.haltDelta_rings id))
    · exact h
  exact hh.fewer (State.retire_keeps hh.keeps) (State.retire_fewer _ id)

theorem Cleared.freeMember (h : Cleared s t u) (m : Member) : Cleared s t (u.freeMember m) :=
  h.fewer (State.freeMember_keeps h.keeps) (.of_rings (u.freeMember_rings m))

theorem Cleared.freeReserve (h : Cleared s t u) (f : Nat) (l : List RowRun) : Cleared s t (u.freeReserve f l) :=
  h.fewer (State.freeReserve_keeps h.keeps) (.of_rings (u.freeReserve_rings f l))

theorem Cleared.freshFlow (h : Cleared s t u) (fe : FlowEntry) : Cleared s t (u.freshFlow fe) :=
  h.fewer (State.freshFlow_keeps h.keeps) (.of_rings (u.freshFlow_rings fe))

/-- A reset of a tenancy ends in the write of its two fields on a state that holds none of its rings and entries. -/
theorem State.tenancyReset_cleared (s : State) (t : Nat) : ∃ u, Cleared s t u ∧ s.tenancyReset t =
    u.setFlds [(F.TEN_STATUS_RESETTING t, 0), (F.TEN_STATUS_RESET_ABORTED t, min (s.tasksOfTen t) 8191)] := by
  generalize he : s.tenancyReset t = x
  unfold State.tenancyReset at he
  extract_lets fes mine ids n s1 s2 s3 weir s4 s5 s6 s7 s8 at he
  have h1 : ∀ d ∈ s1.due, d.ten ≠ t := fun d hd => bne_iff_ne.1 (List.mem_filter.1 hd).2
  have h2 : Cleared s t s2 := .dropRings (Keeps.refl s).upd_due h1
  have h3 : Cleared s t s3 := h2.foldl ids (fun v id h => h.taskOut id)
  have h4 : Cleared s t s4 := h3.fewer h3.keeps.upd_ports_due_batches_weir
    ⟨List.Subset.refl _, List.Subset.refl _, List.filter_sublist.subset⟩
  have h5 : Cleared s t s5 := h4.foldl _ (fun v x h => h.foldl _ (fun w m k => k.freeMember m))
  have h6 : Cleared s t s6 := h5.fewer h5.keeps.upd_groups (.of_rings rfl)
  have h7 : Cleared s t s7 := h6.foldl _ (fun v r h => by
    split
    · exact h.freeReserve _ _
    · exact h)
  have h8 : Cleared s t s8 := h7.foldl fes (fun v fe h => h.freshFlow fe)
  exact ⟨s8, h8, he.symm⟩

end

/-! ### The statement -/

/-- The two fields of TEN_STATUS that a reset writes, on a state whose registers are in canonical form. -/
theorem State.fld_tenancyReset {s : State} {t : Nat} (h : Sound s) :
    (s.tenancyReset t).fld (F.TEN_STATUS_RESETTING t) = 0 ∧
      (s.tenancyReset t).fld (F.TEN_STATUS_RESET_ABORTED t) = min (s.tasksOfTen t) 8191 := by
  obtain ⟨u, hu, e⟩ := s.tenancyReset_cleared t
  have hw : u.regs.wf = true := (hu.keeps.sound h).2.2.2.1
  have hl : ∀ x ∈ [(F.TEN_STATUS_RESETTING t, 0), (F.TEN_STATUS_RESET_ABORTED t, min (s.tasksOfTen t) 8191)],
      x.1.lo + x.1.width ≤ 64 := by simp [F.TEN_STATUS_RESETTING, F.TEN_STATUS_RESET_ABORTED]
  have ha : [(F.TEN_STATUS_RESETTING t, 0), (F.TEN_STATUS_RESET_ABORTED t, min (s.tasksOfTen t) 8191)].Pairwise
      (fun x y => x.1.apart y.1) := by simp [Field.apart, F.TEN_STATUS_RESETTING, F.TEN_STATUS_RESET_ABORTED]
  rw [e]
  refine ⟨State.fld_setFlds_mem hw hl ha List.mem_cons_self,
    (State.fld_setFlds_mem hw hl ha (List.mem_cons_of_mem _ List.mem_cons_self)).trans ?_⟩
  exact Nat.mod_eq_of_lt (show min (s.tasksOfTen t) 8191 < 8192 by omega)

theorem exec_tenancyReset {s : State} {r : CsReq} {t : Fin 16} (h : TenancyMay r t s) :
    exec (.tenancyReset r t) s = .next ((answered s).tenancyReset t).finish :=
  next_finish_congr ((State.hostPage_ctrl h).trans (if_pos (by decide)))

/-- Settles O20: the reset ends in the write of its two fields, on a state that holds nothing of the tenancy. -/
theorem tenancyResetClears : Obligations.TenancyResetClears := by
  intro s r t h hs
  obtain ⟨u, hu, e⟩ := (answered s).tenancyReset_cleared t
  obtain ⟨hr, ha⟩ := State.fld_tenancyReset (s := answered s) (t := t) hs
  have he : ((answered s).tenancyReset t).rings = u.rings := by
    rw [e]
    exact State.setFlds_rings _ _
  have hf := FewerRings.of_rings he
  exact ⟨_, exec_tenancyReset h, rfl, hr, ha, fun q hq => hu.sqs q (hf.sqs hq), fun q hq => hu.cqs q (hf.cqs hq),
    fun d hd => hu.due d (hf.due hd)⟩

end Sys2Proof.Machine
end

section
/-! PROOFS of the statements about entries and waits: how entries of a ring are taken, how a task and its entry end, and how what waits
for room goes on (R126, R127, R131 to R149, R152, R168, R179, R231, R437, R452). -/

namespace Sys2Proof.Machine

/-! ### Commands of Outfall and Headwater -/

/-- A command of a domain that runs acts while READY is set. -/
theorem State.whenUp_inDomain {s : State} {d : Domain} (hr : s.ready = true) (hd : s.runs d = true) (op : State → State) :
    s.whenUp (fun s => s.inDomain d op) = op s :=
  (s.whenUp_ready hr _).trans (if_pos hd)

section
variable {s : State}

theorem exec_sqEntryFetch (hr : s.ready = true) (hd : s.runs .fclk = true) (f : Fetch) :
    exec (.sqEntryFetch f) s = .next (s.fetchEntries f).finish :=
  next_finish_congr (State.whenUp_inDomain hr hd (fun s => s.fetchEntries f))

theorem exec_completionWrite (hr : s.ready = true) (hd : s.runs .fclk = true) (cq : BitVec 16) :
    exec (.completionWrite cq) s = .next (s.completionWrite cq.toNat).finish :=
  next_finish_congr (State.whenUp_inDomain hr hd (fun s => s.completionWrite cq.toNat))

theorem exec_taskEnd (hr : s.ready = true) (id : Nat) : exec (.taskEnd id) s = .next (s.boundary id).finish :=
  next_finish_congr (s.whenUp_ready hr _)

theorem exec_irqDelayExpire (hr : s.ready = true) (cq : BitVec 16) :
    exec (.irqDelayExpire cq) s = .next (s.irqDelayExpire cq.toNat) :=
  congrArg Host.Outcome.next (s.whenUp_ready hr _)

theorem exec_parkedUnitReady (hr : s.ready = true) (flow : BitVec 12) :
    exec (.parkedUnitReady flow) s = .next (s.unpark flow.toNat).finish :=
  next_finish_congr (s.whenUp_ready hr _)

theorem exec_berthEvict (s : State) : exec .berthEvict s = .next s.berthEvict := rfl

theorem exec_swapComplete (hr : s.ready = true) : exec .swapComplete s = .next s.swapComplete.finish :=
  next_finish_congr (s.whenUp_ready hr State.swapComplete)

theorem exec_poolWaitTimeout (hr : s.ready = true) (pool : Fin 32) :
    exec (.poolWaitTimeout pool) s = .next (s.poolTimeout pool.val).finish :=
  next_finish_congr (s.whenUp_ready hr _)

theorem exec_watchdog (s : State) (id : Nat) : exec (.watchdog id) s = .next (s.watchdog id).finish := rfl

end

/-! ### Entries of a ring (R126, R127, R131, R133) -/

/-- The state once up to 64 entries of a ring are taken: its bit is cleared before, and a bulk ring moves the rotating position. -/
def State.entriesTaken (s : State) (f : Fetch) (r : SqRing) : State :=
  let a := s.modSq r.ring (fun q => { q with bit := false })
  State.takeGo r.ring f (min 64 (min ((r.tail + 2 ^ r.log2 - r.head) % 2 ^ r.log2) (s.slotsFor r.ten r.flow)))
    (if (s.flowOf? r.ten r.flow).any (·.deadline) then a else { a with scanRot := (r.ring + 1) % 2 ^ 20 })

/-- After the fetch its bit is set again if entries are left, and its record takes a HEAD that moved. -/
theorem State.fetchEntries_ends {s : State} {f : Fetch} {r q : SqRing} (hn : s.nextRing = some r)
    (hq : (s.entriesTaken f r).sq? r.ring = some q) : s.fetchEntries f =
      let v := (s.entriesTaken f r).modSq r.ring (fun q => { q with bit := q.bit || q.head != q.tail })
      if q.head = r.head then v else v.issueWrite (v.ringRecordAddr q + 16) (leBytes 4 q.head) (.ringRecord r.ring) := by
  unfold State.entriesTaken at hq
  rw [State.fetchEntries_eq hn]
  dsimp only at hq ⊢
  rw [hq]
  rfl

section
variable {w : State} {r : SqRing} {d : List Byte}

/-- HEAD of a ring is past the entry that is taken. -/
def State.headPast (w : State) (r : SqRing) : State := w.modSq r.ring (fun q => { q with head := (r.head + 1) % 2 ^ r.log2 })

/-- The state with the task that an entry makes, and the task's ID. -/
def State.entryAccepted (w : State) (r : SqRing) (d : List Byte) : State × Nat :=
  (w.headPast r).accept (entryTask (w.headPast r) r d ((r.head + 1) % 2 ^ r.log2))

/-- What becomes of the task of an entry that is taken. -/
theorem State.takeEntry_eq (w : State) (r : SqRing) (d : List Byte) : w.takeEntry r d =
    let x := w.entryAccepted r d
    if !entryClean d then x.1.stopTask x.2 0x43 false
    else if byteAt d 8 = 0 then x.1.finishTask x.2
    else if byteAt d 8 = 2 then x.1.openFences r.ring
    else match x.1.flowOf? r.ten r.flow with
      | none => x.1.stopTask x.2 0x31 true
      | some fe =>
        if (x.1.run fe.flow).suspended then x.1.stopTask x.2 0x30 true
        else if !taskClean fe (entryTask (w.headPast r) r d ((r.head + 1) % 2 ^ r.log2)) then x.1.stopTask x.2 0x43 false
        else x.1.startEntry fe x.2 := by
  unfold State.takeEntry State.entryAccepted State.headPast
  dsimp only
  generalize State.accept _ _ = x
  rfl

theorem State.takeEntry_unclean (hc : entryClean d = false) :
    w.takeEntry r d = (w.entryAccepted r d).1.stopTask (w.entryAccepted r d).2 0x43 false := by
  rw [State.takeEntry_eq]
  exact if_pos (by rw [hc]; rfl)

theorem State.takeEntry_nop (hc : entryClean d = true) (ho : byteAt d 8 = 0) :
    w.takeEntry r d = (w.entryAccepted r d).1.finishTask (w.entryAccepted r d).2 := by
  rw [State.takeEntry_eq]
  exact (if_neg (by rw [hc]; decide)).trans (if_pos ho)

theorem State.takeEntry_starts {fe : FlowEntry} (hc : entryClean d = true) (ho : byteAt d 8 = 1)
    (hf : (w.entryAccepted r d).1.flowOf? r.ten r.flow = some fe) (hs : ((w.entryAccepted r d).1.run fe.flow).suspended = false)
    (ht : taskClean fe (entryTask (w.headPast r) r d ((r.head + 1) % 2 ^ r.log2)) = true) :
    w.takeEntry r d = (w.entryAccepted r d).1.startEntry fe (w.entryAccepted r d).2 := by
  rw [State.takeEntry_eq]
  dsimp only
  rw [hc, ho, hf]
  dsimp only
  rw [hs, ht]
  rfl

end

/-! ### The end of a task and of its entry (R135, R138, R140, R142, R149, R452) -/

section
variable {s : State}

theorem State.boundary_ends {id : Nat} {t : Task} (ht : s.task? id = some t) (hb : t.atBoundary = true)
    (hd : s.due.any (fun d => d.task == some id) = false) : s.boundary id = (s.taskEnd id).sliceSwap t := by
  unfold State.boundary
  rw [ht]
  exact if_pos (by rw [hb, hd]; rfl)

/-- The end of a task at its boundary, whose entry is not due yet. -/
theorem State.taskEnd_eq {id : Nat} {t : Task} (ht : s.task? id = some t) (hb : t.atBoundary = true)
    (hd : s.due.any (fun d => d.task == some id) = false) : s.taskEnd id =
      let u := (s.freeTask id).releaseStream t
      let w := match u.flow? t.flow with | some fe => if t.opcode = 1 then u.checkpoint fe id else u | none => u
      { w with due := w.due ++ [t.dueEntry w.now] } := by
  unfold State.taskEnd
  rw [ht]
  exact (if_pos (by rw [hb, hd]; rfl)).trans rfl

theorem State.completionWrite_enabled {cq : Nat} {d : DueEntry} {c : CqRing} (hn : s.nextEntry cq = some d) (hc : s.cq? cq = some c) :
    s.completionWrite cq = if c.full = true then s.holdEntries c else ((s.lateIfHeld d).writeEntry c d).endEntry d := by
  unfold State.completionWrite
  rw [hn, hc]

theorem State.completionWrite_disabled {cq : Nat} {d : DueEntry} (hn : s.nextEntry cq = some d) (hc : s.cq? cq = none) :
    s.completionWrite cq =
      ((if d.isBatch = true then s.setFld (F.TEN_STATUS_CQ_LOST d.ten) 1 else s).releaseSlot d.slot).endEntry d := by
  unfold State.completionWrite
  rw [hn, hc]

theorem State.irqDelayExpire_due {cq t0 : Nat} {c : CqRing} (hc : s.cq? cq = some c) (ho : c.oldest = some t0)
    (hd : c.irqDelay ≠ 0) (hn : c.irqCount ≠ 0) : s.irqDelayExpire cq =
      ((s.advance (t0 + c.irqDelay * 1000)).modCq cq (fun c => { c with irqDue := true })).cqInterrupt cq := by
  unfold State.irqDelayExpire
  rw [hc]
  dsimp only
  rw [ho]
  exact if_pos ⟨hd, hn⟩

end

/-! ### Waits (R147, R148, R152, R168, R179, R231, R437) -/

section
variable {s : State}

theorem State.unpark_eq {flow : Nat} {fe : FlowEntry} {t : Task} (hf : s.flow? flow = some fe)
    (ht : s.tasks.find? (fun t => t.flow == flow && (match t.dec with | some p => p.parked != 0 | none => false) &&
      s.millRoom fe t) = some t) :
    s.unpark flow = (s.modPlan t.id (fun p => { p with parked := p.parked - 1 })).incFld F.STN_MR_COUNT_LOADS := by
  unfold State.unpark
  rw [hf]
  dsimp only
  split
  · rename_i x hx
    have : x = t := Option.some.inj (hx.symm.trans ht)
    rw [this]
  · rename_i hx
    cases hx.symm.trans ht

theorem State.berthEvict_eq {inc out : BerthCtx} (hr : s.ready = true) (hi : s.waitingOut = some inc)
    (ho : leastBy BerthCtx.evictBefore s.blockedIn = some out) : s.berthEvict = s.decideSwap out inc := by
  unfold State.berthEvict
  rw [State.else_active hr, hi, ho]

/-- A swap that is decided starts when the swap berth is free, else it follows those decided before. -/
theorem State.decideSwap_eq (s : State) (out inc : BerthCtx) : s.decideSwap out inc =
    if s.swapBusy = none then s.startSwap (out.flow, out.part) (inc.flow, inc.part)
    else { s with swapQueue := s.swapQueue ++ [((out.flow, out.part), (inc.flow, inc.part))] } := by
  unfold State.decideSwap
  cases s.swapBusy <;> rfl

/-- The loaded context is resident, and the swap is counted; the next one is yet to start. -/
def State.swapLoaded (s : State) (f p t : Nat) : State :=
  (({ s with
      berths := updateWhere s.berths (fun b => b.flow == f && b.part == p) (fun b => { b with resident := true }),
      swapBusy := none } : State).incFld F.LKP_SWAP_COUNT_SWAPS).setFld F.LKP_SWAP_COUNT_MAX_NS
    (max (s.fld F.LKP_SWAP_COUNT_MAX_NS) (min (2 ^ 32 - 1) (s.time.now - t)))

theorem State.swapLoaded_swapQueue (s : State) (f p t : Nat) : (s.swapLoaded f p t).swapQueue = s.swapQueue := by
  unfold State.swapLoaded State.incFld State.addFld
  rw [State.setFld_swapQueue, State.setFld_swapQueue]

theorem State.swapComplete_eq {f p t : Nat} (hb : s.swapBusy = some (f, p, t)) :
    s.swapComplete = (s.swapLoaded f p t).nextSwap := by
  unfold State.swapComplete
  rw [hb]
  rfl

theorem State.nextSwap_none (hq : s.swapQueue = []) : s.nextSwap = s := by
  unfold State.nextSwap
  rw [hq]

theorem State.nextSwap_starts {out inc : Nat × Nat} {rest : List ((Nat × Nat) × (Nat × Nat))} (hq : s.swapQueue = (out, inc) :: rest) :
    s.nextSwap = ({ s with swapQueue := rest } : State).startSwap out inc := by
  unfold State.nextSwap
  rw [hq]

/-- A request whose WAIT_MS is over is counted in its pool, and its task's blocks return. -/
def State.waitRefused (s : State) (pool task due : Nat) : State :=
  (((s.advance due).incFld (F.RSV_POOL_COUNT_EXHAUSTED pool)).raiseOn 0x0A (.task task)).freeTask task

section
variable {pool due : Nat} {w : Waiter} {t : Task} {fe : FlowEntry}

/-- What a refused request means for the task that made it: a streaming task, a batch's carrier, or a task on its way. -/
theorem State.poolTimeout_eq (hw : s.waitDue pool = some (w, due)) (ht : s.task? w.task = some t) (hf : s.flow? w.flow = some fe) :
    s.poolTimeout pool =
      let u := s.waitRefused pool w.task due
      if t.delta.isSome then u.modDelta t.id (fun d => { d with noStage := true })
      else if t.phase = .batched then
        match u.batches.find? (fun u => u.holder == some t.id), fe.galley with
        | some x, some g => u.abortBatch g x 0x42
        | _, _ => u
      else u.blockRefused fe { t with blocks := [] } (fe.path.getD t.stage 0) := by
  have ht' : (((s.advance due).incFld (F.RSV_POOL_COUNT_EXHAUSTED pool)).raiseOn 0x0A (.task w.task)).task? w.task = some t := ht
  have hf' : (((s.advance due).incFld (F.RSV_POOL_COUNT_EXHAUSTED pool)).raiseOn 0x0A (.task w.task)).flow? w.flow = some fe := hf
  unfold State.poolTimeout
  rw [hw]
  dsimp only
  rw [ht', hf']
  rfl

end

theorem State.watchdog_stops {id : Nat} {t : Task} (hr : s.ready = true) (ht : s.task? id = some t) (hp : t.phase = .ready)
    (hs : t.stopping = false) : s.watchdog id = (s.raiseOn 0x30 (.task id)).faultStop id := by
  unfold State.watchdog
  rw [ht]
  exact if_pos ⟨hr, hp, by rw [hs]; rfl⟩

end

/-! ### The statements -/

/-- Settles O30: the end of a fetch of entries, and the first three ends of an entry that is taken. -/
theorem ringEntriesTaken : Obligations.RingEntriesTaken := by
  intro s f r hr hd hn late n a u v
  refine ⟨fun q hq => ?_, fun w d => ?_⟩
  · rw [exec_sqEntryFetch hr hd, State.fetchEntries_ends hn hq]
    rfl
  · exact ⟨State.takeEntry_unclean, State.takeEntry_nop, fun fe => State.takeEntry_starts⟩

/-- Settles O34: the boundary, the write of an entry on a ring that is enabled or not, and the delay of an interrupt. -/
theorem entriesComplete : Obligations.EntriesComplete := by
  intro s hr
  refine ⟨fun id t ht hb hd => ?_, fun cq d hf hn => ⟨fun c hc => ?_, fun hc => ?_⟩, fun cq c t0 hc ho hd hn => ?_⟩
  · rw [exec_taskEnd hr, State.boundary_ends ht hb hd]
    exact next_finish_congr (congrArg (State.sliceSwap · t) (State.taskEnd_eq ht hb hd))
  · rw [exec_completionWrite hr hf, State.completionWrite_enabled hn hc]
  · rw [exec_completionWrite hr hf, State.completionWrite_disabled hn hc]
  · rw [exec_irqDelayExpire hr, State.irqDelayExpire_due hc ho hd hn]

/-- Settles O35: each wait's own rule, one after the other. -/
theorem waitsEnd : Obligations.WaitsEnd := by
  intro s hr swapStarts
  refine ⟨fun flow fe t hf ht => ?_, fun inc out hi ho => ?_, fun f p t hb => ?_, fun pool w due t fe hw ht hf => ?_,
    fun id t ht hp hs => ?_⟩
  · rw [exec_parkedUnitReady hr, State.unpark_eq hf ht]
  · rw [exec_berthEvict, State.berthEvict_eq hr hi ho, State.decideSwap_eq]
    rfl
  · intro m b u
    have hu : u.swapQueue = s.swapQueue := s.swapLoaded_swapQueue f p t
    rw [exec_swapComplete hr, State.swapComplete_eq hb]
    refine ⟨fun hq => ?_, fun out inc rest hq => ?_⟩
    · exact next_finish_congr (State.nextSwap_none (hu.trans hq))
    · exact next_finish_congr (State.nextSwap_starts (hu.trans hq))
  · rw [exec_poolWaitTimeout hr, State.poolTimeout_eq hw ht hf]
    refine ⟨fun hs => ?_, fun hd hp => ?_, fun x g hd hp hx hg => ?_⟩
    · exact next_finish_congr (if_pos hs)
    · exact next_finish_congr ((if_neg (by rw [hd]; decide)).trans (if_neg hp))
    · have hx' : (s.waitRefused pool w.task due).batches.find? (fun x => x.holder == some t.id) = some x := hx
      dsimp only
      rw [if_neg (by rw [hd]; decide), if_pos hp, hx', hg]
      rfl
  · rw [exec_watchdog, State.watchdog_stops hr ht hp hs]

end Sys2Proof.Machine
end

section
/-! PROOFS of the statements about the posts of live ports: how a push waits, counts or finds its port full, by register and from a die
alike (R187, R188, R506), and what becomes of the oldest post that Headwater takes (R185, R186, R190, R191). -/

namespace Sys2Proof.Machine

open Sys2Proof.Safety

/-! ### Live pushes (R187, R188) -/

/-- The two-byte field of two bytes is the number that they were made from. -/
theorem fieldAt_leBytes_two {n : Nat} (h : n < 2 ^ 16) : fieldAt (leBytes 2 n) 0 2 = n := by
  simp only [fieldAt, leBytes, List.drop_zero, List.take, leNat, BitVec.toNat_ofNat]
  omega

/-- The port and the slot that TEN_LIVE_DOORBELL holds are those of the payload that a die sends (R506). -/
theorem livePayload_fields (w : BitVec 16) :
    getBits (BitVec.ofNat 64 (w.toNat / 16 % 4096)) 0 9 = w.toNat / 16 % 512 ∧
      getBits (BitVec.ofNat 64 (w.toNat / 16 % 4096)) 9 3 = w.toNat / 8192 := by
  have hw : w.toNat < 2 ^ 16 := w.isLt
  simp only [getBits, BitVec.toNat_ofNat]
  constructor <;> omega

section
variable {s : State} {t : Fin 16} {f : Fetch}

theorem State.handlePush_liveDoorbell (r : CsReq) (v : Word) (tArr : Nat) (die : Bool) :
    s.handlePush t ⟨r, pageOff t Row.TEN_LIVE_DOORBELL, v, tArr, die⟩ f =
      s.livePushed t (getBits v 0 9) (getBits v 9 3) tArr die f := by
  unfold State.handlePush
  simp only [pageOff_sub]
  rw [if_neg (by decide), if_neg (by decide), if_pos trivial]

theorem exec_liveDoorbell {r : CsReq} (h : TenancyMay r t s) (hq : QueuesHold s) (he : (s.tenRun t).pushes = []) (v : Word) :
    exec (.liveDoorbell r t v f) s =
      .next ((answered s).livePushed t (getBits v 0 9) (getBits v 9 3) s.now false f).finish :=
  next_finish_congr (State.hostPage_liveDoorbell h hq he)

/-- While Birfa serves, a MSG LIVE_PUSH of a compute die is a push of the tenancy that its payload names (R506). -/
theorem State.message_livePush (h : Serving s) {node : Nat} (hn : node < 0x20) (w : BitVec 16) :
    s.message node 1 (leBytes 2 w.toNat) f = (answered s).diePush (w.toNat % 16) (w.toNat / 16) f := by
  unfold State.message State.active
  rw [Serving.not_dead h, fieldAt_leBytes_two w.isLt, if_neg (by decide)]
  dsimp only
  rw [if_neg (Nat.not_le.2 hn)]
  exact if_pos h.2

theorem Serving.onFabric_eq (h : Serving s) (op : State → State) : s.onFabric op = op s := by
  unfold State.onFabric
  rw [Serving.not_dead h, Serving.not_held h]
  rfl

/-- A die's push that finds nothing before it in its tenancy's queue is handled at once. -/
theorem exec_livePush (h : Serving s) (hq : QueuesHold s) (he : (s.tenRun t).pushes = []) (hst : (s.tenRun t).stalled = [])
    {node : Nat} (hn : node < 0x20) {w : BitVec 16} (hw : w.toNat % 16 = t.val) :
    exec (.livePush node w f) s =
      .next ((answered s).livePushed t (w.toNat / 16 % 512) (w.toNat / 8192) s.now true f).finish := by
  obtain ⟨hport, hslot⟩ := livePayload_fields w
  refine next_finish_congr ?_
  rw [Serving.onFabric_eq h, State.message_livePush h hn, hw, State.diePush_handled (s := answered s) hq.1 hst he,
    State.handlePush_liveDoorbell, hport, hslot]
  rfl

end

/-- A push of a port that is bound to a flow of the tenancy, with its completion ring enabled, and open to dies when a die sent it. -/
theorem State.livePushed_bound {s : State} {t p sl tArr : Nat} {die : Bool} {f : Fetch} {fe : FlowEntry} {b : LiveBinding} {q : PortRun}
    (hp : s.portFlow? p = some (fe, b)) (hq : s.port? p = some q) (ht : fe.ten = t) (hc : (s.cq? b.cq).isSome = true)
    (hd : die = true → b.diePost = true) : s.livePushed t p sl tArr die f =
      let marked := (s.modPort p (fun r => { r with busy := r.busy ++ [sl] })).setClock fe tArr
      let append (x : State) : State := x.modPort p (fun r => { r with pending := r.pending ++ [⟨sl, tArr⟩] })
      if q.busy.contains sl = true then s.incFld (F.TEN_LIVE_STATUS_SLOT_BUSY t)
      else if q.pending.length ≠ b.qdepth then append marked
      else if b.supersede = false then
        ((marked.incFld F.STN_HW_COUNT_B_PORT_FULL).incFld (F.TEN_LIVE_STATUS_PORT_FULL t)).postEntry (liveEntry fe b sl 0x13)
      else match q.pending with
        | [] => marked
        | old :: rest => append ((((marked.modPort p (fun r => { r with pending := rest })).carryKeep fe p old.slot f).incFld
            F.STN_HW_COUNT_A_SUPERSEDED).postEntry (liveEntry fe b old.slot 0x11)) := by
  have hgood : ¬ (fe.ten ≠ t ∨ (s.cq? b.cq).isNone = true ∨ (die = true ∧ (!b.diePost) = true)) := by
    rintro (h | h | ⟨h, hb⟩)
    · exact h ht
    · rw [Option.isNone_iff_eq_none] at h
      rw [h] at hc
      exact absurd hc (by decide)
    · rw [hd h] at hb
      exact absurd hb (by decide)
  unfold State.livePushed
  simp only [hp, hq]
  rw [if_neg hgood]
  by_cases hbusy : q.busy.contains sl = true
  · rw [if_pos hbusy, if_pos hbusy]
  rw [if_neg hbusy, if_neg hbusy]
  by_cases hfull : q.pending.length = b.qdepth
  · rw [if_pos hfull, if_neg (not_not.2 hfull)]
    cases b.supersede <;> rfl
  · rw [if_neg hfull, if_pos hfull]

/-! ### What taking a post changes (R189, R190, R192, R455) -/

/-- The binding of a port names the port. -/
theorem State.portFlow?_port {s : State} {p : Nat} {fe : FlowEntry} {b : LiveBinding} (h : s.portFlow? p = some (fe, b)) :
    b.port = p := by
  obtain ⟨x, -, hx⟩ := List.exists_of_findSome?_eq_some h
  split at hx
  · split at hx
    · rename_i hb
      obtain ⟨rfl, rfl⟩ := Prod.mk.inj (Option.some.inj hx)
      exact beq_iff_eq.1 hb
    · cases hx
  · cases hx

section
variable (s : State)

/-- Stamping a post changes the registers alone. -/
theorem State.stamp_eq (r : SlotRec) (tArr : Nat) : ∃ g, (s.stamp r tArr).1 = { s with regs := g } := by
  unfold State.stamp
  split
  · split
    · exact s.incFld_eq _
    · exact ⟨s.regs, rfl⟩
  · exact ⟨s.regs, rfl⟩

/-- A fetch that failed counts its missing answer and raises its event. -/
theorem State.fetchFail_eq (f : Fetch) (a n : Nat) (c : Charge) (st : Nat) :
    ∃ g e, s.fetchFail f a n c st = { s with regs := g, raised := e } := by
  unfold State.fetchFail State.lackAnswer
  split
  · exact ⟨_, _, rfl⟩
  · exact ⟨s.regs, _, rfl⟩

/-- A part that is carried changes its port, and one that is lost its counter. -/
theorem State.carryPart_eq (t p : Nat) (d : List Byte) : ∃ g ps, s.carryPart t p d = { s with regs := g, ports := ps } := by
  unfold State.carryPart
  split
  · exact ⟨_, s.ports, rfl⟩
  · exact ⟨_, _, rfl⟩

/-- Carrying the KEEP parts of a post changes registers, ports and raised events alone (R189, R510). -/
theorem State.carryParts_eq (t p : Nat) (f : Fetch) (parts : List (Nat × Nat)) :
    ∃ g ps e, s.carryParts t p f parts = { s with regs := g, ports := ps, raised := e } := by
  unfold State.carryParts
  refine List.foldlRecOn (motive := fun u : State => ∃ g ps e, u = { s with regs := g, ports := ps, raised := e }) parts _
    ⟨s.regs, s.ports, s.raised, rfl⟩ ?_
  rintro _ ⟨g, ps, e, rfl⟩ x -
  split
  · exact ⟨_, ps, e, rfl⟩
  · split
    · obtain ⟨g', ps', h⟩ := State.carryPart_eq { s with regs := g, ports := ps, raised := e } t p _
      exact ⟨g', ps', e, h⟩
    · obtain ⟨g', e', h⟩ := State.fetchFail_eq { s with regs := g, ports := ps, raised := e } f x.1 x.2 (Charge.ten t) 1
      exact ⟨g', ps, e', h⟩

/-- A journal record that is written adds fabric transactions alone. -/
theorem State.writeRecord_eq (slot : Nat) (d : List Byte) : ∃ x n, s.writeRecord slot d = { s with txns := x, nextTag := n } := by
  unfold State.writeRecord
  refine List.foldlRecOn (motive := fun u : State => ∃ x n, u = { s with txns := x, nextTag := n }) s.areas _
    ⟨s.txns, s.nextTag, rfl⟩ ?_
  rintro _ ⟨x, n, rfl⟩ a -
  exact State.issueWrite_eq _ _ _ _

theorem State.journal_eq (t : Task) : ∃ x n, s.journal t = { s with txns := x, nextTag := n } := by
  unfold State.journal
  split
  · exact s.writeRecord_eq _ _
  · exact ⟨s.txns, s.nextTag, rfl⟩

/-- Accepting a task adds it behind the others, and journals it with fabric transactions alone (R97, R455). -/
theorem State.accept_eq (t : Task) : ∃ id m x n, (s.accept t).1 = { s with
    tasks := s.tasks ++ [{ t with id := id, accept := s.now, release := s.now, windows := s.windows t.ten }],
    nextTask := m, txns := x, nextTag := n } := by
  unfold State.accept
  dsimp only
  generalize freeTaskId _ _ _ = id
  obtain ⟨x, n, h⟩ := State.journal_eq { s with
    tasks := s.tasks ++ [{ t with id := id, accept := s.now, release := s.now, windows := s.windows t.ten }],
    nextTask := id + 1 } { t with id := id, accept := s.now, release := s.now, windows := s.windows t.ten }
  exact ⟨id, id + 1, x, n, h⟩

/-- A post of a deadline flow becomes a task that is accepted, and no more: it has the flow's next SAMPLE_INDEX (R192). -/
theorem State.postTaken_deadline {fe : FlowEntry} (hs : fe.streaming = false) (hd : fe.deadline = true) (b : LiveBinding) (sl c : Nat)
    (r : SlotRec) (f : Fetch) : ∃ keep data, s.postTaken fe b sl c r f =
      ((s.modRun fe.flow (fun x => { x with sampleNext := (s.run fe.flow).sampleNext + 1 })).accept
        { postTask s fe b sl c with sample := (s.run fe.flow).sampleNext, parts := r.parts, keep := keep, keepData := data }).1 := by
  unfold State.postTaken
  dsimp only
  rw [hs, hd]
  exact ⟨_, _, rfl⟩

/-- The state once a post with a good slot is stamped and taken out of its port. -/
def State.postPopped (p : Nat) (q : Post) (r : SlotRec) : State :=
  let u := (s.stamp r q.tArr).1
  u.popPost p (u.now - (s.stamp r q.tArr).2)

theorem State.postPopped_eq (p : Nat) (q : Post) (r : SlotRec) :
    ∃ g ps, s.postPopped p q r = { s with regs := g, ports := ps } := by
  obtain ⟨g, h⟩ := s.stamp_eq r q.tArr
  unfold State.postPopped
  rw [h]
  exact ⟨g, _, rfl⟩

/-- A stale post is counted, and its KEEP parts are carried unless its flow ignores them (R189, R191). -/
def State.staleCounted (fe : FlowEntry) (p : Nat) (r : SlotRec) (f : Fetch) : State :=
  let v := s.incFld F.STN_HW_COUNT_A_STALE
  if v.keepIgnored fe then v else v.carryParts fe.ten p f r.keepParts

theorem State.staleCounted_eq (fe : FlowEntry) (p : Nat) (r : SlotRec) (f : Fetch) :
    ∃ g ps e, s.staleCounted fe p r f = { s with regs := g, ports := ps, raised := e } := by
  unfold State.staleCounted
  dsimp only
  split
  · exact ⟨_, s.ports, s.raised, rfl⟩
  · exact State.carryParts_eq _ _ _ _ _

end

/-! ### What becomes of the oldest post (R185, R186, R190, R191) -/

theorem exec_livePostTake {s : State} (hr : s.ready = true) (hd : s.runs .fclk = true) (port : Fin 512) (f : Fetch) :
    exec (.livePostTake port f) s = .next (s.takePost port.val f).finish :=
  next_finish_congr (State.whenUp_inDomain hr hd (fun s => s.takePost port.val f))

section
variable {s : State} {p : Nat} {f : Fetch} {fe : FlowEntry} {b : LiveBinding} {q : Post} {rest : List Post} {d : List Byte}
  (hp : s.portFlow? p = some (fe, b)) (hq : (s.port? p).map (·.pending) = some (q :: rest)) (he : s.enc? fe.flow = none)
  (hm : s.mayTake fe = true) (hf : fetchBytes f (s.slotAddr fe.ten p q.slot) 64 = some d)

include hp hq he hm hf

theorem State.takePost_badSlot (hr : parseSlot (s.windows fe.ten) d = none) :
    s.takePost p f = (s.popPost p (s.now - q.tArr)).badSlot fe b q.slot := by
  unfold State.takePost
  simp only [hp, hq, he, hm, hf, hr]
  exact if_neg (by decide)

/-- A post with a good slot is stale, meets a suspended flow, or becomes a task. -/
theorem State.takePost_goodSlot {r : SlotRec} (hr : parseSlot (s.windows fe.ten) d = some r) : s.takePost p f =
    let u := s.postPopped p q r
    let c := (s.stamp r q.tArr).2
    if b.freshNs ≠ 0 ∧ b.freshNs < u.now - c then
      (u.staleCounted fe p r f).postEntry (liveEntry fe b q.slot 0x10)
    else if (u.run fe.flow).suspended then
      (u.accept (postTask u fe b q.slot c)).1.stopTask (u.accept (postTask u fe b q.slot c)).2 0x30 true
    else u.postTaken fe b q.slot c r f := by
  unfold State.takePost
  simp only [hp, hq, he, hm, hf, hr]
  exact if_neg (by decide)

/-- A stale post leaves its entry, and makes no task and takes no SAMPLE_INDEX. -/
theorem State.takePost_stale {r : SlotRec} (hr : parseSlot (s.windows fe.ten) d = some r)
    (hold : b.freshNs ≠ 0 ∧ b.freshNs < s.now - (s.stamp r q.tArr).2) : (s.takePost p f).tasks = s.tasks ∧
      ((s.takePost p f).run fe.flow).sampleNext = (s.run fe.flow).sampleNext ∧
      (s.takePost p f).due = s.due ++ [{ liveEntry fe b q.slot 0x10 with at_ := s.now }] := by
  obtain ⟨g, ps, hu⟩ := s.postPopped_eq p q r
  obtain ⟨g', ps', e, hv⟩ := (s.postPopped p q r).staleCounted_eq fe p r f
  rw [State.takePost_goodSlot hp hq he hm hf hr]
  dsimp only
  rw [if_pos (by rw [hu]; exact hold), hv, hu]
  exact ⟨rfl, rfl, rfl⟩

/-- A fresh post of a deadline flow that is not suspended is accepted as a task that waits for its release. -/
theorem State.takePost_fresh {r : SlotRec} (hr : parseSlot (s.windows fe.ten) d = some r)
    (hfresh : b.freshNs = 0 ∨ s.now - (s.stamp r q.tArr).2 ≤ b.freshNs) (hrun : (s.run fe.flow).suspended = false)
    (hs : fe.streaming = false) (hd : fe.deadline = true) : ∃ k : Task, (s.takePost p f).tasks = s.tasks ++ [k] ∧
      k.flow = fe.flow ∧ k.phase = .waiting ∧ k.origin = .port p q.slot ∧ k.capture = (s.stamp r q.tArr).2 ∧
      k.accept = s.now ∧ k.parts = r.parts ∧ k.sample = (s.run fe.flow).sampleNext ∧
      (s.takePost p f).flows = (s.modRun fe.flow (fun x => { x with sampleNext := (s.run fe.flow).sampleNext + 1 })).flows := by
  have hport := State.portFlow?_port hp
  obtain ⟨g, ps, hu⟩ := s.postPopped_eq p q r
  have hnow : ¬ (b.freshNs ≠ 0 ∧ b.freshNs < (s.postPopped p q r).now - (s.stamp r q.tArr).2) := by
    rw [hu]
    rintro ⟨h0, h1⟩
    exact hfresh.elim h0 (Nat.not_le.2 h1)
  have hgo : ¬ ((s.postPopped p q r).run fe.flow).suspended = true := by
    rw [hu]
    exact Bool.eq_false_iff.1 hrun
  rw [State.takePost_goodSlot hp hq he hm hf hr]
  dsimp only
  rw [if_neg hnow, if_neg hgo]
  obtain ⟨keep, data, ht⟩ := State.postTaken_deadline (s.postPopped p q r) hs hd b q.slot (s.stamp r q.tArr).2 r f
  rw [ht, hu]
  obtain ⟨id, m, x, n, ha⟩ := State.accept_eq _ _
  rw [ha]
  exact ⟨_, rfl, rfl, rfl, congrArg (Origin.port · q.slot) hport, rfl, rfl, rfl, rfl, rfl⟩

end

/-! ### The statements -/

/-- Settles O27: the host's push and the die's are one and the same once their tenancy's queue is empty. -/
theorem livePushPends : Obligations.LivePushPends := by
  intro s t p sl fe b q f hs hq he hst hp hr ht hc marked append pushed
  have hpushed (die : Bool) (hd : die = true → b.diePost = true) : (answered s).livePushed t p sl s.now die f = pushed :=
    State.livePushed_bound (s := answered s) hp hr ht hc hd
  refine ⟨fun r v h hport hslot => ?_, fun node w hn hd hw hport hslot => ?_⟩
  · rw [exec_liveDoorbell h hq he, hport, hslot, hpushed false (fun h => absurd h (by decide))]
  · rw [exec_livePush hs hq he hst hn hw, hport, hslot, hpushed true (fun _ => hd)]

/-- Settles O28: a post that is taken ends by its slot's check and its age, and each end has its own rule. -/
theorem livePostBecomesTask : Obligations.LivePostBecomesTask := by
  intro s port f fe b q rest d hr hd hp hq he hm hf
  refine ⟨fun hbad => ?_, fun r hslot => ?_⟩
  · rw [exec_livePostTake hr hd, State.takePost_badSlot hp hq he hm hf hbad]
  · intro c
    refine ⟨fun hfresh hrun hs hdl => ?_, fun hb hold => ?_⟩
    · obtain ⟨k, hk⟩ := State.takePost_fresh hp hq he hm hf hslot hfresh hrun hs hdl
      exact ⟨_, k, exec_livePostTake hr hd port f, hk⟩
    · exact ⟨_, exec_livePostTake hr hd port f, State.takePost_stale hp hq he hm hf hslot ⟨hb, hold⟩⟩

end Sys2Proof.Machine
end

section
/-! PROOFS of the statements about encode flows: what the frame clock does at a tick (R265, R266), and how the packet ring gives space
back and takes chunks (R277 to R280, R289). -/

namespace Sys2Proof.Machine

open Sys2Proof.Safety

/-! ### Ticks of the frame clock (R265, R266) -/

theorem exec_encodeStart {s : State} (hr : s.ready = true) (flow : BitVec 12) (f : Fetch) :
    exec (.encodeStart flow f) s = .next (s.encodeStart flow.toNat f).finish :=
  next_finish_congr (s.whenUp_ready hr (fun s => s.encodeStart flow.toNat f))

/-- Local time has reached s_k, tick k is counted, and the next is k + 1 (R265). -/
def State.tickCounted (s : State) (flow k sk : Nat) : State := (s.advance sk).modEnc flow (fun c => { c with tick := k + 1 })

/-- The posts that wait at a port, the oldest first. -/
def State.postsAt (s : State) (p : Nat) : List Post := ((s.port? p).map (·.pending)).getD []

/-- A tick starts no frame of a flow: its tenancy has no slot left, the flow does not start, or its tenancy resets (R265, R266). -/
def State.tickBarred (s : State) (fe : FlowEntry) (flow : Nat) : Prop :=
  s.freeSlots fe = 0 ∨ !s.starting flow ∨ s.resetting fe.ten

section
variable {s u : State} {flow k sk t0 : Nat} {f : Fetch} {fe : FlowEntry} {e : EncEntry} {b : LiveBinding} {q : Post} {rest : List Post}
  (hr : s.ready = true) (hfe : s.flow? flow = some fe) (he : s.enc? flow = some e) (hb : fe.live = some b)
  (ht : (s.run flow).enc.t0 = some t0) (hk : (s.run flow).enc.tick = k) (hsk : t0 + k * fe.periodNs = sk)
  (hu : s.tickCounted flow k sk = u)

include hr hfe he hb ht hk hsk hu

/-- A tick that is barred is skipped. -/
theorem State.encodeStart_barred (hbar : u.tickBarred fe flow) : s.encodeStart flow f = u.skipTick flow := by
  unfold State.tickCounted at hu
  unfold State.encodeStart
  simp only [hfe, he, hb, ht, State.else_active hr, hk, hsk, hu]
  exact if_pos hbar

/-- A tick by which no post has arrived repeats the frame before. -/
theorem State.encodeStart_noPost (hbar : ¬ u.tickBarred fe flow) (hq : ∀ q ∈ (u.postsAt b.port).head?, sk < q.tArr) :
    s.encodeStart flow f = u.synthRepeat fe b k sk := by
  unfold State.tickCounted at hu
  unfold State.encodeStart
  simp only [hfe, he, hb, ht, State.else_active hr, hk, hsk, hu]
  refine (if_neg hbar).trans ?_
  unfold State.postsAt at hq
  split
  · rfl
  · next q _ hp => exact if_pos (hq q (by rw [hp]; rfl))

section
variable (hbar : ¬ u.tickBarred fe flow) (hp : u.postsAt b.port = q :: rest) (hq : q.tArr ≤ sk)

include hbar hp hq

/-- With a post that has arrived, a tick is skipped while a pool of its flow holds. -/
theorem State.encodeStart_poolHolds (hpool : u.poolHolds fe = true) : s.encodeStart flow f = u.skipTick flow := by
  unfold State.tickCounted at hu
  unfold State.postsAt at hp
  unfold State.encodeStart
  simp only [hfe, he, hb, ht, State.else_active hr, hk, hsk, hu, hp]
  rw [if_neg (Nat.not_lt.2 hq), if_pos hpool]
  exact if_neg hbar

/-- A fresh post with a good slot starts its frame. -/
theorem State.encodeStart_fresh (hpool : u.poolHolds fe = false) {d : List Byte} {r : SlotRec}
    (hd : fetchBytes f (u.slotAddr fe.ten b.port q.slot) 64 = some d) (hslot : parseSlot (u.windows fe.ten) d = some r)
    (hfresh : b.freshNs = 0 ∨ sk - (u.stamp r q.tArr).2 ≤ b.freshNs) :
    s.encodeStart flow f = (u.stamp r q.tArr).1.takeFrame fe e b q (u.stamp r q.tArr).2 r k sk f := by
  have hstale : ¬ (b.freshNs ≠ 0 ∧ b.freshNs < sk - (u.stamp r q.tArr).2) :=
    fun ⟨h0, hold⟩ => hfresh.elim h0 (Nat.not_le.2 hold)
  unfold State.tickCounted at hu
  unfold State.postsAt at hp
  unfold State.encodeStart
  simp only [hfe, he, hb, ht, State.else_active hr, hk, hsk, hu, hp, hd, hslot]
  rw [if_neg (Nat.not_lt.2 hq), if_neg (Bool.eq_false_iff.1 hpool), if_neg hstale]
  exact if_neg hbar

end

end

/-! ### The packet ring (R277 to R280, R289) -/

/-- A read offset of the packet ring of a flow returns space: a multiple of 16 in the ring, and not beyond what is used (R279). -/
abbrev EncCtx.returns (c : EncCtx) (size rd : Nat) : Prop :=
  rd % 16 = 0 ∧ rd < size ∧ (rd + size - c.rdOff) % max 1 size ≤ c.usedBytes size

section
variable {s : State} {r : CsReq} {t : Fin 16} {v : Word}

theorem exec_pktDoorbell (h : TenancyMay r t s) (hq : QueuesHold s) (he : (s.tenRun t).pushes = []) :
    exec (.pktDoorbell r t v) s = .next ((answered s).pktPush t v).finish :=
  next_finish_congr (State.hostPage_pktDoorbell h hq he)

theorem exec_chunkWrite (hr : s.ready = true) (hd : s.runs .fclk = true) (flow : BitVec 12) :
    exec (.chunkWrite flow) s = .next (s.chunkWrite flow.toNat).finish :=
  next_finish_congr (State.whenUp_inDomain hr hd (fun s => s.chunkWrite flow.toNat))

end

/-- A push for an encode flow of the tenancy returns space, or is counted. -/
theorem State.pktPush_encode {s : State} {t : Nat} {v : Word} {fe : FlowEntry} {e : EncEntry}
    (hfe : s.flowOf? t (getBits v 0 12) = some fe) (he : s.enc? (getBits v 0 12) = some e) : s.pktPush t v =
      if (s.run (getBits v 0 12)).enc.returns e.pktSize (getBits v 12 30) then
        s.modEnc (getBits v 0 12) (fun x => { x with rdOff := getBits v 12 30 })
      else s.incFld (F.TEN_PKT_STATUS_BAD_PUSH t) := by
  unfold State.pktPush
  simp only [hfe, he]

section
variable {s : State} {flow : Nat} {fe : FlowEntry} {e : EncEntry} {c : Chunk} {rest : List Chunk} {t : Task}
  (hfe : s.flow? flow = some fe) (he : s.enc? flow = some e) (hout : (s.run flow).enc.chunkOut = 0)
  (hc : (s.run flow).enc.chunks = c :: rest) (ht : s.task? c.task = some t) (hstop : t.stopping = false)
  (hphase : t.phase = .chunking) (hwin : inWindows t.windows false true e.pktBase e.pktSize = true)

include hfe he hout hc ht hstop hphase hwin

/-- The next chunk of a frame that has reached Outfall is written when it has a place. -/
theorem State.chunkWrite_placed {pad : Nat} (hp : (s.run flow).enc.place e.pktSize c.image.length = some pad) :
    s.chunkWrite flow =
      let w := (s.putChunk fe e c pad).modTask t.id (fun t => { t with writesOut := t.writesOut + 1 })
      if bit c.flags 1 then w.placeOutputs t.id else w := by
  unfold State.chunkWrite
  simp only [hfe, he, hc, ht, hp]
  rw [if_neg (not_not.2 hout), if_neg (Bool.eq_false_iff.1 hstop), if_neg (fun h => h.1 hphase), if_neg (by rw [hwin]; decide)]

/-- With no place for it, the ring is FULL. -/
theorem State.chunkWrite_full (hp : (s.run flow).enc.place e.pktSize c.image.length = none) :
    s.chunkWrite flow = (s.setFld (F.TEN_PKT_STATUS_FULL fe.ten) 1).raiseOn 0x05 (.flow flow) := by
  unfold State.chunkWrite
  simp only [hfe, he, hc, ht, hp]
  rw [if_neg (not_not.2 hout), if_neg (Bool.eq_false_iff.1 hstop), if_neg (fun h => h.1 hphase), if_neg (by rw [hwin]; decide)]

end

/-! ### The statements -/

/-- Settles O31: a tick is barred, meets no post by s_k, is held by a pool, or starts the frame of a fresh post. -/
theorem encodeTickStarts : Obligations.EncodeTickStarts := by
  intro s flow f fe e b t0 hr hfe he hb ht k sk u posts
  rw [exec_encodeStart hr]
  refine ⟨fun hbar => ?_, fun hfree hstart hreset => ?_⟩
  · have hbar : u.tickBarred fe flow.toNat := by rwa [State.tickBarred, Bool.not_eq_true']
    exact next_finish_congr (State.encodeStart_barred hr hfe he hb ht rfl rfl rfl hbar)
  · have hbar : ¬ u.tickBarred fe flow.toNat := by simp [State.tickBarred, hfree, hstart, hreset]
    refine ⟨fun hp => ?_, fun q rest hp => ⟨fun hlate => ?_, fun hq hpool => ?_, fun d r hq hpool hd hslot => ?_⟩⟩
    · have hnone : ∀ q ∈ posts.head?, sk < q.tArr := by simp [hp]
      exact next_finish_congr (State.encodeStart_noPost hr hfe he hb ht rfl rfl rfl hbar hnone)
    · have hlater : ∀ q ∈ posts.head?, sk < q.tArr := by simpa [hp] using hlate
      exact next_finish_congr (State.encodeStart_noPost hr hfe he hb ht rfl rfl rfl hbar hlater)
    · exact next_finish_congr (State.encodeStart_poolHolds hr hfe he hb ht rfl rfl rfl hbar hp hq hpool)
    · exact fun hfresh => next_finish_congr
        (State.encodeStart_fresh hr hfe he hb ht rfl rfl rfl hbar hp hq hpool hd hslot hfresh)

/-- Settles O32: a push of a read offset is one choice, and a chunk that may be written is written by whether it has a place. -/
theorem packetRingMoves : Obligations.PacketRingMoves := by
  intro s fe e flow he hs c
  refine ⟨fun r t v hmay hq hempty hfe hflow => ?_, fun ch rest t hd hfe hout hc ht hstop hphase hwin => ?_⟩
  · rw [exec_pktDoorbell hmay hq hempty]
    rw [← hflow] at hfe he
    exact next_finish_congr ((State.pktPush_encode (s := answered s) hfe he).trans (by rw [hflow]; rfl))
  · rw [exec_chunkWrite hs.2 hd]
    exact ⟨fun hp => next_finish_congr (State.chunkWrite_full hfe he hout hc ht hstop hphase hwin hp),
      fun pad hp => next_finish_congr (State.chunkWrite_placed hfe he hout hc ht hstop hphase hwin hp)⟩

end Sys2Proof.Machine
end

section
/-! PROOFS of the statement about Riffle's known-answer evaluation and factory fault injection: what a GO of RFL_KAT_CTRL takes, how
the evaluation ends (R338), and what a write of TST_INJ does in test mode and outside it (R467). -/

namespace Sys2Proof.Machine

open Sys2Proof.Safety

/-! ### A GO of RFL_KAT_CTRL (R338) -/

theorem getBits_mod_width (w : Word) (lo n : Nat) : getBits w lo n % 2 ^ n = getBits w lo n := Nat.mod_mod _ _

/-- A write of RFL_KAT_CTRL stores FLOW, KIND and J. -/
theorem storeFields_katCtrl (w v : Word) : storeFields .rw Row.RFL_KAT_CTRL.fields w v =
    putBits (putBits (putBits w 0 12 (getBits v 0 12)) 18 2 (getBits v 18 2)) 20 3 (getBits v 20 3) := rfl

/-- FLOW, KIND and J of RFL_KAT_CTRL once a word has been written to it. -/
theorem storeFields_katCtrl_fields (w v : Word) : let x := storeFields .rw Row.RFL_KAT_CTRL.fields w v
    getBits x 0 12 = getBits v 0 12 ∧ getBits x 18 2 = getBits v 18 2 ∧ getBits x 20 3 = getBits v 20 3 := by
  rw [storeFields_katCtrl]
  refine ⟨?_, ?_, ?_⟩
  · rw [getBits_putBits_below _ _ (by decide) (by decide), getBits_putBits_below _ _ (by decide) (by decide),
      getBits_putBits _ _ (by decide), getBits_mod_width]
  · rw [getBits_putBits_below _ _ (by decide) (by decide), getBits_putBits _ _ (by decide), getBits_mod_width]
  · rw [getBits_putBits _ _ (by decide), getBits_mod_width]

/-- The state once the written word of RFL_KAT_CTRL is stored. -/
def State.katStored (s : State) (v : Word) : State :=
  s.setReg Row.RFL_KAT_CTRL.base (storeFields .rw Row.RFL_KAT_CTRL.fields (s.regs.get Row.RFL_KAT_CTRL.base) v)

/-- The seed, the counter and the written FLOW, KIND and J: what a GO takes. -/
def State.katOperands (s : State) (v : Word) : Nat × Nat × Nat × Nat × Nat × Nat :=
  (s.fld F.RFL_KAT_SEED_SEED, s.fld F.RFL_KAT_CTR_LO_C_LO, s.fld F.RFL_KAT_CTR_HI_C_HI,
    getBits v 0 12, getBits v 18 2, getBits v 20 3)

section
variable {s : State}

/-- A field of another register than the one replaced. -/
theorem State.fld_setReg_other {off : Nat} {w : Word} {f : Field} (h : f.off ≠ off) : (s.setReg off w).fld f = s.fld f :=
  congrArg f.of (s.regs.get_set_other w h)

/-- A field of the register replaced. -/
theorem State.fld_setReg_same {f : Field} (h : s.regs.wf = true) (w : Word) : (s.setReg f.off w).fld f = f.of w :=
  congrArg f.of (RegFile.get_set_same h f.off w)

/-- The evaluation's six fields, read once the written word is stored. -/
theorem State.katStored_operands (h : s.regs.wf = true) (v : Word) :
    ((s.katStored v).fld F.RFL_KAT_SEED_SEED, (s.katStored v).fld F.RFL_KAT_CTR_LO_C_LO, (s.katStored v).fld F.RFL_KAT_CTR_HI_C_HI,
      (s.katStored v).fld F.RFL_KAT_CTRL_FLOW, (s.katStored v).fld F.RFL_KAT_CTRL_KIND, (s.katStored v).fld F.RFL_KAT_CTRL_J) =
    s.katOperands v := by
  obtain ⟨hflow, hkind, hj⟩ := storeFields_katCtrl_fields (s.regs.get Row.RFL_KAT_CTRL.base) v
  have hother : ∀ f : Field, f.off ≠ Row.RFL_KAT_CTRL.base → (s.katStored v).fld f = s.fld f :=
    fun _ hf => State.fld_setReg_other hf
  have hflow : (s.katStored v).fld F.RFL_KAT_CTRL_FLOW = getBits v 0 12 :=
    (State.fld_setReg_same (f := F.RFL_KAT_CTRL_FLOW) h _).trans hflow
  have hkind : (s.katStored v).fld F.RFL_KAT_CTRL_KIND = getBits v 18 2 :=
    (State.fld_setReg_same (f := F.RFL_KAT_CTRL_KIND) h _).trans hkind
  have hj : (s.katStored v).fld F.RFL_KAT_CTRL_J = getBits v 20 3 :=
    (State.fld_setReg_same (f := F.RFL_KAT_CTRL_J) h _).trans hj
  rw [hflow, hkind, hj, hother _ (by decide), hother _ (by decide), hother _ (by decide)]
  rfl

/-- While no evaluation runs, a GO takes its operands, and DONE is cleared. -/
theorem State.writeKat_go {v : Word} (h : s.regs.wf = true) (hgo : getBits v 16 1 = 1) (hk : s.katDue = none) :
    s.writeKat v = ({ s.katStored v with katDue := some (s.katOperands v) } : State).setFld F.RFL_KAT_CTRL_DONE 0 := by
  have hfree : (s.katStored v).katDue.isNone = true := by
    rw [State.katStored, State.setReg_katDue, hk]
    rfl
  unfold State.writeKat
  extract_lets u
  rw [show u = s.katStored v from rfl, if_pos ⟨hgo, hfree⟩, State.katStored_operands h v]

theorem exec_katGo {r : CsReq} (h : ManagementMay r s) (hd : s.slotStopped Row.RFL_KAT_CTRL.base = false) (v : Word) :
    exec (.katGo r v) s = .next ((answered s).writeKat v).finish :=
  next_finish_congr (State.hostWrite_kat h hd)

/-! ### The end of the evaluation (R338) -/

theorem exec_katDone (h : s.ready = true) : exec .katDone s = .next s.katDone :=
  congrArg Host.Outcome.next (s.whenUp_ready h State.katDone)

theorem State.katDone_due {seed lo hi flow kind j : Nat} (h : s.katDue = some (seed, lo, hi, flow, kind, j)) :
    s.katDone = ({ s with katDue := none } : State).setFlds
      [(F.RFL_KAT_OUT_LO_OUT, (katResult seed lo hi flow kind j).1), (F.RFL_KAT_OUT_HI_OUT, (katResult seed lo hi flow kind j).2),
        (F.RFL_KAT_CTRL_DONE, 1)] := by
  unfold State.katDone
  rw [h]

/-! ### A write of TST_INJ (R467) -/

/-- In test mode no check stops a management write of TST_INJ, READY or not (R34). -/
theorem State.accessFails_inj {r : CsReq} (hn : FromHost r) (hv : r.view = 16) (ht : s.testMode = true) :
    s.accessFails r Row.TST_INJ.base 8 true = none := by
  have hshape : ¬ (8 ≠ 8 ∨ Row.TST_INJ.base % 8 ≠ 0 ∨ 16 < r.view ∨ (r.node ≠ 0x28 ∧ r.node ≠ 0x29)) := by
    rintro (h | h | h | ⟨h28, h29⟩)
    · exact h rfl
    · exact h (by decide)
    · omega
    · exact hn.elim h28 h29
  have hknown : ¬ (regAt Row.TST_INJ.base).isNone = true := by decide +kernel
  have hstate : s.stateRefuses 16 Row.TST_INJ.base true = false := by
    unfold State.stateRefuses
    rw [ht, show regionOf Row.TST_INJ.base = .test from by decide]
    cases s.ready <;> rfl
  unfold State.accessFails
  rw [if_neg hshape, if_neg hknown, hv, hstate]
  rfl

/-- The effect of a write of TST_INJ is its own operation. -/
theorem State.writeEffect_inj (s : State) (r : CsReq) (v : Word) (f : Fetch) :
    s.writeEffect r Row.TST_INJ.base v f = s.writeInj v := by
  unfold State.writeEffect
  rw [show regionOf Row.TST_INJ.base = .test from by decide]
  unfold State.topEffect
  rw [if_neg (by decide), if_neg (by decide), if_neg (by decide), if_pos rfl]

/-- In test mode a write of TST_INJ whose turn has come reaches the register. -/
theorem State.hostWrite_testInj {r : CsReq} {v : Word} (hn : FromHost r) (hv : r.view = 16) (ht : s.testMode = true)
    (hd : s.dead = false) (hq : s.qclkHeld = false) (hh : s.heldCs = []) :
    s.hostWrite r Row.TST_INJ.base 8 v [] = (answered s).writeInj v := by
  have hwaits : s.accessWaits = false := by
    unfold State.accessWaits
    rw [hq, hh, List.isEmpty_nil, Bool.not_true, Bool.and_false, Bool.or_false]
  have hclock : s.waitsFor r Row.TST_INJ.base 8 true = false :=
    State.waitsFor_running (State.slotStopped_never (by decide)) r 8 true
  have hnow : s.hostWrite r Row.TST_INJ.base 8 v [] =
      s.csWriteNow r Row.TST_INJ.base 8 (fun s => s.writeEffect r Row.TST_INJ.base v []) := by
    unfold State.hostWrite State.csWrite
    rw [hd, hwaits, hclock]
    rfl
  have heffect : s.csWriteNow r Row.TST_INJ.base 8 (fun s => s.writeEffect r Row.TST_INJ.base v []) =
      (answered s).writeEffect r Row.TST_INJ.base v [] := by
    unfold State.csWriteNow
    rw [State.accessFails_inj hn hv ht]
    exact if_neg (by omega)
  rw [hnow, heffect, State.writeEffect_inj]

theorem State.writeInj_mission (h : s.testMode = false) (v : Word) : s.writeInj v = s := if_pos (by rw [h]; rfl)

/-- The state once the written word of TST_INJ is stored. -/
def State.injStored (s : State) (v : Word) : State :=
  s.setReg Row.TST_INJ.base (storeFields .rw Row.TST_INJ.fields (s.regs.get Row.TST_INJ.base) v)

/-- What a stored TST_INJ starts in test mode. -/
def State.injectStored (s : State) : State :=
  if !s.flag F.TST_INJ_ARM then s
  else if s.fld F.TST_INJ_COUNT = 0 then s.setFld F.TST_INJ_ARM 0
  else if s.flag F.TST_INJ_RAIL then s.injectRail
  else injectEvents (s.fld F.TST_INJ_SOURCE) (s.fld F.TST_INJ_COUNT) s

/-- In test mode the written word is stored and then acts. -/
theorem State.writeInj_test (h : s.testMode = true) (v : Word) : s.writeInj v = (s.injStored v).injectStored :=
  if_neg (by rw [h]; decide)

theorem State.injectStored_unarmed (h : s.flag F.TST_INJ_ARM = false) : s.injectStored = s := if_pos (by rw [h]; rfl)

theorem State.injectStored_empty (h : s.flag F.TST_INJ_ARM = true) (hc : s.fld F.TST_INJ_COUNT = 0) :
    s.injectStored = s.setFld F.TST_INJ_ARM 0 :=
  (if_neg (by rw [h]; decide)).trans (if_pos hc)

theorem State.injectStored_rail (h : s.flag F.TST_INJ_ARM = true) (hc : s.fld F.TST_INJ_COUNT ≠ 0)
    (hr : s.flag F.TST_INJ_RAIL = true) : s.injectStored = s.injectRail :=
  (if_neg (by rw [h]; decide)).trans ((if_neg hc).trans (if_pos hr))

theorem State.injectStored_events (h : s.flag F.TST_INJ_ARM = true) (hc : s.fld F.TST_INJ_COUNT ≠ 0)
    (hr : s.flag F.TST_INJ_RAIL = false) :
    s.injectStored = injectEvents (s.fld F.TST_INJ_SOURCE) (s.fld F.TST_INJ_COUNT) s :=
  (if_neg (by rw [h]; decide)).trans ((if_neg hc).trans (if_neg (by rw [hr]; decide)))

/-- Outside test mode a management write of TST_INJ is answered and otherwise ignored. -/
theorem exec_tstInj_mission {r : CsReq} (h : ManagementMay r s) (ht : s.testMode = false) (v : Word) :
    exec (.tstInj r v) s = .next (answered s).finish :=
  next_finish_congr ((State.hostWrite_inj h).trans (State.writeInj_mission (s := answered s) ht v))

theorem exec_tstInj_test {r : CsReq} (hn : FromHost r) (hv : r.view = 16) (ht : s.testMode = true) (hd : s.dead = false)
    (hq : s.qclkHeld = false) (hh : s.heldCs = []) (v : Word) :
    exec (.tstInj r v) s = .next ((answered s).injStored v).injectStored.finish :=
  next_finish_congr ((State.hostWrite_testInj hn hv ht hd hq hh).trans (State.writeInj_test (s := answered s) ht v))

end

/-! ### The statement -/

/-- Settles O59: a GO and the end of its evaluation, and a write of TST_INJ outside test mode and, by what it stores, in it. -/
theorem knownAnswersAndInjection : Obligations.KnownAnswersAndInjection := by
  intro s r v
  refine ⟨fun h hd hw hgo hk => ?_, fun seed lo hi flow kind j hr hk => ?_, fun h ht => ?_, fun hn hv ht hd hq hh => ?_⟩
  · refine ⟨_, exec_katGo h hd v, ?_⟩
    rw [State.writeKat_go (s := answered s) hw hgo hk]
    have hstored : ((answered s).katStored v).regs.wf = true := RegFile.wf_set hw
    exact ⟨rfl, State.fld_setFld hstored (by decide)⟩
  · rw [exec_katDone hr, State.katDone_due hk]
  · have hexec := exec_tstInj_mission h ht v
    exact ⟨hexec, fun hc => hexec.trans (congrArg Host.Outcome.next (State.finish_calm (s := answered s) hc))⟩
  · intro u
    rw [exec_tstInj_test hn hv ht hd hq hh v, show (answered s).injStored v = u from rfl]
    refine ⟨fun harm => ?_, fun harm hc => ?_, fun harm hc => ⟨fun hrail => ?_, fun hrail => ?_⟩⟩
    · rw [State.injectStored_unarmed harm]
    · rw [State.injectStored_empty harm hc]
    · rw [State.injectStored_rail harm hc hrail]
    · rw [State.injectStored_events harm hc hrail]

end Sys2Proof.Machine
end

section
/-! PROOFS of the statements about Galley's step triggers, register writes and waits: how a trigger starts a step, is held or counts
(R369, R506), and what a leave, a skip, a flush, HOLD_US and the limit of the HOLD policy resolve (R361 to R363, R370, R378). -/

namespace Sys2Proof.Machine

open Sys2Proof.Safety

/-! ### Step triggers (R369, R378) -/

section
variable {s : State} {t g : Nat} {x : GroupRun}

/-- A trigger that names no group of the tenancy counts in BAD_WRITE, one of a die as well as the register's (log 71). -/
theorem State.stepTrigger_unknown (h : s.groups.find? (fun x => x.group == g && x.ten == t) = none) :
    s.stepTrigger t g = s.incFld (F.TEN_GALLEY_STATUS_BAD_WRITE t) := by
  unfold State.stepTrigger State.triggerStep
  rw [h]

/-- What a trigger does with a group of the tenancy, by whether a step assembles and another one is held. -/
theorem State.stepTrigger_group (h : s.groups.find? (fun x => x.group == g && x.ten == t) = some x) :
    s.stepTrigger t g = if x.assembling = false then s.stepGroup x
      else if x.held = false then s.modGroup g (fun x => { x with held := true })
      else s.incFld F.STN_GAL_COUNT_C_STEP_OVERRUN := by
  unfold State.stepTrigger State.triggerStep
  rw [h]
  cases ha : x.assembling with
  | false => simp [ha]
  | true =>
    cases hh : x.held with
    | false => simp [ha, hh]
    | true => simp [ha, hh]

/-- A held trigger starts its step once none assembles: the step takes what is staged at that moment (log 88). -/
theorem State.heldStep_starts (h : s.groups.find? (fun x => x.group == g) = some x) (hh : x.held = true)
    (ha : x.assembling = false) : s.heldStep g =
      (s.modGroup g (fun x => { x with held := false })).stepGroup { x with held := false } := by
  unfold State.heldStep
  rw [h]
  exact if_pos (by rw [hh, ha]; rfl)

end

section
variable {s : State}

theorem exec_tenGalleyStep {r : CsReq} {t : Fin 16} (h : TenancyMay r t s) (hq : QueuesHold s) (he : (s.tenRun t).pushes = [])
    (v : Word) : exec (.tenGalleyStep r t v) s = .next ((answered s).stepTrigger t (getBits v 0 6)).finish :=
  next_finish_congr (State.hostPage_galleyStep h hq he)

/-- While Birfa serves, a MSG STEP of a compute die is a trigger of the tenancy and the group that its payload names (R506). -/
theorem State.message_step (h : Serving s) {node : Nat} (hn : node < 0x20) (w : BitVec 16) :
    s.message node 2 (leBytes 2 w.toNat) [] = (answered s).stepTrigger (w.toNat % 16) (w.toNat / 16 % 64) := by
  unfold State.message State.active
  rw [Serving.not_dead h, fieldAt_leBytes_two w.isLt, if_neg (by decide)]
  dsimp only
  rw [if_neg (Nat.not_le.2 hn)]
  exact if_pos h.2

theorem exec_step (h : Serving s) {node : Nat} (hn : node < 0x20) (w : BitVec 16) :
    exec (.step node w) s = .next ((answered s).stepTrigger (w.toNat % 16) (w.toNat / 16 % 64)).finish :=
  next_finish_congr ((Serving.onFabric_eq h _).trans (State.message_step h hn w))

theorem exec_heldStepStart (hr : s.ready = true) (group : Fin 64) :
    exec (.heldStepStart group) s = .next (s.heldStep group.val).finish :=
  next_finish_congr (s.whenUp_ready hr _)

end

/-! ### Writes of TEN_GALLEY_SEQ and TEN_GALLEY_SKIP (R361, R362, R370, R378) -/

section
variable {s : State} {r : CsReq} {t : Fin 16} (h : TenancyMay r t s) (hq : QueuesHold s) (he : (s.tenRun t).pushes = [])

include h hq he

theorem exec_galleyLeave (v : Word) : exec (.galleyLeave r t v) s =
    .next ((answered s).memberLeave t (getBits v 0 12) (getBits v 12 2)).finish :=
  next_finish_congr (State.hostPage_galleySeq h hq he)

/-- The FLUSH bit alone tells a flush from a skip: the two commands write one register. -/
theorem exec_galleySkip (v : Word) : exec (.galleySkip r t v) s =
    .next ((answered s).galSkip t (getBits v 0 12) (getBits v 12 48) (getBits v 60 1 == 1)).finish :=
  next_finish_congr (State.hostPage_galleySkip h hq he)

theorem exec_galleyFlush (v : Word) : exec (.galleyFlush r t v) s =
    .next ((answered s).galSkip t (getBits v 0 12) (getBits v 12 48) (getBits v 60 1 == 1)).finish :=
  next_finish_congr (State.hostPage_galleySkip h hq he)

end

section
variable {s : State} {t flow upTo : Nat} {fe : FlowEntry} {g : GalleySettings} (hf : s.flowOf? t flow = some fe)
  (hg : fe.galley = some g)

include hf hg

/-- A LEAVE for a flow of MODE 1 marks its member. -/
theorem State.memberLeave_marks (hm : g.mode = 1) :
    s.memberLeave t flow 1 = s.modMember g.group flow (fun m => { m with leave := true }) := by
  unfold State.memberLeave
  simp only [hf, hg]
  rw [if_pos hm, if_pos trivial]

/-- A write for a flow of MODE 0 makes the indices below its value absent, and sets where to flush if it is a flush. -/
theorem State.galSkip_resolves (hm : g.mode = 0) (flush : Bool) : s.galSkip t flow upTo flush =
    (s.modGal flow (fun c => { c with
      absent := max c.absent upTo, flushTo := if flush then some (max upTo c.eNext) else c.flushTo })).galRun fe g := by
  unfold State.galSkip
  simp only [hf, hg]
  exact if_pos hm

/-- A write for a flow of another mode counts in BAD_WRITE and does nothing else. -/
theorem State.galSkip_badWrite (hm : g.mode ≠ 0) (flush : Bool) :
    s.galSkip t flow upTo flush = s.incFld (F.TEN_GALLEY_STATUS_BAD_WRITE t) := by
  unfold State.galSkip
  simp only [hf, hg]
  exact if_neg hm

end

/-! ### The waits of a flow (R361 to R363) -/

section
variable {s : State} (hr : s.ready = true) (flow : BitVec 12)

include hr

theorem exec_holdUsExpire : exec (.holdUsExpire flow) s = .next (s.holdUsExpire flow.toNat).finish :=
  next_finish_congr (s.whenUp_ready hr _)

theorem exec_holdLimit : exec (.holdLimit flow) s = .next (s.holdLimitExpire flow.toNat).finish :=
  next_finish_congr (s.whenUp_ready hr _)

end

section
variable {s : State} {flow d : Nat} {fe : FlowEntry} {g : GalleySettings} (hf : s.flow? flow = some fe) (hg : fe.galley = some g)

include hf hg

/-- With no gap that waits, HOLD_US without a sample flushes the open batch at e_next (R362). -/
theorem State.holdUsExpire_closes (hm : g.mode = 0) (hgap : (s.gal flow).gapDue (g.holdUs * 1000) = none)
    (hidle : (s.gal flow).idleDue (g.holdUs * 1000) = some d) : s.holdUsExpire flow =
      ((s.advance d).modGal flow (fun c => { c with flushTo := some c.eNext })).galRun fe g := by
  unfold State.holdUsExpire
  simp only [hf, hg, hgap, hidle]
  exact if_neg (not_not.2 hm)

/-- A gap that is due no later than the open batch's close makes its indices absent: the earlier of the two acts (R361, log 43). -/
theorem State.holdUsExpire_gap (hm : g.mode = 0) (hgap : (s.gal flow).gapDue (g.holdUs * 1000) = some d)
    (hidle : ∀ x, (s.gal flow).idleDue (g.holdUs * 1000) = some x → d ≤ x) : s.holdUsExpire flow =
      State.holdGap fe g (sumBy (fun h => h.sample.index - (s.gal flow).eNext) (s.gal flow).held) (s.advance d) := by
  unfold State.holdUsExpire
  simp only [hf, hg, hgap]
  rw [if_neg (not_not.2 hm)]
  cases hi : (s.gal flow).idleDue (g.holdUs * 1000) with
  | none => rfl
  | some b => exact if_pos (hidle b hi)

/-- At its limit the sample that was kept open is resolved as it is (R363). -/
theorem State.holdLimitExpire_resolves {h : HeldSample}
    (hh : (s.gal flow).held.find? (fun h => h.sample.index == (s.gal flow).eNext) = some h) (hk : s.keptOpen fe g h = true) :
    s.holdLimitExpire flow = (s.advance h.limit).galRun fe g := by
  unfold State.holdLimitExpire
  simp only [hf, hg, hh]
  exact if_pos hk

end

/-! ### The statements -/

/-- Settles O36: the register and the MSG are one trigger, which the group that it names decides. -/
theorem galleyStepTriggers : Obligations.GalleyStepTriggers := by
  intro s t g hs u x? go
  have htrigger : u.stepTrigger t g = go := by
    cases hx : x? with
    | none => exact (State.stepTrigger_unknown (s := u) hx).trans (by simp only [go, hx])
    | some x => exact (State.stepTrigger_group (s := u) hx).trans (by simp only [go, hx])
  refine ⟨fun r v hmay hq he hg => ?_, fun node w hn hten hg => ?_, fun k x hx hheld hassembling => ?_⟩
  · rw [exec_tenGalleyStep hmay hq he, hg]
    exact next_finish_congr htrigger
  · rw [exec_step hs hn, hten, hg]
    exact next_finish_congr htrigger
  · rw [exec_heldStepStart hs.2, State.heldStep_starts hx hheld hassembling]

/-- Settles O37: each write is decided by the flow's mode, and each wait by what the flow's context holds. -/
theorem galleyResolves : Obligations.GalleyResolves := by
  intro s fe g hg
  constructor
  · intro r t v hmay hq he hf u flow upTo
    refine ⟨fun hm hop => ?_, fun hm hskip => ?_, fun hm hflush => ?_, fun hm => ?_⟩
    · rw [exec_galleyLeave hmay hq he, hop]
      exact next_finish_congr (State.memberLeave_marks (s := u) hf hg hm)
    · rw [exec_galleySkip hmay hq he, hskip]
      exact next_finish_congr (State.galSkip_resolves (s := u) hf hg hm false)
    · rw [exec_galleyFlush hmay hq he, hflush]
      exact next_finish_congr (State.galSkip_resolves (s := u) hf hg hm true)
    · rw [exec_galleySkip hmay hq he]
      exact next_finish_congr (State.galSkip_badWrite (s := u) hf hg hm _)
  · intro flow hr hf c hold
    refine ⟨fun d hm hgap hidle => ?_, fun d hm hgap hidle => ?_, fun h hh hk => ?_⟩
    · rw [exec_holdUsExpire hr, State.holdUsExpire_closes hf hg hm hgap hidle]
    · rw [exec_holdUsExpire hr, State.holdUsExpire_gap hf hg hm hgap hidle]
    · rw [exec_holdLimit hr, State.holdLimitExpire_resolves hf hg hh hk]

end Sys2Proof.Machine
end

section
/-! PROOFS of the statements about Delta's alternates and layers, current complement, the stagger and Weir's cycle: ALT and LAYER_DONE by
register and by MSG, the drain timeout (R396, R398, R400, R411), the ramp of complement (R401, R432, R433), and a cycle of Weir in
which nothing waits (R406). -/

namespace Sys2Proof.Machine

open Sys2Proof.Safety

/-! ### What a die's MSG carries (R506) -/

/-- The first two bytes of a longer payload are its low 16 bits. -/
theorem fieldAt_leBytes_low (k n : Nat) : fieldAt (leBytes (k + 2) n) 0 2 = n % 65536 := by
  simp only [fieldAt, leBytes, List.drop_zero, List.take, leNat, BitVec.toNat_ofNat]
  omega

theorem byteAt_leBytes_three {n : Nat} (h : n < 2 ^ 24) : byteAt (leBytes 3 n) 2 = n / 65536 := by
  simp only [byteAt, leBytes, List.drop, List.headD_cons, BitVec.toNat_ofNat]
  omega

theorem fieldAt_leBytes_four {n : Nat} (h : n < 2 ^ 32) : fieldAt (leBytes 4 n) 2 2 = n / 65536 := by
  simp only [fieldAt, leBytes, List.drop, List.take, leNat, BitVec.toNat_ofNat]
  omega

/-- While Birfa serves, a MSG FALLBACK of a compute die is a write of ALT of the tenancy and the flow that its payload names. -/
theorem State.message_fallback {s : State} (h : Serving s) {node : Nat} (hn : node < 0x20) (w : BitVec 24)
    (hop : w.toNat / 65536 = 1 ∨ w.toNat / 65536 = 2) : s.message node 4 (leBytes 3 w.toNat) [] =
      (answered s).altOp (w.toNat % 65536 / 4096) (w.toNat % 4096) (w.toNat / 65536) := by
  have hflow : w.toNat % 65536 % 4096 = w.toNat % 4096 := Nat.mod_mod_of_dvd _ (by decide)
  unfold State.message State.active
  rw [Serving.not_dead h, fieldAt_leBytes_low, byteAt_leBytes_three w.isLt, if_neg (by decide)]
  dsimp only
  rw [if_neg (Nat.not_le.2 hn), hflow]
  exact (if_neg (by omega)).trans (if_pos h.2)

/-- While Birfa serves, a MSG LAYER_DONE of a compute die names its tenancy, its flow and its layer, and the node is the die. -/
theorem State.message_layerDone {s : State} (h : Serving s) {node : Nat} (hn : node < 0x20) (w : BitVec 32) :
    s.message node 3 (leBytes 4 w.toNat) [] =
      (answered s).layerDone (w.toNat % 65536 / 4096) (w.toNat % 4096) (w.toNat / 65536) node := by
  have hflow : w.toNat % 65536 % 4096 = w.toNat % 4096 := Nat.mod_mod_of_dvd _ (by decide)
  unfold State.message State.active
  rw [Serving.not_dead h, fieldAt_leBytes_low, fieldAt_leBytes_four w.isLt, if_neg (by decide)]
  dsimp only
  rw [if_neg (Nat.not_le.2 hn), hflow]
  exact if_pos h.2

/-! ### The commands of Delta, complement and Weir -/

section
variable {s : State} {r : CsReq} {t : Fin 16} (h : TenancyMay r t s) (hq : QueuesHold s) (he : (s.tenRun t).pushes = [])

include h hq he

/-- The two commands write one register: OP alone tells them apart. -/
theorem exec_deltaAltSet (v : Word) : exec (.deltaAltSet r t v) s =
    .next ((answered s).altOp t (getBits v 0 12) (getBits v 12 2)).finish :=
  next_finish_congr (State.hostPage_deltaAlt h hq he)

theorem exec_deltaAltClear (v : Word) : exec (.deltaAltClear r t v) s =
    .next ((answered s).altOp t (getBits v 0 12) (getBits v 12 2)).finish :=
  next_finish_congr (State.hostPage_deltaAlt h hq he)

theorem exec_tenDeltaDone (v : Word) : exec (.tenDeltaDone r t v) s = .next ((answered s).deltaDonePush t v).finish :=
  next_finish_congr (State.hostPage_deltaDone h hq he)

end

section
variable {s : State}

theorem exec_fallback (h : Serving s) {node : Nat} (hn : node < 0x20) (w : BitVec 24)
    (hop : w.toNat / 65536 = 1 ∨ w.toNat / 65536 = 2) : exec (.fallback node w) s =
      .next ((answered s).altOp (w.toNat % 65536 / 4096) (w.toNat % 4096) (w.toNat / 65536)).finish :=
  next_finish_congr ((Serving.onFabric_eq h _).trans (State.message_fallback h hn w hop))

theorem exec_layerDone (h : Serving s) {node : Nat} (hn : node < 0x20) (w : BitVec 32) : exec (.layerDone node w) s =
    .next ((answered s).layerDone (w.toNat % 65536 / 4096) (w.toNat % 4096) (w.toNat / 65536) node).finish :=
  next_finish_congr ((Serving.onFabric_eq h _).trans (State.message_layerDone h hn w))

variable (hr : s.ready = true)

include hr

theorem exec_drainTimeout (id : Nat) : exec (.drainTimeout id) s = .next (s.drainTimeout id).finish :=
  next_finish_congr (s.whenUp_ready hr _)

theorem exec_barrierRelease : exec .barrierRelease s = .next (s.startRamp.openStagger).finish :=
  next_finish_congr (if_pos hr)

theorem exec_rampStep : exec .rampStep s = .next s.rampStep.finish := next_finish_congr (s.whenUp_ready hr _)

theorem exec_hintMaxExpire : exec .hintMaxExpire s = .next s.hintExpire.finish := next_finish_congr (s.whenUp_ready hr _)

/-- A cycle of Weir is not followed by the work after a command: its result is the bare state of the refill. -/
theorem exec_weirBucketRefill : exec .weirBucketRefill s = .next (s.weirRefill s.waitsAtDelta) :=
  congrArg Host.Outcome.next (s.whenUp_ready hr _)

end

/-! ### ALT of a streaming flow (R400, R411) -/

/-- What a write of OP 1 or 2 does, by whether it names a streaming flow of the tenancy: a register's and a die's alike (log 71). -/
theorem State.altOp_eq (s : State) (t f : Nat) (on : Bool) : s.altOp t f (if on then 1 else 2) =
    if (s.streamingOf? t f).isSome then s.setAlt f on else s.incFld (F.TEN_DELTA_STATUS_BAD_WRITE t) := by
  unfold State.altOp
  cases s.streamingOf? t f with
  | none => rfl
  | some fe =>
    cases on with
    | true => rfl
    | false => rfl

/-! ### Layers (R396, R398) -/

/-- A LAYER_DONE marks its die where it names the layer that is present at a streaming flow of the tenancy; else it is a stray. -/
theorem State.layerDone_eq (s : State) (t f l die : Nat) : s.layerDone t f l die =
    if (s.streamingOf? t f).isSome ∧ (s.run f).dlt.present = some l then
      s.modDlt f (fun c => { c with gotDone := c.gotDone ||| 2 ^ die })
    else s.incFld F.STN_DLT_COUNT_C_STRAY_DONE := by
  unfold State.layerDone
  cases s.streamingOf? t f with
  | none => exact (if_neg (fun h => absurd h.1 (by decide))).symm
  | some fe => simp only [Option.isSome_some, true_and]

/-- A write of TEN_DELTA_DONE for a streaming flow of the tenancy is a LAYER_DONE of the die that it names. -/
theorem State.deltaDonePush_streaming {s : State} {t : Nat} {v : Word} (h : (s.streamingOf? t (getBits v 0 12)).isSome = true) :
    s.deltaDonePush t v = s.layerDone t (getBits v 0 12) (getBits v 32 16) (getBits v 12 5) := by
  obtain ⟨fe, hfe⟩ := Option.isSome_iff_exists.1 h
  unfold State.deltaDonePush
  rw [hfe]

/-- The limit passes at a task that still waits for the drain: it ends with DRAIN_TIMEOUT, recorded with reason 5 (R398). -/
theorem State.drainTimeout_ends {s : State} {id t0 : Nat} {k : Task} {d : DeltaTask} (hk : s.task? id = some k)
    (hd : k.delta = some d) (h0 : d.waitFrom = some t0) (hw : d.layerWait = true) (hs : k.stopping = false) :
    s.drainTimeout id =
      ((((((s.advance (t0 + d.drainNs)).modDlt k.flow (fun c => { c with layerQ := c.layerQ.erase id })).haltDelta id).stopTask id
        0x44 false).incFld F.STN_DLT_COUNT_B_DRAIN_TIMEOUTS).dltLast k 5 0).raiseOn 0x0E (.task id) := by
  unfold State.drainTimeout
  simp only [hk, hd, h0]
  exact if_pos (by rw [hw, hs]; rfl)

/-! ### Current complement (R432, R433) -/

section
variable {s : State}

theorem State.barrierHint_ready (hr : s.ready = true) : s.barrierHint = if s.flag F.PTC_COMP_CFG_EN = true then
    { s with ptc := { s.ptc with comp := true, ramp := none, floor := s.fld F.PTC_COMP_CFG_LEVEL, hintAt := s.now } } else s := by
  unfold State.barrierHint State.active
  cases s.flag F.PTC_COMP_CFG_EN with
  | true => exact (if_neg (by simp [hr])).trans (if_pos rfl).symm
  | false => exact (if_pos (.inr rfl)).trans (if_neg Bool.false_ne_true).symm

section
variable (hc : s.ptc.comp = true) (hn : s.ptc.ramp = none)

include hc hn

theorem State.startRamp_ramps (ha : s.inForce 3 = false) (hns : s.fld F.STN_DLT_STAGGER_RAMP_NS ≠ 0) :
    s.startRamp = { s with ptc := { s.ptc with
      ramp := some ⟨s.now, s.fld F.STN_DLT_STAGGER_RAMP_NS, max 1 (s.fld F.STN_DLT_STAGGER_GROUPS), 0⟩ } } := by
  unfold State.startRamp
  exact (if_neg (by simp [hc, hn])).trans (if_neg (by simp [ha, hns]))

/-- With ALERT in force, or RAMP_NS 0, there is no ramp: complement ends at once. -/
theorem State.startRamp_ends (h : s.inForce 3 = true ∨ s.fld F.STN_DLT_STAGGER_RAMP_NS = 0) :
    s.startRamp = { s with ptc := { s.ptc with comp := false, floor := 0 } } := by
  unfold State.startRamp
  exact (if_neg (by simp [hc, hn])).trans (if_pos h)

theorem State.hintExpire_releases :
    s.hintExpire = (s.advance (s.ptc.hintAt + s.fld F.PTC_COMP_CFG_HINT_MAX_US * 1000)).startRamp :=
  if_pos ⟨hc, by rw [hn]; rfl⟩

end

theorem State.rampStep_lowers {r : Ramp} (hr : s.ptc.ramp = some r) : s.rampStep =
    { s.advance (r.tr + (r.next + 1) * r.ns / r.groups) with ptc := { s.ptc with
      floor := s.fld F.PTC_COMP_CFG_LEVEL * (r.groups - 1 - r.next) / r.groups, comp := decide (0 < r.groups - 1 - r.next),
      ramp := if r.groups - 1 - r.next = 0 then none else some { r with next := r.next + 1 } } } := by
  unfold State.rampStep
  rw [hr]
  rfl

/-- A release opens a stagger window from the live values of the registers (R401). -/
theorem State.openStagger_opens (hns : s.fld F.STN_DLT_STAGGER_RAMP_NS ≠ 0) : s.openStagger = { s with
    stagger := some ⟨s.now, s.fld F.STN_DLT_STAGGER_RAMP_NS, s.fld F.STN_DLT_STAGGER_GROUPS,
      BitVec.ofNat 64 (s.fld F.STN_DLT_GROUP_A_DIES_0_15), BitVec.ofNat 64 (s.fld F.STN_DLT_GROUP_B_DIES_16_31)⟩ } :=
  if_neg hns

end

/-! ### A cycle of Weir in which nothing waits (R406) -/

/-- With no transaction and no piece that waits for tokens, the cycle only pays debt from its rate, and takes the deadline traffic since
the last one as new debt. -/
theorem State.weirRefill_idle {s : State} {piece : Nat → Bool} (h : ∀ t < 16, s.weirWaits t = false ∧ piece t = false)
    (hq : s.weir.queue = []) : s.weirRefill piece = { s with weir := { s.weir with
      debt := min (s.weir.debt - min s.weir.debt s.weirRate + s.weir.dlBytes) (4 * s.weirBurst), dlBytes := 0 } } := by
  have hnone : (List.range 16).filter (fun t => s.weirWaits t || piece t) = [] := by
    refine List.filter_eq_nil_iff.2 (fun t ht => ?_)
    obtain ⟨hw, hp⟩ := h t (List.mem_range.1 ht)
    simp [hw, hp]
  have hbuckets : s.weir.bucket.mapIdx (fun _ b => b) = s.weir.bucket := List.ext_getElem? (by simp)
  unfold State.weirRefill
  simp [hnone, hbuckets, hq, rotated, weirFlush]

/-- Birfa serves, FCLK has stopped with no work in it, and then IRQ_DELAY_US passes at a completion ring: the message of its
interrupt is in flight in the stopped domain. -/
def interruptInStoppedFclk : State :=
  (({ State.reset with
    life := .up, ready := true, credits := 0xFFFF, clk := ClkRun.all, lanesGood := 144, entropyGood := 52,
    forme := { Forme.blank with tens := { TenEntry.blank with enabled := true, msiVectors := 1 } :: List.replicate 15 TenEntry.blank },
    cqs := [{ cq := 0, ten := 0, base := 0x20000, log2 := 4, vector := 0, irqCount := 2, irqDelay := 10, head := 0, tail := 1, seq := 1,
              phase := true, unann := 1, oldest := some 0, irqDue := false, holding := false }] } : State).clkIdle .fclk).irqDelayExpire 0

/-- The state is sound and meets what the statement asks of an empty cycle. -/
theorem interruptInStoppedFclk_empty : Sound interruptInStoppedFclk ∧ interruptInStoppedFclk.ready = true ∧
    (∀ t < 16, interruptInStoppedFclk.weirWaits t = false ∧ interruptInStoppedFclk.waitsAtDelta t = false) ∧
    interruptInStoppedFclk.weir.queue = [] := by
  unfold Sound ReadyHolds QueuesHold UnitsHold RegsHold
  decide +kernel

/-! ### The statements -/

/-- Settles O38: the registers and the MSG are one operation, which whether the flow is a streaming flow of the tenancy decides. -/
theorem deltaAlternateSet : Obligations.DeltaAlternateSet := by
  intro s t flow hs u go
  have halt (on : Bool) : u.altOp t flow (if on then 1 else 2) = go on := State.altOp_eq u t flow on
  refine ⟨fun r v hmay hq he hf => ⟨fun hop => ?_, fun hop => ?_⟩, fun node w hn hten hf => ⟨fun hop => ?_, fun hop => ?_⟩⟩
  · rw [exec_deltaAltSet hmay hq he, hf, hop]
    exact next_finish_congr (halt true)
  · rw [exec_deltaAltClear hmay hq he, hf, hop]
    exact next_finish_congr (halt false)
  · rw [exec_fallback hs hn w (.inl hop), hten, hf, hop]
    exact next_finish_congr (halt true)
  · rw [exec_fallback hs hn w (.inr hop), hten, hf, hop]
    exact next_finish_congr (halt false)

/-- Settles O39: LAYER_DONE by either way is one operation, and the timeout's task is found as the one that still waits. -/
theorem deltaLayersDrain : Obligations.DeltaLayersDrain := by
  intro s t flow layer die hs u go
  have hdone : u.layerDone t flow layer die = go := State.layerDone_eq u t flow layer die
  refine ⟨fun w hn hten hf hl => ?_, fun r v hmay hq he hf hdie hl hstream => ?_, fun id k d t0 hk hd h0 hw hstop => ?_⟩
  · rw [exec_layerDone hs hn, hten, hf, hl]
    exact next_finish_congr hdone
  · subst hf hdie hl
    rw [exec_tenDeltaDone hmay hq he]
    exact next_finish_congr ((State.deltaDonePush_streaming (s := u) hstream).trans hdone)
  · rw [exec_drainTimeout hs.2, State.drainTimeout_ends hk hd h0 hw hstop]

/-- Settles O54: a release and the longest hint start one ramp, whose time points lower the floor. -/
theorem complementRamps : Obligations.ComplementRamps := by
  intro s hr ns groups
  refine ⟨next_finish_congr (State.barrierHint_ready hr), fun hc hn ha hns => ⟨?_, ?_⟩, fun hc hn h => ?_, fun r hramp _ => ?_⟩
  · rw [exec_barrierRelease hr, State.startRamp_ramps hc hn ha hns]
    exact next_finish_congr (State.openStagger_opens hns)
  · rw [exec_hintMaxExpire hr, State.hintExpire_releases hc hn]
    exact next_finish_congr (State.startRamp_ramps (s := s.advance _) hc hn ha hns)
  · rw [exec_barrierRelease hr, State.startRamp_ends hc hn h]
  · rw [exec_rampStep hr, State.rampStep_lowers hramp]

/-- Refutes O40: the cycle itself is as stated (`State.weirRefill_idle`), but the model does not let the work after a command follow it,
as the statement's result does. With a transaction in flight and FCLK stopped, that work would ask for the clock (R474). -/
theorem not_staggerAndWeir : ¬ Obligations.StaggerAndWeir := by
  intro h
  obtain ⟨-, hready, hwaits, hqueue⟩ := interruptInStoppedFclk_empty
  obtain ⟨-, -, -, hcycle⟩ := h interruptInStoppedFclk hready
  have hfinish := hcycle hwaits hqueue
  rw [exec_weirBucketRefill hready, State.weirRefill_idle hwaits hqueue] at hfinish
  have hwake := congrArg (fun u : State => u.wanted .fclk) (Host.Outcome.next.inj hfinish)
  exact absurd hwake (by decide +kernel)

end Sys2Proof.Machine
end

section
/-! PROOFS of the statements about power: what a command that ends by taking up the ceilings leaves of PTC and of the state in force
(R413, R414), the alert, the hold and the droop (R419, R421), the messages of the package's power controller (R424, R428, R429, R499),
steps up (R414, R416, R427), and the limits of temperature, current and cap (R416, R419, R420, R425 to R427). -/

namespace Sys2Proof.Machine

open Sys2Proof.Safety

/-! ### What taking up the ceilings leaves (R413, R414) -/

/-- PTC without what taking up the ceilings and the work after a command write. -/
def PtcRun.standing (c : PtcRun) : PtcRun := { c.rest with dlMoved := 0 }

/-- t comes from x by taking up the ceilings, and perhaps by asking for the voltage and by the work after a command. -/
structure Settled (x t : State) : Prop where
  standing : t.ptc.standing = x.ptc.standing
  time     : t.time = x.time
  pstate   : x.ptc.pstate ≤ t.ptc.pstate
  ceiling  : ∀ i c, i < 6 → x.lowers i = true → x.ceilings.getD i none = some c → c ≤ t.ptc.pstate
  boost    : x.tempLimit F.GRD_PWR_LIMITS_TJ_BOOST ≤ x.ptc.tj → 1 ≤ t.ptc.pstate
  agreed   : (x.ptc.reasons.getD 5 Ceiling.off).held = false → (t.ptc.reasons.getD 5 Ceiling.off).held = false

/-- What settling does not write reads as before. -/
theorem Settled.reads {α : Type} {x t : State} (h : Settled x t) (g : PtcRun → α) (hg : ∀ c : PtcRun, g c.standing = g c) :
    g t.ptc = g x.ptc := by
  rw [← hg t.ptc, h.standing, hg]

/-- The temperature limits are read from the power settings in effect alone. -/
theorem State.tempLimit_congr {s t : State} (h : t.ptc.limits = s.ptc.limits) (f : Field) : t.tempLimit f = s.tempLimit f := by
  unfold State.tempLimit State.limit
  rw [h]

/-- A temperature at TJ_BOOST breaks a condition of P0. -/
theorem State.boostOk_of_hot {s : State} (h : s.tempLimit F.GRD_PWR_LIMITS_TJ_BOOST ≤ s.ptc.tj) : s.boostOk = false := by
  unfold State.boostOk
  rw [decide_eq_false (Int.not_lt.2 h)]
  simp

/-- A reason's part in the state depends on the mode alone. -/
theorem State.lowers_congr {s t : State} (h : t.regs.get 0xa00000 = s.regs.get 0xa00000) (i : Nat) : t.lowers i = s.lowers i := by
  unfold State.lowers State.flag State.fld
  rw [show F.PTC_CTRL_STEADY.off = 0xa00000 from rfl, h]

/-- The sixth ceiling is there exactly while EST is held. -/
theorem State.ceilings_est (s : State) :
    s.ceilings.getD 5 none = if (s.ptc.reasons.getD 5 Ceiling.off).held then some (min 4 (s.requested + 1)) else none := rfl

theorem State.settlePtc_settled (x : State) : Settled x x.settlePtc := by
  obtain ⟨hrest, htime, hceil, hregs, hmono, hallowed, -, -⟩ := x.settlePtc_spec
  have hread {α : Type} (g : PtcRun → α) (hg : ∀ c : PtcRun, g c.rest = g c) : g x.settlePtc.ptc = g x.ptc := by
    rw [← hg, hrest, hg]
  have hlowers := State.lowers_congr (hregs 0xa00000 (by unfold isRecord; omega))
  refine ⟨congrArg (fun c : PtcRun => { c with dlMoved := 0 }) hrest, htime, hmono, fun i c hi hl hc => ?_, fun hb => ?_, fun hr => ?_⟩
  · exact (State.ceiling_le_allowed hi ((hlowers i).trans hl) ((congrArg (fun l => l.getD i none) hceil).trans hc)).trans hallowed
  · have hhot : x.settlePtc.tempLimit F.GRD_PWR_LIMITS_TJ_BOOST ≤ x.settlePtc.ptc.tj := by
      rw [State.tempLimit_congr (hread PtcRun.limits (fun _ => rfl)), hread PtcRun.tj (fun _ => rfl)]
      exact hb
    exact (State.boost_le_allowed (State.boostOk_of_hot hhot)).trans hallowed
  · have hnone : x.settlePtc.ceilings.getD 5 none = none := by
      rw [hceil, State.ceilings_est, hr]
      rfl
    rw [State.ceilings_est] at hnone
    exact Bool.eq_false_iff.2 (fun hheld => by rw [if_pos hheld] at hnone; cases hnone)

/-- What only touches VREQ and the bytes of deadline traffic keeps a settled state so. -/
theorem Settled.of_ptc {x t u : State} (h : Settled x t) (hs : u.ptc.standing = t.ptc.standing) (ht : u.time = t.time)
    (hp : u.ptc.pstate = t.ptc.pstate) (hr : u.ptc.reasons = t.ptc.reasons) : Settled x u := by
  obtain ⟨hstanding, htime, hmono, hceil, hboost, hagreed⟩ := h
  refine ⟨hs.trans hstanding, ht.trans htime, ?_, ?_, ?_, ?_⟩
  · rw [hp]; exact hmono
  · rw [hp]; exact hceil
  · rw [hp]; exact hboost
  · rw [hr]; exact hagreed

theorem Settled.followVoltage {x t : State} (h : Settled x t) : Settled x t.followVoltage := by
  obtain ⟨m, v, a, k, e⟩ := t.followVoltage_ptc
  rw [e]
  exact h.of_ptc rfl rfl rfl rfl

theorem Settled.finish {x t : State} (h : Settled x t) : Settled x t.finish :=
  h.of_ptc (State.finish_ptc t PtcRun.standing (fun _ => rfl)) (State.finish_time t) (State.finish_ptc t PtcRun.pstate (fun _ => rfl))
    (State.finish_ptc t PtcRun.reasons (fun _ => rfl))

/-- PTC is no part of what Calm asks for. -/
theorem State.finish_ptc_calm {s : State} (h : Calm s) (c : PtcRun) : ({ s with ptc := c } : State).finish = { s with ptc := c } :=
  State.finish_calm (s := { s with ptc := c }) h

/-- The time of a settled state that came to a moment. -/
theorem Settled.now_eq {x t : State} (h : Settled x t) {s : State} {due : Nat} (hx : x.time = (s.advance due).time) :
    t.time.now = max s.time.now due :=
  (congrArg TimeRun.now (h.time.trans hx)).trans (s.advance_now due)

/-! ### Alert and droop (R419, R421) -/

section
variable {s : State}

theorem exec_vrAlertNFall (s : State) : exec .vrAlertNFall s =
    .next (s.modPtc (fun c => { c with alertLow := true, alertEnd := none })).settlePtc.finish := rfl

theorem exec_vrAlertNRise (h : s.ptc.alertLow = true) : exec .vrAlertNRise s =
    .next (s.modPtc (fun c => { c with
      alertLow := false, alertEnd := some (s.now + s.fld F.GRD_PWR_ALERT_ALERT_HOLD_US * 1000) })).finish :=
  next_finish_congr (if_pos h)

theorem exec_alertHoldExpire {due : Nat} (h : s.ptc.alertEnd = some due) : exec .alertHoldExpire s =
    .next ((s.advance due).modPtc (fun c => { c with alertEnd := none })).settlePtc.finish :=
  next_finish_congr (by unfold State.alertExpire; rw [h])

theorem exec_droop (h : s.ptc.droopAt = none) : exec .droop s =
    .next (s.modPtc (fun c => { c with droopAt := some s.now })).settlePtc.finish :=
  next_finish_congr (if_neg (by rw [h]; decide))

theorem exec_droopEnd {d : Nat} (h : s.ptc.droopAt = some d) : exec .droopEnd s =
    .next ((s.advance (d + 1000)).modPtc (fun c => { c with droopAt := none })).settlePtc.finish :=
  next_finish_congr (by unfold State.droopEnd; rw [h])

end

/-! ### Messages of the package's power controller (R424, R428, R429, R499) -/

section
variable {s : State}

theorem State.powerMessage_up (h : s.life = .up) (keep take : State → State) : s.powerMessage keep take = take s := by
  unfold State.powerMessage State.dead State.qclkHeld
  rw [h]
  rfl

theorem State.powerMessage_warm (h : s.life = .warmLow) (keep take : State → State) : s.powerMessage keep take = keep s := by
  unfold State.powerMessage State.dead State.qclkHeld
  rw [h]
  rfl

theorem exec_share_up (h : s.life = .up) (v : BitVec 28) : exec (.share v) s = .next (s.takeShare v.toNat) :=
  congrArg Host.Outcome.next (State.powerMessage_up h _ _)

theorem exec_share_warm (h : s.life = .warmLow) (v : BitVec 28) :
    exec (.share v) s = .next { s with pmHeld := (some v.toNat, s.pmHeld.2.1, s.pmHeld.2.2) } :=
  congrArg Host.Outcome.next (State.powerMessage_warm h _ _)

theorem exec_meas_up (h : s.life = .up) (v : BitVec 28) : exec (.meas v) s = .next (s.meas v.toNat).finish :=
  next_finish_congr (State.powerMessage_up h _ _)

theorem exec_meas_warm (h : s.life = .warmLow) (v : BitVec 28) :
    exec (.meas v) s = .next ({ s with pmHeld := (s.pmHeld.1, some v.toNat, s.pmHeld.2.2) } : State).finish :=
  next_finish_congr (State.powerMessage_warm h _ _)

theorem exec_vack_up (h : s.life = .up) (v : BitVec 28) : exec (.vack v) s = .next (s.vack v.toNat).finish :=
  next_finish_congr (State.powerMessage_up h _ _)

theorem exec_vack_warm (h : s.life = .warmLow) (v : BitVec 28) :
    exec (.vack v) s = .next ({ s with pmHeld := (s.pmHeld.1, s.pmHeld.2.1, some v.toNat) } : State).finish :=
  next_finish_congr (State.powerMessage_warm h _ _)

/-- The state once a free value is taken. -/
def State.freeTaken (s : State) : State := { s with free := s.free + 1 }

/-- An estimate of the power takes the next free value, and no more changes. -/
theorem State.powerNow_eq (s : State) : s.powerNow =
    (sumL ((List.range 3).map (fun c => Config.classPower s.free c s.ptc.pstate)), s.freeTaken) := rfl

/-- What a measurement leaves: its window, when the newest came, and whether measurements are stale. -/
def PtcRun.measured (c : PtcRun) : List Nat × Nat × Bool := (c.measWin, c.measAt, c.stale)

/-- A measurement enters its window and is the newest, whether it agrees with the estimate or not. -/
theorem State.meas_measured (h : s.life ≠ .halted) (m : Nat) :
    (s.meas m).ptc.measured = ((m :: s.ptc.measWin).take s.windowLen, s.time.now, false) := by
  unfold State.meas
  rw [if_neg h, State.powerNow_eq]
  dsimp -zeta only
  extract_lets n est win sumE sumM apart held x y
  split
  · refine ((y.modPtc _).settlePtc_settled.reads PtcRun.measured (fun _ => rfl)).trans ?_
    simp only [y]
    split <;> rfl
  · split <;> rfl

theorem exec_measStale (hr : s.ready = true) (hs : s.ptc.stale = false) : exec .measStale s =
    .next (((s.advance (s.ptc.measAt + 100000)).modPtc (fun c => { c with
      stale := true, scale := (1, 1), estWin := [], measWin := [], agreeFrom := none })).raiseOn 0x16 .instance_).finish :=
  next_finish_congr (if_neg (by simp [State.active, hr, hs]))

/-- PTC once the EST ceiling and its correction have ended. -/
def PtcRun.agree (c : PtcRun) : PtcRun :=
  { c with
    scale := (1, 1), agreeFrom := none,
    reasons := c.reasons.mapIdx (fun i r => if i = 5 then { r with held := false } else r) }

theorem PtcRun.agree_est (c : PtcRun) : (c.agree.reasons.getD 5 Ceiling.off).held = false := by
  unfold PtcRun.agree
  rw [List.getD_eq_getElem?_getD, List.getElem?_mapIdx]
  cases c.reasons[5]? <;> rfl

theorem exec_agreeExpire {a : Nat} (h : s.ptc.agreeFrom = some a) : exec .agreeExpire s =
    .next ((s.advance (a + s.fld F.PTC_EST_CFG_AGREE_MS * 1000000)).modPtc PtcRun.agree).settlePtc.finish :=
  next_finish_congr (by unfold State.agreeExpire; rw [h]; rfl)

end

/-! ### Steps up (R414, R416, R427, R499) -/

/-- With the voltage of the state in force there, nothing holds a step up back. -/
theorem PtcRun.holds_false {c : PtcRun} (h : ∀ mv, c.vreq = some mv → mv ≤ c.voltage) : c.holds = false := by
  unfold PtcRun.holds
  cases hv : c.vreq with
  | none => rfl
  | some mv => exact decide_eq_false (Nat.not_lt.2 (h mv hv))

section
variable {s : State}

theorem exec_stepUp {due : Nat} (hr : s.ready = true) (h0 : s.ptc.pstate ≠ 0) (hs : s.ptc.stepTo = none) (ht : s.ptc.retryAt = none)
    (hv : ∀ mv, s.ptc.vreq = some mv → mv ≤ s.ptc.voltage) (hd : s.stepDue (s.ptc.pstate - 1) = some due) :
    exec .stepUp s = .next (s.advance due).beginStep.finish := by
  refine next_finish_congr ((if_neg ?_).trans (by rw [hd]))
  simp [State.active, hr, h0, hs, ht, PtcRun.holds_false hv]

theorem State.vack_short {v mv : Nat} (hq : s.ptc.vreq = some mv) (h : v < mv) : s.vack v = s := by
  unfold State.vack
  rw [hq]
  exact if_pos h

theorem State.vack_applies {v mv : Nat} (hq : s.ptc.vreq = some mv) (h : mv ≤ v) (hs : s.ptc.stepTo = none) :
    s.vack v = { s with ptc := { s.ptc with vreq := none, voltage := v } } := by
  unfold State.vack State.modPtc
  rw [hq]
  dsimp only
  rw [if_neg (Nat.not_lt.2 h), hs]

theorem State.vack_steps {v mv k : Nat} (hq : s.ptc.vreq = some mv) (h : mv ≤ v) (hs : s.ptc.stepTo = some k) :
    s.vack v = (({ s with ptc := { s.ptc with vreq := none, stepTo := none, voltage := v } } : State).enterState
      k).settlePtc.followVoltage := by
  unfold State.vack
  rw [hq]
  dsimp only
  rw [if_neg (Nat.not_lt.2 h), hs]
  rfl

theorem exec_vreqTimeout {k : Nat} (h : s.ptc.stepTo = some k) : exec .vreqTimeout s =
    .next ((s.advance (s.ptc.vreqAt + 50000)).modPtc (fun c => { c with
      vreq := none, stepTo := none, retryAt := some ((s.advance (s.ptc.vreqAt + 50000)).now + 1000000) })).finish :=
  next_finish_congr (by unfold State.vreqTimeout; rw [h])

/-- The step up is tried again exactly when it may begin by then. -/
theorem State.vreqRetry_eq {due : Nat} (h : s.ptc.retryAt = some due) {u : State}
    (hu : u = (s.advance due).modPtc (fun c => { c with retryAt := none }))
    [Decidable (s.ptc.pstate ≠ 0 ∧ ∃ d, s.stepDue (s.ptc.pstate - 1) = some d ∧ d ≤ u.time.now)] :
    s.vreqRetry = if s.ptc.pstate ≠ 0 ∧ (∃ d, s.stepDue (s.ptc.pstate - 1) = some d ∧ d ≤ u.time.now) then u.beginStep else u := by
  unfold State.vreqRetry
  rw [h]
  subst hu
  refine if_congr ?_ rfl rfl
  rw [Option.any_eq_true]
  simp only [decide_eq_true_eq]
  rfl

end

/-! ### Temperature (R416, R419) -/

/-- What a temperature sample is judged by. -/
def PtcRun.heat (c : PtcRun) : Int × Nat × List Word := (c.tj, c.band, c.limits)

theorem State.critTemp_heat (s : State) : s.critTemp.ptc.heat = s.ptc.heat := by
  unfold State.critTemp
  split <;> rfl

theorem State.critTemp_crit (s : State) : s.critTemp.ptc.thermCrit = true := by
  unfold State.critTemp
  split
  case isTrue h => exact h
  case isFalse => rfl

theorem State.tempSample_settles {s : State} (hr : s.ready = true) (tj : Int) : ∃ x : State,
    s.tempSample tj = x.settlePtc.followVoltage ∧ x.ptc.heat = (tj, bandOf s.ptc.band tj, s.ptc.limits) ∧
    (s.tempLimit F.GRD_PWR_LIMITS_TJ_CRIT ≤ tj → x.ptc.thermCrit = true) := by
  unfold State.tempSample
  rw [State.else_active hr]
  extract_lets boost top x1 peak x2 x3 x4
  have h2 : x2.ptc.heat = x1.ptc.heat := by
    simp only [x2]
    split <;> rfl
  have h3 : x3.ptc.heat = x1.ptc.heat := by
    rw [← h2]
    simp only [x3]
    split
    · split <;> rfl
    · split <;> rfl
  have h4 : x4.ptc.heat = x1.ptc.heat := by
    rw [← h3]
    simp only [x4]
    split
    · exact x3.critTemp_heat
    · rfl
  refine ⟨x4, rfl, h4, fun hcrit => ?_⟩
  have hlimit : x3.tempLimit F.GRD_PWR_LIMITS_TJ_CRIT ≤ tj := by
    rw [State.tempLimit_congr (s := s) (congrArg (fun p => p.2.2) h3)]
    exact hcrit
  simp only [x4]
  rw [if_pos hlimit]
  exact x3.critTemp_crit

theorem PtcRun.therm_crit {c : PtcRun} (h : c.thermCrit = true) : c.therm = some 4 := if_pos h

theorem State.stepHot_again {s : State} {a p : Nat} (ha : s.ptc.tjMaxAt = some a) (hp : s.ptc.thermMax = some p) :
    s.stepHot.ptc.thermMax = some (min 4 (p + 1)) := by
  unfold State.stepHot State.modPtc
  dsimp only
  rw [ha, hp]

theorem exec_tjMaxStep {s : State} {a : Nat} (hr : s.ready = true) (ha : s.ptc.tjMaxAt = some a) :
    exec .tjMaxStep s = .next (s.advance (a + 100000)).stepHot.settlePtc.finish :=
  next_finish_congr (by unfold State.tjMaxStep; rw [ha]; exact if_pos hr)

/-! ### Current (R419, R420) -/

theorem State.currentEstimate_settles {s : State} (hr : s.ready = true) : ∃ x : State, s.currentEstimate = x.settlePtc ∧
    x.ptc.current = min 65535 (s.powerNow.1 * 1000 / s.ptc.voltage) ∧
    x.ptc.edcTimer = if 8 * s.limit F.GRD_PWR_LIMITS_TDC_A * s.ptc.voltage < s.powerNow.1 * 1000 then s.ptc.edcTimer + 1000
      else s.ptc.edcTimer - 1000 := by
  unfold State.currentEstimate
  rw [State.else_active hr, State.powerNow_eq]
  dsimp -zeta only
  extract_lets amps tdc x1 x2
  have h2 : (x2.ptc.current, x2.ptc.edcTimer) = (x1.ptc.current, x1.ptc.edcTimer) := by
    simp only [x2]
    split
    · rfl
    · split
      · split <;> rfl
      · rfl
  exact ⟨_, rfl, congrArg Prod.fst h2, congrArg Prod.snd h2⟩

/-- The EDC ceiling is no faster than the one of the timer. -/
theorem PtcRun.le_edc {c : PtcRun} {k : Nat} (h : c.edcLong = some k) : ∃ e, c.edc = some e ∧ k ≤ e := by
  unfold PtcRun.edc
  rw [h]
  cases c.edcPeak with
  | none => exact ⟨k, rfl, Nat.le_refl k⟩
  | some a => exact ⟨max a k, rfl, Nat.le_max_right a k⟩

theorem exec_edcTimerExpire {s : State} (hr : s.ready = true) (ht : s.limit F.GRD_PWR_LIMITS_EDC_MS * 1000000 ≤ s.ptc.edcTimer)
    (hl : s.ptc.edcLong = none) : exec .edcTimerExpire s =
      .next (s.modPtc (fun c => { c with edcLong := some (if c.pstate = 0 then 1 else min 4 (c.pstate + 1)) })).settlePtc.finish :=
  next_finish_congr (if_pos ⟨hr, ht, by rw [hl]; rfl⟩)

/-! ### The cap evaluation (R425 to R427) -/

/-- The share as the evaluation allots it to the classes, with the guard's settings and the demand at the requested state (R425). -/
def State.capShares (s : State) : List Nat :=
  allocate s.ptc.share
    [s.fld F.GRD_PWR_CLASS_FLOOR_COMPUTE, s.fld F.GRD_PWR_CLASS_FLOOR_MEMORY, s.fld F.GRD_PWR_CLASS_FLOOR_LINKS]
    ((List.range 3).map (fun c => Config.classPower s.free c s.requested * s.ptc.scale.1 / max 1 s.ptc.scale.2))
    (capOrder (s.fld F.GRD_PWR_CLASS_ORDER))

/-- What deadline traffic leaves of the compute allocation (R426). -/
def State.capCompute (s : State) : Nat :=
  nth s.capShares 0 - capExcess (nth s.capShares 1) (nth s.capShares 2) s.ptc.dlMoved

/-- The fastest state, from the requested one on, that fits the compute allocation; P4 when none does (R427). -/
def State.capState (s : State) : Nat :=
  ((List.range 5).find? (fun p => decide (s.requested ≤ p) &&
    decide (Config.classPower s.free 0 p * s.ptc.scale.1 * 100 ≤ s.capCompute * s.ptc.scale.2 * 100))).getD 4

theorem State.capEvaluate_settles {s : State} (hr : s.ready = true) : ∃ x : State, s.capEvaluate = x.settlePtc ∧ x.regs = s.regs ∧
    x.ptc.alloc = [s.capCompute, nth s.capShares 1, nth s.capShares 2] ∧ x.ptc.limits = s.takeLimits.ptc.limits ∧
    x.ptc.reasons = s.ptc.reasons.mapIdx (fun i r => if i = 2 then { r with held := true, state := s.capState } else r) := by
  unfold State.capEvaluate
  rw [State.else_active hr, show s.takeLimits.nextFree = (s.free, s.takeLimits.freeTaken) from rfl]
  dsimp -zeta only
  extract_lets req floor demand alloc b compute fits cap floored steady excess x1 x2
  have h1 : x1.ptc = s.takeLimits.ptc ∧ x1.regs = s.regs := by
    simp only [x1]
    split <;> exact ⟨rfl, rfl⟩
  have h2 : x2.ptc = s.takeLimits.ptc ∧ x2.regs = s.regs := by
    rw [← h1.1, ← h1.2]
    simp only [x2]
    split <;> exact ⟨rfl, rfl⟩
  obtain ⟨hptc, hregs⟩ := h2
  have hshares : alloc = s.capShares := rfl
  have hcompute : compute = s.capCompute := rfl
  have hcap : cap = s.capState := rfl
  refine ⟨_, rfl, hregs, ?_, ?_, ?_⟩
  · rw [← hshares, ← hcompute]
    rfl
  · unfold State.modPtc
    rw [← hptc]
  · unfold State.modPtc
    rw [← hcap, hptc]
    rfl

/-- Out of Steady mode CAP lowers the state. -/
theorem State.lowers_cap {s : State} (h : s.flag F.PTC_CTRL_STEADY = false) : s.lowers 2 = true := by
  unfold State.lowers
  rw [h]
  rfl

/-- CAP's ceiling is the one that its evaluation put. -/
theorem State.ceilings_cap {s : State} {l : List Ceiling} {cap : Nat} (hl : 2 < l.length)
    (h : s.ptc.reasons = l.mapIdx (fun i r => if i = 2 then { r with held := true, state := cap } else r)) :
    s.ceilings.getD 2 none = some cap := by
  have hcap : s.ptc.reasons.getD 2 Ceiling.off = { l[2] with held := true, state := cap } := by
    rw [h, List.getD_eq_getElem?_getD, List.getElem?_mapIdx, List.getElem?_eq_getElem hl]
    rfl
  show (if (s.ptc.reasons.getD 2 Ceiling.off).held then some (s.ptc.reasons.getD 2 Ceiling.off).state else none) = _
  rw [hcap]
  rfl

/-! ### The statements -/

/-- Settles O53: each edge takes up the ceilings, and ALERT's is P4. -/
theorem alertHoldsSlowest : Obligations.AlertHoldsSlowest := by
  intro s
  obtain ⟨-, -, -, -, hmono, hallowed, -, -⟩ := s.settlePtc_spec
  refine ⟨hallowed, hmono, ?_, fun hlow => ?_, fun due hend => ?_, fun hnone => ?_, fun d hd => ?_⟩
  · have h := (s.modPtc (fun c => { c with alertLow := true, alertEnd := none })).settlePtc_settled.finish
    exact ⟨_, exec_vrAlertNFall s, h.reads PtcRun.alertLow (fun _ => rfl), h.reads PtcRun.alertEnd (fun _ => rfl),
      h.ceiling 3 4 (by decide) rfl rfl⟩
  · exact ⟨exec_vrAlertNRise hlow, fun hc => (exec_vrAlertNRise hlow).trans (congrArg Host.Outcome.next (State.finish_ptc_calm hc _))⟩
  · have h := ((s.advance due).modPtc (fun c => { c with alertEnd := none })).settlePtc_settled.finish
    exact ⟨_, exec_alertHoldExpire hend, h.reads PtcRun.alertEnd (fun _ => rfl), h.reads PtcRun.alertLow (fun _ => rfl), h.now_eq rfl,
      h.pstate⟩
  · have h := (s.modPtc (fun c => { c with droopAt := some s.now })).settlePtc_settled.finish
    exact ⟨_, exec_droop hnone, h.reads PtcRun.droopAt (fun _ => rfl), h.time⟩
  · have h := ((s.advance (d + 1000)).modPtc (fun c => { c with droopAt := none })).settlePtc_settled.finish
    exact ⟨_, exec_droopEnd hd, h.reads PtcRun.droopAt (fun _ => rfl), h.now_eq rfl⟩

/-- Settles O55: a message is taken at once or kept, and the two ends of a comparison. -/
theorem measurementsCompared : Obligations.MeasurementsCompared := by
  intro s
  refine ⟨fun v => ⟨fun hup => exec_share_up hup v,
    fun hwarm => ⟨exec_share_warm hwarm v, exec_meas_warm hwarm v, exec_vack_warm hwarm v⟩, fun hup => ?_⟩,
    fun hr hs => exec_measStale hr hs, fun a ha => ?_⟩
  · have hmeas := (State.finish_ptc (s.meas v.toNat) PtcRun.measured (fun _ => rfl)).trans
      (State.meas_measured (s := s) (by rw [hup]; decide) v.toNat)
    exact ⟨_, exec_meas_up hup v, congrArg (fun p => p.1) hmeas, congrArg (fun p => p.2.1) hmeas, congrArg (fun p => p.2.2) hmeas⟩
  · have h := ((s.advance (a + s.fld F.PTC_EST_CFG_AGREE_MS * 1000000)).modPtc PtcRun.agree).settlePtc_settled.finish
    exact ⟨_, exec_agreeExpire ha, h.reads PtcRun.agreeFrom (fun _ => rfl), h.reads PtcRun.scale (fun _ => rfl),
      h.agreed (PtcRun.agree_est _), h.now_eq rfl⟩

/-- Settles O56: a step up asks, its VACK is short, applies, or takes the state, and its timeout is tried again. -/
theorem voltageSteps : Obligations.VoltageSteps := by
  intro s hup ask
  refine ⟨fun due hr h0 hs ht hv hd => exec_stepUp hr h0 hs ht hv hd, fun v mv hq => ⟨fun hlt => ?_, ?_, fun k hle hs => ?_⟩,
    fun k hs => exec_vreqTimeout hs, fun due hretry => ?_⟩
  · have hexec : exec (.vack v) s = .next s.finish := (exec_vack_up hup v).trans (next_finish_congr (State.vack_short hq hlt))
    exact ⟨hexec, fun hc => hexec.trans (congrArg Host.Outcome.next (State.finish_calm hc))⟩
  · intro t hle hs
    have hexec : exec (.vack v) s = .next t.finish := (exec_vack_up hup v).trans (next_finish_congr (State.vack_applies hq hle hs))
    exact ⟨hexec, fun hc => hexec.trans (congrArg Host.Outcome.next (State.finish_ptc_calm hc _))⟩
  · exact (exec_vack_up hup v).trans (next_finish_congr (State.vack_steps hq hle hs))
  · exact next_finish_congr (State.vreqRetry_eq hretry rfl)

/-- Settles O57: each limit's ceiling is taken up in the same step, and the state in force is then no faster. -/
theorem limitsLowerState : Obligations.LimitsLowerState := by
  intro s hr
  refine ⟨fun tj => ?_, fun a p ha hp => ?_, ?_, fun ht hl => ?_, ?_⟩
  · obtain ⟨x, hx, hheat, hcrit⟩ := State.tempSample_settles hr tj.toInt
    have h := x.settlePtc_settled.followVoltage.finish
    have htj : x.ptc.tj = tj.toInt := congrArg (fun p => p.1) hheat
    have hband : x.ptc.band = bandOf s.ptc.band tj.toInt := congrArg (fun p => p.2.1) hheat
    have hlimits : x.ptc.limits = s.ptc.limits := congrArg (fun p => p.2.2) hheat
    refine ⟨_, next_finish_congr hx, (h.reads PtcRun.tj (fun _ => rfl)).trans htj, (h.reads PtcRun.band (fun _ => rfl)).trans hband,
      fun hboost => h.boost ?_, fun hc => ⟨(h.reads PtcRun.thermCrit (fun _ => rfl)).trans (hcrit hc),
        h.ceiling 0 4 (by decide) rfl (PtcRun.therm_crit (hcrit hc))⟩⟩
    rw [State.tempLimit_congr hlimits, htj]
    exact hboost
  · have h := (s.advance (a + 100000)).stepHot.settlePtc_settled.finish
    refine ⟨_, exec_tjMaxStep hr ha, (h.reads PtcRun.thermMax (fun _ => rfl)).trans (State.stepHot_again ha hp), ?_, h.now_eq rfl⟩
    rw [h.reads PtcRun.tjMaxAt (fun _ => rfl), h.time]
    rfl
  · obtain ⟨x, hx, hcurrent, htimer⟩ := State.currentEstimate_settles hr
    have h := x.settlePtc_settled.finish
    exact ⟨_, next_finish_congr hx, (h.reads PtcRun.current (fun _ => rfl)).trans hcurrent,
      (h.reads PtcRun.edcTimer (fun _ => rfl)).trans htimer⟩
  · have h := (s.modPtc (fun c => { c with
      edcLong := some (if c.pstate = 0 then 1 else min 4 (c.pstate + 1)) })).settlePtc_settled.finish
    obtain ⟨e, he, hle⟩ := PtcRun.le_edc (c := { s.ptc with
      edcLong := some (if s.ptc.pstate = 0 then 1 else min 4 (s.ptc.pstate + 1)) }) rfl
    exact ⟨_, exec_edcTimerExpire hr ht hl, h.reads PtcRun.edcLong (fun _ => rfl), hle.trans (h.ceiling 1 e (by decide) rfl he)⟩
  · obtain ⟨x, hx, hregs, halloc, hlimits, hreasons⟩ := State.capEvaluate_settles hr
    have h := x.settlePtc_settled.finish
    refine ⟨_, next_finish_congr hx, (h.reads PtcRun.alloc (fun _ => rfl)).trans halloc,
      (h.reads PtcRun.limits (fun _ => rfl)).trans hlimits, fun hsteady hlen => ?_⟩
    have hlowers : x.lowers 2 = true := (State.lowers_congr (congrArg (fun q => q.get 0xa00000) hregs) 2).trans (State.lowers_cap hsteady)
    exact h.ceiling 2 s.capState (by decide) hlowers (State.ceilings_cap (by omega) hreasons)

end Sys2Proof.Machine
end

section
/-! PROOFS of the statements about the guard port: what a transaction answers and stores, which WRITE is a command of its own (R500 to
R502), and the writes that act: the voltage table's CRC (R415, R417), FORGET (R489) and a source's severity (R444). -/

namespace Sys2Proof.Machine

open Sys2Proof.Safety

/-! ### Registers of the guard partition -/

theorem regAt_vtableCrc : regAt Row.GRD_VTABLE_CRC.base = some (Row.GRD_VTABLE_CRC, []) := by decide +kernel

theorem regAt_fltSrc (src : Fin 64) : regAt (Row.GRD_FLT_SRC.base + 8 * src.val) = some (Row.GRD_FLT_SRC, [src.val]) := by
  revert src
  decide +kernel

/-! ### A WRITE of a register (R501, R502) -/

/-- The state once a guard register is written: its guard fields, and status 0. -/
abbrev State.guardStored (s : State) (off : Nat) (row : RegRow) (v : Word) : State :=
  { s with guardResp := ⟨0, none⟩, regs := s.regs.set off (storeFields .gw row.fields (s.regs.get off) v) }

section
variable {s : State} {off : Nat} {v : Word} {f : Fetch} {row : RegRow} {ix : List Nat}

theorem State.guardPut_unknown (h : regAt off = none) : s.guardPut off v f = s.guardFail 1 := by
  unfold State.guardPut
  rw [h]

theorem State.guardPut_ctrl : s.guardPut Row.GRD_CTRL.base v f = s.writeGrdCtrl v := by
  obtain ⟨row, hrow⟩ : ∃ row, regAt Row.GRD_CTRL.base = some row := Option.isSome_iff_exists.1 (by decide +kernel)
  unfold State.guardPut
  rw [hrow]
  exact if_pos rfl

theorem State.guardPut_stores (h : regAt off = some (row, ix)) (hc : off ≠ Row.GRD_CTRL.base) (ht : off ≠ Row.GRD_TKO.base) :
    s.guardPut off v f = (s.guardStored off row v).afterGuard off := by
  unfold State.guardPut
  rw [h]
  exact (if_neg hc).trans (if_neg ht)

/-- A write of most registers has no effect of its own. -/
theorem State.afterGuard_plain (ht : off ≠ Row.GRD_VTABLE_CRC.base)
    (hs : ¬ (Row.GRD_FLT_SRC.base ≤ off ∧ off < Row.GRD_FLT_SRC.base + 0x200)) : s.afterGuard off = s :=
  (if_neg ht).trans (if_neg hs)

theorem State.afterGuard_table : s.afterGuard Row.GRD_VTABLE_CRC.base = s.tableWritten := if_pos rfl

theorem State.afterGuard_src (src : Fin 64) : s.afterGuard (Row.GRD_FLT_SRC.base + 8 * src.val) = s.resetSrc src.val := by
  have htable : Row.GRD_FLT_SRC.base + 8 * src.val ≠ Row.GRD_VTABLE_CRC.base := by
    show 0x2002100 + 8 * src.val ≠ 0x2001070
    omega
  have hindex : (Row.GRD_FLT_SRC.base + 8 * src.val - Row.GRD_FLT_SRC.base) / 8 = src.val := by omega
  unfold State.afterGuard
  rw [if_neg htable, if_pos (by omega), hindex]

end

section
variable {s : State}

/-- A bit of a word is 0 or 1, as its truth says. -/
theorem b2n_getBits (v : Word) (i : Nat) : b2n (getBits v i 1 == 1) = getBits v i 1 := by
  have hlt : getBits v i 1 < 2 := Nat.mod_lt _ (by decide)
  rcases (by omega : getBits v i 1 = 0 ∨ getBits v i 1 = 1) with h | h
  · rw [h]; rfl
  · rw [h]; rfl

/-- The bits of the word that DELIVERED writes to GRD_CTRL. -/
theorem delivered_bits (b : Bool) : getBits (BitVec.ofNat 64 (1 + 4 * b2n b)) 0 1 = 1 ∧
    getBits (BitVec.ofNat 64 (1 + 4 * b2n b)) 1 1 = 0 ∧ getBits (BitVec.ofNat 64 (1 + 4 * b2n b)) 2 1 = b2n b := by
  cases b <;> decide

theorem State.writeGrdCtrl_forget {v : Word} (h : getBits v 1 1 = 1) : s.writeGrdCtrl v =
    if s.instLow = true then { s.forget with guardResp := ⟨0, none⟩ } else s.guardFail 2 := if_pos h

/-- Without FORGET, a WRITE of GRD_CTRL is told by DELIVERED and PEER_TOOK alone. -/
theorem State.writeGrdCtrl_congr {v w : Word} (h0 : getBits v 0 1 = getBits w 0 1) (h1 : getBits v 1 1 = getBits w 1 1)
    (h2 : getBits v 2 1 = getBits w 2 1) : s.writeGrdCtrl v = s.writeGrdCtrl w := by
  unfold State.writeGrdCtrl
  rw [h0, h1, h2]

theorem State.tableWritten_invalid (h : s.guardTable = none) :
    s.tableWritten = (s.setFld F.GRD_VTABLE_CRC_VALID 0).raiseOn 0x10 .instance_ := by
  unfold State.tableWritten
  rw [h]

/-- The state once a table that checks is in force. -/
def State.tableTaken (s : State) (x : List Word × Word) : State :=
  (s.setFld F.GRD_VTABLE_CRC_VALID 1).modPtc (fun c => { c with table := some x, fallback := false })

theorem State.tableTaken_active (s : State) (x : List Word × Word) : (s.tableTaken x).active = s.ready := by
  unfold State.active State.tableTaken
  rw [State.modPtc_ready, State.setFld_ready]

theorem State.tableWritten_valid {x : List Word × Word} (h : s.guardTable = some x) :
    s.tableWritten = if s.ready = true then (s.tableTaken x).settlePtc.followVoltage else s.tableTaken x := by
  rw [← s.tableTaken_active x]
  unfold State.tableWritten State.tableTaken
  rw [h]

/-- Whether a source is in rail fault is told by the collector alone, not by its register. -/
theorem State.srcRun_rail_congr {t : State} (h : t.srcs = s.srcs) (src : Nat) : (t.srcRun src).rail = (s.srcRun src).rail := by
  unfold State.srcRun
  rw [h]
  cases s.srcs.find? (fun r => r.source == src) <;> rfl

theorem State.resetSrc_noRail {src : Nat} (h : (s.srcRun src).rail = false) (a : GuardResp) (q : RegFile) :
    ({ s with guardResp := a, regs := q } : State).resetSrc src =
      { s with guardResp := a, regs := q, srcs := s.srcs.filter (fun r => r.source != src) } := by
  unfold State.resetSrc
  rw [State.srcRun_rail_congr (s := s) (t := { s with guardResp := a, regs := q }) rfl, h]
  rfl

/-- The answer, the registers, retained memory, the repair data and the collector's records are no part of what Calm asks for. -/
theorem State.finish_guard_calm (h : Calm s) (a : GuardResp) (q : RegFile) (m : Retained) (l : List (BitVec 32)) (c : List SrcRun) :
    ({ s with guardResp := a, regs := q, retained := m, repair := l, srcs := c } : State).finish =
      { s with guardResp := a, regs := q, retained := m, repair := l, srcs := c } :=
  State.finish_calm (s := { s with guardResp := a, regs := q, retained := m, repair := l, srcs := c }) h

end

/-! ### Transactions (R500 to R502) -/

section
variable {s : State} (hl : s.life ≠ .cold)

include hl

theorem State.guardUp_on : s.guardUp = true := bne_iff_ne.2 hl

theorem State.guardPutNamed_on (off : Nat) (v : Word) (f : Fetch) : s.guardPutNamed off v f = s.guardPut off v f :=
  if_pos (State.guardUp_on hl)

section
variable {q : BitVec 32}

theorem exec_guardRead_malformed (h : headerOk q 0 = false) : exec (.guardRead q) s = .next (s.guardFail 3).finish :=
  next_finish_congr (by unfold State.guardRead; rw [State.guardUp_on hl, h]; rfl)

theorem exec_guardRead_unknown (h : headerOk q 0 = true) (hr : regAt (guardOff q) = none) :
    exec (.guardRead q) s = .next (s.guardFail 1).finish :=
  next_finish_congr (by unfold State.guardRead; rw [State.guardUp_on hl, h, hr]; rfl)

theorem exec_guardRead_word (h : headerOk q 0 = true) (hr : (regAt (guardOff q)).isSome = true) :
    exec (.guardRead q) s = .next ({ s with guardResp := ⟨0, some (s.readWord (guardOff q))⟩ } : State).finish := by
  obtain ⟨row, hrow⟩ := Option.isSome_iff_exists.1 hr
  exact next_finish_congr (by unfold State.guardRead; rw [State.guardUp_on hl, h, hrow]; rfl)

theorem exec_guardWrite_malformed (h : headerOk q 1 = false) (v : Word) :
    exec (.guardWrite q v) s = .next (s.guardFail 3).finish :=
  next_finish_congr (by unfold State.guardWrite; rw [State.guardUp_on hl, h]; rfl)

theorem exec_guardWrite_put (h : headerOk q 1 = true) (v : Word) :
    exec (.guardWrite q v) s = .next (s.guardPut (guardOff q) v []).finish :=
  next_finish_congr (by unfold State.guardWrite; rw [State.guardUp_on hl, h]; rfl)

/-- A WRITE of the register at an offset is the write that a command of that register's own makes. -/
theorem exec_guardWrite_named (h : headerOk q 1 = true) {off : Nat} (ho : guardOff q = off) (v : Word) :
    exec (.guardWrite q v) s = .next (s.guardPutNamed off v []).finish := by
  rw [exec_guardWrite_put hl h, ho, State.guardPutNamed_on hl]

theorem exec_guardRepair_malformed {ws : List (BitVec 32)} (h : repairOk q ws.length = false) :
    exec (.guardRepair q ws) s = .next (s.guardFail 3).finish :=
  next_finish_congr (by unfold State.guardRepair; rw [State.guardUp_on hl, h]; rfl)

theorem exec_guardRepair_late {ws : List (BitVec 32)} (h : repairOk q ws.length = true)
    (ht : s.life ≠ .coldWait ∨ s.flag F.GRD_CTRL_DELIVERED = true) :
    exec (.guardRepair q ws) s = .next (s.guardFail 2).finish :=
  next_finish_congr (by unfold State.guardRepair; rw [State.guardUp_on hl, h]; exact if_pos ht)

theorem exec_guardRepair_taken {ws : List (BitVec 32)} (h : repairOk q ws.length = true) (hw : s.life = .coldWait)
    (hd : s.flag F.GRD_CTRL_DELIVERED = false) : exec (.guardRepair q ws) s =
      .next ({ s with repair := s.repair ++ ws, guardResp := ⟨0, none⟩ } : State).finish :=
  next_finish_congr (by
    unfold State.guardRepair
    rw [State.guardUp_on hl, h]
    exact if_neg (not_or.2 ⟨not_not.2 hw, Bool.eq_false_iff.1 hd⟩))

end

theorem exec_guardTransactionGap : exec .guardTransactionGap s = .next (s.guardFail 3).finish :=
  next_finish_congr (if_pos (State.guardUp_on hl))

/-! ### Writes that are commands of their own (R415, R417, R444, R489) -/

theorem exec_forget : exec .forget s =
    .next (if s.instLow = true then { s.forget with guardResp := ⟨0, none⟩ } else s.guardFail 2).finish :=
  next_finish_congr ((State.guardPutNamed_on hl _ _ _).trans (State.guardPut_ctrl.trans (State.writeGrdCtrl_forget (by decide))))

theorem exec_grdVtableCrc (v : Word) : exec (.grdVtableCrc v) s =
    .next (s.guardStored Row.GRD_VTABLE_CRC.base Row.GRD_VTABLE_CRC v).tableWritten.finish :=
  next_finish_congr ((State.guardPutNamed_on hl _ _ _).trans ((State.guardPut_stores regAt_vtableCrc (by decide) (by decide)).trans
    State.afterGuard_table))

theorem exec_grdFltSrc (src : Fin 64) (v : Word) : exec (.grdFltSrc src v) s =
    .next ((s.guardStored (Row.GRD_FLT_SRC.base + 8 * src.val) Row.GRD_FLT_SRC v).resetSrc src.val).finish := by
  have hctrl : Row.GRD_FLT_SRC.base + 8 * src.val ≠ Row.GRD_CTRL.base := by
    show 0x2002100 + 8 * src.val ≠ 0x2000000
    omega
  have htko : Row.GRD_FLT_SRC.base + 8 * src.val ≠ Row.GRD_TKO.base := by
    show 0x2002100 + 8 * src.val ≠ 0x2003020
    omega
  exact next_finish_congr ((State.guardPutNamed_on hl _ _ _).trans ((State.guardPut_stores (regAt_fltSrc src) hctrl htko).trans
    (State.afterGuard_src src)))

end

/-! ### The statements -/

/-- Settles O45: a transaction is told by its header and its register, and a WRITE that acts is the write of its command. -/
theorem guardTransactions : Obligations.GuardTransactions := by
  intro s h hl off refused read
  refine ⟨fun hh hr => ?_, fun hh hr => exec_guardRead_unknown hl hh hr, fun hh => exec_guardRead_malformed hl hh,
    fun v row ix hh hr hctrl htko htable hsrc => ?_, fun v hh => ⟨fun ho hforget => ?_, fun ho hforget hone => ?_,
      fun ho => exec_guardWrite_named hl hh ho v, fun ho => exec_guardWrite_named hl hh ho v,
      fun src ho => exec_guardWrite_named hl hh ho v,
      fun hr => ?_⟩,
    fun v hh => exec_guardWrite_malformed hl hh v,
    fun ws => ⟨fun hh hw hd => ?_, fun hh => exec_guardRepair_malformed hl hh, fun hh ht => exec_guardRepair_late hl hh ht⟩,
    exec_guardTransactionGap hl⟩
  · have hexec := exec_guardRead_word hl hh hr
    exact ⟨hexec, fun hc => hexec.trans (congrArg Host.Outcome.next (State.finish_guard_calm hc _ _ _ _ _))⟩
  · have hexec : exec (.guardWrite h v) s = .next (s.guardStored off row v).finish :=
      (exec_guardWrite_put hl hh v).trans (next_finish_congr ((State.guardPut_stores hr hctrl htko).trans
        (State.afterGuard_plain htable hsrc)))
    exact ⟨hexec, fun hc => hexec.trans (congrArg Host.Outcome.next (State.finish_guard_calm hc _ _ _ _ _))⟩
  · rw [exec_guardWrite_put hl hh, show guardOff h = Row.GRD_CTRL.base from ho, State.guardPut_ctrl, State.writeGrdCtrl_forget hforget,
      exec_forget hl]
  · obtain ⟨hbit0, hbit1, hbit2⟩ := delivered_bits (getBits v 2 1 == 1)
    rw [exec_guardWrite_put hl hh, show guardOff h = Row.GRD_CTRL.base from ho, exec_delivered, State.guardPutNamed_on hl,
      State.guardPut_ctrl, State.guardPut_ctrl]
    exact next_finish_congr (State.writeGrdCtrl_congr (hone.trans hbit0.symm) (hforget.trans hbit1.symm)
      ((b2n_getBits v 2).symm.trans hbit2.symm))
  · rw [exec_guardWrite_put hl hh, State.guardPut_unknown hr]
    rfl
  · have hexec := exec_guardRepair_taken hl hh hw hd
    exact ⟨hexec, fun hc => hexec.trans (congrArg Host.Outcome.next (State.finish_guard_calm hc _ _ _ _ _))⟩

/-- Settles O46: the table is checked as it stands after the write, FORGET is judged by INST_RST_N, and a source starts anew. -/
theorem guardWritesAct : Obligations.GuardWritesAct := by
  intro s hl
  refine ⟨fun v => ?_, fun hlow => ?_, fun hhigh => ?_, fun src v hrail => ?_⟩
  · intro w u
    refine ⟨fun hbad => ?_, fun x hgood => ?_⟩
    · rw [exec_grdVtableCrc hl, show s.guardStored Row.GRD_VTABLE_CRC.base Row.GRD_VTABLE_CRC v = u from rfl,
        State.tableWritten_invalid hbad]
    · rw [exec_grdVtableCrc hl, show s.guardStored Row.GRD_VTABLE_CRC.base Row.GRD_VTABLE_CRC v = u from rfl,
        State.tableWritten_valid hgood]
      rfl
  · intro t
    have hexec : exec .forget s = .next t.finish := by
      rw [exec_forget hl, if_pos hlow]
      rfl
    exact ⟨hexec, fun hc => hexec.trans (congrArg Host.Outcome.next (State.finish_guard_calm hc _ _ _ _ _))⟩
  · rw [exec_forget hl, if_neg (by rw [hhigh]; decide)]
    rfl
  · intro off t
    have hexec : exec (.grdFltSrc src v) s = .next t.finish :=
      (exec_grdFltSrc hl src v).trans (next_finish_congr (State.resetSrc_noRail hrail _ _))
    exact ⟨hexec, fun hc => hexec.trans (congrArg Host.Outcome.next (State.finish_guard_calm hc _ _ _ _ _))⟩

end Sys2Proof.Machine
end

section
/-! PROOFS of the statements about one step and the queue of commands (R478, R479), host accesses that wait at their crossing (R474,
R516, R517), and the clocks of the domains (R473 to R475). -/

namespace Sys2Proof.Machine

open Sys2Proof.Safety

/-! ### One step -/

section
variable {s : State}

theorem step_cons {c : Instr} {rest : List Instr} (h : s.pending = c :: rest) : step s = exec c { s with pending := rest } := by
  unfold step
  rw [h]

theorem step_nil (h : s.pending = []) : step s = .next s.tclkCycle := by
  unfold step
  rw [h]

theorem State.tclkCycle_held (h : s.tclkHeld = true) : s.tclkCycle = s := if_pos h

/-- A cycle moves local time by 4 ns, or by 2 ns with as much of the backward difference absorbed. -/
theorem State.tclkCycle_moves (h : s.tclkHeld = false) : s.tclkCycle = { s with
    time := ⟨s.time.now + (if s.time.behind = 0 then 4 else 2), s.time.behind - 2, s.time.since.map (· + 4)⟩ } := by
  unfold State.tclkCycle
  rw [if_neg (by rw [h]; decide)]
  by_cases hb : s.time.behind = 0
  · simp only [hb, if_true, Nat.zero_sub]
  · simp only [hb, if_false]

/-- TCLK is in reset, or has no supply. -/
theorem State.tclkHeld_eq_true (h : s.life = .cold ∨ s.life = .noSupply ∨ s.life = .warmLow) : s.tclkHeld = true := by
  unfold State.tclkHeld State.dead State.qclkHeld
  rcases h with h | h | h <;> rw [h] <;> rfl

end

/-! ### Accesses that wait (R474, R516, R517) -/

section
variable {s : State} {r : CsReq} {off len : Nat}

/-- While QCLK is in reset, and behind an access that waits, every access waits. -/
theorem State.accessWaits_of (h : s.life = .warmLow ∨ (Serving s ∧ s.heldCs ≠ [])) : s.dead = false ∧ s.accessWaits = true := by
  unfold State.dead State.accessWaits State.qclkHeld
  rcases h with hl | ⟨⟨hl, hr⟩, hh⟩
  · rw [hl]
    exact ⟨rfl, rfl⟩
  · rw [hl, hr]
    exact ⟨rfl, by simpa using hh⟩

theorem State.csWrite_waits (hd : s.dead = false) (hw : s.accessWaits = true) (v : Word) (f : Fetch) (op : State → State) :
    s.csWrite r off len v f op = s.holdAccess ⟨r, off, len, true, v, f⟩ :=
  (if_neg (by rw [hd]; decide)).trans (if_pos hw)

theorem State.csRead_waits (hd : s.dead = false) (hw : s.accessWaits = true) :
    s.csRead r off len = s.holdAccess ⟨r, off, len, false, 0, []⟩ :=
  (if_neg (by rw [hd]; decide)).trans (if_pos hw)

/-- An access that no check stops, of a register in a stopped domain, waits for its clock. -/
theorem State.waitsFor_stopped {w : Bool} (hd : s.slotStopped off = true) (hf : s.accessFails r off len w = none) :
    s.waitsFor r off len w = true := by
  unfold State.waitsFor
  rw [hf, hd]
  rfl

theorem State.csWrite_stopped (hs : Serving s) (hh : s.heldCs = []) (hw : s.waitsFor r off len true = true) (v : Word) (f : Fetch)
    (op : State → State) :
    s.csWrite r off len v f op = (s.holdAccess ⟨r, off, len, true, v, f⟩).wake (regDomain off) :=
  (if_neg (by rw [Serving.not_dead hs]; decide)).trans ((if_neg (by rw [Serving.not_waiting hs hh]; decide)).trans (if_pos hw))

theorem State.csRead_stopped (hs : Serving s) (hh : s.heldCs = []) (hw : s.waitsFor r off len false = true) :
    s.csRead r off len = (s.holdAccess ⟨r, off, len, false, 0, []⟩).wake (regDomain off) :=
  (if_neg (by rw [Serving.not_dead hs]; decide)).trans ((if_neg (by rw [Serving.not_waiting hs hh]; decide)).trans (if_pos hw))

end

/-! ### The clock of a domain (R473 to R475) -/

section
variable {s : State} {d : Domain}

theorem exec_clkRun : exec (.clkRun d) s = .next (s.clockUp d).finish := rfl

/-- A rise that nothing asked for. -/
theorem State.clkRun_unasked (h : s.clk.askedAt.getD d.bit none = none) : s.clkRun d = s.setClk d (s.wanted d) true none := by
  unfold State.clkRun
  rw [h]

/-- A rise that ends a wake. -/
theorem State.clkRun_asked {t : Nat} (h : s.clk.askedAt.getD d.bit none = some t) :
    s.clkRun d = (s.setClk d true true none).setFlds [(F.GLB_CLK_WAKES, s.fld F.GLB_CLK_WAKES + 1),
      (F.GLB_CLK_WAKE_MAX_NS, min 65535 (max (s.fld F.GLB_CLK_WAKE_MAX_NS) (s.time.now - t)))] := by
  unfold State.clkRun
  rw [h]
  rfl

/-- A rise reaches the registers and what is known of the clocks, and the domain runs. -/
theorem State.clkRun_eq (s : State) (d : Domain) : ∃ req asked q,
    s.clkRun d = { s with clk := ⟨req, s.clk.running.set d.bit true, asked⟩, regs := q } := by
  cases h : s.clk.askedAt.getD d.bit none with
  | none => exact ⟨_, _, _, State.clkRun_unasked h⟩
  | some t =>
    obtain ⟨q, hq⟩ := (s.setClk d true true none).setFlds_eq [(F.GLB_CLK_WAKES, s.fld F.GLB_CLK_WAKES + 1),
      (F.GLB_CLK_WAKE_MAX_NS, min 65535 (max (s.fld F.GLB_CLK_WAKE_MAX_NS) (s.time.now - t)))]
    exact ⟨_, _, q, (State.clkRun_asked h).trans hq⟩

/-- With no access waiting, a rise does no more. -/
theorem State.clockUp_nil (h : s.heldCs = []) : s.clockUp d = s.clkRun d := by
  obtain ⟨req, asked, q, hq⟩ := s.clkRun_eq d
  have hh : (s.clkRun d).heldCs = [] := by rw [hq]; exact h
  unfold State.clockUp
  extract_lets u
  rw [show u.heldCs = [] from hh]
  exact ite_self _

/-- The access that waits for the domain is performed. -/
theorem State.clockUp_one {a : HeldAccess} (hs : Serving s) (h : s.heldCs = [a]) (hd : d.bit < s.clk.running.length)
    (ha : regDomain a.off = d) : s.clockUp d = ({ s.clkRun d with heldCs := [] } : State).performHeld a := by
  obtain ⟨req, asked, q, hq⟩ := s.clkRun_eq d
  have hserve : Serving (s.clkRun d) := by rw [hq]; exact hs
  have hheld : (s.clkRun d).heldCs = [a] := by rw [hq]; exact h
  have hruns : (s.clkRun d).runs d = true := by
    unfold State.runs
    rw [hq]
    simp [List.getD_eq_getElem?_getD, hd]
  have hslot : (s.clkRun d).slotStopped a.off = false := by
    unfold State.slotStopped
    rw [ha, hruns, Bool.not_true, Bool.and_false]
  unfold State.clockUp
  extract_lets u
  rw [if_neg (by rw [Serving.not_dead hserve, Serving.not_held hserve]; decide), show u.heldCs = [a] from hheld]
  show State.performAll 1 u = _
  unfold State.performAll
  rw [show u.heldCs = [a] from hheld]
  exact if_neg (by rw [State.waitsFor_running hslot]; decide)

theorem exec_clkWakeTimeout {t : Nat} (h : s.clk.askedAt.getD d.bit none = some t) :
    exec (.clkWakeTimeout d) s = .next ((s.advance (t + 20000)).raiseOn 0x32 .instance_).finish :=
  next_finish_congr (by unfold State.clkWakeTimeout; rw [h])

theorem exec_clockLoss (hw : s.wanted d = true) (hr : s.runs d = true) : exec (.clockLoss d) s =
    .next ((s.setClk d true false (s.clk.askedAt.getD d.bit none)).raiseOn 0x32 .instance_).finish :=
  next_finish_congr (if_pos ⟨hw, hr⟩)

/-- A domain is idle: nothing in it works, no deadline flow holds it up, and complement neither runs nor ramps. -/
theorem exec_clkIdle (hr : s.ready = true) (hs : canStop d = true) (hd : s.runs d = true) (hb : s.domainBusy d = false)
    (hh : s.domainHeld d = false) (hc : s.ptc.comp = false) (hm : s.ptc.ramp = none) :
    exec (.clkIdle d) s = .next (s.setClk d false false none) := by
  refine congrArg Host.Outcome.next (if_neg ?_)
  simp [State.active, hr, hs, hd, hb, hh, hc, hm]

end

/-! ### The statements -/

/-- Settles O1: a step is judged by the queue alone. -/
theorem stepRunsFront : Obligations.StepRunsFront := fun _ _ _ h => step_cons h

/-- Settles O2: with TCLK running the step is one cycle, and with TCLK held it is none. -/
theorem idleStepPassesTime : Obligations.IdleStepPassesTime := by
  intro s h
  refine ⟨fun hc hn hw => ?_, fun hl => ?_⟩
  · have hcycle := State.tclkCycle_moves (State.tclkHeld_eq_false hc hn hw)
    exact ⟨_, (step_nil h).trans (congrArg Host.Outcome.next hcycle), rfl, rfl, rfl⟩
  · rw [step_nil h, State.tclkCycle_held (State.tclkHeld_eq_true hl)]

/-- Settles O4: every command's own rule leaves the queue (`exec_holds`). -/
theorem commandsLeaveQueue : Obligations.CommandsLeaveQueue := fun c _ _ h => (exec_holds c h).pending

/-- Settles O7: an access is held by what the whole of Birfa waits for, or by the domain of its register. -/
theorem hostAccessWaits : Obligations.HostAccessWaits := by
  intro s r off len v w d
  refine ⟨fun h => ?_, fun hs hh hd hf => ?_, fun hs hh hd hf => ?_⟩
  · obtain ⟨halive, hwaits⟩ := State.accessWaits_of h
    exact ⟨(exec_registerWrite r off len v s).trans (next_finish_congr (State.csWrite_waits halive hwaits _ _ _)),
      (exec_registerRead r off len s).trans (next_finish_congr (State.csRead_waits halive hwaits))⟩
  · exact (exec_registerWrite r off len v s).trans
      (next_finish_congr (State.csWrite_stopped hs hh (State.waitsFor_stopped hd hf) _ _ _))
  · exact (exec_registerRead r off len s).trans (next_finish_congr (State.csRead_stopped hs hh (State.waitsFor_stopped hd hf)))

/-- Settles O51: a rise shows the clock running before what waited is performed; the other three commands are one branch each. -/
theorem clocksRunAndStop : Obligations.ClocksRunAndStop := by
  intro s d
  refine ⟨fun hh hn => ?_, fun a hs hh hd ha => ?_, fun t ht => ⟨fun hh => ?_, exec_clkWakeTimeout ht⟩, exec_clkIdle, exec_clockLoss⟩
  · rw [exec_clkRun, State.clockUp_nil hh, State.clkRun_unasked hn]
  · rw [exec_clkRun, State.clockUp_one hs hh hd ha]
  · rw [exec_clkRun, State.clockUp_nil hh, State.clkRun_asked ht]

end Sys2Proof.Machine
end

section
/-! PROOFS of the statements about the fabric: what a response, a missing one and an error do to the transaction they belong to (R504,
R509, R510), and how a port replays, is fenced and refuses a MSG (R506 to R508). -/

namespace Sys2Proof.Machine

open Sys2Proof.Safety

/-! ### Responses (R504, R509, R510) -/

section
variable {s : State}

/-- While READY is set the fabric ports act. -/
theorem State.onFabric_serving (hs : Serving s) (op : State → State) : s.onFabric op = op s :=
  if_neg (by rw [Serving.not_dead hs, Serving.not_held hs]; decide)

theorem exec_rdData (hs : Serving s) (tag : BitVec 16) (st : RespStatus) (d : List Byte) :
    exec (.rdData tag st d) s = .next (s.response tag.toNat true (st == .ok) d).finish :=
  next_finish_congr (State.onFabric_serving hs _)

theorem exec_ack (hs : Serving s) (tag : BitVec 16) (st : RespStatus) :
    exec (.ack tag st) s = .next (s.response tag.toNat false (st == .ok) []).finish :=
  next_finish_congr (State.onFabric_serving hs _)

theorem exec_fabricTimeout (hs : Serving s) (tag : BitVec 16) :
    exec (.fabricTimeout tag) s = .next (s.fabricTimeout tag.toNat).finish :=
  next_finish_congr (State.onFabric_serving hs _)

section
variable {x : Txn} {tag : Nat} {isRead : Bool}

/-- A response that matches nothing is discarded. -/
theorem State.response_unmatched (h : s.txns.find? (fun x => x.tag == tag && (x.op == .rd) == isRead) = none) (ok : Bool)
    (d : List Byte) : s.response tag isRead ok d = s := by
  unfold State.response
  rw [h]

/-- While READY is set the response of a transaction in flight is heard. -/
theorem State.response_matched (hr : s.ready = true)
    (h : s.txns.find? (fun x => x.tag == tag && (x.op == .rd) == isRead) = some x) (ok : Bool) (d : List Byte) :
    s.response tag isRead ok d =
      if ok = false ∨ (isRead = true ∧ d.length ≠ x.len) then ((s.retireTxn x).lateRead x).gotError x
      else if isRead = true then ((s.retireTxn x).lateRead x).gotData x d else ((s.retireTxn x).lateRead x).gotAck x := by
  have hhears : (s.retireTxn x).hears = true := hr
  unfold State.response
  rw [h]
  dsimp only
  rw [if_neg (by rw [hhears]; decide)]
  simp only [Bool.not_eq_true']

theorem State.response_data (hr : s.ready = true)
    (h : s.txns.find? (fun x => x.tag == tag && (x.op == .rd) == true) = some x) (st : RespStatus) (d : List Byte) :
    s.response tag true (st == .ok) d = if st = .ok ∧ d.length = x.len then ((s.retireTxn x).lateRead x).gotData x d
      else ((s.retireTxn x).lateRead x).gotError x := by
  rw [State.response_matched hr h]
  by_cases hst : st = .ok
  · by_cases hlen : d.length = x.len <;> simp [hst, hlen]
  · simp [hst]

theorem State.response_acked (hr : s.ready = true)
    (h : s.txns.find? (fun x => x.tag == tag && (x.op == .rd) == false) = some x) (st : RespStatus) :
    s.response tag false (st == .ok) [] = if st = .ok then ((s.retireTxn x).lateRead x).gotAck x
      else ((s.retireTxn x).lateRead x).gotError x := by
  rw [State.response_matched hr h]
  by_cases hst : st = .ok <;> simp [hst]

/-- A transaction without a response ends as an error at its timeout. -/
theorem State.fabricTimeout_matched (hr : s.ready = true) (h : s.txns.find? (fun x => x.tag == tag) = some x) :
    s.fabricTimeout tag = (((({ s with txns := s.txns.erase x } : State).freeMover x.purpose).advance (x.issued + 100000)).incFld
      F.GLB_FABRIC_TIMEOUTS).gotError x := by
  unfold State.fabricTimeout
  rw [h]
  exact if_pos hr

end

/-! ### Ports (R507, R508) -/

theorem exec_linkCrcFail (hs : Serving s) (p : Fin 16) : exec (.linkCrcFail p) s = .next (s.linkFail p.val).finish :=
  next_finish_congr (State.onFabric_serving hs _)

theorem exec_creditViolation (hs : Serving s) (p : Fin 16) : exec (.creditViolation p) s = .next (s.fencePort p.val).finish :=
  next_finish_congr (State.onFabric_serving hs _)

/-- The failures of the flit that a port is replaying. -/
def State.crcFailsOf (s : State) (p : Nat) : Nat := ((s.crcFails.find? (fun c => c.1 == p)).map (·.2)).getD 0

section
variable {p : Nat}

theorem State.fencePort_again (h : s.portFenced p = true) : s.fencePort p = s := if_pos h

theorem State.linkFail_fenced (h : s.portFenced p = true) : s.linkFail p = s := if_pos h

theorem State.linkFail_ninth (h : s.portFenced p = false) (hn : 8 ≤ s.crcFailsOf p) : s.linkFail p = s.fencePort p :=
  (if_neg (by rw [h]; decide)).trans (if_pos hn)

theorem State.linkFail_replays (h : s.portFenced p = false) (hn : s.crcFailsOf p < 8) : s.linkFail p =
    ({ s with crcFails := putBy (fun c => c.1 == p) (p, s.crcFailsOf p + 1) s.crcFails } : State).incFld F.GLB_FABRIC_REPLAYS :=
  (if_neg (by rw [h]; decide)).trans (if_neg (Nat.not_le.2 hn))

/-- The state once a port is listed as fenced, shown in FLT_FENCE and counted, with FABRIC_LINK raised for it. -/
def State.portListed (s : State) (p : Nat) : State :=
  ((({ s with
    fencedUnits := s.fencedUnits ++ [FenceUnit.port p],
    crcFails := s.crcFails.filter (fun c => c.1 != p) } : State).incFld F.FLT_STATUS_UNITS_FENCED).setFlds
      [(F.FLT_FENCE_UNIT, p), (F.FLT_FENCE_KIND, 3), (F.FLT_FENCE_SPARE_TAKEN, 0)]).raise 0x2A
      { FaultInfo.of .instance_ with unit := some (FenceUnit.port p) }

theorem State.incFld_txns (s : State) (f : Field) : (s.incFld f).txns = s.txns := rfl

theorem State.setFlds_txns (s : State) (l : List (Field × Nat)) : (s.setFlds l).txns = s.txns := by
  obtain ⟨q, hq⟩ := s.setFlds_eq l
  rw [hq]

theorem State.portListed_txns (s : State) (p : Nat) : (s.portListed p).txns = s.txns := by
  unfold State.portListed
  rw [State.raise_txns, State.setFlds_txns, State.incFld_txns]

/-- Each transaction of a port that is fenced ends as an error, in order. -/
theorem State.fencePort_ends (h : s.portFenced p = false) : s.fencePort p =
    (s.txns.filter (fun x => x.port == p)).foldl (fun (u : State) x =>
      let v := ({ u with txns := u.txns.erase x } : State).freeMover x.purpose
      if v.ready = true then v.gotError x else v) (s.portListed p) := by
  rw [← s.portListed_txns p]
  unfold State.fencePort
  rw [if_neg (by rw [h]; decide)]
  rfl

end

/-- The registers and the replays of the ports are no part of what Calm asks for. -/
theorem State.finish_link_calm (h : Calm s) (c : List (Nat × Nat)) (a : CsResp) (q : RegFile) :
    ({ s with crcFails := c, resp := a, regs := q } : State).finish = { s with crcFails := c, resp := a, regs := q } :=
  State.finish_calm (s := { s with crcFails := c, resp := a, regs := q }) h

/-! ### Messages that are refused (R506) -/

theorem exec_badMsg (hs : Serving s) (node : Nat) (type : BitVec 16) (d : List Byte) :
    exec (.badMsg node type d) s = .next (s.message node type.toNat d []).finish :=
  next_finish_congr (State.onFabric_serving hs _)

/-- A MSG from no compute die, of an unknown type, or a FALLBACK with another OP. -/
theorem State.message_refused (hs : Serving s) {node type : Nat} {d : List Byte}
    (h : 0x20 ≤ node ∨ type = 0 ∨ 4 < type ∨ (type = 4 ∧ byteAt d 2 ≠ 1 ∧ byteAt d 2 ≠ 2)) (f : Fetch) :
    s.message node type d f = s.badMsg := by
  unfold State.message
  rw [if_neg (by rw [Serving.not_dead hs]; decide)]
  dsimp only
  split
  · rfl
  · rename_i hnode
    obtain h | rfl | h | ⟨rfl, hop⟩ := h
    · exact absurd h hnode
    · rfl
    · match type, h with
      | n + 5, _ => rfl
    · exact if_pos hop

end

/-! ### The statements -/

/-- Settles O41: a response is told by the transaction that it matches, and a timeout by the one that still waits. -/
theorem fabricResponses : Obligations.FabricResponses := by
  intro s tag hs
  have hr := hs.2
  refine ⟨fun x st d hx => ?_, fun x st hx => ?_, fun st d => ⟨fun hx => ?_, fun hx => ?_⟩, fun x hx => ?_⟩
  · rw [exec_rdData hs, State.response_data hr hx]
  · rw [exec_ack hs, State.response_acked hr hx]
  · rw [exec_rdData hs, State.response_unmatched hx]
    exact ⟨rfl, fun hc => congrArg Host.Outcome.next (State.finish_calm hc)⟩
  · rw [exec_ack hs, State.response_unmatched hx]
    exact ⟨rfl, fun hc => congrArg Host.Outcome.next (State.finish_calm hc)⟩
  · rw [exec_fabricTimeout hs, State.fabricTimeout_matched hr hx]

/-- Settles O42: a failure is replayed or fences, a credit violation fences, and the three MSGs are refused alike. -/
theorem linkErrors : Obligations.LinkErrors := by
  intro s p hs fails replayed listed fenced refused
  refine ⟨fun hp => ⟨fun hn => ?_, fun hn => ?_, ?_⟩, fun hp => ⟨?_, ?_⟩, fun node type d hm => ?_⟩
  · rw [exec_linkCrcFail hs, State.linkFail_replays hp hn]
    exact ⟨rfl, fun hc => congrArg Host.Outcome.next (State.finish_link_calm hc _ _ _)⟩
  · rw [exec_linkCrcFail hs, State.linkFail_ninth hp hn, State.fencePort_ends hp]
    rfl
  · rw [exec_creditViolation hs, State.fencePort_ends hp]
    rfl
  · rw [exec_linkCrcFail hs, State.linkFail_fenced hp]
  · rw [exec_creditViolation hs, State.fencePort_again hp]
  · rw [exec_badMsg hs, State.message_refused hs hm]
    exact ⟨rfl, fun hc => congrArg Host.Outcome.next (State.finish_link_calm hc _ _ _)⟩

end Sys2Proof.Machine
end

section
/-! PROOFS of the statements about the fault collector and the takeover: how an event of a source is handled, counted, captured and acted
on (R437, R439, R441, R444, R445, R447, R467), and how a takeover starts and its claims time out (R459, R461, R465, R471). -/

namespace Sys2Proof.Machine

open Sys2Proof.Safety

/-! ### Commands of the collector -/

section
variable {s : State}

/-- The always-on domain acts while AON_RST_N is high. -/
theorem State.whileOn_on (hl : s.life ≠ .cold) (op : State → State) : s.whileOn op = op s := if_neg hl

theorem exec_faultEvent (hl : s.life ≠ .cold) (src : BitVec 8) (i : FaultInfo) :
    exec (.faultEvent src i) s = .next (s.faultEvent src.toNat i).finish := next_finish_congr (State.whileOn_on hl _)

theorem exec_railFault (hl : s.life ≠ .cold) (src : BitVec 8) (i : FaultInfo) :
    exec (.railFault src i) s = .next (s.railFault src.toNat i).finish := next_finish_congr (State.whileOn_on hl _)

theorem exec_railFaultEnd (hl : s.life ≠ .cold) (src : BitVec 8) :
    exec (.railFaultEnd src) s = .next (s.railFaultEnd src.toNat).finish := next_finish_congr (State.whileOn_on hl _)

theorem exec_escalationDecay (hl : s.life ≠ .cold) (src : BitVec 8) :
    exec (.escalationDecay src) s = .next (s.escDecay src.toNat) := congrArg Host.Outcome.next (State.whileOn_on hl _)

theorem exec_collectorSelfCheck (hl : s.life ≠ .cold) (pass : Bool) :
    exec (.collectorSelfCheck pass) s = .next { s with selfFail := !pass } := congrArg Host.Outcome.next (State.whileOn_on hl _)

/-! ### Events from outside (R437, R439, R467) -/

section
variable {src : Nat} (hk : (fltDefaults src).isSome = true)

include hk

/-- An event of a listed source is raised after its local handling, unless it is a link error. -/
theorem State.faultEvent_raises {i : FaultInfo} (h : src ≠ 0x2A ∨ ∀ p, i.unit ≠ some (.port p)) :
    s.faultEvent src i = (s.localHandling src i).raise src i := by
  unfold State.faultEvent
  rw [if_neg (by rw [Option.isNone_eq_false_iff.2 hk]; decide)]
  split
  · rename_i p hu
    exact (h.elim (fun hs => absurd rfl hs) (fun hp => absurd hu (hp p)))
  · rfl

theorem State.railFault_raises (hr : (s.srcRun src).rail = false) (i : FaultInfo) : s.railFault src i =
    (((s.setSrc { s.srcRun src with rail := true }).incFld F.FLT_STATUS_RAIL_FAULTS).localHandling 0x2F
      { i with synd := BitVec.ofNat 32 src }).raise 0x2F { i with synd := BitVec.ofNat 32 src } :=
  if_neg (by rw [Option.isNone_eq_false_iff.2 hk, hr]; decide)

/-- Of a source without escalation whose pair is good, one event counts once and takes the level as it is. -/
theorem State.countEvent_plain (hr : (s.srcRun src).rail = false) (hv : (s.srcRun src).level ≠ 0)
    (hn : s.fld (F.GRD_FLT_SRC_ESC_N src) = 0) : s.countEvent src =
      ((s.incFld (F.FLT_SRC_STATE_COUNT src)).setSrc { s.srcRun src with window := [], since := (s.srcRun src).since + 1 },
        (s.srcRun src).level) := by
  unfold State.countEvent
  dsimp only
  rw [if_neg (by simp [Option.isNone_eq_false_iff.2 hk, hr, hv]), if_neg (by simp [hn]), if_pos (Or.inl hn)]

end

/-- A link error of a port that is not fenced fences it. -/
theorem State.faultEvent_fences {i : FaultInfo} {p : Nat} (hu : i.unit = some (.port p)) (hp : p < 16)
    (hf : s.portFenced p = false) : s.faultEvent 0x2A i = s.fencePort p := by
  unfold State.faultEvent
  rw [if_neg (by decide), hu]
  exact if_pos ⟨hp, by rw [hf]; rfl⟩

/-- A rail fault that ends leaves the pair good, and the next armed injection begins. -/
theorem State.railFaultEnd_ends {src : Nat} (hr : (s.srcRun src).rail = true) : s.railFaultEnd src =
    if s.armed src = true then (s.setSrc { s.srcRun src with rail := false }).injectRail
    else s.setSrc { s.srcRun src with rail := false } := by
  unfold State.railFaultEnd State.railEnd
  rw [if_pos hr]
  rfl

theorem State.escDecay_falls {src : Nat} (hw : s.escWindow src ≠ 0) (hv : s.fld (F.GRD_FLT_SRC_SEV src) < (s.srcRun src).level)
    (hn : (s.srcRun src).since < s.fld (F.GRD_FLT_SRC_ESC_N src)) : s.escDecay src =
      (s.advance ((s.srcRun src).changed + s.escWindow src)).setSrc { s.srcRun src with
        level := (s.srcRun src).level - 1, changed := (s.srcRun src).changed + s.escWindow src, since := 0 } :=
  if_pos ⟨hw, hv, hn⟩

/-! ### What is raised (R441, R443, R445) -/

/-- With nothing else raised, the collector finds the one event on the state as it was. -/
theorem State.raise_cleared (h : s.raised = []) (src : Nat) (i : FaultInfo) :
    ({ s.raise src i with raised := [] } : State) = s := by
  show ({ s with raised := [] } : State) = s
  rw [← h]

/-- One event that is counted is captured, and its action is the widest. -/
theorem State.processRaised_one {src level : Nat} {i : FaultInfo} {t : State} (h : s.raised = [])
    (hc : s.countEvent src = (t, level)) (hv : level ≠ 0) :
    (s.raise src i).processRaised = (t.capture src i level).act src i.charge level := by
  have hraised : (s.raise src i).raised = [(src, i)] := by
    show s.raised ++ [(src, i)] = _
    rw [h]
    rfl
  unfold State.processRaised
  dsimp only
  rw [hraised, State.raise_cleared h]
  simp only [List.isEmpty_cons, Bool.false_eq_true, if_false, List.foldl_cons, List.foldl_nil, hc, hv]
  rfl

/-- The collector's records are no part of what Calm asks for. -/
theorem State.finish_setSrc_calm (h : Calm s) (r : SrcRun) : (s.setSrc r).finish = s.setSrc r :=
  State.finish_calm (s := s.setSrc r) h

end

/-! ### How a takeover starts (R459, R465, R471) -/

section
variable {s : State} {f : Fetch}

theorem exec_grdTko (hl : s.life ≠ .cold) (v : Word) (f : Fetch) :
    exec (.grdTko v f) s = .next (({ s with guardResp := ⟨0, none⟩ } : State).writeTko v f).finish := by
  obtain ⟨row, hrow⟩ : ∃ row, regAt Row.GRD_TKO.base = some row := Option.isSome_iff_exists.1 (by decide +kernel)
  refine next_finish_congr ((State.guardPutNamed_on hl _ v f).trans ?_)
  unfold State.guardPut
  rw [hrow]
  exact (if_neg (by decide)).trans (if_pos rfl)

theorem exec_takeoverClaimTimeout (hr : s.ready = true) :
    exec .takeoverClaimTimeout s = .next s.takeoverTimeout.finish := next_finish_congr (s.whenUp_ready hr _)

theorem State.takeover_again (ht : s.tko.isSome = true) : s.takeover f = s.raiseOn 0x31 .instance_ := if_pos ht

/-- The state in which a takeover that no attempt stands before has asked for the headers of the peer's areas. -/
def State.headersRead (s : State) (f : Fetch) : State :=
  let x := s.clearTko.setFld F.FLT_TKO_STATUS_STATE 1
  x.peerAreas.foldl (fun s a => s.lackAnswer f a 64) x

/-- Without a header of the peer the takeover is over. -/
theorem State.takeover_headless (hr : s.ready = true) (ht : s.tko = none) (hj : s.job = none)
    (hh : (s.headersRead f).peerHome f = none) : s.takeover f = (s.headersRead f).setFld F.FLT_TKO_STATUS_STATE 3 := by
  have hactive : s.active = true := hr
  unfold State.takeover
  rw [if_neg (by rw [ht]; decide), if_neg (by rw [hactive]; decide), hj]
  extract_lets u x w
  rw [show w.peerHome f = none from hh]
  rfl

end

/-! ### What the end of a takeover leaves (R459, R461) -/

/-- The takeover and the attempt that run, the live forme, and local time. -/
def State.tkoView (s : State) : Option TkoRun × Option Job × Forme × TimeRun := (s.tko, s.job, s.forme, s.time)

theorem State.foldl_tkoView {α : Type} {f : State → α → State} (hf : ∀ s x, (f s x).tkoView = s.tkoView) (l : List α) (s : State) :
    (l.foldl f s).tkoView = s.tkoView := by
  induction l generalizing s with
  | nil => rfl
  | cons x l ih => rw [List.foldl_cons, ih, hf]

section
variable (s : State)

theorem State.setFld_tkoView (f : Field) (v : Nat) : (s.setFld f v).tkoView = s.tkoView := rfl

theorem State.incFld_tkoView (f : Field) : (s.incFld f).tkoView = s.tkoView := rfl

theorem State.modCq_tkoView (q : Nat) (g : CqRing → CqRing) : (s.modCq q g).tkoView = s.tkoView := rfl

theorem State.setFlds_tkoView (l : List (Field × Nat)) : (s.setFlds l).tkoView = s.tkoView :=
  State.foldl_tkoView (fun s _ => s.setFld_tkoView _ _) l s

theorem State.issueWrite_tkoView (a : Nat) (d : List Byte) (p : Purpose) : (s.issueWrite a d p).tkoView = s.tkoView := by
  obtain ⟨x, n, h⟩ := s.issueWrite_eq a d p
  rw [h]
  rfl

theorem State.interrupt_tkoView (t vec : Nat) : (s.interrupt t vec).tkoView = s.tkoView := by
  unfold State.interrupt
  extract_lets e
  split
  · obtain ⟨x, n, h⟩ := s.issue_eq .msg 0 0 0 0x0011 (s.hostNode t) (leBytes 2 (e.hostFn % 8192) ++ leBytes 2 vec) (.interrupt t vec)
    rw [h]
    rfl
  · rfl

theorem State.tenFault_tkoView (t : Nat) (b : Nat → Field) : (s.tenFault t b).tkoView = s.tkoView := by
  unfold State.tenFault
  dsimp only
  split
  · rw [State.interrupt_tkoView, State.setFld_tkoView]
  · exact s.setFld_tkoView _ _

theorem State.cqInterrupt_tkoView (cq : Nat) : (s.cqInterrupt cq).tkoView = s.tkoView := by
  unfold State.cqInterrupt
  split
  · dsimp only
    split
    · rw [State.interrupt_tkoView, State.modCq_tkoView]
    · rfl
  · rfl

theorem State.releaseSlot_tkoView (x : Option (Nat × Nat)) : (s.releaseSlot x).tkoView = s.tkoView := by
  unfold State.releaseSlot
  split <;> rfl

theorem State.writeEntry_tkoView (c : CqRing) (d : DueEntry) : (s.writeEntry c d).tkoView = s.tkoView := by
  unfold State.writeEntry
  rw [State.releaseSlot_tkoView, State.cqInterrupt_tkoView, State.issueWrite_tkoView, State.modCq_tkoView, State.issueWrite_tkoView]

/-- A record of the peer's journal is posted on a ring, or counted. -/
theorem State.postTakenRecord_tkoView (d : List Byte) : (s.postTakenRecord d).tkoView = s.tkoView := by
  unfold State.postTakenRecord
  extract_lets ten cq skip
  have hskip : ∀ u : State, (skip u).tkoView = u.tkoView := fun u => u.incFld_tkoView _
  split
  · exact hskip s
  · split
    · exact hskip s
    · split
      · exact (hskip _).trans (s.incFld_tkoView _)
      · exact (State.writeEntry_tkoView _ _ _).trans (s.incFld_tkoView _)

theorem State.showTko_tkoView (l : List (Nat × Nat × Nat × Nat)) : (s.showTko l).tkoView = s.tkoView := by
  unfold State.showTko
  extract_lets u n
  exact (u.setFlds_tkoView _).trans (State.foldl_tkoView (fun s _ => s.setFlds_tkoView _) _ s)

/-- A takeover with no flow left ends, and no attempt runs. -/
theorem State.finishTakeover_empty (k : TkoRun) {j : Job} (h : j.added = []) :
    (s.finishTakeover k j).tkoView = (none, none, s.forme, s.time) := by
  unfold State.finishTakeover
  rw [if_pos (by rw [h]; rfl)]
  extract_lets u v w x tens
  have hw : w.tkoView = u.tkoView := (State.foldl_tkoView State.postTakenRecord_tkoView _ v).trans (u.showTko_tkoView _)
  have hx : x.tkoView = ({ w with tko := none } : State).tkoView := State.setFlds_tkoView _ _
  clear_value x w v
  rw [State.foldl_tkoView (fun s t => s.tenFault_tkoView t _), hx]
  show (none, w.tkoView.2) = (none, u.tkoView.2)
  rw [hw]

end

/-- When no flow of a takeover holds its claims at CLAIM_MS, all are refused, and the takeover ends. -/
theorem State.takeoverTimeout_empty {s : State} {k : TkoRun} {j : Job} (hk : s.tko = some k) (hj : s.job = some j)
    (hkind : j.kind = .takeover) (hheld : j.held = false) (hshort : ∀ x ∈ j.added, j.short x ≠ []) :
    s.takeoverTimeout.tkoView =
      (none, none, s.forme, (s.advance (k.started + s.fld F.GRD_TKO_CLAIM_MS * 1000000)).time) := by
  -- The moment stays a name: comparing the states would compute with its literals.
  obtain ⟨due, hdue⟩ : ∃ due, k.started + s.fld F.GRD_TKO_CLAIM_MS * 1000000 = due := ⟨_, rfl⟩
  unfold State.takeoverTimeout
  rw [hk, hj]
  refine (congrArg State.tkoView (if_pos ⟨hkind, by rw [hheld]; rfl⟩)).trans ?_
  rw [hdue]
  extract_lets t lost out f flows fitted sized ps ts left entries u
  have hadded : left.added = [] := by
    refine List.filter_eq_nil_iff.2 (fun x hx => ?_)
    have hlost : x ∈ lost := List.mem_filter.2 ⟨hx, by simpa using hshort x hx⟩
    simpa [out] using hlost
  exact State.finishTakeover_empty u entries hadded

/-! ### The statements -/

/-- Settles O43: an event is raised or fences its port, and what is raised alone is counted, captured and acted on at once. -/
theorem faultEventsAct : Obligations.FaultEventsAct := by
  intro s src i hl hk r
  refine ⟨fun h => ?_, fun p h2a hu hp hf => ?_, fun hr => ?_, fun hr => ⟨fun ha => ?_, fun ha => ?_⟩, fun hn hr hv he => ?_,
    fun hw hv he => ?_, exec_collectorSelfCheck hl⟩
  · rw [exec_faultEvent hl, State.faultEvent_raises hk h]
  · rw [exec_faultEvent hl, h2a, State.faultEvent_fences hu hp hf]
  · rw [exec_railFault hl, State.railFault_raises hk hr]
  · rw [exec_railFaultEnd hl, State.railFaultEnd_ends hr, if_neg (by rw [ha]; decide)]
    exact ⟨rfl, fun hc => congrArg Host.Outcome.next (State.finish_setSrc_calm hc _)⟩
  · rw [exec_railFaultEnd hl, State.railFaultEnd_ends hr, if_pos ha]
  · exact State.processRaised_one hn (State.countEvent_plain hk hr hv he) hv
  · rw [exec_escalationDecay hl, State.escDecay_falls hw hv he]

/-- Settles O44: the write stores CLAIM_MS before GO is judged, and the timeout refuses each flow that is short. -/
theorem takeoverRuns : Obligations.TakeoverRuns := by
  intro s hs
  have hl : s.life ≠ .cold := by rw [hs.1]; decide
  refine ⟨fun v f => ?_, fun k j hk hj hkind hheld hshort => ?_⟩
  · intro u
    refine ⟨fun hgo => ?_, fun hgo ht => ?_, fun hgo ht hj => ?_⟩
    · exact (exec_grdTko hl v f).trans (next_finish_congr (if_neg (by rw [hgo]; decide)))
    · exact (exec_grdTko hl v f).trans (next_finish_congr ((if_pos hgo).trans (State.takeover_again (s := u) ht)))
    · intro x w hh
      exact (exec_grdTko hl v f).trans (next_finish_congr ((if_pos hgo).trans (State.takeover_headless (s := u) hs.2 ht hj hh)))
  · have hview := State.takeoverTimeout_empty hk hj hkind hheld hshort
    obtain ⟨htko, hjob, hforme, htime⟩ :
        s.takeoverTimeout.tko = none ∧ s.takeoverTimeout.job = none ∧ s.takeoverTimeout.forme = s.forme ∧
          s.takeoverTimeout.time = (s.advance (k.started + s.fld F.GRD_TKO_CLAIM_MS * 1000000)).time := by
      simpa [State.tkoView] using hview
    exact ⟨s.takeoverTimeout, exec_takeoverClaimTimeout hs.2, htko, hjob, hforme, by rw [htime, State.advance_now]⟩

end Sys2Proof.Machine
end

section
/-! PROOFS of the statements about resets: what a cold reset and a warm one leave (R466, R480, R484, R488), and what GLB_RESET and a
flush that is not seen do (R442, R481, R486, R487, R491). -/

namespace Sys2Proof.Machine

open Sys2Proof.Safety

/-! ### Cold resets and cold starts (R466, R480, R482) -/

section
variable {s : State}

theorem exec_aonRstNLow : exec .aonRstNLow s = .next s.coldReset := rfl

theorem exec_alwaysOnSupplyLoss : exec .alwaysOnSupplyLoss s = .next s.coldReset := rfl

theorem exec_tmodeChange {level : Bool} (h : level ≠ s.tmode) :
    exec (.tmodeChange level) s = .next ({ s with tmode := level } : State).coldReset :=
  congrArg Host.Outcome.next (if_neg h)

theorem exec_coldStart (hl : s.life = .cold) (lanes : Fin 145) (entropy : Fin 53) (credits : BitVec 16) :
    exec (.coldStart lanes entropy credits) s = .next { s with
      life := .coldWait, lanesGood := lanes.val, entropyGood := entropy.val, credits := credits.toNat, clk := ClkRun.all } :=
  congrArg Host.Outcome.next (if_pos hl)

end

/-! ### The registers that a warm reset leaves (R484, R519) -/

/-- A file of which the entries of some offsets are kept holds those, and no other. -/
theorem RegFile.find_filter (r : RegFile) (p : Nat → Bool) (off : Nat) :
    RegFile.find (r.filter (fun e => p e.1)) off = if p off = true then r.find off else none := by
  induction r with
  | nil => simp [RegFile.find]
  | cons e r ih =>
    obtain ⟨o, w⟩ := e
    by_cases ho : o = off
    · subst ho
      by_cases hp : p o = true
      · simp [RegFile.find, hp]
      · rw [List.filter_cons_of_neg (by exact hp), ih, if_neg hp, if_neg hp]
    · by_cases hp : p o = true
      · simp [RegFile.find, hp, ho, ih]
      · rw [List.filter_cons_of_neg (by exact hp), ih]
        simp [RegFile.find, ho]

theorem RegFile.get_filter (r : RegFile) (p : Nat → Bool) (off : Nat) :
    RegFile.get (r.filter (fun e => p e.1)) off = if p off = true then r.get off else resetWord off := by
  unfold RegFile.get
  rw [RegFile.find_filter]
  split <;> rfl

section
variable (s : State)

/-- Register space at its Reset values, but for the kept registers and the counts of fenced units. -/
theorem State.get_resetRegs {off : Nat} (h : off ≠ Row.FLT_STATUS.base) :
    s.resetRegs.regs.get off = if keptReg off = true then s.regs.get off else resetWord off := by
  have hcounts : ∀ x ∈ fenceCounts.map (fun f => (f, s.fld f)), x.1.off ≠ off := by
    simp only [fenceCounts, List.map_cons, List.map_nil, List.forall_mem_cons, List.not_mem_nil, false_implies, implies_true, and_true]
    exact ⟨h.symm, h.symm, h.symm⟩
  unfold State.resetRegs
  rw [State.get_setFlds_other _ hcounts]
  exact RegFile.get_filter _ _ _

/-- The registers of the always-on domain as a warm reset leaves them: the kept ones, without what the guard delivers anew. -/
def State.dropRegs (s : State) : State :=
  s.resetRegs.setFlds [(F.GRD_CTRL_DELIVERED, 0), (F.GRD_CTRL_FORGET, 0), (F.GRD_IDENT_INSTANCE, 0), (F.GRD_IDENT_DIE_SERIAL, 0)]

theorem State.get_dropRegs {off : Nat} (hf : off ≠ Row.FLT_STATUS.base) (hc : off ≠ Row.GRD_CTRL.base)
    (hi : off ≠ Row.GRD_IDENT.base) :
    s.dropRegs.regs.get off = if keptReg off = true then s.regs.get off else resetWord off := by
  rw [← s.get_resetRegs hf]
  refine State.get_setFlds_other _ ?_
  simp only [List.forall_mem_cons, List.not_mem_nil, false_implies, implies_true, and_true]
  exact ⟨hc.symm, hc.symm, hi.symm, hi.symm⟩

/-- Whatever the registers are then, a warm reset leaves these fields so. -/
theorem State.dropAll_fields (life : Life) :
    (s.dropAll life).regs = s.dropRegs.regs ∧ (s.dropAll life).life = life ∧ (s.dropAll life).instLow = s.instLow ∧
    (s.dropAll life).ready = false ∧ (s.dropAll life).tasks = [] ∧ (s.dropAll life).sqs = [] ∧ (s.dropAll life).cqs = [] ∧
    (s.dropAll life).txns = [] ∧ (s.dropAll life).job = none ∧ (s.dropAll life).retained = s.retained ∧
    (s.dropAll life).repair = s.repair ∧ (s.dropAll life).time.now = s.time.now ∧ (s.dropAll life).pending = s.pending := by
  -- The registers stay a name: comparing the states would compute their words.
  obtain ⟨k, hk⟩ : ∃ k, s.dropRegs = k := ⟨_, rfl⟩
  rw [hk]
  unfold State.dropRegs at hk
  unfold State.dropAll
  rw [hk]
  exact ⟨rfl, rfl, rfl, rfl, rfl, rfl, rfl, rfl, rfl, rfl, rfl, rfl, rfl⟩

end

/-! ### What a warm reset leaves (R484, R488) -/

/-- u is s after a warm reset: nothing is under way, the registers are at their Reset values but for the kept ones, and retained
memory, the repair data, local time and the queue stand. -/
def WarmCleared (s u : State) : Prop :=
  u.ready = false ∧ u.tasks = [] ∧ u.sqs = [] ∧ u.cqs = [] ∧ u.txns = [] ∧ u.job = none ∧
  u.retained = s.retained ∧ u.repair = s.repair ∧ u.time.now = s.time.now ∧ u.pending = s.pending ∧
  (∀ off, keptReg off = false → off ≠ Row.FLT_STATUS.base → u.regs.get off = resetWord off) ∧
  (∀ off, keptReg off = true → off ≠ Row.GRD_CTRL.base → off ≠ Row.GRD_IDENT.base → u.regs.get off = s.regs.get off)

theorem State.dropAll_cleared (s : State) (life : Life) : WarmCleared s (s.dropAll life) := by
  obtain ⟨hregs, -, -, hready, htasks, hsqs, hcqs, htxns, hjob, hret, hrep, htime, hpend⟩ := s.dropAll_fields life
  refine ⟨hready, htasks, hsqs, hcqs, htxns, hjob, hret, hrep, htime, hpend, fun off hk hf => ?_, fun off hk hc hi => ?_⟩
  · have hc : off ≠ Row.GRD_CTRL.base := by rintro rfl; exact absurd hk (by decide)
    have hi : off ≠ Row.GRD_IDENT.base := by rintro rfl; exact absurd hk (by decide)
    rw [hregs, s.get_dropRegs hf hc hi, hk]
    rfl
  · have hf : off ≠ Row.FLT_STATUS.base := by rintro rfl; exact absurd hk (by decide)
    rw [hregs, s.get_dropRegs hf hc hi, if_pos hk]

/-- The accesses that wait, BIRFA_ALIVE and the clocks are no part of what a warm reset clears. -/
theorem WarmCleared.upd_heldCs_aliveOn_clk {s u : State} (h : WarmCleared s u) (l : List HeldAccess) (a : Bool) (c : ClkRun) :
    WarmCleared s { u with heldCs := l, aliveOn := a, clk := c } := h

/-- A warm reset is told by what it keeps of the state before it. -/
theorem WarmCleared.of_kept {s t u : State} (h : WarmCleared t u) (hm : t.retained = s.retained) (hr : t.repair = s.repair)
    (ht : t.time = s.time) (hp : t.pending = s.pending) (hg : ∀ off, keptReg off = true → t.regs.get off = s.regs.get off) :
    WarmCleared s u := by
  obtain ⟨hready, htasks, hsqs, hcqs, htxns, hjob, hret, hrep, htime, hpend, hreset, hkept⟩ := h
  exact ⟨hready, htasks, hsqs, hcqs, htxns, hjob, hret.trans hm, hrep.trans hr, htime.trans (congrArg TimeRun.now ht), hpend.trans hp,
    hreset, fun off hk hc hi => (hkept off hk hc hi).trans (hg off hk)⟩

section
variable {s : State}

theorem State.inProgress_nil (hh : s.heldCs = []) (ht : s.tens.all (fun t => t.stalled.isEmpty) = true) : s.inProgress = [] := by
  have hstalled : s.tens.flatMap (·.stalled) = [] :=
    List.flatMap_eq_nil_iff.2 (fun t hm => List.isEmpty_iff.1 (List.all_eq_true.1 ht t hm))
  unfold State.inProgress
  rw [hh, hstalled]
  rfl

/-- With no access in progress, a warm reset ends none. -/
theorem State.enterWarm_eq (h : s.inProgress = []) : s.enterWarm = { s.dropAll .warmLow with heldCs := [] } := by
  unfold State.enterWarm
  rw [h]
  rfl

theorem State.enterWarm_cleared (h : s.inProgress = []) : WarmCleared s s.enterWarm := by
  rw [State.enterWarm_eq h]
  exact (s.dropAll_cleared .warmLow).upd_heldCs_aliveOn_clk [] _ _

theorem State.enterWarm_life (h : s.inProgress = []) : s.enterWarm.life = .warmLow ∧ s.enterWarm.instLow = s.instLow := by
  obtain ⟨-, hlife, hlow, -⟩ := s.dropAll_fields .warmLow
  rw [State.enterWarm_eq h]
  obtain ⟨u, hu⟩ : ∃ u, s.dropAll .warmLow = u := ⟨_, rfl⟩
  rw [hu] at hlife hlow ⊢
  exact ⟨hlife, hlow⟩

theorem exec_instRstNLow (hl : s.life = .up ∨ s.life = .halted ∨ s.life = .warmWait) :
    exec .instRstNLow s = .next ({ s with instLow := true } : State).enterWarm.finish := by
  refine next_finish_congr ?_
  unfold State.instLowEdge
  rcases hl with hl | hl | hl <;> rw [hl]

theorem exec_instanceSupplyLoss (hl : s.life ≠ .cold) : exec .instanceSupplyLoss s =
    .next { s.dropAll .noSupply with aliveOn := false, heldCs := [], clk := State.reset.clk } :=
  congrArg Host.Outcome.next (if_neg hl)

end

/-! ### GLB_RESET (R486, R487, R491) -/

section
variable {s : State} {r : CsReq} {v : Word} {f : Fetch}

theorem exec_glbResetWarm (h : ManagementMay r s) (v : Word) :
    exec (.glbResetWarm r v) s = .next ((answered s).glbReset r v []).finish := next_finish_congr (State.hostWrite_reset h)

theorem exec_perDomainReset (h : ManagementMay r s) (v : Word) (f : Fetch) :
    exec (.perDomainReset r v f) s = .next ((answered s).glbReset r v f).finish := next_finish_congr (State.hostWrite_reset h)

theorem exec_formeReload (h : ManagementMay r s) (v : Word) (f : Fetch) :
    exec (.formeReload r v f) s = .next ((answered s).glbReset r v f).finish := next_finish_congr (State.hostWrite_reset h)

/-- A write of GLB_RESET with bit 35 clears REJECTED before it acts. -/
def State.rejectedCleared (s : State) (v : Word) : State := if getBits v 35 1 = 1 then s.setFld F.GLB_RESET_REJECTED 0 else s

theorem State.rejectedCleared_eq (s : State) (v : Word) : ∃ q, s.rejectedCleared v = { s with regs := q } ∧
    ∀ off, off ≠ Row.GLB_RESET.base → q.get off = s.regs.get off := by
  unfold State.rejectedCleared
  split
  · exact ⟨_, rfl, fun off ho => RegFile.get_set_other _ _ ho⟩
  · exact ⟨s.regs, rfl, fun _ _ => rfl⟩

theorem State.rejectedCleared_unset (h : getBits v 35 1 = 0) : s.rejectedCleared v = s := if_neg (by rw [h]; decide)

theorem State.glbReset_unkeyed (h : getBits v 16 16 ≠ 0xB1FA) : s.glbReset r v f = s.logAccess r Row.GLB_RESET.base :=
  if_pos (.inl h)

/-- While no forme reload runs, a write with the key acts by its KIND. -/
theorem State.glbReset_keyed (hk : getBits v 16 16 = 0xB1FA) (h0 : getBits v 0 2 ≠ 0) (h2 : getBits v 0 2 = 2 → getBits v 4 5 ≠ 0)
    (hr : s.reloading = false) : s.glbReset r v f =
      if getBits v 0 2 = 1 then ((s.rejectedCleared v).setFld F.GLB_RESET_LAST_KIND 1).enterWarm
      else if getBits v 0 2 = 2 then ((s.rejectedCleared v).setFld F.GLB_RESET_LAST_KIND 2).domainReset (getBits v 4 5) f
      else if (s.rejectedCleared v).lockupBusy = true then (s.rejectedCleared v).setFld F.GLB_RESET_REJECTED 1
      else ((s.rejectedCleared v).setFld F.GLB_RESET_LAST_KIND 3).startReload f := by
  have hreload : (s.rejectedCleared v).reloading = false := by
    obtain ⟨q, hq, -⟩ := s.rejectedCleared_eq v
    rw [hq]
    exact hr
  have hvalid : ¬ (getBits v 16 16 ≠ 0xB1FA ∨ (getBits v 0 2 = 2 ∧ getBits v 4 5 = 0)) :=
    not_or.2 ⟨not_not.2 hk, fun h => h2 h.1 h.2⟩
  exact (if_neg hvalid).trans ((if_neg h0).trans (if_neg (Bool.eq_false_iff.1 hreload)))

/-- KIND 3 is judged by whether an attempt runs. -/
theorem State.glbReset_reload (hk : getBits v 16 16 = 0xB1FA) (h3 : getBits v 0 2 = 3) (hr : s.reloading = false) :
    s.glbReset r v f = if (s.rejectedCleared v).lockupBusy = true then (s.rejectedCleared v).setFld F.GLB_RESET_REJECTED 1
      else ((s.rejectedCleared v).setFld F.GLB_RESET_LAST_KIND 3).startReload f := by
  rw [State.glbReset_keyed hk (by rw [h3]; decide) (fun h2 => absurd h2 (by rw [h3]; decide)) hr, if_neg (by rw [h3]; decide),
    if_neg (by rw [h3]; decide)]

/-- A forme reload is in its quoin phase at once, with the live forme. -/
theorem State.startReload_job (s : State) (f : Fetch) :
    (s.startReload f).job.map (fun j => (j.kind, j.phase, j.forme)) = some (.reload, 5, s.forme) := rfl

end

/-! ### Per-domain reset (R486) -/

section
variable (s : State)

theorem State.wake_eq (d : Domain) : ∃ c, s.wake d = { s with clk := c } := by
  unfold State.wake
  split
  · exact ⟨s.clk, rfl⟩
  · exact ⟨_, rfl⟩

theorem State.wakeAll_eq : ∃ c, s.wakeAll = { s with clk := c } := by
  obtain ⟨c, hc⟩ := s.wake_eq .pclk
  obtain ⟨e, he⟩ := (s.wake .pclk).wake_eq .eclk
  obtain ⟨g, hg⟩ := ((s.wake .pclk).wake .eclk).wake_eq .fclk
  exact ⟨g, by unfold State.wakeAll; rw [hg, he, hc]⟩

/-- The settings that a domain takes from retained memory reach the registers alone. -/
theorem State.foldl_both_eq (l : RegFile) : ∃ q p,
    l.foldl (fun (s : State) e => { s with regs := s.regs.set e.1 e.2, shadow := s.shadow.set e.1 e.2 }) s =
      { s with regs := q, shadow := p } := by
  induction l generalizing s with
  | nil => exact ⟨s.regs, s.shadow, rfl⟩
  | cons e l ih =>
    obtain ⟨q, p, h⟩ := ih { s with regs := s.regs.set e.1 e.2, shadow := s.shadow.set e.1 e.2 }
    exact ⟨q, p, h⟩

theorem State.resetDomainRegs_eq (d : Domain) : ∃ q p c x,
    s.resetDomainRegs d = { s with regs := q, shadow := p, captures := c, frac := x } := by
  unfold State.resetDomainRegs
  extract_lets mine kept u
  obtain ⟨q, p, h⟩ := u.foldl_both_eq kept
  exact ⟨q, p, u.captures, u.frac, h⟩

/-- TCLK's reset reaches local time and its registers, and wakes the stopped domains. -/
theorem State.domainReset_tclk (f : Fetch) :
    (s.domainReset 16 f).time = { s.time with behind := 0, since := none } ∧ (s.domainReset 16 f).tasks = s.tasks := by
  have hreset : s.domainReset 16 f = s.wakeAll.resetTclk := rfl
  obtain ⟨c, hc⟩ := s.wakeAll_eq
  rw [hreset, hc]
  unfold State.resetTclk
  obtain ⟨q, p, cs, x, h⟩ := State.resetDomainRegs_eq
    { s with clk := c, time := { s.time with behind := 0, since := none } } .tclk
  rw [h]
  exact ⟨rfl, rfl⟩

/-! ### A flush that is not seen (R442, R481) -/

theorem State.haltNow_frame : s.haltNow.life = .halted ∧ s.haltNow.ready = false ∧ s.haltNow.aliveOn = false ∧
    s.haltNow.raised = s.raised := by
  unfold State.haltNow
  extract_lets u w
  obtain ⟨q, hq⟩ := w.setFlds_eq [(F.FLT_STATUS_HALTED, 1), (F.FRM_STATUS_PHASE, 0)]
  have hraised : u.raised = s.raised := by
    unfold u
    split
    · exact State.setFld_raised _ _ _
    · rfl
  rw [hq]
  exact ⟨rfl, rfl, rfl, hraised⟩

end

theorem exec_flushTimeout {s : State} (hl : s.life = .up) : exec .flushTimeout s =
    .next (s.raiseOn 0x32 .instance_).haltNow.finish := by
  refine next_finish_congr (if_neg ?_)
  unfold State.dead
  rw [hl]
  decide

/-! ### The statements -/

/-- Settles O47: three of the commands are one reset, and a start out of it is one branch. -/
theorem coldResetClears : Obligations.ColdResetClears := by
  intro s cold
  exact ⟨exec_aonRstNLow, exec_alwaysOnSupplyLoss, fun level h => exec_tmodeChange h,
    fun lanes entropy credits hl => exec_coldStart hl lanes entropy credits⟩

/-- Settles O49: each of the three drops everything but what the always-on supply holds, with no access in progress to end. -/
theorem warmResetClears : Obligations.WarmResetClears := by
  intro s _ hh hstalled cleared
  have hidle : s.inProgress = [] := State.inProgress_nil hh hstalled
  refine ⟨fun hl => ?_, fun r v h hk h1 hr => ?_, fun hl => ?_⟩
  · let t : State := { s with instLow := true }
    obtain ⟨hlife, hlow⟩ := State.enterWarm_life (s := t) hidle
    exact ⟨t.enterWarm, exec_instRstNLow hl, hlife, hlow, State.enterWarm_cleared (s := t) hidle⟩
  · obtain ⟨q, hq, hget⟩ := (answered s).rejectedCleared_eq v
    obtain ⟨t, ht⟩ : ∃ t, t = ({ answered s with regs := q } : State).setFld F.GLB_RESET_LAST_KIND 1 := ⟨_, rfl⟩
    have hheld : t.heldCs = [] := by rw [ht, State.setFld_heldCs]; exact hh
    have htens : t.tens = s.tens := by rw [ht, State.setFld_tens]; rfl
    have hidle : t.inProgress = [] := State.inProgress_nil hheld (by rw [htens]; exact hstalled)
    have hreset : (answered s).glbReset r v [] = t.enterWarm := by
      rw [State.glbReset_keyed (s := answered s) hk (by rw [h1]; decide) (fun h2 => absurd h2 (by rw [h1]; decide)) hr, if_pos h1, hq, ht]
    refine ⟨t.enterWarm, (exec_glbResetWarm h v).trans (next_finish_congr hreset), (State.enterWarm_life hidle).1,
      (State.enterWarm_cleared hidle).of_kept ?_ ?_ ?_ ?_ (fun off hkept => ?_)⟩
    · rw [ht, State.setFld_retained]; rfl
    · rw [ht, State.setFld_repair]; rfl
    · rw [ht, State.setFld_time]; rfl
    · rw [ht, State.setFld_pending]; rfl
    · have hoff : off ≠ Row.GLB_RESET.base := by rintro rfl; exact absurd hkept (by decide)
      rw [ht, State.setFld_get hoff]
      exact hget off hoff
  · exact ⟨_, exec_instanceSupplyLoss hl, rfl, rfl, (s.dropAll_cleared .noSupply).upd_heldCs_aliveOn_clk [] false _⟩

/-- Settles O50: a write with the key acts by its KIND, and one without it is logged; a flush that is not seen halts. -/
theorem domainResetsAndReload : Obligations.DomainResetsAndReload := by
  intro s
  refine ⟨fun r v f h => ?_, fun f => s.domainReset_tclk f, fun hl => ?_⟩
  · intro u
    refine ⟨fun hk hb hr => ⟨fun h2 hd => ?_, fun h3 hj ht => ?_, fun h3 hj => ?_⟩, fun hk => ⟨?_, ?_⟩⟩
    · rw [exec_perDomainReset h, State.glbReset_keyed (s := u) hk (by rw [h2]; decide) (fun _ => hd) hr,
        State.rejectedCleared_unset hb, if_neg (by rw [h2]; decide), if_pos h2]
    · have hbusy : u.lockupBusy = false := State.lockupBusy_eq_false hj ht
      refine ⟨(u.setFld F.GLB_RESET_LAST_KIND 3).startReload f, ?_, rfl, ?_⟩
      · rw [exec_formeReload h, State.glbReset_reload (s := u) hk h3 hr, State.rejectedCleared_unset hb, hbusy]
        rfl
      · rw [State.startReload_job, State.setFld_forme]
        rfl
    · have hbusy : u.lockupBusy = true := Bool.or_eq_true_iff.2 (.inl hj)
      rw [exec_formeReload h, State.glbReset_reload (s := u) hk h3 hr, State.rejectedCleared_unset hb, hbusy]
      rfl
    · rw [exec_perDomainReset h, State.glbReset_unkeyed hk]
    · rw [exec_formeReload h, State.glbReset_unkeyed hk]
  · obtain ⟨hlife, hready, halive, hraised⟩ := (s.raiseOn 0x32 .instance_).haltNow_frame
    exact ⟨_, exec_flushTimeout hl, hlife, hready, halive, hraised⟩

end Sys2Proof.Machine
end
